-- ==== Sys2Proof/Word.lean ====
section
/-!
DEFINITION. Words of the Glisuro Teruz: the widths every other file names (spec/00_scope.md R8,
spec/13_encoding.md R211).
-/
namespace Sys2Proof

/-- A byte of memory. -/
abbrev Byte := BitVec 8
/-- A v register's value in one lane (R165). -/
abbrev W32 := BitVec 32
/-- An a or s register's value, an address, or an instruction word (R165, R209). -/
abbrev W64 := BitVec 64

end Sys2Proof
end

