-- ==== Sys2Proof/Syntax.lean ====
section
/-!
DEFINITION. The syntax of the machine: one constructor of `Instr` for each row of
spec/opcode_table.json. An instruction word keeps every field of its format as bits (spec/13_encoding.md
R211, R213), because the trap record of an illegal word holds the word itself (R231) and every field
may hold an illegal value. A device step has no encoding; its constructor carries the operands that say
which agent moves or which input arrives.
-/
namespace Sys2Proof

/-- The head of every instruction word: stall count, predicate, predicate inversion (R211). -/
structure Head where
  stl : BitVec 4
  ps : BitVec 3
  pn : BitVec 1
  deriving DecidableEq, Repr

/-- Format X (R213). -/
structure FmtX where
  d : BitVec 8
  a : BitVec 8
  b : BitVec 8
  c : BitVec 8
  ty : BitVec 4
  md : BitVec 8
  deriving DecidableEq, Repr

/-- Format I (R213). -/
structure FmtI where
  d : BitVec 8
  a : BitVec 8
  ty : BitVec 4
  imm : BitVec 24
  deriving DecidableEq, Repr

/-- Format K (R213). -/
structure FmtK where
  d : BitVec 8
  ty : BitVec 4
  imm : BitVec 32
  deriving DecidableEq, Repr

/-- Format M (R213). -/
structure FmtM where
  d : BitVec 8
  base : BitVec 8
  sp : BitVec 4
  sz : BitVec 4
  sc : BitVec 2
  q : BitVec 2
  off : BitVec 16
  deriving DecidableEq, Repr

/-- Format B (R213). -/
structure FmtB where
  reg : BitVec 8
  off : BitVec 24
  flg : BitVec 12
  deriving DecidableEq, Repr

/-- Format T (R213); `m1` is M−1. -/
structure FmtT where
  c : BitVec 8
  a : BitVec 8
  w : BitVec 8
  m1 : BitVec 8
  ty : BitVec 4
  acc : BitVec 4
  fl : BitVec 4
  deriving DecidableEq, Repr

/-- Format E (R213). -/
structure FmtE where
  cnt : BitVec 8
  la : BitVec 8
  lb : BitVec 8
  dst : BitVec 8
  mode : BitVec 12
  deriving DecidableEq, Repr

/-- Format S (R213). -/
structure FmtS where
  d : BitVec 8
  a : BitVec 8
  code : BitVec 28
  deriving DecidableEq, Repr

/-- The sixteen type codes (spec/13_encoding.md R221). -/
inductive Ty where
  | i32 | n32 | i64 | n64 | f32 | f16 | bf16 | e4m3 | e5m2 | e2m1 | i4x | i8 | n8 | q24 | i16 | n16
  deriving DecidableEq, Repr

/-- What an 8-bit register field names (spec/13_encoding.md R219); `bad` is every code the table does
not list. -/
inductive Opd where
  | v (n : Nat)
  | a (n : Nat)
  | s (n : Nat)
  | qd
  | qdPeek
  | qv
  | zero
  | inl (z : Int)
  | bad
  deriving DecidableEq, Repr

/-- The rounding modes (spec/05_number_formats.md R85). -/
inductive Rnd where
  | rne | rtz | rdn | rup | rss
  deriving DecidableEq, Repr

/-- The condition codes (spec/14_isa_compute.md R238). -/
inductive Cond where
  | eq | ne | lt | le | gt | ge | ord | un | ueq | une | ult | ule | ugt | uge
  deriving DecidableEq, Repr

/-- The scopes (spec/06_model_near.md R98), narrowest first. -/
inductive Scope where
  | team | clu | dev | sys
  deriving DecidableEq, Repr

/-- The four operand stores (spec/03_operand_stores.md R35), in the order of the STORE field. -/
inductive StoreId where
  | s | a | w | c
  deriving DecidableEq, Repr

/-- The address spaces (spec/02_address_spaces.md R15). -/
inductive Space where
  | g
  | store (st : StoreId)
  | k
  | m
  deriving DecidableEq, Repr

/-- What an access needs of its leaf (spec/02_address_spaces.md R24). -/
inductive Access where
  | read | write | readWrite | fetch
  deriving DecidableEq, Repr

/-- The split that a TRCMD names (spec/12_traps_preemption.md R202). -/
structure HeldId where
  ctx : BitVec 16
  vcore : BitVec 8
  wave : BitVec 4
  split : BitVec 2
  deriving DecidableEq, Repr

/-- A request of a peer (spec/07_model_far.md R123, spec/24_host_and_fabric.md R369): a read of `n` bytes, or an atomic with
the operation code of R272, the type code and the operands, which are answered; a reduction or an addition to a version
counter, which travel as posted writes. -/
inductive PeerReq where
  | read (n : Nat)
  | atomic (op : BitVec 3) (ty : BitVec 4) (v : BitVec 64)
  | compareSwap (ty : BitVec 4) (new cmp : BitVec 64)
  | red (op : BitVec 3) (ty : BitVec 4) (v : BitVec 64)
  | count (v : BitVec 64)
  deriving DecidableEq, Repr

/-- The structures whose errors spec/25_service.md R379 names, with the position of the error, and the
errors that other rules decide: a head-cache entry (R189), a join counter (R189), a log slot (R68), a
granule of a store page (R68), a line of memory (R379). -/
inductive ErrStruct where
  | core (phys : Nat)
  | arrayColumn (core : Nat)
  | l2Way (slice : Nat)
  | hbmRow (line : Nat)
  | linkLane (port : Nat)
  | headCache (die prio idx : Nat) (memoryToo : Bool)
  | joinCounter (launch : Nat) (memoryToo : Bool)
  | logSlot (set pg : Nat)
  deriving DecidableEq, Repr

/-- One constructor for each row of spec/opcode_table.json. -/
inductive Instr where
  /-- `NOP` (R341); bits [43:0] are ignored and kept. -/
  | nop (h : Head) (bits : BitVec 44)
  /-- `HINT` (R341, format S). -/
  | hint (h : Head) (f : FmtS)
  /-- `HINT_SPACE` (R341): minors 32 to 63, the minor's low five bits and bits [43:0] kept. -/
  | hintSpace (h : Head) (fn : BitVec 5) (bits : BitVec 44)
  /-- `UNASSIGNED_ENCODING` (R231): the whole word. -/
  | unassignedEncoding (w : BitVec 64)
  /-- `ADD` (R235, format X). -/
  | add (h : Head) (f : FmtX)
  /-- `SUB` (R235, format X). -/
  | sub (h : Head) (f : FmtX)
  /-- `MUL` (R235, format X). -/
  | mul (h : Head) (f : FmtX)
  /-- `MULHI` (R235, format X). -/
  | mulhi (h : Head) (f : FmtX)
  /-- `MAD` (R235, format X). -/
  | mad (h : Head) (f : FmtX)
  /-- `MADHI` (R235, format X). -/
  | madhi (h : Head) (f : FmtX)
  /-- `MIN` (R235, format X). -/
  | min (h : Head) (f : FmtX)
  /-- `MAX` (R235, format X). -/
  | max (h : Head) (f : FmtX)
  /-- `ABS` (R235, format X). -/
  | abs (h : Head) (f : FmtX)
  /-- `NEG` (R235, format X). -/
  | neg (h : Head) (f : FmtX)
  /-- `CLAMP` (R235, format X). -/
  | clamp (h : Head) (f : FmtX)
  /-- `SAD4` (R235, format X). -/
  | sad4 (h : Head) (f : FmtX)
  /-- `AND` (R236, format X). -/
  | and (h : Head) (f : FmtX)
  /-- `OR` (R236, format X). -/
  | or (h : Head) (f : FmtX)
  /-- `XOR` (R236, format X). -/
  | xor (h : Head) (f : FmtX)
  /-- `ANDN` (R236, format X). -/
  | andn (h : Head) (f : FmtX)
  /-- `NOT` (R236, format X). -/
  | not (h : Head) (f : FmtX)
  /-- `SHL` (R236, format X). -/
  | shl (h : Head) (f : FmtX)
  /-- `SHR` (R236, format X). -/
  | shr (h : Head) (f : FmtX)
  /-- `SAR` (R236, format X). -/
  | sar (h : Head) (f : FmtX)
  /-- `ROTL` (R236, format X). -/
  | rotl (h : Head) (f : FmtX)
  /-- `BFX` (R237, format I). -/
  | bfx (h : Head) (f : FmtI)
  /-- `BFI` (R237, format I). -/
  | bfi (h : Head) (f : FmtI)
  /-- `POPC` (R236, format X). -/
  | popc (h : Head) (f : FmtX)
  /-- `CLZ` (R236, format X). -/
  | clz (h : Head) (f : FmtX)
  /-- `CTZ` (R236, format X). -/
  | ctz (h : Head) (f : FmtX)
  /-- `BREV` (R236, format X). -/
  | brev (h : Head) (f : FmtX)
  /-- `LSEL` (R236, format X). -/
  | lsel (h : Head) (f : FmtX)
  /-- `CMP` (R239, format X). -/
  | cmp (h : Head) (f : FmtX)
  /-- `SEL` (R239, format X). -/
  | sel (h : Head) (f : FmtX)
  /-- `SETP` (R239, format X). -/
  | setp (h : Head) (f : FmtX)
  /-- `GETP` (R239, format X). -/
  | getp (h : Head) (f : FmtX)
  /-- `PAND` (R239, format X). -/
  | pand (h : Head) (f : FmtX)
  /-- `POR` (R239, format X). -/
  | por (h : Head) (f : FmtX)
  /-- `PXOR` (R239, format X). -/
  | pxor (h : Head) (f : FmtX)
  /-- `PNOT` (R239, format X). -/
  | pnot (h : Head) (f : FmtX)
  /-- `FADD` (R241, format X). -/
  | fadd (h : Head) (f : FmtX)
  /-- `FSUB` (R241, format X). -/
  | fsub (h : Head) (f : FmtX)
  /-- `FMUL` (R241, format X). -/
  | fmul (h : Head) (f : FmtX)
  /-- `FFMA` (R241, format X). -/
  | ffma (h : Head) (f : FmtX)
  /-- `FDIV` (R241, format X). -/
  | fdiv (h : Head) (f : FmtX)
  /-- `FSQRT` (R241, format X). -/
  | fsqrt (h : Head) (f : FmtX)
  /-- `FRCP` (R241, format X). -/
  | frcp (h : Head) (f : FmtX)
  /-- `FRSQ` (R241, format X). -/
  | frsq (h : Head) (f : FmtX)
  /-- `FMIN` (R243, format X). -/
  | fmin (h : Head) (f : FmtX)
  /-- `FMAX` (R243, format X). -/
  | fmax (h : Head) (f : FmtX)
  /-- `FCLAMP` (R241, format X). -/
  | fclamp (h : Head) (f : FmtX)
  /-- `FEXP2` (R241, format X). -/
  | fexp2 (h : Head) (f : FmtX)
  /-- `FLOG2` (R241, format X). -/
  | flog2 (h : Head) (f : FmtX)
  /-- `FSINPI` (R241, format X). -/
  | fsinpi (h : Head) (f : FmtX)
  /-- `FCOSPI` (R241, format X). -/
  | fcospi (h : Head) (f : FmtX)
  /-- `FFLOOR` (R241, format X). -/
  | ffloor (h : Head) (f : FmtX)
  /-- `FCEIL` (R241, format X). -/
  | fceil (h : Head) (f : FmtX)
  /-- `FTRUNC` (R241, format X). -/
  | ftrunc (h : Head) (f : FmtX)
  /-- `FROUND` (R241, format X). -/
  | fround (h : Head) (f : FmtX)
  /-- `FCMP` (R244, format X). -/
  | fcmp (h : Head) (f : FmtX)
  /-- `FCLASS` (R245, format X). -/
  | fclass (h : Head) (f : FmtX)
  /-- `CVT` (R246, format X). -/
  | cvt (h : Head) (f : FmtX)
  /-- `PACK2` (R247, format X). -/
  | pack2 (h : Head) (f : FmtX)
  /-- `UNPACK2` (R247, format X). -/
  | unpack2 (h : Head) (f : FmtX)
  /-- `QUANT` (R248, format X). -/
  | quant (h : Head) (f : FmtX)
  /-- `DEQUANT` (R249, format X). -/
  | dequant (h : Head) (f : FmtX)
  /-- `SRND` (R250, format X). -/
  | srnd (h : Head) (f : FmtX)
  /-- `SHFL` (R251, format X). -/
  | shfl (h : Head) (f : FmtX)
  /-- `VOTE` (R252, format X). -/
  | vote (h : Head) (f : FmtX)
  /-- `BALLOT` (R252, format X). -/
  | ballot (h : Head) (f : FmtX)
  /-- `WSCAN` (R253, format X). -/
  | wscan (h : Head) (f : FmtX)
  /-- `WRED` (R253, format X). -/
  | wred (h : Head) (f : FmtX)
  /-- `BCAST` (R252, format X). -/
  | bcast (h : Head) (f : FmtX)
  /-- `LANEMASK` (R252, format X). -/
  | lanemask (h : Head) (f : FmtX)
  /-- `AADD` (R255, format X). -/
  | aadd (h : Head) (f : FmtX)
  /-- `ASUB` (R255, format X). -/
  | asub (h : Head) (f : FmtX)
  /-- `AMUL` (R255, format X). -/
  | amul (h : Head) (f : FmtX)
  /-- `AMAD` (R255, format X). -/
  | amad (h : Head) (f : FmtX)
  /-- `ASHL` (R255, format X). -/
  | ashl (h : Head) (f : FmtX)
  /-- `ASHR` (R255, format X). -/
  | ashr (h : Head) (f : FmtX)
  /-- `ASAR` (R255, format X). -/
  | asar (h : Head) (f : FmtX)
  /-- `AAND` (R255, format X). -/
  | aand (h : Head) (f : FmtX)
  /-- `AOR` (R255, format X). -/
  | aor (h : Head) (f : FmtX)
  /-- `AXOR` (R255, format X). -/
  | axor (h : Head) (f : FmtX)
  /-- `AMIN` (R255, format X). -/
  | amin (h : Head) (f : FmtX)
  /-- `AMAX` (R255, format X). -/
  | amax (h : Head) (f : FmtX)
  /-- `ACMP` (R256, format X). -/
  | acmp (h : Head) (f : FmtX)
  /-- `ASEL` (R255, format X). -/
  | asel (h : Head) (f : FmtX)
  /-- `AMOV` (R255, format X). -/
  | amov (h : Head) (f : FmtX)
  /-- `AMOVK` (R255, format K). -/
  | amovk (h : Head) (f : FmtK)
  /-- `BR` (R258, format B). -/
  | br (h : Head) (f : FmtB)
  /-- `BRC` (R258, format B). -/
  | brc (h : Head) (f : FmtB)
  /-- `BRX` (R258, format X). -/
  | brx (h : Head) (f : FmtX)
  /-- `CALL` (R258, format B). -/
  | call (h : Head) (f : FmtB)
  /-- `RET` (R258, format X). -/
  | ret (h : Head) (f : FmtX)
  /-- `EXIT` (R259, format X). -/
  | exit (h : Head) (f : FmtX)
  /-- `YIELD` (R260, format X). -/
  | yield (h : Head) (f : FmtX)
  /-- `WAIT` (R261, format I). -/
  | wait (h : Head) (f : FmtI)
  /-- `LD` (R266, format M). -/
  | ld (h : Head) (f : FmtM)
  /-- `ST` (R266, format M). -/
  | st (h : Head) (f : FmtM)
  /-- `LDFE` (R268, format M). -/
  | ldfe (h : Head) (f : FmtM)
  /-- `STFE` (R268, format M). -/
  | stfe (h : Head) (f : FmtM)
  /-- `LDW` (R267, format M). -/
  | ldw (h : Head) (f : FmtM)
  /-- `STW` (R267, format M). -/
  | stw (h : Head) (f : FmtM)
  /-- `PREFETCH` (R270, format M). -/
  | prefetch (h : Head) (f : FmtM)
  /-- `FILL` (R269, format M). -/
  | fill (h : Head) (f : FmtM)
  /-- `ATOM` (R273, format X). -/
  | atom (h : Head) (f : FmtX)
  /-- `ATOMCAS` (R273, format X). -/
  | atomcas (h : Head) (f : FmtX)
  /-- `RED` (R273, format X). -/
  | red (h : Head) (f : FmtX)
  /-- `LR` (R276, format M). -/
  | lr (h : Head) (f : FmtM)
  /-- `SC` (R276, format X). -/
  | sc (h : Head) (f : FmtX)
  /-- `LOCK` (R135, format M). -/
  | lock (h : Head) (f : FmtM)
  /-- `TRYLOCK` (R136, format M). -/
  | trylock (h : Head) (f : FmtM)
  /-- `UNLOCK` (R137, format M). -/
  | unlock (h : Head) (f : FmtM)
  /-- `LOCKQ` (R138, format M). -/
  | lockq (h : Head) (f : FmtM)
  /-- `ACQ` (R277, format M). -/
  | acq (h : Head) (f : FmtM)
  /-- `REL` (R277, format M). -/
  | rel (h : Head) (f : FmtM)
  /-- `BIND` (R278, format X). -/
  | bind (h : Head) (f : FmtX)
  /-- `UNBIND` (R278, format X). -/
  | unbind (h : Head) (f : FmtX)
  /-- `FENCE` (R279, format M). -/
  | fence (h : Head) (f : FmtM)
  /-- `MON` (R280, format M). -/
  | mon (h : Head) (f : FmtM)
  /-- `MWAIT` (R280, format I). -/
  | mwait (h : Head) (f : FmtI)
  /-- `BAR` (R281, format X). -/
  | bar (h : Head) (f : FmtX)
  /-- `CBAR` (R281, format X). -/
  | cbar (h : Head) (f : FmtX)
  /-- `PHINIT` (R284, format X). -/
  | phinit (h : Head) (f : FmtX)
  /-- `PHREG` (R284, format X). -/
  | phreg (h : Head) (f : FmtX)
  /-- `PHDROP` (R284, format X). -/
  | phdrop (h : Head) (f : FmtX)
  /-- `PHSIG` (R284, format X). -/
  | phsig (h : Head) (f : FmtX)
  /-- `PHWAIT` (R284, format X). -/
  | phwait (h : Head) (f : FmtX)
  /-- `PHSW` (R284, format X). -/
  | phsw (h : Head) (f : FmtX)
  /-- `PHQUERY` (R283, format X). -/
  | phquery (h : Head) (f : FmtX)
  /-- `CADD` (R286, format X). -/
  | cadd (h : Head) (f : FmtX)
  /-- `CWAIT` (R286, format X). -/
  | cwait (h : Head) (f : FmtX)
  /-- `CREAD` (R286, format M). -/
  | cread (h : Head) (f : FmtM)
  /-- `MCFG` (R292, format S). -/
  | mcfg (h : Head) (f : FmtS)
  /-- `MWLD` (R298, format T). -/
  | mwld (h : Head) (f : FmtT)
  /-- `MSWAP` (R298, format S). -/
  | mswap (h : Head) (f : FmtS)
  /-- `MMA` (R300, format T). -/
  | mma (h : Head) (f : FmtT)
  /-- `MMAS` (R303, format T). -/
  | mmas (h : Head) (f : FmtT)
  /-- `MZERO` (R305, format T). -/
  | mzero (h : Head) (f : FmtT)
  /-- `MPRE` (R306, format T). -/
  | mpre (h : Head) (f : FmtT)
  /-- `MPOST` (R307, format T). -/
  | mpost (h : Head) (f : FmtT)
  /-- `MDRAIN` (R313, format S). -/
  | mdrain (h : Head) (f : FmtS)
  /-- `MFENCE` (R312, format S). -/
  | mfence (h : Head) (f : FmtS)
  /-- `MSTAT` (R314, format S). -/
  | mstat (h : Head) (f : FmtS)
  /-- `CPLD` (R319, format S). -/
  | cpld (h : Head) (f : FmtS)
  /-- `CPY` (R321, format E). -/
  | cpy (h : Head) (f : FmtE)
  /-- `CPYX` (R322, format E). -/
  | cpyx (h : Head) (f : FmtE)
  /-- `CPYW` (R323, format E). -/
  | cpyw (h : Head) (f : FmtE)
  /-- `HALO` (R329, format E). -/
  | halo (h : Head) (f : FmtE)
  /-- `PUB` (R329, format E). -/
  | pub (h : Head) (f : FmtE)
  /-- `SUB_COPY` (R330, format E). -/
  | subCopy (h : Head) (f : FmtE)
  /-- `CPFIX` (R326, format S). -/
  | cpfix (h : Head) (f : FmtS)
  /-- `CPQ` (R327, format S). -/
  | cpq (h : Head) (f : FmtS)
  /-- `SPAWN` (R333, format X). -/
  | spawn (h : Head) (f : FmtX)
  /-- `JOIN` (R335, format X). -/
  | join (h : Head) (f : FmtX)
  /-- `DONE` (R335, format X). -/
  | done (h : Head) (f : FmtX)
  /-- `FRAME` (R334, format X). -/
  | frame (h : Head) (f : FmtX)
  /-- `DCLK` (R336, format X). -/
  | dclk (h : Head) (f : FmtX)
  /-- `DSYNC` (R337, format X). -/
  | dsync (h : Head) (f : FmtX)
  /-- `STAGE` (R338, format X). -/
  | stage (h : Head) (f : FmtX)
  /-- `TRAP` (R340, format S). -/
  | trap (h : Head) (f : FmtS)
  /-- `BRK` (R340, format S). -/
  | brk (h : Head) (f : FmtS)
  /-- `TRET` (R200, format S). -/
  | tret (h : Head) (f : FmtS)
  /-- `RDSR` (R223, format S). -/
  | rdsr (h : Head) (f : FmtS)
  /-- `WRSR` (R223, format S). -/
  | wrsr (h : Head) (f : FmtS)
  /-- `CARVE` (R53, format S). -/
  | carve (h : Head) (f : FmtS)
  /-- `HALT` (R340, format S). -/
  | halt (h : Head) (f : FmtS)
  /-- `RDTR` (R340, format S). -/
  | rdtr (h : Head) (f : FmtS)
  /-- `SPLIT_ARRIVE`. R167, R209, R210: the current split enters the block header at its PC. -/
  | splitArrive
  /-- `CLOCK_EPOCH_STEP`. R119, R120: one crossing of a multiple of 4,096 by a clock of wave w. -/
  | clockEpochStep (w : Nat)
  /-- `ISSUE_PROMOTION`. R179: a split ready for 64 cycles is promoted. -/
  | issuePromotion (w sp : Nat)
  /-- `WAIT_EXPIRY`. R261: the count of a wait has elapsed. -/
  | waitExpiry (w sp : Nat)
  /-- `MIN_TREE_REFRESH`. R161: the launch minimum of launch l is refreshed. -/
  | minTreeRefresh (l : Nat)
  /-- `PAGE_WALK`. R25: a walk of the context's tree. -/
  | pageWalk (core ctx : Nat) (va : BitVec 64) (acc : Access)
  /-- `PAGE_RECLAIM`. R40: the core reclaims a frame of a store. -/
  | pageReclaim (core : Nat) (st : StoreId)
  /-- `FILL_COMPLETE`. R64: the fill of page pg of a stage set completes. -/
  | fillComplete (set pg : Nat)
  /-- `MULTICAST_ARRIVAL`. R54: the next granule of push k arrives at its store page. -/
  | multicastArrival (k : Nat)
  /-- `COPY_FAULT`. R325: the next element access of copy k fails. -/
  | copyFault (k : Nat)
  /-- `COPY_COMPLETE`. R324: the last write of copy k has performed. -/
  | copyComplete (k : Nat)
  /-- `WEIGHT_LOAD_STROKE`. R298: one 512-byte beat of the oldest matrix operation's load. -/
  | weightLoadStroke (core : Nat)
  /-- `SWAP_STROKE`. R296: the oldest matrix operation exchanges the banks. -/
  | swapStroke (core : Nat)
  /-- `ROW_STROKE`. R300: one row of the oldest matrix operation. -/
  | rowStroke (core : Nat)
  /-- `MATRIX_OP_COMPLETE`. R293: the oldest matrix operation completes. -/
  | matrixOpComplete (core : Nat)
  /-- `PHASER_ENGINE_SIGNAL`. R285: the n-th engine signal in flight arrives. -/
  | phaserEngineSignal (n : Nat)
  /-- `ASYNC_TRAP_DELIVERY`. R197: a split takes its oldest asynchronous trap. -/
  | asyncTrapDelivery (w sp : Nat)
  /-- `RING_RETRY`. R204: a wave parked on a full ring retries. -/
  | ringRetry (w : Nat)
  /-- `WAITER_AWAY`. R141: the away message of wave w. -/
  | waiterAway (w : Nat)
  /-- `WAITER_BACK`. R141: the back message of wave w. -/
  | waiterBack (w : Nat)
  /-- `LOCK_REISSUE`. R140: a lock request is reissued. -/
  | lockReissue (w sp : Nat)
  /-- `LOCK_WAIT_TIMEOUT`. R144: the wait timer of a lock expires. -/
  | lockWaitTimeout (w sp : Nat)
  /-- `LOCK_HOLD_TIMEOUT`. R143: the hold timer of a lock expires. -/
  | lockHoldTimeout (w line : Nat)
  /-- `MWAIT_TIMEOUT`. R280: the timeout of a parked mwait. -/
  | mwaitTimeout (w sp : Nat)
  /-- `CWAIT_TIMEOUT`. R286: the timeout of a parked cwait. -/
  | cwaitTimeout (w sp : Nat)
  /-- `MONITOR_POLL`. R129: a polling-form watch is compared. -/
  | monitorPoll (w : Nat)
  /-- `LAUNCH_TRIGGER`. R180: byte 255 of a slot has been written. -/
  | launchTrigger (slot : Nat)
  /-- `DISPATCH_SELECT`. R190: the dispatcher selects; hits says which of the eight oldest entries hit the L2 probe. -/
  | dispatchSelect (die : Nat) (hits : BitVec 8)
  /-- `FORWARD_PROGRESS_SWAP`. R193: the forward-progress swap of a core. -/
  | forwardProgressSwap (core : Nat)
  /-- `PREEMPT_AT_REACHED`. R205: a clock of wave w has reached PREEMPT_AT. -/
  | preemptAtReached (w : Nat)
  /-- `CONTEXT_SWITCH_OUT`. R206: a cluster is switched out. -/
  | contextSwitchOut (cl : Nat)
  /-- `SPILL_COMPLETE`. R206: the spill of a switched-out cluster ends. -/
  | spillComplete (cl : Nat)
  /-- `CONTEXT_SWITCH_IN`. R206, R208: a cluster is restored; ok says whether the tag verifies. -/
  | contextSwitchIn (cl : Nat) (ok : Bool)
  /-- `LAUNCH_END`. R194: a launch ends. -/
  | launchEnd (l : Nat)
  /-- `REGISTER_WRITE`. R10, R365: a write to a device register. -/
  | registerWrite (off size : Nat) (val : BitVec 64)
  /-- `XINV_PAGE`. R30: XINVC with KIND 0. -/
  | xinvPage (ctx : BitVec 16) (sz : BitVec 3)
  /-- `XINV_CONTEXT`. R30: XINVC with KIND 1. -/
  | xinvContext (ctx : BitVec 16)
  /-- `XINV_ALL_CONTEXTS`. R30: XINVC with KIND 2. -/
  | xinvAllContexts
  /-- `XINV_RESERVED`. R30: XINVC with KIND 3. -/
  | xinvReserved
  /-- `XINV_COMPLETE`. R30: the oldest request completes. -/
  | xinvComplete
  /-- `RELEASE_EPISODE`. R202: TRCMD with CMD 0. -/
  | releaseEpisode (ctx : BitVec 16)
  /-- `RELEASE_ALL_EPISODES`. R202: TRCMD with CMD 1. -/
  | releaseAllEpisodes (ctx : BitVec 16)
  /-- `RESUME_AT_TPC`. R202: TRCMD with CMD 2. -/
  | resumeAtTpc (t : HeldId)
  /-- `RESUME_PAST_TPC`. R202: TRCMD with CMD 3. -/
  | resumePastTpc (t : HeldId)
  /-- `ABORT_LAUNCH`. R202: TRCMD with CMD 4. -/
  | abortLaunch (t : HeldId)
  /-- `TRCMD_INVALID`. R202: TRCMD with CMD 5 to 7. -/
  | trcmdInvalid
  /-- `PDOWN_CLEAR`. R371: software clears a DOWN bit. -/
  | pdownClear (peer : Nat)
  /-- `LOADFW`. R377: doorbell of LOADFW. -/
  | loadfw (tag : BitVec 32) (len : BitVec 16)
  /-- `ATTEST`. R376: doorbell of ATTEST. -/
  | attest (tag : BitVec 32) (len : BitVec 16)
  /-- `DIEOFF`. R380: doorbell of DIEOFF. -/
  | dieoff (tag : BitVec 32) (len : BitVec 16)
  /-- `DIEON`. R376: doorbell of DIEON. -/
  | dieon (tag : BitVec 32) (len : BitVec 16)
  /-- `RELREAD`. R376: doorbell of RELREAD. -/
  | relread (tag : BitVec 32) (len : BitVec 16)
  /-- `LOGREAD`. R376: doorbell of LOGREAD. -/
  | logread (tag : BitVec 32) (len : BitVec 16)
  /-- `ROUTE`. R376: doorbell of ROUTE. -/
  | route (tag : BitVec 32) (len : BitVec 16)
  /-- `RESET`. R376: doorbell of RESET. -/
  | reset (tag : BitVec 32) (len : BitVec 16)
  /-- `MAILBOX_COMPLETION`. R367: the service processor completes the command. -/
  | mailboxCompletion
  /-- `HOST_READ`. R121: the host reads n bytes over CXL.mem. -/
  | hostRead (addr n : Nat)
  /-- `HOST_WRITE`. R121: the host writes over CXL.mem. -/
  | hostWrite (addr : Nat) (data : List (BitVec 8))
  /-- `CXL_SNOOP`. R121: a host write takes a host line from the device. -/
  | cxlSnoop (addr : Nat) (data : List (BitVec 8))
  /-- `PEER_WRITE_ARRIVAL`. R123: a posted write from a peer. -/
  | peerWriteArrival (peer addr : Nat) (data : List (BitVec 8))
  /-- `PEER_REQUEST_ARRIVAL`. R123: a non-posted request from a peer. -/
  | peerRequestArrival (peer addr : Nat) (rq : PeerReq)
  /-- `FLIT_CRC_FAIL`. R368: a flit fails its CRC. -/
  | flitCrcFail (port : Nat)
  /-- `LINK_RETRAIN_START`. R371: a port starts retraining. -/
  | linkRetrainStart (port : Nat)
  /-- `LINK_RETRAIN_COMPLETE`. R371: a retrain completes. -/
  | linkRetrainComplete (port : Nat) (spare : Bool)
  /-- `PORT_DOWN`. R371: a retrain exceeds its bound. -/
  | portDown (port : Nat)
  /-- `DEVICE_RESET`. R372: a reset or a power cycle. -/
  | deviceReset
  /-- `SELFTEST`. R372: self-test; good says which dies have a working configuration. -/
  | selftest (good : BitVec 2)
  /-- `LINKS`. R372: the links train. -/
  | links (up spare : BitVec 16)
  /-- `ERROR_DETECTED`. R379: an error in a structure. -/
  | errorDetected (st : ErrStruct) (lasting : Bool)
  /-- `POWER_ALARM`. R381: power or temperature beyond its limit. -/
  | powerAlarm (power temp : BitVec 16)
  /-- `POWER_ALARM_CLEAR`. R381: 10 ms below the thresholds. -/
  | powerAlarmClear (power temp : BitVec 16)
  /-- `COPY_ENGINE_WRITE`. R324: the next granule of copy k. -/
  | copyEngineWrite (k : Nat)
  /-- `PEER_ACKNOWLEDGEMENT`. R124: a peer acknowledges a posted write of wave w, or answers its request. -/
  | peerAcknowledgement (w peer : Nat) (data : List (BitVec 64))
  /-- `YIELD_EXPIRY`. R260: 64 cycles after a yield. -/
  | yieldExpiry (w sp : Nat)
  /-- `FWCHECK`. R375: the firmware image is verified. -/
  | fwcheck
  /-- `MEMINIT`. R372: memory is scrubbed. -/
  | meminit
  /-- `THERMAL_TRIP`. R381: 110 degrees. -/
  | thermalTrip
  deriving DecidableEq, Repr

end Sys2Proof
end

