-- ==== Sys2Proof/Machine/Fields.lean ====
section
/-!
DEFINITION. Views of the raw fields of an instruction word (operand codes R219, type codes R221, spaces
R15, scopes R215, roundings R85, conditions R238) and the checks of field values that need no state:
`fieldsOk` says whether every field of a word holds a value that its format and description allow
(spec/13_encoding.md R213, R231; spec/14 to spec/17). A word that fails raises ILLOP.
-/
namespace Sys2Proof.Machine

/-- R219. -/
def opd (code : BitVec 8) : Opd :=
  let n := code.toNat
  if n < 0x80 then .v n
  else if n < 0xA0 then .a (n - 0x80)
  else if n < 0xC0 then .s (n - 0xA0)
  else if n = 0xC0 then .qd
  else if n = 0xC1 then .qdPeek
  else if n = 0xC2 then .qv
  else if n = 0xC8 then .zero
  else if n < 0xE0 then .bad
  else .inl (BitVec.ofNat 5 n).toInt

/-- R221. -/
def ty (code : BitVec 4) : Ty :=
  match code.toNat with
  | 0 => .i32 | 1 => .n32 | 2 => .i64 | 3 => .n64 | 4 => .f32 | 5 => .f16 | 6 => .bf16 | 7 => .e4m3
  | 8 => .e5m2 | 9 => .e2m1 | 10 => .i4x | 11 => .i8 | 12 => .n8 | 13 => .q24 | 14 => .i16 | _ => .n16

/-- The type code of a type (R221). -/
def tyCode : Ty → Nat
  | .i32 => 0 | .n32 => 1 | .i64 => 2 | .n64 => 3 | .f32 => 4 | .f16 => 5 | .bf16 => 6 | .e4m3 => 7
  | .e5m2 => 8 | .e2m1 => 9 | .i4x => 10 | .i8 => 11 | .n8 => 12 | .q24 => 13 | .i16 => 14 | .n16 => 15

/-- The width in bits of a type's container (R221). -/
def tyBits : Ty → Nat
  | .i32 | .n32 | .f32 | .q24 => 32
  | .i64 | .n64 => 64
  | .f16 | .bf16 | .i16 | .n16 => 16
  | .e4m3 | .e5m2 | .i8 | .n8 => 8
  | .e2m1 | .i4x => 4

/-- The size in bytes of a type's container; 1 for the four-bit types (R221, R316). -/
def tyBytes (t : Ty) : Nat := max 1 (tyBits t / 8)

/-- Types i32, n32, i64, n64 (R235). -/
def isInt : Ty → Bool
  | .i32 | .n32 | .i64 | .n64 => true
  | _ => false

/-- INT and q24 (R235). -/
def isIntQ (t : Ty) : Bool := isInt t || t == .q24

/-- Types f32, f16, bf16 (R240). -/
def isFlt : Ty → Bool
  | .f32 | .f16 | .bf16 => true
  | _ => false

/-- Signed integer types (R79). -/
def isSigned : Ty → Bool
  | .i32 | .i64 | .i8 | .i16 | .q24 => true
  | _ => false

/-- The types to which an inline integer is refused (R219). -/
def noInline : Ty → Bool
  | .e4m3 | .e5m2 | .e2m1 | .i4x => true
  | _ => false

/-- R15, R16. -/
def space (sp : Nat) : Option Space :=
  match sp with
  | 0 => some .g | 1 => some (.store .s) | 2 => some (.store .a) | 3 => some (.store .w)
  | 4 => some (.store .c) | 5 => some .k | 6 => some .m | _ => none

/-- The scope codes of R215. -/
def scope (sc : Nat) : Scope :=
  match sc with
  | 0 => .team | 1 => .clu | 2 => .dev | _ => .sys

/-- R85: the mode that a code selects, with `dflt` for code 0. -/
def rnd (code : Nat) (dflt : Rnd) : Rnd :=
  match code with
  | 1 => .rne | 2 => .rtz | 3 => .rdn | 4 => .rup | 5 => .rss | _ => dflt

/-- R238. -/
def cond (code : Nat) : Cond :=
  match code with
  | 0 => .eq | 1 => .ne | 2 => .lt | 3 => .le | 4 => .gt | 5 => .ge | 6 => .ord | 7 => .un
  | 8 => .ueq | 9 => .une | 10 => .ult | 11 => .ule | 12 => .ugt | _ => .uge

/-- Bits [hi:lo] of a field, as a number (R8). -/
def bits {n : Nat} (x : BitVec n) (hi lo : Nat) : Nat := (x.toNat >>> lo) % 2 ^ (hi + 1 - lo)

/-- An unused register field (R213). -/
def none8 (code : BitVec 8) : Bool := code == 0xC8#8

/-- A predicate field (R220). -/
def isPred (code : BitVec 8) : Bool := code.toNat < 8

/-- A source of an execute instruction read in type `t` (R219). -/
def srcX (t : Ty) (code : BitVec 8) : Bool :=
  match opd code with
  | .v n => tyBits t ≠ 64 || n % 2 == 0
  | .qd | .qdPeek | .zero => true
  | .inl _ => !noInline t
  | _ => false

/-- A destination of an execute instruction written in type `t` (R219). -/
def dstX (t : Ty) (code : BitVec 8) : Bool :=
  match opd code with
  | .v n => tyBits t ≠ 64 || n % 2 == 0
  | .qv | .zero => true
  | _ => false

/-- An even v pair (R219). -/
def pairX (code : BitVec 8) : Bool :=
  match opd code with
  | .v n => n % 2 == 0
  | _ => false

/-- A source of an access instruction (R219, R262). -/
def srcA (code : BitVec 8) : Bool :=
  match opd code with
  | .a _ | .s _ | .qv | .zero | .inl _ => true
  | _ => false

/-- A destination of an access instruction (R219, R262). -/
def dstA (code : BitVec 8) : Bool :=
  match opd code with
  | .a _ | .s _ | .qd | .zero => true
  | _ => false

/-- A source of a store of a type: no inline integer where the type is narrow (R219). -/
def srcT (t : Ty) (code : BitVec 8) : Bool :=
  srcA code && (match opd code with | .inl _ => !noInline t | _ => true)

/-- An a register. -/
def regA (code : BitVec 8) : Bool :=
  match opd code with
  | .a _ => true
  | _ => false

/-- An s register. -/
def regS (code : BitVec 8) : Bool :=
  match opd code with
  | .s _ => true
  | _ => false

/-- An a or s register. -/
def regAS (code : BitVec 8) : Bool := regA code || regS code

/-- A source that is the same in every lane (R254). -/
def uniform (code : BitVec 8) : Bool :=
  match opd code with
  | .s _ | .zero | .inl _ => true
  | _ => false

/-- R254: an s destination takes uniform sources only. -/
def uniformRule (d : BitVec 8) (srcs : List (BitVec 8)) : Bool := !regS d || srcs.all uniform

/-- A rounding code that R85 allows. -/
def rndOk (md : BitVec 8) : Bool := bits md 7 5 ≤ 5

/-- Joint instructions and majors 0x3A and 0x3C take no predicate (R212). -/
def noPred (h : Head) : Bool := h.ps == 0 && h.pn == 0

/-- Integer arithmetic with sources a, b (R235). -/
def okInt2 (f : FmtX) (ts : Ty → Bool) : Bool :=
  ts (ty f.ty) && f.md == 0 && dstX (ty f.ty) f.d && srcX (ty f.ty) f.a && srcX (ty f.ty) f.b && none8 f.c

/-- Integer arithmetic with sources a, b, c (R235). -/
def okInt3 (f : FmtX) (ts : Ty → Bool) : Bool :=
  ts (ty f.ty) && f.md == 0 && dstX (ty f.ty) f.d && srcX (ty f.ty) f.a && srcX (ty f.ty) f.b &&
    srcX (ty f.ty) f.c

/-- Integer arithmetic with source a (R235). -/
def okInt1 (f : FmtX) (ts : Ty → Bool) : Bool :=
  ts (ty f.ty) && f.md == 0 && dstX (ty f.ty) f.d && srcX (ty f.ty) f.a && none8 f.b && none8 f.c

/-- Bit fields (R237). -/
def okBf (f : FmtI) (dv : Bool) : Bool :=
  isInt (ty f.ty) && bits f.imm 23 15 == 0 && bits f.imm 7 7 == 0 && bits f.imm 6 0 ≤ 63 && bits f.imm 14 8 ≤ 64 &&
    bits f.imm 6 0 + bits f.imm 14 8 ≤ tyBits (ty f.ty) && srcX (ty f.ty) f.a &&
    (if dv then (match opd f.d with | .v n => tyBits (ty f.ty) ≠ 64 || n % 2 == 0 | _ => false)
      else dstX (ty f.ty) f.d)

/-- R238, R239: compares; `lim` is the largest condition code admitted. -/
def okCmp (f : FmtX) (ts : Ty → Bool) (lim : Nat) : Bool :=
  ts (ty f.ty) && isPred f.d && srcX (ty f.ty) f.a && srcX (ty f.ty) f.b && bits f.md 3 0 ≤ lim &&
    bits f.md 7 6 == 0 && (if bits f.md 5 4 = 0 then none8 f.c else isPred f.c)

/-- Predicate logic (R239). -/
def okP2 (f : FmtX) : Bool :=
  isPred f.d && isPred f.a && isPred f.b && none8 f.c && f.ty == 0 && (f.md &&& 0xF5#8) == 0

/-- Floating arithmetic (R241): `n` sources, the admitted types, and the MD bits admitted. -/
def okF (f : FmtX) (n : Nat) (ts : Ty → Bool) (mask : BitVec 8) : Bool :=
  ts (ty f.ty) && rndOk f.md && (f.md &&& ~~~mask) == 0 && dstX (ty f.ty) f.d && srcX (ty f.ty) f.a &&
    (if n ≥ 2 then srcX (ty f.ty) f.b else none8 f.b) && (if n ≥ 3 then srcX (ty f.ty) f.c else none8 f.c)

/-- Types with a 4- or 8-byte container (R239, R251). -/
def isWide (t : Ty) : Bool := tyBits t == 32 || tyBits t == 64

/-- The source set of `pack2` and the destination set of `unpack2` (R247). -/
def isP32 : Ty → Bool
  | .f32 | .i32 | .n32 => true
  | _ => false

/-- The narrow set of `pack2` and `unpack2` (R247). -/
def isPN : Ty → Bool
  | .f16 | .bf16 | .i16 | .n16 | .e4m3 | .e5m2 | .i8 | .n8 => true
  | _ => false

/-- The source type of a conversion, MD[3:0] (R246). -/
def srcTy (md : BitVec 8) : Ty := ty (BitVec.ofNat 4 (bits md 3 0))

/-- A source of a conversion from `src` to `dst`: an inline integer is refused when TY, the destination type, is narrow
(R219, R246). -/
def srcCvt (dst src : Ty) (code : BitVec 8) : Bool :=
  match opd code with
  | .inl _ => !noInline dst
  | _ => srcX src code

/-- Access arithmetic (R254, R255): sources `srcs`, no MD. -/
def okAcc (f : FmtX) (srcs unused : List (BitVec 8)) : Bool :=
  isInt (ty f.ty) && f.md == 0 && dstA f.d && srcs.all srcA && unused.all none8 && uniformRule f.d srcs

/-- The zhas spaces of a lane access: 0 to 6, or without 5, or stores only (R264). -/
def spOk (sp : BitVec 4) (k g : Bool) : Bool :=
  match space sp.toNat with
  | some .k => k
  | some .g => g
  | some _ => true
  | none => false

/-- An access type: not e2m1, not i4x (R215). -/
def szOk (sz : BitVec 4) : Bool := sz ≠ 9 && sz ≠ 10

/-- BASE of format M (R215). -/
def baseOk (b : BitVec 8) : Bool := regAS b || none8 b

/-- BASE of a uniform address: s register or 0xC8 (R262). -/
def baseUni (b : BitVec 8) : Bool := regS b || none8 b

/-- Register operand of a `.v2` access: even (R266). -/
def v2Ok (d : BitVec 8) : Bool :=
  match opd d with
  | .a n | .s n => n % 2 == 0
  | _ => true

/-- Operation codes of atomics (R272). -/
def atomOpOk (op : Nat) (t : Ty) : Bool :=
  if isInt t then op ≤ 6 || (op == 7 && t == .n32)
  else isFlt t && (op ≤ 2 || op == 6)

/-- The space code of an atomic, MD[7:5] (R271). -/
def atomSpOk (md : BitVec 8) : Bool := bits md 7 5 ≠ 5 && bits md 7 5 ≠ 7

/-- Fields common to the phaser instructions (R283). -/
def okPh (f : FmtX) (mdOk : Bool) : Bool :=
  dstA f.d && srcA f.a && none8 f.c && f.ty == 1 && mdOk

/-- The container types of the matrix engine (R288). -/
def matTy : Ty → Bool
  | .f32 | .f16 | .bf16 | .e4m3 | .e5m2 | .e2m1 | .i4x | .i8 | .n8 | .q24 => true
  | _ => false

/-- The types of `.ca` (R301). -/
def caTy : Ty → Bool
  | .bf16 | .f16 | .e4m3 | .e5m2 => true
  | _ => false

/-- `mma` and `mmas` (R300, R303). -/
def okMma (f : FmtT) (sparse : Bool) : Bool :=
  matTy (ty f.ty) && regS f.c && regS f.a && (regS f.w || none8 f.w) && bits f.acc 3 3 == 0 &&
    (if sparse then bits f.acc 2 1 ≠ 3 else bits f.acc 2 1 == 0) &&
    !(bits f.fl 3 3 == 1 && none8 f.w) && (bits f.fl 1 1 == 0 || caTy (ty f.ty))

/-- The destination types of `mpost.cvt` and `mpost.clamp` (R307). -/
def postTy : Ty → Bool
  | .i4x | .n64 => false
  | _ => true

/-- The destination types of `mpost.rshr` (R307). -/
def rshrTy : Ty → Bool
  | .i8 | .n8 | .i16 | .n16 | .i32 | .n32 | .q24 => true
  | _ => false

/-- `mpost` (R307). -/
def okPost (f : FmtT) : Bool :=
  let i64 := bits f.acc 3 3 == 1
  let t := ty f.ty
  let w := regS f.w
  regS f.c && regS f.a &&
  match bits f.acc 2 0 with
  | 0 => postTy t && none8 f.w && bits f.fl 2 0 ≤ 4
  | 1 => postTy t && w && bits f.fl 2 0 ≤ 4
  | 2 => t == .n64 && (w || none8 f.w) && (if i64 then f.fl.toNat ≤ 5 else f.fl.toNat ≤ 13)
  | 3 => i64 && t == .n64 && (w || none8 f.w) && f.fl == 0
  | 4 => i64 && rshrTy t && w && bits f.fl 2 0 == 0
  | 5 => i64 && t == .n8 && none8 f.w && f.fl == 0
  | _ => false

/-- `cpy`, `cpyx`, `cpyw` (R320). -/
def okCpy (f : FmtE) : Bool :=
  f.la.toNat < 16 && f.lb.toNat < 16 && regS f.dst && (regS f.cnt || none8 f.cnt) &&
    (bits f.mode 3 0 ≤ 4 || bits f.mode 3 0 == 6) && bits f.mode 11 5 == 0

/-- Every register field 0xC8, TY and MD 0 (R259). -/
def okBare (f : FmtX) : Bool :=
  none8 f.d && none8 f.a && none8 f.b && none8 f.c && f.ty == 0 && f.md == 0

/-- The numbers of the special registers (R223). -/
def srOk (n : Nat) : Bool := n ≤ 0x0E

/-- The special registers that software may write (R223). -/
def srRw (n : Nat) : Bool := n == 0x08 || n == 0x09 || (0x0B ≤ n && n ≤ 0x0E)

/-- Whether every field of an instruction word holds a value that its format and description allow;
a word that fails raises ILLOP (R231). Device steps have no fields to check. -/
def fieldsOk : Instr → Bool
  | .nop _ _ | .hintSpace _ _ _ => true
  | .hint _ f => none8 f.d && none8 f.a
  | .unassignedEncoding _ => false
  | .add _ f | .sub _ f | .mul _ f | .min _ f | .max _ f => okInt2 f isIntQ
  | .mulhi _ f => okInt2 f isInt
  | .mad _ f | .clamp _ f => okInt3 f isIntQ
  | .madhi _ f => okInt3 f isInt
  | .abs _ f | .neg _ f => okInt1 f isIntQ
  | .sad4 _ f => okInt3 f (· == .n32)
  | .and _ f | .or _ f | .xor _ f | .andn _ f | .shl _ f | .shr _ f | .sar _ f | .rotl _ f => okInt2 f isInt
  | .not _ f | .popc _ f | .clz _ f | .ctz _ f | .brev _ f => okInt1 f isInt
  | .lsel _ f => okInt3 { f with md := 0 } isInt
  | .bfx _ f => okBf f false
  | .bfi _ f => okBf f true
  | .cmp _ f => okCmp f isIntQ 5
  | .fcmp _ f => okCmp f isFlt 13
  | .sel _ f => isWide (ty f.ty) && f.md == 0 && dstX (ty f.ty) f.d && srcX (ty f.ty) f.a &&
      srcX (ty f.ty) f.b && isPred f.c
  | .setp _ f => isInt (ty f.ty) && f.md == 0 && isPred f.d && srcX (ty f.ty) f.a && none8 f.b && none8 f.c
  | .getp _ f => f.ty == 1 && f.md == 0 && dstX .n32 f.d && isPred f.a && none8 f.b && none8 f.c
  | .pand _ f | .por _ f | .pxor _ f => okP2 f
  | .pnot _ f => isPred f.d && isPred f.a && none8 f.b && none8 f.c && f.ty == 0 && f.md == 0
  | .fadd _ f | .fsub _ f | .fmul _ f | .fdiv _ f => okF f 2 isFlt 0xEF#8
  | .ffma _ f => okF f 3 isFlt 0xEF#8
  | .fsqrt _ f | .frcp _ f | .frsq _ f | .fround _ f => okF f 1 isFlt 0xEC#8
  | .fmin _ f | .fmax _ f => okF f 2 isFlt 0x0F#8
  | .fclamp _ f => okF f 3 isFlt 0x0C#8
  | .fexp2 _ f | .flog2 _ f | .fsinpi _ f | .fcospi _ f => okF f 1 (· == .f32) 0xEC#8
  | .ffloor _ f | .fceil _ f | .ftrunc _ f => okF f 1 isFlt 0x0C#8
  | .fclass _ f =>
      (match ty f.ty with | .f32 | .f16 | .bf16 | .e4m3 | .e5m2 => true | _ => false) && f.md == 0 &&
        dstX .n32 f.d && srcX (ty f.ty) f.a && none8 f.b && none8 f.c
  | .cvt _ f => ty f.ty ≠ .i4x && srcTy f.md ≠ .i4x && rndOk f.md && dstX (ty f.ty) f.d &&
      srcCvt (ty f.ty) (srcTy f.md) f.a && none8 f.b && none8 f.c
  | .pack2 _ f => isPN (ty f.ty) && isP32 (srcTy f.md) && rndOk f.md && dstX .n32 f.d &&
      srcCvt (ty f.ty) (srcTy f.md) f.a && srcCvt (ty f.ty) (srcTy f.md) f.b && none8 f.c
  | .unpack2 _ f => isP32 (ty f.ty) && isPN (srcTy f.md) && rndOk f.md && pairX f.d &&
      srcCvt (ty f.ty) (srcTy f.md) f.a && none8 f.b && none8 f.c
  | .quant _ f => (match ty f.ty with | .e4m3 | .e5m2 | .e2m1 | .i4x => true | _ => false) &&
      srcTy f.md == .f32 && rndOk f.md && pairX f.d && srcCvt (ty f.ty) .f32 f.a && none8 f.b && none8 f.c
  | .dequant _ f => f.ty == 4 && bits f.md 3 0 == 0 && rndOk f.md && dstX .f32 f.d && pairX f.a &&
      none8 f.b && none8 f.c
  | .srnd _ f => f.ty == 1 && f.md == 0 && srcX .n32 f.a && none8 f.d && none8 f.b && none8 f.c
  | .shfl _ f => isWide (ty f.ty) && dstX (ty f.ty) f.d && srcX (ty f.ty) f.a && none8 f.c &&
      bits f.md 7 5 == 0 && bits f.md 4 2 ≤ 5 && (if bits f.md 1 0 = 3 then none8 f.b else srcX .n32 f.b)
  | .vote _ f => isPred f.d && isPred f.a && none8 f.b && none8 f.c && f.ty == 0 && bits f.md 7 2 == 0
  | .ballot _ f => dstX .n32 f.d && isPred f.a && none8 f.b && none8 f.c && f.ty == 1 && f.md == 0
  | .bcast _ f => isWide (ty f.ty) && dstX (ty f.ty) f.d && srcX (ty f.ty) f.a && srcX .n32 f.b &&
      none8 f.c && f.md == 0
  | .lanemask _ f => dstX .n32 f.d && none8 f.a && none8 f.b && none8 f.c && f.ty == 1 && f.md.toNat ≤ 5
  | .wscan _ f => okScan f && (none8 f.c || isPred f.c)
  | .wred _ f => okScan f && none8 f.c && bits f.md 4 4 == 0
  | .aadd _ f | .asub _ f | .amul _ f | .ashl _ f | .ashr _ f | .asar _ f | .aand _ f | .aor _ f | .axor _ f
  | .amin _ f | .amax _ f => okAcc f [f.a, f.b] [f.c]
  | .amad _ f => okAcc f [f.a, f.b, f.c] []
  | .acmp _ f => isInt (ty f.ty) && isPred f.d && srcA f.a && srcA f.b && bits f.md 3 0 ≤ 5 &&
      bits f.md 7 6 ≠ 3 && (if bits f.md 5 4 = 0 then none8 f.c else isPred f.c) &&
      (bits f.md 7 6 == 0 || !(uniform f.a && uniform f.b))
  | .asel _ f => okAcc f [f.a, f.b] [] && isPred f.c
  | .amov _ f => okAcc f [f.a] [f.b, f.c]
  | .amovk _ f => isInt (ty f.ty) && dstA f.d
  | .br _ f => none8 f.reg && f.flg == 0
  | .brc h f => noPred h && bits f.reg 7 3 == 0 && bits f.flg 11 2 == 0
  | .brx _ f | .ret _ f => regA f.a && none8 f.d && none8 f.b && none8 f.c && f.ty == 0 && f.md == 0
  | .call _ f => regA f.reg && f.flg == 0
  | .exit h f | .yield h f | .bar h f | .cbar h f | .join h f | .done h f | .dsync h f => noPred h && okBare f
  | .wait _ f => none8 f.d && none8 f.a && f.ty == 0 && !f.imm.msb
  | .ld _ f => dstA f.d && baseOk f.base && spOk f.sp true true && szOk f.sz && f.sc == 0 &&
      (!regS f.d || baseUni f.base) && (bits f.q 0 0 == 0 || v2Ok f.d)
  | .st _ f => srcT (ty f.sz) f.d && baseOk f.base && spOk f.sp false true && szOk f.sz && f.sc == 0 &&
      (bits f.q 0 0 == 0 || v2Ok f.d)
  | .ldfe _ f => dstA f.d && baseOk f.base && spOk f.sp false false && szOk f.sz && f.sc == 0 &&
      f.q.toNat ≤ 1 && (!regS f.d || baseUni f.base)
  | .stfe _ f => srcT (ty f.sz) f.d && baseOk f.base && spOk f.sp false false && szOk f.sz && f.sc == 0 && f.q == 0
  | .ldw _ f => (regA f.d || none8 f.d || f.d == 0xC0#8) && baseUni f.base && spOk f.sp true true &&
      szOk f.sz && f.sc == 0 && f.q == 0
  | .stw _ f => srcT (ty f.sz) f.d && baseUni f.base && spOk f.sp false true && szOk f.sz && f.sc == 0 && f.q == 0
  | .prefetch _ f => none8 f.d && baseOk f.base && spOk f.sp true true && f.sz == 0 && f.sc == 0 && f.q == 0
  | .fill _ f => srcA f.d && baseOk f.base && spOk f.sp false false && f.sz == 0 && f.sc == 0 && f.q.toNat ≤ 1
  | .atom _ f => dstA f.d && regAS f.a && srcA f.b && none8 f.c && atomSpOk f.md &&
      atomOpOk (bits f.md 2 0) (ty f.ty) && (!regS f.d || regS f.a)
  | .atomcas _ f => dstA f.d && regAS f.a && srcA f.b && srcA f.c && atomSpOk f.md && isInt (ty f.ty) &&
      bits f.md 2 0 == 0 && (!regS f.d || regS f.a)
  | .red _ f => none8 f.d && regAS f.a && srcA f.b && none8 f.c && atomSpOk f.md &&
      atomOpOk (bits f.md 2 0) (ty f.ty)
  | .lr _ f => dstA f.d && baseOk f.base && f.sp == 0 && isInt (ty f.sz) && f.sc == 2 && f.q == 0 &&
      (!regS f.d || baseUni f.base)
  | .sc _ f => dstA f.d && regAS f.a && srcA f.b && none8 f.c && isInt (ty f.ty) && f.md == 0 &&
      (!regS f.d || regS f.a)
  | .lock _ f => (regAS f.d || none8 f.d) && regAS f.base && f.sp == 0 && f.sc == 2 && f.q == 0
  | .trylock _ f | .lockq _ f => (regAS f.d || none8 f.d) && regAS f.base && f.sp == 0 && f.sc == 2 &&
      f.q == 0 && f.sz == 0
  | .unlock _ f => none8 f.d && regAS f.base && f.sp == 0 && f.sc == 2 && f.q == 0 && f.sz == 0
  | .acq _ f => dstA f.d && baseOk f.base && f.sp == 0 && isInt (ty f.sz) && f.q == 0 &&
      (!none8 f.base || f.off == 0)
  | .rel _ f => srcA f.d && baseOk f.base && f.sp == 0 && isInt (ty f.sz) && f.q == 0 &&
      (!none8 f.base || f.off == 0)
  | .bind _ f | .unbind _ f => none8 f.d && srcA f.a && srcA f.b &&
      (none8 f.c || (regAS f.c && f.ty == 0 && f.md == 0))
  | .fence _ f => none8 f.d && none8 f.base && f.sp == 0 && f.sz == 0 && f.q == 0 && f.off == 0
  | .mon _ f => none8 f.d && baseOk f.base && f.sp == 0 && f.sz == 0 && f.sc == 0 && f.q == 0
  | .mwait _ f => dstA f.d && none8 f.a && f.ty == 1 && !f.imm.msb
  | .phinit _ f => okPh f (bits f.md 7 3 == 0) && srcA f.b
  | .phreg _ f | .phdrop _ f | .phsig _ f | .phwait _ f | .phsw _ f => okPh f (f.md == 0) && srcA f.b
  | .phquery _ f => okPh f (f.md == 0) && none8 f.b
  | .cadd _ f => dstA f.d && srcA f.a && srcA f.b && none8 f.c && f.ty == 3 && (f.md == 0x10#8 || f.md == 0x18#8)
  | .cwait _ f => dstA f.d && srcA f.a && srcA f.b && (none8 f.c || regAS f.c) && f.ty == 3 &&
      (f.md == 0x10#8 || f.md == 0x18#8)
  | .cread _ f => dstA f.d && baseOk f.base && f.sp == 0 && f.sz == 3 && (f.sc == 2 || f.sc == 3) && f.q == 0
  | .mcfg _ f => none8 f.d && regS f.a && f.code.toNat ≤ 4
  | .mwld _ f => none8 f.c && none8 f.a && regS f.w && f.m1 == 0 && matTy (ty f.ty) && f.acc.toNat ≤ 3 &&
      bits f.fl 2 1 == 0
  | .mswap _ f | .mfence _ f => none8 f.d && none8 f.a && f.code == 0
  | .mma _ f => okMma f false
  | .mmas _ f => okMma f true
  | .mzero _ f => regS f.c && none8 f.a && none8 f.w && f.acc == 0 && f.fl == 0 && (f.ty == 4 || f.ty == 2)
  | .mpre _ f => regS f.c && regS f.a && none8 f.w && f.fl == 0 && f.acc.toNat ≤ 1 &&
      (match ty f.ty with | .f32 | .f16 | .bf16 | .e4m3 | .e5m2 | .i8 | .n8 | .q24 | .i64 => true | _ => false)
  | .mpost _ f => okPost f
  | .mdrain _ f => none8 f.d && regS f.a && f.code == 0
  | .mstat _ f => regAS f.d && none8 f.a && f.code == 0
  | .cpld _ f => none8 f.d && regS f.a && bits f.code 27 4 == 0
  | .cpy _ f | .cpyx _ f | .cpyw _ f => okCpy f
  | .halo _ f => f.la.toNat < 16 && f.lb.toNat < 16 && regS f.dst && (regS f.cnt || none8 f.cnt) &&
      bits f.mode 3 0 ≠ 0 && bits f.mode 10 4 == 0
  | .pub _ f => f.la.toNat < 16 && f.lb.toNat < 16 && regS f.dst && (regS f.cnt || none8 f.cnt) &&
      bits f.mode 10 0 == 0
  | .subCopy _ f => none8 f.cnt && f.la == 0 && f.lb == 0 && regS f.dst && bits f.mode 10 6 == 0
  | .cpfix _ f => (regAS f.d || none8 f.d) && regS f.a && bits f.code 27 3 == 0 && bits f.code 1 0 ≠ 3 &&
      (bits f.code 2 2 == 0 || bits f.code 1 0 == 0)
  | .cpq _ f => regAS f.d && none8 f.a && f.code.toNat ≤ 2
  | .spawn h f => noPred h && none8 f.d && regS f.a && regS f.b && (regS f.c || none8 f.c) && f.ty == 3 &&
      f.md == 0
  | .frame h f => noPred h && none8 f.d && regS f.a && regS f.b && regS f.c
  | .dclk h f => noPred h && none8 f.d && uniform f.a && none8 f.b && none8 f.c && f.ty == 3 && f.md == 0
  | .stage h f => noPred h && (regAS f.d || f.d == 0xC0#8) && none8 f.a && none8 f.b && none8 f.c &&
      f.ty == 1 && f.md == 0
  | .trap h f => noPred h && none8 f.d && none8 f.a
  | .brk h f => noPred h && none8 f.d && none8 f.a && f.code == 0
  | .tret h f => noPred h && none8 f.d && none8 f.a && f.code.toNat ≤ 1
  | .rdsr h f => noPred h && (regAS f.d || f.d == 0xC0#8) && none8 f.a && srOk f.code.toNat &&
      !(f.code == 0 && regS f.d)
  | .wrsr h f => noPred h && none8 f.d && uniform f.a && srRw f.code.toNat
  | .carve h f => noPred h && (regAS f.d || none8 f.d) && none8 f.a && f.code.toNat ≤ 4
  | .halt h f => noPred h && none8 f.d && regS f.a && f.code == 0
  | .rdtr h f => noPred h && (regAS f.d || f.d == 0xC0#8) && none8 f.a && f.code.toNat ≤ 15
  | .splitArrive | .clockEpochStep _ | .issuePromotion _ _ | .waitExpiry _ _ | .minTreeRefresh _ | .pageWalk _ _ _ _
  | .pageReclaim _ _ | .fillComplete _ _ | .multicastArrival _ | .copyFault _ | .copyComplete _
  | .weightLoadStroke _ | .swapStroke _ | .rowStroke _ | .matrixOpComplete _ | .phaserEngineSignal _
  | .asyncTrapDelivery _ _ | .ringRetry _ | .waiterAway _ | .waiterBack _ | .lockReissue _ _
  | .lockWaitTimeout _ _ | .lockHoldTimeout _ _ | .mwaitTimeout _ _ | .cwaitTimeout _ _ | .monitorPoll _
  | .launchTrigger _ | .dispatchSelect _ _ | .forwardProgressSwap _ | .preemptAtReached _
  | .contextSwitchOut _ | .spillComplete _ | .contextSwitchIn _ _ | .launchEnd _ | .registerWrite _ _ _
  | .xinvPage _ _ | .xinvContext _ | .xinvAllContexts | .xinvReserved | .xinvComplete | .releaseEpisode _
  | .releaseAllEpisodes _ | .resumeAtTpc _ | .resumePastTpc _ | .abortLaunch _ | .trcmdInvalid
  | .pdownClear _ | .loadfw _ _ | .attest _ _ | .dieoff _ _ | .dieon _ _ | .relread _ _ | .logread _ _
  | .route _ _ | .reset _ _ | .mailboxCompletion | .hostRead _ _ | .hostWrite _ _ | .cxlSnoop _ _
  | .peerWriteArrival _ _ _ | .peerRequestArrival _ _ _ | .flitCrcFail _ | .linkRetrainStart _
  | .linkRetrainComplete _ _ | .portDown _ | .deviceReset | .selftest _ | .fwcheck | .meminit
  | .links _ _ | .errorDetected _ _ | .powerAlarm _ _ | .powerAlarmClear _ _ | .thermalTrip
  | .copyEngineWrite _ | .peerAcknowledgement _ _ _ | .yieldExpiry _ _ => true
where
  /-- Fields common to `wscan` and `wred` (R253). -/
  okScan (f : FmtX) : Bool :=
    dstX (ty f.ty) f.d && srcX (ty f.ty) f.a && none8 f.b &&
      (if bits f.md 3 0 ≤ 5 then isInt (ty f.ty) && bits f.md 7 5 == 0
        else bits f.md 3 0 ≤ 8 && isFlt (ty f.ty) && (if bits f.md 3 0 = 6 then rndOk f.md else bits f.md 7 5 == 0))

/-- The size that OFF16 must be a multiple of at decode (R215, R130, R277); 1 where the rule does not
apply. -/
def offUnit : Instr → Nat
  | .ld _ f | .st _ f => tyBytes (ty f.sz) * (if bits f.q 0 0 = 1 then 2 else 1)
  | .ldfe _ f | .stfe _ f | .ldw _ f | .stw _ f | .lr _ f => tyBytes (ty f.sz)
  | .fill _ _ => 16
  | .lock _ _ | .trylock _ _ | .unlock _ _ | .lockq _ _ | .acq _ _ | .rel _ _ => 64
  | .cread _ _ => 8
  | _ => 1

/-- OFF16 of a format M instruction (R215). -/
def off16 : Instr → BitVec 16
  | .ld _ f | .st _ f | .ldfe _ f | .stfe _ f | .ldw _ f | .stw _ f | .prefetch _ f | .fill _ f | .lr _ f
  | .lock _ f | .trylock _ f | .unlock _ f | .lockq _ f | .acq _ f | .rel _ f | .fence _ f | .mon _ f
  | .cread _ f => f.off
  | _ => 0

/-- ALIGN at decode (R263 step 2). -/
def offAligned (i : Instr) : Bool := (off16 i).toInt % (offUnit i : Int) == 0

end Sys2Proof.Machine
end

