-- ==== Sys2Proof/Machine/Float.lean ====
section
/-!
DEFINITION. Number formats and rounding (spec/05_number_formats.md R69 to R88): values as exact dyadic
numbers, one rounding for every format and mode, range handling, and the arithmetic of exact values.
-/
namespace Sys2Proof.Machine

/-! ### Flags of FSTAT, by bit (spec/13_encoding.md R225). -/
def fINV : BitVec 9 := 0x001
def fDIV : BitVec 9 := 0x002
def fOVF : BitVec 9 := 0x004
def fUNF : BitVec 9 := 0x008
def fINX : BitVec 9 := 0x010
def fSAT : BitVec 9 := 0x020
def fFORMAT : BitVec 9 := 0x040
def fUNDELIVERED : BitVec 9 := 0x080
def fCERR : BitVec 9 := 0x100

/-- A value of a floating format, exact: finite is (−1)^neg × m × 2^e. -/
inductive Fp where
  | nan
  | inf (neg : Bool)
  | fin (neg : Bool) (m : Nat) (e : Int)
  deriving DecidableEq, Repr

/-- A zero with a sign. -/
def fzero (neg : Bool) : Fp := .fin neg 0 0

/-- An integer as a value; 0 is +0. -/
def ofInt (z : Int) : Fp := .fin (decide (z < 0)) z.natAbs 0

/-- The special codes of a format (R69). -/
inductive Style where
  | ieee | e4m3 | e2m1
  deriving DecidableEq, Repr

/-- A floating format: exponent bits, fraction bits, bias, style (R69). -/
structure Fmt where
  eb : Nat
  mb : Nat
  bias : Nat
  style : Style
  deriving DecidableEq, Repr

/-- R69. -/
def fmt : Ty → Fmt
  | .f16 => ⟨5, 10, 15, .ieee⟩
  | .bf16 => ⟨8, 7, 127, .ieee⟩
  | .e4m3 => ⟨4, 3, 7, .e4m3⟩
  | .e5m2 => ⟨5, 2, 15, .ieee⟩
  | .e2m1 => ⟨2, 1, 1, .e2m1⟩
  | _ => ⟨8, 23, 127, .ieee⟩

/-- The canonical NaN (R69, R71); e2m1 has none and takes 0 (R76). -/
def nanCode (f : Fmt) : Nat :=
  match f.style with
  | .ieee => (2 ^ (f.eb + 1) - 1) * 2 ^ (f.mb - 1)
  | .e4m3 => 0x7F
  | .e2m1 => 0

/-- The code of the largest finite magnitude (R69). -/
def maxCode (f : Fmt) : Nat :=
  match f.style with
  | .ieee => (2 ^ f.eb - 1) * 2 ^ f.mb - 1
  | .e4m3 => 0x7E
  | .e2m1 => 0x7

/-- The least exponent of a normal number. -/
def emin (f : Fmt) : Int := 1 - (f.bias : Int)

/-- The value of a finite code's exponent field and fraction (R70). -/
def finOf (f : Fmt) (neg : Bool) (e m : Nat) : Fp :=
  if e = 0 then .fin neg m (emin f - f.mb) else .fin neg (2 ^ f.mb + m) ((e : Int) - f.bias - f.mb)

/-- Decode a code (R69 to R72). `extra` is the value of e2m1's code 0b1000 (R73). -/
def decodeF (f : Fmt) (extra : Fp) (code : Nat) : Fp :=
  let m := code % 2 ^ f.mb
  let e := code / 2 ^ f.mb % 2 ^ f.eb
  let neg := code / 2 ^ (f.mb + f.eb) % 2 == 1
  match f.style with
  | .ieee => if e = 2 ^ f.eb - 1 then (if m = 0 then .inf neg else .nan) else finOf f neg e m
  | .e4m3 => if e = 15 ∧ m = 7 then .nan else finOf f neg e m
  | .e2m1 => if code % 16 = 8 then extra else finOf f neg e m

/-- The bit length of a number. -/
def bitLen (n : Nat) : Nat := if n = 0 then 0 else n.log2 + 1

/-- A step of an RSS state (R86). -/
def rssStep (s : W32) : W32 := let t := s >>> 1; if s.getLsbD 0 then t ^^^ 0x80200003#32 else t

/-- Round the magnitude m × 2^e, plus something strictly between 0 and 2^e when `sticky`, to a multiple of
2^q (R85, R86): the multiple, and whether the result is inexact. -/
def roundTo (mode : Rnd) (st : W32) (neg : Bool) (m : Nat) (e q : Int) (sticky : Bool) : Nat × Bool :=
  if q ≤ e then (m * 2 ^ (e - q).toNat, sticky)
  else
    let sh := (q - e).toNat
    let k := m / 2 ^ sh
    let r := m % 2 ^ sh
    if r = 0 ∧ !sticky then (k, false)
    else
      let up := match mode with
        | .rne => decide (2 * r > 2 ^ sh) || (decide (2 * r = 2 ^ sh) && (sticky || k % 2 == 1))
        | .rtz => false
        | .rdn => neg
        | .rup => !neg
        | .rss => decide (st.toNat < r * 2 ^ 32 / 2 ^ sh)
      (if up then k + 1 else k, true)

/-- The exponent of the leading bit of m × 2^e. -/
def topOf (m : Nat) (e : Int) : Int := e + m.log2

/-- A rounded result: its code and the flags it sets. -/
structure Enc where
  code : Nat
  flags : BitVec 9
  deriving DecidableEq, Repr

/-- Whether k × 2^q is beyond the largest finite magnitude. -/
def beyond (f : Fmt) (k : Nat) (q : Int) : Bool :=
  match decodeF f .nan (maxCode f) with
  | .fin _ m e => let b := min q e; decide (m * 2 ^ (e - b).toNat < k * 2 ^ (q - b).toNat)
  | _ => false

/-- The code of k × 2^q, a magnitude of the format's grid. -/
def gridCode (f : Fmt) (k : Nat) (q : Int) : Nat :=
  let top := topOf k q
  if k = 0 then 0
  else if top < emin f then k
  else
    let sh := top - f.mb - q
    let sig := if sh ≤ 0 then k * 2 ^ (-sh).toNat else k / 2 ^ sh.toNat
    (top + f.bias).toNat * 2 ^ f.mb + (sig - 2 ^ f.mb)

/-- Round a finite nonzero magnitude to a format (R85 to R88, R240). `nsat` selects IEEE overflow.
Under RSS, whether a result is tiny after rounding is decided with the same state (DESIGN CHOICE, log 75). -/
def encodeFin (f : Fmt) (mode : Rnd) (st : W32) (nsat neg : Bool) (m : Nat) (e : Int) (sticky : Bool) : Enc :=
  let sign := if neg then 2 ^ (f.eb + f.mb) else 0
  let top := topOf m e
  let q := max (top - f.mb) (emin f - f.mb)
  let (k, inex) := roundTo mode st neg m e q sticky
  if beyond f k q then
    if f.style = .e2m1 ∨ !nsat then ⟨sign + maxCode f, fSAT⟩
    else
      let toInf := match mode with
        | .rne | .rss => true
        | .rtz => false
        | .rdn => neg
        | .rup => !neg
      if !toInf then ⟨sign + maxCode f, fOVF ||| fINX⟩
      else if f.style = .e4m3 then ⟨nanCode f, fOVF ||| fINX⟩
      else ⟨sign + maxCode f + 1, fOVF ||| fINX⟩
  else
    let q2 := top - f.mb
    let tiny := decide (top < emin f) &&
      (let (k2, _) := roundTo mode st neg m e q2 sticky; decide (topOf k2 q2 < emin f))
    let fl := if inex then (if tiny then fINX ||| fUNF else fINX) else 0
    ⟨if k = 0 ∧ f.style = .e2m1 then 0 else sign + gridCode f k q, fl⟩

/-- Round a value to a floating format under R71, R76, R85 to R88. -/
def encodeF (f : Fmt) (mode : Rnd) (st : W32) (nsat : Bool) (x : Fp) (sticky : Bool) : Enc :=
  match x with
  | .nan => if f.style = .e2m1 then ⟨0, fINV⟩ else ⟨nanCode f, 0⟩
  | .inf neg =>
    let sign := if neg then 2 ^ (f.eb + f.mb) else 0
    match f.style with
    | .ieee => ⟨sign + maxCode f + 1, 0⟩
    | .e4m3 => if nsat then ⟨nanCode f, fINV⟩ else ⟨sign + maxCode f, fSAT⟩
    | .e2m1 => ⟨sign + maxCode f, fSAT⟩
  | .fin neg m e =>
    if m = 0 then ⟨if f.style = .e2m1 then 0 else if neg then 2 ^ (f.eb + f.mb) else 0, 0⟩
    else encodeFin f mode st nsat neg m e sticky

/-- The range of an integer type or q24 (R79). -/
def intRange : Ty → Int × Int
  | .i32 => (-2 ^ 31, 2 ^ 31 - 1) | .n32 => (0, 2 ^ 32 - 1)
  | .i64 => (-2 ^ 63, 2 ^ 63 - 1) | .n64 => (0, 2 ^ 64 - 1)
  | .i16 => (-2 ^ 15, 2 ^ 15 - 1) | .n16 => (0, 2 ^ 16 - 1)
  | .i8 => (-2 ^ 7, 2 ^ 7 - 1) | .n8 => (0, 2 ^ 8 - 1)
  | .q24 => (-2 ^ 23, 2 ^ 23 - 1)
  | _ => (0, 0)

/-- The bits of an integer in its container; q24 repeats its sign above bit 23 (R80). -/
def intCode (t : Ty) (z : Int) : W64 :=
  match t with
  | .q24 => ((BitVec.ofInt 24 z).signExtend 32).setWidth 64
  | .i64 | .n64 => BitVec.ofInt 64 z
  | .i16 | .n16 => (BitVec.ofInt 16 z).setWidth 64
  | .i8 | .n8 => (BitVec.ofInt 8 z).setWidth 64
  | _ => (BitVec.ofInt 32 z).setWidth 64

/-- The integer that a container holds (R79, R80). -/
def intOf (t : Ty) (x : W64) : Int :=
  match t with
  | .q24 => (x.setWidth 24).toInt
  | .i32 => (x.setWidth 32).toInt | .n32 => (x.setWidth 32).toNat
  | .i64 => x.toInt | .n64 => x.toNat
  | .i16 => (x.setWidth 16).toInt | .n16 => (x.setWidth 16).toNat
  | .i8 => (x.setWidth 8).toInt | .n8 => (x.setWidth 8).toNat
  | _ => (x.setWidth 32).toNat

/-- A value brought into an integer type's range: saturation with SAT, or the low bits under `.nsat` where `wraps`
(R87). -/
def intoRange (t : Ty) (z : Int) (wraps : Bool) : W64 × BitVec 9 :=
  let r := intRange t
  if r.1 ≤ z ∧ z ≤ r.2 ∨ wraps then (intCode t z, 0)
  else (intCode t (if z < r.1 then r.1 else r.2), fSAT)

/-- Round a value to an integer type or q24 (R87, R246). -/
def encodeI (t : Ty) (mode : Rnd) (st : W32) (x : Fp) : W64 × BitVec 9 :=
  match x with
  | .nan => (0, fINV)
  | .inf neg => (intCode t (if neg then (intRange t).1 else (intRange t).2), fSAT)
  | .fin neg m e =>
    let (k, inex) := roundTo mode st neg m e 0 false
    let z : Int := if neg then -k else k
    let r := intoRange t z false
    if r.2 = 0 then (r.1, if inex then fINX else 0) else r

/-! ### Exact arithmetic (R90, R240, R242). `inv` says that a NaN was made from operands that were not NaN. -/

/-- A sum; an exact zero of operands of opposite sign is +0, or −0 under RDN (R240). -/
def fpAdd (mode : Rnd) (a b : Fp) : Fp × Bool :=
  match a, b with
  | .nan, _ | _, .nan => (.nan, false)
  | .inf s, .inf t => if s = t then (.inf s, false) else (.nan, true)
  | .inf s, _ => (.inf s, false)
  | _, .inf t => (.inf t, false)
  | .fin s m e, .fin t n f =>
    let b := min e f
    let x : Int := (if s then -1 else 1) * (m * 2 ^ (e - b).toNat : Nat)
    let y : Int := (if t then -1 else 1) * (n * 2 ^ (f - b).toNat : Nat)
    let z := x + y
    if m = 0 ∧ n = 0 then (fzero (if s = t then s else mode == .rdn), false)
    else if z = 0 then (fzero (mode == .rdn), false)
    else (.fin (decide (z < 0)) z.natAbs b, false)

def fpNeg : Fp → Fp
  | .nan => .nan
  | .inf s => .inf (!s)
  | .fin s m e => .fin (!s) m e

def fpMul (a b : Fp) : Fp × Bool :=
  match a, b with
  | .nan, _ | _, .nan => (.nan, false)
  | .inf s, .inf t => (.inf (s != t), false)
  | .inf s, .fin t n _ => if n = 0 then (.nan, true) else (.inf (s != t), false)
  | .fin s m _, .inf t => if m = 0 then (.nan, true) else (.inf (s != t), false)
  | .fin s m e, .fin t n f => (.fin (s != t) (m * n) (e + f), false)

/-- Multiply by 2^k. -/
def fpScale (x : Fp) (k : Int) : Fp :=
  match x with
  | .fin s m e => .fin s m (e + k)
  | y => y

/-- Compare two values that are not NaN: −1, 0 or 1; −0 equals +0 (R238). -/
def fpCmp (a b : Fp) : Int :=
  match a, b with
  | .inf s, .inf t => if s = t then 0 else if s then -1 else 1
  | .inf s, _ => if s then -1 else 1
  | _, .inf t => if t then 1 else -1
  | .fin s m e, .fin t n f =>
    let b := min e f
    let x : Int := (if s then -1 else 1) * (m * 2 ^ (e - b).toNat : Nat)
    let y : Int := (if t then -1 else 1) * (n * 2 ^ (f - b).toNat : Nat)
    if x < y then -1 else if y < x then 1 else 0
  | _, _ => 0

/-- A value with more low bits, so that a sticky remainder never decides alone (R86's 32 fraction bits included). -/
def guard : Nat := 160

/-- A quotient of magnitudes: m/n × 2^e with `guard` more bits, and whether a remainder is left. -/
def quot (m n : Nat) : Nat × Int × Bool :=
  let sh := guard + bitLen n
  (m * 2 ^ sh / n, -(sh : Int), decide (m * 2 ^ sh % n ≠ 0))

/-- The integer square root, by bits from the top. -/
def isqrtGo (n : Nat) : Nat → Nat → Nat
  | 0, r => r
  | k + 1, r => let c := r + 2 ^ k; isqrtGo n k (if c * c ≤ n then c else r)
def isqrt (n : Nat) : Nat := isqrtGo n (bitLen n / 2 + 1) 0

/-- √(m × 2^e): with `guard` more bits. -/
def root (m : Nat) (e : Int) : Nat × Int × Bool :=
  let sh : Nat := 2 * guard + (if (e - 2 * guard) % 2 = 0 then 0 else 1)
  let n := m * 2 ^ sh
  let r := isqrt n
  (r, (e - sh) / 2, decide (r * r ≠ n))

end Sys2Proof.Machine
end

