-- ==== Sys2Proof/Config.lean ====
section
/-!
DEFINITION. The free values of the model: constants with no body, so that no proof can see what they are.
Each stands for something the manual leaves open; each is named in a row of the assumption log.
-/
namespace Sys2Proof.Config

/-- Which of several agents that can move does so when the agenda names none (spec/06_model_near.md
R110: order of arrival), by the number of choices made before (log 1). -/
opaque freeChoice : Nat → Nat

/-- How many cycles after its stall count the next word of a stream becomes ready, by the number of choices made before: when
the values and the queue entries that it needs arrive (spec/10_execution_model.md R178; log 1). -/
opaque operandDelay : Nat → Nat

/-- The serial number of the device (spec/25_service.md R374 gives no value; log 2). -/
opaque serial : W64

/-- Whether both signatures of a firmware image verify (spec/25_service.md R375: Delien's keys; log 5). -/
opaque imageSigned : List Byte → Bool

/-- The security version an image carries (spec/25_service.md R375; its place in the image is not given;
log 5). -/
opaque imageVersion : List Byte → BitVec 32

/-- The fused minimum security version (spec/25_service.md R375; log 5). -/
opaque fusedMinimum : BitVec 32

/-- The image the device was delivered with (spec/25_service.md R375; log 5). -/
opaque factoryImage : List Byte

/-- The attestation report for a nonce and the device's identity words: 4 KiB of bytes with signatures
under the device's keys (spec/25_service.md R376; log 6). -/
opaque attestation : List W64 → List Byte → Nat → Byte

/-- A byte of a reliability record, by the kind of its structure, its position, its time, whether the error is lasting, and
the byte's offset: the manual names the record's fields and not their places (spec/25_service.md R376; log 6). -/
opaque reliabilityByte : Nat → List Nat → Nat → Bool → Nat → Byte

/-- The 128-bit integrity tag of a team block, as two words, by its spill sequence number and the bytes it is computed
over (spec/12_traps_preemption.md R208: a device key that never leaves the device; log 7). -/
opaque blockTag : Nat → List Byte → Nat → W64

/-- A byte of a place of the binding table in the save area, by the seal, the first and last line of its entry and the byte's
offset: the manual gives the table's size and not its layout (spec/12_traps_preemption.md R207; log 7). -/
opaque bindingByte : Nat → Nat → Nat → Nat → Byte

/-- The bytes in which a spill writes a checkpoint and the waves of a stage set, whose layout is not given, by spill
sequence number, launch team index and offset in the block (spec/12_traps_preemption.md R207; log 7). -/
opaque blockByte : Nat → Nat → Nat → Byte

/-- The TEAM of a spawned or continuation wave, by its virtual wave index (spec/13_encoding.md R223 gives the index of
launch teams; log 41). -/
opaque spawnedTeam : Nat → Nat

/-- The physical address of a region of the backing pool of a die (spec/11_launch_scheduling.md R383 gives
none; log 8). -/
opaque poolBase : Nat → Nat → Nat

/-- The bytes of device memory in use when a die is to go offline, by the count of choices made before: the manual does
not say what counts (spec/25_service.md R380; log 42). -/
opaque memoryInUse : Nat → Nat

/-- What a peer's memory answers when the answering event supplies too few values
(spec/07_model_far.md R123: the peer is outside the device; log 9). -/
opaque peerByte : Nat → Nat → Byte

/-- The region of HBM4, a row or a channel, in which a line of device memory lies: its first line and how many lines it has
(spec/25_service.md R379 gives neither; log 71). -/
opaque hbmRegion : Nat → Nat × Nat

end Sys2Proof.Config
end

