-- ==== Sys2Proof/WellFormed.lean ====
section
/-!
DEFINITION. Well-formedness of an instruction: every field holds a value that its format and description
allow (spec/13_encoding.md R213, R231), and an offset is a multiple of the access size (R215). An
instruction word that is not well formed raises ILLOP or ALIGN when it issues. An unassigned word is
never well formed.
-/
namespace Sys2Proof

/-- An instruction whose issue passes every check that needs no state (R213, R215, R231). -/
def Instr.wellFormed (i : Instr) : Bool := Machine.fieldsOk i && Machine.offAligned i

end Sys2Proof
end

