-- ==== Sys2Proof/Decode.lean ====
section
/-!
DEFINITION. The decoder, total on every 64-bit word, and the encoder, both written from the common head
(spec/13_encoding.md R211), the eight formats (R213) and the opcode map (R230). A word outside the map
decodes to `unassignedEncoding`, which is R231's row, and so does a header word (OPC 0x3F) among a block's words.
-/
namespace Sys2Proof

/-- Format X, from bit 43 down (R213). -/
def FmtX.toBits (f : FmtX) : BitVec 44 :=
  BitVec.cast (n := 8 + 8 + 8 + 8 + 4 + 8) (m := 44) rfl (f.d ++ f.a ++ f.b ++ f.c ++ f.ty ++ f.md)
def FmtX.ofBits (x : BitVec 44) : FmtX :=
  { d := x.extractLsb' 36 8, a := x.extractLsb' 28 8, b := x.extractLsb' 20 8, c := x.extractLsb' 12 8,
    ty := x.extractLsb' 8 4, md := x.extractLsb' 0 8 }

/-- Format I (R213). -/
def FmtI.toBits (f : FmtI) : BitVec 44 :=
  BitVec.cast (n := 8 + 8 + 4 + 24) (m := 44) rfl (f.d ++ f.a ++ f.ty ++ f.imm)
def FmtI.ofBits (x : BitVec 44) : FmtI :=
  { d := x.extractLsb' 36 8, a := x.extractLsb' 28 8, ty := x.extractLsb' 24 4, imm := x.extractLsb' 0 24 }

/-- Format K (R213). -/
def FmtK.toBits (f : FmtK) : BitVec 44 :=
  BitVec.cast (n := 8 + 4 + 32) (m := 44) rfl (f.d ++ f.ty ++ f.imm)
def FmtK.ofBits (x : BitVec 44) : FmtK :=
  { d := x.extractLsb' 36 8, ty := x.extractLsb' 32 4, imm := x.extractLsb' 0 32 }

/-- Format M (R213). -/
def FmtM.toBits (f : FmtM) : BitVec 44 :=
  BitVec.cast (n := 8 + 8 + 4 + 4 + 2 + 2 + 16) (m := 44) rfl (f.d ++ f.base ++ f.sp ++ f.sz ++ f.sc ++ f.q ++ f.off)
def FmtM.ofBits (x : BitVec 44) : FmtM :=
  { d := x.extractLsb' 36 8, base := x.extractLsb' 28 8, sp := x.extractLsb' 24 4, sz := x.extractLsb' 20 4,
    sc := x.extractLsb' 18 2, q := x.extractLsb' 16 2, off := x.extractLsb' 0 16 }

/-- Format B (R213). -/
def FmtB.toBits (f : FmtB) : BitVec 44 :=
  BitVec.cast (n := 8 + 24 + 12) (m := 44) rfl (f.reg ++ f.off ++ f.flg)
def FmtB.ofBits (x : BitVec 44) : FmtB :=
  { reg := x.extractLsb' 36 8, off := x.extractLsb' 12 24, flg := x.extractLsb' 0 12 }

/-- Format T (R213). -/
def FmtT.toBits (f : FmtT) : BitVec 44 :=
  BitVec.cast (n := 8 + 8 + 8 + 8 + 4 + 4 + 4) (m := 44) rfl (f.c ++ f.a ++ f.w ++ f.m1 ++ f.ty ++ f.acc ++ f.fl)
def FmtT.ofBits (x : BitVec 44) : FmtT :=
  { c := x.extractLsb' 36 8, a := x.extractLsb' 28 8, w := x.extractLsb' 20 8, m1 := x.extractLsb' 12 8,
    ty := x.extractLsb' 8 4, acc := x.extractLsb' 4 4, fl := x.extractLsb' 0 4 }

/-- Format E (R213). -/
def FmtE.toBits (f : FmtE) : BitVec 44 :=
  BitVec.cast (n := 8 + 8 + 8 + 8 + 12) (m := 44) rfl (f.cnt ++ f.la ++ f.lb ++ f.dst ++ f.mode)
def FmtE.ofBits (x : BitVec 44) : FmtE :=
  { cnt := x.extractLsb' 36 8, la := x.extractLsb' 28 8, lb := x.extractLsb' 20 8, dst := x.extractLsb' 12 8,
    mode := x.extractLsb' 0 12 }

/-- Format S (R213). -/
def FmtS.toBits (f : FmtS) : BitVec 44 :=
  BitVec.cast (n := 8 + 8 + 28) (m := 44) rfl (f.d ++ f.a ++ f.code)
def FmtS.ofBits (x : BitVec 44) : FmtS :=
  { d := x.extractLsb' 36 8, a := x.extractLsb' 28 8, code := x.extractLsb' 0 28 }

/-- A word from its major, its minor, the rest of its head and bits [43:0] (R211). -/
def packWord (opc fn : BitVec 6) (h : Head) (b : BitVec 44) : W64 :=
  BitVec.cast (n := 6 + 4 + 3 + 1 + 6 + 44) (m := 64) rfl (opc ++ h.stl ++ h.ps ++ h.pn ++ fn ++ b)

/-- The head fields of a word (R211). -/
def wordOpc (w : W64) : BitVec 6 := w.extractLsb' 58 6
def wordFn (w : W64) : BitVec 6 := w.extractLsb' 44 6
def wordHead (w : W64) : Head :=
  { stl := w.extractLsb' 54 4, ps := w.extractLsb' 51 3, pn := w.extractLsb' 50 1 }
def wordBody (w : W64) : BitVec 44 := w.extractLsb' 0 44

/-- Major 0x00 of the opcode map (R230). -/
def decode00 (fn : BitVec 6) (h : Head) (b : BitVec 44) : Option Instr :=
  match fn.toNat with
  | 0 => some (.nop h b)
  | 1 => some (.hint h (.ofBits b))
  | _ => if fn.msb then some (.hintSpace h (fn.extractLsb' 0 5) b) else none

/-- Major 0x01 of the opcode map (R230). -/
def decode01 (fn : BitVec 6) (h : Head) (b : BitVec 44) : Option Instr :=
  match fn.toNat with
  | 0 => some (.add h (.ofBits b))
  | 1 => some (.sub h (.ofBits b))
  | 2 => some (.mul h (.ofBits b))
  | 3 => some (.mulhi h (.ofBits b))
  | 4 => some (.mad h (.ofBits b))
  | 5 => some (.madhi h (.ofBits b))
  | 6 => some (.min h (.ofBits b))
  | 7 => some (.max h (.ofBits b))
  | 8 => some (.abs h (.ofBits b))
  | 9 => some (.neg h (.ofBits b))
  | 10 => some (.clamp h (.ofBits b))
  | 11 => some (.sad4 h (.ofBits b))
  | _ => none

/-- Major 0x02 of the opcode map (R230). -/
def decode02 (fn : BitVec 6) (h : Head) (b : BitVec 44) : Option Instr :=
  match fn.toNat with
  | 0 => some (.and h (.ofBits b))
  | 1 => some (.or h (.ofBits b))
  | 2 => some (.xor h (.ofBits b))
  | 3 => some (.andn h (.ofBits b))
  | 4 => some (.not h (.ofBits b))
  | 5 => some (.shl h (.ofBits b))
  | 6 => some (.shr h (.ofBits b))
  | 7 => some (.sar h (.ofBits b))
  | 8 => some (.rotl h (.ofBits b))
  | 9 => some (.bfx h (.ofBits b))
  | 10 => some (.bfi h (.ofBits b))
  | 11 => some (.popc h (.ofBits b))
  | 12 => some (.clz h (.ofBits b))
  | 13 => some (.ctz h (.ofBits b))
  | 14 => some (.brev h (.ofBits b))
  | 15 => some (.lsel h (.ofBits b))
  | _ => none

/-- Major 0x03 of the opcode map (R230). -/
def decode03 (fn : BitVec 6) (h : Head) (b : BitVec 44) : Option Instr :=
  match fn.toNat with
  | 0 => some (.cmp h (.ofBits b))
  | 1 => some (.sel h (.ofBits b))
  | 2 => some (.setp h (.ofBits b))
  | 3 => some (.getp h (.ofBits b))
  | 4 => some (.pand h (.ofBits b))
  | 5 => some (.por h (.ofBits b))
  | 6 => some (.pxor h (.ofBits b))
  | 7 => some (.pnot h (.ofBits b))
  | _ => none

/-- Major 0x08 of the opcode map (R230). -/
def decode08 (fn : BitVec 6) (h : Head) (b : BitVec 44) : Option Instr :=
  match fn.toNat with
  | 0 => some (.fadd h (.ofBits b))
  | 1 => some (.fsub h (.ofBits b))
  | 2 => some (.fmul h (.ofBits b))
  | 3 => some (.ffma h (.ofBits b))
  | 4 => some (.fdiv h (.ofBits b))
  | 5 => some (.fsqrt h (.ofBits b))
  | 6 => some (.frcp h (.ofBits b))
  | 7 => some (.frsq h (.ofBits b))
  | 8 => some (.fmin h (.ofBits b))
  | 9 => some (.fmax h (.ofBits b))
  | 10 => some (.fclamp h (.ofBits b))
  | 11 => some (.fexp2 h (.ofBits b))
  | 12 => some (.flog2 h (.ofBits b))
  | 13 => some (.fsinpi h (.ofBits b))
  | 14 => some (.fcospi h (.ofBits b))
  | 15 => some (.ffloor h (.ofBits b))
  | 16 => some (.fceil h (.ofBits b))
  | 17 => some (.ftrunc h (.ofBits b))
  | 18 => some (.fround h (.ofBits b))
  | _ => none

/-- Major 0x09 of the opcode map (R230). -/
def decode09 (fn : BitVec 6) (h : Head) (b : BitVec 44) : Option Instr :=
  match fn.toNat with
  | 0 => some (.fcmp h (.ofBits b))
  | 1 => some (.fclass h (.ofBits b))
  | _ => none

/-- Major 0x10 of the opcode map (R230). -/
def decode10 (fn : BitVec 6) (h : Head) (b : BitVec 44) : Option Instr :=
  match fn.toNat with
  | 0 => some (.cvt h (.ofBits b))
  | 1 => some (.pack2 h (.ofBits b))
  | 2 => some (.unpack2 h (.ofBits b))
  | 3 => some (.quant h (.ofBits b))
  | 4 => some (.dequant h (.ofBits b))
  | 5 => some (.srnd h (.ofBits b))
  | _ => none

/-- Major 0x14 of the opcode map (R230). -/
def decode14 (fn : BitVec 6) (h : Head) (b : BitVec 44) : Option Instr :=
  match fn.toNat with
  | 0 => some (.shfl h (.ofBits b))
  | 1 => some (.vote h (.ofBits b))
  | 2 => some (.ballot h (.ofBits b))
  | 3 => some (.wscan h (.ofBits b))
  | 4 => some (.wred h (.ofBits b))
  | 5 => some (.bcast h (.ofBits b))
  | 6 => some (.lanemask h (.ofBits b))
  | _ => none

/-- Major 0x18 of the opcode map (R230). -/
def decode18 (fn : BitVec 6) (h : Head) (b : BitVec 44) : Option Instr :=
  match fn.toNat with
  | 0 => some (.aadd h (.ofBits b))
  | 1 => some (.asub h (.ofBits b))
  | 2 => some (.amul h (.ofBits b))
  | 3 => some (.amad h (.ofBits b))
  | 4 => some (.ashl h (.ofBits b))
  | 5 => some (.ashr h (.ofBits b))
  | 6 => some (.asar h (.ofBits b))
  | 7 => some (.aand h (.ofBits b))
  | 8 => some (.aor h (.ofBits b))
  | 9 => some (.axor h (.ofBits b))
  | 10 => some (.amin h (.ofBits b))
  | 11 => some (.amax h (.ofBits b))
  | 12 => some (.acmp h (.ofBits b))
  | 13 => some (.asel h (.ofBits b))
  | 14 => some (.amov h (.ofBits b))
  | 15 => some (.amovk h (.ofBits b))
  | _ => none

/-- Major 0x1C of the opcode map (R230). -/
def decode1C (fn : BitVec 6) (h : Head) (b : BitVec 44) : Option Instr :=
  match fn.toNat with
  | 0 => some (.br h (.ofBits b))
  | 1 => some (.brc h (.ofBits b))
  | 2 => some (.brx h (.ofBits b))
  | 3 => some (.call h (.ofBits b))
  | 4 => some (.ret h (.ofBits b))
  | 5 => some (.exit h (.ofBits b))
  | 6 => some (.yield h (.ofBits b))
  | 7 => some (.wait h (.ofBits b))
  | _ => none

/-- Major 0x20 of the opcode map (R230). -/
def decode20 (fn : BitVec 6) (h : Head) (b : BitVec 44) : Option Instr :=
  match fn.toNat with
  | 0 => some (.ld h (.ofBits b))
  | 1 => some (.st h (.ofBits b))
  | 2 => some (.ldfe h (.ofBits b))
  | 3 => some (.stfe h (.ofBits b))
  | 4 => some (.ldw h (.ofBits b))
  | 5 => some (.stw h (.ofBits b))
  | 6 => some (.prefetch h (.ofBits b))
  | 7 => some (.fill h (.ofBits b))
  | _ => none

/-- Major 0x28 of the opcode map (R230). -/
def decode28 (fn : BitVec 6) (h : Head) (b : BitVec 44) : Option Instr :=
  match fn.toNat with
  | 0 => some (.atom h (.ofBits b))
  | 1 => some (.atomcas h (.ofBits b))
  | 2 => some (.red h (.ofBits b))
  | _ => none

/-- Major 0x2C of the opcode map (R230). -/
def decode2C (fn : BitVec 6) (h : Head) (b : BitVec 44) : Option Instr :=
  match fn.toNat with
  | 0 => some (.lr h (.ofBits b))
  | 1 => some (.sc h (.ofBits b))
  | 2 => some (.lock h (.ofBits b))
  | 3 => some (.trylock h (.ofBits b))
  | 4 => some (.unlock h (.ofBits b))
  | 5 => some (.lockq h (.ofBits b))
  | 6 => some (.acq h (.ofBits b))
  | 7 => some (.rel h (.ofBits b))
  | 8 => some (.bind h (.ofBits b))
  | 9 => some (.unbind h (.ofBits b))
  | 10 => some (.fence h (.ofBits b))
  | 11 => some (.mon h (.ofBits b))
  | 12 => some (.mwait h (.ofBits b))
  | 13 => some (.bar h (.ofBits b))
  | 14 => some (.cbar h (.ofBits b))
  | _ => none

/-- Major 0x2D of the opcode map (R230). -/
def decode2D (fn : BitVec 6) (h : Head) (b : BitVec 44) : Option Instr :=
  match fn.toNat with
  | 0 => some (.phinit h (.ofBits b))
  | 1 => some (.phreg h (.ofBits b))
  | 2 => some (.phdrop h (.ofBits b))
  | 3 => some (.phsig h (.ofBits b))
  | 4 => some (.phwait h (.ofBits b))
  | 5 => some (.phsw h (.ofBits b))
  | 6 => some (.phquery h (.ofBits b))
  | 7 => some (.cadd h (.ofBits b))
  | 8 => some (.cwait h (.ofBits b))
  | 9 => some (.cread h (.ofBits b))
  | _ => none

/-- Major 0x30 of the opcode map (R230). -/
def decode30 (fn : BitVec 6) (h : Head) (b : BitVec 44) : Option Instr :=
  match fn.toNat with
  | 0 => some (.mcfg h (.ofBits b))
  | 1 => some (.mwld h (.ofBits b))
  | 2 => some (.mswap h (.ofBits b))
  | 3 => some (.mma h (.ofBits b))
  | 4 => some (.mmas h (.ofBits b))
  | 5 => some (.mzero h (.ofBits b))
  | 6 => some (.mpre h (.ofBits b))
  | 7 => some (.mpost h (.ofBits b))
  | 8 => some (.mdrain h (.ofBits b))
  | 9 => some (.mfence h (.ofBits b))
  | 10 => some (.mstat h (.ofBits b))
  | _ => none

/-- Major 0x36 of the opcode map (R230). -/
def decode36 (fn : BitVec 6) (h : Head) (b : BitVec 44) : Option Instr :=
  match fn.toNat with
  | 0 => some (.cpld h (.ofBits b))
  | 1 => some (.cpy h (.ofBits b))
  | 2 => some (.cpyx h (.ofBits b))
  | 3 => some (.cpyw h (.ofBits b))
  | 4 => some (.halo h (.ofBits b))
  | 5 => some (.pub h (.ofBits b))
  | 6 => some (.subCopy h (.ofBits b))
  | 7 => some (.cpfix h (.ofBits b))
  | 8 => some (.cpq h (.ofBits b))
  | _ => none

/-- Major 0x3A of the opcode map (R230). -/
def decode3A (fn : BitVec 6) (h : Head) (b : BitVec 44) : Option Instr :=
  match fn.toNat with
  | 0 => some (.spawn h (.ofBits b))
  | 1 => some (.join h (.ofBits b))
  | 2 => some (.done h (.ofBits b))
  | 3 => some (.frame h (.ofBits b))
  | 4 => some (.dclk h (.ofBits b))
  | 5 => some (.dsync h (.ofBits b))
  | 6 => some (.stage h (.ofBits b))
  | _ => none

/-- Major 0x3C of the opcode map (R230). -/
def decode3C (fn : BitVec 6) (h : Head) (b : BitVec 44) : Option Instr :=
  match fn.toNat with
  | 0 => some (.trap h (.ofBits b))
  | 1 => some (.brk h (.ofBits b))
  | 2 => some (.tret h (.ofBits b))
  | 3 => some (.rdsr h (.ofBits b))
  | 4 => some (.wrsr h (.ofBits b))
  | 5 => some (.carve h (.ofBits b))
  | 6 => some (.halt h (.ofBits b))
  | 7 => some (.rdtr h (.ofBits b))
  | _ => none

/-- The instruction that the opcode map gives the fields of a word, none outside the map (R230, R231). -/
def decodeFields (opc fn : BitVec 6) (h : Head) (b : BitVec 44) : Option Instr :=
  match opc.toNat with
  | 0x00 => decode00 fn h b
  | 0x01 => decode01 fn h b
  | 0x02 => decode02 fn h b
  | 0x03 => decode03 fn h b
  | 0x08 => decode08 fn h b
  | 0x09 => decode09 fn h b
  | 0x10 => decode10 fn h b
  | 0x14 => decode14 fn h b
  | 0x18 => decode18 fn h b
  | 0x1C => decode1C fn h b
  | 0x20 => decode20 fn h b
  | 0x28 => decode28 fn h b
  | 0x2C => decode2C fn h b
  | 0x2D => decode2D fn h b
  | 0x30 => decode30 fn h b
  | 0x36 => decode36 fn h b
  | 0x3A => decode3A fn h b
  | 0x3C => decode3C fn h b
  | _ => none

/-- The instruction that the opcode map gives a word. -/
def decodeListed (w : W64) : Option Instr := decodeFields (wordOpc w) (wordFn w) (wordHead w) (wordBody w)

/-- The decoder: every word is an instruction, listed or unassigned (R230, R231). -/
def decode (w : W64) : Instr := (decodeListed w).getD (.unassignedEncoding w)

/-- The word of an instruction (R211, R213, R230); a device step has none. -/
def encode : Instr → Option W64
  | .nop h b => some (packWord 0x00 0 h b)
  | .hintSpace h fn b => some (packWord 0x00 (BitVec.cast (n := 1 + 5) (m := 6) rfl (1#1 ++ fn)) h b)
  | .unassignedEncoding w => some w
  | .hint h f => some (packWord 0x00 1 h f.toBits)
  | .add h f => some (packWord 0x01 0 h f.toBits)
  | .sub h f => some (packWord 0x01 1 h f.toBits)
  | .mul h f => some (packWord 0x01 2 h f.toBits)
  | .mulhi h f => some (packWord 0x01 3 h f.toBits)
  | .mad h f => some (packWord 0x01 4 h f.toBits)
  | .madhi h f => some (packWord 0x01 5 h f.toBits)
  | .min h f => some (packWord 0x01 6 h f.toBits)
  | .max h f => some (packWord 0x01 7 h f.toBits)
  | .abs h f => some (packWord 0x01 8 h f.toBits)
  | .neg h f => some (packWord 0x01 9 h f.toBits)
  | .clamp h f => some (packWord 0x01 10 h f.toBits)
  | .sad4 h f => some (packWord 0x01 11 h f.toBits)
  | .and h f => some (packWord 0x02 0 h f.toBits)
  | .or h f => some (packWord 0x02 1 h f.toBits)
  | .xor h f => some (packWord 0x02 2 h f.toBits)
  | .andn h f => some (packWord 0x02 3 h f.toBits)
  | .not h f => some (packWord 0x02 4 h f.toBits)
  | .shl h f => some (packWord 0x02 5 h f.toBits)
  | .shr h f => some (packWord 0x02 6 h f.toBits)
  | .sar h f => some (packWord 0x02 7 h f.toBits)
  | .rotl h f => some (packWord 0x02 8 h f.toBits)
  | .bfx h f => some (packWord 0x02 9 h f.toBits)
  | .bfi h f => some (packWord 0x02 10 h f.toBits)
  | .popc h f => some (packWord 0x02 11 h f.toBits)
  | .clz h f => some (packWord 0x02 12 h f.toBits)
  | .ctz h f => some (packWord 0x02 13 h f.toBits)
  | .brev h f => some (packWord 0x02 14 h f.toBits)
  | .lsel h f => some (packWord 0x02 15 h f.toBits)
  | .cmp h f => some (packWord 0x03 0 h f.toBits)
  | .sel h f => some (packWord 0x03 1 h f.toBits)
  | .setp h f => some (packWord 0x03 2 h f.toBits)
  | .getp h f => some (packWord 0x03 3 h f.toBits)
  | .pand h f => some (packWord 0x03 4 h f.toBits)
  | .por h f => some (packWord 0x03 5 h f.toBits)
  | .pxor h f => some (packWord 0x03 6 h f.toBits)
  | .pnot h f => some (packWord 0x03 7 h f.toBits)
  | .fadd h f => some (packWord 0x08 0 h f.toBits)
  | .fsub h f => some (packWord 0x08 1 h f.toBits)
  | .fmul h f => some (packWord 0x08 2 h f.toBits)
  | .ffma h f => some (packWord 0x08 3 h f.toBits)
  | .fdiv h f => some (packWord 0x08 4 h f.toBits)
  | .fsqrt h f => some (packWord 0x08 5 h f.toBits)
  | .frcp h f => some (packWord 0x08 6 h f.toBits)
  | .frsq h f => some (packWord 0x08 7 h f.toBits)
  | .fmin h f => some (packWord 0x08 8 h f.toBits)
  | .fmax h f => some (packWord 0x08 9 h f.toBits)
  | .fclamp h f => some (packWord 0x08 10 h f.toBits)
  | .fexp2 h f => some (packWord 0x08 11 h f.toBits)
  | .flog2 h f => some (packWord 0x08 12 h f.toBits)
  | .fsinpi h f => some (packWord 0x08 13 h f.toBits)
  | .fcospi h f => some (packWord 0x08 14 h f.toBits)
  | .ffloor h f => some (packWord 0x08 15 h f.toBits)
  | .fceil h f => some (packWord 0x08 16 h f.toBits)
  | .ftrunc h f => some (packWord 0x08 17 h f.toBits)
  | .fround h f => some (packWord 0x08 18 h f.toBits)
  | .fcmp h f => some (packWord 0x09 0 h f.toBits)
  | .fclass h f => some (packWord 0x09 1 h f.toBits)
  | .cvt h f => some (packWord 0x10 0 h f.toBits)
  | .pack2 h f => some (packWord 0x10 1 h f.toBits)
  | .unpack2 h f => some (packWord 0x10 2 h f.toBits)
  | .quant h f => some (packWord 0x10 3 h f.toBits)
  | .dequant h f => some (packWord 0x10 4 h f.toBits)
  | .srnd h f => some (packWord 0x10 5 h f.toBits)
  | .shfl h f => some (packWord 0x14 0 h f.toBits)
  | .vote h f => some (packWord 0x14 1 h f.toBits)
  | .ballot h f => some (packWord 0x14 2 h f.toBits)
  | .wscan h f => some (packWord 0x14 3 h f.toBits)
  | .wred h f => some (packWord 0x14 4 h f.toBits)
  | .bcast h f => some (packWord 0x14 5 h f.toBits)
  | .lanemask h f => some (packWord 0x14 6 h f.toBits)
  | .aadd h f => some (packWord 0x18 0 h f.toBits)
  | .asub h f => some (packWord 0x18 1 h f.toBits)
  | .amul h f => some (packWord 0x18 2 h f.toBits)
  | .amad h f => some (packWord 0x18 3 h f.toBits)
  | .ashl h f => some (packWord 0x18 4 h f.toBits)
  | .ashr h f => some (packWord 0x18 5 h f.toBits)
  | .asar h f => some (packWord 0x18 6 h f.toBits)
  | .aand h f => some (packWord 0x18 7 h f.toBits)
  | .aor h f => some (packWord 0x18 8 h f.toBits)
  | .axor h f => some (packWord 0x18 9 h f.toBits)
  | .amin h f => some (packWord 0x18 10 h f.toBits)
  | .amax h f => some (packWord 0x18 11 h f.toBits)
  | .acmp h f => some (packWord 0x18 12 h f.toBits)
  | .asel h f => some (packWord 0x18 13 h f.toBits)
  | .amov h f => some (packWord 0x18 14 h f.toBits)
  | .amovk h f => some (packWord 0x18 15 h f.toBits)
  | .br h f => some (packWord 0x1C 0 h f.toBits)
  | .brc h f => some (packWord 0x1C 1 h f.toBits)
  | .brx h f => some (packWord 0x1C 2 h f.toBits)
  | .call h f => some (packWord 0x1C 3 h f.toBits)
  | .ret h f => some (packWord 0x1C 4 h f.toBits)
  | .exit h f => some (packWord 0x1C 5 h f.toBits)
  | .yield h f => some (packWord 0x1C 6 h f.toBits)
  | .wait h f => some (packWord 0x1C 7 h f.toBits)
  | .ld h f => some (packWord 0x20 0 h f.toBits)
  | .st h f => some (packWord 0x20 1 h f.toBits)
  | .ldfe h f => some (packWord 0x20 2 h f.toBits)
  | .stfe h f => some (packWord 0x20 3 h f.toBits)
  | .ldw h f => some (packWord 0x20 4 h f.toBits)
  | .stw h f => some (packWord 0x20 5 h f.toBits)
  | .prefetch h f => some (packWord 0x20 6 h f.toBits)
  | .fill h f => some (packWord 0x20 7 h f.toBits)
  | .atom h f => some (packWord 0x28 0 h f.toBits)
  | .atomcas h f => some (packWord 0x28 1 h f.toBits)
  | .red h f => some (packWord 0x28 2 h f.toBits)
  | .lr h f => some (packWord 0x2C 0 h f.toBits)
  | .sc h f => some (packWord 0x2C 1 h f.toBits)
  | .lock h f => some (packWord 0x2C 2 h f.toBits)
  | .trylock h f => some (packWord 0x2C 3 h f.toBits)
  | .unlock h f => some (packWord 0x2C 4 h f.toBits)
  | .lockq h f => some (packWord 0x2C 5 h f.toBits)
  | .acq h f => some (packWord 0x2C 6 h f.toBits)
  | .rel h f => some (packWord 0x2C 7 h f.toBits)
  | .bind h f => some (packWord 0x2C 8 h f.toBits)
  | .unbind h f => some (packWord 0x2C 9 h f.toBits)
  | .fence h f => some (packWord 0x2C 10 h f.toBits)
  | .mon h f => some (packWord 0x2C 11 h f.toBits)
  | .mwait h f => some (packWord 0x2C 12 h f.toBits)
  | .bar h f => some (packWord 0x2C 13 h f.toBits)
  | .cbar h f => some (packWord 0x2C 14 h f.toBits)
  | .phinit h f => some (packWord 0x2D 0 h f.toBits)
  | .phreg h f => some (packWord 0x2D 1 h f.toBits)
  | .phdrop h f => some (packWord 0x2D 2 h f.toBits)
  | .phsig h f => some (packWord 0x2D 3 h f.toBits)
  | .phwait h f => some (packWord 0x2D 4 h f.toBits)
  | .phsw h f => some (packWord 0x2D 5 h f.toBits)
  | .phquery h f => some (packWord 0x2D 6 h f.toBits)
  | .cadd h f => some (packWord 0x2D 7 h f.toBits)
  | .cwait h f => some (packWord 0x2D 8 h f.toBits)
  | .cread h f => some (packWord 0x2D 9 h f.toBits)
  | .mcfg h f => some (packWord 0x30 0 h f.toBits)
  | .mwld h f => some (packWord 0x30 1 h f.toBits)
  | .mswap h f => some (packWord 0x30 2 h f.toBits)
  | .mma h f => some (packWord 0x30 3 h f.toBits)
  | .mmas h f => some (packWord 0x30 4 h f.toBits)
  | .mzero h f => some (packWord 0x30 5 h f.toBits)
  | .mpre h f => some (packWord 0x30 6 h f.toBits)
  | .mpost h f => some (packWord 0x30 7 h f.toBits)
  | .mdrain h f => some (packWord 0x30 8 h f.toBits)
  | .mfence h f => some (packWord 0x30 9 h f.toBits)
  | .mstat h f => some (packWord 0x30 10 h f.toBits)
  | .cpld h f => some (packWord 0x36 0 h f.toBits)
  | .cpy h f => some (packWord 0x36 1 h f.toBits)
  | .cpyx h f => some (packWord 0x36 2 h f.toBits)
  | .cpyw h f => some (packWord 0x36 3 h f.toBits)
  | .halo h f => some (packWord 0x36 4 h f.toBits)
  | .pub h f => some (packWord 0x36 5 h f.toBits)
  | .subCopy h f => some (packWord 0x36 6 h f.toBits)
  | .cpfix h f => some (packWord 0x36 7 h f.toBits)
  | .cpq h f => some (packWord 0x36 8 h f.toBits)
  | .spawn h f => some (packWord 0x3A 0 h f.toBits)
  | .join h f => some (packWord 0x3A 1 h f.toBits)
  | .done h f => some (packWord 0x3A 2 h f.toBits)
  | .frame h f => some (packWord 0x3A 3 h f.toBits)
  | .dclk h f => some (packWord 0x3A 4 h f.toBits)
  | .dsync h f => some (packWord 0x3A 5 h f.toBits)
  | .stage h f => some (packWord 0x3A 6 h f.toBits)
  | .trap h f => some (packWord 0x3C 0 h f.toBits)
  | .brk h f => some (packWord 0x3C 1 h f.toBits)
  | .tret h f => some (packWord 0x3C 2 h f.toBits)
  | .rdsr h f => some (packWord 0x3C 3 h f.toBits)
  | .wrsr h f => some (packWord 0x3C 4 h f.toBits)
  | .carve h f => some (packWord 0x3C 5 h f.toBits)
  | .halt h f => some (packWord 0x3C 6 h f.toBits)
  | .rdtr h f => some (packWord 0x3C 7 h f.toBits)
  | .splitArrive | .clockEpochStep _ | .issuePromotion _ _ | .waitExpiry _ _ | .minTreeRefresh _
  | .pageWalk _ _ _ _ | .pageReclaim _ _ | .fillComplete _ _ | .multicastArrival _ | .copyFault _
  | .copyComplete _ | .weightLoadStroke _ | .swapStroke _ | .rowStroke _ | .matrixOpComplete _
  | .phaserEngineSignal _ | .asyncTrapDelivery _ _ | .ringRetry _ | .waiterAway _ | .waiterBack _
  | .lockReissue _ _ | .lockWaitTimeout _ _ | .lockHoldTimeout _ _ | .mwaitTimeout _ _ | .cwaitTimeout _ _
  | .monitorPoll _ | .launchTrigger _ | .dispatchSelect _ _ | .forwardProgressSwap _ | .preemptAtReached _
  | .contextSwitchOut _ | .spillComplete _ | .contextSwitchIn _ _ | .launchEnd _ | .registerWrite _ _ _
  | .xinvPage _ _ | .xinvContext _ | .xinvAllContexts | .xinvReserved | .xinvComplete
  | .releaseEpisode _ | .releaseAllEpisodes _ | .resumeAtTpc _ | .resumePastTpc _ | .abortLaunch _
  | .trcmdInvalid | .pdownClear _ | .loadfw _ _ | .attest _ _ | .dieoff _ _
  | .dieon _ _ | .relread _ _ | .logread _ _ | .route _ _ | .reset _ _
  | .mailboxCompletion | .hostRead _ _ | .hostWrite _ _ | .cxlSnoop _ _ | .peerWriteArrival _ _ _
  | .peerRequestArrival _ _ _ | .flitCrcFail _ | .linkRetrainStart _ | .linkRetrainComplete _ _ | .portDown _
  | .deviceReset | .selftest _ | .fwcheck | .meminit | .links _ _
  | .errorDetected _ _ | .powerAlarm _ _ | .powerAlarmClear _ _ | .thermalTrip | .copyEngineWrite _
  | .peerAcknowledgement _ _ _ | .yieldExpiry _ _ => none

/-- The word of an instruction as the number a trap record holds (R231). -/
def encodeD (i : Instr) : W64 := (encode i).getD 0

/-- The four-byte-pair little-endian reading of eight bytes (R8), lowest address first. -/
def leWord : List Byte → W64
  | [] => 0
  | b :: r => (leWord r <<< 8) ||| b.setWidth 64

/-- The eight bytes of a word, lowest address first (R8). -/
def leBytes (n : Nat) (w : W64) : List Byte :=
  match n with
  | 0 => []
  | n + 1 => w.setWidth 8 :: leBytes n (w >>> 8)

/-- The decoder on bytes: an instruction is eight bytes, little-endian (R8, R209); fewer are refused. -/
def decodeBytes : List Byte → Option (Instr × List Byte)
  | b0 :: b1 :: b2 :: b3 :: b4 :: b5 :: b6 :: b7 :: r =>
    some (decode (leWord [b0, b1, b2, b3, b4, b5, b6, b7]), r)
  | _ => none

/-- The instruction this decoder reads from an instruction whose bits are `w`, numbered as
spec/opcode_table.json numbers them; every instruction is one 64-bit word. -/
def decodeTableWord (nbits w : Nat) : Option Instr :=
  if nbits ≤ 64 ∧ w < 2 ^ 64 then
    (decodeBytes (leBytes 8 (BitVec.ofNat 64 w))).map (·.1)
  else none

end Sys2Proof
end

