-- ==== Sys2Proof/Machine/State.lean ====
section
/-!
DEFINITION. The state of the machine, all of it plain data: device and host memory, the waves with their
registers, the stage sets with the pages of their operand stores, the engines' operations in flight, the
home slices' line state, the launches and queues, and the device's registers (INVENTORY.md, State).
-/
namespace Sys2Proof.Machine

/-- A table keyed by a number in canonical form: keys strictly rising, and no entry equal to the value an
unlisted key reads as (Machine/Sparse.lean). -/
abbrev Sparse (α : Type) := List (Nat × α)

/-- Device and host memory: a byte's key is its physical address, plus `hostKey` for host memory
(spec/02_address_spaces.md R22, TGT 0 and 1). -/
abbrev Memory := List Host.Cell

/-- One value of up to 64 bits per lane, keyed by lane (R219). -/
abbrev Row := Sparse W64

/-- A fixed-latency write that may still be pending (spec/13_encoding.md R227 to R229): the stream of its
instruction, the register (operand code, 0x100 + n for pn, 0x108 + n for gn), its latency, the distance
counted so far, the lanes that it holds for (of a register held per wave, those of its split), and the values before it. -/
structure Pend where
  acc : Bool
  code : Nat
  lat : Nat
  dist : Nat
  mask : W32
  old : Row
  deriving DecidableEq, Repr

/-- The queue entries and pending writes of lanes that wait on a reconvergence stack (R168, R227). -/
structure Saved where
  qd : List Row
  qv : List Row
  qb : List Row
  pend : List Pend
  deriving DecidableEq, Repr

/-- An entry of a reconvergence stack (spec/10_execution_model.md R166). `got` holds what the lanes already arrived
brought with them, where a deferred side has taken their split's place; `kept` what a deferred side's lanes held at
the divergence (R168). A stack lists its top entry first. -/
inductive StackEntry where
  | point (hdr : Nat) (mask arrived : W32) (got : List Saved)
  | deferred (pc : Nat) (mask : W32) (kept : Saved)
  deriving DecidableEq, Repr

/-- A trap: its cause code, subcause and named values (spec/12_traps_preemption.md R198, R199). -/
structure Trap where
  cause : BitVec 8
  sub : BitVec 8 := 0
  addr : W64 := 0
  info0 : W64 := 0
  info1 : W64 := 0
  info2 : W32 := 0
  deriving DecidableEq, Repr

/-- An asynchronous trap that waits to be taken, and the active mask of the instruction that it comes from (R197). -/
structure AsyncTrap where
  mask : W32
  trap : Trap
  deriving DecidableEq, Repr

/-- Handler state of a split (R200): what it set aside, TPC, its current record, and how many entries its stack held. -/
structure Handler where
  qd : List Row
  qv : List Row
  qb : List Row
  pend : List Pend
  hdr : Nat
  pc : Nat
  entering : Bool
  len : Nat
  reconv : Nat
  ans : Option Row
  served : W32
  servedVals : Row
  async : Bool
  peerLost : Bool
  waitUntil : Option Nat
  forced : List (Nat × Nat)
  depth : Nat
  record : List W64
  cont : List W64
  deriving DecidableEq, Repr

/-- A lane of a parked `ldfe` that is not yet served: stage set, page, byte offset and size (R46). -/
structure Want where
  l : Nat
  set : Nat
  pg : Nat
  off : Nat
  n : Nat
  deriving DecidableEq, Repr

/-- How a slice watches for a parked waiter (spec/07_model_far.md R129, spec/15_isa_memory.md R284): by an entry of its
watch table, or by polling; a polled waiter whose event has come is `due`, with the answer and the clock of its event. -/
inductive Watch where
  | entry
  | polled
  | due (ans : Row) (clock : Nat)
  deriving DecidableEq, Repr

/-- Why a split does not issue. `header`: parked at its reconvergence header, with its place in the order of
arrival (R167, R168). `ldfe` (R46): its
place in the order of arrival, whether it empties, and its unserved lanes.
`lock`, `lockFull`: queued, or waiting for a free entry (R135, R140), with the wait deadline. `mwait`
(R280), `cwait` (R286), `phwait` (R284): with the logical bank whose slice watches for them. `mfence` (R312). `bar`, `cbar` (R281). `ring`: on a full trap ring (R204), until a
write moves the stamp of the header's line from `wts`. `replay`, `held` (R201). `ack`: a `.sys` fence or release waiting for
acknowledgements (R124); `peer`: a non-posted access waiting for its answer, `n` twice the
peer, plus one once its link layer has acknowledged the request (R125). `yielded` (R260).
`stopped`: at a PREEMPT_AT boundary (R205). `queueFull`: a `spawn` at a full comb queue (R188). -/
inductive Park where
  | running
  | header (arrival : Nat)
  | ldfe (arrival : Nat) (clr : Bool) (want : List Want)
  | lock (line va : Nat) (deadline : Option Nat)
  | lockFull (line va : Nat) (mask : W32) (deadline : Option Nat)
  | mwait (deadline : Option Nat)
  | cwait (addr : Nat) (target : W64) (sc : Scope) (deadline : Option Nat) (bank : Nat) (watch : Watch)
  | phwait (line : Nat) (target : BitVec 32) (bank : Nat) (watch : Watch)
  | mfence
  | bar
  | cbar
  | ring (line wts : Nat)
  | replay
  | held
  | ack
  | peer (n : Nat)
  | yielded (since : Nat) (waitFor : List (Nat × Nat))
  | stopped
  | queueFull
  deriving DecidableEq, Repr

/-- What a load of the access stream has loaded before older words of its split (spec/06_model_near.md R104): its word, by its
address and the split's clock there, its lanes, and their values. -/
structure Ahead where
  pc : Nat
  clock : Nat
  lanes : W32
  vals : Row
  deriving DecidableEq, Repr

/-- A split (spec/10_execution_model.md R165, R166, R173). `pc` is the address of the next word, or of the
header it is about to enter when `entering`; `hdr`, `len`, `reconv` are of the block it runs. `ans` is the
value with which a parked instruction was woken; `served`, `servedVals` are the lanes an instruction has
already performed (R46), `forced` the pages, by stage set and place, whose fill an append of the instruction has
forced (spec/04_pending_logs.md R65); `peeked` the entry that the access stream has pushed into an empty qd ahead of the split's next
word (R173); `peerLost` says that the link of its access's peer went down after the request had been
acknowledged (R125); `early` the loads that have run ahead (R104); `heldTrap` is the trap for which it is held, `heldAsync` whether it was asynchronous (R201). -/
structure Split where
  hdr : Nat := 0
  pc : Nat := 0
  entering : Bool := true
  len : Nat := 0
  reconv : Nat := 0
  mask : W32 := 0xFFFFFFFF#32
  stack : List StackEntry := []
  clock : Nat := 0
  qd : List Row := []
  qv : List Row := []
  qb : List Row := []
  pend : List Pend := []
  handler : Option Handler := none
  park : Park := .running
  ans : Option Row := none
  served : W32 := 0
  servedVals : Row := []
  forced : List (Nat × Nat) := []
  peeked : Option Row := none
  ringRec : List (List W64) := []
  after : Park := .running
  heldTrap : Option Trap := none
  heldAsync : Bool := false
  waitUntil : Option Nat := none
  heldA : Nat := 0
  heldX : Nat := 0
  readySince : Nat := 0
  promoted : Option Nat := none
  peerLost : Bool := false
  early : List Ahead := []
  deriving DecidableEq, Repr

/-- A lock on a wave's held list (spec/08_line_locks.md R134, R143): its physical line, the VA through which it
was asked for, and the active mask of the instruction that asked (spec/12_traps_preemption.md R197). -/
structure HeldLock where
  line : Nat
  va : Nat
  mask : W32
  deadline : Option Nat
  deriving DecidableEq, Repr

/-- An armed monitor (spec/07_model_far.md R129), with the logical bank whose slice watches it; `due` is the clock of a
write that a polled watch has still to tell of. -/
structure Monitor where
  line : Nat
  bank : Nat
  wts : Nat
  polling : Bool
  due : Option Nat := none
  deriving DecidableEq, Repr

/-- A copy of a line held away from its home (R117, R120): its lease end, its 64 bytes, and the way of an L1 that holds
it (spec/03_operand_stores.md R52). -/
structure Lease where
  line : Nat
  leaseEnd : Nat
  data : List Byte
  way : Nat := 0
  deriving DecidableEq, Repr

/-- A stationary bank (spec/16_isa_matrix.md R296, R297): the load that filled it, the bytes of the W region as the load
read them, keyed by W-store offset, and the offsets of its poisoned granules. `stale` asks for a reload (R294). -/
structure Bank where
  word : W64
  ty : Ty
  k : Nat
  g : Bool
  sparse : Nat
  xvw : BitVec 16
  wdesc : Nat
  moff : Nat
  bytes : Sparse Byte
  poison : List Nat := []
  stale : Bool := false
  deriving DecidableEq, Repr

/-- A layout slot (spec/17_isa_copy_task_system.md R319): the record and its VA. -/
structure Slot where
  raw : BitVec 512
  va : Nat
  deriving DecidableEq, Repr

/-- A wave (spec/10_execution_model.md R165). Registers are tables keyed by register number, or by
32 × register + lane for those held per lane. `atraps` are its asynchronous traps that have not been taken (R197). -/
structure Wave where
  ctx : Nat := 0
  launch : Nat := 0
  set : Nat := 0
  widx : Nat := 0
  stage : Nat := 0
  vidx : Nat := 0
  vblk : Nat := 0
  v : Sparse W32 := []
  p : Sparse W32 := []
  a : Sparse W64 := []
  s : Sparse W64 := []
  g : BitVec 8 := 1
  rss : List W32 := (List.range 32).map (fun l => BitVec.ofNat 32 (l + 1))
  rnd : Rnd := .rne
  fo : Bool := false
  chk : Bool := false
  fstat : BitVec 9 := 0
  xva : BitVec 16 := 0x8000#16
  xvw : BitVec 16 := 0x8000#16
  preemptAt : W64 := 0
  preemptHit : Bool := false
  vstamp : Nat := 0
  lmax : Nat := 0
  epochDue : Nat := 0
  leaseSet : List Lease := []
  reservation : Option Nat := none
  monitor : Option Monitor := none
  held : List HeldLock := []
  mgeo : W64 := 3
  mdesc : W64 := 0
  mringa : W64 := 0
  mringw : W64 := 0
  msparse : W64 := 0
  front : Option Bank := none
  back : Option Bank := none
  bank : BitVec 1 := 0
  slots : Sparse (Option Slot) := []
  rframe : W64 := 0
  rjoff : Nat := 0
  cframe : W64 := 0
  cjoff : Nat := 0
  depth : Nat := 0
  posted : Sparse Nat := []
  lost : Sparse Nat := []
  atraps : List AsyncTrap := []
  splits : List Split := [{}]
  live : Bool := true
  deriving DecidableEq, Repr

/-- The page states (spec/03_operand_stores.md R37, R44). -/
inductive PageState where
  | nonResident | filling | unpinned | pinned
  deriving DecidableEq, Repr

/-- An entry of a pending-operation log (spec/04_pending_logs.md R59, R60): word 0, the fields of word 1,
the extension, the FO key of R63, its place in the order of appends (R49), and the copies one of which must be published
before the granule is set full, none for at once (R64). -/
structure LogEntry where
  operand : W64
  clock : BitVec 24
  kind : BitVec 4
  ty : BitVec 4
  vcore : BitVec 8
  wave : BitVec 4
  src : BitVec 4
  gran : BitVec 8
  off : BitVec 4
  sz : BitVec 4
  ext : List Byte
  key : List Nat
  seq : Nat
  copies : List Nat
  deriving DecidableEq, Repr

/-- A mapping of a page onto global memory (R48, R49): VA, the key of its first byte, RW. -/
structure Mapping where
  va : Nat
  key : Nat
  rw : Bool
  deriving DecidableEq, Repr

/-- A page of an allocation (spec/03_operand_stores.md R37 to R49). `segs` the slots taken in each segment of its log (R57); `logBad` says that a slot of
its log has an uncorrectable error (R68); `fullClock` the clock at which each granule was last set full (R162). -/
structure Page where
  store : StoreId
  idx : Nat
  gen : BitVec 32
  st : PageState := .pinned
  dirty : Bool := true
  mapped : Option Mapping := none
  frame : Nat := 0
  data : Sparse Byte := []
  full : BitVec 256 := 0
  poison : BitVec 256 := 0
  log : List LogEntry := []
  segs : List Nat := []
  logBad : Bool := false
  fullClock : Sparse Nat := []
  deriving DecidableEq, Repr

/-- A registered replica range of a stage set (spec/17_isa_copy_task_system.md R330): store, first byte,
end, and the descriptor entry that registered it. -/
structure Range where
  store : StoreId
  lo : Nat
  hi : Nat
  desc : Nat
  entry : Nat
  deriving DecidableEq, Repr

/-- A stage set (spec/10_execution_model.md R171). `back` is the base of its backing region, `pool` the
pool region it holds, as die and number (R383); `block` its team block in the save area (R206); `outAt` when it was last
switched out or its last wave ended (R40); `lastIssue` when its waves last issued (R193). -/
structure StageSet where
  launch : Nat
  ctx : Nat
  cluster : Nat
  jidx : Nat
  team : Nat
  vcore : Nat
  nstg : Nat
  wpt : Nat
  vblk : Nat
  pages : List Page
  back : Nat
  pool : Option (Nat × Nat)
  waves : List Nat
  lhold : BitVec 6 := 28
  logcap : BitVec 3 := 5
  trapbase : W64 := 0
  ranges : List Range := []
  block : Option Nat := none
  spillSeq : Nat := 0
  outAt : Nat := 0
  lastIssue : Nat := 0
  live : Bool := true
  deriving DecidableEq, Repr

/-- Where a cluster is (R170, R206): on its cores; leaving, with its state in the shadow banks until the
spill ends; spilled into the save area; ended. -/
inductive Residency where
  | resident | shadow | spilled | ended
  deriving DecidableEq, Repr

/-- A cluster of stage sets (R170), on a logical cluster. `aff` is the AFF code of the continuation record that made it
(R175), none for a launch's own cluster. -/
structure Cluster where
  launch : Nat
  sets : List Nat
  lcl : Nat
  prio : Nat
  hint : W64 := 0
  res : Residency := .resident
  lastIssue : Nat := 0
  swapUntil : Nat := 0
  bypass : Nat := 0
  aff : Option Nat := none
  deriving DecidableEq, Repr

/-- The footprint of a team (R175, R182): pages of each store and VBLK. -/
structure Footprint where
  w : Nat
  a : Nat
  c : Nat
  s : Nat
  vblk : Nat
  deriving DecidableEq, Repr

/-- A key of R159: clock, virtual wave index, split ordinal. -/
structure Key where
  clock : Nat
  vidx : Nat
  ord : Nat
  deriving DecidableEq, Repr

/-- A launch (spec/11_launch_scheduling.md R182): its record, its status (none while it runs, R195), its
FO minimum (R161) and its next virtual wave index (R159). -/
structure Launch where
  slot : Nat
  seq : W64
  ctx : Nat
  code : W64
  args : List W64
  donectr : W64
  sealVa : W64
  maps : W64
  back : W64
  hint : W64
  foot : Footprint
  wpt : Nat
  nstg : Nat
  tpc : Nat
  ncl : Nat
  prio : Nat
  clbase : Nat
  fo : Bool
  cor : Bool
  vstamp : Nat
  pending : Nat
  nextVidx : Nat
  minKey : Option Key := none
  status : Option (BitVec 8) := none
  ended : Bool := false
  deriving DecidableEq, Repr

/-- A continuation record (spec/10_execution_model.md R175), with its raw bits for the checks at the pop,
and the start values of the wave it makes, its virtual wave index among them (R159, R177, R333). -/
structure ContRec where
  bits : BitVec 512
  vidx : Nat
  vstamp : Nat
  clock : Nat
  ctx : Nat
  launch : Nat
  deriving DecidableEq, Repr

/-- What a comb-queue entry names (R188, R193): launch cluster i, a whole co-resident launch, a
continuation record, or clusters that were switched out. -/
inductive Work where
  | cluster (l i : Nat)
  | whole (l : Nat)
  | cont (r : ContRec)
  | again (l : Nat) (cls : List Nat)
  deriving DecidableEq, Repr

/-- An entry of a comb queue (R188, R190). -/
structure Entry where
  work : Work
  hint : W64
  bypass : Nat := 0
  deriving DecidableEq, Repr

/-- What a copy does (R320, R331): a push copies the strip or the whole of entry `k` of a descriptor. -/
inductive CopyKind where
  | cpy | cpyx | cpyw
  | push (desc k : Nat) (halo : Nat)
  deriving DecidableEq, Repr

/-- A fault of a copy (R325): its trap, whether a write failed, and whether the access was for a descriptor (R318). -/
structure CopyFault where
  trap : Trap
  onWrite : Bool
  desc : Bool := false
  deriving DecidableEq, Repr

/-- A copy in flight (R320 to R326). `pos` is the element reached; `zeros` how many elements from there take 0; `noWrite` and
`noDesc` what a skip has left out of it: its write, and its descriptor, 1 when the descriptor is not read and 2 when it is not
written (R318, R326); `idx` the index entries of its sub-tensors by their number, once read (R322); `ahead` and `descAhead` the later elements
whose values, and whose descriptors, have landed with the granule of an earlier one (R151); `posted` the writes that each peer
has not acknowledged (R115); `aborted` says that it takes no further element (R326).
`cnt` the counter or the phaser's line, as a key; `key`, `maxWts` of R63 and R153. Of a push (R331): `seq` the release
that started it, `tset` and `gen` its target's stage set and generation (R54), `cpeer` the peer that its counter lies on,
`pcnt` its push counter, `unread` that its record copies have still to be read. A push without a
tag yet has tag 64. -/
structure Copy where
  wave : Nat
  lane : W32
  tag : Nat
  kind : CopyKind
  la : Slot
  lb : Slot
  laSlot : Nat
  lbSlot : Nat
  dst : W64
  space : Nat
  cnt : Option Nat
  ph : Bool
  epoch : BitVec 32
  pos : Nat := 0
  zeros : Nat := 0
  fault : Option CopyFault := none
  seq : Nat := 0
  key : Key := ⟨0, 0, 0⟩
  maxWts : Nat := 0
  gen : BitVec 32 := 0
  tset : Option Nat := none
  cva : Nat := 0
  cpeer : Option Nat := none
  pcnt : Option Nat := none
  unread : Bool := false
  noWrite : Bool := false
  noDesc : Nat := 0
  idx : List (Nat × List Int) := []
  ahead : List Nat := []
  descAhead : List Nat := []
  posted : Sparse Nat := []
  stale : Bool := false
  aborted : Bool := false
  done : Bool := false
  fullBits : List (Nat × Nat × Nat) := []
  published : Bool := false
  deriving DecidableEq, Repr

/-- The matrix operations (R293). -/
inductive MatKind where
  | mwld | mswap | mma | mmas | mzero | mpre | mpost | mdrain
  deriving DecidableEq, Repr

/-- A matrix operation in Quill's queue (R293, R294): the samples it took at issue, the beats loaded, the
rows done and the flags it has found. `lineA`, `lineW` are the phasers of its ring stages (R302). -/
structure MatOp where
  wave : Nat
  lane : W32
  kind : MatKind
  f : FmtT
  c : W64
  a : W64
  w : W64
  xva : BitVec 16
  xvw : BitVec 16
  mgeo : W64
  mdesc : W64
  mringa : W64
  mringw : W64
  msparse : W64
  epochA : BitVec 32
  epochW : BitVec 32
  lineA : Option Nat
  lineW : Option Nat
  rnd : Rnd
  cnt : Option Nat
  beat : Nat := 0
  loading : Option Bank := none
  swapped : Bool := false
  row : Nat := 0
  checked : Bool := false
  failed : Bool := false
  poisoned : Bool := false
  ints : Option Bool := none
  carry : List (Byte × Bool) := []
  flags : BitVec 9 := 0
  maxWts : Nat := 0
  key : Key := ⟨0, 0, 0⟩
  done : Bool := false
  fullBits : List (Nat × Nat × Nat) := []
  published : Bool := false
  saved : Bool := false
  deriving DecidableEq, Repr

/-- A signal of an engine to a phaser, on its way (R285): the phaser's physical line and the VA that named it; `held` is
the wave that has not yet published it (R163). -/
structure EngSignal where
  line : Nat
  va : Nat
  epoch : BitVec 32
  wave : Nat
  wts : Nat
  held : Option Nat := none
  deriving DecidableEq, Repr

/-- A waiter of a lock (spec/08_line_locks.md R135, R141). -/
structure Waiter where
  wave : Nat
  split : Nat
  va : Nat
  mask : W32
  away : Bool := false
  passes : Nat := 0
  deriving DecidableEq, Repr

/-- A lock-table entry (R131, R132). `core` is the logical core of the owner when it became that (R131). A reserved one keeps the
split it is reserved for and the clock of the unlocker (R141, R149). -/
structure Lock where
  locked : Bool := false
  reserved : Bool := false
  broken : Bool := false
  owner : Option Nat := none
  core : Nat := 0
  split : Nat := 0
  clock : Nat := 0
  queue : List Waiter := []
  bank : Nat := 0
  deriving DecidableEq, Repr

/-- A declaration on a seal (spec/17_isa_copy_task_system.md R329): its descriptor's key and address, its context, the
logical bank it counts in, and the halo width, 0 for a publication. -/
structure Decl where
  desc : Nat
  descVa : W64
  ctx : Nat
  bank : Nat
  halo : Nat
  deriving DecidableEq, Repr

/-- A release made on a line as a seal (spec/06_model_near.md R99): its scope, its wave, and the largest VSTAMP with which
the wave made it. -/
structure Rel where
  scope : Scope
  wave : Option Nat
  vst : Nat
  deriving DecidableEq, Repr

/-- An ownership grant of a line (R114): the cluster whose unit holds it, the waves that have written under it, and the
largest clock among their writes (R162). -/
structure Grant where
  cluster : Nat
  writers : List Nat := []
  clock : Nat := 0
  deriving DecidableEq, Repr

/-- What the home keeps for a line (spec/07_model_far.md R116, R153): stamps; the lock; whether it is a phaser
(R282); the declaration; the grant of the line, if a cluster unit holds it (R114);
whether the host holds a copy, or, of a host line, whether die 0's L2 has taken it (R121); which of the line's words have taken an addition of the device, or of a
peer, since their latest ordinary write (R152); the releases made on the line (R99); the halo width with which
the descriptor at the line was last declared (R329). -/
structure Line where
  wts : Nat := 0
  rts : Nat := 0
  dst : Nat := 0
  cst : Nat := 0
  cts : Nat := 0
  lock : Option Lock := none
  decl : Option Decl := none
  grant : Option Grant := none
  ph : Bool := false
  hostCopy : Bool := false
  inL2 : Bool := false
  added : BitVec 8 := 0
  addedSys : BitVec 8 := 0
  rels : List Rel := []
  haloW : Nat := 0
  deriving DecidableEq, Repr

/-- Where a TLB stands (spec/02_address_spaces.md R26): in a core, or in a cluster, by physical numbers. -/
inductive TlbAt where
  | core (n : Nat)
  | cluster (n : Nat)
  deriving DecidableEq, Repr

/-- A TLB entry (R26): context, page, and the leaf's word. -/
structure Tlb where
  place : TlbAt
  ctx : Nat
  vpn : Nat
  sz : BitVec 3
  leaf : W64
  dirty : Bool
  deriving DecidableEq, Repr

/-- An entry of a die's walk cache (R26): the table that a table entry of a level points to, for the range of addresses
that the entry maps. -/
structure WalkEntry where
  die : Nat
  ctx : Nat
  lvl : Nat
  part : Nat
  table : Nat
  deriving DecidableEq, Repr

/-- An open fault episode (R28). -/
structure Episode where
  die : Nat
  ctx : Nat
  base : Nat
  size : Nat
  cause : BitVec 8
  waves : List Nat
  deriving DecidableEq, Repr

/-- An entry of a binding table (spec/06_model_near.md R96): seal, first and last line. -/
structure Binding where
  sealAddr : Nat
  first : Nat
  last : Nat
  deriving DecidableEq, Repr

/-- What the device keeps of a context (R96, R208). -/
structure Ctx where
  bindings : List Binding := []
  broken : Bool := false
  spillSeq : Nat := 0
  deriving DecidableEq, Repr

/-- A core (spec/00_scope.md R3, spec/03_operand_stores.md R52, R54). `carve` counts 32 KiB units. -/
structure Core where
  carve : Nat := 2
  allocs : BitVec 32 := 0
  lastIssue : Nat := 0
  array : Option Nat := none
  issued : Sparse (Nat × Nat × Nat) := []
  deriving DecidableEq, Repr

/-- A copy of a line in a core's L1 or a die's L2 (R117) or in a cluster's constant path (R19). -/
inductive Cache where
  | l1 (core : Nat) | l2 (die : Nat) | konst (cluster : Nat)
  deriving DecidableEq, Repr

/-- A queued invalidation (spec/02_address_spaces.md R30). -/
inductive Xinv where
  | page (ctx : BitVec 16) (sz : BitVec 3) (va : W64)
  | context (ctx : BitVec 16)
  | all
  deriving DecidableEq, Repr

/-- A mailbox command in progress (spec/25_service.md R376). -/
inductive MailCmd where
  | loadfw | attest | dieoff | dieon | relread | logread | route | reset
  deriving DecidableEq, Repr

/-- A reliability record (R376, R379): what was struck, when, and whether for good. -/
structure RelRecord where
  what : ErrStruct
  time : Nat
  lasting : Bool
  deriving DecidableEq, Repr

/-- A journal entry (R378). -/
structure Journal where
  idx : Nat
  time : Nat
  seq : W64
  ctx : BitVec 16
  slot : Nat
  status : BitVec 8
  fin : Bool
  deriving DecidableEq, Repr

/-- What moves next: a split issues, a device step happens, cycles pass, a cache drops a copy for space (R117), the
fill that a parked `ldfe` waits for begins (R42, R46), or a TLB or a walk cache drops an entry
(spec/02_address_spaces.md R26). -/
inductive Move where
  | issue (w sp : Nat)
  | event (e : Instr)
  | tick (n : Nat)
  | drop (c : Cache) (line : Nat)
  | fill (set pg : Nat)
  | forget (entry : Nat)
  | forgetWalk (entry : Nat)
  | ahead (w sp : Nat)
  deriving DecidableEq, Repr

/-- What has gone to a peer's link and has not been acknowledged (spec/24_host_and_fabric.md R369): a posted write of a wave, or an
addition of one of its engine operations; a write of a copy; or the request of a split. -/
inductive Sender where
  | write (w : Nat)
  | copy (i : Nat)
  | request (w sp : Nat)
  deriving DecidableEq, Repr

/-- An entry of the order in which writes and requests were sent (R369). -/
structure Sent where
  peer : Nat
  who : Sender
  deriving DecidableEq, Repr

/-- The registers of the device (spec/24_host_and_fabric.md R365 to R370, spec/25_service.md R374). `coolSince` is the cycle since
which POWER and TEMP have been low enough for PALARM to clear (R381). -/
structure Regs where
  xinva : W64 := 0
  xinvq : List Xinv := []
  xinvSeq : BitVec 32 := 0
  xinvErr : Bool := false
  xinvOvf : Bool := false
  ctxt : W64 := 0
  bypass : BitVec 4 := 4
  swapk : BitVec 5 := 14
  trva : W64 := 0
  trSeq : BitVec 32 := 0
  trErr : Bool := false
  devnum : BitVec 10 := 0
  stage : BitVec 4 := 0
  fwver : BitVec 32 := 0
  haltc : BitVec 16 := 0
  dies : BitVec 2 := 3
  part : Bool := false
  partDie : BitVec 1 := 0
  palarm : Bool := false
  plimit : BitVec 16 := 2400
  power : BitVec 16 := 0
  temp : BitVec 16 := 0
  trans : BitVec 32 := 0
  lasting : BitVec 16 := 0
  ringlost : BitVec 16 := 0
  jprod : BitVec 32 := 0
  mbTag : BitVec 32 := 0
  mbResult : BitVec 16 := 0
  mbOvr : Bool := false
  mbDone : Bool := false
  mbBusy : Option MailCmd := none
  mbLen : BitVec 16 := 0
  mbData : Sparse Byte := []
  pstate : Sparse (BitVec 4) := []
  pdown : Sparse Bool := []
  pdownAt : Sparse Nat := []
  routes : Sparse (Option Nat) := []
  retrainStart : Sparse Nat := []
  coolSince : Option Nat := none
  deriving DecidableEq, Repr

/-- Everything of the machine but memory. `image` is the firmware image stored since manufacture, if `stored`, and
`imageCut` says that its write was cut short (R377); `cores` holds the 192 enabled cores, eight of each physical cluster,
and after them each cluster's spare, `spared` for each cluster one more than the place that its spare has taken (R33, R379); `lastingAt` counts the lasting faults of each structure (R379). `wlog` holds the stores of the step in progress, newest first;
they are performed on memory at the step's end, for a step is indivisible (spec/95). `sent` is what peers have not acknowledged,
oldest first (R369); `leaving` the die that is going offline, and `hotPlugs` how many hot-plug interrupts the host has received
(R380). -/
structure Dev where
  cur : Nat × Nat := (0, 0)
  agenda : List Move := []
  cycle : Nat := 0
  tick : Nat := 0
  seq : Nat := 0
  wlog : List Host.Cell := []
  regs : Regs := {}
  waves : List Wave := []
  sets : List StageSet := []
  clusters : List Cluster := []
  launches : List Launch := []
  ctxs : Sparse Ctx := []
  cores : List Core := List.replicate 216 {}
  spared : Sparse Nat := []
  copies : List Copy := []
  matops : List MatOp := []
  signals : List EngSignal := []
  lines : Sparse Line := []
  poison : List Nat := []
  caches : List (Cache × Lease) := []
  tlb : List Tlb := []
  walks : List WalkEntry := []
  episodes : List Episode := []
  queues : List (List Entry) := List.replicate 24 []
  pool : List (Nat × Nat) := []
  window : Sparse Byte := []
  slotSeq : Sparse W64 := []
  journal : List Journal := []
  xstamp : Nat := 0
  maxWts : Nat := 0
  image : List Byte := []
  stored : Bool := false
  imageCut : Bool := false
  lastingAt : Sparse Nat := []
  reliability : List RelRecord := []
  hostResp : List Byte := []
  hostPoison : Bool := false
  shadow : List Nat := []
  sent : List Sent := []
  leaving : Option Nat := none
  hotPlugs : Nat := 0
  deriving DecidableEq, Repr

/-- The state of the machine. -/
structure State where
  mem : Memory
  dev : Dev
  deriving DecidableEq, Repr

/-- The machine right after reset: every field at the value the manual gives (INVENTORY.md), bring-up at
stage 0 (spec/25_service.md R372), no launch accepted. -/
def State.reset : State := { mem := [], dev := {} }

/-- Why a step stops with a fault. Raised by `step` alone, never by the meaning of an instruction; safe. -/
inductive Fault where
  /-- The agenda names a wave or a split that does not exist. Raised by `step`; safe: the hardware has no
  such agent, so nothing it does is denied. -/
  | noSuchSplit
  deriving DecidableEq, Repr

/-- Why a step is refused. -/
inductive Refusal where
  /-- The instruction has no meaning in this model yet. Raised by `exec`'s refused arms alone; safe. -/
  | notModelled (mnemonic : String)
  deriving DecidableEq, Repr

/-- The outcome of a step. -/
abbrev Out := Host.Outcome State Fault Refusal

end Sys2Proof.Machine
end

