-- ==== Sys2Proof/Machine/Sparse.lean ====
section
/-!
DEFINITION. Tables in canonical form: reading, writing, and the form itself. Memory, register files and
the home slices' line tables are such tables; equal tables are equal lists.
-/
namespace Sys2Proof.Machine

/-- The value at a key; an unlisted key reads as `d`. -/
def look {α : Type} (d : α) : Sparse α → Nat → α
  | [], _ => d
  | (k, v) :: r, x => if k = x then v else look d r x

/-- Write a value at a key, keeping the keys rising and dropping every entry of the key when the value is `d`. -/
def put {α : Type} [DecidableEq α] (d : α) : Sparse α → Nat → α → Sparse α
  | [], x, v => if v = d then [] else [(x, v)]
  | (k, u) :: r, x, v =>
    if x < k then (if v = d then (k, u) :: put d r x v else (x, v) :: (k, u) :: r)
    else if x = k then (if v = d then put d r x v else (x, v) :: r)
    else (k, u) :: put d r x v

/-- Keys strictly rising from `lo`, no entry equal to `d`. -/
def canonFrom {α : Type} [DecidableEq α] (d : α) : Nat → Sparse α → Bool
  | _, [] => true
  | lo, (k, v) :: r => decide (lo ≤ k) && decide (v ≠ d) && canonFrom d (k + 1) r

/-- The canonical form. -/
def canon {α : Type} [DecidableEq α] (d : α) (t : Sparse α) : Bool := canonFrom d 0 t

/-- What a byte of memory that nothing has written reads as: MEMINIT scrubs device memory to zero
(spec/25_service.md R372 stage 3); host memory by choice (DESIGN CHOICE, log 4). -/
def blankByte : Byte := 0

/-- The canonical form of memory. -/
def memWf (m : Memory) : Bool := canon blankByte m

/-- The row that holds `f l` in each lane of a mask, and 0 elsewhere (R219). -/
def rowOf (mask : W32) (f : Nat → W64) : Row :=
  (List.range 32).foldl (fun r l => if mask.getLsbD l then put 0 r l (f l) else r) []

/-- One lane of a row. -/
def lane (r : Row) (l : Nat) : W64 := look 0 r l

/-- The lanes of a mask, ascending. -/
def lanesOf (mask : W32) : List Nat := (List.range 32).filter mask.getLsbD

/-- The lowest lane of a mask. -/
def lowLane (mask : W32) : Option Nat := (lanesOf mask).head?

/-- The mask of a list of lanes. -/
def maskOf (ls : List Nat) : W32 := ls.foldl (fun m l => m ||| (1#32 <<< l)) 0

end Sys2Proof.Machine
end

