-- ==== Sys2Proof/Machine/Base.lean ====
section
/-!
DEFINITION. The form of a meaning, and access to the parts of the device. A meaning is an `Act`: it reads
memory, changes the device, and may raise a trap, which discards every change it made (spec/12_traps_preemption.md
R196: the trapping instruction has changed nothing). Its stores go to `wlog`.
-/
namespace Sys2Proof.Machine

/-- An action of the machine: reads memory, changes the device, may raise a precise trap (R196). -/
abbrev Act (α : Type) := ReaderT Memory (StateT Dev (Except Trap)) α

/-- How an instruction's issue ends: it retires to the next word, it stays (parked, or waiting) and issues again,
or it has itself retired and moved or ended its split. -/
inductive Verdict where
  | retire
  | stay
  | moved
  deriving DecidableEq, Repr

/-- Run an action. -/
def runAct {α : Type} (x : Act α) (m : Memory) (d : Dev) : Except Trap (α × Dev) := x m d

/-- Cause codes (R199). -/
def cILLOP : BitVec 8 := 0x01
def cALIGN : BitVec 8 := 0x02
def cBADTARGET : BitVec 8 := 0x03
def cBOUNDS : BitVec 8 := 0x04
def cSPACE : BitVec 8 := 0x05
def cBADADDR : BitVec 8 := 0x06
def cXLATE : BitVec 8 := 0x07
def cBADPTE : BitVec 8 := 0x08
def cPERM : BitVec 8 := 0x09
def cQUEUEORDER : BitVec 8 := 0x0A
def cSPLITOVF : BitVec 8 := 0x0B
def cSTALLSHORT : BitVec 8 := 0x0C
def cBINDFULL : BitVec 8 := 0x0D
def cLOCKSELF : BitVec 8 := 0x0E
def cLOCKLIMIT : BitVec 8 := 0x0F
def cLOCKNOTHELD : BitVec 8 := 0x10
def cSPAWNDEPTH : BitVec 8 := 0x11
def cPOISON : BitVec 8 := 0x12
def cFORMAT : BitVec 8 := 0x13
def cPEERDOWN : BitVec 8 := 0x14
def cTRAP : BitVec 8 := 0x15
def cBRK : BitVec 8 := 0x16
def cCOPY : BitVec 8 := 0x17
def cLOCKHOLD : BitVec 8 := 0x18
def cUE : BitVec 8 := 0x20
def cLOCKWAIT : BitVec 8 := 0x21
def cLOCKBROKEN : BitVec 8 := 0x22
def cFENCEUNDELIVERED : BitVec 8 := 0x23
def cSTALEMC : BitVec 8 := 0x24
def cJOINUNDERFLOW : BitVec 8 := 0x25
def cFILLFAULT : BitVec 8 := 0x26
def cPHDROPPED : BitVec 8 := 0x27
def cSAVEFULL : BitVec 8 := 0x28
def cJOINFAULT : BitVec 8 := 0x29
def cDONECTRFAULT : BitVec 8 := 0x2A

/-- An element of a list, or a default where there is none. -/
def nth {α : Type} (l : List α) (n : Nat) (d : α) : α := (l[n]?).getD d

/-- Change an element of a list, if there is one. -/
def nthSet {α : Type} (l : List α) (n : Nat) (x : α) : List α := l.set n x

/-- Put an element before the first that it may precede. -/
def insertBy {α : Type} (le : α → α → Bool) (a : α) : List α → List α
  | [] => [a]
  | b :: r => if le a b then a :: b :: r else b :: insertBy le a r

/-- A list in order; equal elements keep their places. -/
def sortBy {α : Type} (le : α → α → Bool) (l : List α) : List α := l.foldr (insertBy le) []

/-- The split that does not exist: no lane. -/
def noSplit : Split := { mask := 0, entering := false }
/-- The wave that does not exist: no split. -/
def noWave : Wave := { splits := [], live := false }
/-- The stage set that does not exist. -/
def noSet : StageSet :=
  { launch := 0, ctx := 0, cluster := 0, jidx := 0, team := 0, vcore := 0, nstg := 1, wpt := 1, vblk := 0,
    pages := [], back := 0, pool := none, waves := [], live := false }
/-- The cluster that does not exist. -/
def noCluster : Cluster := { launch := 0, sets := [], lcl := 0, prio := 0, res := .ended }
/-- The launch that does not exist. -/
def noLaunch : Launch :=
  { slot := 0, seq := 0, ctx := 0, code := 0, args := [], donectr := 0, sealVa := 0, maps := 0, back := 0,
    hint := 0, foot := ⟨0, 0, 0, 0, 0⟩, wpt := 1, nstg := 1, tpc := 1, ncl := 0, prio := 0, clbase := 31,
    fo := false, cor := false, vstamp := 0, pending := 0, nextVidx := 0, ended := true }
/-- The line that nothing has touched (R116). -/
def noLine : Line := {}
/-- The slot that is empty (R319). -/
def noSlot : Slot := { raw := 0, va := 0 }

def waveOf (d : Dev) (w : Nat) : Wave := nth d.waves w noWave
def setWave (d : Dev) (w : Nat) (x : Wave) : Dev := { d with waves := nthSet d.waves w x }
def setOf (d : Dev) (t : Nat) : StageSet := nth d.sets t noSet
def setSet (d : Dev) (t : Nat) (x : StageSet) : Dev := { d with sets := nthSet d.sets t x }
def clusterOf (d : Dev) (c : Nat) : Cluster := nth d.clusters c noCluster
def setCluster (d : Dev) (c : Nat) (x : Cluster) : Dev := { d with clusters := nthSet d.clusters c x }
def launchOf (d : Dev) (l : Nat) : Launch := nth d.launches l noLaunch
def setLaunch (d : Dev) (l : Nat) (x : Launch) : Dev := { d with launches := nthSet d.launches l x }
def lineOf (d : Dev) (n : Nat) : Line := look noLine d.lines n
def setLine (d : Dev) (n : Nat) (x : Line) : Dev := { d with lines := put noLine d.lines n x }
def ctxOf (d : Dev) (c : Nat) : Ctx := look {} d.ctxs c
def setCtx (d : Dev) (c : Nat) (x : Ctx) : Dev := { d with ctxs := put {} d.ctxs c x }
def coreOf (d : Dev) (c : Nat) : Core := nth d.cores c {}
def setCore (d : Dev) (c : Nat) (x : Core) : Dev := { d with cores := nthSet d.cores c x }
def splitOf (w : Wave) (i : Nat) : Split := nth w.splits i noSplit
def setSplitOf (w : Wave) (i : Nat) (x : Split) : Wave := { w with splits := nthSet w.splits i x }

/-- The wave that issues. -/
def me (d : Dev) : Wave := waveOf d d.cur.1
/-- The split that issues. -/
def mySplit (d : Dev) : Split := splitOf (me d) d.cur.2
/-- The stage set of the wave that issues. -/
def mySet (d : Dev) : StageSet := setOf d (me d).set
def setMe (d : Dev) (x : Wave) : Dev := setWave d d.cur.1 x
def setMySplit (d : Dev) (x : Split) : Dev := setMe d (setSplitOf (me d) d.cur.2 x)
/-- Change a split of a wave. -/
def modSplit (d : Dev) (w sp : Nat) (f : Split → Split) : Dev :=
  let x := waveOf d w
  setWave d w (setSplitOf x sp (f (splitOf x sp)))

/-- The device as it stands. -/
def dev : Act Dev := get
/-- Change the device. -/
def upd (f : Dev → Dev) : Act Unit := modify f
/-- Raise a trap. -/
def trap {α : Type} (t : Trap) : Act α := throw t
/-- The word cannot issue yet: it waits in place, with nothing changed. It stands for this as a trap of cause 0, which R199 gives to
no trap. -/
def again {α : Type} : Act α := throw { cause := 0 }
/-- Raise a trap when a condition fails. -/
def need (c : Bool) (t : Trap) : Act Unit := if c then pure () else trap t

/-- The logical core of a wave (R31). -/
def vcoreOf (d : Dev) (w : Wave) : Nat := (setOf d w.set).vcore
/-- The logical cluster of a logical core (R31). -/
def lclOf (vcore : Nat) : Nat := vcore / 8
/-- The die that hosts a logical cluster (R33). -/
def dieOf (d : Dev) (lcl : Nat) : Nat :=
  if d.regs.dies = 3 then (if d.regs.part then d.regs.partDie.toNat else lcl / 12)
  else if d.regs.dies = 2 then 1 else 0
/-- The physical cluster that holds a logical cluster, as die and number (R33). -/
def physOf (d : Dev) (lcl : Nat) : Nat × Nat :=
  (dieOf d lcl, lcl % 12)
/-- The physical cluster of a physical core: eight enabled cores each, and after all of them the spares (R2, R33). -/
def coreCluster (core : Nat) : Nat := if core < 192 then core / 8 else core - 192
/-- The die of a physical core. -/
def coreDie (core : Nat) : Nat := coreCluster core / 12
/-- The physical number of a physical cluster, as die and number. -/
def clusterNo (p : Nat × Nat) : Nat := p.1 * 12 + p.2
/-- The logical home bank of an address (R32). -/
def bankOf (va : Nat) : Nat := (va % 2 ^ 57 / 64) % 96
/-- The die whose slices hold a logical bank (R33). -/
def bankDie (d : Dev) (bank : Nat) : Nat := if d.regs.dies = 3 ∧ !d.regs.part then bank / 48 else dieOf d 0

/-- A wave whose launch or lanes still run. -/
def waveLive (w : Wave) : Bool := w.live && !w.splits.isEmpty

/-- Whether the launch of a wave runs in fixed order (R157). -/
def foOf (d : Dev) (w : Nat) : Bool := (waveOf d w).fo

/-- The split ordinal: splits of a wave numbered by their lowest lane (R159). -/
def ordOf (w : Wave) (sp : Nat) : Nat :=
  let l := (lowLane (splitOf w sp).mask).getD 32
  (w.splits.filter (fun x => decide ((lowLane x.mask).getD 32 < l))).length

/-- The key of a split (R159). -/
def keyOf (w : Wave) (sp : Nat) : Key := ⟨(splitOf w sp).clock, w.vidx, ordOf w sp⟩

/-- Keys compare field by field, from the left (R159). -/
def keyLt (a b : Key) : Bool :=
  a.clock < b.clock || (a.clock == b.clock && (a.vidx < b.vidx || (a.vidx == b.vidx && a.ord < b.ord)))

/-- A write or a request goes to a peer's link, behind those that have gone before it (R369). -/
def sendTo (d : Dev) (peer : Nat) (who : Sender) : Dev := { d with sent := d.sent ++ [⟨peer, who⟩] }

/-- A number as a word. -/
def w64 (n : Nat) : W64 := BitVec.ofNat 64 n

end Sys2Proof.Machine
end

