-- ==== Sys2Proof/Machine/Mem.lean ====
section
/-!
DEFINITION. Bytes of memory, little-endian words (spec/00_scope.md R8), and translation
(spec/02_address_spaces.md R20 to R25).
-/
namespace Sys2Proof.Machine

/-- The key of the first byte of host memory; below it stand device physical addresses (R22). -/
def hostKey : Nat := 2 ^ 56

/-- A byte as it stands after the stores made so far in this step. -/
def rdByte (m : Memory) (d : Dev) (k : Nat) : Byte :=
  match d.wlog.find? (fun c => c.1 == k) with
  | some c => c.2
  | none => look blankByte m k

/-- `n` bytes from a key up. -/
def rdBytes (m : Memory) (d : Dev) (k n : Nat) : List Byte := (List.range n).map (fun i => rdByte m d (k + i))

/-- Store bytes from a key up. -/
def wrBytes (d : Dev) (k : Nat) (bs : List Byte) : Dev :=
  { d with wlog := (bs.foldl (fun (p : Nat × List Host.Cell) b => (p.1 + 1, (p.1, b) :: p.2)) (k, d.wlog)).2 }

/-- The stores of a step performed on memory, oldest first. -/
def commit (m : Memory) (log : List Host.Cell) : Memory := log.foldr (fun c m => put blankByte m c.1 c.2) m

/-- A 64-bit word at a key (R8). -/
def rd64 (m : Memory) (d : Dev) (k : Nat) : W64 := leWord (rdBytes m d k 8)
def wr64 (d : Dev) (k : Nat) (x : W64) : Dev := wrBytes d k (leBytes 8 x)

/-- The number that bytes spell, little-endian. -/
def leNat : List Byte → Nat
  | [] => 0
  | b :: r => b.toNat + 256 * leNat r

/-- The low `n` bytes of a number. -/
def natBytes : Nat → Nat → List Byte
  | 0, _ => []
  | n + 1, x => BitVec.ofNat 8 x :: natBytes n (x / 256)

/-- `n` bytes at a key, as an action. -/
def readKey (k n : Nat) : Act (List Byte) := fun m d => .ok (rdBytes m d k n, d)

/-- The leaf that translates an address: target, physical address, page base and size, its word with A, and D on a write
access, set (R25), and the physical address of its entry. -/
structure Leaf where
  tgt : Nat
  pa : Nat
  base : Nat
  size : Nat
  word : W64
  entry : Nat
  deriving DecidableEq, Repr

/-- The peer that a leaf names (R22). -/
def Leaf.peer (l : Leaf) : Nat := bits l.word 55 46

/-- The bytes that an entry of a level maps: 4 KiB, 2 MiB, 1 GiB and so on (R21). -/
def natural (lvl : Nat) : Nat := 2 ^ (12 + 9 * lvl)

/-- The sizes that a level admits, as the entries of a group: `none` where SZ is not allowed (R23). -/
def groupOf (lvl sz : Nat) : Option Nat :=
  match lvl, sz with
  | 0, 0 => some 1 | 0, 1 => some 4 | 0, 2 => some 16 | 0, 3 => some 64
  | 1, 4 => some 1 | 1, 5 => some 16
  | 2, 6 => some 1 | 2, 7 => some 16
  | _, _ => none

/-- The must-be-zero bits and CA of an entry (R22, R23). -/
def entryOk (e : W64) : Bool :=
  bits e 63 61 == 0 && bits e 11 10 == 0 && bits e 2 2 == 0 && bits e 7 6 ≠ 3

/-- Whether a leaf's word permits an access (R24); TGT 3 only in context 0 (R366). -/
def permits (e : W64) (ctx : Nat) (acc : Access) : Bool :=
  (bits e 57 56 ≠ 3 || ctx == 0) &&
  match acc with
  | .read => bits e 3 3 == 1
  | .write => bits e 4 4 == 1
  | .readWrite => bits e 3 3 == 1 && bits e 4 4 == 1
  | .fetch => bits e 5 5 == 1

/-- Whether an access sets D (R25). One that asks for R and W counts as a write whether or not it comes to write (DESIGN CHOICE,
log 35). -/
def dirties : Access → Bool
  | .write | .readWrite => true
  | .read | .fetch => false

/-- A translation trap: the address, and the region in INFO0 and INFO1 (R199). -/
def xtrap (cause : BitVec 8) (va base size : Nat) : Trap :=
  { cause := cause, addr := w64 va, info0 := w64 base, info1 := w64 size }

/-- Whether the entries of a leaf's group agree (R23): all valid leaves with equal SZ, TGT, CA, X, W, R,
consecutive PFNs, and a base aligned to the page. A member with V = 0 beside the one that the walk meets is taken as a
violated condition, BADPTE; R23 does not name V, and R25 speaks of a level (DESIGN CHOICE, log 55). -/
def groupOk (m : Memory) (d : Dev) (table start g lvl : Nat) : Bool :=
  let e0 := rd64 m d (table + 8 * start)
  let base := (bits e0 55 12) * 4096
  decide (base % (g * natural lvl) = 0) &&
  (List.range g).all fun j =>
    let e := rd64 m d (table + 8 * (start + j))
    entryOk e && bits e 1 0 == 3 && bits e 60 56 == bits e0 60 56 && bits e 7 3 == bits e0 7 3 &&
      (bits e 55 12) * 4096 == base + j * natural lvl

/-- The bytes of the page that a leaf of a level maps, by its SZ where the level admits it (R23). -/
def leafSize (lvl : Nat) (e : W64) : Nat :=
  if bits e 1 1 = 1 then (groupOf lvl (bits e 60 58)).elim (natural lvl) (· * natural lvl) else natural lvl

/-- The walk from a table of a level down (R21 to R25). Every table is read in device memory: the manual gives TGT for every
entry and does not say that it places a table (DESIGN CHOICE, log 55). -/
def walkFrom (ctx va : Nat) (acc : Access) : Nat → Nat → Act Leaf
  | lvl, table => fun m d =>
    let idx := va / natural lvl % 512
    let nat := natural lvl
    let e := rd64 m d (table + 8 * idx)
    let page := leafSize lvl e
    if bits e 0 0 = 0 then .error (xtrap cXLATE va (va / nat * nat) nat)
    else if !entryOk e then .error (xtrap cBADPTE va (va / page * page) page)
    else if bits e 1 1 = 0 then
      match lvl with
      | 0 => .error (xtrap cBADPTE va (va / nat * nat) nat)
      | l + 1 =>
        if bits e 60 58 ≠ 0 then .error (xtrap cBADPTE va (va / nat * nat) nat)
        else walkFrom ctx va acc l ((bits e 55 12) * 4096) m d
    else
      match groupOf lvl (bits e 60 58) with
      | none => .error (xtrap cBADPTE va (va / nat * nat) nat)
      | some g =>
        let size := g * nat
        let start := idx - idx % g
        if !groupOk m d table start g lvl then .error (xtrap cBADPTE va (va / size * size) size)
        else if !permits e ctx acc then .error (xtrap cPERM va (va / size * size) size)
        else
          let e' := e ||| 0x100#64 ||| (if dirties acc then 0x200#64 else 0)
          let base := (bits e 55 12) * 4096 - (idx % g) * nat
          .ok ({ tgt := bits e 57 56, pa := base + va % size, base := va / size * size, size := size, word := e',
                 entry := table + 8 * idx }, d)

/-- The table entries on the way from a table of a level to the leaf of an address: level and next table. -/
def walkPath (m : Memory) (d : Dev) (va : Nat) : Nat → Nat → List (Nat × Nat)
  | 0, _ => []
  | l + 1, table =>
    let e := rd64 m d (table + 8 * (va / natural (l + 1) % 512))
    if bits e 0 0 = 1 ∧ bits e 1 1 = 0 then (l + 1, (bits e 55 12) * 4096) :: walkPath m d va l ((bits e 55 12) * 4096)
    else []

/-- The address of a context's descriptor (spec/11_launch_scheduling.md R186). -/
def ctxDesc (d : Dev) (ctx : Nat) : Nat := (bits d.regs.ctxt 55 12) * 4096 + 64 * ctx

/-- Whether a context's descriptor is valid: V set and every must-be-zero bit zero (R186). -/
def ctxValid (m : Memory) (d : Dev) (ctx : Nat) : Bool :=
  let w0 := rd64 m d (ctxDesc d ctx)
  let w1 := rd64 m d (ctxDesc d ctx + 8)
  bits w0 0 0 == 1 && bits w0 11 1 == 0 && bits w0 63 56 == 0 && w1 == 0 &&
    (List.range 4).all (fun i => rd64 m d (ctxDesc d ctx + 32 + 8 * i) == 0)

/-- The root table, ring VA and save area of a context (R186). -/
def ctxRoot (m : Memory) (d : Dev) (ctx : Nat) : Nat := (bits (rd64 m d (ctxDesc d ctx)) 55 12) * 4096
def ctxRing (m : Memory) (d : Dev) (ctx : Nat) : Nat := (rd64 m d (ctxDesc d ctx + 16)).toNat
def ctxSave (m : Memory) (d : Dev) (ctx : Nat) : Nat := (rd64 m d (ctxDesc d ctx + 24)).toNat

/-- The bytes of a page by its size code (R22). -/
def pageBytes (sz : Nat) : Nat :=
  match sz with
  | 0 => 2 ^ 12 | 1 => 2 ^ 14 | 2 => 2 ^ 16 | 3 => 2 ^ 18 | 4 => 2 ^ 21 | 5 => 2 ^ 25 | 6 => 2 ^ 30 | _ => 2 ^ 34

/-- The entries of a die's walk cache (R26). -/
def walkCacheSize : Nat := 512

/-- The open fault episode of a die that an address of a context falls in (R28). -/
def episodeAt (d : Dev) (die ctx va : Nat) : Option Episode :=
  d.episodes.find? fun e => e.die == die && e.ctx == ctx && decide (e.base ≤ va) && decide (va < e.base + e.size)

/-- A translation that may fail, keeping the device's changes when it succeeds. -/
def tryAct {α : Type} (x : Act α) : Act (Except Trap α) := fun m d =>
  match x m d with
  | .ok (a, d') => .ok (.ok a, d')
  | .error t => .ok (.error t, d)

/-- The effective address of format M (R215). -/
def effAddr (base : W64) (off : BitVec 16) : Nat := (base + off.signExtend 64).toNat

end Sys2Proof.Machine
end

