-- ==== Sys2Proof/Machine/Home.lean ====
section
/-!
DEFINITION. The home slices: stamps and leases (spec/07_model_far.md R116 to R120), grants of a cluster unit
(R114), wakes of what waits at a line (R129, spec/15_isa_memory.md R284, R286), releases and acquires (R99, R118).
-/
namespace Sys2Proof.Machine

/-- The agent of a memory operation: its wave, if it is one, and the clock of its key (R162). -/
structure Who where
  wave : Option Nat
  clock : Nat
  deriving DecidableEq, Repr

/-- The wave that issues, as an agent. -/
def whoMe (d : Dev) : Who := ⟨some d.cur.1, (mySplit d).clock⟩
/-- An agent that has no key in a launch: an engine, the host or a peer (R116). What it wakes takes 0 as the clock of the event, which
R162 does not give (DESIGN CHOICE, log 74). -/
def whoEngine : Who := ⟨none, 0⟩

/-- The line of a key. -/
def lineNo (k : Nat) : Nat := k / 64
def modLine (d : Dev) (n : Nat) (f : Line → Line) : Dev := setLine d n (f (lineOf d n))
/-- The host's copy of a line is back-invalidated (R121, R363). -/
def forgetHost (d : Dev) (n : Nat) : Dev := modLine d n (fun l => { l with hostCopy := false })
/-- Die 0's L2 takes the host line of a key, for an agent of the device (R121). -/
def takeHost (d : Dev) (k : Nat) : Dev := modLine d (lineNo k) (fun l => { l with inL2 := true })

/-- The VSTAMP of an agent; 0 for one that is not a wave (R116). -/
def vstOf (d : Dev) (w : Option Nat) : Nat :=
  match w with
  | some w => (waveOf d w).vstamp
  | none => 0

/-- The cluster of a wave. -/
def clusterIdx (d : Dev) (w : Nat) : Nat := (setOf d (waveOf d w).set).cluster

/-- The physical number of a logical core (R33): an enabled core of its cluster, or the spare that has taken its place. -/
def pcore (d : Dev) (vcore : Nat) : Nat :=
  let c := clusterNo (physOf d (lclOf vcore))
  if look 0 d.spared c = vcore % 8 + 1 then 192 + c else c * 8 + vcore % 8

/-- Change a wave's VSTAMP to at least a value. -/
def raiseV (d : Dev) (w v : Nat) : Dev :=
  let x := waveOf d w
  setWave d w { x with vstamp := max x.vstamp v }

/-- A split's clock moves to `c` (R158): each multiple of 4,096 passed is one step to come (R119), and reaching
PREEMPT_AT marks the wave (R205). -/
def moveClock (d : Dev) (w sp c : Nat) : Dev :=
  let x := waveOf d w
  let s := splitOf x sp
  let hit := decide (x.preemptAt ≠ 0) && decide (x.preemptAt.toNat ≤ c)
  setWave d w { setSplitOf x sp { s with clock := c } with
    epochDue := x.epochDue + (c / 4096 - s.clock / 4096), preemptHit := x.preemptHit || hit }

/-- A split enters the min-tree of a launch: its minimum is to be refreshed before a split performs by it, for the
refreshed value never exceeds the true one (R161, R162). -/
def reKey (d : Dev) (l : Nat) : Dev := setLaunch d l { launchOf d l with minKey := none }

/-- The clock of a split that an event of clock `e` wakes: in FO mode max(own, E + 1), entered in the min-tree (R162). -/
def wakeClock (d : Dev) (w sp e : Nat) : Dev :=
  if (waveOf d w).fo then
    reKey (moveClock d w sp (max (splitOf (waveOf d w) sp).clock (e + 1))) (waveOf d w).launch
  else d

/-- Wake a parked split with an answer (R162). -/
def wake (d : Dev) (w sp : Nat) (ans : Row) (e : Nat) : Dev :=
  wakeClock (modSplit d w sp (fun s => { s with park := .running, ans := some ans })) w sp e

/-- A split that was parked issues its instruction again; in FO mode it enters the min-tree at its own clock (R161,
R197). -/
def unpark (d : Dev) (w sp : Nat) : Dev :=
  let d1 := modSplit d w sp (fun s => { s with park := .running })
  if (waveOf d w).fo then reKey d1 (waveOf d w).launch else d1

/-- Every split of the device as (wave, split) pairs. -/
def allSplits (d : Dev) : List (Nat × Nat) :=
  d.waves.zipIdx.flatMap (fun p => (List.range p.1.splits.length).map (fun i => (p.2, i)))

/-- A write performed at the home sets WTS = RTS = max(RTS + 1, VSTAMP + 1) (R116). -/
def stampLine (d : Dev) (n vst : Nat) : Dev × Nat :=
  let l := lineOf d n
  let t := max (l.rts + 1) (vst + 1)
  ({ setLine d n { l with wts := t, rts := t, hostCopy := false } with maxWts := max d.maxWts t }, t)

/-- Clear every reservation on a line (R128). -/
def clearReservations (d : Dev) (n : Nat) : Dev :=
  { d with waves := d.waves.map (fun w => if w.reservation = some n then { w with reservation := none } else w) }

/-! ### Watches (R129, spec/15_isa_memory.md R280, R284, R286). -/

/-- Whether a split is parked in `mwait`. -/
def inMwait (s : Split) : Bool :=
  match s.park with
  | .mwait _ => true
  | _ => false

/-- Whether a split waits under an entry of the watch table of a bank's slice (R284, R286). -/
def watchEntry (bank : Nat) (s : Split) : Bool :=
  match s.park with
  | .cwait _ _ _ _ b .entry | .phwait _ _ b .entry => b == bank
  | _ => false

/-- The watch entries that are taken in a logical bank: armed monitors, and waiters of phasers and counters (R129). -/
def bankWatches (d : Dev) (bank : Nat) : Nat :=
  d.waves.foldl (fun n x =>
    n + (if x.monitor.any (fun mo => mo.bank == bank && !mo.polling) then 1 else 0) +
      (x.splits.filter (watchEntry bank)).length) 0

/-- The form of a new watch: an entry of the bank's slice, or polling when all 8,192 are taken (R129). -/
def newWatch (d : Dev) (bank : Nat) : Watch := if bankWatches d bank < 8192 then .entry else .polled

/-- The event of a parked waiter has come: one with a watch entry wakes; a polled one enters the min-tree and is told at
its next comparison (R129, R162). -/
def notify (d : Dev) (w sp : Nat) (watch : Watch) (ans : Row) (e : Nat) : Dev :=
  match watch with
  | .entry => wake d w sp ans e
  | .due _ _ => d
  | .polled =>
    wakeClock (modSplit d w sp (fun s => { s with park := match s.park with
      | .cwait a t sc dl b _ => .cwait a t sc dl b (.due ans e)
      | .phwait n k b _ => .phwait n k b (.due ans e)
      | p => p })) w sp e

/-- A wave that a write has woken takes the WTS of its line; a host line has none (R121, R129). -/
def viewWrite (d : Dev) (w n : Nat) : Dev := if n < hostKey / 64 then raiseV d w (lineOf d n).wts else d

/-- The places of the splits of a wave that are parked in `mwait`. -/
def mwaiting (x : Wave) : List Nat := (List.range x.splits.length).filter (fun i => inMwait (splitOf x i))

/-- A write has reached the line that a wave watches: its splits parked in `mwait` wake, and the monitor is disarmed. With
none parked the monitor stays armed (R280). -/
def tellMonitor (d : Dev) (w n e : Nat) : Dev :=
  match mwaiting (waveOf d w) with
  | [] => d
  | ws =>
    let d1 := viewWrite (setWave d w { waveOf d w with monitor := none }) w n
    ws.foldl (fun d i => wake d w i [] e) d1

/-- Tell the waves that watch a line whose WTS has changed (R129, R280). A polled watch keeps the clock of the write, and
its parked splits enter the min-tree at once (R162). -/
def wakeMonitors (d : Dev) (n e : Nat) : Dev :=
  (List.range d.waves.length).foldl (fun d w =>
    let x := waveOf d w
    match x.monitor with
    | some mo =>
      if mo.line ≠ n ∨ (lineOf d n).wts = mo.wts then d
      else if !mo.polling then tellMonitor d w n e
      else if mo.due.isSome || (mwaiting x).isEmpty then d
      else (mwaiting x).foldl (fun d i => wakeClock d w i e)
        (setWave d w { x with monitor := some { mo with due := some e } })
    | none => d) d

/-! ### Grants (R114). -/

/-- Drop copies of a line from caches. -/
def dropCopies (d : Dev) (n : Nat) (c : Cache → Bool) : Dev :=
  { d with caches := d.caches.filter (fun p => !(p.2.line == n && c p.1)) }

/-- Return a granted line to its home: one write stamp, with the VSTAMP of the waves that wrote under the grant
(R114, R116). -/
def recallLine (d : Dev) (n : Nat) : Dev :=
  match (lineOf d n).grant with
  | none => d
  | some g =>
    let vst := g.writers.foldl (fun v w => max v (waveOf d w).vstamp) 0
    let d1 := modLine d n (fun l => { l with grant := none })
    let (d2, t) := stampLine d1 n vst
    wakeMonitors (clearReservations (g.writers.foldl (fun d w => raiseV d w t) d2) n) n g.clock

/-- Recall when an access comes from outside the owning cluster (R114); `c` is the cluster of the agent. -/
def recallFrom (d : Dev) (n : Nat) (c : Option Nat) : Dev :=
  match (lineOf d n).grant with
  | none => d
  | some g => if c = some g.cluster then d else recallLine d n

/-- Whether a cluster holds a line under a grant. -/
def granted (d : Dev) (n c : Nat) : Bool := (lineOf d n).grant.any (fun g => g.cluster == c)

/-- Grant a line to a cluster's unit (R114). The host's copy is back-invalidated (R121), and the copies that could serve
the cluster beside its unit are dropped, as a cache may drop any (R117), so that its reads stay in write order (R100). -/
def grantLine (d : Dev) (n c : Nat) : Dev :=
  if granted d n c then d
  else
    let d1 := recallLine d n
    let home := physOf d (clusterOf d c).lcl
    let d2 := modLine d1 n (fun l => { l with grant := some { cluster := c }, hostCopy := false })
    dropCopies d2 n (fun q => match q with
      | .l1 core => coreCluster core == clusterNo home
      | .l2 die => die == home.1
      | .konst _ => false)

/-- The word index of a key in its line. -/
def wordIdx (k : Nat) : Nat := k % 64 / 8

/-- Whether a count carries additions that an acquire of a scope synchronises with (R152, R286): the device's, and
for `.sys` a peer's too. -/
def countsAdded (l : Line) (i : Nat) (sc : Scope) : Bool :=
  l.added.getLsbD i || (sc == .sys && l.addedSys.getLsbD i)

/-- Replace some bytes of a copy of a line. -/
def patch (data : List Byte) (off : Nat) (bs : List Byte) : List Byte :=
  data.take off ++ bs ++ data.drop (off + bs.length)

/-- The writing wave's own write updates its entry of the FO lease set (R120): the bytes written, and no others, so that
what the set answers does not depend on writes that race it. -/
def patchLease (d : Dev) (w k : Nat) (bs : List Byte) : Dev :=
  let x := waveOf d w
  setWave d w { x with leaseSet := x.leaseSet.map (fun c =>
    if c.line = lineNo k then { c with data := patch c.data (k % 64) bs } else c) }

/-- Outside FO mode a wave that has read a line at its home keeps no copy of it in its core's L1 and its die's L2, which might be older:
its reads of a byte do not go backward (R100). -/
def dropOwn (d : Dev) (w n : Nat) : Dev :=
  let vcore := vcoreOf d (waveOf d w)
  if (waveOf d w).fo then d
  else dropCopies d n (fun q => q == .l1 (pcore d vcore) || q == .l2 (dieOf d (lclOf vcore)))

/-- A wave has read some bytes at their home (R100): in FO mode its lease-set entry takes them as they were read (DEDUCED, log 53). -/
def sawHome (m : Memory) (d : Dev) (w k n : Nat) : Dev :=
  if (waveOf d w).fo then patchLease d w k (rdBytes m d k n) else dropOwn d w (lineNo k)

/-- The acquire of a `cwait` or `cread` (R153): VSTAMP rises to CTS, and in FO mode the lease set is emptied. -/
def counterAcquire (d : Dev) (w k : Nat) (sc : Scope) : Dev :=
  let l := lineOf d (lineNo k)
  if countsAdded l (wordIdx k) sc then
    let x := waveOf d w
    setWave d w { x with vstamp := max x.vstamp l.cts, leaseSet := if x.fo then [] else x.leaseSet }
  else d

/-- Tell each `cwait` on a word whose target its value reaches (R152, R286). -/
def wakeCwaits (m : Memory) (d : Dev) (k e : Nat) : Dev :=
  (allSplits d).foldl (fun d p =>
    match (splitOf (waveOf d p.1) p.2).park with
    | .cwait _ _ _ _ _ (.due _ _) => d
    | .cwait a tgt sc _ _ watch =>
      let v := rd64 m d k
      if a = k ∧ tgt ≤ v then notify (counterAcquire (sawHome m d p.1 k 8) p.1 k sc) p.1 p.2 watch [(0, v)] e else d
    | _ => d) d

/-- The 8-byte words of a line that a write of `n` bytes at `k` touches, as keys. -/
def wordsOf (k n : Nat) : List Nat := (List.range (n + 7)).filterMap (fun i =>
  if i % 8 = 0 ∧ (k / 8 * 8 + i) < k + n then some (k / 8 * 8 + i) else none)

/-! ### Copies of lines (R117, R120). -/

/-- A write of a wave at the home, with stamp `t`, updates the copy in its core's L1 to the new version with that lease
end (R117). Its die's L2 copy, which could serve the wave an older version later, is dropped (R100). -/
def ownCopies (m : Memory) (d : Dev) (w k t : Nat) (bs : List Byte) : Dev :=
  let n := lineNo k
  let vcore := vcoreOf d (waveOf d w)
  let core := pcore d vcore
  let d1 := dropCopies (patchLease d w k bs) n (· == .l2 (dieOf d (lclOf vcore)))
  let line := rdBytes m d1 (n * 64) 64
  { d1 with caches := d1.caches.map (fun p =>
      if p.1 = .l1 core ∧ p.2.line = n then (p.1, { p.2 with leaseEnd := t, data := line }) else p) }

/-- A write has been performed at the home: its stamp, the writer's view and copies, reservations and watches (R116,
R117, R128, R129). -/
def stampWrite (m : Memory) (d : Dev) (who : Who) (k : Nat) (bs : List Byte) : Dev :=
  let n := lineNo k
  let (a, t) := stampLine d n (vstOf d who.wave)
  let b := match who.wave with
    | some w => ownCopies m (raiseV a w t) w k t bs
    | none => a
  wakeMonitors (clearReservations b n) n who.clock

/-- Whether a wave watches a line. -/
def watched (d : Dev) (n : Nat) : Bool := d.waves.any (fun x => x.monitor.any (fun mo => mo.line == n))

/-- A write under a grant: the writer is remembered for the stamp of the recall, and its lease-set entry is updated
(R114, R120). A watched line returns to its home at once, where the watch sees the write (R129). -/
def grantWrite (d : Dev) (who : Who) (k : Nat) (bs : List Byte) (g : Grant) : Dev :=
  let n := lineNo k
  let g1 : Grant := { g with clock := max g.clock who.clock, writers := match who.wave with
    | some w => if g.writers.contains w then g.writers else w :: g.writers
    | none => g.writers }
  let d1 := modLine (clearReservations d n) n (fun l => { l with grant := some g1 })
  let d2 := match who.wave with
    | some w => patchLease d1 w k bs
    | none => d1
  if watched d2 n then recallLine d2 n else d2

/-- An ordinary write of bytes of one line of device memory, performed at its home, or under the grant that the cluster of
the writing wave holds (R114 to R117, R128, R129, R152). An engine's write performs at the home (R151). -/
def homeWrite (m : Memory) (d : Dev) (who : Who) (k : Nat) (bs : List Byte) : Dev :=
  let n := lineNo k
  let d1 := wrBytes (recallFrom d n (who.wave.map (clusterIdx d))) k bs
  let ws := wordsOf k bs.length
  let d2 := modLine d1 n (fun l => { l with
    added := ws.foldl (fun a w => a &&& ~~~(1#8 <<< wordIdx w)) l.added,
    addedSys := ws.foldl (fun a w => a &&& ~~~(1#8 <<< wordIdx w)) l.addedSys })
  let d3 := match (lineOf d2 n).grant with
    | some g => grantWrite d2 who k bs g
    | none => stampWrite m d2 who k bs
  ws.foldl (fun d w => wakeCwaits m d w who.clock) d3

/-- The write of a seal or lock mirror: the line takes a stamp and its watchers are told, its words are not counted
as ordinary writes of counters (R116, R128, R129, R137). -/
def sealWrite (m : Memory) (d : Dev) (who : Who) (k : Nat) (bs : List Byte) : Dev :=
  stampWrite m (wrBytes (recallLine d (lineNo k)) k bs) who k bs

/-! ### Releases and acquires (R99, R100, R118). -/

/-- Whether a scope of one agent includes another wave (R98); the host and peers lie in `.sys` alone. -/
def scopeIncludes (d : Dev) (sc : Scope) (a b : Option Nat) : Bool :=
  match a, b with
  | some a, some b =>
    match sc with
    | .team => (waveOf d a).set == (waveOf d b).set
    | .clu => clusterIdx d a == clusterIdx d b
    | .dev | .sys => true
  | _, _ => sc == .sys

/-- The releases on a line with which an acquire of a wave synchronises (R99). An acquire performs at the home, so that it reads
what the latest of them wrote or a later write. -/
def syncedWith (d : Dev) (n w : Nat) (sc : Scope) : List Rel :=
  (lineOf d n).rels.filter (fun r => scopeIncludes d r.scope r.wave (some w) && scopeIncludes d sc (some w) r.wave)

/-- Whether an acquire on a line synchronises with a release made on it (R99). -/
def synchronises (d : Dev) (n : Nat) (w : Nat) (sc : Scope) : Bool := !(syncedWith d n w sc).isEmpty

/-- Remember a release for R99, in place of an earlier one of its wave and scope. -/
def noteRel (rs : List Rel) (r : Rel) : List Rel :=
  let same := fun (o : Rel) => o.scope == r.scope && o.wave == r.wave
  { r with vst := rs.foldl (fun v o => if same o then max v o.vst else v) r.vst } :: rs.filter (fun o => !same o)

/-- A release moves the stamps of a seal (R118) and is remembered for R99. -/
def releaseStamps (d : Dev) (n : Nat) (sc : Scope) (w : Option Nat) (vst : Nat) : Dev :=
  modLine d n fun l =>
    let l1 := { l with rels := noteRel l.rels { scope := sc, wave := w, vst := vst } }
    match sc with
    | .dev | .sys => { l1 with dst := max l.dst vst, cst := max l.cst (max l.dst vst) }
    | .clu => { l1 with cst := max l.cst vst }
    | .team => l1

/-- Drop the copies that could serve a wave a version older than a stamp its acquire has seen: of its core's L1 and its
die's L2, those whose lease ends before it (R100, R117). -/
def dropOlder (d : Dev) (w v : Nat) : Dev :=
  let vcore := vcoreOf d (waveOf d w)
  let l1 := Cache.l1 (pcore d vcore)
  let l2 := Cache.l2 (dieOf d (lclOf vcore))
  { d with caches := d.caches.filter (fun p => !((p.1 == l1 || p.1 == l2) && decide (p.2.leaseEnd < v))) }

/-- An acquire that synchronises with releases of a largest VSTAMP `v`: reads that follow see what they cover (R100), and
in FO mode the lease set is emptied (R120). -/
def acquireView (d : Dev) (w v : Nat) : Dev :=
  let x := waveOf d w
  if x.fo then setWave d w { x with leaseSet := [] } else dropOlder d w v

/-- An acquire moves the wave's view (R118) and sees what it synchronises with. -/
def acquireStamps (d : Dev) (n w : Nat) (sc : Scope) : Dev :=
  let l := lineOf d n
  let x := waveOf d w
  let v := match sc with
    | .dev | .sys => max x.vstamp l.dst
    | .clu => max x.vstamp l.cst
    | .team => x.vstamp
  let d1 := dropOwn (setWave d w { x with vstamp := v }) w n
  match syncedWith d n w sc with
  | [] => d1
  | rs => acquireView d1 w (rs.foldl (fun v r => max v r.vst) 0)

/-- A release at `.dev` or `.sys` waits until the writes under a grant have reached the home: the lines that have been written in the
unit of the wave's cluster are recalled (R101, R115). Those that other waves of the cluster have written are among them, for the
wave may have acquired their writes at `.clu` (R99, R100). -/
def drainGrants (d : Dev) (w : Nat) (sc : Scope) : Dev :=
  match sc with
  | .team | .clu => d
  | .dev | .sys =>
    d.lines.foldl (fun d p =>
      match p.2.grant with
      | some g => if g.cluster = clusterIdx d w ∧ g.writers ≠ [] then recallLine d p.1 else d
      | none => d) d

/-! ### Reads (R117, R119, R120). -/

/-- Serve a read at the home: RTS = max(RTS, max(WTS, VSTAMP) + 255), and a copy with that lease end (R117). -/
def homeLease (m : Memory) (d : Dev) (n vst : Nat) : Dev × Lease :=
  let l := lineOf d n
  let r := max l.rts (max l.wts vst + 255)
  (setLine d n { l with rts := r }, { line := n, leaseEnd := r, data := rdBytes m d (n * 64) 64 })

/-- The ways of a core's L1: four for each 32 KiB of carve (spec/03_operand_stores.md R52). -/
def l1Ways (d : Dev) (core : Nat) : Nat := 4 * (coreOf d core).carve

/-- Two lines that share a set of an L1: a way of 8 KiB holds 128 lines (spec/03_operand_stores.md R52; DEDUCED, log 54). -/
def sameL1Set (a b : Nat) : Bool := a % 128 == b % 128

/-- The way that a new copy takes in an L1: a free one of its set, or that of the copy placed longest ago (DESIGN CHOICE,
log 54). -/
def l1Way (d : Dev) (core n : Nat) : Nat :=
  let mine := (d.caches.filter (fun p => p.1 == .l1 core && p.2.line ≠ n && sameL1Set p.2.line n)).map (·.2.way)
  match (List.range (l1Ways d core)).find? (fun i => !mine.contains i) with
  | some i => i
  | none => (mine.getLast?).getD 0

/-- Put a copy into a cache, in place of an older one of its line; an L1 makes room for it, and one without ways holds
nothing. -/
def keepCopy (d : Dev) (c : Cache) (l : Lease) : Dev :=
  match c with
  | .l1 core =>
    if l1Ways d core = 0 then d
    else
      let way := l1Way d core l.line
      { d with caches := (c, { l with way := way }) :: d.caches.filter (fun p =>
          !(p.1 == c && (p.2.line == l.line || (sameL1Set p.2.line l.line && p.2.way == way)))) }
  | _ => { d with caches := (c, l) :: d.caches.filter (fun p => !(p.1 == c && p.2.line == l.line)) }

def findCopy (d : Dev) (c : Cache) (n vst : Nat) : Option Lease :=
  (d.caches.find? (fun p => p.1 == c && p.2.line == n && decide (vst ≤ p.2.leaseEnd))).map (·.2)

/-- The die of the reader and of the line's bank (R32, R33). -/
def remoteLine (d : Dev) (w : Nat) (va : Nat) : Bool :=
  bankDie d (bankOf va) ≠ dieOf d (lclOf (vcoreOf d (waveOf d w)))

/-- LMAX takes the lease end of the copy that served a read (R119). -/
def noteLease (d : Dev) (w e : Nat) : Dev :=
  let x := waveOf d w
  setWave d w { x with lmax := max x.lmax e }

/-- A new entry of a wave's lease set, in place of the one granted first when sixteen are there (R120). -/
def enterLease (d : Dev) (w : Nat) (c : Lease) : Dev :=
  let x := waveOf d w
  setWave d w { x with leaseSet := (x.leaseSet ++ [c]).drop (x.leaseSet.length + 1 - 16) }

/-- The bytes of a copy that a read takes. -/
def cutLease (k n : Nat) (c : Lease) : List Byte := (c.data.drop (k % 64)).take n

/-- A read in FO mode (R120): from the lease set, else at the home or the unit of the wave's own cluster (R114), and the
line enters the set. -/
def leaseRead (m : Memory) (d : Dev) (w k n : Nat) : Dev × List Byte :=
  let ln := lineNo k
  match (waveOf d w).leaseSet.find? (fun c => c.line == ln) with
  | some c => (noteLease d w c.leaseEnd, cutLease k n c)
  | none =>
    let (d1, c) := homeLease m (recallFrom d ln (some (clusterIdx d w))) ln (waveOf d w).vstamp
    (noteLease (enterLease d1 w c) w c.leaseEnd, cutLease k n c)

/-- A read outside FO mode (R117): by a leased copy of the core's L1, or of the die's L2 for a line of the other die, else
at the home. `keep` is false for `.str` (R266). -/
def copyRead (m : Memory) (d : Dev) (w va k n : Nat) (keep : Bool) : Dev × List Byte :=
  let ln := lineNo k
  let x := waveOf d w
  let vcore := vcoreOf d x
  let l1 := Cache.l1 (pcore d vcore)
  let l2 := Cache.l2 (dieOf d (lclOf vcore))
  let far := remoteLine d w va
  let hold := fun (d : Dev) (c : Lease) => if keep then keepCopy d l1 c else d
  match findCopy d l1 ln x.vstamp with
  | some c => (noteLease d w c.leaseEnd, cutLease k n c)
  | none =>
    match (if far then findCopy d l2 ln x.vstamp else none) with
    | some c => (noteLease (hold d c) w c.leaseEnd, cutLease k n c)
    | none =>
      let d0 := recallLine d ln
      let (d1, c) := homeLease m d0 ln (waveOf d0 w).vstamp
      (noteLease (hold (if far then keepCopy d1 l2 c else d1) c) w c.leaseEnd, cutLease k n c)

/-- A wave's read of bytes of one line of device memory (R114, R117, R120). -/
def homeRead (m : Memory) (d : Dev) (w va k n : Nat) (keep : Bool) : Dev × List Byte :=
  if (waveOf d w).fo then leaseRead m d w k n
  else if granted d (lineNo k) (clusterIdx d w) then (d, rdBytes m d k n)
  else copyRead m d w va k n keep

/-- A read through the constant path: the line as the cluster's constant cache holds it, which is emptied at the
start of every launch (R19). -/
def constRead (m : Memory) (d : Dev) (w k n : Nat) : Dev × List Byte :=
  let ln := lineNo k
  let c := Cache.konst (lclOf (vcoreOf d (waveOf d w)))
  match d.caches.find? (fun p => p.1 == c && p.2.line == ln) with
  | some p => (d, (p.2.data.drop (k % 64)).take n)
  | none =>
    (keepCopy d c { line := ln, leaseEnd := 0, data := rdBytes m d (ln * 64) 64 }, rdBytes m d k n)

/-- An addition to a counter by an engine or a peer (R152, R153): a `.dev` release of the operation's writes,
`.sys` when a push of a peer makes it. -/
def counterAdd (m : Memory) (d : Dev) (who : Who) (k : Nat) (x : W64) (maxW : Nat) (peer : Bool) : Dev :=
  let n := lineNo k
  let d0 := recallLine d n
  let v := rd64 m d0 k + x
  let d1 := sealWrite m d0 who k (leBytes 8 v)
  let d2 := modLine d1 n (fun l => { l with
    cts := max l.cts maxW,
    added := if peer then l.added else l.added ||| (1#8 <<< wordIdx k),
    addedSys := if peer then l.addedSys ||| (1#8 <<< wordIdx k) else l.addedSys })
  wakeCwaits m d2 k who.clock

/-! ### Translation (R20 to R28). -/

/-- The walker sets A and D in the leaf's entry, at the entry's home (R25). -/
def markEntry (m : Memory) (d : Dev) (l : Leaf) : Dev :=
  if rd64 m d l.entry = l.word then d else homeWrite m d whoEngine l.entry (leBytes 8 l.word)

/-- The deepest table that a die's walk cache knows on the way to an address (R26): its level and its place. -/
def walkStart (m : Memory) (d : Dev) (die ctx va : Nat) : Nat × Nat :=
  let hit := fun (lvl : Nat) => d.walks.find? (fun e => e.die == die && e.ctx == ctx && e.lvl == lvl + 1 &&
    e.part == va / natural (lvl + 1))
  match (List.range 4).findSome? (fun lvl => (hit lvl).map (fun e => (lvl, e.table))) with
  | some p => p
  | none => (4, ctxRoot m d ctx)

/-- The walk cache keeps the table entries of levels 1 to 4 that a walk has read (R26), newest first. -/
def keepWalk (d : Dev) (die ctx va : Nat) (path : List (Nat × Nat)) : Dev :=
  let es := path.map (fun p => ({ die := die, ctx := ctx, lvl := p.1, part := va / natural p.1, table := p.2 } : WalkEntry))
  let mine := es ++ d.walks.filter (fun e => e.die == die && !es.contains e)
  { d with walks := mine.take walkCacheSize ++ d.walks.filter (fun e => e.die ≠ die) }

/-- A walk by a walker of a die (R25 to R28): an access in an open episode joins it; A and D are set in the leaf. -/
def walkFor (die ctx va : Nat) (acc : Access) : Act Leaf := fun m d =>
  match episodeAt d die ctx va with
  | some e => .error (xtrap e.cause va e.base e.size)
  | none =>
    let (lvl, table) := walkStart m d die ctx va
    match walkFrom ctx va acc lvl table m d with
    | .error t => .error t
    | .ok (l, d1) => .ok (l, markEntry m (keepWalk d1 die ctx va (walkPath m d va lvl table)) l)

/-- The entries that a TLB may hold of one set: a core's is one set, a cluster's is eight-way (R26; log 49). -/
def tlbRoom (p : TlbAt) (e o : Tlb) : Bool :=
  match p with
  | .core _ => true
  | .cluster _ => e.vpn % 512 == o.vpn % 512
def tlbWays : TlbAt → Nat
  | .core _ => 128
  | .cluster _ => 8

/-- Put a translation into a TLB, in place of the oldest of its set when the set is full (R26). -/
def keepTlb (d : Dev) (e : Tlb) : Dev :=
  let same := fun (o : Tlb) => o.ctx == e.ctx && o.vpn == e.vpn && o.sz == e.sz
  let mine := d.tlb.filter (fun o => o.place == e.place && tlbRoom e.place e o && !same o)
  let rest := d.tlb.filter (fun o => !(o.place == e.place && tlbRoom e.place e o))
  { d with tlb := e :: mine.take (tlbWays e.place - 1) ++ rest }

/-- The entry of a TLB that translates an access (R26). An entry whose page has not been written takes no write, whose walk
is to set D (R25). -/
def tlbHit (d : Dev) (p : TlbAt) (ctx va : Nat) (acc : Access) : Option Tlb :=
  d.tlb.find? (fun t => t.place == p && t.ctx == ctx && t.vpn == va / pageBytes t.sz.toNat && (t.dirty || !dirties acc))

/-- The leaf that a TLB entry stands for. -/
def tlbLeaf (t : Tlb) (va : Nat) : Leaf :=
  let size := pageBytes t.sz.toNat
  { tgt := bits t.leaf 57 56, pa := (bits t.leaf 55 12) * 4096 / size * size + va % size, base := va / size * size,
    size := size, word := t.leaf, entry := 0 }

/-- Translate an address of a context for an access of a core (R20 to R26): BADADDR, an open episode (R28), the core's TLB,
its cluster's, then a walk. -/
def translate (core ctx va : Nat) (acc : Access) : Act Leaf := fun m d =>
  let near := TlbAt.core core
  let far := TlbAt.cluster (coreCluster core)
  let use := fun (t : Tlb) (d : Dev) => (
    let l := tlbLeaf t va
    if permits t.leaf ctx acc then .ok (l, d) else .error (xtrap cPERM va l.base l.size) : Except Trap (Leaf × Dev))
  if va ≥ 2 ^ 57 then .error { cause := cBADADDR, addr := w64 va }
  else match episodeAt d (coreDie core) ctx va with
  | some e => .error (xtrap e.cause va e.base e.size)
  | none =>
    match tlbHit d near ctx va acc, tlbHit d far ctx va acc with
    | some t, _ => use t d
    | none, some t => use t (keepTlb d { t with place := near })
    | none, none =>
      match walkFor (coreDie core) ctx va acc m d with
      | .error t => .error t
      | .ok (l, d1) =>
        let e : Tlb := { place := far, ctx := ctx, vpn := va / l.size, sz := BitVec.ofNat 3 (bits l.word 60 58),
                         leaf := l.word, dirty := dirties acc }
        .ok (l, keepTlb (keepTlb d1 e) { e with place := near })

end Sys2Proof.Machine
end

