-- ==== Sys2Proof/Machine/Ring.lean ====
section
/-!
DEFINITION. Trap records and the trap ring (spec/12_traps_preemption.md R198, R199, R203, R204), fault
episodes (spec/02_address_spaces.md R28), and taking a trap (R196, R200, R201).
-/
namespace Sys2Proof.Machine

/-- Write bytes that may cross lines, as an agent: device memory at its home, host memory in place (R115, R121). -/
def agentWrite (m : Memory) (d : Dev) (who : Who) (k : Nat) (bs : List Byte) : Dev :=
  if hostKey ≤ k then wrBytes d k bs
  else
    let n := min bs.length (64 - k % 64)
    let d1 := if n = 0 then d else homeWrite m d who k (bs.take n)
    let r := bs.drop n
    if r.isEmpty then d1
    else
      let n2 := min r.length 64
      let d2 := homeWrite m d1 who (k + n) (r.take n2)
      if (r.drop n2).isEmpty then d2 else homeWrite m d2 who (k + n + n2) (r.drop n2)

/-- Translate an address for a device agent of a die that uses no TLB (R25, R28): the leaf, with A and D set, or the failing
cause. -/
def walkVa (m : Memory) (d : Dev) (die ctx va : Nat) (acc : Access) : Except Trap (Leaf × Dev) :=
  if va ≥ 2 ^ 57 then .error { cause := cBADADDR, addr := w64 va } else walkFor die ctx va acc m d

/-- The key of a leaf's byte in device or host memory. -/
def leafKey (l : Leaf) : Nat := if l.tgt = 1 then hostKey + l.pa else l.pa

/-- The bits of word 0 of a record below CTX (R198). -/
structure RecFlags where
  cont : Bool := false
  handler : Bool := false
  orphan : Bool := false
  external : Bool := false
  replay : Bool := false
  async : Bool := false
  deriving DecidableEq, Repr

def bitAt (b : Bool) (n : Nat) : W64 := if b then 1#64 <<< n else 0

/-- The eight words of a record, SEQ still 0 (R198). `who` is the wave and split it names. -/
def recordWords (d : Dev) (ctx : Nat) (who : Option (Nat × Nat)) (pc clock : Nat) (t : Trap) (f : RecFlags) : List W64 :=
  let ids : W64 := match who with
    | none => 0
    | some (w, sp) =>
      let x := waveOf d w
      (w64 (vcoreOf d x % 256) <<< 40) ||| (w64 (x.widx % 16) <<< 36) ||| (w64 (ordOf x sp % 4) <<< 34) |||
        (w64 (x.stage % 4) <<< 32)
  [ (w64 (ctx % 65536) <<< 48) ||| ids ||| bitAt f.cont 30 ||| bitAt f.handler 29 ||| bitAt f.orphan 28 |||
      bitAt f.external 27 ||| bitAt f.replay 26 ||| bitAt f.async 25 ||| (t.sub.setWidth 64 <<< 16) ||| t.cause.setWidth 64,
    w64 (pc % 2 ^ 57), w64 clock, w64 d.cycle, w64 (t.addr.toNat % 2 ^ 57), t.info0, t.info1, t.info2.setWidth 64 ]

/-- A record with its SEQ (R198). -/
def withSeq (r : List W64) (n : Nat) : List W64 :=
  match r with
  | [a, b, c, e, f, g, h, i] => [a, b, c, e, f, g, h, (i &&& 0xFFFFFFFF#64) ||| (w64 (n % 2 ^ 32) <<< 32)]
  | _ => r

def wordBytes (ws : List W64) : List Byte := ws.flatMap (leBytes 8)

/-- Records whose ring cannot be reached are dropped, and RINGLOST counts each (R204, R374). -/
def ringLost (d : Dev) (n : Nat) : Dev :=
  { d with regs := { d.regs with ringlost := BitVec.ofNat 16 (min (d.regs.ringlost.toNat + n) 0xFFFF) } }

/-- What became of a claim (R204). -/
inductive RingRes where
  | written (n : Nat)
  | dropped
  | full (line wts : Nat)
  deriving DecidableEq, Repr

/-- The die whose walkers serve the agents of the device that belong to no die: home slices, the service processor. -/
def baseDie (d : Dev) : Nat := dieOf d 0

/-- Whether traffic to a peer can be sent (R368, R371): it has a route, over a port that is up, be it retraining, and is not declared down. -/
def peerUp (d : Dev) (p : Nat) : Bool :=
  (look none d.regs.routes p).any (fun port => 2 ≤ look 0 d.regs.pstate port) && !look false d.regs.pdown p

/-- Whether a peer's link carries traffic: its port is neither training, retraining nor down (R124, R371). -/
def linkOpen (d : Dev) (peer : Nat) : Bool :=
  (look none d.regs.routes peer).any (fun p => look 0 d.regs.pstate p == 2 || look 0 d.regs.pstate p == 4) &&
    !look false d.regs.pdown peer

/-- Records for a ring in a peer's memory, while its port is up (R204): the index that they claim is a free value, and they are
sent. What the peer's header then holds is not this device's to know: no such record finds its ring full (DESIGN CHOICE, log 69). -/
def ringAway (d : Dev) (peer pa n : Nat) : Dev × RingRes :=
  if peerUp d peer then (d, .written (leNat ((List.range 4).map (fun i => Config.peerByte peer (pa + i)))))
  else (ringLost d n, .dropped)

/-- Write records to a context's ring (R203, R204). `waits` says that the producer is a wave of the context, which
parks on a full ring until the header's line is written. Bits of the header that must be zero are not looked at, and the claim
leaves them as they are (DESIGN CHOICE, log 69). -/
def ringWrite (m : Memory) (d : Dev) (ctx : Nat) (recs : List (List W64)) (waits : Bool) : Dev × RingRes :=
  let ring := ctxRing m d ctx
  let walk := fun (d : Dev) (va : Nat) => walkVa m d (baseDie d) ctx va .readWrite
  match walk d ring with
  | .error _ => (ringLost d recs.length, .dropped)
  | .ok (l, d1) =>
    if l.tgt = 3 then (ringLost d recs.length, .dropped)
    else if l.tgt = 2 then ringAway d1 l.peer l.pa recs.length
    else if d1.poison.contains (leafKey l / 64) then (ringLost d recs.length, .dropped)
    else
      let k := leafKey l
      let w0 := rd64 m d1 k
      let w1 := rd64 m d1 (k + 8)
      let size := bits w1 7 0
      let prod := bits w0 31 0
      let cons := bits w0 63 32
      let lost := bits w1 63 32
      let drop := fun (setLost : Bool) =>
        agentWrite m d1 whoEngine (k + 8) (leBytes 8 ((w64 (min (lost + recs.length) 0xFFFFFFFF) <<< 32) |||
          (w1 &&& 0xFFFFFFFF#64) ||| bitAt setLost 8))
      if size < 4 || 16 < size then (drop false, .dropped)
      else if (prod + 2 ^ 32 - cons) % 2 ^ 32 + recs.length > 2 ^ size then
        if waits then
          let d2 := agentWrite m d1 whoEngine (k + 8) (leBytes 8 (w1 ||| bitAt true 8))
          (d2, .full (lineNo k) (lineOf d2 (lineNo k)).wts)
        else (drop true, .dropped)
      else
        let d2 := agentWrite m d1 whoEngine k (leBytes 8 (w64 ((prod + recs.length) % 2 ^ 32) ||| (w0 &&& 0xFFFFFFFF00000000#64)))
        let put := fun (p : Dev × Nat) (r : List W64) =>
          match walk p.1 (ring + 64 + 64 * (p.2 % 2 ^ size)) with
          | .ok (s, d') =>
            if s.tgt = 3 then (ringLost p.1 1, p.2 + 1)
            else if s.tgt = 2 then ((ringAway d' s.peer s.pa 1).1, p.2 + 1)
            else (agentWrite m d' whoEngine (leafKey s) (wordBytes (withSeq r p.2)), p.2 + 1)
          | .error _ => (ringLost p.1 1, p.2 + 1)
        ((recs.foldl put (d2, prod)).1, .written prod)

/-- Write a record that no wave waits for (R204). -/
def writeRecord (m : Memory) (d : Dev) (ctx : Nat) (r : List W64) : Dev := (ringWrite m d ctx [r] false).1

/-- A handler's current record takes its SEQ once it has been claimed (R198, R200). -/
def seqHandler (r : List W64) (n : Nat) (s : Split) : Split :=
  { s with handler := s.handler.map (fun h => if h.record = r then { h with record := withSeq r n } else h) }

/-- Write records whose producer is a split, one after another: on a full ring it parks, keeping those still to write,
and takes up `after` once they are written (R204). -/
def waveRecord (m : Memory) (d : Dev) (w sp : Nat) (recs : List (List W64)) (after : Park) : Dev :=
  match recs with
  | [] => modSplit d w sp (fun s => { s with park := after, ringRec := [] })
  | r :: rest =>
    match ringWrite m d (waveOf d w).ctx [r] true with
    | (d1, .full n wts) => modSplit d1 w sp (fun s => { s with park := .ring n wts, ringRec := r :: rest, after := after })
    | (d1, .written n) => waveRecord m (modSplit d1 w sp (seqHandler r n)) w sp rest after
    | (d1, .dropped) => waveRecord m d1 w sp rest after

/-- Causes whose waves are replayable (R201). -/
def replayable (t : Trap) : Bool :=
  t.cause == cXLATE || t.cause == cBADPTE || (t.cause == cPERM && t.sub == 0) || t.cause == cFILLFAULT

/-- Causes handled by a local handler (R199). -/
def isLocal (t : Trap) : Bool := !replayable t && t.cause ≠ cBRK

/-- The cause with which the walk behind a trap failed. -/
def walkCause (t : Trap) : BitVec 8 := if t.cause = cFILLFAULT then t.sub else t.cause

/-- Join or open a fault episode (R28): true when one was opened, whose record is still to be written. -/
def joinEpisode (d : Dev) (die ctx : Nat) (t : Trap) (ws : List Nat) : Dev × Bool :=
  match episodeAt d die ctx t.addr.toNat with
  | some e => ({ d with episodes := d.episodes.map (fun x => if x = e then { x with waves := ws ++ x.waves } else x) }, false)
  | none => ({ d with episodes := d.episodes ++ [⟨die, ctx, t.info0.toNat, t.info1.toNat, walkCause t, ws⟩] }, true)

/-- A split takes a trap (R196 to R201). What loads younger than TPC have loaded ahead is discarded (R196). -/
def takeTrap (m : Memory) (d : Dev) (w sp : Nat) (t : Trap) (async : Bool) : Dev :=
  let d := if async then d else modSplit d w sp (fun s => { s with peerLost := false })
  let d := modSplit d w sp (fun s => { s with early := [] })
  let x := waveOf d w
  let s := splitOf x sp
  let base := (setOf d x.set).trapbase
  let inH := s.handler.isSome
  let recOf := fun (ext rep : Bool) => recordWords d x.ctx (some (w, sp)) s.pc s.clock t
    { handler := inH, external := ext, replay := rep, async := async }
  if replayable t && !async then
    let (d1, opened) := joinEpisode d (dieOf d (lclOf (vcoreOf d x))) x.ctx t [w]
    if opened then waveRecord m d1 w sp [recOf true true] .replay
    else modSplit d1 w sp (fun s => { s with park := .replay })
  else if isLocal t && base ≠ 0 && !inH then
    let r := recOf false false
    let h : Handler :=
    { qd := s.qd, qv := s.qv, qb := s.qb, pend := s.pend, hdr := s.hdr, pc := s.pc,
      entering := s.entering, len := s.len, reconv := s.reconv, ans := s.ans, served := s.served,
      servedVals := s.servedVals, async := async, peerLost := s.peerLost, waitUntil := s.waitUntil, forced := s.forced, depth := s.stack.length, record := r, cont := [] }
    let d1 := modSplit d w sp (fun s => { s with
      qd := [], qv := [], qb := [], pend := [], pc := base.toNat, entering := true, handler := some h, ans := none, served := 0, servedVals := [],
      peerLost := false, waitUntil := none, forced := [] })
    waveRecord m d1 w sp [r] .running
  else waveRecord m (modSplit d w sp (fun s => { s with heldTrap := some t, heldAsync := async })) w sp [recOf true false] .held

/-- Whether a split holds a lane on its reconvergence stack: deferred, or arrived at a header (R166, R167). -/
def stackHolds (s : Split) (l : Nat) : Bool :=
  s.stack.any (fun e => match e with
    | .deferred _ m _ => m.getLsbD l
    | .point _ _ a _ => a.getLsbD l)

/-- The split to which an asynchronous trap goes (R197): that which holds the lowest lane of a mask that has not ended, in its
active mask or on its stack, or where they have all ended the first of the wave (log 34). None when every lane of the wave has
ended. -/
def trapSplit (x : Wave) (mask : W32) : Option Nat :=
  let holds := fun (l : Nat) => (x.splits.findIdx? (fun s => s.mask.getLsbD l)).orElse
    (fun _ => x.splits.findIdx? (fun s => s.mask ≠ 0 && stackHolds s l))
  if !x.live then none
  else ((lanesOf mask).findSome? holds).orElse (fun _ => x.splits.findIdx? (fun s => s.mask ≠ 0))

/-- The oldest asynchronous trap of a wave that goes to a split (R197). -/
def dueTrap (x : Wave) (sp : Nat) : Option AsyncTrap := x.atraps.find? (fun t => trapSplit x t.mask == some sp)

/-- An asynchronous trap for a wave, with the active mask of the instruction that it comes from: it waits for the split to which
it then goes (R197); when every lane of the wave has ended the record carries ORPHAN, and the result says so. -/
def postAsync (m : Memory) (d : Dev) (w : Nat) (mask : W32) (t : Trap) : Dev × Bool :=
  let x := waveOf d w
  if (trapSplit x mask).isSome then (setWave d w { x with atraps := x.atraps ++ [⟨mask, t⟩] }, false)
  else
    (writeRecord m d x.ctx (recordWords d x.ctx (some (w, 0)) 0 0 t { orphan := true, external := true, async := true }), true)

end Sys2Proof.Machine
end

