-- ==== Sys2Proof/Machine/Regs.lean ====
section
/-!
DEFINITION. The device's register space as it reads (spec/24_host_and_fabric.md R365 to R370,
spec/02_address_spaces.md R29, spec/11_launch_scheduling.md R187, spec/12_traps_preemption.md R202,
spec/25_service.md R374).
-/
namespace Sys2Proof.Machine

/-- Eight bytes of MBDATA at a byte offset (R367). -/
def mbWord (d : Dev) (off : Nat) : W64 := leWord ((List.range 8).map (fun i => look 0 d.regs.mbData (off + i)))

/-- MBSTAT (R367). -/
def mbStat (d : Dev) : W64 :=
  (d.regs.mbTag.setWidth 64 <<< 32) ||| (d.regs.mbResult.setWidth 64 <<< 16) ||| bitAt d.regs.mbOvr 2 |||
    bitAt d.regs.mbDone 1 ||| bitAt d.regs.mbBusy.isSome 0

/-- DEVID, CONFIG (R374). -/
def devId (d : Dev) : W64 := 0xDE1E000900010000#64 ||| d.regs.devnum.setWidth 64
def configWord (d : Dev) : W64 :=
  bitAt d.regs.palarm 3 ||| bitAt d.regs.part 2 ||| d.regs.dies.setWidth 64

/-- XINVS (R29), TRST (R202), DPOL (R187). -/
def xinvS (d : Dev) : W64 :=
  (d.regs.xinvSeq.setWidth 64 <<< 32) ||| bitAt d.regs.xinvErr 2 ||| bitAt d.regs.xinvOvf 1 |||
    bitAt (!d.regs.xinvq.isEmpty) 0
def trSt (d : Dev) : W64 := (d.regs.trSeq.setWidth 64 <<< 32) ||| bitAt d.regs.trErr 0
def dpol (d : Dev) : W64 := (d.regs.bypass.setWidth 64 <<< 12) ||| (d.regs.swapk.setWidth 64 <<< 5)

/-- PSTATE, and 64 bits of PDOWN from peer `n` on (R370). -/
def pStateWord (d : Dev) : W64 :=
  (List.range 16).foldl (fun (x : W64) p => x ||| (((look 0 d.regs.pstate p).setWidth 64 : W64).shiftLeft (4 * p))) 0#64
def pDownWord (d : Dev) (n : Nat) : W64 :=
  (List.range 64).foldl (fun x i => x ||| bitAt (look false d.regs.pdown (n + i)) i) 0#64

/-- The identity and status block (R374). -/
def idWord (d : Dev) (off : Nat) : W64 :=
  if off = 0x000 then devId d
  else if off = 0x008 then Config.serial
  else if off = 0x010 then
    (d.regs.fwver.setWidth 64 <<< 32) ||| (d.regs.haltc.setWidth 64 <<< 16) ||| d.regs.stage.setWidth 64
  else if off = 0x018 then configWord d
  else if off = 0x020 then
    (d.regs.plimit.setWidth 64 <<< 32) ||| (d.regs.power.setWidth 64 <<< 16) ||| d.regs.temp.setWidth 64
  else if off = 0x028 then
    (d.regs.trans.setWidth 64 <<< 32) ||| (d.regs.lasting.setWidth 64 <<< 16) ||| d.regs.ringlost.setWidth 64
  else if off = 0x030 then d.regs.jprod.setWidth 64
  else if off = 0x808 then mbStat d
  else if 0xC00 ≤ off && off < 0x1000 then mbWord d (off - 0xC00)
  else 0

/-- The eight bytes of the register space at an aligned offset (R365). Below stage 5 the identity and status block
answers alone (R373). Write-only registers and unassigned offsets read zero (R10). -/
def regWord (d : Dev) (off : Nat) : W64 :=
  if off < 0x1000 then idWord d off
  else if d.regs.stage ≠ 5 then 0
  else if off = 0x1008 then mbStat d
  else if 0x1800 ≤ off && off < 0x2000 then mbWord d (off - 0x1800)
  else if off = 0x2000 then d.regs.xinva
  else if off = 0x2010 then xinvS d
  else if off = 0x3000 then d.regs.ctxt
  else if off = 0x3008 then dpol d
  else if off = 0x4000 then d.regs.trva
  else if off = 0x4010 then trSt d
  else if off = 0x5000 then pStateWord d
  else if 0x5080 ≤ off && off < 0x5100 then pDownWord d ((off - 0x5080) * 8)
  else 0

/-- A read of the register space: 4 or 8 bytes, naturally aligned, and zero otherwise (R365). -/
def regRead (d : Dev) (off n : Nat) : W64 :=
  if n = 8 ∧ off % 8 = 0 then regWord d off
  else if n = 4 ∧ off % 4 = 0 then ((regWord d (off / 8 * 8)) >>> (8 * (off % 8))).setWidth 32 |>.setWidth 64
  else 0

end Sys2Proof.Machine
end

