-- ==== Sys2Proof/Machine/Ops.lean ====
section
/-!
DEFINITION. The named operations every meaning is made of: registers with their pending writes
(spec/13_encoding.md R222, R227 to R229), predicates, queues (spec/10_execution_model.md R173), fetch and
retirement (R158, R209, R210), the fixed-order gate (spec/09_engines_determinism.md R160, R161), and the
frame in which an instruction word runs: its checks, its body, its trap or its retirement (spec/12 R196).
-/
namespace Sys2Proof.Machine

/-! ### Register files. A register is named by its operand code (R219), a predicate pn by 0x100 + n, a guard gn
by 0x108 + n (R229). -/

def pCode (n : Nat) : Nat := 0x100 + n
def gCode (n : Nat) : Nat := 0x108 + n

/-- Registers held per wave have one value, kept as lane 0 (R222). -/
def perWave (code : Nat) : Bool := (0xA0 ≤ code && code < 0xC0) || 0x108 ≤ code

/-- The value in the register file, pending writes included (R222, R220). -/
def fileLane (x : Wave) (code l : Nat) : W64 :=
  if code < 0x80 then (look 0 x.v (code * 32 + l)).setWidth 64
  else if code < 0xA0 then look 0 x.a ((code - 0x80) * 32 + l)
  else if code < 0xC0 then look 0 x.s (code - 0xA0)
  else if code < 0x100 then 0
  else if code < 0x108 then (if code = 0x100 then 1 else if (look 0 x.p (code - 0x100)).getLsbD l then 1 else 0)
  else (if code = 0x108 then 1 else if x.g.getLsbD (code - 0x108) then 1 else 0)

/-- Write a value per lane of a mask into a register file; a write to p0 or g0 is ignored (R220). -/
def fileSet (x : Wave) (code : Nat) (mask : W32) (f : Nat → W64) : Wave :=
  if mask = 0 then x
  else if code < 0x80 then
    { x with v := (lanesOf mask).foldl (fun t l => put 0 t (code * 32 + l) ((f l).setWidth 32)) x.v }
  else if code < 0xA0 then
    { x with a := (lanesOf mask).foldl (fun t l => put 0 t ((code - 0x80) * 32 + l) (f l)) x.a }
  else if code < 0xC0 then { x with s := put 0 x.s (code - 0xA0) (f 0) }
  else if code < 0x100 then x
  else if code < 0x108 then
    if code = 0x100 then x
    else
      let t := (look 0 x.p (code - 0x100) &&& ~~~mask) ||| maskOf ((lanesOf mask).filter (fun l => f l ≠ 0))
      { x with p := put 0 x.p (code - 0x100) t }
  else if code = 0x108 then x
  else
    let b := 1#8 <<< (code - 0x108)
    { x with g := if f 0 = 0 then x.g &&& ~~~b else x.g ||| b }

/-- The lane in which a register's value is kept. -/
def laneIdx (code l : Nat) : Nat := if perWave code then 0 else l

/-- What a read of a register in a lane sees (R229): the youngest pending write whose distance is at least its
latency decides, or else the value before all of them. -/
def seen (file : W64) (l : Nat) : List Pend → W64
  | [] => file
  | p :: r =>
    if r.any (fun q => decide (q.lat ≤ q.dist)) then seen file l r
    else if p.lat ≤ p.dist then
      match r with
      | [] => file
      | q :: _ => lane q.old l
    else lane p.old l

/-- What a lane reads of a register: the writes of its own split, or of the split it came from, may be pending (R227,
R229). -/
def regLane (x : Wave) (s : Split) (code l : Nat) : W64 :=
  seen (fileLane x code l) (laneIdx code l) (s.pend.filter (fun p => p.code == code && p.mask.getLsbD l))

/-- Whether a read in some lane of a mask comes before a pending write's latency has passed (R229). -/
def short (s : Split) (code : Nat) (lanes : W32) : Bool :=
  lanes ≠ 0 && s.pend.any (fun p => p.code == code && decide (p.dist < p.lat) && (p.mask &&& lanes) ≠ 0)

/-- STALL_SHORT under CHK = 1 (R229). -/
def checkShort (code : Nat) (lanes : W32) : Act Unit := do
  let d ← dev
  need (!((me d).chk && short (mySplit d) code lanes)) { cause := cSTALLSHORT, info0 := w64 code, info2 := lanes }

/-- Write a register in the lanes of a mask, with the latency after which readers see it; 0 for an interlocked
result (R228). An interlocked write over pending ones is kept in their order. A write to p0 or g0 is ignored whole
(R220). -/
def setReg (d : Dev) (code lat : Nat) (acc : Bool) (mask : W32) (f : Nat → W64) : Dev :=
  let x := me d
  let s := mySplit d
  if mask = 0 ∨ code = pCode 0 ∨ code = gCode 0 then d
  else
    let keep := perWave code
    let old := if keep then put 0 [] 0 (fileLane x code 0) else rowOf mask (fileLane x code)
    let p : Pend := { acc := acc, code := code, lat := lat, dist := 0, mask := if keep then s.mask else mask, old := old }
    let s1 := if lat = 0 && !s.pend.any (fun q => q.code == code) then s else { s with pend := s.pend ++ [p] }
    setMe d (setSplitOf (fileSet x code mask f) d.cur.2 s1)

/-- The mask of lanes in which a predicate or guard is true (R220). -/
def trueLanes (x : Wave) (s : Split) (code : Nat) : W32 :=
  maskOf ((List.range 32).filter (fun l => regLane x s code l ≠ 0))

/-- The lanes in which an instruction acts (R212); `exe` says that its predicate is a p register. -/
def acting (h : Head) (exe : Bool) : Act W32 := do
  let d ← dev
  let x := me d
  let s := mySplit d
  let n := h.ps.toNat
  let code := if exe then pCode n else gCode n
  if n = 0 then pure (if h.pn = 1 then 0 else s.mask)
  else
    checkShort code s.mask
    let t := trueLanes x s code
    pure (s.mask &&& (if h.pn = 1 then ~~~t else t))

/-! ### Queues (R173): the program-order count is the number of entries. -/

def queueTrap (sub : BitVec 8) : Trap := { cause := cQUEUEORDER, sub := sub }

def popQd : Act Row := do
  let d ← dev
  match (mySplit d).qd with
  | [] => trap (queueTrap 0)
  | r :: q => do upd (fun d => setMySplit d { mySplit d with qd := q }); pure r

/-- The entry of qd that a peek sees: the oldest, or in an empty queue the one whose push the access stream has brought ahead
(R173). -/
def headQd (s : Split) : Option Row :=
  match s.qd with
  | [] => s.peeked
  | r :: _ => some r

/-- A peek of qd; the word waits where the push has not arrived yet (R173). -/
def peekQd : Act Row := do
  let d ← dev
  match headQd (mySplit d) with
  | none => again
  | some r => pure r

def popQv : Act Row := do
  let d ← dev
  match (mySplit d).qv with
  | [] => trap (queueTrap 1)
  | r :: q => do upd (fun d => setMySplit d { mySplit d with qv := q }); pure r

def pushQd (r : Row) : Act Unit := do
  let d ← dev
  need (decide ((mySplit d).qd.length < 16)) (queueTrap 0)
  upd (fun d => setMySplit d { mySplit d with qd := (mySplit d).qd ++ [r] })

def pushQv (r : Row) : Act Unit := do
  let d ← dev
  need (decide ((mySplit d).qv.length < 16)) (queueTrap 1)
  upd (fun d => setMySplit d { mySplit d with qv := (mySplit d).qv ++ [r] })

/-! ### Flags (R88): ORed into FSTAT. -/

def orFlags (d : Dev) (w : Nat) (f : BitVec 9) : Dev :=
  let x := waveOf d w
  setWave d w { x with fstat := x.fstat ||| f }

/-! ### Fetch and targets (R209, R210). -/

/-- A word of the program, through the context's translation with the X permission (R24, R210). A peer's memory
answers with a free value (log 9), once its link carries traffic; one that cannot be reached raises PEER_DOWN (R368, R371), and the
device's registers are read as they stand (R365). -/
def fetchWord (va : Nat) : Act W64 := do
  let d ← dev
  let x := me d
  let l ← translate (pcore d (vcoreOf d x)) x.ctx va .fetch
  match l.tgt with
  | 0 | 1 => do pure (leWord (← readKey (leafKey l) 8))
  | 2 => do
    need (peerUp d l.peer) { cause := cPEERDOWN, addr := w64 va, info0 := w64 l.peer }
    if linkOpen d l.peer then pure () else again
    pure (leWord ((List.range 8).map (fun i => Config.peerByte l.peer (l.pa + i))))
  | _ => pure (regRead d l.pa 8)

/-- Whether a word is a block header (R209). -/
def isHeader (w : W64) : Bool := bits w 63 58 == 0x3F

/-- Check the target of a control transfer (R210): BADADDR, ALIGN, then BADTARGET. -/
def checkTarget (va : W64) : Act Unit := do
  need (decide (va.toNat < 2 ^ 57)) { cause := cBADADDR, addr := va }
  need (decide (va.toNat % 64 = 0)) { cause := cALIGN, addr := va }
  let w ← fetchWord va.toNat
  need (isHeader w) { cause := cBADTARGET, addr := va }

/-! ### Retirement. -/

/-- Forget pending writes that every later read has passed: for each register, those satisfied before any that is
not (R229). -/
def prune (ps : List Pend) : List Pend :=
  (ps.foldl (fun (k : List Pend) p =>
    if decide (p.lat ≤ p.dist) && !k.any (fun q => q.code == p.code) then k else p :: k) []).reverse

/-- The stall count adds to the distances of its streams (R227). -/
def addDist (ps : List Pend) (stl : Nat) (acc exe : Bool) : List Pend :=
  ps.map (fun p => if (p.acc && acc) || (!p.acc && exe) then { p with dist := p.dist + stl } else p)

/-- One instruction word retires (R158, R227): the clock counts it, the distances take its stall count. -/
def countWord (d : Dev) (stl : Nat) (acc exe : Bool) : Dev :=
  let s := mySplit d
  let d1 := setMySplit d { s with
    pend := prune (addDist s.pend stl acc exe), ans := none, served := 0, servedVals := [], forced := [], peeked := none, peerLost := false }
  moveClock d1 d1.cur.1 d1.cur.2 (s.clock + 1)

/-- Whether the word at the PC is the last of its block's LEN words (R210). -/
def atLast (s : Split) : Bool := s.pc + 8 == s.hdr + 8 * (s.len + 1)

/-- The next 64-byte boundary after the word at the PC (R210). -/
def boundary (s : Split) : Nat := (s.pc + 8 + 63) / 64 * 64

/-- Move the PC to a header that is about to be entered. -/
def goHeader (d : Dev) (va : Nat) : Dev := setMySplit d { mySplit d with pc := va, entering := true }

/-- Retire to the next word, or fall through to the next boundary, whose word is checked first (R210); that of a word
which has been woken, or whose lanes have begun to perform, was checked at its first issue. -/
def retireWord (stl : Nat) (acc exe : Bool) : Act Unit := do
  let d ← dev
  let s := mySplit d
  if atLast s then
    if s.ans.isNone && s.served = 0 then checkTarget (w64 (boundary s)) else pure ()
    upd (fun d => goHeader (countWord d stl acc exe) (boundary s))
  else
    upd (fun d => let d1 := countWord d stl acc exe
                  setMySplit d1 { mySplit d1 with pc := s.pc + 8 })

/-- Retire by a transfer of control to a header (R257). -/
def retireTo (stl : Nat) (acc exe : Bool) (va : Nat) : Act Unit :=
  upd (fun d => goHeader (countWord d stl acc exe) va)

/-! ### Parking. -/

/-- Park the split that issues; its instruction has not performed. -/
def park (p : Park) : Act Verdict := do
  upd (fun d => setMySplit d { mySplit d with park := p })
  pure .stay

/-- A deadline some cycles from now. -/
def after (d : Dev) (n : Nat) : Option Nat := some (d.cycle + n)

/-! ### The fixed-order gate. -/

/-- Whether a split has left the minimum (R161, R162, R167): it is parked, and no event that wakes it has come. -/
def leavesMin (x : Wave) (s : Split) : Bool :=
  match s.park with
  | .cwait _ _ _ _ _ (.due _ _) | .phwait _ _ _ (.due _ _) => false
  | .mwait _ => x.monitor.all (fun mo => mo.due.isNone)
  | .lock _ _ _ | .lockFull _ _ _ _ | .ldfe _ _ _ | .cwait _ _ _ _ _ _ | .phwait _ _ _ _ | .bar | .cbar | .queueFull => true
  | .running | .header _ | .ring _ _ | .replay | .held | .ack | .peer _ | .yielded _ _ | .stopped | .mfence => false

/-- The keys of the active splits of a launch (R161). -/
def activeKeys (d : Dev) (l : Nat) : List Key :=
  (allSplits d).filterMap (fun p =>
    let x := waveOf d p.1
    let q := splitOf x p.2
    if x.launch = l ∧ x.live ∧ q.mask ≠ 0 ∧ !leavesMin x q then some (keyOf x p.2) else none)

/-- The least of some keys. -/
def leastKey : List Key → Option Key
  | [] => none
  | k :: r => match leastKey r with
    | some j => some (if keyLt j k then j else k)
    | none => some k

/-- Whether every engine operation of a wave has completed (R163). -/
def enginesDone (d : Dev) (w : Nat) : Bool :=
  d.copies.all (fun c => c.wave ≠ w || c.done) && d.matops.all (fun o => o.wave ≠ w || o.done)

/-! ### The frame of an instruction word. -/

/-- The end of a step: its stores are performed on memory (spec/95: a step is indivisible). -/
def finish (m : Memory) (d : Dev) : State := { mem := commit m d.wlog, dev := { d with wlog := [] } }

/-- ILLOP, with the word in INFO0 (R231). -/
def illop (i : Instr) : Trap := { cause := cILLOP, info0 := encodeD i }

/-- Whether every v register that register fields name lies inside the wave's footprint (R165). An even pair
does when its lower register does. -/
def inFootprint (x : Wave) (codes : List (BitVec 8)) : Bool :=
  codes.all (fun c => c.toNat ≥ 0x80 || c.toNat < 16 * (x.vblk + 1))

/-- Whether an instruction that stays has begun to perform: it is parked, or some of its lanes have performed. -/
def hasBegun (s : Split) : Bool := s.park ≠ .running || s.served ≠ 0

/-- Words after which the split that issues them does not fall through (R259, R335). -/
def endsLanes : Instr → Bool
  | .exit _ _ | .done _ _ | .join _ _ => true
  | _ => false

/-- The word of a fall-through is checked as part of the issue of a block's last word (R210): before that word has
performed anything, so also at the issue at which it parks or its first lanes perform. `d` is the device at this issue. -/
def checkBegun (d : Dev) : Act Unit := do
  let e ← dev
  if atLast (mySplit d) && (mySplit d).ans.isNone && (mySplit d).served = 0 && hasBegun (mySplit e) then
    checkTarget (w64 (boundary (mySplit d)))
  else pure ()

/-- The body of an instruction word in its frame: the checks of its fields (R231), its body, its retirement. An
instruction that has not performed has popped and pushed nothing. -/
def framed (i : Instr) (h : Head) (acc exe : Bool) (codes : List (BitVec 8)) (body : Act Verdict) : Act Unit := do
  let d ← dev
  need (fieldsOk i && inFootprint (me d) codes) (illop i)
  if offAligned i then pure ()
  else do
    let m ← acting h exe
    need (m = 0) { cause := cALIGN, addr := (off16 i).signExtend 64 }
  match ← body with
  | .retire =>
    checkBegun d
    retireWord h.stl.toNat acc exe
  | .moved => pure ()
  | .stay =>
    if endsLanes i then pure () else checkBegun d
    let s := mySplit d
    upd (fun e => setMySplit e { mySplit e with qd := s.qd, qv := s.qv, qb := s.qb })

/-- What an action of the split that issues comes to when it does not go through: a trap discards its changes and is taken (R196);
a word that waits in place (`again`) changes nothing. -/
def takeOrWait (m : Memory) (d : Dev) (w sp : Nat) (t : Trap) : Dev := if t.cause = 0 then d else takeTrap m d w sp t false

/-- Run an action of the split that issues. -/
def runSplit (x : Act Unit) (s : State) : State :=
  match runAct x s.mem s.dev with
  | .ok (_, d) => finish s.mem d
  | .error t => finish s.mem (takeOrWait s.mem s.dev s.dev.cur.1 s.dev.cur.2 t)

/-- An execute-stream word. -/
def runX (i : Instr) (h : Head) (codes : List (BitVec 8)) (body : Act Verdict) (s : State) : Out :=
  .next (runSplit (framed i h false true codes body) s)

/-- An access-stream word. -/
def runA (i : Instr) (h : Head) (body : Act Verdict) (s : State) : Out :=
  .next (runSplit (framed i h true false [] body) s)

/-- A word of both streams (R174, R227). -/
def runJ (i : Instr) (h : Head) (body : Act Verdict) (s : State) : Out :=
  .next (runSplit (framed i h true true [] body) s)

/-- A device step: an action that cannot trap a split. -/
def runEvent (f : Memory → Dev → Dev) (s : State) : Out := .next (finish s.mem (f s.mem s.dev))

end Sys2Proof.Machine
end

