-- ==== Sys2Proof/Machine/Flags.lean ====
section
/-!
DEFINITION. The results of lane arithmetic with the flags they set: rounding modes, the RSS step of a lane
(spec/05_number_formats.md R85, R86), range handling (R87) and the sticky flags (R88).
-/
namespace Sys2Proof.Machine

/-- What one lane computes: the bits of its result, its flags, and its RSS state after it. -/
structure LaneRes where
  val : W64
  flags : BitVec 9 := 0
  rss : W32
  deriving DecidableEq, Repr

/-- What a lane computes with: its number, rounding mode, RSS state, the extra value of e2m1 (R73), and the
predicate of field C. -/
structure LaneEnv where
  l : Nat
  rnd : Rnd
  rss : W32
  xva : Fp
  pc : Bool
  deriving DecidableEq, Repr

/-- The extra value that a BF16 register holds (R73). -/
def extraOf (x : BitVec 16) : Fp := decodeF (fmt .bf16) .nan x.toNat

/-- The effective rounding mode of an instruction (R85). -/
def roundingOf (x : Wave) (md : BitVec 8) : Rnd := rnd (bits md 7 5) x.rnd

/-- The RSS state with which a result is rounded: stepped under RSS, as it stands otherwise (R86). -/
def stepRss (r : Rnd) (st : W32) : W32 := if r = .rss then rssStep st else st

/-- A result that no rounding touches. -/
def plain (env : LaneEnv) (v : W64) : LaneRes := { val := v, rss := env.rss }

/-- A floating result of lane arithmetic: IEEE overflow, one RSS step (R86, R240). -/
def roundRes (env : LaneEnv) (t : Ty) (x : Fp) (sticky : Bool) (fl : BitVec 9) : LaneRes :=
  let st := stepRss env.rnd env.rss
  let e := encodeF (fmt t) env.rnd st true x sticky
  { val := w64 e.code, flags := e.flags ||| fl, rss := st }

/-- A floating type (R221). -/
def isFloatTy : Ty → Bool
  | .f32 | .f16 | .bf16 | .e4m3 | .e5m2 | .e2m1 => true
  | _ => false

/-- One conversion (R246, R87), with its RSS step (R86). One between equal types copies the code, that of minus zero in e2m1 too
(DESIGN CHOICE, log 75). -/
def convert (env : LaneEnv) (dst src : Ty) (nsat : Bool) (x : W64) : LaneRes :=
  let st := stepRss env.rnd env.rss
  if dst = src then { val := if dst = .q24 then intCode .q24 (intOf .q24 x) else x, rss := st }
  else
    let fromF := isFloatTy src
    let v := if fromF then decodeF (fmt src) env.xva x.toNat else ofInt (intOf src x)
    if isFloatTy dst then
      let e := encodeF (fmt dst) env.rnd st nsat v false
      { val := w64 e.code, flags := e.flags, rss := st }
    else if fromF then
      let r := encodeI dst env.rnd st v
      { val := r.1, flags := r.2, rss := st }
    else
      let r := intoRange dst (intOf src x) nsat
      { val := r.1, flags := r.2, rss := st }

end Sys2Proof.Machine
end

