-- ==== Sys2Proof/Machine/Operands.lean ====
section
/-!
DEFINITION. Operand forms (spec/13_encoding.md R219, spec/14_isa_compute.md R232, R254): sources taken in
field order, values read at the width of a type, results written per lane, and the shared shapes of lane instructions.
-/
namespace Sys2Proof.Machine

/-- A value at the width of its type: the low bits of the container; q24 as R80 reads it (R232). -/
def readTy (t : Ty) (x : W64) : W64 :=
  match tyBits t with
  | 64 => x
  | 32 => if t = .q24 then intCode .q24 (intOf .q24 x) else (x.setWidth 32).setWidth 64
  | 16 => (x.setWidth 16).setWidth 64
  | 8 => (x.setWidth 8).setWidth 64
  | _ => (x.setWidth 4).setWidth 64

/-- What a register holds of a result: i8 and i16 sign-extended to 32 bits, q24 under R80, every other narrow type
zero-extended (R232). -/
def writeTy (t : Ty) (x : W64) : W64 :=
  match t with
  | .i8 => ((x.setWidth 8).signExtend 32).setWidth 64
  | .i16 => ((x.setWidth 16).signExtend 32).setWidth 64
  | _ => readTy t x

/-- An inline integer in a type (R219). -/
def inlineTy (t : Ty) (z : Int) : W64 :=
  if isFloatTy t then w64 (encodeF (fmt t) .rne 0 true (ofInt z) false).code else readTy t (intCode t z)

/-- A source that has been taken. -/
inductive Src where
  | row (r : Row)
  | reg (code : Nat)
  | zero
  | inl (z : Int)
  deriving DecidableEq, Repr

/-- The registers that a source of a type reads: two for a 64-bit v pair (R219). -/
def srcRegs (t : Ty) (code : BitVec 8) : List Nat :=
  match opd code with
  | .v n => if tyBits t = 64 then [n, n + 1] else [n]
  | .a _ | .s _ => [code.toNat]
  | _ => []

/-- Take a source: a queue code pops its entry, a register is checked for pending writes (R219, R229). -/
def takeSrc (t : Ty) (lanes : W32) (code : BitVec 8) : Act Src := do
  match opd code with
  | .qd => do pure (.row (← popQd))
  | .qdPeek => do pure (.row (← peekQd))
  | .qv => do pure (.row (← popQv))
  | .zero => pure .zero
  | .inl z => pure (.inl z)
  | .bad => pure .zero
  | .v _ | .a _ | .s _ => do
    let _ ← (srcRegs t code).mapM (fun r => checkShort r lanes)
    pure (.reg code.toNat)

/-- The value of an execute-stream source in a lane (R232). -/
def valX (x : Wave) (s : Split) (t : Ty) (src : Src) (l : Nat) : W64 :=
  match src with
  | .row r => readTy t (lane r l)
  | .zero => 0
  | .inl z => inlineTy t z
  | .reg c =>
    if tyBits t = 64 then regLane x s c l ||| (regLane x s (c + 1) l <<< 32) else readTy t (regLane x s c l)

/-- The value of an access-stream source in a lane: 64 bits, inline integers sign-extended (R219, R254). -/
def valA (x : Wave) (s : Split) (src : Src) (l : Nat) : W64 :=
  match src with
  | .row r => lane r l
  | .zero => 0
  | .inl z => BitVec.ofInt 64 z
  | .reg c => regLane x s c l

/-- The value of an access-stream source of a type: an inline integer takes the value of the type exactly (R219). -/
def valT (x : Wave) (s : Split) (t : Ty) (src : Src) (l : Nat) : W64 :=
  match src with
  | .inl z => if isFlt t then inlineTy t z else BitVec.ofInt 64 z
  | _ => valA x s src l

/-- Write an execute-stream destination in the lanes of a mask (R219, R232): a v register, an even pair, qv, or
nowhere. -/
def putX (t : Ty) (lat : Nat) (mask : W32) (code : BitVec 8) (f : Nat → W64) : Act Unit :=
  match opd code with
  | .v n =>
    if tyBits t = 64 then
      upd (fun d => setReg (setReg d n lat false mask (fun l => (f l).setWidth 32 |>.setWidth 64)) (n + 1) lat false mask
        (fun l => f l >>> 32))
    else upd (fun d => setReg d n lat false mask (fun l => writeTy t (f l)))
  | .qv => pushQv (rowOf mask (fun l => if tyBits t = 64 then f l else writeTy t (f l)))
  | _ => pure ()

/-- Write an access-stream destination in the lanes of a mask (R219): an a register, an s register, qd, or
nowhere. An s register takes the value of the lowest lane. -/
def putA (lat : Nat) (mask : W32) (code : BitVec 8) (f : Nat → W64) : Act Unit :=
  match opd code with
  | .a _ => upd (fun d => setReg d code.toNat lat true mask f)
  | .s _ => upd (fun d => setReg d code.toNat lat true mask (fun _ => f ((lowLane mask).getD 0)))
  | .qd => pushQd (rowOf mask f)
  | _ => pure ()

/-- Write a p predicate or a guard in the lanes of a mask (R220). -/
def putPred (exe : Bool) (lat : Nat) (mask : W32) (code : BitVec 8) (f : Nat → Bool) : Act Unit :=
  upd (fun d => setReg d ((if exe then pCode else gCode) code.toNat) lat (!exe) mask (fun l => if f l then 1 else 0))

/-- Take a predicate field as a source; none8 stands for no predicate. -/
def takePred (exe : Bool) (lanes : W32) (code : BitVec 8) : Act W32 := do
  if code.toNat < 8 then
    let c := (if exe then pCode else gCode) code.toNat
    checkShort c lanes
    let d ← dev
    pure (trueLanes (me d) (mySplit d) c)
  else pure 0

/-- The latency of an execute result: two more when a type it names is i64 or n64 (R228). -/
def latX (base : Nat) (ts : List Ty) : Nat := if ts.any (fun t => t == .i64 || t == .n64) then base + 2 else base

/-- The environment of a lane. -/
def envOf (x : Wave) (r : Rnd) (preds : W32) (l : Nat) : LaneEnv :=
  { l := l, rnd := r, rss := nth x.rss l 0, xva := extraOf x.xva, pc := preds.getLsbD l }

/-- The RSS states and flags that the results of the lanes leave (R86, R88). -/
def keepRes (d : Dev) (mask : W32) (f : Nat → LaneRes) : Dev :=
  let x := me d
  setMe d { x with
    rss := x.rss.mapIdx (fun l st => if mask.getLsbD l then (f l).rss else st),
    fstat := (lanesOf mask).foldl (fun a l => a ||| (f l).flags) x.fstat }

/-- The active lanes and the sources of a format X word of the execute stream, taken in field order; a source without a
type is one that the form has none of (R212, R219, R232). -/
def takeX (h : Head) (f : FmtX) (ta tb tc : Option Ty) : Act (W32 × Src × Src × Src) := do
  let m ← acting h true
  let a ← (match ta with | some t => takeSrc t m f.a | none => pure .zero)
  let b ← (match tb with | some t => takeSrc t m f.b | none => pure .zero)
  let c ← (match tc with | some t => takeSrc t m f.c | none => pure .zero)
  pure (m, a, b, c)

/-- What a lane of the split that issues computes from the sources. -/
def laneOf (d : Dev) (md : BitVec 8) (ta tb tc : Option Ty) (q : W32 × Src × Src × Src)
    (fn : LaneEnv → W64 → W64 → W64 → LaneRes) (l : Nat) : LaneRes :=
  let x := me d
  let s := mySplit d
  fn (envOf x (roundingOf x md) 0 l) (valX x s (ta.getD .n32) q.2.1 l) (valX x s (tb.getD .n32) q.2.2.1 l)
    (valX x s (tc.getD .n32) q.2.2.2 l)

/-- The shared shape of a lane instruction of format X: sources a, b and c with their types (none when the form has
none), a result of type `td` and what a lane computes (R233). -/
def laneOp (h : Head) (f : FmtX) (ta tb tc : Option Ty) (td : Ty) (lat : Nat)
    (fn : LaneEnv → W64 → W64 → W64 → LaneRes) : Act Verdict := do
  let q ← takeX h f ta tb tc
  let d ← dev
  let res := laneOf d f.md ta tb tc q fn
  upd (fun d => keepRes d q.1 res)
  putX td lat q.1 f.d (fun l => (res l).val)
  pure .retire

/-- An instruction whose lanes compute a function of the operands, without rounding or flags. -/
def pureOp (h : Head) (f : FmtX) (n : Nat) (lat : Nat) (fn : Ty → W64 → W64 → W64 → W64) : Act Verdict :=
  let t := ty f.ty
  laneOp h f (some t) (if 2 ≤ n then some t else none) (if 3 ≤ n then some t else none) t (latX lat [t])
    (fun env a b c => plain env (fn t a b c))

/-- The active lanes, the sources and the guard lanes of access arithmetic, taken in field order (R254). -/
def takeA (h : Head) (a b c gc : BitVec 8) : Act (W32 × Src × Src × Src × W32) := do
  let m ← acting h false
  let sa ← takeSrc .n64 m a
  let sb ← takeSrc .n64 m b
  let sc ← takeSrc .n64 m c
  let g ← takePred false m gc
  pure (m, sa, sb, sc, g)

/-- A result of access arithmetic, extended to 64 bits (R254). -/
def extA (t : Ty) (v : W64) : W64 :=
  match t with
  | .i32 => (v.setWidth 32).signExtend 64
  | .n32 => (v.setWidth 32).setWidth 64
  | _ => v

/-- The shared shape of access arithmetic (R254): the result of each lane, computed at the width of T and extended to
64 bits. -/
def accOp (h : Head) (d a b c : BitVec 8) (t : Ty) (lat : Nat) (gc : BitVec 8)
    (fn : Bool → W64 → W64 → W64 → W64) : Act Verdict := do
  let q ← takeA h a b c gc
  let dv ← dev
  let rd := fun (src : Src) (l : Nat) => readTy t (valA (me dv) (mySplit dv) src l)
  putA lat q.1 d (fun l => extA t (fn (q.2.2.2.2.getLsbD l) (rd q.2.1 l) (rd q.2.2.1 l) (rd q.2.2.2.1 l)))
  pure .retire

end Sys2Proof.Machine
end

