-- ==== Sys2Proof/Machine/Integer.lean ====
section
/-!
DEFINITION. Integer arithmetic, logic and bit fields: majors 0x01 and 0x02 (spec/14_isa_compute.md R235 to R237).
-/
namespace Sys2Proof.Machine

/-- The register fields of format X. -/
def codesX (f : FmtX) : List (BitVec 8) := [f.d, f.a, f.b, f.c]

/-- A function of integers at a type: exact, then wrapped to the container, q24 under R80 (R235). -/
def onInts (fn : Int → Int → Int → Int) (t : Ty) (a b c : W64) : W64 :=
  intCode t (fn (intOf t a) (intOf t b) (intOf t c))

/-- The high w bits of an exact 2w-bit value (R235). -/
def highHalf (t : Ty) (z : Int) : W64 := intCode t (z / 2 ^ tyBits t)

/-- The sum of absolute differences of four unsigned bytes, added to c (R235). -/
def sad4Of (a b c : W64) : W64 :=
  let byte := fun (x : W64) (i : Nat) => ((x >>> (8 * i)).setWidth 8).toNat
  let s := (List.range 4).foldl (fun n i => n + ((byte a i : Int) - byte b i).natAbs) 0
  intCode .n32 (c.toNat + s : Nat)

def execAdd (h : Head) (f : FmtX) (s : State) : Out :=
  runX (.add h f) h (codesX f) (pureOp h f 2 4 (onInts fun a b _ => a + b)) s
def execSub (h : Head) (f : FmtX) (s : State) : Out :=
  runX (.sub h f) h (codesX f) (pureOp h f 2 4 (onInts fun a b _ => a - b)) s
def execMul (h : Head) (f : FmtX) (s : State) : Out :=
  runX (.mul h f) h (codesX f) (pureOp h f 2 6 (onInts fun a b _ => a * b)) s
def execMulhi (h : Head) (f : FmtX) (s : State) : Out :=
  runX (.mulhi h f) h (codesX f) (pureOp h f 2 6 (fun t a b _ => highHalf t (intOf t a * intOf t b))) s
def execMad (h : Head) (f : FmtX) (s : State) : Out :=
  runX (.mad h f) h (codesX f) (pureOp h f 3 6 (onInts fun a b c => a * b + c)) s
def execMadhi (h : Head) (f : FmtX) (s : State) : Out :=
  runX (.madhi h f) h (codesX f) (pureOp h f 3 6 (fun t a b c => highHalf t (intOf t a * intOf t b + intOf t c))) s
def execMin (h : Head) (f : FmtX) (s : State) : Out :=
  runX (.min h f) h (codesX f) (pureOp h f 2 4 (onInts fun a b _ => if a ≤ b then a else b)) s
def execMax (h : Head) (f : FmtX) (s : State) : Out :=
  runX (.max h f) h (codesX f) (pureOp h f 2 4 (onInts fun a b _ => if a ≤ b then b else a)) s
def execAbs (h : Head) (f : FmtX) (s : State) : Out :=
  runX (.abs h f) h (codesX f) (pureOp h f 1 4 (onInts fun a _ _ => if a < 0 then -a else a)) s
def execNeg (h : Head) (f : FmtX) (s : State) : Out :=
  runX (.neg h f) h (codesX f) (pureOp h f 1 4 (onInts fun a _ _ => 0 - a)) s
def execClamp (h : Head) (f : FmtX) (s : State) : Out :=
  runX (.clamp h f) h (codesX f) (pureOp h f 3 4 (onInts fun a lo hi =>
    let x := if a ≤ lo then lo else a
    if x ≤ hi then x else hi)) s
def execSad4 (h : Head) (f : FmtX) (s : State) : Out :=
  runX (.sad4 h f) h (codesX f) (pureOp h f 3 6 (fun _ a b c => sad4Of a b c)) s

/-- The width of a type (R235). -/
def wid (t : Ty) : Nat := tyBits t
/-- The low bits of a word at a type's width. -/
def lowBits (t : Ty) (x : W64) : W64 := readTy t x
/-- All ones at a type's width. -/
def onesOf (t : Ty) : W64 := lowBits t (~~~0#64)
/-- The value of a word at a type's width, as a signed number. -/
def signedOf (t : Ty) (x : W64) : Int := if wid t = 64 then x.toInt else (x.setWidth 32).toInt

/-- Shifts, with the count the unsigned value of b at the width of T (R236). -/
def shlOf (t : Ty) (a b : W64) : W64 := if wid t ≤ b.toNat then 0 else lowBits t (a <<< b.toNat)
def shrOf (t : Ty) (a b : W64) : W64 := if wid t ≤ b.toNat then 0 else a >>> b.toNat
def sarOf (t : Ty) (a b : W64) : W64 :=
  let n := if wid t ≤ b.toNat then wid t - 1 else b.toNat
  lowBits t (BitVec.ofInt 64 (signedOf t a / 2 ^ n))
def rotlOf (t : Ty) (a b : W64) : W64 :=
  let n := b.toNat % wid t
  lowBits t (a <<< n) ||| (a >>> (wid t - n))

/-- The bits of a word at a type's width, from bit 0 up. -/
def bitsOf (t : Ty) (x : W64) : List Bool := (List.range (wid t)).map x.getLsbD
def popcOf (t : Ty) (a : W64) : W64 := w64 ((bitsOf t a).count true)
def clzOf (t : Ty) (a : W64) : W64 := w64 (wid t - bitLen a.toNat)
def ctzOf (t : Ty) (a : W64) : W64 := w64 (((bitsOf t a).takeWhile (· == false)).length)
def brevOf (t : Ty) (a : W64) : W64 :=
  (List.range (wid t)).foldl (fun r i => if a.getLsbD (wid t - 1 - i) then r ||| (1#64 <<< i) else r) 0

/-- One bit of a two-input table at operands a and b (R236). -/
def tableBit (tab : Nat) (a b : Bool) : Bool := (tab >>> ((if a then 2 else 0) + (if b then 1 else 0))) % 2 == 1
/-- `lsel` (R236): bit by bit, c chooses between the tables f1 and f0. -/
def lselOf (t : Ty) (f1 f0 : Nat) (a b c : W64) : W64 :=
  (List.range (wid t)).foldl (fun r j =>
    if tableBit (if c.getLsbD j then f1 else f0) (a.getLsbD j) (b.getLsbD j) then r ||| (1#64 <<< j) else r) 0

def execAnd (h : Head) (f : FmtX) (s : State) : Out :=
  runX (.and h f) h (codesX f) (pureOp h f 2 4 (fun _ a b _ => a &&& b)) s
def execOr (h : Head) (f : FmtX) (s : State) : Out :=
  runX (.or h f) h (codesX f) (pureOp h f 2 4 (fun _ a b _ => a ||| b)) s
def execXor (h : Head) (f : FmtX) (s : State) : Out :=
  runX (.xor h f) h (codesX f) (pureOp h f 2 4 (fun _ a b _ => a ^^^ b)) s
def execAndn (h : Head) (f : FmtX) (s : State) : Out :=
  runX (.andn h f) h (codesX f) (pureOp h f 2 4 (fun _ a b _ => a &&& ~~~b)) s
def execNot (h : Head) (f : FmtX) (s : State) : Out :=
  runX (.not h f) h (codesX f) (pureOp h f 1 4 (fun t a _ _ => lowBits t (~~~a))) s
def execShl (h : Head) (f : FmtX) (s : State) : Out :=
  runX (.shl h f) h (codesX f) (pureOp h f 2 4 (fun t a b _ => shlOf t a b)) s
def execShr (h : Head) (f : FmtX) (s : State) : Out :=
  runX (.shr h f) h (codesX f) (pureOp h f 2 4 (fun t a b _ => shrOf t a b)) s
def execSar (h : Head) (f : FmtX) (s : State) : Out :=
  runX (.sar h f) h (codesX f) (pureOp h f 2 4 (fun t a b _ => sarOf t a b)) s
def execRotl (h : Head) (f : FmtX) (s : State) : Out :=
  runX (.rotl h f) h (codesX f) (pureOp h f 2 4 (fun t a b _ => rotlOf t a b)) s
def execPopc (h : Head) (f : FmtX) (s : State) : Out :=
  runX (.popc h f) h (codesX f) (pureOp h f 1 6 (fun t a _ _ => popcOf t a)) s
def execClz (h : Head) (f : FmtX) (s : State) : Out :=
  runX (.clz h f) h (codesX f) (pureOp h f 1 6 (fun t a _ _ => clzOf t a)) s
def execCtz (h : Head) (f : FmtX) (s : State) : Out :=
  runX (.ctz h f) h (codesX f) (pureOp h f 1 6 (fun t a _ _ => ctzOf t a)) s
def execBrev (h : Head) (f : FmtX) (s : State) : Out :=
  runX (.brev h f) h (codesX f) (pureOp h f 1 6 (fun t a _ _ => brevOf t a)) s
def execLsel (h : Head) (f : FmtX) (s : State) : Out :=
  runX (.lsel h f) h (codesX f) (pureOp h f 3 4 (fun t a b c => lselOf t (bits f.md 7 4) (bits f.md 3 0) a b c)) s

/-- A mask of n ones. -/
def ones (n : Nat) : W64 := w64 (2 ^ n - 1)
/-- `bfx` (R237). -/
def bfxOf (t : Ty) (pos len : Nat) (a : W64) : W64 :=
  let x := (a >>> pos) &&& ones len
  if isSigned t && 0 < len && x.getLsbD (len - 1) then lowBits t (x ||| ~~~(ones len)) else x
/-- `bfi` (R237). -/
def bfiOf (t : Ty) (pos len : Nat) (a d : W64) : W64 :=
  let m := ones len <<< pos
  lowBits t ((d &&& ~~~m) ||| ((a <<< pos) &&& m))

/-- Format I as format X, with the fields it does not have unused. -/
def asX (f : FmtI) (b : BitVec 8) : FmtX := { d := f.d, a := f.a, b := b, c := 0xC8#8, ty := f.ty, md := 0 }

def execBfx (h : Head) (f : FmtI) (s : State) : Out :=
  runX (.bfx h f) h [f.d, f.a]
    (pureOp h (asX f 0xC8#8) 1 4 (fun t a _ _ => bfxOf t (bits f.imm 6 0) (bits f.imm 14 8) a)) s
def execBfi (h : Head) (f : FmtI) (s : State) : Out :=
  runX (.bfi h f) h [f.d, f.a]
    (pureOp h (asX f f.d) 2 4 (fun t a d _ => bfiOf t (bits f.imm 6 0) (bits f.imm 14 8) a d)) s

end Sys2Proof.Machine
end

