-- ==== Sys2Proof/Machine/Predicates.lean ====
section
/-!
DEFINITION. Compares, selects and predicates: major 0x03, and `fcmp` of major 0x09 (spec/14_isa_compute.md R238,
R239, R244).
-/
namespace Sys2Proof.Machine

/-- Whether a condition holds of an ordered pair whose comparison is −1, 0 or 1, or of an unordered one (R238). -/
def condHolds (c : Cond) (unord : Bool) (z : Int) : Bool :=
  match c with
  | .eq => !unord && z == 0 | .ne => !unord && z ≠ 0 | .lt => !unord && z < 0
  | .le => !unord && z ≤ 0 | .gt => !unord && z > 0 | .ge => !unord && z ≥ 0
  | .ord => !unord | .un => unord
  | .ueq => unord || z == 0 | .une => unord || z ≠ 0 | .ult => unord || z < 0
  | .ule => unord || z ≤ 0 | .ugt => unord || z > 0 | .uge => unord || z ≥ 0

/-- MD[5:4] combines the result with a predicate (R238). -/
def combine (md : BitVec 8) (r p : Bool) : Bool :=
  match bits md 5 4 with
  | 0 => r
  | 1 => r && p
  | 2 => r || p
  | _ => r != p

/-- The comparison of two integers as −1, 0 or 1. -/
def intCmp (a b : Int) : Int := if a < b then -1 else if b < a then 1 else 0

/-- The active lanes, the two values and the predicate of a compare or a select, taken in field order. -/
def takeC (h : Head) (f : FmtX) : Act (W32 × Src × Src × W32) := do
  let m ← acting h true
  let a ← takeSrc (ty f.ty) m f.a
  let b ← takeSrc (ty f.ty) m f.b
  let p ← takePred true m f.c
  pure (m, a, b, p)

/-- The active lanes and the predicates that A and B name, taken in field order; a field that names none gives no
lane. -/
def takeP (h : Head) (f : FmtX) : Act (W32 × W32 × W32) := do
  let m ← acting h true
  let a ← takePred true m f.a
  let b ← takePred true m f.b
  pure (m, a, b)

/-- What a lane of the split that issues compares. -/
def cmpLane (d : Dev) (t : Ty) (q : W32 × Src × Src × W32) (fn : W64 → W64 → Bool × BitVec 9) (l : Nat) :
    Bool × BitVec 9 :=
  fn (valX (me d) (mySplit d) t q.2.1 l) (valX (me d) (mySplit d) t q.2.2.1 l)

/-- The shared shape of `cmp` and `fcmp` (R239, R244): what a lane computes is a comparison and flags. -/
def cmpOp (h : Head) (f : FmtX) (lat : Nat) (fn : W64 → W64 → Bool × BitVec 9) : Act Verdict := do
  let q ← takeC h f
  let d ← dev
  let res := cmpLane d (ty f.ty) q fn
  upd (fun d => orFlags d d.cur.1 ((lanesOf q.1).foldl (fun fl l => fl ||| (res l).2) 0))
  putPred true lat q.1 f.d (fun l => combine f.md (res l).1 (q.2.2.2.getLsbD l))
  pure .retire

/-- A predicate from predicates (R239). -/
def predOp (h : Head) (f : FmtX) (fn : Bool → Bool → Bool) : Act Verdict := do
  let q ← takeP h f
  putPred true 4 q.1 f.d (fun l => fn (q.2.1.getLsbD l != (bits f.md 3 3 == 1)) (q.2.2.getLsbD l != (bits f.md 1 1 == 1)))
  pure .retire

def execCmp (h : Head) (f : FmtX) (s : State) : Out :=
  runX (.cmp h f) h (codesX f) (cmpOp h f (latX 4 [ty f.ty]) (fun a b =>
    (condHolds (cond (bits f.md 3 0)) false (intCmp (intOf (ty f.ty) a) (intOf (ty f.ty) b)), 0))) s

/-- Absolute value, then negation, on the sign bit (R214). -/
def signMods (t : Ty) (neg abs : Bool) (x : W64) : W64 :=
  let b := 1#64 <<< (tyBits t - 1)
  let y := if abs then x &&& ~~~b else x
  if neg then y ^^^ b else y

def execFcmp (h : Head) (f : FmtX) (s : State) : Out :=
  runX (.fcmp h f) h (codesX f) (cmpOp h f (latX 6 [ty f.ty]) (fun a b =>
    let x := decodeF (fmt (ty f.ty)) .nan a.toNat
    let y := decodeF (fmt (ty f.ty)) .nan b.toNat
    let un := x == .nan || y == .nan
    let c := bits f.md 3 0
    (condHolds (cond c) un (fpCmp x y), if un && 2 ≤ c && c ≤ 5 then fINV else 0))) s

/-- The bits of a source, unchanged: `sel` copies bit for bit (R239). -/
def rawX (x : Wave) (sp : Split) (t : Ty) (src : Src) (l : Nat) : W64 :=
  match src with
  | .inl z => inlineTy t z
  | y => if tyBits t = 64 then valX x sp .n64 y l else valX x sp .n32 y l

def execSel (h : Head) (f : FmtX) (s : State) : Out :=
  runX (.sel h f) h (codesX f) (do
    let t := ty f.ty
    let q ← takeC h f
    let d ← dev
    putX (if tyBits t = 64 then t else .n32) (latX 4 [t]) q.1 f.d (fun l =>
      rawX (me d) (mySplit d) t (if q.2.2.2.getLsbD l then q.2.1 else q.2.2.1) l)
    pure .retire) s

def execSetp (h : Head) (f : FmtX) (s : State) : Out :=
  runX (.setp h f) h (codesX f) (do
    let t := ty f.ty
    let q ← takeX h f (some t) none none
    let d ← dev
    putPred true (latX 4 [t]) q.1 f.d (fun l => valX (me d) (mySplit d) t q.2.1 l ≠ 0)
    pure .retire) s

def execGetp (h : Head) (f : FmtX) (s : State) : Out :=
  runX (.getp h f) h (codesX f) (do
    let q ← takeP h f
    putX .n32 4 q.1 f.d (fun l => if q.2.1.getLsbD l then 1 else 0)
    pure .retire) s

def execPand (h : Head) (f : FmtX) (s : State) : Out :=
  runX (.pand h f) h (codesX f) (predOp h f (fun a b => a && b)) s
def execPor (h : Head) (f : FmtX) (s : State) : Out :=
  runX (.por h f) h (codesX f) (predOp h f (fun a b => a || b)) s
def execPxor (h : Head) (f : FmtX) (s : State) : Out :=
  runX (.pxor h f) h (codesX f) (predOp h f (fun a b => a != b)) s
def execPnot (h : Head) (f : FmtX) (s : State) : Out :=
  runX (.pnot h f) h (codesX f) (do
    let q ← takeP h f
    putPred true 4 q.1 f.d (fun l => !q.2.1.getLsbD l)
    pure .retire) s

end Sys2Proof.Machine
end

