-- ==== Sys2Proof/Machine/AccessArith.lean ====
section
/-!
DEFINITION. Access arithmetic: major 0x18 (spec/14_isa_compute.md R254 to R256).
-/
namespace Sys2Proof.Machine

/-- Access arithmetic of format X without a guard source (R255). -/
def accX (h : Head) (f : FmtX) (lat : Nat) (fn : Ty → W64 → W64 → W64 → W64) : Act Verdict :=
  accOp h f.d f.a f.b f.c (ty f.ty) lat 0xC8#8 (fun _ a b c => fn (ty f.ty) a b c)

def execAadd (h : Head) (f : FmtX) (s : State) : Out :=
  runA (.aadd h f) h (accX h f 2 (onInts fun a b _ => a + b)) s
def execAsub (h : Head) (f : FmtX) (s : State) : Out :=
  runA (.asub h f) h (accX h f 2 (onInts fun a b _ => a - b)) s
def execAmul (h : Head) (f : FmtX) (s : State) : Out :=
  runA (.amul h f) h (accX h f 5 (onInts fun a b _ => a * b)) s
def execAmad (h : Head) (f : FmtX) (s : State) : Out :=
  runA (.amad h f) h (accX h f 5 (onInts fun a b c => a * b + c)) s
def execAshl (h : Head) (f : FmtX) (s : State) : Out :=
  runA (.ashl h f) h (accX h f 2 (fun t a b _ => shlOf t a b)) s
def execAshr (h : Head) (f : FmtX) (s : State) : Out :=
  runA (.ashr h f) h (accX h f 2 (fun t a b _ => shrOf t a b)) s
def execAsar (h : Head) (f : FmtX) (s : State) : Out :=
  runA (.asar h f) h (accX h f 2 (fun t a b _ => sarOf t a b)) s
def execAand (h : Head) (f : FmtX) (s : State) : Out :=
  runA (.aand h f) h (accX h f 2 (fun _ a b _ => a &&& b)) s
def execAor (h : Head) (f : FmtX) (s : State) : Out :=
  runA (.aor h f) h (accX h f 2 (fun _ a b _ => a ||| b)) s
def execAxor (h : Head) (f : FmtX) (s : State) : Out :=
  runA (.axor h f) h (accX h f 2 (fun _ a b _ => a ^^^ b)) s
def execAmin (h : Head) (f : FmtX) (s : State) : Out :=
  runA (.amin h f) h (accX h f 2 (onInts fun a b _ => if a ≤ b then a else b)) s
def execAmax (h : Head) (f : FmtX) (s : State) : Out :=
  runA (.amax h f) h (accX h f 2 (onInts fun a b _ => if a ≤ b then b else a)) s
def execAsel (h : Head) (f : FmtX) (s : State) : Out :=
  runA (.asel h f) h (accOp h f.d f.a f.b 0xC8#8 (ty f.ty) 2 f.c (fun g a b _ => if g then a else b)) s
def execAmov (h : Head) (f : FmtX) (s : State) : Out :=
  runA (.amov h f) h (accX h f 2 (fun _ a _ _ => a)) s

/-- The immediate of format K (R217). -/
def immK (t : Ty) (imm : BitVec 32) : W64 :=
  match t with
  | .i32 | .i64 => imm.signExtend 64
  | _ => imm.setWidth 64

def execAmovk (h : Head) (f : FmtK) (s : State) : Out :=
  runA (.amovk h f) h (accOp h f.d 0xC8#8 0xC8#8 0xC8#8 (ty f.ty) 2 0xC8#8
    (fun _ _ _ _ => readTy (ty f.ty) (immK (ty f.ty) f.imm))) s

/-- MD[7:6] reduces the per-lane results over the active lanes (R256). -/
def acmpReduce (mode : Nat) (m : W32) (r : Nat → Bool) : Bool :=
  match mode with
  | 0 => r ((lowLane m).getD 0)
  | 1 => (lanesOf m).all r
  | _ => (lanesOf m).any r

def execAcmp (h : Head) (f : FmtX) (s : State) : Out :=
  runA (.acmp h f) h (do
    let t := ty f.ty
    let q ← takeA h f.a f.b 0xC8#8 f.c
    let d ← dev
    let z := fun (src : Src) (l : Nat) => intOf t (readTy t (valA (me d) (mySplit d) src l))
    let res := fun (l : Nat) => condHolds (cond (bits f.md 3 0)) false (intCmp (z q.2.1 l) (z q.2.2.1 l))
    let gc := q.2.2.2.2.getLsbD ((lowLane (mySplit d).mask).getD 0)
    putPred false 2 q.1 f.d (fun _ => combine f.md (acmpReduce (bits f.md 7 6) q.1 res) gc)
    pure .retire) s

end Sys2Proof.Machine
end

