-- ==== Sys2Proof/Machine/Transcend.lean ====
section
/-!
DEFINITION. The transcendental functions of spec/14_isa_compute.md R241 as exact magnitudes with a sticky
remainder: integer series at 320 fraction bits, with the arguments whose result is exact taken apart first. Every other
argument has an irrational result, so that truncating the series and rounding once gives R240's correctly
rounded result (DEDUCED, log 21: no f32 argument lies nearer to a rounding boundary than the series' error).
-/
namespace Sys2Proof.Machine

/-- The fraction bits of the series. -/
def pr : Nat := 320
def one : Nat := 2 ^ pr

/-- Σ of atanh's or atan's terms: t, t·z, t·z², … each divided by 1, 3, 5, …; the sum of the terms of even and of odd
index apart. -/
def oddSeries (z2 : Nat) : Nat → Nat → Nat → Nat × Nat
  | 0, _, _ => (0, 0)
  | k + 1, i, t =>
    let r := oddSeries z2 k (i + 2) (t * z2 / one)
    (t / i + r.2, r.1)

/-- atanh z, for z below 1/3. -/
def atanhF (z : Nat) : Nat := let r := oddSeries (z * z / one) 120 1 z; r.1 + r.2
/-- atan (1/n), for n of 5 and more. -/
def atanInv (n : Nat) : Nat := let r := oddSeries (one / (n * n)) 80 1 (one / n); r.1 - r.2

def ln2 : Nat := 2 * atanhF (one / 3)
def piF : Nat := 16 * atanInv 5 - 4 * atanInv 239

/-- Σ x^k / k! for k from i up; the terms of even and of odd index apart. -/
def expTerms (x : Nat) : Nat → Nat → Nat → Nat × Nat
  | 0, _, _ => (0, 0)
  | k + 1, i, t =>
    let r := expTerms x k (i + 1) (t * x / one / (i + 1))
    (t + r.2, r.1)

/-- Σ (−1)^k x^(2k) / (2k + i)!-like terms: cosine from t = 1, i = 0; sine from t = x, i = 1. -/
def trigTerms (x2 : Nat) : Nat → Nat → Nat → Nat × Nat
  | 0, _, _ => (0, 0)
  | k + 1, i, t =>
    let r := trigTerms x2 k (i + 2) (t * x2 / one / ((i + 1) * (i + 2)))
    (t + r.2, r.1)

def cosF (x : Nat) : Nat := let r := trigTerms (x * x / one) 50 0 one; r.1 - r.2
def sinF (x : Nat) : Nat := let r := trigTerms (x * x / one) 50 1 x; r.1 - r.2

/-- A result before rounding: a value, and whether something smaller than its last bit follows. -/
structure Pre where
  val : Fp
  sticky : Bool := false
  flags : BitVec 9 := 0
  deriving DecidableEq, Repr

/-- 2^a (R241, R242). -/
def fpExp2 (a : Fp) : Pre :=
  match a with
  | .nan => { val := .nan }
  | .inf neg => { val := if neg then fzero false else .inf false }
  | .fin neg m e =>
    let big := if 0 ≤ e then decide (m * 2 ^ e.toNat > 4096) else decide (m / 2 ^ (-e).toNat > 4096)
    if big then { val := .fin false 1 (if neg then -4096 else 4096) }
    else
      -- the argument in units of 2^-320; f32 has no bits below 2^-149
      let u : Int := (if neg then -1 else 1) * (m * 2 ^ (e + pr).toNat : Nat)
      let n := u / (one : Int)
      let r := (u % (one : Int)).toNat
      if r = 0 then { val := .fin false 1 n }
      else
        let s := expTerms (r * ln2 / one) 90 0 one
        { val := .fin false (s.1 + s.2) (n - pr), sticky := true }

/-- log2 a (R241, R242). -/
def fpLog2 (a : Fp) : Pre :=
  match a with
  | .nan => { val := .nan }
  | .inf neg => if neg then { val := .nan, flags := fINV } else { val := .inf false }
  | .fin neg m e =>
    if m = 0 then { val := .inf true, flags := fDIV }
    else if neg then { val := .nan, flags := fINV }
    else
      let k := m.log2
      let n := e + k
      if m = 2 ^ k then { val := ofInt n }
      else
        let z := (m - 2 ^ k) * one / (m + 2 ^ k)
        let l := 2 * atanhF z * one / ln2
        let v : Int := n * (one : Int) + (l : Int)
        { val := .fin (decide (v < 0)) v.natAbs (-(pr : Int)), sticky := true }

/-- sin (π·t/2^320), for t in units of 2^-320 of a half turn, from 0 below 2; `negZero` is the sign of a zero. -/
def sinTurn (t : Nat) (flip negZero : Bool) : Pre :=
  let h := t / one % 2 == 1
  let r := t % one
  let q := if 2 * r > one then one - r else r
  let neg := h != flip
  if q = 0 then { val := fzero negZero }
  else if 2 * q = one then { val := .fin neg 1 0 }
  else
    let v := if 4 * q > one then cosF ((one - 2 * q) * piF / 2 / one) else sinF (q * piF / one)
    { val := .fin neg v (-(pr : Int)), sticky := true }

/-- |a| modulo 2, in units of 2^-320. -/
def turn (m : Nat) (e : Int) : Nat := m * 2 ^ (e + pr).toNat % (2 * one)

/-- sin(π·a) (R241, R242). -/
def fpSinpi (a : Fp) : Pre :=
  match a with
  | .nan => { val := .nan }
  | .inf _ => { val := .nan, flags := fINV }
  | .fin neg m e => sinTurn (turn m e) neg neg

/-- cos(π·a) (R241, R242). -/
def fpCospi (a : Fp) : Pre :=
  match a with
  | .nan => { val := .nan }
  | .inf _ => { val := .nan, flags := fINV }
  | .fin _ m e => sinTurn ((turn m e + one / 2) % (2 * one)) false false

/-- a / b (R242). -/
def fpDiv (a b : Fp) : Pre :=
  match a, b with
  | .nan, _ | _, .nan => { val := .nan }
  | .inf _, .inf _ => { val := .nan, flags := fINV }
  | .inf s, .fin t _ _ => { val := .inf (s != t) }
  | .fin s _ _, .inf t => { val := fzero (s != t) }
  | .fin s m e, .fin t n f =>
    if n = 0 then (if m = 0 then { val := .nan, flags := fINV } else { val := .inf (s != t), flags := fDIV })
    else if m = 0 then { val := fzero (s != t) }
    else let q := quot m n; { val := .fin (s != t) q.1 (e - f + q.2.1), sticky := q.2.2 }

/-- √a (R242). -/
def fpSqrt (a : Fp) : Pre :=
  match a with
  | .nan => { val := .nan }
  | .inf s => if s then { val := .nan, flags := fINV } else { val := .inf false }
  | .fin s m e =>
    if m = 0 then { val := fzero s }
    else if s then { val := .nan, flags := fINV }
    else let r := root m e; { val := .fin false r.1 r.2.1, sticky := r.2.2 }

/-- 1 / √a: the root of the exact quotient 1/a, with more bits than a root of its truncation could lose (R242). -/
def fpRsqrt (a : Fp) : Pre :=
  match a with
  | .nan => { val := .nan }
  | .inf s => if s then { val := .nan, flags := fINV } else { val := fzero false }
  | .fin s m e =>
    if m = 0 then { val := .inf s, flags := fDIV }
    else if s then { val := .nan, flags := fINV }
    else
      -- 1/√(m·2^e) = isqrt(2^(2g)/m′)·2^(−g−e′/2), with m′·2^e′ = m·2^e and e′ even
      let odd := e % 2 ≠ 0
      let m' := if odd then 2 * m else m
      let e' := if odd then e - 1 else e
      let n := 2 ^ (2 * guard + 64) / m'
      let r := isqrt n
      { val := .fin false r (-(guard + 32 : Int) - e' / 2),
        sticky := decide (r * r * m' ≠ 2 ^ (2 * guard + 64)) }

end Sys2Proof.Machine
end

