-- ==== Sys2Proof/Machine/FloatOps.lean ====
section
/-!
DEFINITION. Floating arithmetic and class: major 0x08, and `fclass` of major 0x09 (spec/14_isa_compute.md R240 to
R243, R245).
-/
namespace Sys2Proof.Machine

/-- A floating operand after MD's absolute value and negation (R214). -/
def opF (t : Ty) (neg abs : Bool) (x : W64) : Fp := decodeF (fmt t) .nan (signMods t neg abs x).toNat

/-- The operands A, B and C of a floating instruction (R214, R241: C takes no modifier). -/
def opA (f : FmtX) (x : W64) : Fp := opF (ty f.ty) (bits f.md 3 3 == 1) (bits f.md 2 2 == 1) x
def opB (f : FmtX) (x : W64) : Fp := opF (ty f.ty) (bits f.md 1 1 == 1) (bits f.md 0 0 == 1) x
def opC (f : FmtX) (x : W64) : Fp := opF (ty f.ty) false false x

/-- The shared shape of a floating instruction: the exact result rounded once to the type (R240). -/
def fltOp (h : Head) (f : FmtX) (n lat : Nat) (fn : LaneEnv → Fp → Fp → Fp → Pre) : Act Verdict :=
  let t := ty f.ty
  laneOp h f (some t) (if 2 ≤ n then some t else none) (if 3 ≤ n then some t else none) t lat
    (fun env a b c =>
      let r := fn env (opA f a) (opB f b) (opC f c)
      roundRes env t r.val r.sticky r.flags)

/-- An exact value with INV when a NaN was made (R88, R242). -/
def invIf (r : Fp × Bool) : Pre := { val := r.1, flags := if r.2 then fINV else 0 }

/-- a × b + c with one rounding; 0 × ∞ is INV whatever c is (R242). -/
def fpFma (mode : Rnd) (a b c : Fp) : Pre :=
  let p := fpMul a b
  if p.2 then { val := .nan, flags := fINV } else invIf (fpAdd mode p.1 c)

def execFadd (h : Head) (f : FmtX) (s : State) : Out :=
  runX (.fadd h f) h (codesX f) (fltOp h f 2 6 (fun env a b _ => invIf (fpAdd env.rnd a b))) s
def execFsub (h : Head) (f : FmtX) (s : State) : Out :=
  runX (.fsub h f) h (codesX f) (fltOp h f 2 6 (fun env a b _ => invIf (fpAdd env.rnd a (fpNeg b)))) s
def execFmul (h : Head) (f : FmtX) (s : State) : Out :=
  runX (.fmul h f) h (codesX f) (fltOp h f 2 6 (fun _ a b _ => invIf (fpMul a b))) s
def execFfma (h : Head) (f : FmtX) (s : State) : Out :=
  runX (.ffma h f) h (codesX f) (fltOp h f 3 6 (fun env a b c => fpFma env.rnd a b c)) s
def execFdiv (h : Head) (f : FmtX) (s : State) : Out :=
  runX (.fdiv h f) h (codesX f) (fltOp h f 2 20 (fun _ a b _ => fpDiv a b)) s
def execFsqrt (h : Head) (f : FmtX) (s : State) : Out :=
  runX (.fsqrt h f) h (codesX f) (fltOp h f 1 20 (fun _ a _ _ => fpSqrt a)) s
def execFrcp (h : Head) (f : FmtX) (s : State) : Out :=
  runX (.frcp h f) h (codesX f) (fltOp h f 1 20 (fun _ a _ _ => fpDiv (ofInt 1) a)) s
def execFrsq (h : Head) (f : FmtX) (s : State) : Out :=
  runX (.frsq h f) h (codesX f) (fltOp h f 1 20 (fun _ a _ _ => fpRsqrt a)) s
def execFexp2 (h : Head) (f : FmtX) (s : State) : Out :=
  runX (.fexp2 h f) h (codesX f) (fltOp h f 1 20 (fun _ a _ _ => fpExp2 a)) s
def execFlog2 (h : Head) (f : FmtX) (s : State) : Out :=
  runX (.flog2 h f) h (codesX f) (fltOp h f 1 20 (fun _ a _ _ => fpLog2 a)) s
def execFsinpi (h : Head) (f : FmtX) (s : State) : Out :=
  runX (.fsinpi h f) h (codesX f) (fltOp h f 1 20 (fun _ a _ _ => fpSinpi a)) s
def execFcospi (h : Head) (f : FmtX) (s : State) : Out :=
  runX (.fcospi h f) h (codesX f) (fltOp h f 1 20 (fun _ a _ _ => fpCospi a)) s

/-- −0 is less than +0 in `fmin` and `fmax` (R243). -/
def fpLess (a b : Fp) : Bool :=
  match a, b with
  | .fin s 0 _, .fin t 0 _ => s && !t
  | a, b => fpCmp a b < 0

/-- R243. -/
def fpMin (a b : Fp) : Fp :=
  if a = .nan then b else if b = .nan then a else if fpLess b a then b else a
def fpMax (a b : Fp) : Fp :=
  if a = .nan then b else if b = .nan then a else if fpLess a b then b else a

/-- The code of a value that the format holds exactly. -/
def exactCode (t : Ty) (x : Fp) : W64 := w64 (encodeF (fmt t) .rne 0 true x false).code

/-- A floating instruction that returns one of its operands and sets no flag (R243). -/
def pickOp (h : Head) (f : FmtX) (n : Nat) (fn : Fp → Fp → Fp → Fp) : Act Verdict :=
  let t := ty f.ty
  laneOp h f (some t) (some t) (if 3 ≤ n then some t else none) t 6
    (fun env a b c => plain env (exactCode t (fn (opA f a) (opB f b) (opC f c))))

def execFmin (h : Head) (f : FmtX) (s : State) : Out :=
  runX (.fmin h f) h (codesX f) (pickOp h f 2 (fun a b _ => fpMin a b)) s
def execFmax (h : Head) (f : FmtX) (s : State) : Out :=
  runX (.fmax h f) h (codesX f) (pickOp h f 2 (fun a b _ => fpMax a b)) s
def execFclamp (h : Head) (f : FmtX) (s : State) : Out :=
  runX (.fclamp h f) h (codesX f) (pickOp h f 3 (fun a lo hi => fpMin (fpMax a lo) hi)) s

/-- An integral value under a mode; the sign of a zero result is kept (R241). -/
def integral (mode : Rnd) (st : W32) (x : Fp) : Fp :=
  match x with
  | .fin neg m e => if m = 0 then x else .fin neg (roundTo mode st neg m e 0 false).1 0
  | y => y

/-- `ffloor`, `fceil`, `ftrunc`, `fround`: no flag (R241); under RSS `fround` steps the state (R86). -/
def roundOp (h : Head) (f : FmtX) (fixed : Option Rnd) : Act Verdict :=
  let t := ty f.ty
  laneOp h f (some t) none none t 6 (fun env a _ _ =>
    match fixed with
    | some r => plain env (exactCode t (integral r 0 (opA f a)))
    | none =>
      let st := stepRss env.rnd env.rss
      { val := exactCode t (integral env.rnd st (opA f a)), rss := st })

def execFfloor (h : Head) (f : FmtX) (s : State) : Out :=
  runX (.ffloor h f) h (codesX f) (roundOp h f (some .rdn)) s
def execFceil (h : Head) (f : FmtX) (s : State) : Out :=
  runX (.fceil h f) h (codesX f) (roundOp h f (some .rup)) s
def execFtrunc (h : Head) (f : FmtX) (s : State) : Out :=
  runX (.ftrunc h f) h (codesX f) (roundOp h f (some .rtz)) s
def execFround (h : Head) (f : FmtX) (s : State) : Out :=
  runX (.fround h f) h (codesX f) (roundOp h f none) s

/-- The class of a code, as a bit number (R245). -/
def classBit (t : Ty) (code : Nat) : Nat :=
  let f := fmt t
  let m := code % 2 ^ f.mb
  match decodeF f .nan code with
  | .nan => if f.style = .ieee ∧ m < 2 ^ (f.mb - 1) then 8 else 9
  | .inf s => if s then 0 else 7
  | .fin s k _ =>
    if k = 0 then (if s then 3 else 4)
    else if code / 2 ^ f.mb % 2 ^ f.eb = 0 then (if s then 2 else 5)
    else (if s then 1 else 6)

def execFclass (h : Head) (f : FmtX) (s : State) : Out :=
  runX (.fclass h f) h (codesX f) (laneOp h f (some (ty f.ty)) none none .n32 6
    (fun env a _ _ => plain env (w64 (2 ^ classBit (ty f.ty) a.toNat)))) s

end Sys2Proof.Machine
end

