-- ==== Sys2Proof/Machine/Atoms.lean ====
section
/-!
DEFINITION. The operations of atomics and reductions on values (spec/15_isa_memory.md R272 to R274), and the
fold of the lanes that name one address (spec/06_model_near.md R111).
-/
namespace Sys2Proof.Machine

/-- One channel of `blend` (R274). -/
def blendChan (s d a : Nat) : Nat :=
  let t := s * a + d * (255 - a) + 128
  (t + t / 256) / 256 % 256

/-- Source-over of RGBA8 pixels (R274). -/
def blendOf (dst src : W64) : W64 :=
  let byte := fun (x : W64) (i : Nat) => ((x >>> (8 * i)).setWidth 8).toNat
  let a := byte src 3
  w64 (blendChan (byte src 0) (byte dst 0) a + 256 * blendChan (byte src 1) (byte dst 1) a +
    65536 * blendChan (byte src 2) (byte dst 2) a + 16777216 * blendChan 255 (byte dst 3) a)

/-- op(m, v) by the operation code of R272 (R273). -/
def atomVal (op : Nat) (t : Ty) (m v : W64) : W64 :=
  let dec := fun (x : W64) => decodeF (fmt t) .nan x.toNat
  if isFlt t then
    match op with
    | 0 => w64 (encodeF (fmt t) .rne 0 true (fpAdd .rne (dec m) (dec v)).1 false).code
    | 1 => exactCode t (fpMin (dec m) (dec v))
    | 2 => exactCode t (fpMax (dec m) (dec v))
    | _ => v
  else
    match op with
    | 0 => onInts (fun x y _ => x + y) t m v 0
    | 1 => onInts (fun x y _ => if x ≤ y then x else y) t m v 0
    | 2 => onInts (fun x y _ => if x ≤ y then y else x) t m v 0
    | 3 => m &&& v
    | 4 => m ||| v
    | 5 => m ^^^ v
    | 6 => v
    | _ => blendOf m v

/-- The fold of the operands v1 … vk of one address over an old value o (R111): the new value, and each lane's old
value. `exch` leaves the last operand, and each lane gets the one before its own. -/
def foldLanes (op : Nat) (t : Ty) (o : W64) (vs : List W64) : W64 × List W64 :=
  if op = 6 then (vs.getLastD o, (o :: vs).take vs.length)
  else
    match vs with
    | [] => (o, [])
    | v :: r =>
      let go := r.foldl (fun (p : W64 × List W64) x =>
        (atomVal op t p.1 x, p.2 ++ [atomVal op t o p.1])) (v, [o])
      (atomVal op t o go.1, go.2)

end Sys2Proof.Machine
end

