-- ==== Sys2Proof/Machine/Locks.lean ====
section
/-!
DEFINITION. The lock tables of the home slices (spec/08_line_locks.md R131 to R148).
-/
namespace Sys2Proof.Machine

/-- The identity of the owner of a lock as OWNER holds it (R131): its logical core is that on which the wave was granted the lock,
or on which it waited when the lock was reserved for it, for the table changes, and the mirror with it, at those changes alone
(DEDUCED, log 70). -/
def ownerWord (d : Dev) (l : Option Lock) : W64 :=
  match l.bind (fun e => e.owner.map (fun w => (w, e.core))) with
  | none => 0
  | some (w, core) =>
    let x := waveOf d w
    (w64 (x.ctx % 65536) <<< 48) ||| (w64 (core % 256) <<< 40) ||| (w64 (x.widx % 16) <<< 36) ||| 1

/-- The low word of QSTATE while the line serves as a lock (R132). -/
def qstateWord (l : Option Lock) : W64 :=
  match l with
  | none => 0
  | some e => w64 (e.queue.length % 65536) ||| bitAt e.locked 16 ||| bitAt e.reserved 17 ||| bitAt e.broken 18

/-- The mirror of a lock in its line: OWNER and QSTATE, bytes 24 to 63 (R131, R132). -/
def mirrorBytes (d : Dev) (l : Option Lock) : List Byte :=
  leBytes 8 (ownerWord d l) ++ leBytes 8 (qstateWord l) ++ List.replicate 24 0

/-- An entry that is free, with no waiter and not BROKEN, is freed (R132). -/
def normLock (e : Lock) : Option Lock := if !e.locked && e.queue.isEmpty && !e.broken then none else some e

/-- Change a lock's entry and its mirror, with no write of the line (R131, R147). -/
def setLock (d : Dev) (n : Nat) (e : Lock) : Dev :=
  let d1 := modLine d n (fun l => { l with lock := normLock e, hostCopy := false })
  wrBytes d1 (n * 64 + 24) (mirrorBytes d1 (normLock e))

/-- Change a lock's entry and its mirror as a write of the line: a grant, an unlock, a break (R137, R147). -/
def writeLock (m : Memory) (d : Dev) (who : Who) (n : Nat) (e : Lock) : Dev :=
  let d1 := modLine d n (fun l => { l with lock := normLock e })
  sealWrite m d1 who (n * 64 + 24) (mirrorBytes d1 (normLock e))

/-- Table entries and queue entries of a logical bank (R140). -/
def bankLocks (d : Dev) (bank : Nat) : List Lock := (d.lines.filterMap (fun p => p.2.lock)).filter (fun e => e.bank == bank)
def bankWaiters (d : Dev) (bank : Nat) : Nat := (bankLocks d bank).foldl (fun n e => n + e.queue.length) 0

/-- The entry of a line, made on first use, taking BROKEN from the mirror (R131, R135); none when the bank's table is
full (R140). -/
def lockEntry (m : Memory) (d : Dev) (n bank : Nat) : Option Lock :=
  match (lineOf d n).lock with
  | some e => some e
  | none =>
    if 4096 ≤ (bankLocks d bank).length then none
    else some { bank := bank, broken := (rd64 m d (n * 64 + 32)).getLsbD 18 }

/-- The hold deadline of a grant to a wave (R143). -/
def holdDeadline (d : Dev) (w : Nat) : Option Nat :=
  let k := (setOf d (waveOf d w).set).lhold.toNat
  if k = 0 then none else some (d.cycle + 2 ^ k)

/-- Grant a lock to a wave whose instruction had an active mask (R135): the status, with BROKEN if it applies. The wave makes
a `.dev` acquire, holds the line, and gets it in its L1 under a lease. The list of four is checked when a lock is asked for (R134): splits
of one wave that queued while it held three locks are all granted theirs, and the list passes four (DESIGN CHOICE, log 70). -/
def grantLock (m : Memory) (d : Dev) (n : Nat) (e : Lock) (w va : Nat) (mask : W32) (clock : Nat) : Dev × W64 :=
  let status := bitAt e.broken 4
  let e1 : Lock := { e with locked := true, reserved := false, broken := false, owner := some w, core := vcoreOf d (waveOf d w) }
  let d1 := acquireStamps d n w .dev
  let x := waveOf d1 w
  let d2 := setWave d1 w { x with held := x.held ++ [⟨n, va, mask, holdDeadline d w⟩] }
  let d3 := writeLock m d2 ⟨some w, clock⟩ n e1
  let (d4, c) := homeLease m d3 n (waveOf d3 w).vstamp
  let y := waveOf d4 w
  (if y.fo then d4 else keepCopy d4 (.l1 (pcore d4 (vcoreOf d4 y))) c, status)

/-- Grant and wake a waiter (R135, R162). -/
def grantWaiter (m : Memory) (d : Dev) (n : Nat) (e : Lock) (q : Waiter) (clock : Nat) : Dev :=
  let (d1, st) := grantLock m d n e q.wave q.va q.mask clock
  wake d1 q.wave q.split [(0, st)] clock

/-- Choose the next holder from the queue (R137): the first resident waiter, unless a waiter passed over four times
stands before it. `ahead` are those already passed. -/
def nextWaiter : List Waiter → List Waiter → Option (Waiter × List Waiter × Bool)
  | _, [] => none
  | ahead, q :: r =>
    if !q.away then some (q, (ahead.reverse.map (fun p => { p with passes := p.passes + 1 })) ++ r, true)
    else if q.passes = 4 then some (q, ahead.reverse ++ q :: r, false)
    else nextWaiter (q :: ahead) r

/-- Hand a lock on (R137), after its release has moved the stamps. -/
def handOn (m : Memory) (d : Dev) (n : Nat) (e : Lock) (who : Who) : Dev :=
  let reserve := fun (q : Waiter) => writeLock m d who n
    { e with locked := true, reserved := true, owner := some q.wave, core := vcoreOf d (waveOf d q.wave), split := q.split, clock := who.clock }
  match nextWaiter [] e.queue with
  | some (q, rest, true) => grantWaiter m (writeLock m d who n { e with queue := rest }) n { e with queue := rest } q who.clock
  | some (q, _, false) => reserve q
  | none =>
    match e.queue with
    | q :: _ => reserve q
    | [] => writeLock m d who n { e with locked := false, reserved := false, owner := none }

/-- Remove a line from a wave's held list. -/
def dropHeld (d : Dev) (w n : Nat) : Dev :=
  let x := waveOf d w
  setWave d w { x with held := x.held.filter (fun h => h.line ≠ n) }

/-- `unlock` at the home (R137). -/
def unlockLine (m : Memory) (d : Dev) (w n clock : Nat) : Dev :=
  match (lineOf d n).lock with
  | none => dropHeld d w n
  | some e =>
    let d0 := recallLine d n
    let d1 := releaseStamps d0 n .dev (some w) (waveOf d0 w).vstamp
    handOn m (dropHeld d1 w n) n e ⟨some w, clock⟩

/-- Break a lock (R145): the holder's writes are drained; then a `.dev` release of the holder at its death, BROKEN, and the
lock handed on. -/
def breakLock (m : Memory) (d : Dev) (w n clock : Nat) : Dev :=
  match (lineOf d n).lock with
  | none => dropHeld d w n
  | some e =>
    let d0 := recallLine (drainGrants d w .dev) n
    let d1 := releaseStamps d0 n .dev (some w) (waveOf d0 w).vstamp
    handOn m (dropHeld d1 w n) n { e with broken := true } ⟨none, clock⟩

/-- Whether a lock is reserved for a waiter (R141). -/
def reservedFor (e : Lock) (w sp : Nat) : Bool := e.reserved && e.owner == some w && e.split == sp

/-- Remove the waiters that `gone` names, by wave and split, from every queue (R144, R145); a reservation for one is dropped
and R137 is run again (R148), at the clock of the unlock that had reserved the lock. -/
def dropWhere (m : Memory) (d : Dev) (gone : Nat → Nat → Bool) : Dev :=
  d.lines.foldl (fun d p =>
    match (lineOf d p.1).lock with
    | some e =>
      if e.queue.any (fun q => gone q.wave q.split) then
        let e1 := { e with queue := e.queue.filter (fun q => !gone q.wave q.split) }
        if e.queue.any (fun q => gone q.wave q.split && reservedFor e q.wave q.split) then handOn m d p.1 e1 ⟨none, e.clock⟩
        else setLock d p.1 e1
      else d
    | none => d) d

/-- Remove a waiting split from every queue. -/
def dropWaiter (m : Memory) (d : Dev) (w sp : Nat) : Dev := dropWhere m d (fun a b => a == w && b == sp)

/-- Break every lock of a wave that ends or whose context is destroyed (R145, R146). -/
def breakLocks (m : Memory) (d : Dev) (w clock : Nat) : Dev :=
  (waveOf d w).held.foldl (fun d hl => breakLock m d w hl.line clock) d

/-- The locks that a wave held when its launch failed are broken once every write that it had issued has reached its home, those
posted to peers among them (R115, R145). The grantee of a lock broken so wakes as after an event of clock 0 (DESIGN CHOICE, log
70). -/
def lateBreaks (m : Memory) (d : Dev) (w : Nat) : Dev :=
  if (waveOf d w).live || !(waveOf d w).posted.isEmpty then d else breakLocks m d w 0

end Sys2Proof.Machine
end

