-- ==== Sys2Proof/Machine/Pages.lean ====
section
/-!
DEFINITION. Pages of the operand stores (spec/03_operand_stores.md R37 to R54) and their pending-operation
logs (spec/04_pending_logs.md R55 to R68).
-/
namespace Sys2Proof.Machine

/-- The number of a store in addresses and records (R43, R44). -/
def storeNo : StoreId → Nat
  | .s => 0 | .a => 1 | .w => 2 | .c => 3
def storeOf (n : Nat) : StoreId :=
  match n % 4 with
  | 0 => .s | 1 => .a | 2 => .w | _ => .c

/-- The place of a page in a stage set's list. -/
def findPage (t : StageSet) (st : StoreId) (idx : Nat) : Option Nat :=
  t.pages.findIdx? (fun p => p.store == st && p.idx == idx)

def noPage : Page := { store := .s, idx := 0, gen := 0, st := .nonResident }
def pageOf (d : Dev) (t pi : Nat) : Page := nth (setOf d t).pages pi noPage
def setPage (d : Dev) (t pi : Nat) (p : Page) : Dev :=
  let x := setOf d t
  setSet d t { x with pages := nthSet x.pages pi p }
def modPage (d : Dev) (t pi : Nat) (f : Page → Page) : Dev := setPage d t pi (f (pageOf d t pi))

/-- Pages of an allocation in a store (R17). -/
def allocPages (t : StageSet) (st : StoreId) : Nat := (t.pages.filter (fun p => p.store == st)).length

/-- The frames of a store on a core (R35, R52). -/
def framesOf (d : Dev) (core : Nat) : StoreId → Nat
  | .s => 64 - 8 * (coreOf d core).carve
  | _ => 128

/-- The (set, page) pairs of a core. -/
def corePages (d : Dev) (core : Nat) : List (Nat × Nat) :=
  d.sets.zipIdx.flatMap (fun p =>
    if pcore d p.1.vcore = core then (List.range p.1.pages.length).map (fun i => (p.2, i)) else [])

/-- The frames of a store that hold pages. -/
def usedFrames (d : Dev) (core : Nat) (st : StoreId) : List Nat :=
  (corePages d core).filterMap (fun p =>
    let g := pageOf d p.1 p.2
    if g.store = st ∧ g.st ≠ .nonResident then some g.frame else none)

/-- The free frame that a fill or a new page takes: the manual says any (R53); the model takes the lowest (DESIGN CHOICE,
log 56). -/
def freeFrame (d : Dev) (core : Nat) (st : StoreId) : Option Nat :=
  let u := usedFrames d core st
  (List.range (framesOf d core st)).find? (fun f => !u.contains f)

/-- Whether a set's context runs on its core. -/
def setResident (d : Dev) (t : Nat) : Bool := (clusterOf d (setOf d t).cluster).res == .resident
/-- Whether a set has a live wave. -/
def setAlive (d : Dev) (t : Nat) : Bool := (setOf d t).waves.any (fun w => (waveOf d w).live)

/-- The bytes of a page. -/
def pageBytesAt (p : Page) (off n : Nat) : List Byte := (List.range n).map (fun i => look 0 p.data (off + i))
def pagePut (p : Page) (off : Nat) (bs : List Byte) : Page :=
  { p with data := (bs.zipIdx.foldl (fun t b => put 0 t (off + b.2) b.1) p.data), dirty := true }

/-- The granule of an offset within a page (R45). -/
def granOf (off : Nat) : Nat := off / 16
def bit256 (g : Nat) : BitVec 256 := 1#256 <<< g

/-! ### Backing (R43). -/

/-- The die of a stage set. -/
def setDie (d : Dev) (t : Nat) : Nat := dieOf d (lclOf (setOf d t).vcore)

/-- Whether a page's log holds operations, or held one that has been lost (R44, R68). -/
def logged (p : Page) : Bool := !p.log.isEmpty || p.logBad

/-- The offset of a page's data, and of its full/empty bits, in its backing region (R43). -/
def dataOff (p : Page) : Nat := (128 * storeNo p.store + p.idx) * 4096
def bitsOff (p : Page) : Nat := 0x200000 + (128 * storeNo p.store + p.idx) * 32

/-- The key of a byte of a set's backing region: in the context's translation, or in the backing pool (R383). -/
def backKey (m : Memory) (d : Dev) (t : Nat) (off : Nat) (acc : Access) : Except Trap (Nat × Dev) :=
  let x := setOf d t
  match x.pool with
  | some _ => .ok (x.back + off, d)
  | none =>
    match walkVa m d (setDie d t) x.ctx (x.back + off) acc with
    | .error e => .error e
    | .ok (l, d') => .ok (leafKey l, d')

/-- The key of a page's data in its backing: its mapped range, or the region (R43, R49). -/
def dataKey (m : Memory) (d : Dev) (t : Nat) (p : Page) (acc : Access) : Except Trap (Nat × Dev) :=
  match p.mapped with
  | some mp =>
    match walkVa m d (setDie d t) (setOf d t).ctx mp.va acc with
    | .error e => .error e
    | .ok (l, d') => .ok (leafKey l, d')
  | none => backKey m d t (dataOff p) acc

def bitsKey (m : Memory) (d : Dev) (t : Nat) (p : Page) (acc : Access) : Except Trap (Nat × Dev) :=
  backKey m d t (bitsOff p) acc

/-- The open episode that a page's fill is in, by the address that failed (R28, R43). -/
def fillEpisode (d : Dev) (t pi : Nat) : Option (Nat × Episode) :=
  let x := setOf d t
  let p := pageOf d t pi
  let at_ := fun (va : Nat) => (episodeAt d (setDie d t) x.ctx va).map (fun e => (va, e))
  match p.mapped, x.pool with
  | some mp, some _ => at_ mp.va
  | some mp, none => (at_ mp.va).orElse (fun _ => at_ (x.back + bitsOff p))
  | none, none => (at_ (x.back + dataOff p)).orElse (fun _ => at_ (x.back + bitsOff p))
  | none, some _ => none

/-- Write a run of bytes as an engine, line by line. -/
def engineBytes (m : Memory) (d : Dev) (k : Nat) (bs : List Byte) : Dev :=
  (List.range ((bs.length + 63) / 64)).foldl (fun d i =>
    agentWrite m d whoEngine (k + 64 * i) ((bs.drop (64 * i)).take 64)) d

/-- The 32 bytes of a page's full/empty bits: granule g at bit g mod 8 of byte g/8 (R43). -/
def fullBytes (x : BitVec 256) : List Byte := (List.range 32).map (fun i => x.extractLsb' (8 * i) 8)
def fullFrom (bs : List Byte) : BitVec 256 :=
  bs.zipIdx.foldl (fun (x : BitVec 256) b => x ||| (b.1.setWidth 256).shiftLeft (8 * b.2)) 0#256

/-- A fault of a fill or write-back: a FILL_FAULT record and an episode, on the owning context (R43, R199, R201). -/
def fillFault (m : Memory) (d : Dev) (t : Nat) (e : Trap) : Dev :=
  let x := setOf d t
  let r : Trap := { cause := cFILLFAULT, sub := e.cause, addr := e.addr, info0 := e.info0, info1 := e.info1 }
  let (d1, opened) := joinEpisode d (setDie d t) x.ctx r []
  if opened then
    writeRecord m d1 x.ctx (recordWords d1 x.ctx none 0 0 r { external := true, replay := true })
  else d1

/-- A fill has failed: the splits that wait in `ldfe` for granules of its page are replayable, in the episode of the fault, and
are to issue again (R28, R201); one that waits in place joins it as it issues. -/
def fillFailed (m : Memory) (d : Dev) (t pi : Nat) (e : Trap) : Dev :=
  let d1 := fillFault m d t e
  let waits := fun (p : Nat × Nat) => match (splitOf (waveOf d1 p.1) p.2).park with
    | .ldfe _ _ want => want.any (fun w => w.set == t && w.pg == pi)
    | _ => false
  (allSplits d1).foldl (fun d p =>
    if waits p then
      let d2 := (joinEpisode d (setDie d t) (setOf d t).ctx { e with cause := cFILLFAULT, sub := e.cause } [p.1]).1
      modSplit d2 p.1 p.2 (fun q => { q with park := .replay })
    else d) d1

/-- The granules of the 4 KiB at a key whose lines read with an uncorrectable error (R68, R379). -/
def backPoison (d : Dev) (k : Nat) : BitVec 256 :=
  (List.range 256).foldl (fun x g => if d.poison.contains ((k + 16 * g) / 64) then x ||| bit256 g else x) 0#256

/-- The count of lasting faults of the region of HBM4 in which a line lies (R379, log 71). -/
def regionKey (line : Nat) : Nat := 8 * (Config.hbmRegion line).1 + 3

/-- Whether a line lies in a region of HBM4 that has failed a second time: it reads with poison, whatever is written (R379). -/
def deadLine (d : Dev) (line : Nat) : Bool := decide (line < hostKey / 64) && decide (2 ≤ look 0 d.lastingAt (regionKey line))

/-- The lines of the 4 KiB at a key, written whole: those of poisoned granules carry ECC poison, the others none (R68). -/
def putPoison (d : Dev) (k : Nat) (x : BitVec 256) : Dev :=
  let bad := (List.range 64).filter (fun n => (List.range 4).any (fun j => x.getLsbD (4 * n + j)))
  { d with poison := bad.map (k / 64 + ·) ++ d.poison.filter (fun n => deadLine d n || !(decide (k / 64 ≤ n) && decide (n < k / 64 + 64))) }

/-- Write data and full/empty bits of a page to its backing; a mapped page takes its poison with it (R43, R68). -/
def putBacking (m : Memory) (d : Dev) (p : Page) (k b : Nat) : Dev :=
  let d1 := engineBytes m (engineBytes m d k (pageBytesAt p 0 4096)) b (fullBytes p.full)
  putPoison d1 k (if p.mapped.isSome then p.poison else 0)

/-- Write a page back to its backing: data, full/empty bits, and ECC poison of a mapped page (R39, R43, R68). -/
def writeBack (m : Memory) (d : Dev) (t pi : Nat) : Except Trap Dev :=
  let p := pageOf d t pi
  if !p.dirty then .ok d
  else
    match dataKey m d t p .write with
    | .error e => .error e
    | .ok (k, d1) =>
      match bitsKey m d1 t p .write with
      | .error e => .error e
      | .ok (b, d2) =>
        .ok (modPage (putBacking m d2 p k b) t pi (fun p => { p with dirty := false }))

/-! ### Log entries (R59 to R63). -/

/-- The operation code of R272 for a log kind (R60). -/
def kindOp (k : Nat) : Nat :=
  match k with
  | 2 => 0 | 3 => 1 | 4 => 2 | 5 => 3 | 6 => 4 | 7 => 5 | 8 => 0 | 9 => 1 | 10 => 2 | _ => 7

/-- The log kind of a reduction (R55, R60). -/
def redKind (op : Nat) (t : Ty) : Nat :=
  if op = 6 then 0 else if op = 7 then 11 else if isFlt t then 8 + op else 2 + op

def szOf (n : Nat) : BitVec 4 :=
  match n with
  | 1 => 0 | 2 => 1 | 4 => 2 | 8 => 3 | _ => 4

/-- Whether an entry touches a byte of its page. -/
def entryHas (e : LogEntry) (b : Nat) : Bool :=
  b / 16 == e.gran.toNat &&
    (if e.kind = 1 then e.operand.getLsbD (b % 16)
     else decide (e.off.toNat ≤ b % 16) && decide (b % 16 < e.off.toNat + 2 ^ e.sz.toNat))

/-- The bytes of a page that an entry touches. -/
def entryBytes (e : LogEntry) : List Nat := ((List.range 16).map (fun i => e.gran.toNat * 16 + i)).filter (entryHas e)

/-- The byte that an ST or GW entry writes at a place. -/
def entryByte (e : LogEntry) (b : Nat) : Byte :=
  if e.kind = 1 ∨ e.sz = 4 then nth e.ext (b % 16) 0
  else (e.operand >>> (8 * (b % 16 - e.off.toNat))).setWidth 8

/-- Apply an entry to a page, as the operation would have acted directly (R60, R64). `pub` says that the entry's copy
has been published, or that it has none. -/
def applyEntry (p : Page) (e : LogEntry) (pub : Bool) : Page :=
  let g := e.gran.toNat
  match e.kind.toNat with
  | 0 =>
    let q := (entryBytes e).foldl (fun p b => pagePut p b [entryByte e b]) p
    if e.sz = 4 then { q with poison := q.poison &&& ~~~(bit256 g) } else q
  | 1 =>
    let q := (entryBytes e).foldl (fun p b => pagePut p b [entryByte e b]) p
    let q1 := if e.operand = 0xFFFF then { q with poison := q.poison &&& ~~~(bit256 g) } else q
    if pub then { q1 with full := q1.full ||| bit256 g } else q1
  | k =>
    let n := 2 ^ e.sz.toNat
    let off := g * 16 + e.off.toNat
    pagePut p off (leBytes n (atomVal (kindOp k) (ty e.ty) (leWord (pageBytesAt p off n)) e.operand))

/-- The effects of a copy wait for its publication (R163). -/
def copyHeld (d : Dev) (c : Copy) : Bool := (waveOf d c.wave).fo && (waveOf d c.wave).live

/-- Whether an entry's full bit may be set at its application (R64): a copy whose granules it holds has been published, or does not
wait for that. -/
def entryPublished (d : Dev) (e : LogEntry) : Bool :=
  e.copies.isEmpty || e.copies.any (fun c => (d.copies[c]?).elim true (fun x => x.published || !copyHeld d x))

/-- The entries of a log in the order in which they were appended (R49). -/
def byAppend (es : List LogEntry) : List LogEntry := sortBy (fun a b => decide (a.seq ≤ b.seq)) es

/-- The page with some entries applied, its log and segments freed (R64). Where a slot of the log was lost, every granule is
poisoned when the readable entries have been applied (R68). -/
def appliedLog (d : Dev) (p : Page) (es : List LogEntry) : Page :=
  let q := es.foldl (fun p e => applyEntry p e (entryPublished d e)) p
  { q with log := [], segs := [], logBad := false, poison := if p.logBad then ~~~0#256 else q.poison }

/-- Keys compare field by field (R63). -/
def keyListLt : List Nat → List Nat → Bool
  | [], _ => false
  | _ :: _, [] => false
  | a :: r, b :: s => decide (a < b) || (a == b && keyListLt r s)

/-- The slots an entry takes (R57). -/
def slotsOf (e : LogEntry) : Nat := if e.kind = 1 ∨ e.sz = 4 then 2 else 1

/-- Segments of a core's buffer that are taken (R57). -/
def usedSegs (d : Dev) (core : Nat) : Nat :=
  (corePages d core).foldl (fun n p => n + (pageOf d p.1 p.2).segs.length) 0

/-- Take slots in a page's chain: in its last segment if they fit, else in a new one (R57); none when the buffer is
full. -/
def takeSlots (d : Dev) (core : Nat) (segs : List Nat) (n : Nat) : Option (List Nat) :=
  match segs.reverse with
  | s :: r => if s + n ≤ 31 then some (r.reverse ++ [s + n])
              else if usedSegs d core < 128 then some (segs ++ [n]) else none
  | [] => if usedSegs d core < 128 then some [n] else none

/-- The host's copies of the lines of some bytes of a mapped page are back-invalidated (R363). -/
def hostForgets (d : Dev) (t pi off n : Nat) : Dev :=
  match (pageOf d t pi).mapped with
  | none => d
  | some mp => (List.range n).foldl (fun d i => forgetHost d (lineNo (mp.key + off + i))) d

/-- Change some bytes of a page in its frame (R42, R363). -/
def changePage (d : Dev) (t pi off n : Nat) (f : Page → Page) : Dev := modPage (hostForgets d t pi off n) t pi f

/-- A line of global memory comes under a mapped page's registration (R49): a grant is recalled, no copy stays under a
read lease, and the host's is back-invalidated (R363). -/
def registerLine (d : Dev) (n : Nat) : Dev :=
  let d1 := forgetHost (dropCopies (recallLine d n) n (fun _ => true)) n
  { d1 with waves := d1.waves.map (fun w => { w with leaseSet := w.leaseSet.filter (fun c => c.line ≠ n) }) }

/-- The lines of a page that is mapped and not registered yet come under its registration (R49). -/
def registerPage (d : Dev) (p : Page) : Dev :=
  match p.mapped with
  | some mp =>
    if p.st = .nonResident && !logged p then
      (List.range 64).foldl (fun d n => registerLine d (lineNo (mp.key + 64 * n))) d
    else d
  | none => d

/-- The copies whose writes of a granule an entry holds: its own, and those of the GW entries whose place it takes (R62, R64). -/
def coveredCopies (e : LogEntry) (gone : List LogEntry) : List Nat :=
  (e.copies ++ (gone.filter (fun o => o.kind = 1)).flatMap (·.copies)).eraseDups

/-- Append an operation to a page's log (R58, R62, R63, R65); none when it would pass the cap or finds no slot. In FO mode
it follows every entry whose key is not greater: lanes of one instruction share a key and keep their order. -/
def appendLog (d0 : Dev) (t pi : Nat) (fo : Bool) (e0 : LogEntry) : Option Dev :=
  let p := pageOf d0 t pi
  let d := { registerPage d0 p with seq := d0.seq + 1 }
  let e := { e0 with seq := d0.seq }
  let x := setOf d t
  let (before, later) := if fo then (p.log.filter (fun o => !keyListLt e.key o.key), p.log.filter (fun o => keyListLt e.key o.key))
    else (p.log, [])
  let mine := entryBytes e
  let pred := before.reverse.findIdx? (fun o => (entryBytes o).any mine.contains)
  let same := fun (o : LogEntry) => o.kind == e.kind && o.gran == e.gran && o.off == e.off && o.sz == e.sz && o.ty == e.ty
  let k := e.kind.toNat
  let combines := (2 ≤ k && k ≤ 7) || (k == 8 && !fo)
  match pred.bind (fun i => let j := before.length - 1 - i; (before[j]?).bind (fun o => if same o && combines then some (j, o) else none)) with
  | some (j, o) =>
    if 8 * 2 ^ x.logcap.toNat < p.log.length then none
    else
    let o' := { o with operand := atomVal (kindOp k) (ty e.ty) o.operand e.operand, vcore := e.vcore, wave := e.wave, src := e.src }
    some (setPage d t pi { p with log := before.set j o' ++ later })
  | none =>
    let covered := fun (o : LogEntry) => (entryBytes o).all mine.contains
    let gone := fun (o : LogEntry) => (k == 0 && o.kind ≠ 1 && covered o) || (k == 1 && covered o)
    let kept := before.filter (fun o => !gone o)
    let log := kept ++ { e with copies := coveredCopies e (before.filter gone) } :: later
    if 8 * 2 ^ x.logcap.toNat < log.length then none
    else (takeSlots d (pcore d x.vcore) p.segs (slotsOf e)).map (fun segs => setPage d t pi { p with log := log, segs := segs })

/-- Serve a load from a log (R61): each byte from the last entry that touches it, if that is an ST or GW. -/
def loadFromLog (p : Page) (off n : Nat) : Option (List Byte) :=
  if p.log.isEmpty then none
  else ((List.range n).map (fun i => off + i)).mapM (fun b =>
    match p.log.reverse.find? (fun e => entryHas e b) with
    | some e => if e.kind.toNat ≤ 1 then some (entryByte e b) else none
    | none => none)

/-! ### Reclaims and fills (R39 to R42, R64). -/

/-- Write a page back and free its frame (R39, R41). Granules of an unmapped page stay poisoned (R68). -/
def evict (m : Memory) (d : Dev) (t pi : Nat) : Dev :=
  match writeBack m d t pi with
  | .error e => fillFault m d t e
  | .ok d1 => modPage d1 t pi (fun p => { p with
      st := .nonResident, frame := 0, data := [], full := 0, poison := if p.mapped.isSome then 0 else p.poison })

/-- The resident-unpinned page of a core's store whose owner was switched out longest ago (R40). Among pages of one time the
first in order of stage sets and pages; an owner whose last wave ended while it ran counts by that time (DESIGN CHOICE,
log 56). -/
def reclaimable (d : Dev) (core : Nat) (st : StoreId) : Option (Nat × Nat) :=
  (corePages d core).foldl (fun best p =>
    let g := pageOf d p.1 p.2
    if g.store = st ∧ g.st = .unpinned then
      match best with
      | some q => if (setOf d q.1).outAt ≤ (setOf d p.1).outAt then best else some p
      | none => some p
    else best) none

/-- Reclaim a frame of a store when none is free (R40). -/
def reclaim (m : Memory) (d : Dev) (core : Nat) (st : StoreId) : Dev :=
  if (freeFrame d core st).isSome then d
  else match reclaimable d core st with
    | some (t, pi) => evict m d t pi
    | none => d

/-- Begin a fill of a non-resident page (R39, R64): a frame is taken, reclaimed if none is free; without one the
request waits. -/
def startFill (m : Memory) (d : Dev) (t pi : Nat) : Dev :=
  let p := pageOf d t pi
  if p.st ≠ .nonResident then d
  else
    let core := pcore d (setOf d t).vcore
    let d1 := reclaim m d core p.store
    match freeFrame d1 core p.store with
    | some f => modPage (registerPage d1 p) t pi (fun p => { p with st := .filling, frame := f })
    | none => d1

/-! ### Granules that become full (R46). -/

/-- The value of a want, as read from its page. -/
def wantVal (d : Dev) (w : Want) : W64 := leWord (pageBytesAt (pageOf d w.set w.pg) w.off w.n)

/-- Splits parked in `ldfe`, in order of arrival. -/
def ldfeWaiters (d : Dev) : List (Nat × Nat × Nat) :=
  sortBy (fun x y => decide (x.1 ≤ y.1)) ((allSplits d).filterMap (fun p =>
    match (splitOf (waveOf d p.1) p.2).park with
    | .ldfe a _ _ => some (a, p.1, p.2)
    | _ => none))

/-- Serve the readers that wait on a granule, in order of arrival, while it stays full (R46). A poisoned granule is not
served: its reader issues again, at the clock of its wake (R162), and meets the poison (R68). -/
def serveGranule (d : Dev) (t pi g e : Nat) : Dev :=
  (ldfeWaiters d).foldl (fun d q =>
    let s := splitOf (waveOf d q.2.1) q.2.2
    match s.park with
    | .ldfe a clr want =>
      let hit := fun (w : Want) => w.set == t && w.pg == pi && granOf w.off == g
      let mine := want.filter hit
      if mine.isEmpty || !(pageOf d t pi).full.getLsbD g then d
      else if (pageOf d t pi).poison.getLsbD g then
        wakeClock (modSplit d q.2.1 q.2.2 (fun s => { s with park := .running })) q.2.1 q.2.2 e
      else
        let vals := mine.foldl (fun r w => put 0 r w.l (wantVal d w)) s.servedVals
        let rest := want.filter (fun w => !hit w)
        let d1 := if clr then modPage d t pi (fun p => { p with full := p.full &&& ~~~(bit256 g), dirty := true }) else d
        let served := mine.foldl (fun m w => m ||| (1#32 <<< w.l)) s.served
        let d2 := modSplit d1 q.2.1 q.2.2 (fun s => { s with
          served := served, servedVals := vals, park := .ldfe a clr rest })
        if rest.isEmpty then wake d2 q.2.1 q.2.2 vals e else d2
    | _ => d) d

/-- Set a granule full at a clock, and serve what waits on it (R45, R46). -/
def setFull (d : Dev) (t pi g e : Nat) : Dev :=
  serveGranule (modPage d t pi (fun p => { p with
    full := p.full ||| bit256 g, dirty := true, fullClock := put 0 p.fullClock g e })) t pi g e

/-- The poisoned granules of a page (R44, R68): those of a mapped page that is not resident are poisoned in its backing lines. -/
def pagePoison (d : Dev) (p : Page) : BitVec 256 :=
  match p.mapped with
  | some mp => if p.st = .nonResident then p.poison ||| backPoison d mp.key else p.poison
  | none => p.poison

/-- A page as a fill delivers it (R64, R68): from its backing at keys `k` and `b`, with its log applied. -/
def filledPage (m : Memory) (d : Dev) (p : Page) (k b : Nat) (es : List LogEntry) : Page :=
  let data := (rdBytes m d k 4096).zipIdx.foldl (fun t b => put 0 t b.2 b.1) ([] : Sparse Byte)
  appliedLog d { p with
    data := data, full := fullFrom (rdBytes m d b 32), poison := p.poison ||| backPoison d k,
    dirty := logged p || decide (p.poison ≠ 0) } es

/-- The fill of a page completes (R64): backing, log, and the state that R39 gives. -/
def completeFill (m : Memory) (d : Dev) (t pi : Nat) : Dev :=
  let p := pageOf d t pi
  if p.st ≠ .filling then d
  else
    match dataKey m d t p .read with
    | .error e => fillFailed m d t pi e
    | .ok (k, d1) =>
      match bitsKey m d1 t p .read with
      | .error e => fillFailed m d1 t pi e
      | .ok (b, d2) =>
        let d3 := match p.mapped with
          | some _ => (List.range 64).foldl (fun d i => recallFrom d (lineNo (k + 64 * i)) (some (setOf d t).cluster)) d2
          | none => d2
        let q := { filledPage m d3 p k b p.log with
          st := if setResident d3 t && setAlive d3 t then .pinned else .unpinned }
        let d4 := setPage d3 t pi q
        (List.range 256).foldl (fun d g =>
          if q.full.getLsbD g then serveGranule d t pi g (look 0 q.fullClock g) else d) d4

/-- Apply a page's log in place to its backing, and free it (R49, R67): in the order of appends for an access that the home
has forwarded and at the end of an allocation, in apply order where the page's team moves. -/
def logToBacking (m : Memory) (d : Dev) (t pi : Nat) (appends : Bool) : Dev :=
  let p := pageOf d t pi
  if !logged p then d
  else
    match dataKey m d t p .readWrite with
    | .error e => fillFault m d t e
    | .ok (k, d1) =>
      match bitsKey m d1 t p .readWrite with
      | .error e => fillFault m d1 t e
      | .ok (b, d2) =>
        let q := filledPage m d2 p k b (if appends then byAppend p.log else p.log)
        modPage (putBacking m d2 q k b) t pi (fun p => { p with
          log := [], segs := [], logBad := false, fullClock := q.fullClock, poison := if p.mapped.isSome then 0 else q.poison })

/-- Whether the granules of some bytes of a page that is not resident would be poisoned after its fill (R61, R68). -/
def fillPoisons (m : Memory) (d : Dev) (t pi off n : Nat) : Bool :=
  let p := pageOf d t pi
  let back := match dataKey m d t p .read with
    | .ok (k, _) => backPoison d k
    | .error _ => 0
  let q := appliedLog d { p with poison := p.poison ||| back } p.log
  (List.range n).any (fun i => q.poison.getLsbD (granOf (off + i)))

/-! ### Accesses to store pages (R55, R61, R68). -/

/-- What keeps an access from performing: a trap, or a page that must be filled first. -/
inductive Stop where
  | trap (t : Trap)
  | page (t pi : Nat)
  deriving DecidableEq, Repr

/-- An access that performs whole or not at all. -/
abbrev Perf (α : Type) := ReaderT Memory (StateT Dev (Except Stop)) α

/-- Wait for a page (R39, R42): its fill begins, unless its backing is in an open episode, which the wave joins (R28,
R201). -/
def awaitPage (t pi : Nat) : Act Unit := fun m d =>
  match fillEpisode d t pi with
  | some (va, e) =>
    if (pageOf d t pi).st = .filling then
      .error { cause := cFILLFAULT, sub := e.cause, addr := w64 va, info0 := w64 e.base, info1 := w64 e.size }
    else .ok ((), startFill m d t pi)
  | none => .ok ((), startFill m d t pi)

/-- What an instruction still has to do at a page goes directly to it once the page's fill has begun (R65, R359). -/
def forcePage (d : Dev) (t pi : Nat) : Dev :=
  let s := mySplit d
  if s.forced.contains (t, pi) then d else setMySplit d { s with forced := (t, pi) :: s.forced }

/-- Perform an access: none when it must wait for a page first (R39, R42). -/
def perform {α : Type} (x : Perf α) : Act (Option α) := fun m d =>
  match x m d with
  | .ok (a, d') => .ok (some a, d')
  | .error (.trap t) => .error t
  | .error (.page t pi) => (do
      awaitPage t pi
      upd (fun d => forcePage d t pi)
      pure none : Act (Option α)) m d

def liftD {α : Type} (f : Memory → Dev → α × Dev) : Perf α := fun m d => .ok (f m d)
def updP (f : Memory → Dev → Dev) : Perf Unit := fun m d => .ok ((), f m d)
def devP : Perf Dev := get
def stopTrap {α : Type} (t : Trap) : Perf α := throw (.trap t)

/-- POISON at a granule that a lane reads (R68). -/
def checkPoison (t pi off n addr : Nat) : Perf Unit := do
  let d ← devP
  let p := pageOf d t pi
  if (List.range n).any (fun i => p.poison.getLsbD (granOf (off + i))) then
    stopTrap { cause := cPOISON, addr := w64 (addr / 16 * 16) }
  else pure ()

/-- A lane's read of a store page (R42, R55, R61). `logs` says that the log may serve it. -/
def pageRead (t pi off n addr : Nat) (logs : Bool) : Perf (List Byte) := do
  let d ← devP
  let p := pageOf d t pi
  match p.st with
  | .pinned | .unpinned => do
    checkPoison t pi off n addr
    pure (pageBytesAt p off n)
  | .filling => throw (.page t pi)
  | .nonResident =>
    match (if logs then loadFromLog p off n else none) with
    | some bs => fun m d =>
      if fillPoisons m d t pi off n then .error (.trap { cause := cPOISON, addr := w64 (addr / 16 * 16) }) else .ok (bs, d)
    | none => throw (.page t pi)

/-- Append an operation of the split that issues, unless its instruction waits for the page's fill (R55, R65, R359). -/
def logOrWait (t pi : Nat) (e : Dev → LogEntry) : Perf Unit := do
  let d ← devP
  if (mySplit d).forced.contains (t, pi) then throw (.page t pi)
  else match appendLog d t pi (me d).fo (e d) with
    | some d' => updP (fun _ _ => d')
    | none => throw (.page t pi)

/-- A log entry of the split that issues (R59, R63). -/
def laneEntry (d : Dev) (kind : Nat) (t : Ty) (off : Nat) (v : W64) (bs : List Byte) : LogEntry :=
  let x := me d
  let s := mySplit d
  let k := keyOf x d.cur.2
  { operand := if bs.length = 16 then 0 else v, clock := BitVec.ofNat 24 s.clock, kind := BitVec.ofNat 4 kind,
    ty := BitVec.ofNat 4 (tyCode t), vcore := BitVec.ofNat 8 (vcoreOf d x), wave := BitVec.ofNat 4 x.widx, src := 0,
    gran := BitVec.ofNat 8 (granOf off), off := BitVec.ofNat 4 (off % 16), sz := szOf bs.length,
    ext := if bs.length = 16 then bs else [], key := [k.clock, k.vidx, k.ord], seq := 0, copies := [] }

/-- A lane's write of a store page (R42, R55). A 16-byte write clears its granule's poison (R68). -/
def pageWrite (t pi off : Nat) (ty : Ty) (bs : List Byte) : Perf Unit := do
  let d ← devP
  match (pageOf d t pi).st with
  | .pinned | .unpinned => updP (fun _ d => changePage d t pi off bs.length (fun p =>
      let q := pagePut p off bs
      if bs.length = 16 then { q with poison := q.poison &&& ~~~(bit256 (granOf off)) } else q))
  | .filling => throw (.page t pi)
  | .nonResident => logOrWait t pi (fun d => laneEntry d 0 ty off (leWord bs) bs)

/-- A lane's reduction on a store page (R55, R110). -/
def pageRed (t pi off op : Nat) (ty : Ty) (v : W64) (addr : Nat) : Perf Unit := do
  let d ← devP
  let n := tyBytes ty
  match (pageOf d t pi).st with
  | .pinned | .unpinned => do
    checkPoison t pi off n addr
    updP (fun _ d => changePage d t pi off n (fun p =>
      pagePut p off (leBytes n (atomVal op ty (leWord (pageBytesAt p off n)) v))))
  | .filling => throw (.page t pi)
  | .nonResident => logOrWait t pi (fun d => laneEntry d (redKind op ty) ty off v (leBytes n v))

/-- The granule of a page, ready for a full/empty operation (R47). -/
def pageReady (t pi : Nat) : Perf Unit := do
  let d ← devP
  match (pageOf d t pi).st with
  | .pinned | .unpinned => pure ()
  | .filling | .nonResident => throw (.page t pi)

/-! ### Pages mapped onto global memory (R48, R49). -/

/-- The page registered at a key of device memory: resident, filling, or non-resident with a log (R49). -/
def mappedAt (d : Dev) (k : Nat) : Option (Nat × Nat) :=
  d.sets.zipIdx.findSome? (fun p =>
    if p.1.live then
      (p.1.pages.findIdx? (fun g =>
        match g.mapped with
        | some mp => mp.key == k / 4096 * 4096 && (g.st ≠ .nonResident || logged g)
        | none => false)).map (fun i => (p.2, i))
    else none)

/-- Pool regions and allocations that a set holds end with it (R39, R67): mapped pages are written back, with their
logs; every page is discarded. -/
def endAllocation (m : Memory) (d : Dev) (t : Nat) : Dev :=
  let d1 := (List.range (setOf d t).pages.length).foldl (fun d pi =>
    let p := pageOf d t pi
    if p.mapped.isSome then
      match p.st with
      | .nonResident => logToBacking m d t pi true
      | .filling => logToBacking m d t pi true
      | _ => match writeBack m d t pi with
        | .ok d' => d'
        | .error e => fillFault m d t e
    else d) d
  let x := setOf d1 t
  setSet { d1 with pool := d1.pool.filter (fun r => some r ≠ x.pool) } t { x with pages := [], live := false, pool := none }

end Sys2Proof.Machine
end

