-- ==== Sys2Proof/Machine/Access.lean ====
section
/-!
DEFINITION. Accesses of lanes to the address spaces: the checks of spec/15_isa_memory.md R263, in their order, and
where an access performs (spec/07_model_far.md R115, spec/03_operand_stores.md R49, R55, R61).
-/
namespace Sys2Proof.Machine

/-- Where an access of a lane lands. -/
inductive Place where
  /-- A page of a store (R17, R18): stage set, page, byte offset within the page. -/
  | page (t pi off : Nat)
  /-- Device memory. -/
  | device (key : Nat)
  /-- Device memory that a store page stands for (R49). -/
  | mapped (t pi off key : Nat)
  /-- Host memory (R121). -/
  | host (key : Nat)
  /-- A peer's memory (R123). -/
  | peer (n pa : Nat)
  /-- The device's registers (R365). -/
  | reg (off : Nat)
  deriving DecidableEq, Repr

/-- What an access asks of its place: the leaf's permission (R24), its size, whether it writes as an ordinary store
or an atomic does, whether it is an atomic, and whether the link of a peer does not stop it: it is posted, or its answer has
come (R123, R125, R275). -/
structure Use where
  acc : Access
  size : Nat
  writes : Bool := false
  atomic : Bool := false
  posted : Bool := false
  deriving DecidableEq, Repr

/-- PERM with SUB 1 (R199). -/
def permRule (va : Nat) : Trap := { cause := cPERM, sub := 1, addr := w64 va }

/-- Whether a write touches a registered replica range (R330). -/
def inReplica (x : StageSet) (st : StoreId) (lo n : Nat) : Bool :=
  x.ranges.any (fun r => r.store == st && decide (lo < r.hi) && decide (r.lo < lo + n))

/-- A byte range of a set's store (R17, R330). -/
def storeRange (d : Dev) (t : Nat) (st : StoreId) (off n va : Nat) (writes : Bool) : Except Trap Place :=
  let x := setOf d t
  if 4096 * allocPages x st < off + n then .error { cause := cBOUNDS, addr := w64 va }
  else if writes && inReplica x st off n then .error (permRule va)
  else match findPage x st (off / 4096) with
    | some pi => .ok (.page t pi (off % 4096))
    | none => .error { cause := cBOUNDS, addr := w64 va }

/-- The stage set that a `.m` address names (R18). -/
def teamSet (d : Dev) (cl team : Nat) : Option Nat :=
  (clusterOf d cl).sets.find? (fun t => (setOf d t).jidx == team && (setOf d t).live)

/-- A `.m` window address (R18). -/
def windowRange (d : Dev) (va n : Nat) (writes : Bool) : Except Trap Place :=
  if 2 ^ 24 ≤ va then .error { cause := cBOUNDS, addr := w64 va }
  else match teamSet d (mySet d).cluster (va / 2 ^ 21 % 8) with
    | none => .error { cause := cBOUNDS, addr := w64 va }
    | some t => storeRange d t (storeOf (va / 2 ^ 19)) (va % 2 ^ 19) n va writes

/-- Whether QSTATE of a line is nonzero: the line is held, queued on or broken as a lock, or is a phaser (R95, R132,
R282). -/
def qstateNonzero (d : Dev) (n : Nat) : Bool := (lineOf d n).lock.isSome || (lineOf d n).ph

/-- The place of a translated access and the rules beyond the leaf's permission: R49, R95, R125. A leaf with TGT 0 is served
as device memory at every physical address: what one at or above 768 GiB answers is not stated (DESIGN CHOICE, log 57). -/
def leafPlace (d : Dev) (u : Use) (l : Leaf) (va : Nat) : Except Trap Place :=
  match l.tgt with
  | 0 =>
    match mappedAt d l.pa with
    | some (t, pi) =>
      let p := pageOf d t pi
      let others := t ≠ (me d).set
      if u.atomic || (u.writes && others && !(p.mapped.elim false (·.rw))) then .error (permRule va)
      else if u.writes && inReplica (setOf d t) p.store (p.idx * 4096 + l.pa % 4096) u.size then .error (permRule va)
      else .ok (.mapped t pi (l.pa % 4096) l.pa)
    | none =>
      if u.writes && qstateNonzero d (lineNo l.pa) && decide (8 < l.pa % 64 + u.size) then .error (permRule va)
      else .ok (.device l.pa)
  | 1 => .ok (.host (hostKey + l.pa))
  | 2 =>
    if !u.posted && !peerUp d l.peer then
      .error { cause := cPEERDOWN, sub := if (mySplit d).peerLost then 1 else 0, addr := w64 va, info0 := w64 l.peer }
    else .ok (.peer l.peer (l.pa % 2 ^ 46))
  | _ => .ok (.reg l.pa)

/-- The checks of one lane's access (R263, step 3), and its place. -/
def checkPlace (sp : Space) (u : Use) (va : Nat) : Act Place := do
  let d ← dev
  let x := me d
  let aligned := decide (va % u.size = 0)
  let lift := fun (r : Except Trap Place) => (match r with | .ok p => pure p | .error t => trap t : Act Place)
  match sp with
  | .g | .k =>
    need (decide (va < 2 ^ 57)) { cause := cBADADDR, addr := w64 va }
    need aligned { cause := cALIGN, addr := w64 va }
    let l ← translate (pcore d (vcoreOf d x)) x.ctx va u.acc
    lift (leafPlace d u l va)
  | .store st =>
    need aligned { cause := cALIGN, addr := w64 va }
    lift (storeRange d x.set st va u.size va u.writes)
  | .m =>
    need aligned { cause := cALIGN, addr := w64 va }
    lift (windowRange d va u.size u.writes)

/-- What a lane's checks gave. -/
def laneCause (r : Nat × Except Trap Place) : Option Trap :=
  match r.2 with
  | .error t => some t
  | .ok _ => none

/-- Check every lane, in ascending order; the lowest that fails decides the cause, and INFO2 holds the lanes that fail
with it (R263). -/
def checkLanes (lanes : List Nat) (f : Nat → Act Place) : Act (List (Nat × Place)) := do
  let rs ← lanes.mapM (fun l => do pure (l, ← tryAct (f l)))
  match rs.findSome? laneCause with
  | some t =>
    trap { t with info2 := maskOf ((rs.filter (fun r => (laneCause r).any (fun x => x.cause == t.cause))).map (·.1)) }
  | none =>
    pure (rs.filterMap (fun r => match r.2 with | .ok p => some (r.1, p) | .error _ => none))

/-- POISON at a line of memory that reads with an uncorrectable error (R68, R379). -/
def linePoison (key addr : Nat) : Perf Unit := do
  let d ← devP
  if d.poison.contains (lineNo key) then stopTrap { cause := cPOISON, addr := w64 (addr / 16 * 16) } else pure ()

/-- Make a mapped page's backing good when the page is not resident (R49); true when its store serves the access. -/
def mappedReady (t pi : Nat) : Perf Bool := do
  let d ← devP
  match (pageOf d t pi).st with
  | .pinned | .unpinned => pure true
  | .filling => throw (.page t pi)
  | .nonResident => do
    updP (fun m d => logToBacking m d t pi true)
    pure false

/-- A read that a mapped page's store serves stands for one at the line's home (R49): RTS, and the reader's LMAX, take the end of
a lease, with no copy that it is for (R117, R119). -/
def mappedSeen (m : Memory) (d : Dev) (w k : Nat) : Dev :=
  let (d1, c) := homeLease m d (lineNo k) (waveOf d w).vstamp
  noteLease d1 w c.leaseEnd

/-- A write that a mapped page's store takes stands for one at the line's home, with its stamp (R49, R116). A write of a whole
granule clears its poison (R68). -/
def mappedPut (m : Memory) (d : Dev) (t pi off k : Nat) (bs : List Byte) : Dev :=
  let d1 := modPage d t pi (fun p =>
    let q := pagePut p off bs
    if bs.length = 16 then { q with poison := q.poison &&& ~~~(bit256 (granOf off)) } else q)
  stampWrite m d1 (whoMe d) k bs

/-- The bytes that a lane reads (R61, R102, R117, R121). `keep` is false for `.str`; `konst` says that the read takes
the constant path (R19). -/
def readPlace (p : Place) (n addr : Nat) (keep konst : Bool) : Perf (List Byte) :=
  match p with
  | .page t pi off => pageRead t pi off n addr true
  | .device k => do
    linePoison k addr
    liftD (fun m d =>
      let r := if konst then constRead m d d.cur.1 k n else homeRead m d d.cur.1 addr k n keep
      (r.2, r.1))
  | .mapped t pi off k => do
    if ← mappedReady t pi then
      checkPoison t pi off n addr
      liftD (fun m d => (pageBytesAt (pageOf d t pi) off n, mappedSeen m d d.cur.1 k))
    else
      linePoison k addr
      liftD (fun m d => let r := homeRead m d d.cur.1 addr k n false; (r.2, r.1))
  | .host k => do
    linePoison k addr
    liftD (fun m d => (rdBytes m d k n, takeHost d k))
  | .peer _ _ => pure (List.replicate n 0)
  | .reg off => do
    let d ← devP
    pure (natBytes n (regRead d off n).toNat)

/-- The request of the split that issues goes to a peer, and it waits for the answer (R125, R369). -/
def askPeer (n : Nat) : Act Verdict := do
  upd (fun d => sendTo d n (.request d.cur.1 d.cur.2))
  park (.peer (2 * n))

/-- A posted write of the wave that issues: sent, or lost at once (R124, R368, R371). -/
def postWrite (d : Dev) (p : Nat) : Dev :=
  let x := me d
  if peerUp d p then sendTo (setMe d { x with posted := put 0 x.posted p (look 0 x.posted p + 1) }) p (.write d.cur.1)
  else setMe d { x with lost := put 0 x.lost p (look 0 x.lost p + 1) }

/-- Place a write to the registers before everything but earlier writes to them (R105). -/
def nextWrite (e : Instr) : List Move → List Move
  | .event (.registerWrite o n v) :: r => .event (.registerWrite o n v) :: nextWrite e r
  | r => .event e :: r

/-- A place some bytes on. -/
def placePlus (p : Place) (n : Nat) : Place :=
  match p with
  | .page t pi off => .page t pi (off + n)
  | .device k => .device (k + n)
  | .mapped t pi off k => .mapped t pi (off + n) (k + n)
  | .host k => .host (k + n)
  | .peer q pa => .peer q (pa + n)
  | .reg off => .reg (off + n)

/-- The number that stands for a place of global memory: its key, or one past all memory for a peer's or a register. -/
def placeKey : Place → Nat
  | .device k | .host k | .mapped _ _ _ k => k
  | .peer n pa => 2 ^ 57 + n * 2 ^ 46 + pa
  | .reg off | .page _ _ off => 2 ^ 58 + off

/-- An access by the home of a line for an instruction: it performs whole, or the word waits in place for a page that is being filled
or a link that trains (R42, R371). -/
def atHome {α : Type} (x : Perf α) : Act α := fun m d =>
  match x m d with
  | .ok r => .ok r
  | .error (.trap t) => .error t
  | .error (.page _ _) => .error { cause := 0 }

/-- A lane's write of bytes of a type (R55, R115, R121, R123). A write to the device's registers reaches them before
anything else moves (R105). -/
def writePlace (p : Place) (ty : Ty) (bs : List Byte) : Perf Unit :=
  match p with
  | .page t pi off => pageWrite t pi off ty bs
  | .device k => updP (fun m d => homeWrite m d (whoMe d) k bs)
  | .mapped t pi off k => do
    if ← mappedReady t pi then updP (fun m d => mappedPut m d t pi off k bs)
    else updP (fun m d => homeWrite m d (whoMe d) k bs)
  | .host k => updP (fun _ d => takeHost (wrBytes d k bs) k)
  | .peer n _ => updP (fun _ d => postWrite d n)
  | .reg off => updP (fun _ d => { d with agenda := nextWrite (.registerWrite off bs.length (leWord bs)) d.agenda })

/-- A write that a line's home makes for an instruction. -/
def homePut (p : Place) (bs : List Byte) : Perf Unit :=
  match p with
  | .device k => updP (fun m d => agentWrite m d whoEngine k bs)
  | .mapped t pi off k => do
    if ← mappedReady t pi then
      updP (fun m d => stampWrite m (changePage d t pi off bs.length (fun g => pagePut g off bs)) whoEngine k bs)
    else updP (fun m d => agentWrite m d whoEngine k bs)
  | p => writePlace p .n64 bs

/-- Whether a lane's access would be appended to a log, which is an ordering operation in FO mode (R160). -/
def wouldLog (d : Dev) (p : Place) : Bool :=
  match p with
  | .page t pi _ => (pageOf d t pi).st == .nonResident
  | _ => false

/-- The peer of a lane's place. -/
def peerOf : Place → Option Nat
  | .peer n _ => some n
  | _ => none

/-! ### The parts in which the lanes of one instruction perform. -/

/-- A part of a memory instruction, which performs whole: its lanes, the peer that its request goes to, if it goes to one, what
it does, and what its lanes make of a peer's answer. It yields values by key, a lane's own number or, for a second element,
32 more. -/
structure Part where
  lanes : List Nat
  peer : Option Nat := none
  run : Perf (List (Nat × W64)) := pure []
  answer : Row → List (Nat × W64) := fun _ => []

/-- The trap that a part would raise as things stand. -/
def partTrap (m : Memory) (d : Dev) (p : Part) : Option Trap :=
  match p.peer, p.run m d with
  | none, .error (.trap t) => some t
  | _, _ => none

/-- No lane performs when one of them would trap: the first part that would decides the cause, and INFO2 holds the lanes of
every part that would with that cause (R68, R198, R263). -/
def needParts (ps : List Part) : Act Unit := fun m d =>
  match ps.findSome? (partTrap m d) with
  | none => .ok ((), d)
  | some t => .error { t with
      info2 := maskOf ((ps.filter (fun p => (partTrap m d p).any (fun x => x.cause == t.cause))).flatMap (·.lanes)) }

/-- The lanes of a part have performed: their values are held with the instruction until it completes (R46, R65). -/
def servePart (d : Dev) (p : Part) (vals : List (Nat × W64)) : Dev :=
  let s := mySplit d
  setMySplit d { s with
    served := s.served ||| maskOf p.lanes, servedVals := vals.foldl (fun r v => put 0 r v.1 v.2) s.servedVals }

/-- Perform parts in order; true when the last has performed. One that has to wait for a page, or for the answer of a peer,
leaves it and the later ones for a later issue (R42, R65, R125); the earlier ones have performed. When an answer has come
and lanes remain, they are checked afresh at the next issue. -/
def performParts : List Part → Act Bool
  | [] => pure true
  | p :: r => do
    match p.peer with
    | none =>
      match ← perform p.run with
      | none => pure false
      | some vals => do
        upd (fun d => servePart d p vals)
        performParts r
    | some n =>
      let d ← dev
      match (mySplit d).ans with
      | none => do
        let _ ← askPeer n
        pure false
      | some a => do
        upd (fun d => setMySplit (servePart d p (p.answer a)) { mySplit (servePart d p (p.answer a)) with ans := none })
        pure r.isEmpty

/-- The lanes of an instruction that have still to perform. -/
def unserved (d : Dev) (m : W32) : List Nat := lanesOf (m &&& ~~~(mySplit d).served)

/-- The checks and the parts of an instruction, and its end when all lanes have performed (R263). -/
def inParts (ps : List Part) (done : Row → Act Verdict) : Act Verdict := do
  needParts ps
  if ← performParts ps then
    let d ← dev
    done (mySplit d).servedVals
  else pure .stay

/-- An instruction pushes into qd what it will have loaded: it has room before a lane performs (R173, R196). -/
def roomFor (code : BitVec 8) (n : Nat) : Act Unit := do
  let d ← dev
  match opd code with
  | .qd => need (decide ((mySplit d).qd.length + n ≤ 16)) (queueTrap 0)
  | _ => pure ()

end Sys2Proof.Machine
end

