-- ==== Sys2Proof/Machine/Engines.lean ====
section
/-!
DEFINITION. Phasers (spec/15_isa_memory.md R282 to R285), the effects of engine operations that other agents observe
(spec/09_engines_determinism.md R152, R153), and their publication in fixed-order mode (R160 to R163).
-/
namespace Sys2Proof.Machine

/-! ### Phasers. The state of one stands in the line's QSTATE (R282). -/

/-- The fields of R282. -/
structure Phaser where
  any : Bool := false
  parties : Nat := 0
  arrived : Nat := 0
  waiters : Nat := 0
  epoch : BitVec 32 := 0
  phase : BitVec 32 := 0
  deriving DecidableEq, Repr

/-- QSTATE as a number, from the line's bytes 32 to 63. -/
def qstateNat (m : Memory) (d : Dev) (n : Nat) : Nat := leNat (rdBytes m d (n * 64 + 32) 32)

/-- The phaser of a line (R282). -/
def phaserOf (m : Memory) (d : Dev) (n : Nat) : Phaser :=
  let q := qstateNat m d n
  { any := q / 2 ^ 144 % 2 = 1, parties := q / 2 ^ 128 % 2 ^ 16, arrived := q / 2 ^ 112 % 2 ^ 16,
    waiters := q / 2 ^ 96 % 2 ^ 16, epoch := BitVec.ofNat 32 (q / 2 ^ 64), phase := BitVec.ofNat 32 (q / 2 ^ 32) }

/-- The 32 bytes of QSTATE while the line is a phaser (R282). -/
def phaserBytes (p : Phaser) : List Byte :=
  natBytes 32 (2 ^ 255 + (if p.any then 2 ^ 144 else 0) + p.parties % 2 ^ 16 * 2 ^ 128 + p.arrived % 2 ^ 16 * 2 ^ 112 +
    p.waiters % 2 ^ 16 * 2 ^ 96 + p.epoch.toNat * 2 ^ 64 + p.phase.toNat * 2 ^ 32)

/-- Write a phaser's state as a write of its line (R116). -/
def putPhaser (m : Memory) (d : Dev) (who : Who) (n : Nat) (p : Phaser) : Dev :=
  let d1 := sealWrite m d who (n * 64 + 32) (phaserBytes p)
  modLine d1 n (fun l => { l with ph := true })

/-- Count a waiter more or less, with no write of the line. -/
def countWaiters (d : Dev) (n : Nat) (p : Phaser) : Dev := wrBytes (forgetHost d n) (n * 64 + 32) (phaserBytes p)

/-- The status word of R283. -/
def phStatus (phase : BitVec 32) (code : Nat) : W64 := (phase.setWidth 64 <<< 32) ||| w64 code

/-- Whether a target is reached (R284). -/
def phReached (p : Phaser) (k : BitVec 32) : Bool := !(p.phase - k).msb

/-- The advance of R284 on the fields. -/
def phAdvance (p : Phaser) : Phaser :=
  if p.any || p.parties = 0 then p
  else { p with arrived := p.arrived % p.parties, phase := p.phase + BitVec.ofNat 32 (p.arrived / p.parties) }

/-- Wake, with OK, every waiter whose target is reached; each makes a `.dev` acquire (R284). -/
def wakePhase (m : Memory) (d : Dev) (n e : Nat) : Dev :=
  (allSplits d).foldl (fun d q =>
    match (splitOf (waveOf d q.1) q.2).park with
    | .phwait _ _ _ (.due _ _) => d
    | .phwait a k _ watch =>
      let p := phaserOf m d n
      if a = n ∧ phReached p k then
        notify (acquireStamps (countWaiters d n { p with waiters := p.waiters - 1 }) n q.1 .dev) q.1 q.2 watch
          [(0, phStatus p.phase 0)] e
      else d
    | _ => d) d

/-- Release every waiter with GONE (R284). -/
def wakeGone (d : Dev) (n e : Nat) : Dev :=
  (allSplits d).foldl (fun d q =>
    match (splitOf (waveOf d q.1) q.2).park with
    | .phwait _ _ _ (.due _ _) => d
    | .phwait a _ _ watch => if a = n then notify d q.1 q.2 watch [(0, phStatus 0 2)] e else d
    | _ => d) d

/-- `phsig` at the home (R284): the status code. -/
def phSignal (m : Memory) (d : Dev) (who : Who) (n : Nat) (arrivals : Nat) : Dev × Nat :=
  let p := phaserOf m d n
  if p.any then
    (wakePhase m (putPhaser m d who n { p with phase := p.phase + BitVec.ofNat 32 arrivals }) n who.clock, 0)
  else
    let q := phAdvance { p with arrived := p.arrived + arrivals }
    let tooMany := decide (65535 < q.arrived)
    (wakePhase m (putPhaser m d who n { q with arrived := min q.arrived 65535 }) n who.clock, if tooMany then 5 else 0)

/-- A signal of an engine arrives at the home (R285); `e` is the clock of its key. -/
def engineSignal (m : Memory) (d : Dev) (g : EngSignal) (e : Nat) : Dev :=
  let p := phaserOf m d g.line
  if !(lineOf d g.line).ph || p.epoch ≠ g.epoch then
    writeRecord m d (waveOf d g.wave).ctx (recordWords d (waveOf d g.wave).ctx none 0 0 { cause := cPHDROPPED, addr := w64 g.va, info0 := 1 } {})
  else
    let d1 := releaseStamps d g.line .dev (some g.wave) g.wts
    (phSignal m d1 ⟨none, e⟩ g.line 1).1

/-! ### Publication (R163). -/

/-- Whether a parked `ldfe` waits for a granule. -/
def granuleWanted (d : Dev) (t pi g : Nat) : Bool :=
  (allSplits d).any (fun p => match (splitOf (waveOf d p.1) p.2).park with
    | .ldfe _ _ want => want.any (fun w => w.set == t && w.pg == pi && granOf w.off == g)
    | _ => false)

/-- Set a granule full in the backing of a page that is not there, for a copy whose own entry has been applied; an entry that is
still in the log sets the bit as it is applied (R45, R64, R163). -/
def backFull (m : Memory) (d : Dev) (own : Option Nat) (t pi g e : Nat) : Dev :=
  let d0 := modPage d t pi (fun p => { p with fullClock := put 0 p.fullClock g e })
  let p := pageOf d0 t pi
  if p.log.any (fun o => o.kind = 1 ∧ o.gran.toNat = g ∧ own.any o.copies.contains) then d0
  else
    match bitsKey m d0 t p .readWrite with
    | .error x => fillFault m d0 t x
    | .ok (k, d1) =>
      agentWrite m d1 whoEngine (k + g / 8) [rdByte m d1 (k + g / 8) ||| (1#8 <<< (g % 8))]

/-- Publish a granule's full bit (R45, R163): in the frame, or in the backing of a page that is not there. Where a reader
waits for the granule, its page is filled as one action with the publication, for the reader enters the min-tree before the
event completes (R162); with no frame free the reader waits for a later fill. -/
def publishFull (m : Memory) (d : Dev) (own : Option Nat) (t pi g e : Nat) : Dev :=
  match (pageOf d t pi).st with
  | .pinned | .unpinned => setFull d t pi g e
  | .filling | .nonResident =>
    let d1 := backFull m d own t pi g e
    if granuleWanted d1 t pi g then completeFill m (startFill m d1 t pi) t pi else d1

/-- Add 1 to a counter, in host memory too, where a push may keep one (R331). -/
def addOne (m : Memory) (d : Dev) (e k maxW : Nat) : Dev :=
  if hostKey ≤ k then wr64 d k (rd64 m d k + 1) else counterAdd m d ⟨none, e⟩ k 1 maxW false

/-- Whether every push of the release that started a copy has taken effect (R331). -/
def pushesOver (d : Dev) (c : Copy) : Bool :=
  d.copies.all (fun e => e.pcnt.isNone || e.seq ≠ c.seq || e.published)

/-- The addition to a version counter on a peer travels as a posted write (R331, R369): to one that cannot be reached it is lost,
and counted for the wave (R124, R368). -/
def countPeer (d : Dev) (c : Copy) : Dev :=
  match c.cpeer with
  | none => d
  | some p =>
    let x := waveOf d c.wave
    if c.stale then d
    else if peerUp d p then
      sendTo (setWave d c.wave { x with posted := put 0 x.posted p (look 0 x.posted p + 1) }) p (.write c.wave)
    else setWave d c.wave { x with lost := put 0 x.lost p (look 0 x.lost p + 1) }

/-- What other agents observe of a completed copy: its full bits, then its counter addition or its signal, and the
addition to the push counter after every entry (R152, R285, R324, R331). A stale push adds to its push counter alone (R54). -/
def copyEffects (m : Memory) (d : Dev) (i : Nat) (c : Copy) (e : Nat) : Dev :=
  let d1 := c.fullBits.foldl (fun d q => publishFull m d (some i) q.1 q.2.1 q.2.2 e) d
  let d2 := match c.cnt with
    | none => countPeer d1 c
    | some k =>
      if c.stale then d1
      else if c.ph then engineSignal m d1 ⟨lineNo k, c.cva, c.epoch, c.wave, c.maxWts, none⟩ e
      else addOne m d1 e k c.maxWts
  match c.pcnt with
  | some k => if pushesOver d2 c then addOne m d2 e k c.maxWts else d2
  | none => d2

/-- What other agents observe of a completed matrix operation (R305, R313). -/
def matEffects (m : Memory) (d : Dev) (o : MatOp) (e : Nat) : Dev :=
  let d1 := o.fullBits.foldl (fun d q => publishFull m d none q.1 q.2.1 q.2.2 e) d
  match o.cnt with
  | none => d1
  | some k => counterAdd m d1 ⟨none, e⟩ k 1 o.maxWts false

def copyAt (d : Dev) (i : Nat) : Option Copy := d.copies[i]?
def setCopy (d : Dev) (i : Nat) (c : Copy) : Dev := { d with copies := nthSet d.copies i c }
def matAt (d : Dev) (i : Nat) : Option MatOp := d.matops[i]?
def setMat (d : Dev) (i : Nat) (o : MatOp) : Dev := { d with matops := nthSet d.matops i o }

/-- Publish, at a key's clock, every completed operation of a wave that it has not published (R163). -/
def publishWave (m : Memory) (d : Dev) (w e : Nat) : Dev :=
  let d1 := (List.range d.copies.length).foldl (fun d i =>
    match copyAt d i with
    | some c =>
      if c.wave = w ∧ c.done ∧ !c.published then copyEffects m (setCopy d i { c with published := true }) i c e else d
    | none => d) d
  let d2 := (List.range d1.matops.length).foldl (fun d i =>
    match matAt d i with
    | some o =>
      if o.wave = w ∧ o.done ∧ !o.published then matEffects m (setMat d i { o with published := true }) o e else d
    | none => d) d1
  let mine := d2.signals.filter (fun g => g.held == some w)
  let d3 := { d2 with signals := d2.signals.filter (fun g => g.held ≠ some w) }
  mine.foldl (fun d g => engineSignal m d g e) d3

/-- Whether the split that issues may perform an ordering operation: outside FO mode always; in FO mode when it holds
the least key of its launch and the wave's engine operations have completed (R160 to R163). -/
def mayOrder (d : Dev) : Bool :=
  !(me d).fo ||
    ((launchOf d (me d).launch).minKey == some (keyOf (me d) d.cur.2) && enginesDone d d.cur.1)

/-- An ordering operation (R161, R163): it waits at the operation until it may perform, publishes the wave's earlier
engine operations at its own key, and performs. -/
def ordering (body : Act Verdict) : Act Verdict := do
  let d ← dev
  if !mayOrder d then pure .stay
  else do
    if (me d).fo then (fun m d => .ok ((), publishWave m d d.cur.1 (mySplit d).clock) : Act Unit) else pure ()
    body

/-- Do something to memory and the device as part of an instruction. -/
def act {α : Type} (f : Memory → Dev → α × Dev) : Act α := fun m d => .ok (f m d)
def actU (f : Memory → Dev → Dev) : Act Unit := fun m d => .ok ((), f m d)

end Sys2Proof.Machine
end

