-- ==== Sys2Proof/Machine/Splits.lean ====
section
/-!
DEFINITION. Divergence, arrival at headers, merges and the ends of lanes (spec/10_execution_model.md R166 to R168,
spec/13_encoding.md R209, R210, R227).
-/
namespace Sys2Proof.Machine

/-- The lanes of a mask in a row. -/
def cutRow (mask : W32) (r : Row) : Row := r.filter (fun p => mask.getLsbD p.1)

/-- The pending writes that the lanes of a mask have to wait for (R227). -/
def cutPend (mask : W32) (ps : List Pend) : List Pend :=
  ps.filterMap (fun p => if p.mask &&& mask = 0 then none else some { p with mask := p.mask &&& mask })

/-- What the lanes of a mask hold of a split's queues and pending writes (R168). -/
def cutSaved (mask : W32) (k : Saved) : Saved :=
  { qd := k.qd.map (cutRow mask), qv := k.qv.map (cutRow mask), qb := k.qb.map (cutRow mask), pend := cutPend mask k.pend }

def savedOf (s : Split) : Saved := { qd := s.qd, qv := s.qv, qb := s.qb, pend := s.pend }
def giveSaved (s : Split) (k : Saved) : Split := { s with qd := k.qd, qv := k.qv, qb := k.qb, pend := k.pend }

/-- Join two rows lane by lane. -/
def joinRow (a b : Row) : Row := b.foldl (fun t p => put 0 t p.1 p.2) a

/-- Join the entries of two queues of equal counts (R168). -/
def joinSaved (a b : Saved) : Saved :=
  { qd := List.zipWith joinRow a.qd b.qd, qv := List.zipWith joinRow a.qv b.qv, qb := List.zipWith joinRow a.qb b.qb,
    pend := a.pend ++ b.pend }

/-- The queue in which two parts hold different counts, as the subcause of QUEUE_ORDER (R168, R199). -/
def countsDiffer (a b : Saved) : Option (BitVec 8) :=
  if a.qd.length ≠ b.qd.length then some 0
  else if a.qv.length ≠ b.qv.length then some 1
  else if a.qb.length ≠ b.qb.length then some 2
  else none

/-- A handler's set-aside entries of the lanes of a mask (R200). -/
def cutHandler (mask : W32) (h : Handler) : Handler :=
  { h with
    qd := h.qd.map (cutRow mask), qv := h.qv.map (cutRow mask), qb := h.qb.map (cutRow mask), pend := cutPend mask h.pend,
    served := h.served &&& mask }

/-- The handler state of two merging splits: the entries set aside join lane by lane. -/
def joinHandler : Option Handler → Option Handler → Option Handler
  | some a, some b => some { a with
      qd := List.zipWith joinRow a.qd b.qd, qv := List.zipWith joinRow a.qv b.qv, qb := List.zipWith joinRow a.qb b.qb,
      pend := a.pend ++ b.pend, served := a.served ||| b.served, servedVals := joinRow a.servedVals b.servedVals }
  | some a, none => some a
  | none, b => b

/-- The splits of a wave that hold lanes. -/
def runningSplits (x : Wave) : Nat := (x.splits.filter (fun s => s.mask ≠ 0)).length

/-- Put a new split in the place of one whose lanes have ended, or in a new one. -/
def addSplit (x : Wave) (s : Split) : Wave :=
  match x.splits.findIdx? (fun s => s.mask == 0) with
  | some i => setSplitOf x i s
  | none => { x with splits := x.splits ++ [s] }

/-- SPLIT_OVF where the stack of the split that issues has no room for a divergence (R166). -/
def roomToDiverge (p : Nat) : Act Unit := do
  let d ← dev
  let extra := (if p ≠ 0 then 1 else 0) + (if 4 ≤ runningSplits (me d) then 1 else 0)
  need (decide ((mySplit d).stack.length + extra ≤ 8)) { cause := cSPLITOVF }

/-- A divergence of the split that issues into lanes `t`, which go to the header at `tpc`, and lanes `n`, which go on
in place; `p` is the reconvergence header, 0 for none (R166). -/
def diverge (t n : W32) (tpc p : Nat) : Act Unit := do
  roomToDiverge p
  let d ← dev
  let x := me d
  let s := mySplit d
  let full := decide (4 ≤ runningSplits x)
  let stack := if p ≠ 0 then .point p s.mask 0 [] :: s.stack else s.stack
  let mine := savedOf s
  let rest := giveSaved { s with mask := n } (cutSaved n mine)
  if full then
    upd (fun d => setMySplit d { rest with stack := .deferred tpc t (cutSaved t mine) :: stack })
  else
    let new : Split := giveSaved { s with
      mask := t, pc := tpc, entering := true, stack := stack, handler := s.handler.map (cutHandler t),
      promoted := none } (cutSaved t mine)
    upd (fun d => setMe d (addSplit (setSplitOf (me d) d.cur.2 { rest with
      stack := stack, handler := s.handler.map (cutHandler n) }) new))

/-- A chain of divergences: the lanes of each target but the last, lowest target first (R166). -/
def divergeAll (p : Nat) : List (Nat × W32) → Act Unit
  | [] => pure ()
  | [(va, _)] => upd (fun d => goHeader d va)
  | (va, t) :: r => do
    let d ← dev
    diverge t ((mySplit d).mask &&& ~~~t) va p
    divergeAll p r

/-- The reconvergence header of the block that runs, checked where a divergence reads it (R210). -/
def reconvOf : Act Nat := do
  let d ← dev
  let s := mySplit d
  if s.reconv = 0 then pure 0
  else
    checkTarget (w64 s.reconv)
    pure s.reconv

/-! ### Arrival and merging (R167, R168). -/

/-- Deferred sides equal to one that has been taken up leave the other stacks of the wave. -/
def dropDeferred (x : Wave) (pc : Nat) (mask : W32) : Wave :=
  let keep := fun (e : StackEntry) => match e with
    | .deferred q m _ => !(q == pc && m == mask)
    | .point _ _ _ _ => true
  { x with splits := x.splits.map (fun s => { s with stack := s.stack.filter keep }) }

/-- The lanes that have arrived and what they brought, when a split is parked at a header under a point entry. -/
def arrivedAt (s : Split) (h : Nat) (m : W32) : Option (W32 × List Saved) :=
  match s.park, s.stack with
  | .header _, .point p m' a got :: _ =>
    if p == h && s.pc == h && m' == m then some (a, got ++ [savedOf s]) else none
  | _, _ => none

/-- The first difference of counts among parts that would merge. -/
def mergeCounts : List Saved → Option (BitVec 8)
  | a :: r => r.findSome? (countsDiffer a)
  | [] => none

/-- The splits parked at a header under equal point entries, as their places (R167). -/
def waitingAt (x : Wave) (h : Nat) (m : W32) : List Nat :=
  (List.range x.splits.length).filter (fun i => (arrivedAt (splitOf x i) h m).isSome)

/-- Merge the splits parked at a header into split `i`, when the point's lanes are all there (R167, R168). The
subcause of QUEUE_ORDER says that counts differ. -/
def mergeAt (d : Dev) (w i h : Nat) (m : W32) : Option (Except (BitVec 8) Dev) :=
  let x := waveOf d w
  let ws := waitingAt x h m
  let parts := ws.filterMap (fun j => arrivedAt (splitOf x j) h m)
  if parts.foldl (fun a q => a ||| q.1) 0 ≠ m then none
  else
    let all := parts.flatMap (·.2)
    match mergeCounts all with
    | some q => some (.error q)
    | none =>
      let whole := match all with
        | a :: r => r.foldl joinSaved a
        | [] => { qd := [], qv := [], qb := [], pend := [] }
      let clock := ws.foldl (fun c j => max c (splitOf x j).clock) 0
      let hand := ws.foldl (fun a j => joinHandler a (splitOf x j).handler) none
      let s := splitOf x i
      let s1 := giveSaved { s with
        mask := m, stack := s.stack.drop 1, park := .running, entering := true, handler := hand } whole
      let y := ws.foldl (fun y j => if j = i then y else setSplitOf y j noSplit) x
      some (.ok (moveClock (setWave d w (setSplitOf y i s1)) w i clock))

/-- Arrival of the split that issues at the header of its PC (R167): true when it goes on to execute the header. -/
def arrive : Nat → Act Bool
  | 0 => pure true
  | fuel + 1 => do
    let d ← dev
    let x := me d
    let s := mySplit d
    match s.stack with
    | .deferred pc mask kept :: .point h m a got :: r =>
      if h = s.pc then do
        let under := StackEntry.point h m (a ||| s.mask) (got ++ [savedOf s])
        let s1 := giveSaved { s with mask := mask, pc := pc, entering := true, stack := under :: r } kept
        upd (fun d => setMe d (setSplitOf (dropDeferred x pc mask) d.cur.2 s1))
        pure false
      else pure true
    | .point h m a got :: r =>
      if h = s.pc then do
        upd (fun d => { setMySplit d { s with
          stack := .point h m (a ||| s.mask) got :: r, park := .header d.seq } with seq := d.seq + 1 })
        let d1 ← dev
        match mergeAt d1 d1.cur.1 d1.cur.2 h m with
        | none => pure false
        | some (.error q) => trap (queueTrap q)
        | some (.ok d2) => do
          upd (fun _ => d2)
          arrive fuel
      else pure true
    | _ => pure true

/-- The words between a block's LEN words and the next 64-byte boundary (R210). -/
def paddingOf (h len : Nat) : List Nat :=
  let first := h + 8 * (len + 1)
  (List.range 7).filterMap (fun i => if first + 8 * i < (first + 63) / 64 * 64 then some (first + 8 * i) else none)

/-- Whether a word is a `nop` (R210). -/
def isNop (w : W64) : Bool := bits w 63 58 == 0 && bits w 49 44 == 0

/-- Whether the split that issues holds the least key of its launch, as last refreshed (R161). -/
def holdsMin (d : Dev) : Bool :=
  (launchOf d (me d).launch).minKey == some (keyOf (me d) d.cur.2)

/-- Enter the header at the PC (R209, R210). -/
def enterHeader : Act Unit := do
  let d ← dev
  let s := mySplit d
  let h := s.pc
  let w ← fetchWord h
  let len := bits w 57 52
  need (bits w 3 3 == 0) { cause := cILLOP, info0 := w }
  let pads ← (paddingOf h len).mapM fetchWord
  match pads.find? (fun p => !isNop p) with
  | some p => trap { cause := cILLOP, info0 := p }
  | none => pure ()
  if (me d).fo && bits w 0 0 == 1 && !holdsMin d then pure ()
  else
    let off : Int := (BitVec.ofNat 16 (bits w 31 16)).toInt
    let recon := if off = 0 then 0 else (BitVec.ofInt 64 ((h : Int) + 64 * off)).toNat
    if len = 0 then do
      checkTarget (w64 (h + 64))
      upd (fun d => setMySplit d { mySplit d with pc := h + 64 })
    else
      upd (fun d => setMySplit d { mySplit d with
        hdr := h, pc := h + 8, entering := false, len := len, reconv := recon })

/-- A split reaches the header at its PC (R167, R209, R210). -/
def execSplitArrive (s : State) : Out :=
  .next (runSplit (do
    let d ← dev
    checkTarget (w64 (mySplit d).pc)
    if ← arrive 9 then enterHeader else pure ()) s)

/-! ### The ends of lanes (R167). -/

/-- Take lanes out of every entry of every stack of a wave. -/
def dropLanes (x : Wave) (lanes : W32) : Wave :=
  let cut := fun (e : StackEntry) => match e with
    | .point h m a got => .point h (m &&& ~~~lanes) (a &&& ~~~lanes) got
    | .deferred pc m k => .deferred pc m k
  { x with splits := x.splits.map (fun s => { s with stack := s.stack.map cut }) }

/-- A split whose active lanes have ended goes on with other lanes at an address, above a rest of its stack; in the handler
if they were in it (R167, R200). -/
def goesOn (s : Split) (lanes : W32) (pc below : Nat) (stack : List StackEntry) (park : Park) (k : Saved) : Split :=
  giveSaved { s with
    mask := lanes, pc := pc, entering := true, stack := stack, park := park, ans := none, served := 0, servedVals := [],
    handler := if s.handler.any (fun h => decide (h.depth ≤ below)) then s.handler else none } k

/-- How a split whose active lanes have ended goes on (R167): it takes up the deferred side on top of its stack, or waits at
the header of a point entry for whose lanes some that it held have arrived; `seq` is its place in the order of arrival. None
when it holds no lane any more. -/
def nextSide (seq : Nat) (s : Split) : List StackEntry → Option Split
  | [] => none
  | .deferred pc m k :: r => some (goesOn s m pc r.length r .running k)
  | .point h m a got :: r =>
    if m = 0 then nextSide seq s r
    else match got.reverse with
      | k :: rest => if a = 0 then none
          else some (goesOn s a h r.length (.point h m a rest.reverse :: r) (.header seq) k)
      | [] => none

/-- The deferred side that a split takes up when its active lanes end, to leave the other stacks of its wave. -/
def sideTaken : List StackEntry → Option (Nat × W32)
  | .deferred pc m _ :: _ => some (pc, m)
  | .point _ m _ _ :: r => if m = 0 then sideTaken r else none
  | [] => none

/-- Test every parked split of a wave again (R167); `fuel` bounds the merges. -/
def retest (m : Memory) (d : Dev) (w : Nat) : Nat → Dev
  | 0 => d
  | fuel + 1 =>
    let x := waveOf d w
    let cand := (List.range x.splits.length).findSome? (fun i =>
      match (splitOf x i).park, (splitOf x i).stack with
      | .header _, .point h pm _ _ :: _ =>
        let last := (waitingAt x h pm).foldl (fun b j =>
          match (splitOf x j).park, (splitOf x b).park with
          | .header p, .header q => if q < p then j else b
          | _, _ => b) i
        (mergeAt d w last h pm).map (fun r => (last, r))
      | _, _ => none)
    match cand with
    | none => d
    | some (_, .ok d1) => retest m d1 w fuel
    | some (i, .error q) =>
      retest m (takeTrap m (modSplit d w i (fun s => { s with park := .running })) w i (queueTrap q) false) w fuel

/-- The active lanes of a split end (R167, R174): its queues are discarded, and it goes on with other lanes, or is
gone. -/
def endLanes (m : Memory) (d : Dev) (w sp : Nat) : Dev :=
  let x := waveOf d w
  let s := splitOf x sp
  let y := dropLanes x s.mask
  let t := splitOf y sp
  let z := match nextSide d.seq t t.stack with
    | some u => setSplitOf ((sideTaken t.stack).elim y (fun p => dropDeferred y p.1 p.2)) sp u
    | none => setSplitOf y sp noSplit
  retest m { setWave d w z with seq := d.seq + 1 } w 16

end Sys2Proof.Machine
end

