-- ==== Sys2Proof/Machine/Ends.lean ====
section
/-!
DEFINITION. Barriers (spec/15_isa_memory.md R281), the completion and abort of copies (spec/17_isa_copy_task_system.md
R324, R326), the ends of waves, teams and clusters (spec/10_execution_model.md R170, R177,
spec/14_isa_compute.md R259) and of launches that fail (spec/11_launch_scheduling.md R194).
-/
namespace Sys2Proof.Machine

/-! ### Barriers (R281). -/

/-- Whether a split is parked at `bar`, or at `cbar`. -/
def atBar (clu : Bool) (s : Split) : Bool :=
  match s.park with
  | .bar => !clu
  | .cbar => clu
  | _ => false

/-- The splits of a wave that hold lanes. -/
def liveSplits (x : Wave) : List Split := x.splits.filter (fun s => s.mask ≠ 0)

/-- Whether a wave has arrived (R281). -/
def arrivedBar (clu : Bool) (x : Wave) : Bool := (liveSplits x).all (atBar clu)

/-- In FO mode an acquire that synchronises empties the lease set (R120). -/
def emptyLeases (d : Dev) (w : Nat) : Dev :=
  let x := waveOf d w
  if x.fo then setWave d w { x with leaseSet := [] } else d

/-- The acquire at the exit of a barrier, for entries of a largest VSTAMP `v` (R108, R113): reads that follow see what the
entries had released; a `.clu` acquire moves the wave's view too. -/
def barView (d : Dev) (clu : Bool) (w v : Nat) : Dev :=
  acquireView (if clu then raiseV d w v else d) w v

/-- Complete an episode when every participant has arrived: every parked split is released together, and the largest
clock of the entries is the waking event's (R162, R281). -/
def settleBar (d : Dev) (clu : Bool) (ws : List Nat) : Dev :=
  let live := ws.filter (fun w => (waveOf d w).live)
  if live.isEmpty || !live.all (fun w => arrivedBar clu (waveOf d w)) then d
  else
    let e := live.foldl (fun c w => (liveSplits (waveOf d w)).foldl (fun c s => max c s.clock) c) 0
    let v := live.foldl (fun v w => max v (waveOf d w).vstamp) 0
    live.foldl (fun d w =>
      (List.range (waveOf d w).splits.length).foldl (fun d i =>
        if (splitOf (waveOf d w) i).mask ≠ 0 then wake d w i [] e else d) (barView d clu w v)) d

/-- Judge the barriers of a stage set and of its cluster. -/
def settleBars (d : Dev) (t : Nat) : Dev :=
  let d1 := settleBar d false (setOf d t).waves
  settleBar d1 true ((clusterOf d1 (setOf d1 t).cluster).sets.flatMap (fun u => (setOf d1 u).waves))

/-! ### Allocations and clusters (R39, R170). -/

/-- Whether an engine operation of a wave is in flight. -/
def inFlight (d : Dev) (w : Nat) : Bool := !enginesDone d w

/-- Free a set's block of the save area (R206, R207). -/
def freeBlock (m : Memory) (d : Dev) (t : Nat) : Dev :=
  let x := setOf d t
  match x.block with
  | none => d
  | some b =>
    let k := ctxSave m d x.ctx + 0x8000 + b / 8
    let d1 := agentWrite m d whoEngine k [rdByte m d k &&& ~~~(1#8 <<< (b % 8))]
    setSet d1 t { x with block := none }

/-- The allocations of a cluster end together, once its last team has ended and the engine operations of its waves have
completed (R170, R194). One that was on its way out leaves the shadow banks (R206). -/
def settleCluster (m : Memory) (d : Dev) (c : Nat) : Dev :=
  let x := clusterOf d c
  let ws := x.sets.flatMap (fun t => (setOf d t).waves)
  if x.res == .ended || ws.any (fun w => (waveOf d w).live || inFlight d w) then d
  else
    let d1 := x.sets.foldl (fun d t => endAllocation m (freeBlock m d t) t) d
    { setCluster d1 c { clusterOf d1 c with res := .ended } with shadow := d1.shadow.filter (· ≠ c) }

/-- When a team is switched out, or its last wave ends while its cluster runs, its pages become resident-unpinned (R39,
R40). -/
def unpinSet (d : Dev) (t : Nat) : Dev :=
  let x := setOf d t
  setSet d t { x with
    outAt := d.cycle, pages := x.pages.map (fun p => if p.st = .pinned then { p with st := .unpinned } else p) }

/-! ### Copies (R324, R326). -/

/-- A copy has completed: its tag is free, and its effects take place, in FO mode at their publication (R152, R163). -/
def finishCopy (m : Memory) (d : Dev) (i : Nat) : Dev :=
  match copyAt d i with
  | none => d
  | some c =>
    let held := copyHeld d c
    let d1 := setCopy d i { c with done := true, fault := none, published := !held }
    settleCluster m (if held then d1 else copyEffects m d1 i c 0) (clusterIdx d1 c.wave)

/-- Abort a copy: no further element is written, CERR is set in the FSTAT of a wave that lives, and it completes when its
writes have performed (R152, R197, R326). -/
def abortCopy (m : Memory) (d : Dev) (i : Nat) : Dev :=
  match copyAt d i with
  | none => d
  | some c =>
    let d1 := if (waveOf d c.wave).live then orFlags d c.wave fCERR else d
    let d2 := setCopy d1 i { c with fault := none, aborted := true }
    if c.posted.isEmpty then finishCopy m d2 i else d2

/-- Abort every faulted copy of a wave that has ended (R197). -/
def abortOrphans (m : Memory) (d : Dev) (w : Nat) : Dev :=
  (List.range d.copies.length).foldl (fun d i =>
    match copyAt d i with
    | some c => if c.wave = w ∧ c.fault.isSome ∧ !c.done then abortCopy m d i else d
    | none => d) d

/-- The asynchronous traps that an ended wave has not taken are external, and their records carry ORPHAN (R197). -/
def orphanTraps (m : Memory) (d : Dev) (w : Nat) : Dev :=
  let x := waveOf d w
  let ts := x.atraps.map (·.trap)
  let d1 := setWave d w { x with atraps := [] }
  ts.foldl (fun d t =>
    writeRecord m d x.ctx (recordWords d x.ctx (some (w, 0)) 0 0 t
      { orphan := true, external := true, async := true })) d1

/-! ### Join counters and continuations (R176, R177). -/

/-- The comb queue of a die and a priority (R188). -/
def queueIdx (die prio : Nat) : Nat := 12 * die + min prio 11

/-- Push an entry as a queue's youngest (R188). -/
def pushEntry (d : Dev) (q : Nat) (e : Entry) : Dev := { d with queues := nthSet d.queues q (nth d.queues q [] ++ [e]) }

/-- The die of a record: that of its AFF logical cluster, or of the wave that pushes it when AFF is 31 (R177, R333). -/
def affDie (d : Dev) (w aff : Nat) : Nat :=
  if aff < 24 then dieOf d aff else dieOf d (lclOf (vcoreOf d (waveOf d w)))

/-- The queue on which a record that a wave pushes goes. -/
def contQueue (d : Dev) (w : Nat) (r : BitVec 512) : Nat := queueIdx (affDie d w (bits r 297 293)) (bits r 303 300)

/-- Push a continuation record of a wave's launch, with the next free virtual wave index (R159). -/
def pushCont (d : Dev) (w : Nat) (r : BitVec 512) (vstamp clock : Nat) : Dev :=
  let x := waveOf d w
  let l := launchOf d x.launch
  let c : ContRec := { bits := r, vidx := l.nextVidx, vstamp := vstamp, clock := clock, ctx := x.ctx, launch := x.launch }
  pushEntry (setLaunch d x.launch { l with pending := l.pending + 1, nextVidx := l.nextVidx + 1 }) (contQueue d w r)
    { work := .cont c, hint := r.extractLsb' 128 64 }

/-- The die on whose walkers a wave's own translations run. -/
def waveDie (d : Dev) (w : Nat) : Nat := dieOf d (lclOf (vcoreOf d (waveOf d w)))

/-- Reach the counter of a frame: its key, or the cause that stops the subtraction (R49, R177). -/
def joinKey (m : Memory) (d : Dev) (w va : Nat) : Except (BitVec 8) (Nat × Dev) :=
  match walkVa m d (waveDie d w) (waveOf d w).ctx va .readWrite with
  | .error t => .error t.cause
  | .ok (l, d1) =>
    if l.tgt ≠ 0 || (mappedAt d1 l.pa).isSome then .error cPERM
    else if d1.poison.contains (lineNo l.pa) then .error cPOISON
    else .ok (l.pa, d1)

/-- The record that a frame holds (R176, R177), in device or host memory; a frame that cannot be read stops the subtraction
that would push it, as an unreachable counter does (DESIGN CHOICE, log 23). -/
def frameRecord (m : Memory) (d : Dev) (w va : Nat) : Except (BitVec 8) (BitVec 512 × Dev) :=
  match walkVa m d (waveDie d w) (waveOf d w).ctx va .read with
  | .error t => .error t.cause
  | .ok (l, d1) =>
    if 2 ≤ l.tgt then .error cPERM
    else if d1.poison.contains (lineNo (leafKey l)) then .error cPOISON
    else .ok (BitVec.ofNat 512 (leNat (rdBytes m d1 (leafKey l) 64)), d1)

/-- The subtraction of `done` or `join` on a frame's counter (R177), after its `.dev` release: the device, or the record that
it writes instead. -/
def subtractJoin (m : Memory) (d : Dev) (w sp : Nat) (frame : W64) (joff : Nat) : Except Trap Dev :=
  let x := waveOf d w
  let s := splitOf x sp
  let fault := fun (c : BitVec 8) => ({ cause := cJOINFAULT, sub := c, addr := frame } : Trap)
  match joinKey m d w (frame.toNat + joff) with
  | .error c => .error (fault c)
  | .ok (k, d1) =>
    let v := rd64 m d1 k
    let take := fun (d : Dev) => homeWrite m (recallLine d (lineNo k)) ⟨some w, s.clock⟩ k (leBytes 8 (v - 1))
    if v = 0 then .error { cause := cJOINUNDERFLOW, addr := frame }
    else if v ≠ 1 then .ok (take d1)
    else match frameRecord m d1 w frame.toNat with
      | .error c => .error (fault c)
      | .ok (r, d2) =>
        let d3 := take d2
        .ok (pushCont d3 w r (lineOf d3 (lineNo k)).wts (if x.fo then s.clock + 1 else 0))

/-! ### Releases (R101, R115, R124). -/

/-- Whether the wave has posted writes that no peer has acknowledged (R115, R124). -/
def postsOpen (d : Dev) : Bool := !(me d).posted.isEmpty

/-- A release at a scope (R101, R115, R124): it waits for acknowledgements, and the writes made under grants reach their
homes. -/
def releasing (sc : Scope) (body : Act Verdict) : Act Verdict := do
  let d ← dev
  if postsOpen d then park .ack
  else do
    upd (fun d => drainGrants d d.cur.1 sc)
    body

/-! ### The end of a wave (R259) and of a launch that fails (R194). -/

/-- A wave whose last lanes have ended leaves: its team, its barriers and its cluster are judged. -/
def leaveWave (m : Memory) (d : Dev) (w : Nat) : Dev :=
  let x := waveOf d w
  let d1 := setWave d w { x with live := false, monitor := none, reservation := none, held := [] }
  let d2 := abortOrphans m (orphanTraps m d1 w) w
  let d3 := if setAlive d2 x.set then d2 else unpinSet d2 x.set
  settleCluster m (settleBars d3 x.set) (clusterIdx d3 w)

/-- Whether the split's lanes are the last of its wave. -/
def lastLanes (d : Dev) (w sp : Nat) : Bool :=
  let x := waveOf d w
  let s := splitOf (dropLanes x (splitOf x sp).mask) sp
  runningSplits x == 1 && (nextSide 0 s s.stack).isNone

/-- The locks that the wave of the split that issues still holds are broken, and a LOCK_BROKEN record for each line is written
(R146). The ending wave is the records' producer: it parks where one meets a full ring, and issues again (R204; DEDUCED, log 70). -/
def breakHeld (m : Memory) (d : Dev) : Dev :=
  let w := d.cur.1
  let s := mySplit d
  let recs := (me d).held.map (fun hl => recordWords d (me d).ctx (some d.cur) s.pc s.clock { cause := cLOCKBROKEN, addr := w64 hl.va } {})
  waveRecord m (breakLocks m d w s.clock) w d.cur.2 recs .running

/-- The active lanes of the split that issues end without a subtraction (R259). -/
def endSplit (m : Memory) (d : Dev) : Dev :=
  let w := d.cur.1
  let sp := d.cur.2
  if lastLanes d w sp then leaveWave m (endLanes m d w sp) w
  else settleBars (endLanes m d w sp) (waveOf d w).set

/-- The wave's last lanes end at a `done` or `join` that subtracts (R177, R335). A record that meets a full ring parks the split
with nothing performed, and the instruction issues again once the ring's header has been written (R204). -/
def endJoin (m : Memory) (d : Dev) (frame : W64) (joff : Nat) : Dev :=
  let w := d.cur.1
  let sp := d.cur.2
  let s := mySplit d
  if frame = 0 then endSplit m d
  else match subtractJoin m (drainGrants d w .dev) w sp frame joff with
  | .ok d1 => endSplit m d1
  | .error t =>
    match ringWrite m d (me d).ctx [recordWords d (me d).ctx (some (w, sp)) s.pc s.clock t {}] true with
    | (d1, .full n wts) => modSplit d1 w sp (fun s => { s with park := .ring n wts, ringRec := [], after := .running })
    | (d1, _) => endSplit m d1

/-- Whether an entry belongs to a launch. -/
def entryLaunch : Work → Nat
  | .cluster l _ => l
  | .whole l => l
  | .cont r => r.launch
  | .again l _ => l

/-- The matrix operations that stand in the checkpoint of a switched-out wave go with it (R206). -/
def dropAway (d : Dev) (w : Nat) : Dev :=
  if setResident d (waveOf d w).set then d
  else { d with matops := d.matops.map (fun o =>
    if o.wave = w ∧ !o.done then { o with done := true, published := true } else o) }

/-- A spawn that waited at a full queue issues again (R161, R188). -/
def wakeSpawns (d : Dev) : Dev :=
  (allSplits d).foldl (fun d p => if (splitOf (waveOf d p.1) p.2).park = .queueFull then unpark d p.1 p.2 else d) d

/-- A split that ends while it is parked at a phaser is no waiter of it any more (R282). -/
def leavePhaser (m : Memory) (d : Dev) (w sp : Nat) : Dev :=
  match (splitOf (waveOf d w) sp).park with
  | .phwait _ _ _ (.due _ _) => d
  | .phwait n _ _ _ => countWaiters d n { phaserOf m d n with waiters := (phaserOf m d n).waiters - 1 }
  | _ => d

/-- The waves of launches that fail end: none of them waits for a lock any more before the first of their locks is broken, and
the traps that they have not taken are recorded (R145, R194, R197). -/
def killWaves (m : Memory) (d : Dev) (ws : List Nat) : Dev :=
  let d1 := dropWhere m d (fun w _ => ws.contains w)
  let d2 := ws.foldl (fun d w =>
    let e := orphanTraps m ((List.range (waveOf d w).splits.length).foldl (fun d sp => leavePhaser m d w sp) d) w
    setWave e w { waveOf e w with live := false, monitor := none, reservation := none, splits := [noSplit] }) d1
  ws.foldl (lateBreaks m) d2

/-- End launches with an error, those that have not ended: the waves that remain end and their locks are broken, their entries leave
the queues, and the end of each takes place once its engine operations have completed (R145, R194). -/
def failLaunches (m : Memory) (d : Dev) (ls : List Nat) (status : BitVec 8) : Dev :=
  let mine := ls.filter (fun l => !((launchOf d l).ended || (launchOf d l).status.isSome))
  let d1 := mine.foldl (fun d l => setLaunch d l { launchOf d l with status := some status, pending := 0 }) d
  let d2 := wakeSpawns { d1 with queues := d1.queues.map (fun q => q.filter (fun e => !mine.contains (entryLaunch e.work))) }
  let ws := (List.range d2.waves.length).filter (fun w => mine.contains (waveOf d2 w).launch && (waveOf d2 w).live)
  let d3 := ws.foldl (fun d w => dropAway (publishWave m d w 0) w) d2
  let d5 := ws.foldl (fun d w => abortOrphans m d w) (killWaves m d3 ws)
  let cs := (List.range d5.clusters.length).filter (fun c => mine.contains (clusterOf d5 c).launch)
  let d6 := { d5 with shadow := d5.shadow.filter (fun c => !cs.contains c) }
  cs.foldl (fun d c => settleCluster m ((clusterOf d c).sets.foldl (fun d t => freeBlock m d t) d) c) d6

/-- End a launch with an error (R194). -/
def failLaunch (m : Memory) (d : Dev) (l : Nat) (status : BitVec 8) : Dev := failLaunches m d [l] status

end Sys2Proof.Machine
end

