-- ==== Sys2Proof/Machine/Memory.lean ====
section
/-!
DEFINITION. Loads, stores and full/empty accesses: major 0x20 (spec/15_isa_memory.md R262 to R270).
-/
namespace Sys2Proof.Machine

/-- A value as it is loaded into an a or s register (R266). -/
def extLoad (t : Ty) (v : W64) : W64 :=
  match t with
  | .i8 => (v.setWidth 8).signExtend 64
  | .i16 => (v.setWidth 16).signExtend 64
  | .i32 => (v.setWidth 32).signExtend 64
  | .q24 => ((intCode .q24 (intOf .q24 v)).setWidth 32).signExtend 64
  | _ => readTy t v

/-- A value as it is loaded into a qd entry (R266). -/
def extQueue (t : Ty) (v : W64) : W64 := if tyBytes t ≤ 4 then ((extLoad t v).setWidth 32).setWidth 64 else extLoad t v

/-- Write what a memory instruction loads (R262, R266). -/
def loadDst (t : Ty) (m : W32) (code : BitVec 8) (f : Nat → W64) : Act Unit :=
  match opd code with
  | .qd => pushQd (rowOf m (fun l => extQueue t (f l)))
  | _ => putA 0 m code (fun l => extLoad t (f l))

/-- The next register of a `.v2` operand; other codes stand for both elements (R266). -/
def nextCode (code : BitVec 8) : BitVec 8 := if regAS code then code + 1 else code

/-- The effective address of each lane of format M (R215). -/
def laneAddr (base : BitVec 8) (off : BitVec 16) (m : W32) : Act (Nat → W64) := do
  let src ← takeSrc .n64 m base
  let d ← dev
  let x := me d
  let s := mySplit d
  pure (fun l => w64 (effAddr (valA x s src l) off))

/-- The effective address of each element of a row (R267). -/
def rowAddr (base : BitVec 8) (off : BitVec 16) (n : Nat) (m : W32) : Act (Nat → W64) := do
  let f ← laneAddr base off m
  pure (fun l => f l + w64 (l * n))

/-- The space of a format M instruction; codes that name none have been refused (R16). -/
def spaceM (sp : BitVec 4) : Space := (space sp.toNat).getD .g

/-- The peers that places name, once each, in order. -/
def peersOf (ps : List (Nat × Place)) : List Nat := (ps.filterMap (fun p => peerOf p.2)).eraseDups

/-- The elements of a type that a lane has read, as values. -/
def elemsOf (t : Ty) (two : Bool) (l : Nat) (bs : List Byte) : List (Nat × W64) :=
  (l, leWord (bs.take (tyBytes t))) :: (if two then [(l + 32, leWord (bs.drop (tyBytes t)))] else [])

/-- The parts of a load: each lane that this device serves by itself, then one request for each peer, whose answer holds its
lanes' elements in lane order (R125, R266). -/
def loadParts (t : Ty) (two : Bool) (n : Nat) (keep konst : Bool) (ea : Nat → W64) (ps : List (Nat × Place)) : List Part :=
  ((ps.filter (fun p => (peerOf p.2).isNone)).map (fun p =>
    { lanes := [p.1], run := do pure (elemsOf t two p.1 (← readPlace p.2 n (ea p.1).toNat keep konst)) })) ++
  (peersOf ps).map (fun q =>
    let ls := (ps.filter (fun p => peerOf p.2 == some q)).map (·.1)
    { lanes := ls, peer := some q, answer := fun r =>
        ls.zipIdx.flatMap (fun l => (l.1, lane r l.2) :: (if two then [(l.1 + 32, lane r (l.2 + 32))] else [])) })

/-- A load of each active lane (R266, R267). An access to a peer waits for its answer (R125). -/
def loadOp (h : Head) (d : BitVec 8) (t : Ty) (two : Bool) (sp : Space) (keep : Bool)
    (addrs : W32 → Act (Nat → W64)) : Act Verdict := do
  let m ← acting h false
  let ea ← addrs m
  roomFor d (if two then 2 else 1)
  let n := tyBytes t * (if two then 2 else 1)
  let dv ← dev
  let ps ← checkLanes (unserved dv m) (fun l =>
    checkPlace sp { acc := .read, size := n, posted := (mySplit dv).ans.isSome } (ea l).toNat)
  inParts (loadParts t two n keep (sp == .k) ea ps) (fun r => do
    loadDst t m d (lane r)
    if two then loadDst t m (nextCode d) (fun l => lane r (l + 32)) else pure ()
    pure .retire)

def execLd (h : Head) (f : FmtM) (s : State) : Out :=
  runA (.ld h f) h (loadOp h f.d (ty f.sz) (bits f.q 0 0 == 1) (spaceM f.sp) (bits f.q 1 1 == 0)
    (laneAddr f.base f.off)) s
def execLdw (h : Head) (f : FmtM) (s : State) : Out :=
  runA (.ldw h f) h (loadOp h f.d (ty f.sz) false (spaceM f.sp) true (rowAddr f.base f.off (tyBytes (ty f.sz)))) s

/-- The bytes that a store writes of a source (R266). -/
def storeBytes (t : Ty) (v : W64) : List Byte := leBytes (tyBytes t) (if t = .q24 then readTy .q24 v else v)

/-- The lanes of a store, performed in ascending order; one that would be appended to a log is an ordering operation
in FO mode (R160, R266). -/
def storeOp (h : Head) (d : BitVec 8) (t : Ty) (two : Bool) (sp : Space) (addrs : W32 → Act (Nat → W64)) :
    Act Verdict := do
  let m ← acting h false
  let s0 ← takeSrc .n64 m d
  let s1 ← (match opd d with
    | .qv => if two then takeSrc .n64 m d else pure s0
    | _ => if two then takeSrc .n64 m (nextCode d) else pure s0)
  let ea ← addrs m
  let n := tyBytes t * (if two then 2 else 1)
  let dv ← dev
  let ps ← checkLanes (unserved dv m) (fun l =>
    checkPlace sp { acc := .write, size := n, writes := true, posted := true } (ea l).toNat)
  let x := me dv
  let q := mySplit dv
  let bytes := fun (l : Nat) =>
    storeBytes t (valT x q t s0 l) ++ (if two then storeBytes t (valT x q t s1 l) else [])
  let go := inParts (ps.map (fun p =>
    { lanes := [p.1], run := do
        writePlace p.2 t (bytes p.1)
        pure [] })) (fun _ => pure .retire)
  if x.fo && ps.any (fun p => wouldLog dv p.2) then ordering go else go

def execSt (h : Head) (f : FmtM) (s : State) : Out :=
  runA (.st h f) h (storeOp h f.d (ty f.sz) (bits f.q 0 0 == 1) (spaceM f.sp) (laneAddr f.base f.off)) s
def execStw (h : Head) (f : FmtM) (s : State) : Out :=
  runA (.stw h f) h (storeOp h f.d (ty f.sz) false (spaceM f.sp) (rowAddr f.base f.off (tyBytes (ty f.sz)))) s

/-! ### Full/empty accesses (R45 to R47, R268, R269). -/

/-- The lanes of an `ldfe` that still wait, as wants. -/
def wantsOf (ps : List (Nat × Place)) (n : Nat) : List Want :=
  ps.filterMap (fun p => match p.2 with
    | .page t pi off => some ⟨p.1, t, pi, off, n⟩
    | _ => none)

/-- Whether the granule of a want can be served at once. -/
def wantReady (d : Dev) (w : Want) : Bool :=
  let p := pageOf d w.set w.pg
  (p.st == .pinned || p.st == .unpinned) && p.full.getLsbD (granOf w.off)

/-- Whether the page of a want is in a frame. -/
def wantHere (d : Dev) (w : Want) : Bool :=
  (pageOf d w.set w.pg).st == .pinned || (pageOf d w.set w.pg).st == .unpinned

/-- Serve the wants whose granules are full, and empty those granules under `.clr` (R46, R268). -/
def serveWants (d : Dev) (clr : Bool) (ws : List Want) : Dev :=
  let ready := ws.filter (wantReady d)
  let s := mySplit d
  let vals := ready.foldl (fun r w => put 0 r w.l (wantVal d w)) s.servedVals
  let d1 := if clr then ready.foldl (fun d w => modPage d w.set w.pg (fun p =>
    { p with full := p.full &&& ~~~(bit256 (granOf w.off)), dirty := true })) d else d
  setMySplit d1 { mySplit d1 with served := ready.foldl (fun k w => k ||| (1#32 <<< w.l)) s.served, servedVals := vals }

/-- A poisoned granule stops an `ldfe` that it could serve at once (R68). -/
def wantParts (ws : List Want) (ea : Nat → Nat) : List Part :=
  ws.map (fun w => { lanes := [w.l], run := do
    let d ← devP
    if wantReady d w then checkPoison w.set w.pg w.off 1 (ea w.l) else pure ()
    pure [] })

/-- The lanes that an `ldfe` could not serve wait parked at their granules, in order of arrival (R46, R47); the fills of pages that
are not there begin. In FO mode it waits for those pages in its place, so that no later key arrives before it (R161, log 17). -/
def waitGranules (clr : Bool) (rest : List Want) : Act Verdict := do
  let d ← dev
  let gone := rest.filter (fun w => !wantHere d w)
  gone.forM (fun w => awaitPage w.set w.pg)
  if (me d).fo && !gone.isEmpty then pure .stay
  else do
    upd (fun d => { d with seq := d.seq + 1 })
    park (.ldfe d.seq clr rest)

def execLdfe (h : Head) (f : FmtM) (s : State) : Out :=
  runA (.ldfe h f) h (do
    let t := ty f.sz
    let m ← acting h false
    let ea ← laneAddr f.base f.off m
    roomFor f.d 1
    let d ← dev
    let done := fun (r : Row) => (do
      loadDst t m f.d (lane r)
      if m = 0 then pure () else upd (fun d => emptyLeases d d.cur.1)
      pure .retire : Act Verdict)
    match (mySplit d).ans with
    | some r => done r
    | none =>
      let ps ← checkLanes (unserved d m) (fun l =>
        checkPlace (spaceM f.sp) { acc := .read, size := tyBytes t } (ea l).toNat)
      if ps.isEmpty then done (mySplit d).servedVals
      else ordering (do
        let ws := wantsOf ps (tyBytes t)
        needParts (wantParts ws (fun l => (ea l).toNat))
        let d1 ← dev
        upd (fun d => serveWants d (f.q == 1) ws)
        let d2 ← dev
        match ws.filter (fun w => !wantReady d1 w) with
        | [] => done (mySplit d2).servedVals
        | rest => waitGranules (f.q == 1) rest)) s

/-- The granules that places name, once each, in order. -/
def granules (ps : List (Nat × Place)) : List (Nat × Nat × Nat) :=
  (ps.filterMap (fun p => match p.2 with
    | .page t pi off => some (t, pi, granOf off)
    | _ => none)).eraseDups

/-- The lanes of an `stfe`: their pages are there, their bytes are written, their granules become full (R45, R268). -/
def storeFull (ps : List (Nat × Place)) (bs : Nat → List Byte) (e : Nat) : Perf Unit := do
  ps.forM (fun p => match p.2 with
    | .page t pi _ => pageReady t pi
    | _ => pure ())
  ps.forM (fun p => match p.2 with
    | .page u pi off => updP (fun _ d => changePage d u pi off (bs p.1).length (fun g =>
        { pagePut g off (bs p.1) with poison := g.poison &&& ~~~(bit256 (granOf off)) }))
    | _ => pure ())
  (granules ps).forM (fun g => updP (fun _ d => setFull d g.1 g.2.1 g.2.2 e))

def execStfe (h : Head) (f : FmtM) (s : State) : Out :=
  runA (.stfe h f) h (do
    let t := ty f.sz
    let m ← acting h false
    let src ← takeSrc .n64 m f.d
    let ea ← laneAddr f.base f.off m
    let ps ← checkLanes (lanesOf m) (fun l =>
      checkPlace (spaceM f.sp) { acc := .write, size := tyBytes t, writes := true } (ea l).toNat)
    let d ← dev
    let x := me d
    let sp := mySplit d
    if ps.isEmpty then pure .retire
    else ordering (do
      match ← perform (storeFull ps (fun l => storeBytes t (valT x sp t src l)) sp.clock) with
      | none => pure .stay
      | some _ => pure .retire)) s

/-- The byte range of a `fill` in a set's store: set, store, first offset, end of the allocation (R269). -/
def fillRange (d : Dev) (sp : Space) (ea : Nat) : Except Trap (Nat × StoreId × Nat) :=
  match sp with
  | .store st => .ok ((me d).set, st, ea)
  | _ =>
    if 2 ^ 24 ≤ ea then .error { cause := cBOUNDS, addr := w64 ea }
    else match teamSet d (mySet d).cluster (ea / 2 ^ 21 % 8) with
      | some t => .ok (t, storeOf (ea / 2 ^ 19), ea % 2 ^ 19)
      | none => .error { cause := cBOUNDS, addr := w64 ea }

/-- Set or clear the granules of a range, in ascending order (R269). -/
def fillGranules (set : Bool) (t : Nat) (st : StoreId) (off n e : Nat) : Perf Unit := do
  let gs := (List.range (n / 16)).map (fun i => off / 16 + i)
  let d ← devP
  let at_ := fun (g : Nat) => (findPage (setOf d t) st (g / 256)).getD 0
  ((gs.map (· / 256)).eraseDups).forM (fun q => pageReady t ((findPage (setOf d t) st q).getD 0))
  gs.forM (fun g => updP (fun _ d =>
    if set then setFull d t (at_ g) (g % 256) e
    else modPage d t (at_ g) (fun p => { p with full := p.full &&& ~~~(bit256 (g % 256)), dirty := true })))

def execFill (h : Head) (f : FmtM) (s : State) : Out :=
  runA (.fill h f) h (do
    let m ← acting h false
    let src ← takeSrc .n64 m f.d
    let addr ← laneAddr f.base f.off m
    let d ← dev
    match lowLane m with
    | none => pure .retire
    | some l =>
      let ea := (addr l).toNat
      let n := (valA (me d) (mySplit d) src l).toNat
      let one := fun (t : Trap) => { t with info2 := maskOf [l] }
      need (decide (ea % 16 = 0) && decide (n % 16 = 0)) (one { cause := cALIGN, addr := w64 ea })
      if n = 0 then pure .retire
      else match fillRange d (spaceM f.sp) ea with
        | .error t => trap (one t)
        | .ok (t, st, off) =>
          need (decide (off + n ≤ 4096 * allocPages (setOf d t) st)) (one { cause := cBOUNDS, addr := w64 ea })
          ordering (do
            match ← perform (fillGranules (f.q == 1) t st off n (mySplit d).clock) with
            | none => pure .stay
            | some _ => pure .retire)) s

/-- The pages that lanes name begin to fill; an address that fails its checks does nothing (R270). -/
def prefetchLanes (sp : Space) (lanes : List Nat) (ea : Nat → Nat) : Act Unit :=
  lanes.forM (fun l => do
    match ← tryAct (checkPlace sp { acc := .read, size := 1 } (ea l)) with
    | .ok (.page t pi _) => actU (fun m d => startFill m d t pi)
    | _ => pure ())

/-- A hint: a non-resident store page starts to fill, and nothing else happens (R270). -/
def execPrefetch (h : Head) (f : FmtM) (s : State) : Out :=
  runA (.prefetch h f) h (do
    let m ← acting h false
    let ea ← laneAddr f.base f.off m
    match spaceM f.sp with
    | .g | .k => pure .retire
    | sp => do
      prefetchLanes sp (lanesOf m) (fun l => (ea l).toNat)
      pure .retire) s

end Sys2Proof.Machine
end

