-- ==== Sys2Proof/Machine/Atomics.lean ====
section
/-!
DEFINITION. Atomics and reductions, major 0x28 (spec/15_isa_memory.md R271 to R275, spec/06_model_near.md R110, R111),
and reservations, `lr` and `sc` (R276, spec/07_model_far.md R128).
-/
namespace Sys2Proof.Machine

/-- The space of an atomic, MD[7:5] (R271). -/
def spaceX (md : BitVec 8) : Space := (space (bits md 7 5)).getD .g
/-- The scope of an atomic, MD[4:3] (R271). -/
def scopeX (md : BitVec 8) : Scope := scope (bits md 4 3)

/-- Bring a line of device memory to where an atomic of a scope performs: the issuer's cluster unit for `.clu`, the
home slice for every other (R114, R275). -/
def atomicPlace (d : Dev) (n : Nat) (clu : Bool) : Dev :=
  if clu then grantLine d n (clusterIdx d d.cur.1) else recallLine d n

/-- Read, compute and write at one place, as one action: the value before it, and what `fn` answers with the new value
(R110, R275). An access to the registers that is no plain read or write does nothing (R365; DESIGN CHOICE, log 31). -/
def readModify {α : Type} (p : Place) (t : Ty) (addr : Nat) (clu : Bool) (fn : W64 → W64 × α) : Perf α :=
  let n := tyBytes t
  match p with
  | .page s pi off => do
    pageReady s pi
    checkPoison s pi off n addr
    liftD (fun _ d =>
      let r := fn (leWord (pageBytesAt (pageOf d s pi) off n))
      (r.2, changePage d s pi off n (fun g => pagePut g off (leBytes n r.1))))
  | .device k => do
    linePoison k addr
    liftD (fun m d =>
      let d1 := atomicPlace d (lineNo k) clu
      let r := fn (leWord (rdBytes m d1 k n))
      (r.2, homeWrite m d1 (whoMe d) k (leBytes n r.1)))
  | .host k => do
    linePoison k addr
    liftD (fun m d =>
      let r := fn (leWord (rdBytes m d k n))
      (r.2, takeHost (wrBytes d k (leBytes n r.1)) k))
  | .mapped _ _ _ _ | .peer _ _ | .reg _ => pure (fn 0).2

/-- The lanes that name each place, in lane order (R111). Two virtual addresses of one place count as one address, which the
manual does not settle (DESIGN CHOICE, log 64). -/
def groups (ps : List (Nat × Place)) : List (Place × List Nat) :=
  ((ps.map (·.2)).eraseDups).map (fun p => (p, (ps.filter (fun q => q.2 == p)).map (·.1)))

/-- The operand that one request carries for a group: the left fold of its lanes' operands (R111). -/
def foldOperand (op : Nat) (t : Ty) : List W64 → W64
  | [] => 0
  | v :: r => r.foldl (atomVal op t) v

/-- What the lanes of a group make of the old value and their operands: the new value, and each lane's old value. -/
abbrev GroupFn := List Nat → W64 → W64 × List (Nat × W64)

/-- The parts of an atomic: one request for each group, in the order of their lowest lanes (R111, R275). A peer answers with
the old value. -/
def atomParts (t : Ty) (clu : Bool) (ea : Nat → W64) (fn : GroupFn) (ps : List (Nat × Place)) : List Part :=
  (groups ps).map (fun g =>
    { lanes := g.2, peer := peerOf g.1, run := readModify g.1 t (ea (g.2.headD 0)).toNat clu (fn g.2),
      answer := fun r => (fn g.2 (lane r 0)).2 })

/-- The shared shape of `atom` and `atomcas`: each group performs and answers its lanes' old values (R273). -/
def atomOp (h : Head) (f : FmtX) (lanesFn : (Nat → W64) → (Nat → W64) → GroupFn) : Act Verdict := do
  let t := ty f.ty
  let m ← acting h false
  let a ← takeSrc .n64 m f.a
  let b ← takeSrc .n64 m f.b
  let c ← takeSrc .n64 m f.c
  let d ← dev
  let x := me d
  let s := mySplit d
  let rd := fun (src : Src) (l : Nat) => readTy t (valT x s t src l)
  roomFor f.d 1
  let ps ← checkLanes (unserved d m) (fun l =>
    checkPlace (spaceX f.md)
      { acc := .readWrite, size := tyBytes t, writes := true, atomic := true, posted := s.ans.isSome } (valA x s a l).toNat)
  let go := inParts (atomParts t (scopeX f.md == .clu) (valA x s a) (lanesFn (rd b) (rd c)) ps) (fun r => do
    loadDst t m f.d (lane r)
    pure .retire)
  if m ≠ 0 && scopeX f.md ≠ .team then ordering go else go

def execAtom (h : Head) (f : FmtX) (s : State) : Out :=
  runA (.atom h f) h (atomOp h f (fun b _ ls o =>
    let r := foldLanes (bits f.md 2 0) (ty f.ty) o (ls.map b)
    (r.1, ls.zip r.2))) s

/-- The lanes of a compare and swap, one after another (R111, R273). -/
def casLanes (b c : Nat → W64) (ls : List Nat) (o : W64) : W64 × List (Nat × W64) :=
  ls.foldl (fun p l => (if p.1 = c l then b l else p.1, p.2 ++ [(l, p.1)])) (o, [])

def execAtomcas (h : Head) (f : FmtX) (s : State) : Out := runA (.atomcas h f) h (atomOp h f casLanes) s

/-- One request of a `red` (R55, R110, R124). -/
def redGroup (op : Nat) (t : Ty) (clu : Bool) (addr : Nat) (vs : List W64) (p : Place) : Perf Unit :=
  match p with
  | .page s pi off => pageRed s pi off op t (foldOperand op t vs) addr
  | .peer n _ => updP (fun _ d => postWrite d n)
  | _ => readModify p t addr clu (fun o => ((foldLanes op t o vs).1, ()))

def execRed (h : Head) (f : FmtX) (s : State) : Out :=
  runA (.red h f) h (do
    let t := ty f.ty
    let m ← acting h false
    let a ← takeSrc .n64 m f.a
    let b ← takeSrc .n64 m f.b
    let d ← dev
    let x := me d
    let s := mySplit d
    let ps ← checkLanes (unserved d m) (fun l =>
      checkPlace (spaceX f.md)
        { acc := .readWrite, size := tyBytes t, writes := true, atomic := true, posted := true } (valA x s a l).toNat)
    let go := inParts ((groups ps).map (fun g =>
      { lanes := g.2, run := do
          redGroup (bits f.md 2 0) t (scopeX f.md == .clu) (valA x s a (g.2.headD 0)).toNat
            (g.2.map (fun l => readTy t (valT x s t b l))) g.1
          pure [] })) (fun _ => pure .retire)
    if m ≠ 0 && (scopeX f.md ≠ .team || (x.fo && ps.any (fun p => wouldLog d p.2))) then ordering go else go) s

/-! ### Reservations (R276). -/

/-- The place of `lr` or `sc`: device memory alone (R128). -/
def devicePlace (u : Use) (va : Nat) : Act Place := do
  match ← checkPlace .g u va with
  | .device k => pure (.device k)
  | _ => trap (permRule va)

/-- `lr` and `sc` refuse a leaf with TGT ≠ 0 by their own rule, whatever the state of a link (R128). -/
def resUse (t : Ty) (writes : Bool) : Use :=
  { acc := .readWrite, size := tyBytes t, writes := writes, atomic := true, posted := true }

/-- The line of a place in device memory. -/
def deviceLine : Place → Nat
  | .device k => lineNo k
  | _ => 0

/-- A lane of `lr`: a read at the line's home, never through a lease (R276). -/
def lrRead (p : Place) (t : Ty) (addr l : Nat) : Perf (List (Nat × W64)) :=
  match p with
  | .device k => do
    linePoison k addr
    liftD (fun m d =>
      let d1 := recallLine d (lineNo k)
      ([(l, leWord (rdBytes m d1 k (tyBytes t)))], sawHome m d1 d1.cur.1 k (tyBytes t)))
  | _ => pure []

def execLr (h : Head) (f : FmtM) (s : State) : Out :=
  runA (.lr h f) h (do
    let t := ty f.sz
    let m ← acting h false
    let ea ← laneAddr f.base f.off m
    roomFor f.d 1
    let ps ← checkLanes (lanesOf m) (fun l => devicePlace (resUse t false) (ea l).toNat)
    match ps with
    | [] => do
      loadDst t m f.d (fun _ => 0)
      pure .retire
    | (_, p0) :: _ => ordering (inParts (ps.map (fun p => { lanes := [p.1], run := lrRead p.2 t (ea p.1).toNat p.1 })) (fun r => do
        upd (fun d => setMe d { me d with reservation := some (deviceLine p0) })
        loadDst t m f.d (lane r)
        pure .retire))) s

/-- The lanes of an `sc`, in ascending order (R276): the lanes that stored. -/
def scLanes (m : Memory) (t : Ty) (v : Nat → W64) : List (Nat × Place) → Dev → W32 → Dev × W32
  | [], d, ok => (d, ok)
  | (l, p) :: r, d, ok =>
    match p with
    | .device k =>
      if (me d).reservation = some (lineNo k) then
        let d1 := homeWrite m (recallLine (setMe d { me d with reservation := none }) (lineNo k)) (whoMe d) k
          (leBytes (tyBytes t) (v l))
        scLanes m t v r d1 (ok ||| (1#32 <<< l))
      else scLanes m t v r d ok
    | _ => scLanes m t v r d ok

def execSc (h : Head) (f : FmtX) (s : State) : Out :=
  runA (.sc h f) h (do
    let t := ty f.ty
    let m ← acting h false
    let a ← takeSrc .n64 m f.a
    let b ← takeSrc .n64 m f.b
    let d ← dev
    let x := me d
    let s := mySplit d
    roomFor f.d 1
    let ps ← checkLanes (lanesOf m) (fun l => devicePlace (resUse t true) (valA x s a l).toNat)
    if m = 0 then do
      loadDst .n64 m f.d (fun _ => 0)
      pure .retire
    else ordering (do
      let ok ← act (fun m d => let r := scLanes m t (valA x s b) ps d 0; (r.2, r.1))
      upd (fun d => setMe d { me d with reservation := none })
      loadDst .n64 m f.d (fun l => if ok.getLsbD l then 0 else 1)
      pure .retire)) s

end Sys2Proof.Machine
end

