-- ==== Sys2Proof/Machine/Control.lean ====
section
/-!
DEFINITION. Control: major 0x1C (spec/14_isa_compute.md R257 to R261), and its device steps WAIT_EXPIRY and
YIELD_EXPIRY.
-/
namespace Sys2Proof.Machine

/-- The target of format B (R216). -/
def targetB (s : Split) (off : BitVec 24) : W64 := BitVec.ofInt 64 ((s.pc / 64 * 64 : Nat) + 64 * off.toInt)

/-- Go to a target that has been checked. -/
def goTo (h : Head) (acc exe : Bool) (va : Nat) : Act Verdict := do
  retireTo h.stl.toNat acc exe va
  pure .moved

def execBr (h : Head) (f : FmtB) (s : State) : Out :=
  runA (.br h f) h (do
    let m ← acting h false
    let d ← dev
    if m = 0 then pure .retire
    else
      let va := targetB (mySplit d) f.off
      checkTarget va
      goTo h true false va.toNat) s

/-- Where the lanes that do not branch go on: the next word, or the next boundary, which is checked (R210). -/
def fallThrough : Act (Option Nat) := do
  let d ← dev
  let s := mySplit d
  if atLast s then
    checkTarget (w64 (boundary s))
    pure (some (boundary s))
  else pure none

/-- A conditional branch with taken lanes `t` (R166, R258). -/
def branchOn (h : Head) (acc exe : Bool) (off : BitVec 24) (t : W32) : Act Verdict := do
  let d ← dev
  let s := mySplit d
  let va := targetB s off
  if t = 0 then pure .retire
  else
    checkTarget va
    if t = s.mask then goTo h acc exe va.toNat
    else
      let p ← reconvOf
      roomToDiverge p
      let next ← fallThrough
      upd (fun d => countWord d h.stl.toNat acc exe)
      diverge t (s.mask &&& ~~~t) va.toNat p
      match next with
      | some b => upd (fun d => goHeader d b)
      | none => upd (fun d => setMySplit d { mySplit d with pc := s.pc + 8 })
      pure .moved

def execBrc (h : Head) (f : FmtB) (s : State) : Out :=
  let exe := bits f.flg 0 0 == 0
  .next (runSplit (framed (.brc h f) h (!exe) exe [] (do
    let d ← dev
    let c ← takePred exe (mySplit d).mask f.reg
    let t := if bits f.flg 1 1 = 1 then ~~~c else c
    branchOn h (!exe) exe f.off (t &&& (mySplit d).mask))) s)

/-- The lanes of each target, lowest target first (R166). -/
def groupTargets (lanes : List Nat) (f : Nat → W64) : List (Nat × W32) :=
  let vs := (sortBy (fun a b => decide (a ≤ b)) (lanes.map (fun l => (f l).toNat))).eraseDups
  vs.map (fun v => (v, maskOf (lanes.filter (fun l => (f l).toNat == v))))

/-- A transfer to per-lane targets (R257, R258): `brx` and `ret`. -/
def branchLanes (h : Head) (a : BitVec 8) : Act Verdict := do
  let m ← acting h false
  let src ← takeSrc .n64 m a
  let d ← dev
  let s := mySplit d
  if m = 0 then pure .retire
  else
    let lanes := lanesOf m
    let tgt := valA (me d) s src
    let rs ← lanes.mapM (fun l => do pure (l, ← tryAct (checkTarget (tgt l))))
    let bad := rs.filterMap (fun r => match r.2 with | .error t => some (r.1, t) | .ok _ => none)
    match bad with
    | (_, t) :: _ => if bad.any (fun r => r.2.cause = 0) then again else trap { t with info2 := maskOf (bad.map (·.1)) }
    | [] =>
      let gs := groupTargets lanes tgt
      let p ← (if gs.length ≤ 1 then pure 0 else reconvOf)
      upd (fun d => countWord d h.stl.toNat true false)
      divergeAll p gs
      pure .moved

def execBrx (h : Head) (f : FmtX) (s : State) : Out := runA (.brx h f) h (branchLanes h f.a) s
def execRet (h : Head) (f : FmtX) (s : State) : Out := runA (.ret h f) h (branchLanes h f.a) s

def execCall (h : Head) (f : FmtB) (s : State) : Out :=
  runA (.call h f) h (do
    let d ← dev
    let sp := mySplit d
    need (atLast sp) (illop (.call h f))
    let m ← acting h false
    if m = 0 then pure .retire
    else
      let va := targetB sp f.off
      checkTarget va
      putA 0 m f.reg (fun _ => w64 (boundary sp))
      goTo h true false va.toNat) s

/-- The locks that a wave still holds as its last lanes end are broken first, as a `.dev` release of its writes (R145, R146). -/
def unlocked (body : Act Verdict) : Act Verdict := do
  let d ← dev
  if (me d).held.isEmpty then body
  else releasing .dev (do
    actU breakHeld
    let e ← dev
    if (mySplit e).park = .running then body else pure .moved)

/-- The split's active lanes end (R259, R335). In FO mode the wave's last lanes first publish its engine operations,
and a subtraction is an ordering operation, after a `.dev` release (R163, R177). -/
def endBody (sub : Wave → Option (W64 × Nat)) : Act Verdict := do
  let d ← dev
  if !lastLanes d d.cur.1 d.cur.2 then do
    actU (fun m d => endSplit m d)
    upd (fun d => if (mySplit d).mask = 0 then d else moveClock d d.cur.1 d.cur.2 ((mySplit d).clock + 1))
    pure .moved
  else ordering (unlocked (match sub (me d) with
    | none => do
      actU (fun m d => endSplit m d)
      pure .moved
    | some (frame, joff) => releasing .dev (do
      actU (fun m d => endJoin m d frame joff)
      pure .moved)))

def execExit (h : Head) (f : FmtX) (s : State) : Out := runJ (.exit h f) h (endBody (fun _ => none)) s

/-- Whether two waves share a sub-pipe (R165). -/
def samePipe (d : Dev) (a b : Nat) : Bool :=
  let x := waveOf d a
  let y := waveOf d b
  vcoreOf d x == vcoreOf d y && x.widx % 4 == y.widx % 4 && setResident d x.set && setResident d y.set

/-- The streams of a word, access first, by its major and minor codes (R173, R174, R230). -/
def streamsOf (w : W64) : Bool × Bool :=
  let major := bits w 63 58
  let fn := bits w 49 44
  if major = 0 ∨ major = 0x3C then (true, true)
  else if major < 0x18 then (false, true)
  else if major = 0x1C then
    if fn = 5 ∨ fn = 6 then (true, true) else if fn = 1 ∧ bits w 0 0 = 0 then (false, true) else (true, false)
  else if major = 0x2C ∧ (fn = 13 ∨ fn = 14) then (true, true)
  else if major = 0x3A ∧ (fn = 1 ∨ fn = 2 ∨ fn = 5) then (true, true)
  else (true, false)

/-- The streams of the next word of a split: both for one that cannot be fetched, whose trap comes at its issue. -/
def nextStreams (m : Memory) (d : Dev) (w sp : Nat) : Bool × Bool :=
  match runAct (fetchWord (splitOf (waveOf d w) sp).pc) m { d with cur := (w, sp) } with
  | .ok (x, _) => streamsOf x
  | .error _ => (true, true)

/-- Whether a split stands at a word, neither parked nor ended. -/
def atWord (s : Split) : Bool := s.mask ≠ 0 && s.park == .running && !s.entering

/-- Whether the stalls of some streams have elapsed: those of their last words, and that of a `wait` in the access stream
(R178, R227, R261). -/
def unstalled (d : Dev) (s : Split) (st : Bool × Bool) : Bool :=
  (!st.1 || (decide (s.heldA ≤ d.cycle) && s.waitUntil.all (fun t => decide (t ≤ d.cycle)))) &&
    (!st.2 || decide (s.heldX ≤ d.cycle))

/-- Whether a split is ready to issue its next word (R178). -/
def readyWord (m : Memory) (d : Dev) (w sp : Nat) : Bool :=
  let s := splitOf (waveOf d w) sp
  atWord s && unstalled d s (nextStreams m d w sp)

/-- The other ready splits of the sub-pipe of the split that issues. -/
def otherReady (m : Memory) (d : Dev) : List (Nat × Nat) :=
  (allSplits d).filter (fun p =>
    p ≠ d.cur && (waveOf d p.1).live && samePipe d p.1 d.cur.1 && readyWord m d p.1 p.2)

def execYield (h : Head) (f : FmtX) (s : State) : Out :=
  runJ (.yield h f) h (do
    let others ← act (fun m d => (otherReady m d, d))
    retireWord h.stl.toNat true true
    if others.isEmpty then pure ()
    else upd (fun d => setMySplit d { mySplit d with park := .yielded d.cycle others })
    pure .moved) s

/-- The cycles until every earlier fixed-latency write of a split's access stream has completed (R228, R261). -/
def writesLeft (s : Split) : Nat := (s.pend.filter (·.acc)).foldl (fun n p => max n (p.lat - p.dist)) 0

/-- `wait` (R261) stands as an instruction whose stall count is STL + n, whatever its guard (R227, R229). -/
def execWait (h : Head) (f : FmtI) (s : State) : Out :=
  runA (.wait h f) h (do
    let m ← acting h false
    let d ← dev
    let n := f.imm.toNat + h.stl.toNat
    let left := if m = 0 then 0 else writesLeft (mySplit d)
    retireWord n true false
    upd (fun d => setMySplit d { mySplit d with waitUntil := some (d.cycle + max n left) })
    pure .moved) s

/-- The count of a `wait` has elapsed (R261). -/
def execWaitExpiry (w sp : Nat) (s : State) : Out :=
  runEvent (fun _ d =>
    modSplit d w sp (fun x => if x.waitUntil.any (fun t => decide (t ≤ d.cycle)) then { x with waitUntil := none } else x)) s

/-- 64 cycles have passed since a `yield` (R260). -/
def execYieldExpiry (w sp : Nat) (s : State) : Out :=
  runEvent (fun _ d =>
    modSplit d w sp (fun x => match x.park with
      | .yielded t _ => if t + 64 ≤ d.cycle then { x with park := .running } else x
      | _ => x)) s

end Sys2Proof.Machine
end

