-- ==== Sys2Proof/Machine/Convert.lean ====
section
/-!
DEFINITION. Groups of narrow data (spec/05_number_formats.md R77 to R84) and conversion: major 0x10
(spec/14_isa_compute.md R246 to R250).
-/
namespace Sys2Proof.Machine

/-- A group descriptor: its format code and scale (R81, R82). -/
structure Desc where
  fmtc : Nat
  scale : Nat
  deriving DecidableEq, Repr

/-- Element bits of the format codes (R82); 0 for a code that is no format. -/
def fmtBits (c : Nat) : Nat :=
  match c with
  | 0 | 1 => 16 | 2 | 3 => 8 | 4 | 5 => 4 | 6 | 7 => 8 | 8 | 9 => 32 | _ => 0

/-- Formats 6 to 8 are integer formats (R82). -/
def fmtInt (c : Nat) : Bool := c == 6 || c == 7 || c == 8

/-- The type of a format code (R82). -/
def fmtTy (c : Nat) : Ty :=
  match c with
  | 0 => .bf16 | 1 => .f16 | 2 => .e4m3 | 3 => .e5m2 | 4 => .e2m1 | 5 => .i4x | 6 => .i8 | 7 => .n8 | 8 => .q24 | _ => .f32

/-- The format code of a type, where it has one (R82). -/
def tyFmt : Ty → Nat
  | .bf16 => 0 | .f16 => 1 | .e4m3 => 2 | .e5m2 => 3 | .e2m1 => 4 | .i4x => 5 | .i8 => 6 | .n8 => 7 | .q24 => 8 | .f32 => 9
  | _ => 15

def descOf (x : BitVec 16) : Desc := ⟨bits x 3 0, bits x 15 8⟩
/-- The checks of a descriptor that need no container (R84). -/
def descOk (x : BitVec 16) : Bool :=
  bits x 3 0 ≤ 9 && bits x 7 4 == 0 && (!fmtInt (bits x 3 0) || bits x 15 8 == 0x7F)

/-- A nibble of an i4x group as a two's complement code (R77). -/
def int4 (n : Nat) : Int := (BitVec.ofNat 4 n).toInt

/-- Decode an i4x group from its slots, slot 0 first (R78): the elements, and whether a stray marker was found. -/
def i4xDecode : List Nat → Nat → List Fp × Bool
  | [], _ => ([], false)
  | x :: y :: z :: r, i =>
    if x ≠ 8 then let t := i4xDecode (y :: z :: r) (i + 1); (ofInt (int4 x) :: t.1, t.2)
    else
      let t := i4xDecode r (i + 3)
      (decodeF (fmt .e4m3) .nan (y * 16 + z) :: fzero false :: fzero false :: t.1, t.2)
  | x :: r, i =>
    if x ≠ 8 then let t := i4xDecode r (i + 1); (ofInt (int4 x) :: t.1, t.2)
    else ((x :: r).map (fun _ => fzero false), true)

/-- The element codes of a group's data bytes, for an element width (R78: slot 2j in the low half of byte j). -/
def slots (w : Nat) (data : List Byte) : List Nat :=
  match w with
  | 4 => data.flatMap (fun b => [b.toNat % 16, b.toNat / 16])
  | 8 => data.map (·.toNat)
  | 16 => pair data
  | _ => quad data
where
  pair : List Byte → List Nat
    | a :: b :: r => leNat [a, b] :: pair r
    | _ => []
  quad : List Byte → List Nat
    | a :: b :: c :: d :: r => leNat [a, b, c, d] :: quad r
    | _ => []

/-- The 32 elements of a group: decoded values times the scale; NaN throughout when SCALE is 0xFF (R73, R78, R83). The
flag is a stray marker. -/
def groupElems (dsc : Desc) (extra : Fp) (data : List Byte) : List Fp × Bool :=
  let codes := (slots (fmtBits dsc.fmtc) data).take 32
  let t := fmtTy dsc.fmtc
  let r :=
    if t = .i4x then i4xDecode codes 0
    else if fmtInt dsc.fmtc then (codes.map (fun c => ofInt (intOf t (w64 c))), false)
    else (codes.map (fun c => decodeF (fmt t) extra c), false)
  if dsc.scale = 0xFF then (r.1.map (fun _ => .nan), r.2)
  else (r.1.map (fun x => fpScale x ((dsc.scale : Int) - 127)), r.2)

/-- The type in which `cvt` takes its source: an inline integer stands for its exact value, which a narrow source type need not
hold (R219; DEDUCED, log 20). -/
def cvtSrc (f : FmtX) : Ty :=
  match opd f.a with
  | .inl _ => if noInline (srcTy f.md) then .i32 else srcTy f.md
  | _ => srcTy f.md

def execCvt (h : Head) (f : FmtX) (s : State) : Out :=
  runX (.cvt h f) h (codesX f) (laneOp h f (some (cvtSrc f)) none none (ty f.ty) (latX 6 [ty f.ty, srcTy f.md])
    (fun env a _ _ => convert env (ty f.ty) (cvtSrc f) (bits f.md 4 4 == 1) a)) s

/-- `pack2` (R247): a first, then b. -/
def pack2Of (env : LaneEnv) (dst src : Ty) (nsat : Bool) (a b : W64) : LaneRes :=
  let x := convert env dst src nsat a
  let y := convert { env with rss := x.rss } dst src nsat b
  let w := tyBits dst
  { val := readTy dst x.val ||| (readTy dst y.val <<< w), flags := x.flags ||| y.flags, rss := y.rss }

def execPack2 (h : Head) (f : FmtX) (s : State) : Out :=
  runX (.pack2 h f) h (codesX f) (laneOp h f (some (srcTy f.md)) (some (srcTy f.md)) none .n32
    (latX 6 [ty f.ty, srcTy f.md]) (fun env a b _ => pack2Of env (ty f.ty) (srcTy f.md) (bits f.md 4 4 == 1) a b)) s

/-- `unpack2` (R247): element 0 into the lower register of the pair, element 1 into the upper. -/
def unpack2Of (env : LaneEnv) (dst src : Ty) (nsat : Bool) (a : W64) : LaneRes :=
  let w := tyBits src
  let x := convert env dst src nsat (readTy src a)
  let y := convert { env with rss := x.rss } dst src nsat (readTy src (a >>> w))
  { val := ((writeTy dst x.val).setWidth 32).setWidth 64 ||| (writeTy dst y.val <<< 32), flags := x.flags ||| y.flags,
    rss := y.rss }

def execUnpack2 (h : Head) (f : FmtX) (s : State) : Out :=
  runX (.unpack2 h f) h (codesX f) (laneOp h f (some .n32) none none .n64 (latX 6 [ty f.ty, srcTy f.md])
    (fun env a _ _ => unpack2Of env (ty f.ty) (srcTy f.md) (bits f.md 4 4 == 1)
      (match opd f.a with | .inl z => inlineTy (srcTy f.md) z | _ => a))) s

/-- Fmax of `quant` (R248). -/
def quantMax : Ty → Nat
  | .e4m3 => 448 | .e5m2 => 57344 | .e2m1 => 6 | _ => 7

/-- The smallest integer e with m × 2^k ≤ fmax × 2^e, for m > 0 (R248): counted up from below. -/
def quantExp (fmax m : Nat) (k : Int) : Int :=
  let lo := topOf m k - bitLen fmax - 1
  (List.range 8).foldr (fun (i : Nat) best =>
    let e := lo + i
    let b := min k e
    if m * 2 ^ (k - b).toNat ≤ fmax * 2 ^ (e - b).toNat then e else best) (lo + 8)

/-- The SCALE of a quantised group (R248). -/
def quantScale (fmax : Nat) (xs : List Fp) : Nat :=
  let big := xs.foldl (fun a x =>
    match a, x with
    | .fin _ m e, .fin _ n g => if m ≠ 0 ∧ fpCmp (.fin false n g) (.fin false m e) ≤ 0 then a else .fin false n g
    | a, _ => a) (Fp.fin false 0 0)
  match big with
  | .fin _ m e => if m = 0 then 127 else (min 254 (max 0 (127 + quantExp fmax m e))).toNat
  | _ => 127

/-- encode_F of `quant` (R248): R87 and R76, or a clamped integer for i4x. -/
def quantCode (env : LaneEnv) (t : Ty) (nsat : Bool) (x : Fp) : LaneRes :=
  let st := stepRss env.rnd env.rss
  match t with
  | .i4x =>
    match x with
    | .nan => { val := 0, flags := fINV, rss := st }
    | .inf neg => { val := intCode .n8 (if neg then -7 else 7) &&& 0xF#64, flags := fSAT, rss := st }
    | .fin neg m e =>
      let r := roundTo env.rnd st neg m e 0 false
      let z : Int := if neg then -r.1 else r.1
      if z < -7 ∨ 7 < z then { val := intCode .n8 (if z < 0 then -7 else 7) &&& 0xF#64, flags := fSAT, rss := st }
      else { val := intCode .n8 z &&& 0xF#64, flags := if r.2 then fINX else 0, rss := st }
  | _ =>
    let e := encodeF (fmt t) env.rnd st nsat x false
    { val := w64 e.code, flags := e.flags, rss := st }

/-- The value that a lane quantises. -/
def quantVal (d : Dev) (a : Src) (l : Nat) : Fp := decodeF (fmt .f32) .nan (valX (me d) (mySplit d) .f32 a l).toNat

/-- The SCALE of the group that the active lanes make (R248). -/
def quantSc (d : Dev) (t : Ty) (m : W32) (a : Src) : Nat := quantScale (quantMax t) ((lanesOf m).map (quantVal d a))

/-- The element of a lane (R248). -/
def quantLane (d : Dev) (f : FmtX) (m : W32) (a : Src) (l : Nat) : LaneRes :=
  quantCode (envOf (me d) (roundingOf (me d) f.md) 0 l) (ty f.ty) (bits f.md 4 4 == 1)
    (fpScale (quantVal d a l) (127 - (quantSc d (ty f.ty) m a : Int)))

/-- The bytes of a group, an inactive lane's element being 0 (R78, R248). -/
def quantBytes (t : Ty) (m : W32) (res : Nat → LaneRes) : List Byte :=
  let code := fun (l : Nat) => if m.getLsbD l then (res l).val.toNat else 0
  if tyBits t = 4 then (List.range 16).map (fun j => BitVec.ofNat 8 (code (2 * j) + 16 * code (2 * j + 1)))
  else (List.range 32).map (fun j => BitVec.ofNat 8 (code j))

def execQuant (h : Head) (f : FmtX) (s : State) : Out :=
  runX (.quant h f) h (codesX f) (do
    let t := ty f.ty
    let q ← takeX h f (some .f32) none none
    let d ← dev
    let res := quantLane d f q.1 q.2.1
    upd (fun d => keepRes d q.1 res)
    putX .n64 10 q.1 f.d (fun l =>
      leWord (((quantBytes t q.1 res).drop (4 * l)).take 4) ||| w64 ((quantSc d t q.1 q.2.1 * 256 + tyFmt t) * 2 ^ 32))
    pure .retire) s

/-- The element of a lane of a group, as f32 (R249). -/
def dequantLane (d : Dev) (f : FmtX) (g : List Fp × Bool) (l : Nat) : LaneRes :=
  let env := envOf (me d) (roundingOf (me d) f.md) 0 l
  let st := stepRss env.rnd env.rss
  let e := encodeF (fmt .f32) env.rnd st (bits f.md 4 4 == 1) (nth g.1 l .nan) false
  { val := w64 e.code, flags := e.flags ||| (if g.2 then fFORMAT else 0), rss := st }

/-- The group in the pair that A names: its descriptor in the upper register of the lowest active lane, its data in the
lower (R249). -/
def dequantGroup (d : Dev) (f : FmtX) (raw : BitVec 16) : List Fp × Bool :=
  let dsc := descOf raw
  groupElems dsc (extraOf (me d).xva)
    ((List.range (fmtBits dsc.fmtc)).flatMap (fun l => leBytes 4 (regLane (me d) (mySplit d) f.a.toNat l)))

def execDequant (h : Head) (f : FmtX) (s : State) : Out :=
  runX (.dequant h f) h (codesX f) (do
    let m ← acting h true
    let c := f.a.toNat
    match lowLane m with
    | none => do
      putX .f32 10 m f.d (fun _ => 0)
      pure .retire
    | some l0 => do
      checkShort c 0xFFFFFFFF#32
      checkShort (c + 1) m
      let d ← dev
      let raw := (regLane (me d) (mySplit d) (c + 1) l0).setWidth 16
      need (descOk raw) { cause := cFORMAT }
      let res := dequantLane d f (dequantGroup d f raw)
      upd (fun d => keepRes d m res)
      putX .f32 10 m f.d (fun l => (res l).val)
      pure .retire) s

def execSrnd (h : Head) (f : FmtX) (s : State) : Out :=
  runX (.srnd h f) h (codesX f) (laneOp h f (some .n32) none none .n32 6
    (fun _ a _ _ => { val := 0, rss := if a = 0 then 1#32 else a.setWidth 32 })) s

end Sys2Proof.Machine
end

