-- ==== Sys2Proof/Machine/Layout.lean ====
section
/-!
DEFINITION. Layout records (spec/17_isa_copy_task_system.md R315 to R319): their fields, element addresses, the
out-of-range policy, descriptor planes, and the checks of `cpld`; the elements of each kind of copy (R321 to R323, R331).
-/
namespace Sys2Proof.Machine

/-- A two's complement field. -/
def sgn (n x : Nat) : Int := (BitVec.ofNat n x).toInt

def lRank (r : BitVec 512) : Nat := bits r 73 72 + 1
def lTy (r : BitVec 512) : Ty := ty (BitVec.ofNat 4 (bits r 71 68))
def lSpace (r : BitVec 512) : Nat := bits r 67 64
def lBase (r : BitVec 512) : W64 := w64 (bits r 56 0)
def lPol (r : BitVec 512) : Nat := bits r 75 74
def lSwn (r : BitVec 512) : Nat := bits r 78 76
def lSwl (r : BitVec 512) : Nat := bits r 82 79
def lSwh (r : BitVec 512) : Nat := bits r 86 83
def lWin (r : BitVec 512) : Bool := bits r 87 87 == 1
def lIdx (r : BitVec 512) : Bool := bits r 88 88 == 1
def lDesc (r : BitVec 512) : Bool := bits r 89 89 == 1
def lExtent (r : BitVec 512) (i : Nat) : Nat := bits r (159 + 32 * i) (128 + 32 * i)
def lStride (r : BitVec 512) (i : Nat) : Int := sgn 40 (bits r (295 + 40 * i) (256 + 40 * i))
def lDoff (r : BitVec 512) : Int := sgn 40 (bits r 455 416)

/-- Elements of TY 9 and 10 move in pairs (R316). -/
def lPair (r : BitVec 512) : Bool := tyBits (lTy r) == 4
/-- Descriptor elements in one moved element. -/
def lUnit (r : BitVec 512) : Nat := if lPair r then 2 else 1
/-- The element size s (R316). -/
def lSize (r : BitVec 512) : Nat := tyBytes (lTy r)
/-- The extent of a dimension in moved elements; 0 past the rank. -/
def lExt (r : BitVec 512) (i : Nat) : Nat :=
  if lRank r ≤ i then 0 else if i = 0 then lExtent r 0 / lUnit r else lExtent r i
/-- The extents of the record's dimensions. -/
def lExts (r : BitVec 512) : List Nat := (List.range (lRank r)).map (lExt r)

/-- A coordinate of a list, 0 past its end. -/
def crd (q : List Int) (i : Nat) : Int := (q[i]?).getD 0

/-- The byte offset of an element, swizzled (R316). -/
def elemOff (r : BitVec 512) (c : List Int) : W64 :=
  let off := BitVec.ofInt 64 (((List.range (lRank r)).map (fun i => crd c i * lStride r i)).sum)
  off ^^^ (((off >>> (lSwl r + lSwh r)) &&& w64 (2 ^ lSwn r - 1)) <<< lSwl r)

/-- The address of an element (R316). -/
def elemAddr (r : BitVec 512) (base : W64) (c : List Int) : W64 := base + elemOff r c

/-- The address of the descriptor of the group that holds an element (R318). -/
def descAddr (r : BitVec 512) (base : W64) (c : List Int) : W64 :=
  let e := fun (i : Nat) => (lExtent r i : Int)
  base + BitVec.ofInt 64 (lDoff r + 2 * (crd c 0 * lUnit r / 32 +
    (e 0 / 32) * (crd c 1 + e 1 * (crd c 2 + e 2 * crd c 3))))

/-- Whether a coordinate is out of range in a record (R317). -/
def outRange (r : BitVec 512) (c : List Int) : Bool :=
  (List.range 4).any (fun i =>
    if i < lRank r then decide (crd c i < 0) || decide ((lExt r i : Int) ≤ crd c i) else crd c i ≠ 0)

/-- The coordinate that the clamp policy reads (R317). -/
def clampTo (r : BitVec 512) (c : List Int) : List Int :=
  (List.range 4).map (fun i => if i < lRank r then max 0 (min (crd c i) ((lExt r i : Int) - 1)) else 0)

/-- The i-th coordinate list of a domain, dimension 0 fastest. -/
def unflat : List Nat → Nat → List Nat
  | [], _ => []
  | e :: r, n => n % e :: unflat r (n / e)

def ints (c : List Nat) : List Int := c.map (fun (n : Nat) => (n : Int))

/-! ### The checks of `cpld` (R319). -/

def layoutOk (r : BitVec 512) : Bool :=
  let n := lRank r
  let sp := lSpace r
  bits r 511 484 == 0 && bits r 127 90 == 0 && bits r 63 57 == 0 &&
  decide (sp ≤ 6) && !(decide (1 ≤ sp) && decide (sp ≤ 4) && bits r 56 19 ≠ 0) && !(sp == 6 && bits r 56 24 ≠ 0) &&
  (List.range 4).all (fun i => if i < n then lExtent r i ≠ 0 else lExtent r i == 0 && lStride r i == 0) &&
  !(lPair r && lExtent r 0 % 2 == 1) && lPol r ≠ 3 &&
  (lSwn r == 0 || (decide (4 ≤ lSwl r) && lSwh r ≠ 0 && decide (lSwl r + lSwh r + lSwn r ≤ 40))) &&
  !(lWin r && (decide (n < 3) || lIdx r || lDesc r)) &&
  !(lIdx r && (!isInt (lTy r) || decide (4 < lExtent r 0) || lDesc r)) &&
  !(lDesc r && (tyFmt (lTy r) == 15 || lExtent r 0 % 32 ≠ 0))

/-! ### Windows (R323). -/

structure Window where
  kx : Nat
  ky : Nat
  sx : Nat
  sy : Nat
  dx : Nat
  dy : Nat
  px : Nat
  py : Nat
  deriving DecidableEq, Repr

def winOf (r : BitVec 512) : Window :=
  { kx := bits r 459 456 + 1, ky := bits r 463 460 + 1, sx := bits r 466 464 + 1, sy := bits r 469 467 + 1,
    dx := bits r 472 470 + 1, dy := bits r 475 473 + 1, px := bits r 479 476, py := bits r 483 480 }

/-- OX or OY; below 1 when the window does not fit. -/
def winOut (ext p d k s : Nat) : Int := ((ext : Int) + 2 * p - d * (k - 1) - 1) / s + 1

def winN (r : BitVec 512) : Nat := if lRank r = 4 then lExt r 3 else 1

/-- The extents that a window expansion needs of LB; none when OX or OY is below 1. -/
def winExts (r : BitVec 512) : Option (Nat × Nat × Nat × Nat) :=
  let w := winOf r
  let ox := winOut (lExt r 1) w.px w.dx w.kx w.sx
  let oy := winOut (lExt r 2) w.py w.dy w.ky w.sy
  if ox < 1 ∨ oy < 1 then none
  else some (w.kx * w.ky * lExt r 0, ox.toNat * oy.toNat * winN r, ox.toNat, oy.toNat)

/-- The source coordinates of destination element (e, q). -/
def winSrc (r : BitVec 512) (e q : Nat) : List Int :=
  let w := winOf r
  let cc := lExt r 0
  let (ox, oy) := match winExts r with
    | some (_, _, a, b) => (a, b)
    | none => (1, 1)
  let kx := e / cc % w.kx
  let ky := e / (cc * w.kx)
  [(e % cc : Nat), ((q % ox * w.sx : Nat) : Int) - w.px + (kx * w.dx : Nat),
    ((q / ox % oy * w.sy : Nat) : Int) - w.py + (ky * w.dy : Nat), (q / (ox * oy) : Nat)]

/-! ### Halo strips (R331). -/

/-- dx and dy of entry k. -/
def haloDir (k : Nat) : Int × Int :=
  match k with
  | 0 => (0, -1) | 1 => (1, -1) | 2 => (1, 0) | 3 => (1, 1) | 4 => (0, 1) | 5 => (-1, 1) | 6 => (-1, 0) | _ => (-1, -1)

/-- First coordinate and length of a strip in one dimension of extent n. -/
def stripOf (dir : Int) (n h : Nat) : Nat × Nat :=
  if dir = 0 then (0, n) else if dir = 1 then (n - h, h) else (0, h)

/-- The strip of entry k: extents of its domain, its first coordinates, and how far its elements move. -/
def stripDom (r : BitVec 512) (k h : Nat) : List (Nat × Nat × Int) :=
  let n := lRank r
  let (dx, dy) := haloDir k
  (List.range n).map (fun i =>
    if i + 2 = n then
      let (a, b) := stripOf dx (lExt r i) h
      (b, a, dx * (lExt r i : Int))
    else if i + 1 = n then
      let (a, b) := stripOf dy (lExt r i) h
      (b, a, dy * (lExt r i : Int))
    else (lExt r i, 0, 0))

/-! ### The elements of a copy. -/

/-- The elements that a copy moves (R321 to R323, R331). -/
def copyTotal (c : Copy) : Nat :=
  let la := c.la.raw
  let lb := c.lb.raw
  match c.kind with
  | .cpy => (lExts lb).foldl (· * ·) 1
  | .cpyw => (lExts lb).foldl (· * ·) 1
  | .cpyx => ((lExts la).drop 1).foldl (· * ·) 1 * ((lExts lb).take (lRank lb - lExtent la 0)).foldl (· * ·) 1
  | .push _ k h =>
    if h = 0 then (lExts la).foldl (· * ·) 1
    else ((stripDom la k h).map (·.1)).foldl (· * ·) 1

/-- The elements of one sub-tensor of a `cpyx` (R322). -/
def subTensor (c : Copy) : Nat := ((lExts c.lb.raw).take (lRank c.lb.raw - lExtent c.la.raw 0)).foldl (· * ·) 1

/-- Source and landing coordinates of an element, for every kind but `cpyx` (R321, R323, R331). -/
def elemCoords (c : Copy) (pos : Nat) : List Int × List Int :=
  let la := c.la.raw
  match c.kind with
  | .cpyw =>
    let q := unflat (lExts c.lb.raw) pos
    (winSrc la (nth q 0 0) (nth q 1 0), ints q)
  | .push _ k h =>
    if h = 0 then let q := ints (unflat (lExts la) pos); (q, q)
    else
      let dom := stripDom la k h
      let src := ints (List.zipWith (fun a (e : Nat × Nat × Int) => a + e.2.1) (unflat (dom.map (·.1)) pos) dom)
      (src, List.zipWith (fun a (e : Nat × Nat × Int) => a - e.2.2) src dom)
  | _ => let q := ints (unflat (lExts c.lb.raw) pos); (q, q)

end Sys2Proof.Machine
end

