-- ==== Sys2Proof/Machine/Copies.lean ====
section
/-!
DEFINITION. The copy engine as it runs (spec/17_isa_copy_task_system.md R321 to R325, R331; spec/03_operand_stores.md
R54): the elements of a copy are read, landed granule by granule, and faulted one by one.
-/
namespace Sys2Proof.Machine

/-- What stops an element: a page that must be filled first, a peer whose link is training (R371), or a fault with the trap that
caused it, if any (R325). -/
inductive ElemErr where
  | wait (t pi : Nat)
  | link
  | fault (raw : Option Trap) (cf : CopyFault)
  deriving DecidableEq, Repr

/-- A step of the copy engine. -/
abbrev Eng (α : Type) := ReaderT Memory (StateT Dev (Except ElemErr)) α

/-- The COPY subcause of a failing access (R199, R325). -/
def copySub (t : Trap) : BitVec 8 :=
  if t.cause = cXLATE then 1 else if t.cause = cBADPTE then 2 else if t.cause = cPERM then 3
  else if t.cause = cPOISON then 5 else if t.cause = cALIGN then 7 else 4

/-- The COPY trap at coordinates of the first (`second` false) or second record (R199). -/
def copyTrap (c : Copy) (second : Bool) (sub : BitVec 8) (addr : W64) (q : List Int) : Trap :=
  let r := if second then c.lb else c.la
  let n := if second then c.lbSlot else c.laSlot
  let half := fun (i : Nat) => (BitVec.ofInt 32 (if i = 0 then crd q 0 * lUnit r.raw else crd q i)).setWidth 64
  { cause := cCOPY, sub := sub, addr := addr,
    info0 := (w64 (r.va % 2 ^ 57 / 64) <<< 13) ||| (w64 (c.tag % 64) <<< 7) ||| bitAt second 4 ||| w64 (n % 16),
    info1 := (half 1 <<< 32) ||| half 0,
    info2 := (((half 3 &&& 0xFFFF#64) <<< 16) ||| (half 2 &&& 0xFFFF#64)).setWidth 32 }

/-- A fault without an access of its own: the fault policy, or a misaligned address. -/
def engFault {α : Type} (c : Copy) (second : Bool) (sub : BitVec 8) (addr : W64) (q : List Int) (onWrite : Bool) : Eng α :=
  throw (.fault none { trap := copyTrap c second sub addr q, onWrite := onWrite })

/-- An access on behalf of a copy. -/
def eng {α : Type} (c : Copy) (second : Bool) (q : List Int) (onWrite : Bool) (x : Perf α) : Eng α := fun m d =>
  match x m { d with cur := (c.wave, 0) } with
  | .ok (a, d') => .ok (a, { d' with cur := d.cur })
  | .error (.page t pi) => .error (.wait t pi)
  | .error (.trap t) => .error (if t.cause = 0 then .link else .fault (some t) { trap := copyTrap c second (copySub t) t.addr q, onWrite := onWrite })

/-- An action's checks within an access. -/
def liftAct {α : Type} (x : Act α) : Perf α := fun m d =>
  match x m d with
  | .ok r => .ok r
  | .error t => .error (.trap t)

/-- A fault of an access for a descriptor (R318). -/
def forDesc {α : Type} (x : Eng α) : Eng α := fun m d =>
  match x m d with
  | .error (.fault raw cf) => .error (.fault raw { cf with desc := true })
  | r => r

/-- The place of an engine access in a space. Its writes are posted, and not refused (R124). -/
def engPlace (sp : Nat) (n addr : Nat) (writes : Bool) : Perf Place :=
  liftAct (checkPlace ((space sp).getD .g)
    { acc := if writes then .write else .read, size := n, writes := writes, posted := writes } addr)

/-- The leaf of a push's global address: the issuing context cannot write there, so the leaf is asked for R alone (DEDUCED,
log 32); the write sets D as any does (R25). -/
def pushLeaf (addr : Nat) : Act Leaf := fun m d =>
  match walkVa m d (waveDie d d.cur.1) (me d).ctx addr .read with
  | .error t => .error t
  | .ok (l, d1) =>
    let e := { l with word := l.word ||| 0x200#64 }
    .ok (e, markEntry m d1 e)

/-- The place of a push (R330, R331): a page of the set that registered, or a global address. -/
def pushPlace (c : Copy) (n addr : Nat) : Perf Place := do
  let d ← devP
  match c.tset with
  | some t =>
    if 2 ^ 21 ≤ addr then stopTrap { cause := cBOUNDS, addr := w64 addr }
    else match storeRange d t (storeOf (addr / 2 ^ 19)) (addr % 2 ^ 19) n addr false with
      | .ok p => pure p
      | .error t => stopTrap t
  | none => do
    let l ← liftAct (pushLeaf addr)
    let e ← devP
    match leafPlace e { acc := .write, size := n, posted := true } l addr with
    | .ok p => pure p
    | .error t => stopTrap t

/-- An engine's read (R114, R150, R151): at the home, or the unit of the cluster of the wave that it acts for, with no lease. One at a
peer waits while its link trains (R371). -/
def engRead (p : Place) (n addr : Nat) : Perf (List Byte) :=
  let home := fun (k : Nat) => (do
    linePoison k addr
    liftD (fun m d => let d1 := recallFrom d (lineNo k) (some (clusterIdx d d.cur.1)); (rdBytes m d1 k n, d1)) :
      Perf (List Byte))
  match p with
  | .page t pi off => pageRead t pi off n addr false
  | .device k => home k
  | .mapped t pi off k => do
    if ← mappedReady t pi then
      checkPoison t pi off n addr
      let d ← devP
      pure (pageBytesAt (pageOf d t pi) off n)
    else home k
  | .host k => do
    linePoison k addr
    liftD (fun m d => (rdBytes m d k n, takeHost d k))
  | .peer p pa => do
    if linkOpen (← devP) p then pure ((List.range n).map (fun i => Config.peerByte p (pa + i))) else stopTrap { cause := 0 }
  | .reg off => do
    let d ← devP
    pure (natBytes n (regRead d off n).toNat)

/-! ### One element. -/

/-- The index entries of element `e` of a `cpyx`, with the places they were read at (R322). -/
def readIndex (c : Copy) (e : List Nat) : Eng (List (Int × Place)) :=
  let r := c.la.raw
  (List.range (lExtent r 0)).mapM (fun k => do
    let q := ints (k :: e)
    let a := elemAddr r (lBase r) q
    if a.toNat % lSize r ≠ 0 then engFault c false 7 a q false
    else
      let p ← eng c false q false (engPlace (lSpace r) (lSize r) a.toNat false)
      let bs ← eng c false q false (engRead p (lSize r) a.toNat)
      pure (intOf (lTy r) (leWord bs), p))

/-- The number of the sub-tensor in which an element of a copy lies (R322). -/
def subNo (c : Copy) (pos : Nat) : Nat := pos / max 1 (subTensor c)

/-- The index entries of a sub-tensor, as far as they have been read. -/
def idxOf (c : Copy) (n : Nat) : Option (List Int) := (c.idx.find? (·.1 == n)).map (·.2)

/-- The copy with the index entries of its sub-tensor, which are read once for each e (R322); none are read where the element
takes 0. -/
def withIndex (c : Copy) : Eng (Copy × List Place) :=
  let n := subNo c c.pos
  if c.kind == .cpyx && (idxOf c n).isNone && c.zeros == 0 then do
    let q ← readIndex c (unflat ((lExts c.la.raw).drop 1) n)
    pure ({ c with idx := (n, q.map (·.1)) :: c.idx }, q.map (·.2))
  else pure (c, [])

/-- Where an element comes from and where it lands, as coordinates; those of a `cpyx` end with the index entries that have
been read. -/
def elemWhere (c : Copy) : List Int × List Int :=
  match c.kind with
  | .cpyx =>
    let inner := (lExts c.lb.raw).take (lRank c.lb.raw - lExtent c.la.raw 0)
    let q := ints (unflat inner (c.pos % max 1 (subTensor c))) ++ (idxOf c (subNo c c.pos)).getD []
    (q, q)
  | _ => elemCoords c c.pos

/-- Whether the value of the element that the copy has reached is still to be written, and whether a descriptor is still to
move with it, for a destination group begins there (R318). -/
def elemDue (c : Copy) : Bool := !c.noWrite && !c.ahead.contains c.pos
def descDue (c : Copy) : Bool :=
  lDesc c.la.raw && lDesc c.lb.raw && c.noDesc ≠ 2 && !c.descAhead.contains c.pos &&
    crd (elemWhere c).2 0 * lUnit c.lb.raw % 32 == 0

/-- The copy at another element. -/
def atPos (c : Copy) (j : Nat) : Copy :=
  if j = c.pos then c
  else { c with
    pos := j, zeros := c.zeros - (j - c.pos), noWrite := false, noDesc := 0, idx := c.idx.filter (fun q => decide (subNo c j ≤ q.1)),
    ahead := c.ahead.filter (j ≤ ·), descAhead := c.descAhead.filter (j ≤ ·) }

/-- The copy past its element. -/
def advance (c : Copy) : Copy := atPos c (c.pos + 1)

/-- Whether the read record of a copy is the second. -/
def readsSecond (c : Copy) : Bool := c.kind == .cpyx

/-- The element's value, and where it was read (R317, R325, R326). -/
def readElem (c : Copy) (q : List Int) : Eng (List Byte × Option Place) :=
  let second := readsSecond c
  let r := (if second then c.lb else c.la).raw
  let n := lSize r
  let zero := List.replicate n (0 : Byte)
  let out := outRange r q
  if c.zeros ≠ 0 || (out && lPol r == 0) then pure (zero, none)
  else if out && lPol r == 2 then engFault c second 6 0 q false
  else do
    let a := elemAddr r (lBase r) (if out then clampTo r q else q)
    if a.toNat % n ≠ 0 then engFault c second 7 a q false
    else
      let p ← eng c second q false (engPlace (lSpace r) n a.toNat false)
      let bs ← eng c second q false (engRead p n a.toNat)
      pure (bs, some p)

/-- The place a destination address of the copy names. -/
def dstPlace (c : Copy) (n addr : Nat) : Perf Place :=
  match c.kind with
  | .push _ _ _ => pushPlace c n addr
  | _ => engPlace c.space n addr true

/-- The address at which the element is written (R321 to R323, R331). -/
def landVa (c : Copy) (land : List Int) : W64 :=
  match c.kind with
  | .cpyx => c.dst + w64 (c.pos * lSize c.lb.raw)
  | _ => elemAddr c.lb.raw c.dst land

/-- Where the element is written. -/
def writeElem (c : Copy) (q land : List Int) : Eng Place :=
  let n := lSize c.lb.raw
  let a := landVa c land
  let w := if readsSecond c then q else land
  if a.toNat % n ≠ 0 then engFault c true 7 a w true else eng c true w true (dstPlace c n a.toNat)

/-- The descriptor that moves with the first element of a destination group: its bytes, the place they were read at, and the
place they go to (R318). One whose read has been skipped is that of zero-fill. -/
def planDesc (c : Copy) (q land : List Int) : Eng (Option (List Byte × Option Place × Place)) :=
  let ra := c.la.raw
  let rb := c.lb.raw
  if descDue c then forDesc (do
    let out := outRange ra q
    let (bs, src) ← (if (out && lPol ra == 0) || c.noDesc == 1 then pure ([BitVec.ofNat 8 (tyFmt (lTy ra)), 0x7F#8], none)
      else do
        let a := (descAddr ra (lBase ra) (if out then clampTo ra q else q)).toNat
        let p ← eng c false q false (engPlace (lSpace ra) 2 a false)
        let bs ← eng c false q false (engRead p 2 a)
        pure (bs, some p))
    let p ← eng c true land true (dstPlace c 2 (descAddr rb c.dst land).toNat)
    pure (some (bs, src, p)))
  else pure none

/-- A write that a copy makes for an element: of its value, or of its group's descriptor. -/
structure ElemWrite where
  desc : Bool
  bytes : List Byte
  dst : Place
  deriving DecidableEq, Repr

/-- What an element does: its writes, the descriptor's first, and the places that it reads. -/
structure Plan where
  writes : List ElemWrite
  srcs : List Place
  deriving DecidableEq, Repr

/-- The element that the copy has reached, with the copy as its index reads leave it. -/
def planElem (c0 : Copy) : Eng (Copy × Plan) := do
  let (c, ix) ← withIndex c0
  let (q, land) := elemWhere c
  let val ← (if elemDue c then do
      let (v, src) ← readElem c q
      let dst ← writeElem c q land
      pure (some (v, src, dst))
    else pure none)
  let dsc ← planDesc c q land
  let ws := (dsc.map (fun r => ElemWrite.mk true r.1 r.2.2)).toList ++ (val.map (fun r => ElemWrite.mk false r.1 r.2.2)).toList
  pure (c, { writes := ws, srcs := ix ++ (val.bind (·.2.1)).toList ++ (dsc.bind (·.2.1)).toList })

/-! ### Landing (R45, R55, R151, R324). -/

/-- The granule that a place lies in; each register stands alone. -/
def granuleOf : Place → List Nat
  | .page t pi off => [0, t, pi, off / 16]
  | .device k => [1, k / 16]
  | .mapped t pi off _ => [0, t, pi, off / 16]
  | .host k => [1, k / 16]
  | .peer n pa => [2, n, pa / 16]
  | .reg off => [3, off]

/-- The offset of a place in its granule. -/
def granuleOff : Place → Nat
  | .page _ _ off => off % 16
  | .device k => k % 16
  | .mapped _ _ off _ => off % 16
  | .host k => k % 16
  | .peer _ pa => pa % 16
  | .reg off => off % 16

/-- The bytes of an element as cells of its granule. -/
def cellsOf (p : Place) (bs : List Byte) : List (Nat × Byte) := bs.zipIdx.map (fun b => (granuleOff p + b.2, b.1))

/-- The cells that stand, ascending: the last write to each byte (R324). -/
def lastCells (cells : List (Nat × Byte)) : List (Nat × Byte) :=
  (List.range 16).filterMap (fun o => cells.reverse.find? (fun q => q.1 == o))

/-- Runs of neighbouring cells. -/
def runsOf : List (Nat × Byte) → List (Nat × List Byte)
  | [] => []
  | (o, b) :: r =>
    match runsOf r with
    | (p, bs) :: t => if p = o + 1 then (o, b :: bs) :: t else (o, [b]) :: (p, bs) :: t
    | [] => [(o, [b])]

/-- A granule of a page becomes full, or will at the publication (R45, R163). -/
def markFull (d : Dev) (i t pi g : Nat) : Dev :=
  match copyAt d i with
  | some c =>
    if copyHeld d c then setCopy d i { c with fullBits := c.fullBits ++ [(t, pi, g)] } else setFull d t pi g 0
  | none => d

/-- The source of a log entry (R59). -/
def copySrc : CopyKind → Nat
  | .push _ _ 0 => 3
  | .push _ _ _ => 2
  | _ => 1

/-- The key of a log entry of a copy (R63): the issuing instruction's key, or the owning launch's minimum at the arrival
of a push from another launch, then the element. With no split of that launch active it has no minimum, and the clock is 0
(DESIGN CHOICE, log 62). -/
def copyKey (d : Dev) (c : Copy) (t : Nat) : List Nat :=
  let own := (setOf d t).launch
  if own = (waveOf d c.wave).launch then [c.key.clock, c.key.vidx, c.key.ord, c.pos]
  else
    let k := ((leastKey (activeKeys d own)).getD ⟨0, 0, 0⟩).clock
    [k, c.key.vidx, c.key.ord, c.pos]

/-- The clock of the issuer of a copy, as it is now (R59): of the split that holds the lowest lane that issued it, or, when none holds
one of its lanes any more, the clock at the copy's issue (DESIGN CHOICE, log 62). -/
def issuerClock (d : Dev) (c : Copy) : Nat :=
  let x := waveOf d c.wave
  let at_ := (lanesOf c.lane).findSome? (fun l => x.splits.find? (fun s => s.mask.getLsbD l))
  (at_.map (·.clock)).getD c.key.clock

/-- The GW entry of a granule (R59, R60). -/
def granuleEntry (d : Dev) (i : Nat) (c : Copy) (t off : Nat) (cells : List (Nat × Byte)) : LogEntry :=
  { operand := cells.foldl (fun (x : W64) q => x ||| bitAt true q.1) 0, clock := BitVec.ofNat 24 (issuerClock d c), kind := 1,
    ty := 0, vcore := BitVec.ofNat 8 (vcoreOf d (waveOf d c.wave)), wave := 0, src := BitVec.ofNat 4 (copySrc c.kind),
    gran := BitVec.ofNat 8 (off / 16), off := 0, sz := 4,
    ext := (List.range 16).map (fun o => ((cells.find? (fun q => q.1 == o)).map (·.2)).getD 0), key := copyKey d c t,
    seq := 0, copies := [i] }

/-- Write cells into a resident page. -/
def landPage (d : Dev) (i t pi off : Nat) (cells : List (Nat × Byte)) : Dev :=
  let base := off / 16 * 16
  let d1 := changePage d t pi base 16 (fun p =>
    let q := cells.foldl (fun p b => pagePut p (base + b.1) [b.2]) p
    if cells.length = 16 then { q with poison := q.poison &&& ~~~(bit256 (off / 16)) } else q)
  markFull d1 i t pi (off / 16)

/-- A copy notes the stamp that a write of it took (R153). -/
def noteWts (d : Dev) (i k : Nat) : Dev :=
  match copyAt d i with
  | some c => setCopy d i { c with maxWts := max c.maxWts (lineOf d (lineNo k)).wts }
  | none => d

/-- Write cells into device memory at its home (R151). -/
def landHome (m : Memory) (d : Dev) (i k : Nat) (cells : List (Nat × Byte)) : Dev :=
  noteWts ((runsOf cells).foldl (fun d r => homeWrite m d whoEngine (k / 16 * 16 + r.1) r.2) d) i k

/-- Write cells into the store that stands for the home of a line (R49). -/
def landMapped (m : Memory) (d : Dev) (i t pi off k : Nat) (cells : List (Nat × Byte)) : Dev :=
  noteWts (stampWrite m (landPage d i t pi off cells) whoEngine k (cells.map (·.2))) i k

/-- A write of a copy to a peer is posted, and has performed when the peer's home acknowledges it (R115, R123); to one that cannot
be reached it is lost, and counted for the wave (R124, R368). -/
def landPeer (d : Dev) (i p : Nat) : Dev :=
  match copyAt d i with
  | none => d
  | some c =>
    if peerUp d p then sendTo (setCopy d i { c with posted := put 0 c.posted p (look 0 c.posted p + 1) }) p (.copy i)
    else
      let x := waveOf d c.wave
      setWave d c.wave { x with lost := put 0 x.lost p (look 0 x.lost p + 1) }

/-- Land the cells of one granule of copy `i` (R45, R55, R115, R324). -/
def landCells (i : Nat) (p : Place) (cells : List (Nat × Byte)) : Perf Unit := do
  let d ← devP
  match p with
  | .page t pi off =>
    match (pageOf d t pi).st with
    | .pinned | .unpinned => updP (fun _ d => landPage d i t pi off cells)
    | .filling => throw (.page t pi)
    | .nonResident =>
      match copyAt d i with
      | none => pure ()
      | some c =>
        match appendLog d t pi (launchOf d (setOf d t).launch).fo (granuleEntry d i c t off cells) with
        | some d' => updP (fun _ _ =>
            if copyHeld d' c then setCopy d' i { c with fullBits := c.fullBits ++ [(t, pi, off / 16)] } else d')
        | none => throw (.page t pi)
  | .device k => updP (fun m d => landHome m d i k cells)
  | .mapped t pi off k => do
    if ← mappedReady t pi then updP (fun m d => landMapped m d i t pi off k cells)
    else updP (fun m d => landHome m d i k cells)
  | .host k => updP (fun _ d => takeHost ((runsOf cells).foldl (fun d r => wrBytes d (k / 16 * 16 + r.1) r.2) d) k)
  | .peer n _ => updP (fun _ d => landPeer d i n)
  | .reg off => updP (fun _ d => (runsOf cells).foldl (fun d r =>
      { d with agenda := nextWrite (.registerWrite (off / 16 * 16 + r.1) r.2.length (leWord r.2)) d.agenda }) d)

/-! ### Steps of a copy. -/

/-- The addresses that the element at a position writes: its value's, and that of a descriptor that moves with it. -/
def putVas (c : Copy) (j : Nat) : List W64 :=
  let e := atPos c j
  let land := (elemWhere e).2
  landVa e land :: (if descDue e then [descAddr c.lb.raw c.dst land] else [])

/-- The last element that writes into the granule at an address: of those that follow at once, when their values fill it, or
else of the whole copy. -/
def lastMate (c : Copy) (va : W64) : Nat :=
  let same := fun (j : Nat) => (putVas c j).any (fun a => a.toNat / 16 == va.toNat / 16)
  let run := ((List.range 15).map (c.pos + 1 + ·)).takeWhile (fun j => decide (j < copyTotal c) && same j)
  let offs := ((c.pos :: run).map (fun j => (landVa (atPos c j) (elemWhere (atPos c j)).2).toNat % 16)).eraseDups
  if 16 ≤ offs.length * lSize c.lb.raw then c.pos + run.length
  else (List.range (copyTotal c - c.pos)).foldl (fun a i => if same (c.pos + i) then c.pos + i else a) c.pos

/-- What lands in one granule together (R126, R151): its cells in iteration order, the elements whose values and whose
descriptors they are, and the granules of the writes passed over. -/
structure Batch where
  cells : List (Nat × Byte) := []
  elems : List Nat := []
  descs : List Nat := []
  others : List (List Nat) := []
  deriving DecidableEq, Repr

/-- Add an element's writes to what lands in a granule. -/
def takeWrites (g : List Nat) (pos : Nat) (b : Batch) (ws : List ElemWrite) : Batch :=
  ws.foldl (fun b w =>
    if granuleOf w.dst ≠ g then { b with others := granuleOf w.dst :: b.others }
    else if w.desc then { b with cells := b.cells ++ cellsOf w.dst w.bytes, descs := pos :: b.descs }
    else { b with cells := b.cells ++ cellsOf w.dst w.bytes, elems := pos :: b.elems }) b

/-- Take the later elements that write into a granule, up to the last one (R126, R151): what lands, the index entries that have been
read, and the device. Each is read as if those before it had been written (R324), so the walk ends at one that reads a granule with
a write to come, and at one that fails (R325; log 65). Where one waits, the granule waits whole. -/
def collect (m : Memory) (g : List Nat) (last : Nat) :
    Nat → Copy → Batch → Dev → Except ElemErr (Batch × List (Nat × List Int) × Dev)
  | 0, c, b, d => .ok (b, c.idx, d)
  | n + 1, c, b, d =>
    if last < c.pos then .ok (b, c.idx, d)
    else match planElem c m d with
      | .error (.fault _ _) => .ok (b, c.idx, d)
      | .error e => .error e
      | .ok ((c1, p), d1) =>
        if p.srcs.any (fun s => granuleOf s == g || b.others.contains (granuleOf s)) then .ok (b, c1.idx, d)
        else collect m g last n (advance c1) (takeWrites g c1.pos b p.writes) d1

/-- A push with its record copies, which it reads before its first element (R331). -/
def readRecords (c : Copy) : Eng Copy :=
  let one := fun (second : Bool) (r : Slot) => (do
    let p ← eng c second [] false (engPlace 0 64 r.va false)
    let bs ← eng c second [] false (engRead p 64 r.va)
    pure { r with raw := BitVec.ofNat 512 (leNat bs) } : Eng Slot)
  if c.unread then do
    let la ← one false c.la
    let lb ← one true c.lb
    pure { c with unread := false, la := la, lb := lb }
  else pure c

/-- What the copy does next: read its record copies, or its element. -/
def planNext (c : Copy) : Eng (Copy × Plan) :=
  if c.unread then do pure (← readRecords c, { writes := [], srcs := [] }) else planElem c

/-- Start the fill for which an engine's access waits, if it waits for one. -/
def startWait (m : Memory) (d : Dev) (e : ElemErr) : Dev :=
  match e with
  | .wait t pi => startFill m d t pi
  | .link | .fault _ _ => d

/-- The copy at the next element that has something left to write. -/
def settle : Nat → Copy → Copy
  | 0, c => c
  | n + 1, c => if copyTotal c ≤ c.pos || elemDue c || descDue c then c else settle n (advance c)

/-- A copy past what has landed. -/
def landed (c : Copy) (b : Batch) : Copy :=
  let e := { c with ahead := c.ahead ++ b.elems, descAhead := c.descAhead ++ b.descs }
  settle (e.ahead.length + e.descAhead.length + 1) e

/-- Copies that hold tags of a core (R320). -/
def coreCopies (d : Dev) (core : Nat) : List Copy :=
  d.copies.filter (fun c => !c.done && pcore d (vcoreOf d (waveOf d c.wave)) == core)

/-- The lowest free tag of a core. -/
def freeTag (d : Dev) (core : Nat) : Option Nat :=
  let used := (coreCopies d core).map (·.tag)
  (List.range 64).find? (fun t => !used.contains t)

/-- The target of a push at a store page is gone (R54). -/
def targetStale (d : Dev) (c : Copy) : Bool :=
  match c.tset with
  | some t => !(setOf d t).live || !(setOf d t).pages.any (fun p => p.gen == c.gen)
  | none => false

/-- Drop a stale multicast (R54). -/
def dropStale (m : Memory) (d : Dev) (i : Nat) (c : Copy) : Dev :=
  let x := waveOf d c.wave
  writeRecord m (setCopy d i { c with stale := true, unread := false, pos := copyTotal c }) x.ctx
    (recordWords d x.ctx none 0 0 { cause := cSTALEMC, addr := c.dst, info0 := c.gen.setWidth 64 } {})

/-- Whether the pushes of a copy's entry that began earlier have ended (R331). -/
def pushTurn (d : Dev) (i : Nat) (c : Copy) : Bool :=
  match c.kind with
  | .push desc k _ => (d.copies.take i).all (fun e => e.done || (match e.kind with
      | .push desc' k' _ => !(desc' == desc && k' == k)
      | _ => true))
  | _ => true

/-- Whether a copy has elements left that it can take. -/
def copyRuns (d : Dev) (i : Nat) (c : Copy) : Bool :=
  !c.done && !c.aborted && c.fault.isNone && (c.unread || decide (c.pos < copyTotal c)) && pushTurn d i c &&
    (c.tag ≠ 64 || (freeTag d (pcore d (vcoreOf d (waveOf d c.wave)))).isSome)

/-- A push takes its tag when one is free (R320, R331). -/
def takeTag (d : Dev) (c : Copy) : Copy :=
  if c.tag = 64 then { c with tag := (freeTag d (pcore d (vcoreOf d (waveOf d c.wave)))).getD 64 } else c

/-- The next granule of a copy (R151, R324), a descriptor's before the value's of its element; a page that must be filled
first starts to fill, and a failing access is left to its fault. What a granule's own writes have left in a log stays there
when the next granule overflows it (R66). -/
def copyStep (m : Memory) (d : Dev) (i : Nat) : Dev :=
  match copyAt d i with
  | none => d
  | some c0 =>
    if !copyRuns d i c0 then d
    else
      let c := takeTag d c0
      let d0 := setCopy d i c
      if targetStale d0 c then dropStale m d0 i c
      else match planNext c m d0 with
        | .error e => startWait m d0 e
        | .ok ((c1, p), d1) =>
          match p.writes with
          | [] => setCopy d1 i (landed c1 {})
          | w :: _ =>
            let g := granuleOf w.dst
            let land := (elemWhere c1).2
            let last := lastMate c1 (if w.desc then descAddr c1.lb.raw c1.dst land else landVa c1 land)
            match collect m g last (last - c1.pos) (advance c1) (takeWrites g c1.pos {} p.writes) d1 with
            | .error e => startWait m d0 e
            | .ok (b, idx, d2) =>
              match landCells i w.dst (lastCells b.cells) m d2 with
              | .error (.page t pi) => startFill m d0 t pi
              | .error (.trap _) => d0
              | .ok (_, d3) =>
                match copyAt d3 i with
                | some e => setCopy d3 i (landed { e with idx := c1.idx.filter (fun q => !idx.contains q) ++ idx } b)
                | none => d3

/-- An access of an engine fails in a walk (R28): the episode is joined, or opened with the region's record, which names the
issuing wave; SPLIT is that of the wave's first split and STAGE the wave's own, which the manual does not give (DESIGN CHOICE,
log 58). -/
def engineEpisode (m : Memory) (d : Dev) (w : Nat) (t : Trap) : Dev :=
  if !replayable t then d
  else
    let x := waveOf d w
    let (e, opened) := joinEpisode d (waveDie d w) x.ctx t []
    if opened then writeRecord m e x.ctx (recordWords e x.ctx (some (w, 0)) 0 0 t { external := true, async := true }) else e

/-- The index entries that the copy can read before its access fails: they are not read again (R322, R325). -/
def keepIndex (m : Memory) (d : Dev) (c : Copy) : Copy × Dev :=
  if c.unread then (c, d)
  else match withIndex c m d with
    | .ok ((e, _), d1) => (e, d1)
    | .error _ => (c, d)

/-- The copy's next access fails (R325): its episode joins or opens (R28), and the issuing wave takes COPY (R197). -/
def faultCopy (m : Memory) (d : Dev) (i : Nat) : Dev :=
  match copyAt d i with
  | none => d
  | some c0 =>
    if !copyRuns d i c0 then d
    else
      let (c, d0) := keepIndex m d (takeTag d c0)
      if targetStale d c then d
      else match planNext c m d0 with
        | .error (.fault raw cf) =>
          let d1 := raw.elim d0 (engineEpisode m d0 c.wave)
          let d2 := setCopy d1 i { c with fault := some cf }
          let (d3, orphan) := postAsync m d2 c.wave c.lane cf.trap
          if orphan then abortCopy m d3 i else d3
        | _ => d

def execCopyEngineWrite (i : Nat) (s : State) : Out :=
  runEvent (fun m d =>
    match copyAt d i with
    | some c => if c.tset.isSome then d else copyStep m d i
    | none => d) s

def execMulticastArrival (i : Nat) (s : State) : Out :=
  runEvent (fun m d =>
    match copyAt d i with
    | some c => if c.tset.isSome then copyStep m d i else d
    | none => d) s

def execCopyFault (i : Nat) (s : State) : Out := runEvent (fun m d => faultCopy m d i) s

/-- The last write of a copy has performed, those to peers acknowledged (R115, R152, R324). -/
def execCopyComplete (i : Nat) (s : State) : Out :=
  runEvent (fun m d =>
    match copyAt d i with
    | some c => if !c.done && c.fault.isNone && c.posted.isEmpty && (c.aborted || (!c.unread && copyTotal c ≤ c.pos)) then finishCopy m d i else d
    | none => d) s

end Sys2Proof.Machine
end

