-- ==== Sys2Proof/Machine/Push.lean ====
section
/-!
DEFINITION. Declarations on seals and the pushes that a release starts (spec/17_isa_copy_task_system.md R328 to R331,
spec/07_model_far.md R126, R127).
-/
namespace Sys2Proof.Machine

/-- A translation of the copy engine of the wave that issues, none where it fails, which joins or opens an episode (R25,
R28). -/
def walkAct (ctx va : Nat) (acc : Access) : Act (Option Leaf) := fun m d =>
  match walkVa m d (waveDie d d.cur.1) ctx va acc with
  | .ok (l, d') => .ok (some l, d')
  | .error t => .ok (none, engineEpisode m d d.cur.1 t)

/-- The 64 bytes of a line of a context's memory as a device agent reads it; none where it cannot be read. -/
def lineAt (ctx va : Nat) : Act (Option (List Byte)) := do
  match ← walkAct ctx va .read with
  | none => pure none
  | some l => fun m d =>
    match leafPlace d { acc := .read, size := 64 } l va with
    | .error _ => .ok (none, d)
    | .ok p =>
      match engRead p 64 va m d with
      | .ok (bs, d1) => .ok (some bs, d1)
      | .error (.page _ _) => .error { cause := 0 }
      | .error (.trap t) => if t.cause = 0 then .error t else .ok (none, d)

/-- The 32 bytes of entry `k` of a descriptor, as a number (R328). -/
def entryAt (ctx desc k : Nat) : Act (Option (BitVec 256)) := do
  let va := desc + 192 + 32 * k
  let r ← lineAt ctx (va / 64 * 64)
  pure (r.map (fun bs => BitVec.ofNat 256 (leNat ((bs.drop (va % 64)).take 32))))

def eV (e : BitVec 256) : Bool := bits e 63 63 == 1
def eKind (e : BitVec 256) : Bool := bits e 62 62 == 1
def eTarget (e : BitVec 256) : W64 := w64 (bits e 56 0)
def eVcore (e : BitVec 256) : Nat := bits e 95 88
def eGen (e : BitVec 256) : BitVec 32 := BitVec.ofNat 32 (bits e 127 96)
def eCva (e : BitVec 256) : Nat := bits e 184 128

/-- The counter that a push adds to: its key, or the peer on which it lies; neither where it cannot be reached (R331). -/
def countAt (ctx va : Nat) : Act (Option Nat × Option Nat) := do
  match ← walkAct ctx va .readWrite with
  | some l => pure (if va % 8 ≠ 0 ∨ l.tgt = 3 then (none, none) else if l.tgt = 2 then (none, some l.peer) else (some (leafKey l), none))
  | none => pure (none, none)

/-- The stage set whose pages an entry of a descriptor names: one that registered a range for the entry and whose
allocation has the entry's generation, on the entry's logical core, or else where it has moved to (R54, R67, R330). -/
def targetSet (d : Dev) (desc k vcore : Nat) (gen : BitVec 32) : Nat :=
  let hit := fun (t : StageSet) =>
    t.live && t.ranges.any (fun r => r.desc == desc && r.entry == k) && t.pages.any (fun p => p.gen == gen)
  match d.sets.findIdx? (fun t => hit t && t.vcore == vcore) with
  | some t => t
  | none => (d.sets.findIdx? hit).getD d.sets.length

/-- The peer that a global target names, when its link is down (R127). -/
def downTarget (ctx : Nat) (e : BitVec 256) : Act (Option Nat) := do
  if eKind e then pure none
  else match ← walkAct ctx (eTarget e).toNat .read with
    | some l => do
      let d ← dev
      pure (if l.tgt = 2 ∧ !peerUp d l.peer then some l.peer else none)
    | none => pure none

/-- A push with its record copies as they stand at the release; one that cannot be read is left to its fault (R331). -/
def withRecords (c : Copy) : Act Copy := fun m d =>
  match readRecords c m d with
  | .ok r => .ok r
  | .error _ => .ok (c, d)

/-- Start the push of entry `k` (R331). -/
def pushEntryCopy (mask : W32) (de : Decl) (seq k : Nat) (pcnt : Option Nat) (e : BitVec 256) : Act Unit := do
  let d ← dev
  let x := me d
  let va := de.descVa.toNat
  let cnt ← countAt x.ctx (eCva e)
  let c : Copy :=
  { wave := d.cur.1, lane := mask, tag := 64, kind := .push de.desc k de.halo, la := { raw := 0, va := va + 64 },
    lb := { raw := 0, va := va + 128 }, laSlot := 0, lbSlot := 0, unread := true,
    dst := eTarget e, space := 0, cnt := cnt.1, ph := false, epoch := 0, seq := seq, key := keyOf x d.cur.2, gen := eGen e,
    cpeer := cnt.2,
    tset := if eKind e then some (targetSet d de.desc k (eVcore e) (eGen e)) else none, cva := eCva e, pcnt := pcnt }
  let c1 ← withRecords c
  upd (fun d => { d with copies := d.copies ++ [c1] })

/-- FENCE_UNDELIVERED records of the split that issues, one for each peer with its lost count (R124, R127). -/
def undelivered (lost : List (Nat × Nat)) : Act Unit :=
  if lost.isEmpty then pure ()
  else actU (fun m d0 =>
    let d := orFlags d0 d0.cur.1 fUNDELIVERED
    let x := me d
    let s := mySplit d
    let recs := lost.map (fun p => recordWords d x.ctx (some d.cur) s.pc s.clock
      { cause := cFENCEUNDELIVERED, info0 := w64 p.1, info1 := w64 p.2 } {})
    waveRecord m d d.cur.1 d.cur.2 recs s.park)

/-- A release of the wave that issues on a seal starts the pushes of a declaration of its context (R126, R127, R331).
`mask` is the active mask of the releasing instruction. -/
def startPushes (mask : W32) (n : Nat) : Act Unit := do
  let d ← dev
  let x := me d
  match (lineOf d n).decl with
  | none => pure ()
  | some de =>
    if de.ctx ≠ x.ctx then pure ()
    else match ← lineAt x.ctx de.descVa.toNat with
      | none => pure ()
      | some hd => do
        let h := BitVec.ofNat 512 (leNat hd)
        let es ← (List.range (bits h 79 72)).filterMapM (fun k => do
          let e ← entryAt x.ctx de.descVa.toNat k
          pure (e.bind (fun e => if eV e then some (k, e) else none)))
        let marked ← es.mapM (fun q => do pure (q, ← downTarget x.ctx q.2))
        let lost := marked.filterMap (·.2)
        let go := (marked.filter (fun q => q.2.isNone)).map (·.1)
        let pcva := bits h 191 128
        let pcnt ← (if pcva = 0 then pure none else do pure (← countAt x.ctx pcva).1)
        go.forM (fun q => pushEntryCopy mask de d.seq q.1 pcnt q.2)
        upd (fun d => { d with seq := d.seq + 1 })
        match go.isEmpty, pcnt with
        | true, some k => actU (fun m d => addOne m d (mySplit d).clock k 0)
        | _, _ => pure ()
        undelivered (lost.eraseDups.map (fun p => (p, lost.count p)))

/-! ### Declarations (R329). -/

/-- The shapes of a halo (R329); its extents count moved elements (log 26). -/
def haloOk (la lb : BitVec 512) (nent h : Nat) : Bool :=
  let r := lRank la
  decide (2 ≤ r) && decide (2 ≤ lRank lb) && lSize la == lSize lb && !lIdx la && !lIdx lb && !lWin la && !lWin lb &&
    !lDesc la && !lDesc lb && nent == 8 && decide (h ≤ lExt la (r - 2)) && decide (h ≤ lExt la (r - 1))

/-- The shapes of a publication (R329). -/
def pubOk (la lb : BitVec 512) (nent : Nat) : Bool :=
  lExts la == lExts lb && lSize la == lSize lb && !lIdx la && !lIdx lb && !lWin la && !lWin lb && lDesc la == lDesc lb &&
    decide (1 ≤ nent) && decide (nent ≤ 64)

/-- Declarations of a logical bank (R329). -/
def bankDecls (d : Dev) (bank : Nat) : Nat := (d.lines.filter (fun p => p.2.decl.any (fun e => e.bank == bank))).length

/-- A 64-byte line of an instruction's address operand that must lie in device memory, checked under R263 (R329, R330). -/
def deviceKey (u : Use) (va : Nat) : Act Nat := do
  match ← checkPlace .g { u with size := 64 } va with
  | .device k => pure k
  | _ => trap (permRule va)

/-- The value of an s register operand, read for the lanes of a mask. -/
def sReg (m : W32) (code : BitVec 8) : Act W64 := do
  let src ← takeSrc .n64 m code
  let d ← dev
  pure (valA (me d) (mySplit d) src ((lowLane (mySplit d).mask).getD 0))

/-- The slot that a field names, which must not be empty (R320, R329). -/
def slotArg (i : Instr) (n : BitVec 8) : Act Slot := do
  let d ← dev
  match look none (me d).slots n.toNat with
  | some r => pure r
  | none => trap (illop i)

/-- A seal or a descriptor as the model numbers it: by the key of its place. -/
def sealLine (p : Place) : Nat := lineNo (placeKey p)

/-- The place of a seal (R95). -/
def sealPlace (acc : Access) (posted : Bool) (va : Nat) : Act Place := do
  match ← checkPlace .g { acc := acc, size := 64, posted := posted } va with
  | .mapped _ _ _ _ => trap (permRule va)
  | p => pure p

/-- The place of a line of a descriptor, and bytes of it (R328 to R330). -/
def descPlace (va : Nat) : Act Place := checkPlace .g { acc := .readWrite, size := 64 } va
def descGet (p : Place) (off n va : Nat) : Act (List Byte) := atHome (engRead (placePlus p off) n (va + off))
def descPut (p : Place) (off : Nat) (bs : List Byte) : Act Unit := atHome (homePut (placePlus p off) bs)

/-- What a declaration is made of: its records, its descriptor and its counter, the descriptor's place and header, and the
line of its seal. -/
structure DeclArgs where
  la : Slot
  lb : Slot
  va : Nat
  cnt : W64
  p : Place
  hd : BitVec 512
  n : Nat
  deriving DecidableEq, Repr

/-- The operands of `halo` and `pub`, checked in order (R329). -/
def takeDecl (f : FmtE) (la lb : Slot) (m : W32) : Act DeclArgs := do
  let va := (← sReg m f.dst).toNat
  let cnt ← (if none8 f.cnt then pure 0 else sReg m f.cnt)
  let p ← descPlace va
  let hd := BitVec.ofNat 512 (leNat (← descGet p 0 64 va))
  let sp ← sealPlace .readWrite false (bits hd 56 0)
  pure ⟨la, lb, va, cnt, p, hd, sealLine sp⟩

/-- STAT of a declaration, or of its withdrawal (R329). Bits of the header and the entries that must be zero (R328) are not checked
(DESIGN CHOICE, log 69). -/
def declStatus (d : Dev) (halo : Bool) (f : FmtE) (a : DeclArgs) : Nat :=
  let cur := (lineOf d a.n).decl
  let nent := bits a.hd 79 72
  if bits f.mode 11 11 = 1 then (if cur.any (fun e => e.desc == placeKey a.p) then 0 else 3)
  else if cur.isSome then 2
  else if !(if halo then haloOk a.la.raw a.lb.raw nent (bits f.mode 3 0) else pubOk a.la.raw a.lb.raw nent) then 3
  else if 256 ≤ bankDecls d (bankOf (bits a.hd 56 0)) then 1
  else 0

/-- The header with its STAT. -/
def declHeader (a : DeclArgs) (status : Nat) : BitVec 512 :=
  (a.hd &&& ~~~(0xF#512 <<< 64)) ||| (BitVec.ofNat 512 status <<< 64)

/-- A declaration that stands (R328, R329): KIND, CTX and PCVA in the header, the records, every entry invalid with STAT 0. -/
def declWrite (halo : Bool) (a : DeclArgs) : Act Unit := do
  let d ← dev
  let keep := declHeader a 0 &&& ~~~((0xF#512 <<< 68) ||| (0xFFFF#512 <<< 112) ||| (0xFFFFFFFFFFFFFFFF#512 <<< 128))
  descPut a.p 0 (natBytes 64 (keep ||| (BitVec.ofNat 512 (if halo then 1 else 2) <<< 68) |||
    (BitVec.ofNat 512 ((me d).ctx % 65536) <<< 112) ||| (BitVec.ofNat 512 a.cnt.toNat <<< 128)).toNat)
  descPut (← descPlace (a.va + 64)) 0 (natBytes 64 a.la.raw.toNat)
  descPut (← descPlace (a.va + 128)) 0 (natBytes 64 a.lb.raw.toNat)
  (List.range (bits a.hd 79 72)).forM (fun j => do
    let va := (a.va + 192 + 32 * j) / 64 * 64
    let q ← descPlace va
    let e := 32 * (j % 2)
    let v := BitVec.ofNat 64 (leNat (← descGet q e 8 va))
    descPut q e (leBytes 8 (v &&& ~~~(1#64 <<< 63)))
    let u := BitVec.ofNat 64 (leNat (← descGet q (e + 24) 8 va))
    descPut q (e + 24) (leBytes 8 (u &&& ~~~0xF#64)))

/-- The acquire of a declaration: of the home's write of STAT (R329). Lines outside device memory have no stamps. -/
def declSeen (a : DeclArgs) (d : Dev) : Dev :=
  let n := sealLine a.p
  emptyLeases (if placeKey a.p < hostKey then raiseV d d.cur.1 (lineOf d n).wts else d) d.cur.1

/-- A declaration, its withdrawal, or its refusal takes effect (R329). -/
def declApply (halo : Bool) (f : FmtE) (a : DeclArgs) : Act Unit := do
  let d ← dev
  let status := declStatus d halo f a
  let off := bits f.mode 11 11 = 1
  if status = 0 ∧ ¬ off then do
    declWrite halo a
    let h := if halo then bits f.mode 3 0 else 0
    upd (fun e => modLine (modLine e a.n (fun l => { l with
      decl := some ⟨placeKey a.p, w64 a.va, (me d).ctx, bankOf (bits a.hd 56 0), h⟩ })) (sealLine a.p) (fun l => { l with haloW := h }))
  else do
    descPut a.p 0 (natBytes 64 (declHeader a status).toNat)
    if status = 0 then upd (fun e => modLine e a.n (fun l => { l with decl := none })) else pure ()
  upd (declSeen a)

/-- `halo` and `pub` (R329). -/
def declareOp (i : Instr) (h : Head) (f : FmtE) (halo : Bool) : Act Verdict := do
  let la ← slotArg i f.la
  let lb ← slotArg i f.lb
  let m ← acting h false
  if m = 0 then pure .retire
  else
    let a ← takeDecl f la lb m
    declApply halo f a
    pure .retire

def execHalo (h : Head) (f : FmtE) (s : State) : Out :=
  runA (.halo h f) h (declareOp (.halo h f) h f true) s
def execPub (h : Head) (f : FmtE) (s : State) : Out :=
  runA (.pub h f) h (declareOp (.pub h f) h f false) s

/-! ### Subscribing (R330). -/

/-- The replica range of an entry: the addresses from the first byte that a push writes to the last (R330). -/
def replicaRange (c : Copy) : Nat × Nat :=
  let n := lSize c.lb.raw
  let both := lDesc c.la.raw && lDesc c.lb.raw
  (List.range (copyTotal c)).foldl (fun r j =>
    let q := (elemCoords c j).2
    let a := (elemAddr c.lb.raw c.dst q).toNat
    let r1 := (min r.1 a, max r.2 (a + n))
    if both then
      let b := (descAddr c.lb.raw c.dst q).toNat
      (min r1.1 b, max r1.2 (b + 2))
    else r1) (2 ^ 64, 0)

/-- Whether some leaf of a range has W = 1 in a context (R330). -/
def writable (m : Memory) (d : Dev) (ctx lo hi : Nat) : Bool :=
  (List.range ((hi - lo / 4096 * 4096 + 4095) / 4096)).any (fun i =>
    match walkVa m d (waveDie d d.cur.1) ctx (max lo (lo / 4096 * 4096 + 4096 * i)) .write with
    | .ok _ => true
    | .error _ => false)

/-- Free an entry's range, whichever stage set registered it (R330). -/
def dropRange (d : Dev) (desc k : Nat) : Dev :=
  { d with sets := d.sets.map (fun x => { x with ranges := x.ranges.filter (fun r => !(r.desc == desc && r.entry == k)) }) }

/-- What a subscription is made of: its entry's number, place and bits, and the descriptor's address, key and header. -/
structure SubArgs where
  va : Nat
  k : Nat
  key : Nat
  hd : BitVec 512
  ep : Place
  e : BitVec 256
  deriving DecidableEq, Repr

/-- The operands of `sub`, checked in order (R330). -/
def takeSub (f : FmtE) (m : W32) : Act SubArgs := do
  let va := (← sReg m f.dst).toNat
  let k := bits f.mode 5 0
  let p ← descPlace va
  let d ← dev
  let hd := BitVec.ofNat 512 (leNat (← descGet p 0 64 va))
  need (bits hd 127 112 == (me d).ctx % 65536) (permRule va)
  let line := (va + 192 + 32 * k) / 64 * 64
  let q ← descPlace line
  let e := BitVec.ofNat 256 (leNat (← descGet q (32 * (k % 2)) 32 line))
  pure ⟨va, k, placeKey p, hd, placePlus q (32 * (k % 2)), e⟩

/-- Write an entry. -/
def entryPut (a : SubArgs) (e : BitVec 256) : Act Unit := atHome (writePlace a.ep .n64 (natBytes 32 e.toNat))

/-- An entry with its STAT, and one that is not valid (R328, R330). -/
def entryStat (e : BitVec 256) (n : Nat) : BitVec 256 := (e &&& ~~~(0xF#256 <<< 192)) ||| (BitVec.ofNat 256 n <<< 192)
def entryOff (e : BitVec 256) : BitVec 256 := e &&& ~~~(1#256 <<< 63)

/-- The copy whose addresses an entry's pushes write (R330, R331), with a halo's width. -/
def subCopyOf (h : Nat) (m : W32) (a : SubArgs) : Act Copy := do
  let d ← dev
  let one := fun (va : Nat) => (do
    let p ← checkPlace .g { acc := .read, size := 64 } va
    pure { raw := BitVec.ofNat 512 (leNat (← descGet p 0 64 va)), va := va } : Act Slot)
  let ra ← one (a.va + 64)
  let rb ← one (a.va + 128)
  pure { wave := d.cur.1, lane := m, tag := 64, kind := .push a.key a.k h, la := ra, lb := rb, laSlot := 0,
         lbSlot := 0, dst := eTarget a.e, space := 0, cnt := none, ph := false, epoch := 0 }

/-- The checks of a subscription to a target in a store of the wave's stage set, whose replica range it is to be (R330). -/
def checkStore (a : SubArgs) (lo hi : Nat) : Act Unit := do
  let d ← dev
  let t := mySet d
  let target := (eTarget a.e).toNat
  let base := target / 2 ^ 19 * 2 ^ 19
  need (decide (target < 2 ^ 21) && decide (base ≤ lo) && decide (hi ≤ base + 4096 * allocPages t (storeOf (target / 2 ^ 19))))
    { cause := cBOUNDS, addr := eTarget a.e }

/-- The check of a target in global memory, no leaf of whose replica range a wave of the context may write (R330). -/
def checkGlobal (a : SubArgs) (lo hi : Nat) : Act Unit := do
  let d ← dev
  let bad ← act (fun m d' => (writable m d' (me d).ctx lo hi, d'))
  need (!bad) (permRule (eTarget a.e).toNat)

/-- A subscription to a target in a store takes effect (R54, R330). -/
def subStore (a : SubArgs) (lo hi : Nat) : Act Unit := do
  let d ← dev
  let set := (me d).set
  let t := setOf d set
  let target := (eTarget a.e).toNat
  let st := storeOf (target / 2 ^ 19)
  let base := target / 2 ^ 19 * 2 ^ 19
  let others := t.ranges.filter (fun r => !(r.desc == a.key && r.entry == a.k))
  if 8 ≤ others.length then entryPut a (entryStat (entryOff a.e) 1)
  else do
    let gen := ((t.pages.find? (fun p => p.store == st)).map (·.gen)).getD 0
    upd (fun d => setSet d set { t with ranges := others ++ [⟨st, lo - base, hi - base, a.key, a.k⟩] })
    let e1 := a.e &&& ~~~((0xFFFFFFFF#256 <<< 96) ||| (0xFF#256 <<< 88))
    entryPut a (entryStat (e1 ||| (1#256 <<< 63) ||| ((gen.setWidth 256 : BitVec 256).shiftLeft 96) |||
      (BitVec.ofNat 256 (t.vcore % 256) <<< 88)) 0)

/-- A subscription, or its end under `.off` (R330): the checks, which both make, then the answer of the entry's home, which goes by
the descriptor's KIND and NENT. Bits that must be zero are not checked (DESIGN CHOICE, log 69). -/
def subApply (f : FmtE) (m : W32) (a : SubArgs) : Act Unit := do
  let d ← dev
  let kind := bits a.hd 71 68
  let halo := kind = 1
  need (!(halo && !eKind a.e)) { cause := cSPACE }
  need (!(halo && eKind a.e && storeOf ((eTarget a.e).toNat / 2 ^ 19) == .c)) { cause := cSPACE, sub := 3 }
  let c ← subCopyOf (if halo then (lineOf d (lineNo a.key)).haloW else 0) m a
  let r := replicaRange c
  if eKind a.e then checkStore a r.1 r.2 else checkGlobal a r.1 r.2
  if bits f.mode 11 11 = 1 then do
    entryPut a (entryOff a.e)
    upd (fun d => dropRange d a.key a.k)
  else if kind = 0 || decide (bits a.hd 79 72 ≤ a.k) then entryPut a (entryStat a.e 2)
  else if eKind a.e then subStore a r.1 r.2
  else entryPut a (entryStat (a.e ||| (1#256 <<< 63)) 0)

def execSubCopy (h : Head) (f : FmtE) (s : State) : Out :=
  runA (.subCopy h f) h (do
    let m ← acting h false
    if m = 0 then pure .retire
    else
      let a ← takeSub f m
      subApply f m a
      pure .retire) s

end Sys2Proof.Machine
end

