-- ==== Sys2Proof/Machine/Sync.lean ====
section
/-!
DEFINITION. Synchronisation: major 0x2C but `lr` and `sc` (spec/08_line_locks.md R130 to R139,
spec/15_isa_memory.md R277 to R281), and its device steps: timeouts, reissues, away and back messages, polls.
-/
namespace Sys2Proof.Machine

/-! ### Shared shapes. -/

/-- The causes of a lane's checks (R198, R263). -/
def laneCauses : List (BitVec 8) := [cALIGN, cBOUNDS, cBADADDR, cXLATE, cBADPTE, cPERM, cPOISON, cPEERDOWN]

/-- A trap of a lane's checks names the lane in INFO2 (R198). -/
def asLane {α : Type} (l : Nat) (x : Act α) : Act α := fun m d =>
  match x m d with
  | .error t => .error (if laneCauses.contains t.cause && t.info2 == 0 then { t with info2 := 1#32 <<< l } else t)
  | r => r

/-- An instruction that acts for the wave on the operands of its lowest active lane (R134, R262): `body` gets the active
mask and that lane. With no active lane it only pops and pushes (R134, R212). -/
def waveOp (h : Head) (f : W32 → Act (W32 → Nat → Act Verdict)) (none_ : W32 → Act Unit) : Act Verdict := do
  let m ← acting h false
  let body ← f m
  match lowLane m with
  | some l => asLane l (body m l)
  | none => do
    none_ m
    pure .retire

/-- The result of a per-wave instruction: the same in every active lane (R262). -/
def waveDst (t : Ty) (m : W32) (code : BitVec 8) (v : W64) : Act Unit := loadDst t m code (fun _ => v)

/-- The lost writes of the wave are reported (R124). -/
def reportLost : Act Unit := do
  let d ← dev
  let lost := (me d).lost
  upd (fun d => setMe d { me d with lost := [] })
  undelivered lost

/-- A line that reads with an uncorrectable error (R68). -/
def lineGood (k va : Nat) : Act Unit := do
  let d ← dev
  need (!d.poison.contains (lineNo k)) { cause := cPOISON, addr := w64 (va / 16 * 16) }

/-! ### Line locks (R130 to R139). -/

/-- The checks of a lock instruction's address (R130): its line's key. -/
def lockAddr (va : Nat) : Act Nat := do
  need (decide (va % 64 = 0)) { cause := cALIGN, addr := w64 va }
  let k ← deviceKey { acc := .readWrite, size := 64, atomic := true, posted := true } va
  let d ← dev
  need (!(lineOf d (lineNo k)).ph) (permRule va)
  pure k

/-- Whether a wave holds a line. -/
def holds (x : Wave) (n : Nat) : Bool := x.held.any (fun h => h.line == n)

/-- The checks of `lock` and `trylock` on the held list (R134). -/
def holdChecks (n va : Nat) : Act Unit := do
  let d ← dev
  need (!holds (me d) n) { cause := cLOCKSELF, addr := w64 va }
  need (decide ((me d).held.length < 4)) { cause := cLOCKLIMIT, addr := w64 va }

/-- A lock instruction on its line (R133, R134). -/
def lockOp (h : Head) (f : FmtM) (body : W32 → Nat → Nat → Act Verdict) : Act Verdict :=
  waveOp h (fun m => do
    let ea ← laneAddr f.base f.off m
    pure (fun m l => do
      let va := (ea l).toNat
      let k ← lockAddr va
      body m va (lineNo k))) (fun _ => pure ())

/-- The wait deadline of a `lock` (R133). -/
def waitDeadline (d : Dev) (wt : BitVec 4) : Option Nat := if wt = 0 then none else after d (2 ^ (wt.toNat + 11))

/-- A `lock` request arrives at the home slice (R135, R140): its status when it is granted, or the reason to park. `mask` is the
active mask of the instruction. -/
def lockRequest (m : Memory) (d : Dev) (w sp n va : Nat) (mask : W32) (deadline : Option Nat) : Dev × (W64 ⊕ Park) :=
  match lockEntry m d n (bankOf va) with
  | none => (d, .inr (.lockFull n va mask deadline))
  | some e =>
    if !e.locked && e.queue.isEmpty then
      let (d1, st) := grantLock m d n e w va mask (splitOf (waveOf d w) sp).clock
      (d1, .inl st)
    else if 16384 ≤ bankWaiters d e.bank then (d, .inr (.lockFull n va mask deadline))
    else (setLock d n { e with queue := e.queue ++ [{ wave := w, split := sp, va := va, mask := mask }] }, .inr (.lock n va deadline))

def execLock (h : Head) (f : FmtM) (s : State) : Out :=
  runA (.lock h f) h (do
    let d ← dev
    match (mySplit d).ans with
    | some r => do
      let m ← acting h false
      putA 0 m f.d (fun _ => lane r 0)
      pure .retire
    | none => lockOp h f (fun m va n => do
      holdChecks n va
      ordering (do
        match ← act (fun m0 d =>
            let r := lockRequest m0 d d.cur.1 d.cur.2 n va m (waitDeadline d f.sz)
            (r.2, r.1)) with
        | .inl st => do
          putA 0 m f.d (fun _ => st)
          pure .retire
        | .inr p => park p))) s

def execTrylock (h : Head) (f : FmtM) (s : State) : Out :=
  runA (.trylock h f) h (lockOp h f (fun m va n => do
    holdChecks n va
    ordering (do
      let st ← act (fun m0 d =>
        match lockEntry m0 d n (bankOf va) with
        | none => (2, d)
        | some e =>
          if !e.locked && e.queue.isEmpty then
            let r := grantLock m0 d n e d.cur.1 va m (mySplit d).clock
            (r.2, r.1)
          else (1, d))
      putA 0 m f.d (fun _ => st)
      pure .retire))) s

def execUnlock (h : Head) (f : FmtM) (s : State) : Out :=
  runA (.unlock h f) h (lockOp h f (fun m va n => do
    let d ← dev
    need (holds (me d) n) { cause := cLOCKNOTHELD, addr := w64 va }
    ordering (releasing .dev (do
      actU (fun m d => unlockLine m d d.cur.1 n (mySplit d).clock)
      startPushes m n
      pure .retire)))) s

/-- The word of `lockq` (R138). -/
def lockWord (d : Dev) (w n : Nat) : W64 :=
  let self := bitAt (holds (waveOf d w) n) 17
  match (lineOf d n).lock with
  | none => self
  | some e =>
    self ||| bitAt e.reserved 18 ||| bitAt e.locked 16 ||| w64 (e.queue.length % 65536) |||
      (if e.locked then ownerWord d (some e) &&& ~~~1#64 else 0)

def execLockq (h : Head) (f : FmtM) (s : State) : Out :=
  runA (.lockq h f) h (lockOp h f (fun m _ n => ordering (do
    let d ← dev
    putA 0 m f.d (fun _ => lockWord d d.cur.1 n)
    pure .retire))) s

/-! ### Seals (R95 to R101, R277). -/

/-- The address of a seal operand: the default seal for BASE = 0xC8 (R97). -/
def sealAddr (f : FmtM) (m : W32) : Act (Nat → Nat) := do
  let ea ← laneAddr f.base f.off m
  let d ← dev
  if none8 f.base then pure (fun _ => (launchOf d (me d).launch).sealVa.toNat)
  else pure (fun l => (ea l).toNat)

/-- The number under which the releases on a seal outside device memory are remembered. -/
def awayLine (p : Place) : Option Nat :=
  match p with
  | .host _ | .peer _ _ | .reg _ => some (sealLine p)
  | .device _ | .mapped _ _ _ _ | .page _ _ _ => none

/-- A release on a seal outside device memory, whose line has no stamps, is remembered (R99). -/
def releaseAway (d : Dev) (p : Place) (w : Nat) (sc : Scope) : Dev :=
  match awayLine p with
  | none => d
  | some n => modLine d n (fun l => { l with
      rels := noteRel l.rels { scope := sc, wave := some w, vst := (waveOf d w).vstamp } })

/-- An acquire on such a seal sees what the releases that it synchronises with cover (R99, R100, R120). -/
def acquireAway (d : Dev) (p : Place) (w : Nat) (sc : Scope) : Dev :=
  match (awayLine p).elim [] (fun n => syncedWith d n w sc) with
  | [] => d
  | rs => acquireView d w (rs.foldl (fun v r => max v r.vst) 0)

def execAcq (h : Head) (f : FmtM) (s : State) : Out :=
  runA (.acq h f) h (waveOp h (fun m => do
    let ea ← sealAddr f m
    pure (fun m l => do
      let t := ty f.sz
      let va := ea l
      let sc := scope f.sc.toNat
      roomFor f.d 1
      let d ← dev
      let p ← sealPlace .read (mySplit d).ans.isSome va
      match p, (mySplit d).ans with
      | .peer n _, none => ordering (askPeer n)
      | .peer _ _, some r => do
        upd (fun d => acquireAway d p d.cur.1 sc)
        waveDst t m f.d (lane r 0)
        pure .retire
      | .device k, _ => do
        lineGood k va
        ordering (do
          let v ← act (fun m d =>
            let d1 := recallFrom d (lineNo k) (some (clusterIdx d d.cur.1))
            (rd64 m d1 k, acquireStamps d1 (lineNo k) d1.cur.1 sc))
          waveDst t m f.d v
          pure .retire)
      | p, _ => ordering (do
          match ← perform (readPlace p 8 va false false) with
          | none => pure .stay
          | some bs => do
            upd (fun d => acquireAway d p d.cur.1 sc)
            waveDst t m f.d (leWord bs)
            pure .retire))) (fun m => loadDst (ty f.sz) m f.d (fun _ => 0))) s

/-- The seal write of a `rel` (R99, R118), and the pushes that it starts (R126). -/
def relWrite (m : W32) (p : Place) (sc : Scope) (v : W64) : Act Unit :=
  match p with
  | .device k => do
    actU (fun m d =>
      let n := lineNo k
      let d1 := recallLine d n
      homeWrite m (releaseStamps d1 n sc (some d.cur.1) (me d1).vstamp) (whoMe d) k (leBytes 8 v))
    startPushes m (lineNo k)
  | q => do
    let _ ← perform (writePlace q .n64 (leBytes 8 v))
    upd (fun d => releaseAway d q d.cur.1 sc)
    startPushes m (sealLine q)

/-- `rel` (R97, R99, R124). A `rel.sys` reports the writes that have been lost before it performs its seal write; where the record meets
a full ring it has not performed, and issues again. A seal write that is itself lost counts for the next report (log 24). -/
def execRel (h : Head) (f : FmtM) (s : State) : Out :=
  runA (.rel h f) h (waveOp h (fun m => do
    let src ← takeSrc .n64 m f.d
    let ea ← sealAddr f m
    pure (fun m l => do
      let va := ea l
      let sc := scope f.sc.toNat
      let p ← sealPlace .write true va
      let d ← dev
      let v := extLoad (ty f.sz) (valA (me d) (mySplit d) src l)
      ordering (releasing sc (do
        if sc = .sys then reportLost else pure ()
        let e ← dev
        if (mySplit e).park ≠ .running then pure .stay
        else do
          relWrite m p sc v
          pure .retire)))) (fun _ => pure ())) s

/-! ### Bindings (R96, R278). -/

/-- The operands of `bind` and `unbind`: seal, base and length of the lowest lane. -/
def bindArgs (f : FmtX) (m : W32) : Act (Nat → Nat × Nat × Nat) := do
  let a ← takeSrc .n64 m f.a
  let b ← takeSrc .n64 m f.b
  let c ← takeSrc .n64 m f.c
  let d ← dev
  let x := me d
  let s := mySplit d
  pure (fun l => ((valA x s a l).toNat, (valA x s b l).toNat,
    if none8 f.c then 64 * (f.ty.toNat * 256 + f.md.toNat) else (valA x s c l).toNat))

/-- The bytes of a place of the binding table in the save area, whose layout the manual does not give (log 7). -/
def bindBytes (b : Option Binding) : List Byte :=
  match b with
  | none => List.replicate 16 0
  | some b => (List.range 16).map (Config.bindingByte b.sealAddr b.first b.last)

/-- A context's binding table changes, and with it its places in the save area (R96, R207). -/
def putBindings (m : Memory) (d : Dev) (ctx : Nat) (bs : List Binding) : Dev :=
  let old := (ctxOf d ctx).bindings
  (List.range (max old.length bs.length)).foldl (fun d i =>
    if old[i]? = bs[i]? then d else agentWrite m d whoEngine (ctxSave m d ctx + 16 * i) (bindBytes bs[i]?))
    (setCtx d ctx { ctxOf d ctx with bindings := bs })

/-- The shared shape of `bind` and `unbind`: the checks, then a change of the context's table (R96). -/
def bindOp (h : Head) (f : FmtX) (change : List Binding → Binding → Act (List Binding)) : Act Verdict :=
  waveOp h (fun m => do
    let args ← bindArgs f m
    pure (fun _ l => do
      let (seal_, base, n) := args l
      let _ ← sealPlace .read true seal_
      if n = 0 then pure .retire
      else
        need (decide (base + n ≤ 2 ^ 57)) { cause := cBADADDR, addr := w64 base }
        let d ← dev
        let ctx := (me d).ctx
        let bs ← change (ctxOf d ctx).bindings ⟨seal_, base / 64, (base + n - 1) / 64⟩
        actU (fun m d => putBindings m d ctx bs)
        pure .retire)) (fun _ => pure ())

def execBind (h : Head) (f : FmtX) (s : State) : Out :=
  runA (.bind h f) h (bindOp h f (fun bs b => do
    need (decide (bs.length < 1024)) { cause := cBINDFULL }
    pure (bs ++ [b]))) s
def execUnbind (h : Head) (f : FmtX) (s : State) : Out :=
  runA (.unbind h f) h (bindOp h f (fun bs b => pure (bs.filter (· ≠ b)))) s

/-! ### Fences and monitors (R106, R124, R129, R279, R280). -/

def execFence (h : Head) (f : FmtM) (s : State) : Out :=
  runA (.fence h f) h (do
    let m ← acting h false
    let sc := scope f.sc.toNat
    if m = 0 then pure .retire
    else releasing sc (do
      if sc = .sys then reportLost else pure ()
      pure .retire)) s

def execMon (h : Head) (f : FmtM) (s : State) : Out :=
  runA (.mon h f) h (waveOp h (fun m => do
    let ea ← laneAddr f.base f.off m
    pure (fun _ l => do
      let va := (ea l).toNat
      let p ← checkPlace .g { acc := .read, size := 1, posted := true } va
      let go := fun (k : Nat) => (do
        upd (fun d =>
          let d1 := recallLine d (lineNo k)
          let x := { me d1 with monitor := none }
          let d2 := setMe d1 x
          let mo : Monitor :=
            { line := lineNo k, bank := bankOf va, wts := (lineOf d2 (lineNo k)).wts, polling := newWatch d2 (bankOf va) == .polled }
          setMe d2 { x with monitor := some mo })
        pure .retire : Act Verdict)
      match p with
      | .device k => go k
      | .host k => go k
      | _ => trap (permRule va))) (fun _ => pure ())) s

def execMwait (h : Head) (f : FmtI) (s : State) : Out :=
  runA (.mwait h f) h (waveOp h (fun _ => pure (fun m _ => do
    let d ← dev
    roomFor f.d 1
    let out := fun (v : W64) => (do
      waveDst .n64 m f.d v
      pure .retire : Act Verdict)
    match (mySplit d).ans with
    | some r => out (lane r 0)
    | none => ordering (do
      let d ← dev
      match (me d).monitor with
      | none => out 2
      | some mo =>
        let w := (lineOf d mo.line).wts
        if w ≠ mo.wts then do
          upd (fun d => viewWrite (setMe d { me d with monitor := none }) d.cur.1 mo.line)
          out 0
        else park (.mwait (if f.imm = 0 then none else after d (64 * f.imm.toNat))))))
    (fun m => loadDst .n64 m f.d (fun _ => 0))) s

/-! ### Barriers (R281). -/

/-- A split reaches a barrier, whose entry is a release at `.team`, or at `.clu` (R108, R113, R281). -/
def barOp (i : Instr) (clu : Bool) : Act Verdict := do
  let d ← dev
  match (mySplit d).ans with
  | some _ => pure .retire
  | none =>
    let others := ((me d).splits.zipIdx.filter (fun p => p.2 ≠ d.cur.2 && p.1.mask ≠ 0)).map (·.1)
    need (!(others.all (fun s => atBar clu s || atBar (!clu) s) && others.any (atBar (!clu)))) (illop i)
    releasing (if clu then .clu else .team) (do
      upd (fun d =>
        let d1 := setMySplit d { mySplit d with park := if clu then .cbar else .bar }
        settleBars d1 (me d1).set)
      pure .stay)

def execBar (h : Head) (f : FmtX) (s : State) : Out := runJ (.bar h f) h (barOp (.bar h f) false) s
def execCbar (h : Head) (f : FmtX) (s : State) : Out := runJ (.cbar h f) h (barOp (.cbar h f) true) s

/-! ### Device steps. -/

/-- Whether a deadline has come. -/
def passed (d : Dev) (t : Option Nat) : Bool := t.any (fun t => decide (t ≤ d.cycle))

/-- The keys of the other splits of a launch that wait for an entry of a bank or for a line (R140, R149). -/
def fullKeys (d : Dev) (w sp bank n : Nat) : List Key :=
  (allSplits d).filterMap (fun p =>
    match (splitOf (waveOf d p.1) p.2).park with
    | .lockFull n2 va _ _ =>
      if p ≠ (w, sp) ∧ (waveOf d p.1).launch = (waveOf d w).launch ∧ (bankOf va = bank ∨ n2 = n) then some (keyOf (waveOf d p.1) p.2)
      else none
    | _ => none)

/-- Whether a request that waits for a free entry arrives next (R149, R161): in FO mode its key stands below those of the launch's
active splits and of those that wait with it. -/
def arrivesNext (d : Dev) (w sp bank n : Nat) : Bool :=
  !(waveOf d w).fo || (leastKey (activeKeys d (waveOf d w).launch ++ fullKeys d w sp bank n)).all
    (fun k => keyLt (keyOf (waveOf d w) sp) k)

/-- A parked lock request is reissued (R140): its place in the queue is by its new arrival, its wait timer runs on. In FO mode it
arrives in the order of keys, and it leaves the minimum until then (R149, R161, R162); its clock stays as it is, for no event that the
manual names has woken it (DESIGN CHOICE, log 70). -/
def execLockReissue (w sp : Nat) (s : State) : Out :=
  runEvent (fun m d =>
    match (splitOf (waveOf d w) sp).park with
    | .lockFull n va mask t =>
      if !arrivesNext d w sp (bankOf va) n then d
      else match lockRequest m d w sp n va mask t with
      | (d1, .inl st) => modSplit (unpark d1 w sp) w sp (fun s => { s with ans := some [(0, st)] })
      | (d1, .inr p) => modSplit d1 w sp (fun s => { s with park := p })
    | _ => d) s

/-- The LOCK_WAIT record and its CONT record (R144, R199). -/
def lockWaitRecords (d : Dev) (w sp n va : Nat) : List (List W64) :=
  let x := waveOf d w
  let s := splitOf x sp
  let held := fun (i : Nat) => w64 ((x.held[i]?).elim 0 (·.va))
  [recordWords d x.ctx (some (w, sp)) s.pc s.clock
      { cause := cLOCKWAIT, addr := w64 va, info0 := ownerWord d (lineOf d n).lock, info1 := held 0,
        info2 := BitVec.ofNat 32 x.held.length } {},
    recordWords d x.ctx (some (w, sp)) s.pc s.clock
      { cause := cLOCKWAIT, addr := held 1, info0 := held 2, info1 := held 3 } { cont := true }]

/-- The wait timer of a lock expires (R144, R148): the waiter is removed, its `lock` completes with TIMEOUT, and a LOCK_WAIT
record is written. -/
def execLockWaitTimeout (w sp : Nat) (s : State) : Out :=
  runEvent (fun m d =>
    let go := fun (n va : Nat) (t : Option Nat) =>
      if passed d t then
        let recs := lockWaitRecords d w sp n va
        let clock := (splitOf (waveOf d w) sp).clock
        let d1 := dropWaiter m d w sp
        (ringWrite m (wake d1 w sp [(0, 3)] clock) (waveOf d1 w).ctx recs false).1
      else d
    match (splitOf (waveOf d w) sp).park with
    | .lock n va t => go n va t
    | .lockFull n va _ t => go n va t
    | _ => d) s

/-- The hold timer of a lock expires (R143): one asynchronous LOCK_HOLD, for the split that holds the
lowest lane of the instruction that took the lock (R197); the lock stays held. -/
def execLockHoldTimeout (w line : Nat) (s : State) : Out :=
  runEvent (fun m d =>
    let x := waveOf d w
    match x.held.find? (fun h => h.line == line && passed d h.deadline) with
    | some h =>
      let d1 := setWave d w { x with held := x.held.map (fun g => if g = h then { g with deadline := none } else g) }
      (postAsync m d1 w h.mask { cause := cLOCKHOLD, addr := w64 h.va }).1
    | none => d) s

/-- Mark a wave's queue entries away or back, without a write of the line. -/
def markWaiters (d : Dev) (w : Nat) (away : Bool) : Dev :=
  d.lines.foldl (fun d p =>
    match (lineOf d p.1).lock with
    | some e =>
      if e.queue.any (fun q => q.wave == w) then
        setLock d p.1 { e with queue := e.queue.map (fun q => if q.wave = w then { q with away := away } else q) }
      else d
    | none => d) d

/-- The away message of a wave that has been switched out (R141). -/
def execWaiterAway (w : Nat) (s : State) : Out :=
  runEvent (fun _ d => if setResident d (waveOf d w).set then d else markWaiters d w true) s

/-- A lock that is reserved for a wave is granted to it, with the unlock that reserved it as the waking event (R141, R149). -/
def grantReserved (m : Memory) (w : Nat) (d : Dev) (n : Nat) : Dev :=
  match (lineOf d n).lock with
  | some e =>
    match e.queue.find? (fun q => q.wave == w && reservedFor e q.wave q.split) with
    | some q => grantWaiter m d n { e with queue := e.queue.filter (· ≠ q) } q e.clock
    | none => d
  | none => d

/-- The back message of a wave that has been switched in (R141): the locks reserved for it are granted. -/
def waiterBack (m : Memory) (d : Dev) (w : Nat) : Dev :=
  let d1 := markWaiters d w false
  d1.lines.foldl (fun d p => grantReserved m w d p.1) d1
def execWaiterBack (w : Nat) (s : State) : Out :=
  runEvent (fun m d => if setResident d (waveOf d w).set then waiterBack m d w else d) s

/-- The timeout of a parked `mwait` (R280); a write that a polled watch has still to tell of goes first. The monitor stays armed for
another split of the wave that waits by it (DEDUCED, log 72). -/
def execMwaitTimeout (w sp : Nat) (s : State) : Out :=
  runEvent (fun _ d =>
    let x := waveOf d w
    match (splitOf x sp).park with
    | .mwait t =>
      if passed d t && x.monitor.all (fun mo => mo.due.isNone) then
        let mo := if (mwaiting x).any (· ≠ sp) then x.monitor else none
        wake (setWave d w { x with monitor := mo }) w sp [(0, 1)] (splitOf x sp).clock
      else d
    | _ => d) s

/-- The comparison of a wave's monitor (R129): its parked splits are told of a write. -/
def pollMonitor (d : Dev) (w : Nat) : Dev :=
  match (waveOf d w).monitor with
  | some mo => if (lineOf d mo.line).wts ≠ mo.wts then tellMonitor d w mo.line (mo.due.getD 0) else d
  | none => d

/-- The comparison of a waiter of a phaser or a counter that is watched by polling (R129, R284, R286). -/
def pollWaiter (d : Dev) (w sp : Nat) : Dev :=
  match (splitOf (waveOf d w) sp).park with
  | .cwait _ _ _ _ _ (.due r e) | .phwait _ _ _ (.due r e) => wake d w sp r e
  | _ => d

/-- Watches in polling form are compared (R129). -/
def execMonitorPoll (w : Nat) (s : State) : Out :=
  runEvent (fun _ d =>
    let d1 := if (waveOf d w).monitor.any (·.polling) then pollMonitor d w else d
    (List.range (waveOf d1 w).splits.length).foldl (fun d sp => pollWaiter d w sp) d1) s

end Sys2Proof.Machine
end

