-- ==== Sys2Proof/Machine/Phasers.lean ====
section
/-!
DEFINITION. Phasers and completion counters: major 0x2D (spec/15_isa_memory.md R282 to R286,
spec/09_engines_determinism.md R152, R153), and their device steps.
-/
namespace Sys2Proof.Machine

/-! ### Phasers. -/

/-- The line of a phaser instruction (R283): checked as 8 bytes at offset 0 of a 64-byte-aligned line of device memory
that no lock uses, its alignment before its translation (R263). -/
def phaserLine (acc : Access) (va : Nat) : Act Nat := do
  need (decide (va < 2 ^ 57)) { cause := cBADADDR, addr := w64 va }
  need (decide (va % 64 = 0)) { cause := cALIGN, addr := w64 va }
  match ← checkPlace .g { acc := acc, size := 8, posted := true } va with
  | .device k => do
    let d ← dev
    need (lineOf d (lineNo k)).lock.isNone (permRule va)
    lineGood k va
    pure (lineNo k)
  | _ => trap (permRule va)

/-- A phaser instruction on its line with its operand (R283): `body` gets the active mask, the line, B, and the logical bank of
the line's VA. Every one is an ordering operation (R284). -/
def phaserOp (h : Head) (f : FmtX) (acc : Access) (body : W32 → Nat → BitVec 32 → Nat → Act Verdict) : Act Verdict :=
  waveOp h (fun m => do
    let a ← takeSrc .n64 m f.a
    let b ← takeSrc .n64 m f.b
    let d ← dev
    let x := me d
    let s := mySplit d
    pure (fun m l => do
      roomFor f.d 1
      let n ← phaserLine acc (valA x s a l).toNat
      ordering (body m n ((valA x s b l).setWidth 32) (bankOf (valA x s a l).toNat)))) (fun m => loadDst .n64 m f.d (fun _ => 0))

/-- The result of a phaser instruction. -/
def phaserDone (f : FmtX) (m : W32) (v : W64) : Act Verdict := do
  waveDst .n64 m f.d v
  pure .retire

/-- An instruction that finds no phaser answers NOPH (R283). -/
def needPhaser (f : FmtX) (m : W32) (n : Nat) (body : Act Verdict) : Act Verdict := do
  let d ← dev
  if (lineOf d n).ph then body else phaserDone f m 3

/-- The status of an operation on a line, with its PHASE as it stands (R283). -/
def statusNow (n code : Nat) : Act W64 := act (fun m d => (phStatus (phaserOf m d n).phase code, d))

/-- The phaser that `phinit` makes, or none for `.free` (R284). -/
def phInit (m : Memory) (d : Dev) (n parties : Nat) (any free : Bool) : Dev :=
  let l := lineOf d n
  let e := if l.ph then (phaserOf m d n).epoch + 1 else 1
  let d1 := if l.ph then wakeGone d n (mySplit d).clock else d
  if free then
    modLine (sealWrite m d1 (whoMe d1) (n * 64 + 32) (List.replicate 32 0)) n (fun l => { l with ph := false })
  else putPhaser m d1 (whoMe d1) n { any := any, parties := parties, epoch := e }

def execPhinit (h : Head) (f : FmtX) (s : State) : Out :=
  runA (.phinit h f) h (phaserOp h f .readWrite (fun m n v _ => do
    let d ← dev
    let ph := (lineOf d n).ph
    let p ← act (fun m d => (if ph then phaserOf m d n else {}, d))
    if ph && p.waiters ≠ 0 && bits f.md 0 0 == 0 then phaserDone f m (phStatus p.phase 1)
    else if 65535 < v.toNat then phaserDone f m (phStatus p.phase 5)
    else do
      actU (fun m d => phInit m d n v.toNat (bits f.md 1 1 == 1) (bits f.md 2 2 == 1))
      phaserDone f m (phStatus 0 0))) s

/-- A change of PARTIES, and the advance that follows it (R284). -/
def setParties (m : Memory) (d : Dev) (n parties : Nat) : Dev :=
  wakePhase m (putPhaser m d (whoMe d) n (phAdvance { phaserOf m d n with parties := parties })) n (mySplit d).clock

def execPhreg (h : Head) (f : FmtX) (s : State) : Out :=
  runA (.phreg h f) h (phaserOp h f .readWrite (fun m n v _ => needPhaser f m n (do
    let p ← act (fun m d => (phaserOf m d n, d))
    if 65535 < p.parties + v.toNat then phaserDone f m (phStatus p.phase 5)
    else do
      actU (fun m d => setParties m d n (p.parties + v.toNat))
      phaserDone f m (← statusNow n 0)))) s

/-- A `.dev` release on a phaser's line (R284), with the pushes that it starts (R126). -/
def phRelease (m : W32) (n : Nat) (change : Memory → Dev → Dev) : Act Unit := do
  actU (fun m d => change m (releaseStamps (recallLine d n) n .dev (some d.cur.1) (me d).vstamp))
  startPushes m n

def execPhdrop (h : Head) (f : FmtX) (s : State) : Out :=
  runA (.phdrop h f) h (phaserOp h f .readWrite (fun m n v _ => needPhaser f m n (releasing .dev (do
    let p ← act (fun m d => (phaserOf m d n, d))
    if p.parties < v.toNat then phaserDone f m (phStatus p.phase 4)
    else do
      phRelease m n (fun m d => setParties m d n (p.parties - v.toNat))
      phaserDone f m (← statusNow n 0))))) s

/-- The signal of `phsig` and `phsw` (R284): its status code. -/
def signalNow (m : W32) (n : Nat) (v : BitVec 32) : Act Nat := do
  let code ← act (fun m d =>
    let d1 := releaseStamps (recallLine d n) n .dev (some d.cur.1) (me d).vstamp
    let r := phSignal m d1 (whoMe d1) n v.toNat
    (r.2, r.1))
  startPushes m n
  pure code

def execPhsig (h : Head) (f : FmtX) (s : State) : Out :=
  runA (.phsig h f) h (phaserOp h f .readWrite (fun m n v _ => needPhaser f m n (releasing .dev (do
    let code ← signalNow m n v
    phaserDone f m (← statusNow n code))))) s

/-- Wait for a phase (R284): OK at once with a `.dev` acquire, or park, counted among the waiters. -/
def phaserWait (f : FmtX) (m : W32) (n : Nat) (k : BitVec 32) (bank : Nat) : Act Verdict := do
  let p ← act (fun m d => (phaserOf m d n, d))
  if phReached p k then do
    upd (fun d => acquireStamps d n d.cur.1 .dev)
    phaserDone f m (phStatus p.phase 0)
  else do
    upd (fun d => countWaiters d n { p with waiters := p.waiters + 1 })
    let d ← dev
    park (.phwait n k bank (newWatch d bank))

/-- The answer with which a parked `phwait` or `phsw` has been woken, or the instruction itself. -/
def wokenOr (h : Head) (f : FmtX) (body : Act Verdict) : Act Verdict := do
  let d ← dev
  match (mySplit d).ans with
  | some r => waveOp h (fun m => do
      let _ ← takeSrc .n64 m f.a
      let _ ← takeSrc .n64 m f.b
      let _ ← takeSrc .n64 m f.c
      pure (fun m _ => phaserDone f m (lane r 0))) (fun _ => pure ())
  | none => body

def execPhwait (h : Head) (f : FmtX) (s : State) : Out :=
  runA (.phwait h f) h (wokenOr h f
    (phaserOp h f .readWrite (fun m n v bank => needPhaser f m n (phaserWait f m n v bank)))) s

/-- A `phsw` that is issued again after its signal waits for the phase it named then (`served`), and signals no more. -/
def execPhsw (h : Head) (f : FmtX) (s : State) : Out :=
  runA (.phsw h f) h (wokenOr h f
    (phaserOp h f .readWrite (fun m n v bank => needPhaser f m n (do
      let d ← dev
      if (mySplit d).served ≠ 0 then phaserWait f m n ((lane (mySplit d).servedVals 0).setWidth 32) bank
      else releasing .dev (do
        let p ← act (fun m d => (phaserOf m d n, d))
        let _ ← signalNow m n v
        let k := p.phase + 1
        upd (fun d => setMySplit d { mySplit d with served := m, servedVals := [(0, k.setWidth 64)] })
        phaserWait f m n k bank))))) s

def execPhquery (h : Head) (f : FmtX) (s : State) : Out :=
  runA (.phquery h f) h (phaserOp h f .read (fun m n _ _ => do
    let d ← dev
    let p ← act (fun m d => (phaserOf m d n, sawHome m d d.cur.1 (n * 64) 64))
    phaserDone f m (if (lineOf d n).ph then
      (p.phase.setWidth 64 <<< 32) ||| (w64 (p.parties % 65536) <<< 16) ||| w64 (p.arrived % 65536) else 0))) s

/-! ### Completion counters (R286). -/

/-- The counter that an address names: eight bytes of device memory, as a key. -/
def counterKey (u : Use) (va : Nat) : Act Nat := do
  match ← checkPlace .g { u with size := 8, posted := true } va with
  | .device k => do
    lineGood k va
    pure k
  | _ => trap (permRule va)

def execCadd (h : Head) (f : FmtX) (s : State) : Out :=
  runA (.cadd h f) h (waveOp h (fun m => do
    let a ← takeSrc .n64 m f.a
    let b ← takeSrc .n64 m f.b
    let d ← dev
    let x := me d
    let sp := mySplit d
    pure (fun m l => do
      roomFor f.d 1
      let k ← counterKey { acc := .readWrite, size := 8, writes := true } (valA x sp a l).toNat
      ordering (releasing (scopeX f.md) (do
        let old ← act (fun m d =>
          let d1 := recallLine d (lineNo k)
          (rd64 m d1 k, counterAdd m d1 (whoMe d1) k (valA x sp b l) (me d1).vstamp false))
        phaserDone f m old)))) (fun m => loadDst .n64 m f.d (fun _ => 0))) s

/-- The value of a counter at its home. -/
def counterValue (k : Nat) : Act W64 := act (fun m d =>
  let d1 := recallLine d (lineNo k)
  (rd64 m d1 k, sawHome m d1 d1.cur.1 k 8))

def execCwait (h : Head) (f : FmtX) (s : State) : Out :=
  runA (.cwait h f) h (wokenOr h f (waveOp h (fun m => do
    let a ← takeSrc .n64 m f.a
    let b ← takeSrc .n64 m f.b
    let c ← takeSrc .n64 m f.c
    let d ← dev
    let x := me d
    let sp := mySplit d
    pure (fun m l => do
      roomFor f.d 1
      let k ← counterKey { acc := .read, size := 8 } (valA x sp a l).toNat
      let target := valA x sp b l
      let time := valA x sp c l
      ordering (do
        let v ← counterValue k
        if target ≤ v then do
          upd (fun d => counterAcquire d d.cur.1 k (scopeX f.md))
          phaserDone f m v
        else do
          let d ← dev
          let bank := bankOf (valA x sp a l).toNat
          park (.cwait k target (scopeX f.md) (if time = 0 then none else after d time.toNat) bank (newWatch d bank)))))
    (fun m => loadDst .n64 m f.d (fun _ => 0)))) s

def execCread (h : Head) (f : FmtM) (s : State) : Out :=
  runA (.cread h f) h (waveOp h (fun m => do
    let ea ← laneAddr f.base f.off m
    pure (fun m l => do
      roomFor f.d 1
      let k ← counterKey { acc := .read, size := 8 } (ea l).toNat
      ordering (do
        let v ← counterValue k
        upd (fun d => counterAcquire d d.cur.1 k (scope f.sc.toNat))
        waveDst .n64 m f.d v
        pure .retire))) (fun m => loadDst .n64 m f.d (fun _ => 0))) s

/-! ### Device steps. -/

/-- The timeout of a parked `cwait` (R286): it returns the counter's value and acquires nothing. -/
def execCwaitTimeout (w sp : Nat) (s : State) : Out :=
  runEvent (fun m d =>
    match (splitOf (waveOf d w) sp).park with
    | .cwait _ _ _ _ _ (.due _ _) => d
    | .cwait k _ _ t _ _ =>
      if passed d t then
        let d1 := recallLine d (lineNo k)
        wake (sawHome m d1 w k 8) w sp [(0, rd64 m d1 k)] (splitOf (waveOf d w) sp).clock
      else d
    | _ => d) s

/-- The n-th signal of an engine on its way arrives, unless it waits for its publication (R163, R285). -/
def execPhaserEngineSignal (n : Nat) (s : State) : Out :=
  runEvent (fun m d =>
    match d.signals[n]? with
    | some g =>
      if g.held.isSome then d else engineSignal m { d with signals := d.signals.eraseIdx n } g 0
    | none => d) s

end Sys2Proof.Machine
end

