-- ==== Sys2Proof/Machine/CopyOps.lean ====
section
/-!
DEFINITION. The copy instructions: major 0x36 but `halo`, `pub` and `sub` (spec/17_isa_copy_task_system.md R319, R320,
R326, R327).
-/
namespace Sys2Proof.Machine

/-- A record goes into the slot that the word names, once its fields have been checked (R319). -/
def keepSlot (i : Instr) (slot va : Nat) (bs : List Byte) : Act Unit := do
  let r := BitVec.ofNat 512 (leNat bs)
  need (layoutOk r) (illop i)
  upd (fun d => setMe d { me d with slots := put none (me d).slots slot (some ⟨r, va⟩) })

/-- `cpld` reads a record, checks it, and puts it in a slot (R319). -/
def execCpld (h : Head) (f : FmtS) (s : State) : Out :=
  runA (.cpld h f) h (do
    let m ← acting h false
    if m = 0 then pure .retire
    else
      let va := (← sReg m f.a).toNat
      let d ← dev
      let p ← checkPlace .g { acc := .read, size := 64, posted := (mySplit d).ans.isSome } va
      match p, (mySplit d).ans with
      | .peer n _, none => askPeer n
      | .peer _ _, some r => do
        keepSlot (.cpld h f) (bits f.code 3 0) va ((List.range 8).flatMap (fun i => leBytes 8 (lane r i)))
        pure .retire
      | p, _ =>
        match ← perform (readPlace p 64 va true false) with
        | none => pure .stay
        | some bs => do
          keepSlot (.cpld h f) (bits f.code 3 0) va bs
          pure .retire) s

/-- The checks of the records of a copy (R320, R323). -/
def copyShapes (kind : CopyKind) (la lb : BitVec 512) : Bool :=
  match kind with
  | .cpyx => lIdx la && !lIdx lb && !lWin lb && !lDesc lb && decide (lExtent la 0 ≤ lRank lb)
  | .cpyw => lWin la && !lIdx lb && !lWin lb && !lDesc lb && lRank lb == 2 && lSize la == lSize lb &&
      (match winExts la with
        | some (a, b, _, _) => lExts lb == [a, b]
        | none => false)
  | _ => !lIdx la && !lWin la && !lIdx lb && !lWin lb && lSize la == lSize lb && !(lDesc lb && !lDesc la)

/-- A completion counter that an engine operation names, checked at its issue (R313). -/
def engineCounter (va : Nat) : Act Nat := do
  match ← checkPlace .g { acc := .readWrite, size := 8, writes := true, atomic := true, posted := true } va with
  | .device k => pure k
  | _ => trap (permRule va)

/-- The EPOCH that an engine operation samples of a phaser (R285). -/
def epochOf (m : Memory) (d : Dev) (n : Nat) : BitVec 32 := if (lineOf d n).ph then (phaserOf m d n).epoch else 0

/-- The counter or phaser that a copy names, checked at its issue: the VA, its key, and the EPOCH of a phaser (R285, R313,
R320). -/
def copyCounter (f : FmtE) (m : W32) : Act (Nat × Option Nat × BitVec 32) := do
  let ph := bits f.mode 4 4 == 1
  let va ← (if none8 f.cnt then pure 0 else sReg m f.cnt)
  let cnt ← (if none8 f.cnt then pure none
    else if ph then do pure (some (64 * (← phaserLine .readWrite va.toNat)))
    else do pure (some (← engineCounter va.toNat)))
  let epoch ← act (fun m d => (cnt.elim 0 (fun k => if ph then epochOf m d (lineNo k) else 0), d))
  pure (va.toNat, cnt, epoch)

/-- The copy that an instruction issues (R320), with its tag. -/
def newCopy (d : Dev) (f : FmtE) (kind : CopyKind) (la lb : Slot) (m : W32) (dst : W64) (c : Nat × Option Nat × BitVec 32)
    (tag : Nat) : Copy :=
  { wave := d.cur.1, lane := m, tag := tag, kind := kind, la := la, lb := lb, laSlot := f.la.toNat, lbSlot := f.lb.toNat,
    dst := dst, space := bits f.mode 3 0, cnt := c.2.1, ph := bits f.mode 4 4 == 1, epoch := c.2.2, key := keyOf (me d) d.cur.2,
    cva := c.1 }

/-- `cpy`, `cpyx` and `cpyw` (R320): the checks at issue, then a copy with the core's lowest free tag; with none free the
access stream stalls. -/
def issueCopy (i : Instr) (h : Head) (f : FmtE) (kind : CopyKind) : Act Verdict := do
  let la ← slotArg i f.la
  let lb ← slotArg i f.lb
  need (copyShapes kind la.raw lb.raw) (illop i)
  let m ← acting h false
  if m = 0 then pure .retire
  else
    let dst ← sReg m f.dst
    need (decide (dst.toNat % lSize lb.raw = 0)) { cause := cALIGN, addr := dst }
    let c ← copyCounter f m
    let d ← dev
    match freeTag d (pcore d (vcoreOf d (me d))) with
    | none => pure .stay
    | some t =>
      upd (fun d => { d with copies := d.copies ++ [newCopy d f kind la lb m dst c t] })
      pure .retire

def execCpy (h : Head) (f : FmtE) (s : State) : Out := runA (.cpy h f) h (issueCopy (.cpy h f) h f .cpy) s
def execCpyx (h : Head) (f : FmtE) (s : State) : Out := runA (.cpyx h f) h (issueCopy (.cpyx h f) h f .cpyx) s
def execCpyw (h : Head) (f : FmtE) (s : State) : Out := runA (.cpyw h f) h (issueCopy (.cpyw h f) h f .cpyw) s

/-! ### Faulted copies (R326). -/

/-- The faulted copy of a wave that holds a tag. -/
def faultedCopy (d : Dev) (w tag : Nat) : Option Nat :=
  d.copies.findIdx? (fun c => c.wave == w && c.tag == tag && c.fault.isSome && !c.done)

/-- Retry the failing access. -/
def retryCopy (d : Dev) (i : Nat) : Dev :=
  match copyAt d i with
  | some c => setCopy d i { c with fault := none }
  | none => d

/-- The elements that take 0 when a read fault is skipped: one, or what is left of a sub-tensor, when its index failed or its
entry lies out of range under POL 2 (R322, R326). -/
def skipCount (c : Copy) (f : CopyFault) : Nat :=
  let p := max 1 (subTensor c)
  if c.kind == .cpyx && (bits f.trap.info0 4 4 == 0 || f.trap.sub == 6) then p - c.pos % p else 1

/-- The copy with its failing access skipped (R326): the element is not written, or takes 0. A descriptor that failed is left
out with a write, and is that of zero-fill for a read (DESIGN CHOICE, log 27); one that did not fail still moves (R318). -/
def skipped (c : Copy) : Copy :=
  match c.fault with
  | none => c
  | some f =>
    let e := { c with fault := none, noDesc := if f.desc then (if f.onWrite then 2 else 1) else c.noDesc }
    if f.onWrite then landed { e with noWrite := true } {} else { e with zeros := max c.zeros (skipCount c f) }

def skipCopy (d : Dev) (i : Nat) : Dev :=
  match copyAt d i with
  | some c => setCopy d i (skipped c)
  | none => d

/-- Whether a record may take another's place under `.reload`. -/
def sameShape (a b : BitVec 512) : Bool := lRank a == lRank b && lTy a == lTy b && (List.range 4).all (fun i => lExtent a i == lExtent b i)

/-- Both records, taken again from the slots that the copy named; none for BADFIX. -/
def reloaded (x : Wave) (c : Copy) : Option Copy :=
  match c.kind, look none x.slots c.laSlot, look none x.slots c.lbSlot with
  | .push _ _ _, _, _ => none
  | _, some a, some b => if sameShape a.raw c.la.raw && sameShape b.raw c.lb.raw then some { c with la := a, lb := b } else none
  | _, _, _ => none

/-- `cpfix` on a copy: the device after it, and the status. -/
def fixCopy (m : Memory) (d : Dev) (i act : Nat) (reload : Bool) : Dev × Nat :=
  match act, reload, copyAt d i with
  | 0, true, some c =>
    match reloaded (me d) c with
    | some e => (setCopy d i { e with fault := none }, 0)
    | none => (d, 2)
  | 0, _, _ => (retryCopy d i, 0)
  | 1, _, _ => (skipCopy d i, 0)
  | _, _, _ => (abortCopy m d i, 0)

def execCpfix (h : Head) (f : FmtS) (s : State) : Out :=
  runA (.cpfix h f) h (do
    let m ← acting h false
    if m = 0 then pure .retire
    else
      let tag := (← sReg m f.a).toNat % 64
      let d ← dev
      let st ← (match faultedCopy d d.cur.1 tag with
        | none => pure 1
        | some i => act (fun m d =>
            let r := fixCopy m d i (bits f.code 1 0) (bits f.code 2 2 == 1)
            (r.2, r.1)))
      putA 0 m f.d (fun _ => w64 st)
      pure .retire) s

/-- The word of `cpq` (R327). -/
def copyWord (d : Dev) (sel : Nat) : W64 :=
  let mine := d.copies.filter (fun c => c.wave == d.cur.1 && !c.done && c.tag < 64)
  let tags := fun (cs : List Copy) => cs.foldl (fun (x : W64) c => x ||| bitAt true c.tag) 0
  if (me d).fo then 0
  else if sel = 0 then tags mine
  else if sel = 1 then tags (mine.filter (·.fault.isSome))
  else w64 (64 - (coreCopies d (pcore d (vcoreOf d (me d)))).countP (·.tag < 64))

def execCpq (h : Head) (f : FmtS) (s : State) : Out :=
  runA (.cpq h f) h (do
    let m ← acting h false
    let d ← dev
    putA 0 m f.d (fun _ => copyWord d (bits f.code 1 0))
    pure .retire) s

end Sys2Proof.Machine
end

