-- ==== Sys2Proof/Machine/Quill.lean ====
section
/-!
DEFINITION. Quill as it runs (spec/16_isa_matrix.md R287 to R309): the geometry of an operation, its loads into the banks,
its rows, its completion; the reference loops of spec/05_number_formats.md R89 to R93.
-/
namespace Sys2Proof.Machine

/-! ### Geometry (R287 to R290, R292, R303). -/

/-- K_max of a container type (R288). -/
def kMax (t : Ty) : Nat :=
  match t with
  | .e4m3 | .e5m2 => 256
  | .e2m1 | .i4x | .i8 | .n8 => 512
  | _ => 128

/-- Whether a container type gives an i64 tile (R288). -/
def i64Tile (t : Ty) : Bool := t == .i8 || t == .n8 || t == .q24

def mTy (o : MatOp) : Ty := ty o.f.ty
/-- The element size of the C tile that an operation reads or writes (R288, R305 to R307). -/
def mC (o : MatOp) : Nat :=
  match o.kind with
  | .mzero => if o.f.ty = 2 then 8 else 4
  | .mpre => if i64Tile (mTy o) || mTy o == .i64 then 8 else 4
  | .mpost => if bits o.f.acc 3 3 = 1 then 8 else 4
  | _ => if i64Tile (mTy o) then 8 else 4
/-- K, or the present K of a sparse operation (R292, R303). -/
def mK (o : MatOp) : Nat := 32 * (bits o.mgeo 3 0 + 1)
/-- N of a sparse operation, 0 for a dense one (R298, R303). -/
def mN (o : MatOp) : Nat :=
  match o.kind with
  | .mwld => match o.f.acc.toNat with | 1 => 16 | 2 => 32 | 3 => 64 | _ => 0
  | .mmas => match bits o.f.acc 2 1 with | 0 => 16 | 1 => 32 | _ => 64
  | _ => 0
/-- The dense K (R303). -/
def denseK (k n : Nat) : Nat := if n = 0 then k else k * 128 / n
def mKd (o : MatOp) : Nat := denseK (mK o) (mN o)
/-- Bytes of `n` elements of a container. -/
def vecBytes (t : Ty) (n : Nat) : Nat := n * tyBits t / 8
def mRows (o : MatOp) : Nat := o.f.m1.toNat + 1
def mG (o : MatOp) : Bool := bits o.f.fl 0 0 == 1
def mCa (o : MatOp) : Bool := bits o.f.fl 1 1 == 1
def mRa (o : MatOp) : Bool := bits o.f.fl 2 2 == 1
def mRw (o : MatOp) : Bool := bits o.f.fl 3 3 == 1
def mZ (o : MatOp) : Bool := bits o.f.acc 0 0 == 1
/-- Offsets of the operands and the side areas. -/
def offOf (x : W64) : Nat := bits x 18 0
def mAdesc (o : MatOp) : Nat := bits o.mdesc 31 0
def mWdesc (o : MatOp) : Nat := bits o.mdesc 63 32
def mMoff (o : MatOp) : Nat := bits o.msparse 31 0
/-- The C stride (R289). -/
def mCstr (o : MatOp) : Nat := let n := bits o.mgeo 35 20; if n = 0 then 64 * mC o else 16 * n
/-- Bytes of an A row, and the A stride (R289). -/
def mArow (o : MatOp) : Nat := vecBytes (mTy o) (mKd o)
def mAstr (o : MatOp) : Nat := let n := bits o.mgeo 19 4; if n = 0 then mArow o else 16 * n
/-- Bytes of an output row of `mpost`: masks, or packed elements (R307). -/
def mOutRow (o : MatOp) : Nat := if bits o.f.acc 2 0 = 2 ∨ bits o.f.acc 2 0 = 3 then 8 else vecBytes (mTy o) 64

/-- Whether an operation loads a bank, swaps, has rows (R296, R300). -/
def loads (o : MatOp) : Bool :=
  match o.kind with
  | .mwld => true
  | .mma | .mmas => !none8 o.f.w
  | _ => false
def swaps (o : MatOp) : Bool :=
  match o.kind with
  | .mswap => true
  | .mma | .mmas => !none8 o.f.w
  | _ => false
def hasRows (o : MatOp) : Bool :=
  match o.kind with
  | .mma | .mmas | .mzero | .mpre | .mpost => true
  | _ => false

/-- The descriptor of the bank that an operation loads (R296). -/
def bankDesc (o : MatOp) : Bank :=
  { word := o.w, ty := mTy o, k := mK o, g := mG o, sparse := mN o, xvw := o.xvw, wdesc := mWdesc o, moff := mMoff o,
    bytes := [] }

/-- Bytes of a column, of the W data, of its descriptors and of its masks. -/
def colBytes (b : Bank) : Nat := vecBytes b.ty b.k
def dataBytes (b : Bank) : Nat := 64 * colBytes b
def descBytes (b : Bank) : Nat := if b.g then 4 * b.k else 0
def maskBytes (b : Bank) : Nat := if b.sparse = 0 then 0 else denseK b.k b.sparse / 128 * 16

/-- The beats of a load (R298). -/
def beatsOf (o : MatOp) : Nat := max 1 (dataBytes (bankDesc o) / 512)
def loadDone (o : MatOp) : Bool := !loads o || decide (beatsOf o ≤ o.beat)

/-- Whether an operation has nothing left to do but complete. -/
def matOver (o : MatOp) : Bool :=
  loadDone o && (!swaps o || o.swapped) && (!hasRows o || o.failed || decide (mRows o ≤ o.row))

/-- Whether Quill may be interrupted in an operation (R294), or the operation has not begun. -/
def atPoint (o : MatOp) : Bool :=
  (o.beat == 0 && o.loading.isNone && o.row == 0 && !o.swapped) || (loadDone o && (o.row % 16 == 0 || matOver o))

/-! ### Banks in program order (R296, R299). -/

/-- Front, back and the index of the front after what is left of an operation. -/
def bankStep (p : Option Bank × Option Bank × BitVec 1) (o : MatOp) : Option Bank × Option Bank × BitVec 1 :=
  let q := if loads o && !loadDone o then (p.1, some (bankDesc o), p.2.2) else p
  if swaps o && !o.swapped then (q.2.1, q.1, q.2.2 + 1) else q

/-- The banks as the wave's next operation will find them. -/
def banksAhead (d : Dev) (w : Nat) : Option Bank × Option Bank × BitVec 1 :=
  let x := waveOf d w
  (d.matops.filter (fun o => o.wave == w && !o.done)).foldl bankStep (x.front, x.back, x.bank)

/-! ### Reading and writing the stores as an engine (R42, R55, R68). -/

/-- The pages of a range must be resident (R42). -/
def needPages (t : Nat) (st : StoreId) (off n : Nat) : Perf Unit := do
  let d ← devP
  (List.range ((off + n - 1) / 4096 + 1 - off / 4096)).forM (fun j =>
    match findPage (setOf d t) st (off / 4096 + j) with
    | some pi => pageReady t pi
    | none => pure ())

/-- Bytes of a store of a set, each with its granule's poison; pages must be resident. -/
def readCells (t : Nat) (st : StoreId) (off n : Nat) : Perf (List (Byte × Bool)) := do
  needPages t st off n
  let d ← devP
  pure ((List.range n).map (fun i =>
    let q := (off + i) % 4096
    match findPage (setOf d t) st ((off + i) / 4096) with
    | some pi => let p := pageOf d t pi; (look 0 p.data q, p.poison.getLsbD (granOf q))
    | none => (0, false)))

/-- The first poisoned granule that a read met, as a window address. -/
def firstBad (st : StoreId) (off : Nat) (cells : List (Byte × Bool)) : Option Nat :=
  (cells.findIdx? (·.2)).map (fun i => storeNo st * 2 ^ 19 + (off + i) / 16 * 16)

def bytesOf (cells : List (Byte × Bool)) : List Byte := cells.map (·.1)
def badIn (cells : List (Byte × Bool)) : Bool := cells.any (·.2)

/-- Whether every granule of a range is full (R302). -/
def rangeFull (d : Dev) (t : Nat) (st : StoreId) (off n : Nat) : Bool :=
  (List.range ((off + n - 1) / 16 + 1 - off / 16)).all (fun j =>
    let g := off / 16 + j
    match findPage (setOf d t) st (g / 256) with
    | some pi => (pageOf d t pi).full.getLsbD (g % 256)
    | none => true)

/-- Set every granule of a range empty (R155); its pages are resident. -/
def rangeEmpty (d : Dev) (t : Nat) (st : StoreId) (off n : Nat) : Dev :=
  (List.range ((off + n - 1) / 16 + 1 - off / 16)).foldl (fun d j =>
    let g := off / 16 + j
    match findPage (setOf d t) st (g / 256) with
    | some pi => modPage d t pi (fun p => { p with full := p.full &&& ~~~(bit256 (g % 256)), dirty := true })
    | none => d) d

/-- Cut cells into pieces that stay within granules. -/
def pieces : Nat → Nat → List (Byte × Bool) → List (Nat × List (Byte × Bool))
  | 0, _, _ => []
  | n + 1, off, cells =>
    if cells.isEmpty then []
    else
      let k := 16 - off % 16
      (off, cells.take k) :: pieces n (off + k) (cells.drop k)

/-- The effects of a matrix operation wait for its publication (R163). -/
def matHeld (d : Dev) (o : MatOp) : Bool := (waveOf d o.wave).fo && (waveOf d o.wave).live

/-- Write output to the C-store (R45, R68, R151), each granule once: it becomes full, or will at the publication; a granule
computed from poisoned data is written poisoned. -/
def writeRow (d : Dev) (o : MatOp) (off : Nat) (cells : List (Byte × Bool)) : Dev × MatOp :=
  let t := (waveOf d o.wave).set
  (pieces 300 off cells).foldl (fun (q : Dev × MatOp) p =>
    match findPage (setOf q.1 t) .c (p.1 / 4096) with
    | none => q
    | some pi =>
      let g := p.1 % 4096 / 16
      let d1 := changePage q.1 t pi (p.1 % 4096) p.2.length (fun z =>
        let y := pagePut z (p.1 % 4096) (bytesOf p.2)
        if badIn p.2 then { y with poison := y.poison ||| bit256 g } else y)
      if matHeld d1 q.2 then (d1, { q.2 with fullBits := q.2.fullBits ++ [(t, pi, g)] })
      else (setFull d1 t pi g 0, q.2)) (d, o)

/-! ### Group descriptors (R84, R290). -/

/-- The descriptors in a run of bytes, in order. -/
def descsIn : List Byte → List (BitVec 16)
  | a :: b :: r => BitVec.ofNat 16 (leNat [a, b]) :: descsIn r
  | _ => []

/-- Whether a descriptor fits a container. -/
def descFits (t : Ty) (x : BitVec 16) : Bool :=
  descOk x && fmtBits (bits x 3 0) ≤ tyBits t && (!i64Tile t || fmtInt (bits x 3 0))

/-- The first descriptor that fails R84: `ints` is the kind that the operation's groups must have, none when the first
descriptor decides. Addresses stand beside the descriptors. -/
def firstBadDesc (t : Ty) : Option Bool → List (Nat × BitVec 16) → Option Nat
  | _, [] => none
  | kind, (a, x) :: r =>
    let k := fmtInt (bits x 3 0)
    if !descFits t x || kind.any (· ≠ k) then some a else firstBadDesc t (some k) r

/-- Bytes of a bank from a W-store offset. -/
def bankBytes (b : Bank) (off n : Nat) : List Byte := (List.range n).map (fun i => look 0 b.bytes (off + i))

/-- The descriptors of a bank with their addresses. -/
def bankDescs (b : Bank) : List (Nat × BitVec 16) :=
  (descsIn (bankBytes b b.wdesc (descBytes b))).zipIdx.map (fun p => (2 * 2 ^ 19 + b.wdesc + 2 * p.2, p.1))

/-- The masks of a sparse bank (R303). -/
def bankMasks (b : Bank) : List Nat :=
  (List.range (maskBytes b / 16)).map (fun i => leNat (bankBytes b (b.moff + 16 * i) 16))

/-- The number of set bits of a mask. -/
def popMask (x : Nat) : Nat := (List.range 128).countP (fun i => x.testBit i)

/-- What fails in a bank as its load read it (R84, R290, R303); `kind` is that of the groups it streams with. -/
def bankBad (kind : Option Bool) (b : Bank) : Option Nat :=
  (firstBadDesc b.ty kind (bankDescs b)).or
    (((bankMasks b).findIdx? (fun x => popMask x ≠ b.sparse)).map (fun i => 2 * 2 ^ 19 + b.moff + 16 * i))

/-! ### The reference loops (R89 to R93). -/

/-- The chunk that the formats of an A group and a W group give (R89). -/
def chunkOf (fa fw : Nat) : Nat :=
  let is := fun (l : List Nat) => l.contains fa || l.contains fw
  if is [0, 1, 9] then 1 else if is [2, 3] then 2 else if fmtInt fa && fmtInt fw then 32 else 4

/-- An integer element (R91). -/
def intElem : Fp → Int
  | .fin s m _ => if s then -m else m
  | _ => 0

/-- A vector of elements with the format of each group of 32, and whether an i4x group holds a stray marker. -/
structure Vec where
  elems : List Fp
  fmts : List Nat
  stray : Bool
  deriving DecidableEq, Repr

/-- Decode a vector of groups from its bytes (R83). -/
def decodeVec (t : Ty) (extra : Fp) (descs : List Desc) (bs : List Byte) : Vec :=
  let n := vecBytes t 32
  let gs := descs.zipIdx.map (fun p => groupElems p.1 extra ((bs.drop (n * p.2)).take n))
  { elems := gs.flatMap (·.1), fmts := descs.map (·.fmtc), stray := gs.any (·.2) }

/-- The descriptors of an operand that carries none (R290). -/
def plainDescs (t : Ty) (n : Nat) : List Desc := List.replicate n ⟨tyFmt t, 0x7F⟩

/-- Round an accumulator plus a sum to binary32 (R90): the code and INV or OVF. -/
def accRound (acc : Nat) (s : Fp) : Nat × BitVec 9 :=
  let r := fpAdd .rne (decodeF (fmt .f32) .nan acc) s
  let e := encodeF (fmt .f32) .rne 0 true r.1 false
  (e.code, (e.flags &&& fOVF) ||| (if r.2 then fINV else 0))

/-- The sum of a chunk's products (R90): integers are added as integers (R89). Products are added in order, so that INV of
two infinities is set where they meet before a NaN does (DESIGN CHOICE, log 63). -/
def chunkSum (ints : Bool) (ps : List (Fp × Fp)) : Fp × BitVec 9 :=
  if ints then (ofInt ((ps.map (fun p => intElem p.1 * intElem p.2)).sum), 0)
  else
    match ps.map (fun p => fpMul p.1 p.2) with
    | [] => (fzero false, 0)
    | q :: r => r.foldl (fun (a : Fp × BitVec 9) p =>
        let t := fpAdd .rne a.1 p.1
        (t.1, a.2 ||| (if p.2 || t.2 then fINV else 0))) (q.1, if q.2 then fINV else 0)

/-- The loop of R90 from dense position `k`: `pos` holds the dense positions that are present, ascending, and `i` how many
of them lie below `k`. A chunk ends at the next multiple of its size. -/
def fpLoop (kd : Nat) (a w : Vec) (pos : List Nat) : Nat → Nat → Nat → Nat × BitVec 9 → Nat × BitVec 9
  | 0, _, _, acc => acc
  | fuel + 1, k, i, acc =>
    if kd ≤ k then acc
    else
      let fa := nth a.fmts (k / 32) 0
      let fw := nth w.fmts (min i (w.elems.length - 1) / 32) 0
      let c := chunkOf fa fw
      let stop := min kd (k / c * c + c)
      let here := (pos.drop i).takeWhile (fun p => decide (p < stop))
      let ps := here.zipIdx.map (fun p => (nth a.elems p.1 .nan, nth w.elems (i + p.2) .nan))
      let acc1 := if here.isEmpty then acc
        else
          let s := chunkSum (c == 32) ps
          let r := accRound acc.1 s.1
          (r.1, acc.2 ||| s.2 ||| r.2)
      fpLoop kd a w pos fuel stop (i + here.length) acc1

/-- The sum of R91. -/
def intLoop (a w : Vec) (pos : List Nat) (acc : W64) : W64 :=
  BitVec.ofInt 64 (acc.toInt + ((pos.zipIdx.map (fun p => intElem (nth a.elems p.1 (fzero false)) *
    intElem (nth w.elems p.2 (fzero false)))).sum))

/-! ### Loads (R294, R296 to R298, R302). -/

/-- Put a read of a bank's region into it. -/
def intoBank (b : Bank) (off : Nat) (cells : List (Byte × Bool)) : Bank :=
  { b with
    bytes := cells.zipIdx.foldl (fun t c => put 0 t (off + c.2) c.1.1) b.bytes,
    poison := b.poison ++ (cells.zipIdx.filter (fun c => c.1.2)).map (fun c => (off + c.2) / 16 * 16) |>.eraseDups }

/-- Read part of a bank's region into it, with the first poisoned granule met. -/
def readPart (t off n : Nat) (q : Bank × Option Nat) : Perf (Bank × Option Nat) :=
  if n = 0 then pure q
  else do
    let cells ← readCells t .w off n
    pure (intoBank q.1 off cells, q.2.or (firstBad .w off cells))

/-- The descriptors and masks of a bank, read with the last beat. -/
def readSides (t : Nat) (q : Bank × Option Nat) : Perf (Bank × Option Nat) := do
  readPart t q.1.moff (maskBytes q.1) (← readPart t q.1.wdesc (descBytes q.1) q)

/-- Read the whole region of a bank again (R294, R297). -/
def reload (t : Nat) (b : Bank) : Perf (Bank × Option Nat) := do
  readSides t (← readPart t (offOf b.word) (dataBytes b) ({ b with bytes := [], poison := [], stale := false }, none))

/-- An asynchronous trap of an operation's wave (R68, R197, R290); PERM is one of a rule, with SUB 1 (R199). -/
def matTrap (m : Memory) (d : Dev) (o : MatOp) (cause : BitVec 8) (addr : Nat) : Dev :=
  (postAsync m d o.wave o.lane { cause := cause, sub := if cause = cPERM then 1 else 0, addr := w64 addr }).1

/-- POISON for an operation that has met a poisoned granule, once (R68). -/
def notePoison (m : Memory) (d : Dev) (i : Nat) (bad : Option Nat) : Dev :=
  match matAt d i, bad with
  | some o, some a => if o.poisoned then d else matTrap m (setMat d i { o with poisoned := true }) o cPOISON a
  | _, _ => d

/-- An operation fails with an asynchronous trap: its rows not yet done are not computed. FORMAT for a descriptor or a mask
(R84, R290); PERM for a write to a replica (R126; DEDUCED, log 66). -/
def failMat (m : Memory) (d : Dev) (i : Nat) (cause : BitVec 8) (addr : Nat) : Dev :=
  match matAt d i with
  | some o => matTrap m (setMat d i { o with failed := true, checked := true }) o cause addr
  | none => d

/-- The next operation of each wave that runs on a core, in order of arrival (R206, R293). -/
def quillHeads (d : Dev) (core : Nat) : List (Nat × MatOp) :=
  d.matops.zipIdx.foldl (fun hs p =>
    if !p.1.done && setResident d (waveOf d p.1.wave).set && pcore d (vcoreOf d (waveOf d p.1.wave)) == core &&
      !hs.any (fun h => h.2.wave == p.1.wave) then hs ++ [(p.2, p.1)] else hs) []

/-- The operation that Quill is in, between two points at which it may be interrupted (R294). -/
def midMat (d : Dev) (core : Nat) : Option (Nat × MatOp) := (quillHeads d core).find? (fun h => !atPoint h.2)

/-- Whether an operation has begun. -/
def begun (o : MatOp) : Bool := decide (0 < o.beat + o.row) || o.swapped

/-- The operation of a cluster that came out of a checkpoint and is due first (R206): the one that had begun, then the others in the
order in which they were issued. -/
def firstSaved (d : Dev) (hs : List (Nat × MatOp)) (cl : Nat) : Option Nat :=
  let mine := hs.filter (fun h => h.2.saved && clusterIdx d h.2.wave == cl)
  ((mine.find? (fun h => begun h.2)).or mine.head?).map (·.1)

/-- The operations on which Quill may work next: each wave's next, and of the waves that came back with a checkpoint only the one that
is due first (R206, R293). -/
def matChoices (d : Dev) (core : Nat) : List (Nat × MatOp) :=
  let hs := quillHeads d core
  hs.filter (fun h => (firstSaved d hs (clusterIdx d h.2.wave)).all (· == h.1))

/-- The operation on which Quill works next: the one it is in, or else the next of any wave, for operations of different
waves are not ordered (R293; DESIGN CHOICE, log 67). -/
def nextMat (d : Dev) (core : Nat) : Option (Nat × MatOp) :=
  (midMat d core).or
    (let hs := matChoices d core
     hs[Config.freeChoice d.tick / 2 ^ 20 % hs.length]?)

/-- Banks are loaded again (R294). -/
def staleBank (b : Option Bank) : Option Bank := b.map (fun b => { b with stale := true })

/-- The banks of a wave no longer stand in the array of its core. -/
def loseArray (d : Dev) (w : Nat) : Dev :=
  let x := waveOf d w
  setWave d w { x with front := staleBank x.front, back := staleBank x.back }

/-- A wave's operation takes the array of its core, which the core's waves share (R293; DEDUCED, log 67). -/
def takeArray (d : Dev) (core w : Nat) : Dev :=
  let c := coreOf d core
  let d1 := match c.array with
    | some v => if v = w then d else loseArray d v
    | none => d
  setCore d1 core { c with array := some w }

/-- The core of a wave. -/
def coreOfWave (d : Dev) (w : Nat) : Nat := pcore d (vcoreOf d (waveOf d w))

/-- Run an engine access: a page that must be filled first starts to fill, and nothing else happens. -/
def quill {α : Type} (m : Memory) (d : Dev) (x : Perf α) (k : α → Dev → Dev) : Dev :=
  match x m d with
  | .ok (a, d1) => k a d1
  | .error (.page t pi) => startFill m d t pi
  | .error (.trap _) => d

/-- A signal of a ring stage starts on its way (R155, R285). -/
def ringSignal (d : Dev) (o : MatOp) (line : Option Nat) (va : W64) (epoch : BitVec 32) : Dev :=
  match line with
  | none => d
  | some n =>
    let g : EngSignal := ⟨n, va.toNat % 2 ^ 57 / 64 * 64, epoch, o.wave, 0, if matHeld d o then some o.wave else none⟩
    { d with signals := d.signals ++ [g] }

/-- One 512-byte beat of a load (R298); the last fills the back bank, checks it, and ends a ring stage. -/
def loadBeat (m : Memory) (d : Dev) (i : Nat) (o : MatOp) : Dev :=
  let t := (waveOf d o.wave).set
  let b := o.loading.getD (bankDesc o)
  let off := offOf o.w + 512 * o.beat
  let n := min 512 (dataBytes b - 512 * o.beat)
  let last := decide (beatsOf o ≤ o.beat + 1)
  quill m d (do
    if last && mRw o then needPages t .w (offOf o.w) (dataBytes b) else pure ()
    let q ← readPart t off n (b, none)
    if last then readSides t q else pure q) (fun r d0 =>
      if mRw o && !rangeFull d0 t .w off n then d0
      else
        let d1 := takeArray d0 (coreOfWave d0 o.wave) o.wave
        let (b2, bad) := r
        let o1 := { o with beat := o.beat + 1, loading := if last then none else some b2 }
        let d2 := notePoison m (setMat d1 i o1) i bad
        if !last then d2
        else
          let x := waveOf d2 o.wave
          let d3 := setWave d2 o.wave { x with back := some b2 }
          let d4 := if mRw o then
              ringSignal (rangeEmpty d3 t .w (offOf o.w) (dataBytes b2)) o o.lineW o.mringw o.epochW
            else d3
          match bankBad none b2 with
          | some a => failMat m d4 i cFORMAT a
          | none => d4)

/-! ### Rows. -/

/-- The column of a bank: its elements and whether they come from poisoned data. -/
def bankCol (b : Bank) (n : Nat) : Vec × Bool :=
  let cb := colBytes b
  let ng := b.k / 32
  let base := offOf b.word + n * cb
  let descs := if b.g then (descsIn (bankBytes b (b.wdesc + 2 * n * ng) (2 * ng))).map descOf else plainDescs b.ty ng
  let hit := fun (lo len : Nat) => b.poison.any (fun g => decide (g < lo + len) && decide (lo < g + 16))
  (decodeVec b.ty (extraOf b.xvw) descs (bankBytes b base cb),
    hit base cb || (b.g && hit (b.wdesc + 2 * n * ng) (2 * ng)) || (b.sparse ≠ 0 && hit b.moff (maskBytes b)))

/-- The dense positions that are present (R303). -/
def presentPos (b : Bank) : List Nat :=
  if b.sparse = 0 then List.range b.k
  else (bankMasks b).zipIdx.flatMap (fun p =>
    ((List.range 128).filter (fun j => p.1.testBit j)).map (fun j => 128 * p.2 + j))

/-- The A row of a product (R289, R290, R301): its elements, poison, first poisoned granule, and converter flags. -/
structure ARow where
  vec : Vec
  bad : Bool
  first : Option Nat
  flags : BitVec 9
  ready : Bool
  deriving DecidableEq, Repr

/-- A converted element of `.ca` (R301). -/
def caElem (t : Ty) (code : Nat) : Fp × BitVec 9 :=
  let e := encodeF (fmt t) .rne 0 false (decodeF (fmt .f32) .nan code) false
  (decodeF (fmt t) .nan e.code, e.flags)

/-- The pieces of a C-store source row under `.ca`, as offset and length (R301). -/
def caPieces (o : MatOp) (r : Nat) : List (Nat × Nat) :=
  (List.range ((mKd o + 63) / 64)).map (fun j =>
    (offOf o.a + (j * mRows o + r) * mCstr o, 4 * min 64 (mKd o - 64 * j)))

/-- The data extent of the A operand (R302). -/
def aPieces (o : MatOp) (r : Nat) : StoreId × List (Nat × Nat) :=
  if mCa o then (.c, caPieces o r) else (.a, [(offOf o.a + r * mAstr o, mArow o)])

def readARow (t : Nat) (o : MatOp) (r : Nat) : Perf ARow := do
  let (st, ps) := aPieces o r
  let parts ← ps.mapM (fun p => do pure (p.1, ← readCells t st p.1 p.2))
  let cells := parts.flatMap (·.2)
  let first := parts.findSome? (fun p => firstBad st p.1 p.2)
  let d ← devP
  let ready := !mRa o || ps.all (fun p => rangeFull d t st p.1 p.2)
  let ng := mKd o / 32
  if mCa o then
    let es := (slots 32 (bytesOf cells)).map (caElem (mTy o))
    pure { vec := ⟨es.map (·.1), List.replicate ng (tyFmt (mTy o)), false⟩, bad := badIn cells, first := first,
           flags := es.foldl (fun f e => f ||| e.2) 0, ready := ready }
  else if mG o then
    let at_ := mAdesc o + 2 * r * ng
    let ds ← readCells t .a at_ (2 * ng)
    pure { vec := decodeVec (mTy o) (extraOf o.xva) ((descsIn (bytesOf ds)).map descOf) (bytesOf cells),
           bad := badIn cells || badIn ds, first := first.or (firstBad .a at_ ds), flags := 0, ready := ready }
  else
    pure { vec := decodeVec (mTy o) (extraOf o.xva) (plainDescs (mTy o) ng) (bytesOf cells), bad := badIn cells,
           first := first, flags := 0, ready := ready }

/-- The kind that a product's W groups must have beside its A groups (R84): `own` is that of A's first descriptor. -/
def bankKind (o : MatOp) (b : Bank) (own : Option Bool) : Option Bool :=
  if i64Tile (mTy o) then some true else if mG o && !mCa o && b.g then own else some false

/-- The check of R84 before a product's first write: the kind of the A groups, the first descriptor that fails, and the first
poisoned granule that the read met (R291). -/
def productCheck (t : Nat) (o : MatOp) (b : Bank) : Perf (Option Bool × Option Nat × Option Nat) := do
  let ng := mKd o / 32
  let own := mG o && !mCa o
  let cells ← (if own then readCells t .a (mAdesc o) (2 * ng * mRows o) else pure [])
  let as_ := (descsIn (bytesOf cells)).zipIdx.map (fun p => (2 ^ 19 + mAdesc o + 2 * p.2, p.1))
  let kind := bankKind o b none
  pure ((as_.head?).map (fun p => fmtInt (bits p.2 3 0)),
    (bankBad none b).or (firstBadDesc (mTy o) kind (bankDescs b ++ as_)), firstBad .a (mAdesc o) cells)

/-- One output element of a product: its bytes, each with its poison, and its flags. -/
def productElem (o : MatOp) (b : Bank) (pos : List Nat) (a : ARow) (old : List (Byte × Bool)) (n : Nat) :
    List (Byte × Bool) × BitVec 9 :=
  let c := mC o
  let cell := (old.drop (c * n)).take c
  let (w, badW) := bankCol b n
  let bad := badW || a.bad || badIn cell
  let fl := if w.stray || a.vec.stray then fFORMAT else 0
  if c = 8 then ((leBytes 8 (intLoop a.vec w pos (leWord (bytesOf cell)))).map (fun x => (x, bad)), fl)
  else
    let r := fpLoop (mKd o) a.vec w pos (mKd o) 0 0 ((leWord (bytesOf cell)).toNat, 0)
    ((leBytes 4 (w64 r.1)).map (fun x => (x, bad)), fl ||| r.2)

/-- What a row produces: its offset, its bytes, its flags, the first poisoned granule met; none when a ring stage is not
full yet. -/
structure RowOut where
  off : Nat
  cells : List (Byte × Bool)
  flags : BitVec 9
  first : Option Nat
  deriving DecidableEq, Repr

/-- A row of `mma` or `mmas` (R300, R303). -/
def productRow (t : Nat) (o : MatOp) (b : Bank) (r : Nat) : Perf (Option RowOut) := do
  let a ← readARow t o r
  let off := offOf o.c + r * mCstr o
  let c := mC o
  let old ← (if mZ o then pure (List.replicate (64 * c) (0, false)) else readCells t .c off (64 * c))
  let _ ← readCells t .c off (64 * c)
  if !a.ready then pure none
  else
    let es := (List.range 64).map (productElem o b (presentPos b) a old)
    pure (some { off := off, cells := es.flatMap (·.1), flags := es.foldl (fun f e => f ||| e.2) a.flags,
                 first := a.first.or (firstBad .c off old) })

/-- A row of `mzero` (R305). -/
def zeroRow (t : Nat) (o : MatOp) (r : Nat) : Perf (Option RowOut) := do
  let off := offOf o.c + r * mCstr o
  let _ ← readCells t .c off (64 * mC o)
  pure (some { off := off, cells := List.replicate (64 * mC o) (0, false), flags := 0, first := none })

/-- The code of a preloaded element, exact (R306). -/
def preElem (t : Ty) (x : W64) : List Byte :=
  if isFloatTy t then leBytes 4 (exactCode .f32 (decodeF (fmt t) .nan x.toNat))
  else leBytes 8 (BitVec.ofInt 64 (intOf t x))

/-- Cut a row of cells into elements of `n` bytes. -/
def cellGroups (n k : Nat) (cells : List (Byte × Bool)) : List (List (Byte × Bool)) :=
  (List.range k).map (fun i => (cells.drop (n * i)).take n)

/-- A row of `mpre` (R306). -/
def preRow (t : Nat) (o : MatOp) (r : Nat) : Perf (Option RowOut) := do
  let off := offOf o.c + r * mCstr o
  let s := tyBytes (mTy o)
  let src := offOf o.a + (if bits o.f.acc 0 0 = 1 then r * 64 * s else 0)
  let cells ← readCells t .a src (64 * s)
  let _ ← readCells t .c off (64 * mC o)
  let out := (cellGroups s 64 cells).flatMap (fun e => (preElem (mTy o) (leWord (bytesOf e))).map (fun x => (x, badIn e)))
  pure (some { off := off, cells := out, flags := 0, first := firstBad .a src cells })

/-- An element after `cvt`, `clamp`, `rshr` or `div255` (R308). -/
def postElem (o : MatOp) (x : W64) : LaneRes :=
  let t := mTy o
  let i64 := bits o.f.acc 3 3 == 1
  let nsat := bits o.f.fl 3 3 == 1
  let env : LaneEnv := { l := 0, rnd := o.rnd, rss := 0, xva := .nan, pc := false }
  let half := fun (hi lo : Nat) => w64 (bits o.w hi lo)
  match bits o.f.acc 2 0 with
  | 0 => convert env t (if i64 then .i64 else .f32) nsat x
  | 1 =>
    if i64 then
      let lo := (BitVec.ofNat 32 (bits o.w 31 0)).toInt
      let hi := (BitVec.ofNat 32 (bits o.w 63 32)).toInt
      convert env t .i64 nsat (BitVec.ofInt 64 (min (max x.toInt lo) hi))
    else
      let dec := fun (y : W64) => decodeF (fmt .f32) .nan y.toNat
      convert env t .f32 nsat (exactCode .f32 (fpMin (fpMax (dec x) (dec (half 31 0))) (dec (half 63 32))))
  | 4 =>
    let s := bits o.w 5 0
    let v := x.toInt
    let z := if s = 0 then v else (v + 2 ^ (s - 1)) / 2 ^ s
    let r := intoRange t z nsat
    { val := r.1, flags := r.2, rss := 0 }
  | _ =>
    let z := x.toInt + 128
    let u := (z + z / 256) / 256
    if z < 0 then { val := 0, flags := fSAT, rss := 0 }
    else if 255 < u then { val := 255, flags := fSAT, rss := 0 }
    else { val := BitVec.ofInt 64 u, rss := 0 }

/-- A bit of `cmp` with its flag (R308). -/
def postBit (o : MatOp) (x : W64) : Bool × BitVec 9 :=
  let c := bits o.f.fl 3 0
  if bits o.f.acc 3 3 = 1 then (condHolds (cond c) false (intCmp x.toInt o.w.toInt), 0)
  else
    let dec := fun (y : W64) => decodeF (fmt .f32) .nan y.toNat
    let a := dec x
    let b := dec (w64 (bits o.w 31 0))
    let un := a == .nan || b == .nan
    (condHolds (cond c) un (if un then 0 else fpCmp a b), if un && 2 ≤ c && c ≤ 5 then fINV else 0)

/-- The runs of `cover` (R309): `ends` says at which columns a run ends. -/
def coverMask (bs : List Bool) (ends : Nat → Bool) : Nat :=
  let runOf := fun (n : Nat) => ((List.range n).filter ends).length
  (List.range 64).foldl (fun x n =>
    if (List.range 64).all (fun k => runOf k ≠ runOf n || (nth bs k false)) then x + 2 ^ n else x) 0

/-- Cells at an offset as they stand with an earlier row's output that waits for its granule (R307). -/
def overlay (at_ : Nat) (carry : List (Byte × Bool)) (off : Nat) (cells : List (Byte × Bool)) : List (Byte × Bool) :=
  cells.zipIdx.map (fun c =>
    if at_ ≤ off + c.2 then nth carry (off + c.2 - at_) c.1 else c.1)

/-- A row of `mpost` (R307 to R309). -/
def postRow (t : Nat) (o : MatOp) (r : Nat) : Perf (Option RowOut) := do
  let c := mC o
  let src := offOf o.a + r * mCstr o
  let off := offOf o.c + r * mOutRow o
  let cells := overlay (off - o.carry.length) o.carry src (← readCells t .c src (64 * c))
  let _ ← readCells t .c off (mOutRow o)
  let es := cellGroups c 64 cells
  let val := fun (e : List (Byte × Bool)) => leWord (bytesOf e)
  let op := bits o.f.acc 2 0
  let first := firstBad .c src cells
  if op = 2 then
    let qs := es.map (fun e => postBit o (val e))
    let x := qs.zipIdx.foldl (fun a q => if q.1.1 then a + 2 ^ q.2 else a) 0
    pure (some { off := off, cells := (leBytes 8 (w64 x)).map (fun b => (b, badIn cells)),
                 flags := qs.foldl (fun f q => f ||| q.2) 0, first := first })
  else if op = 3 then
    let x := coverMask (es.map (fun e => decide (0 ≤ (val e).toInt))) (fun n => none8 o.f.w || o.w.getLsbD n)
    pure (some { off := off, cells := (leBytes 8 (w64 x)).map (fun b => (b, badIn cells)), flags := 0, first := first })
  else
    let qs := es.map (fun e => (postElem o (val e), badIn e))
    let fl := qs.foldl (fun f q => f ||| q.1.flags) 0
    let out : List (Byte × Bool) :=
      if tyBits (mTy o) = 4 then
        (List.range 32).map (fun j =>
          let p := nth qs (2 * j) ({ val := 0, rss := 0 }, false)
          let q := nth qs (2 * j + 1) ({ val := 0, rss := 0 }, false)
          (BitVec.ofNat 8 (p.1.val.toNat % 16 + 16 * (q.1.val.toNat % 16)), p.2 || q.2))
      else qs.flatMap (fun q => (leBytes (tyBytes (mTy o)) q.1.val).map (fun b => (b, q.2)))
    pure (some { off := off, cells := out, flags := fl, first := first })

/-- The row that an operation has reached. -/
def rowOut (t : Nat) (o : MatOp) (b : Bank) : Perf (Option RowOut) :=
  match o.kind with
  | .mzero => zeroRow t o o.row
  | .mpre => preRow t o o.row
  | .mpost => postRow t o o.row
  | _ => productRow t o b o.row

/-- Whether an operation multiplies. -/
def isProduct (o : MatOp) : Bool := o.kind == .mma || o.kind == .mmas

/-- The bank that rows stream against. -/
def frontBank (d : Dev) (o : MatOp) : Bank := (waveOf d o.wave).front.getD (bankDesc o)

/-- The last row of an operation. -/
def lastRow (o : MatOp) : Bool := decide (mRows o ≤ o.row + 1)

/-- Whether this row's reads are the last of a ring-buffer stage that A names (R302). -/
def endsStage (o : MatOp) : Bool := lastRow o && isProduct o && mRa o

/-- Every piece of the A operand's data extent (R302). -/
def allPieces (o : MatOp) : List (StoreId × Nat × Nat) :=
  (List.range (mRows o)).flatMap (fun r => (aPieces o r).2.map (fun p => ((aPieces o r).1, p)))

/-- What a row leaves: its output, or with half a granule of masks the wait for the other half (R151); the stage that it
reads last is emptied and signalled (R155). -/
def rowDone (m : Memory) (d : Dev) (i : Nat) (o : MatOp) (q : RowOut) : Dev :=
  let t := (waveOf d o.wave).set
  let cells := o.carry ++ q.cells
  let off := q.off - o.carry.length
  let o1 := { o with row := o.row + 1, flags := o.flags ||| q.flags }
  if inReplica (setOf d t) .c off cells.length then failMat m d i cPERM (3 * 2 ^ 19 + off)
  else if cells.length % 16 ≠ 0 && !lastRow o then notePoison m (setMat d i { o1 with carry := cells }) i q.first
  else
    let (d1, o2) := writeRow d { o1 with carry := [] } off cells
    let d2 := notePoison m (setMat d1 i o2) i q.first
    if endsStage o then
      ringSignal ((allPieces o).foldl (fun d p => rangeEmpty d t p.1 p.2.1 p.2.2) d2) o o.lineA o.mringa o.epochA
    else d2

/-- One row stroke (R293, R300). A bank that must be loaded again is loaded first (R294), and a product's descriptors are
checked before its first write (R84). -/
def strokeRow (m : Memory) (d0 : Dev) (i : Nat) (o : MatOp) : Dev :=
  let d := if isProduct o then takeArray d0 (coreOfWave d0 o.wave) o.wave else d0
  let t := (waveOf d o.wave).set
  let b := frontBank d o
  if isProduct o && b.stale then
    quill m d (reload t b) (fun r d1 =>
      let x := waveOf d1 o.wave
      let d2 := notePoison m (setWave d1 o.wave { x with front := some r.1 }) i r.2
      match bankBad (if o.checked then bankKind o b o.ints else none) r.1 with
      | some a => failMat m d2 i cFORMAT a
      | none => d2)
  else if isProduct o && !o.checked then
    quill m d (productCheck t o b) (fun r d1 =>
      match r.2.1 with
      | some a => failMat m (notePoison m d1 i r.2.2) i cFORMAT a
      | none => notePoison m (setMat d1 i { o with checked := true, ints := r.1 }) i r.2.2)
  else
    quill m d (do
      if endsStage o then (allPieces o).forM (fun p => needPages t p.1 p.2.1 p.2.2) else pure ()
      rowOut t o b) (fun r d1 =>
        match r with
        | none => d1
        | some q => rowDone m d1 i o q)

/-! ### The device steps. -/

def execWeightLoadStroke (core : Nat) (s : State) : Out :=
  runEvent (fun m d =>
    match nextMat d core with
    | some (i, o) => if loadDone o then d else loadBeat m d i o
    | none => d) s

/-- Exchange the banks of a wave (R296). -/
def swapBanks (d : Dev) (w : Nat) : Dev :=
  let x := waveOf d w
  setWave d w { x with front := x.back, back := x.front, bank := x.bank + 1 }

def execSwapStroke (core : Nat) (s : State) : Out :=
  runEvent (fun _ d =>
    match nextMat d core with
    | some (i, o) =>
      if loadDone o && swaps o && !o.swapped then swapBanks (setMat d i { o with swapped := true }) o.wave else d
    | none => d) s

def execRowStroke (core : Nat) (s : State) : Out :=
  runEvent (fun m d =>
    match nextMat d core with
    | some (i, o) => if loadDone o && (!swaps o || o.swapped) && hasRows o && !matOver o then strokeRow m d i o else d
    | none => d) s

/-- Whether the operations for which an `mfence` waits have completed: `served` numbers those issued before it (R312). -/
def fenceOver (d : Dev) (w : Nat) (s : Split) : Bool :=
  (d.matops.take (lane s.servedVals 0).toNat).all (fun o => o.wave ≠ w || o.done)

/-- The splits of a wave whose `mfence` is over issue it again (R312). -/
def wakeFences (d : Dev) (w : Nat) : Dev :=
  (List.range (waveOf d w).splits.length).foldl (fun d i =>
    let s := splitOf (waveOf d w) i
    if s.park = .mfence ∧ fenceOver d w s then unpark d w i else d) d

/-- An operation completes (R88, R163, R313): its flags stand in FSTAT before its effects are observed. -/
def execMatrixOpComplete (core : Nat) (s : State) : Out :=
  runEvent (fun m d =>
    match nextMat d core with
    | some (i, o) =>
      if !matOver o then d
      else
        let held := matHeld d o
        let o1 := { o with done := true, published := !held }
        let d1 := orFlags (setMat d i o1) o.wave o.flags
        let d2 := wakeFences (if held then d1 else matEffects m d1 o1 0) o.wave
        settleCluster m d2 (clusterIdx d2 o.wave)
    | none => d) s

end Sys2Proof.Machine
end

