-- ==== Sys2Proof/Machine/Matrix.lean ====
section
/-!
DEFINITION. The instructions of the matrix engine: major 0x30 (spec/16_isa_matrix.md R287 to R314).
-/
namespace Sys2Proof.Machine

def execMcfg (h : Head) (f : FmtS) (s : State) : Out :=
  runA (.mcfg h f) h (do
    let m ← acting h false
    let v ← sReg m f.a
    let set := fun (x : Wave) => match f.code.toNat with
      | 0 => { x with mgeo := v } | 1 => { x with mdesc := v } | 2 => { x with mringa := v } | 3 => { x with mringw := v }
      | _ => { x with msparse := v }
    if m = 0 then pure () else upd (fun d => setMe d (set (me d)))
    pure .retire) s

/-! ### The checks at issue (R291). -/

/-- An operand: its word, the store it must name and its extent in bytes; a side area: its offset. -/
structure Extent where
  word : W64
  st : StoreId
  size : Nat
  deriving DecidableEq, Repr

/-- SPACE, ALIGN and BOUNDS (R287, R291). -/
def checkExtents (x : StageSet) (ops sides : List Extent) : Act Unit := do
  ops.forM (fun e => need (storeOf (bits e.word 20 19) == e.st) { cause := cSPACE, sub := BitVec.ofNat 8 (bits e.word 20 19) })
  ops.forM (fun e => need (bits e.word 3 0 == 0) { cause := cALIGN, addr := e.word })
  let named := fun (e : Extent) => e.word + w64 (storeNo e.st * 2 ^ 19)
  sides.forM (fun e => need (bits e.word 3 0 == 0) { cause := cALIGN, addr := named e })
  ops.forM (fun e => need (bits e.word 63 21 == 0 && decide (offOf e.word + e.size ≤ 4096 * allocPages x e.st))
    { cause := cBOUNDS, addr := e.word })
  sides.forM (fun e => need (decide (e.word.toNat + e.size ≤ 4096 * allocPages x e.st)) { cause := cBOUNDS, addr := named e })

/-- The operands of an operation (R289, R298, R300, R301, R305 to R307). -/
def opExtents (o : MatOp) : List Extent :=
  let tile : Extent := ⟨o.c, .c, (mRows o - 1) * mCstr o + 64 * mC o⟩
  let wop : List Extent := if loads o then [⟨o.w, .w, dataBytes (bankDesc o)⟩] else []
  match o.kind with
  | .mwld => wop
  | .mma | .mmas =>
    let a : Extent :=
      if mCa o then
        ⟨o.a, .c, ((mKd o + 63) / 64 * mRows o - 1) * mCstr o + 4 * ((mKd o - 1) % 64 + 1)⟩
      else ⟨o.a, .a, (mRows o - 1) * mAstr o + mArow o⟩
    tile :: a :: wop
  | .mzero => [tile]
  | .mpre => [tile, ⟨o.a, .a, (if bits o.f.acc 0 0 = 1 then mRows o else 1) * 64 * tyBytes (mTy o)⟩]
  | .mpost => [⟨o.c, .c, mRows o * mOutRow o⟩, ⟨o.a, .c, (mRows o - 1) * mCstr o + 64 * mC o⟩]
  | _ => []

/-- The side areas and mask areas that an operation reads (R290, R303). -/
def sideExtents (o : MatOp) : List Extent :=
  let b := bankDesc o
  (if isProduct o && mG o && !mCa o then [⟨w64 (mAdesc o), .a, mRows o * (mKd o / 32) * 2⟩] else []) ++
    (if loads o && mG o then [⟨w64 (mWdesc o), .w, descBytes b⟩] else []) ++
    (if loads o && b.sparse ≠ 0 then [⟨w64 (mMoff o), .w, maskBytes b⟩] else [])

/-- The configuration values that an operation forbids (R289, R299, R303, R307). -/
def configOk (d : Dev) (w : Nat) (o : MatOp) : Bool :=
  let usesK := loads o || isProduct o
  let ast := bits o.mgeo 19 4
  let cst := bits o.mgeo 35 20
  (!usesK || (decide (mK o ≤ kMax (mTy o)) && decide (mN o = 0 ∨ mK o % mN o = 0))) &&
  (!(isProduct o && !mCa o) || ast == 0 || decide (mArow o ≤ 16 * ast)) &&
  (!hasRows o || cst == 0 || decide (64 * mC o ≤ 16 * cst)) &&
  (!(isProduct o && none8 o.f.w) ||
    (match (banksAhead d w).1 with
      | some b => b.ty == mTy o && b.k == mK o && b.sparse == mN o
      | none => false)) &&
  !(o.kind == .mpost && bits o.f.acc 2 0 ≤ 1 && o.rnd == .rss)

/-- The phaser of a ring stage, sampled at issue (R285, R292, R302): its line and EPOCH. -/
def ringPhaser (used : Bool) (word : W64) : Act (Option Nat × BitVec 32) := do
  let va := bits word 56 6 * 64
  if !used || va = 0 then pure (none, 0)
  else
    let n ← phaserLine .readWrite va
    let e ← act (fun m d => (epochOf m d n, d))
    pure (some n, e)

/-- Operations of a core's Quill that have not completed (R293). -/
def quillCount (d : Dev) (core : Nat) : Nat :=
  (d.matops.filter (fun o =>
    !o.done && setResident d (waveOf d o.wave).set && pcore d (vcoreOf d (waveOf d o.wave)) == core)).length

/-- The active lanes and the s registers that the operands of format T name, taken in field order; 0 for one that names
none. -/
def takeT (h : Head) (f : FmtT) : Act (W32 × W64 × W64 × W64) := do
  let m ← acting h false
  let reg := fun (code : BitVec 8) => (if regS code then sReg m code else pure 0 : Act W64)
  let c ← reg f.c
  let a ← reg f.a
  let w ← reg f.w
  pure (m, c, a, w)

/-- What an operation samples when it issues (R291, R292): the configuration, the extra values, the rounding mode, its
place in program order. -/
def sampleMat (d : Dev) (kind : MatKind) (f : FmtT) (c a w : W64) : MatOp :=
  let x := me d
  { wave := d.cur.1, lane := 0, kind := kind, f := f, c := c, a := a, w := w, xva := x.xva, xvw := x.xvw, mgeo := x.mgeo,
    mdesc := x.mdesc, mringa := x.mringa, mringw := x.mringw, msparse := x.msparse, epochA := 0, epochW := 0,
    lineA := none, lineW := none, rnd := rnd (bits f.fl 2 0) x.rnd, cnt := none, key := keyOf x d.cur.2 }

/-- The checks of an operation's operands, its counter and its phasers (R285, R291, R313). -/
def checkMat (o : MatOp) (cnt : Option W64) : Act (Option Nat × (Option Nat × BitVec 32) × (Option Nat × BitVec 32)) := do
  let d ← dev
  checkExtents (mySet d) (opExtents o) (sideExtents o)
  let k ← (match cnt with
    | none => pure none
    | some va => do pure (some (← engineCounter va.toNat)))
  let ra ← ringPhaser (isProduct o && mRa o) o.mringa
  let rw ← ringPhaser (loads o && mRw o) o.mringw
  pure (k, ra, rw)

/-- Issue a matrix operation (R291, R293): its samples, its checks, its place in the queue; with the queue full the access
stream stalls. -/
def issueMat (i : Instr) (h : Head) (f : FmtT) (kind : MatKind) (cnt : Option W64) : Act Verdict := do
  let q ← takeT h f
  let d ← dev
  let o := sampleMat d kind f q.2.1 q.2.2.1 q.2.2.2
  need (configOk d d.cur.1 o) (illop i)
  if q.1 = 0 then pure .retire
  else
    let r ← checkMat o cnt
    let e ← dev
    if 16 ≤ quillCount e (pcore e (vcoreOf e (me e))) then pure .stay
    else
      upd (fun d => { d with matops := d.matops ++
        [{ o with lane := q.1, cnt := r.1, lineA := r.2.1.1, epochA := r.2.1.2, lineW := r.2.2.1, epochW := r.2.2.2 }] })
      pure .retire

/-- The format T fields of an operation that format S names. -/
def bareT : FmtT := { c := 0xC8, a := 0xC8, w := 0xC8, m1 := 0, ty := 4, acc := 0, fl := 0 }

def execMwld (h : Head) (f : FmtT) (s : State) : Out := runA (.mwld h f) h (issueMat (.mwld h f) h f .mwld none) s
def execMswap (h : Head) (f : FmtS) (s : State) : Out :=
  runA (.mswap h f) h (issueMat (.mswap h f) h bareT .mswap none) s
def execMma (h : Head) (f : FmtT) (s : State) : Out := runA (.mma h f) h (issueMat (.mma h f) h f .mma none) s
def execMmas (h : Head) (f : FmtT) (s : State) : Out := runA (.mmas h f) h (issueMat (.mmas h f) h f .mmas none) s
def execMzero (h : Head) (f : FmtT) (s : State) : Out := runA (.mzero h f) h (issueMat (.mzero h f) h f .mzero none) s
def execMpre (h : Head) (f : FmtT) (s : State) : Out := runA (.mpre h f) h (issueMat (.mpre h f) h f .mpre none) s
def execMpost (h : Head) (f : FmtT) (s : State) : Out := runA (.mpost h f) h (issueMat (.mpost h f) h f .mpost none) s
def execMdrain (h : Head) (f : FmtS) (s : State) : Out :=
  runA (.mdrain h f) h (do
    let m ← acting h false
    let va ← sReg m f.a
    issueMat (.mdrain h f) h bareT .mdrain (some va)) s

/-- `mfence` (R312): the split parks until the operations that its wave has issued before it, which its first issue numbers,
have completed. -/
def execMfence (h : Head) (f : FmtS) (s : State) : Out :=
  runA (.mfence h f) h (do
    let m ← acting h false
    let d ← dev
    let s := mySplit d
    let s1 := if s.served = 0 then { s with servedVals := put 0 [] 0 (w64 d.matops.length) } else s
    if m = 0 || fenceOver d d.cur.1 s1 then pure .retire
    else do
      upd (fun d => setMySplit d { s1 with served := m })
      park .mfence) s

/-- MSTAT (R226, R314). -/
def mstatLow (d : Dev) (w : Nat) : W64 :=
  let busy := d.matops.any (fun o => o.wave == w && !o.done) && !(waveOf d w).fo
  bitAt busy 2 ||| ((banksAhead d w).2.2.setWidth 64 <<< 1) ||| bitAt d.regs.palarm 0

/-- The word of `mstat` (R314). -/
def mstatWord (d : Dev) (w : Nat) : W64 :=
  let x := waveOf d w
  if x.fo then (16#64 <<< 32) ||| mstatLow d w
  else
    let mine := d.matops.filter (fun o => o.wave == w && !o.done)
    let rows := (mine.head?).elim 0 (·.row)
    (w64 (16 - quillCount d (pcore d (vcoreOf d x))) <<< 32) ||| (w64 rows <<< 16) ||| (w64 (mine.length % 256) <<< 8) |||
      mstatLow d w

def execMstat (h : Head) (f : FmtS) (s : State) : Out :=
  runA (.mstat h f) h (do
    let m ← acting h false
    let d ← dev
    putA 0 m f.d (fun _ => mstatWord d d.cur.1)
    pure .retire) s

end Sys2Proof.Machine
end

