-- ==== Sys2Proof/Machine/Tasks.lean ====
section
/-!
DEFINITION. Tasks: major 0x3A (spec/17_isa_copy_task_system.md R332 to R338, spec/10_execution_model.md R176, R177).
-/
namespace Sys2Proof.Machine

/-! ### Footprints (R185). -/

/-- Whether the pages of a footprint fit an empty core, at the carve in force. -/
def fitsEmpty (d : Dev) (f : Footprint) (core : Nat) : Bool :=
  decide (f.w ≤ framesOf d core .w) && decide (f.a ≤ framesOf d core .a) && decide (f.c ≤ framesOf d core .c) &&
    decide (f.s ≤ framesOf d core .s)

/-- The logical cores of a logical cluster, or all of them. -/
def coresOf (lcl : Option Nat) : List Nat :=
  match lcl with
  | some c => (List.range 8).map (fun j => 8 * c + j)
  | none => List.range 192

/-- The logical cluster that a code names (R175, R182). -/
def affOf (n : Nat) : Option Nat := if n < 24 then some n else none

/-- Pages of each store and VBLK from a word whose low 32 bits hold the pages. -/
def footOf (pages vblk : Nat) : Footprint :=
  { s := pages % 256, c := pages / 256 % 256, a := pages / 65536 % 256, w := pages / 16777216 % 256, vblk := vblk }

/-- The page counts of R175. -/
def pagesOk (f : Footprint) : Bool := f.w ≤ 128 && f.a ≤ 128 && f.c ≤ 128 && f.s ≤ 64

/-- Whether a task word is good (R332). -/
def taskOk (d : Dev) (w : W64) : Bool :=
  let f := footOf (bits w 31 0) (bits w 34 32)
  let aff := bits w 39 35
  bits w 63 46 == 0 && bits w 45 42 ≤ 11 && !(24 ≤ aff && aff ≤ 30) && pagesOk f &&
    (coresOf (affOf aff)).any (fun v => fitsEmpty d f (pcore d v))

/-- A continuation record's bits (R175) from a task word. -/
def recBits (code frame hint word : W64) (depth joff : Nat) : BitVec 512 :=
  BitVec.ofNat 512 (code.toNat + frame.toNat * 2 ^ 64 + hint.toNat * 2 ^ 128 + bits word 34 32 * 2 ^ 221 +
    bits word 31 0 * 2 ^ 224 + depth * 2 ^ 289 + bits word 39 35 * 2 ^ 293 + bits word 41 40 * 2 ^ 298 +
    bits word 45 42 * 2 ^ 300 + joff * 2 ^ 304)

/-- The most entries of a comb queue (R188). -/
def queueCap : Nat := 65536

/-- A spawn's addition to its frame's counter, and the push of its record (R177, R333). -/
def spawnEffect (m : Memory) (d : Dev) (k : Option Nat) (r : BitVec 512) : Dev :=
  let e := match k with
    | none => d
    | some k =>
      let d1 := recallLine d (lineNo k)
      homeWrite m d1 (whoMe d) k (leBytes 8 (rd64 m d1 k + 1))
  pushCont e e.cur.1 r (me e).vstamp ((mySplit e).clock + 1)

/-- The counter of the wave's continuation frame, which a spawn adds to (R333). -/
def spawnCounter (x : Wave) : Act (Option Nat) := do
  if x.cframe = 0 then pure none else pure (some (← engineCounter (x.cframe.toNat + x.cjoff)))

def execSpawn (h : Head) (f : FmtX) (s : State) : Out :=
  runA (.spawn h f) h (do
    let d ← dev
    let all := (mySplit d).mask
    let x := me d
    need (decide (x.depth < 8)) { cause := cSPAWNDEPTH }
    let code ← sReg all f.a
    let word ← sReg all f.b
    let hint ← (if none8 f.c then pure 0 else sReg all f.c)
    need (taskOk d word) (illop (.spawn h f))
    need (decide (code.toNat < 2 ^ 57)) { cause := cBADADDR, addr := code }
    need (decide (code.toNat % 64 = 0)) { cause := cALIGN, addr := code }
    let r := recBits code x.cframe hint word (x.depth + 1) x.cjoff
    let k ← spawnCounter x
    ordering (releasing .dev (do
      let d ← dev
      if queueCap ≤ (nth d.queues (contQueue d d.cur.1 r) []).length then park .queueFull
      else do
        actU (fun m d => spawnEffect m d k r)
        pure .retire))) s

/-- The stores of `frame`: the record's words, then its counter (R334). -/
def frameStores (ps : List Place) (r : List Byte) : Perf Unit :=
  ps.zipIdx.forM (fun p => writePlace p.1 .n64 (((r ++ leBytes 8 1).drop (8 * p.2)).take 8))

/-- `frame` (R334): a continuation record, and the counter at 1, as ordinary stores in program order. -/
def execFrame (h : Head) (f : FmtX) (s : State) : Out :=
  runA (.frame h f) h (do
    let d ← dev
    let all := (mySplit d).mask
    let x := me d
    let fr ← sReg all f.a
    let code ← sReg all f.b
    let word ← sReg all f.c
    let joff := 8 * (f.ty.toNat * 256 + f.md.toNat)
    need (decide (fr.toNat % 64 = 0)) { cause := cALIGN, addr := fr }
    need (decide (64 ≤ joff) && taskOk d word) (illop (.frame h f))
    let ps ← ((List.range 8).map (8 * ·) ++ [joff]).mapM (fun o =>
      checkPlace .g { acc := .write, size := 8, writes := true, posted := true } (fr.toNat + o))
    let r := natBytes 64 (recBits code x.cframe fr word x.depth x.cjoff).toNat
    match ← perform (frameStores ps r) with
    | none => pure .stay
    | some _ => do
      upd (fun d => setMe d { me d with cframe := fr, cjoff := joff })
      pure .retire) s

def execJoin (h : Head) (f : FmtX) (s : State) : Out :=
  runJ (.join h f) h (endBody (fun x => some (x.cframe, x.cjoff))) s
def execDone (h : Head) (f : FmtX) (s : State) : Out :=
  runJ (.done h f) h (endBody (fun x => some (x.rframe, x.rjoff))) s

def execDclk (h : Head) (f : FmtX) (s : State) : Out :=
  runA (.dclk h f) h (do
    let d ← dev
    let all := (mySplit d).mask
    let src ← takeSrc .n64 all f.a
    let t := (valA (me d) (mySplit d) src ((lanesOf all).headD 0)).toNat
    retireWord h.stl.toNat true false
    upd (fun d => moveClock d d.cur.1 d.cur.2 (max (mySplit d).clock t))
    pure .moved) s

/-- Whether a waiting trap comes from an engine operation: every asynchronous trap does but that of a lock's timer (R197). -/
def fromEngine (t : Trap) : Bool := t.cause ≠ cLOCKHOLD

/-- `dsync` (R337): the split waits for the engine operations that its wave has issued before it, which `served` counts
from its first issue on, for their traps, and for the acknowledgement of its posted writes. -/
def execDsync (h : Head) (f : FmtX) (s : State) : Out :=
  runJ (.dsync h f) h (do
    let d ← dev
    let sp := mySplit d
    let w := d.cur.1
    let n := if sp.served = 0 then d.copies.length else (lane sp.servedVals 0).toNat
    let k := if sp.served = 0 then d.matops.length else (lane sp.servedVals 1).toNat
    if (d.copies.take n).all (fun c => c.wave ≠ w || c.done) && (d.matops.take k).all (fun o => o.wave ≠ w || o.done) &&
        !postsOpen d && !(me d).atraps.any (fun t => fromEngine t.trap) then pure .retire
    else do
      upd (fun d => setMySplit d { mySplit d with
        served := 1, servedVals := put 0 (put 0 [] 0 (w64 n)) 1 (w64 k) })
      pure .stay) s

/-- The word of `stage` (R338). -/
def stageWord (d : Dev) : W64 :=
  let x := mySet d
  let ws := x.waves.filter (fun w => (me d).fo || (waveOf d w).live)
  ws.foldl (fun (a : W64) w =>
    a ||| bitAt true ((waveOf d w).stage % 4) ||| bitAt true (4 + (waveOf d w).widx % 16)) 0

def execStage (h : Head) (f : FmtX) (s : State) : Out :=
  runA (.stage h f) h (do
    let d ← dev
    loadDst .n64 (mySplit d).mask f.d (fun _ => stageWord d)
    pure .retire) s

end Sys2Proof.Machine
end

