-- ==== Sys2Proof/Machine/System.lean ====
section
/-!
DEFINITION. System: majors 0x00 and 0x3C (spec/17_isa_copy_task_system.md R339 to R341, spec/12_traps_preemption.md R200,
spec/13_encoding.md R223 to R226, R231, spec/03_operand_stores.md R52, R53).
-/
namespace Sys2Proof.Machine

/-! ### Words without effect (R231, R341). -/

def execNop (h : Head) (b : BitVec 44) (s : State) : Out := runJ (.nop h b) h (pure .retire) s
def execHint (h : Head) (f : FmtS) (s : State) : Out := runJ (.hint h f) h (pure .retire) s
def execHintSpace (h : Head) (fn : BitVec 5) (b : BitVec 44) (s : State) : Out :=
  runJ (.hintSpace h fn b) h (pure .retire) s
/-- An encoding outside the opcode map raises ILLOP, with the word in INFO0 (R231). -/
def execUnassignedEncoding (w : BitVec 64) (s : State) : Out :=
  runJ (.unassignedEncoding w) ⟨0, 0, 0⟩ (trap (illop (.unassignedEncoding w))) s

/-! ### Traps and handlers (R200, R340). -/

def execTrap (h : Head) (f : FmtS) (s : State) : Out :=
  runJ (.trap h f) h (trap { cause := cTRAP, info0 := f.code.setWidth 64 }) s
def execBrk (h : Head) (f : FmtS) (s : State) : Out := runJ (.brk h f) h (trap { cause := cBRK }) s

/-- A split as it was when it took the trap (R200): the counts that were set aside return, and the handler's own end
with it, so that its writes stand (R229). -/
def leaveHandler (s : Split) (h : Handler) : Split :=
  { s with
    qd := h.qd, qv := h.qv, qb := h.qb, pend := h.pend, hdr := h.hdr, pc := h.pc, entering := h.entering,
    len := h.len, reconv := h.reconv, ans := h.ans, served := h.served, servedVals := h.servedVals, forced := h.forced, peerLost := h.peerLost,
    waitUntil := h.waitUntil, handler := none }

/-- The word at the PC counts as retired and writes nothing (R200): the split goes on to the next word, or to the next
boundary. -/
def skipWord (d : Dev) (w : W64) : Dev :=
  let s := mySplit d
  let st := streamsOf w
  let d1 := countWord d (bits w 57 54) st.1 st.2
  if atLast s then goHeader d1 (boundary s) else setMySplit d1 { mySplit d1 with pc := s.pc + 8 }

def execTret (h : Head) (f : FmtS) (s : State) : Out :=
  runJ (.tret h f) h (do
    let d ← dev
    match (mySplit d).handler with
    | none => trap (illop (.tret h f))
    | some k => do
      upd (fun d => let d1 := countWord d h.stl.toNat true true
                    setMySplit d1 (leaveHandler (mySplit d1) k))
      if f.code = 1 ∧ !k.async ∧ !k.entering then do
        let w ← fetchWord k.pc
        upd (fun d => skipWord d w)
      else pure ()
      pure .moved) s

def execRdtr (h : Head) (f : FmtS) (s : State) : Out :=
  runJ (.rdtr h f) h (do
    let d ← dev
    match (mySplit d).handler with
    | none => trap (illop (.rdtr h f))
    | some k => do
      let r := if bits f.code 3 3 = 1 then k.cont else k.record
      putA 0 (mySplit d).mask f.d (fun _ => nth r (bits f.code 2 0) 0)
      pure .retire) s

/-! ### Special registers (R223 to R226). -/

/-- The code of a rounding mode in MODE.RND (R85, R224). -/
def rndCode : Rnd → Nat
  | .rne => 1 | .rtz => 2 | .rdn => 3 | .rup => 4 | .rss => 5

/-- MODE (R224). -/
def modeWord (x : Wave) (t : StageSet) : W64 :=
  (t.lhold.setWidth 64 <<< 18) ||| (t.logcap.setWidth 64 <<< 15) ||| (w64 (rndCode x.rnd) <<< 8) ||| bitAt x.fo 1 |||
    bitAt x.chk 0

/-- A special register as a lane of the split that issues reads it (R223). -/
def srWord (d : Dev) (n l : Nat) : W64 :=
  let x := me d
  let t := mySet d
  match n with
  | 0x00 => w64 l
  | 0x01 => w64 x.widx
  | 0x02 => w64 t.team
  | 0x03 => w64 (lclOf t.vcore)
  | 0x04 => w64 x.stage
  | 0x05 => w64 t.vcore
  | 0x06 => w64 (mySplit d).clock
  | 0x07 => if x.fo then w64 (mySplit d).clock else w64 d.cycle
  | 0x08 => modeWord x t
  | 0x09 => x.fstat.setWidth 64
  | 0x0A => mstatLow d d.cur.1
  | 0x0B => x.xva.setWidth 64
  | 0x0C => x.xvw.setWidth 64
  | 0x0D => t.trapbase
  | 0x0E => x.preemptAt
  | _ => 0

def execRdsr (h : Head) (f : FmtS) (s : State) : Out :=
  runJ (.rdsr h f) h (do
    let d ← dev
    putA 0 (mySplit d).mask f.d (fun l => srWord d f.code.toNat l)
    pure .retire) s

/-- LHOLD as it is stored (R143). -/
def lholdStored (k : Nat) : BitVec 6 := BitVec.ofNat 6 (if k = 0 then 0 else min 47 (max 12 k))

/-- The rounding mode of a RND field, none for 0, 6 and 7 (R85, R224). -/
def rndField (n : Nat) : Option Rnd :=
  match n with
  | 1 => some .rne | 2 => some .rtz | 3 => some .rdn | 4 => some .rup | 5 => some .rss | _ => none

/-- A write of a special register (R223 to R226); `bad` is the trap of a MODE that cannot be stored. -/
def srWrite (n : Nat) (v : W64) (bad : Trap) : Act Unit := do
  let d ← dev
  let x := me d
  let t := mySet d
  match n with
  | 0x08 =>
    match rndField (bits v 10 8) with
    | none => trap bad
    | some r => upd (fun d =>
        let y := { x with rnd := r, chk := bits v 0 0 == 1 }
        let u := { t with lhold := lholdStored (bits v 23 18), logcap := BitVec.ofNat 3 (bits v 17 15) }
        setSet (setMe d y) x.set u)
  | 0x09 => upd (fun d => setMe d { x with fstat := v.setWidth 9 })
  | 0x0B => upd (fun d => setMe d { x with xva := v.setWidth 16 })
  | 0x0C => upd (fun d => setMe d { x with xvw := v.setWidth 16 })
  | 0x0D => upd (fun d => setSet d x.set { t with trapbase := w64 (v.toNat % 2 ^ 57 / 64 * 64) })
  | 0x0E =>
    let hit := v ≠ 0 && x.splits.any (fun s => s.mask ≠ 0 && decide (v.toNat ≤ s.clock))
    upd (fun d => setMe d { x with preemptAt := v, preemptHit := hit })
  | _ => pure ()

def execWrsr (h : Head) (f : FmtS) (s : State) : Out :=
  runJ (.wrsr h f) h (do
    let d ← dev
    let all := (mySplit d).mask
    let src ← takeSrc .n64 all f.a
    let v := valA (me d) (mySplit d) src ((lanesOf all).headD 0)
    srWrite f.code.toNat v (illop (.wrsr h f))
    pure .retire) s

/-! ### The carve (R52, R53). -/

/-- PERM with SUB 1 for a privileged instruction outside context 0 (R339). -/
def privileged (d : Dev) : Act Unit := need (decide ((me d).ctx = 0)) { cause := cPERM, sub := 1 }

/-- The S pages of a core that stand in frames at or past a count. -/
def takenPages (d : Dev) (core n : Nat) : List (Nat × Nat) :=
  (corePages d core).filter (fun p =>
    let g := pageOf d p.1 p.2
    g.store == .s && g.st ≠ .nonResident && decide (n ≤ g.frame))

/-- The pinned S pages of a core's resident contexts. -/
def pinnedS (d : Dev) (core : Nat) : Nat :=
  ((corePages d core).filter (fun p =>
    let g := pageOf d p.1 p.2
    g.store == .s && g.st == .pinned && setResident d p.1)).length

/-- A core's carve becomes `units` of 32 KiB (R53). Copies that the L1 no longer has room for are dropped. -/
def setCarve (d : Dev) (core units : Nat) : Dev :=
  let d1 := setCore d core { coreOf d core with carve := units }
  { d1 with caches := d1.caches.filter (fun p => !(p.1 == .l1 core && decide (4 * units ≤ p.2.way))) }

/-- `carve`: it waits for the fills under way in the frames that it takes (R53). -/
def execCarve (h : Head) (f : FmtS) (s : State) : Out :=
  runJ (.carve h f) h (do
    let d ← dev
    privileged d
    let core := pcore d (vcoreOf d (me d))
    let units := bits f.code 2 0
    let n := 64 - 8 * units
    let done := fun (st : Nat) => putA 0 (mySplit d).mask f.d (fun _ => w64 st)
    if n < pinnedS d core then do
      done 1
      pure .retire
    else if (takenPages d core n).any (fun p => (pageOf d p.1 p.2).st == .filling) then pure .stay
    else do
      actU (fun m d => (takenPages d core n).foldl (fun d p => evict m d p.1 p.2) d)
      let e ← dev
      if !(takenPages e core n).isEmpty then pure .stay
      else do
        upd (fun d => setCarve d core units)
        done 0
        pure .retire) s

/-! ### Halting a context (R340). -/

/-- End every launch of a context (R194), all together: no wave of a destroyed context is granted a lock that another of them has
held (R145). -/
def failContext (m : Memory) (d : Dev) (ctx : Nat) (status : BitVec 8) : Dev :=
  failLaunches m d ((List.range d.launches.length).filter (fun l => (launchOf d l).ctx == ctx)) status

def execHalt (h : Head) (f : FmtS) (s : State) : Out :=
  runJ (.halt h f) h (do
    let d ← dev
    privileged d
    let c ← sReg (mySplit d).mask f.a
    actU (fun m d => failContext m d (c.toNat % 65536) 0x09)
    let e ← dev
    if (me e).live then pure .retire else pure .moved) s

end Sys2Proof.Machine
end

