-- ==== Sys2Proof/Machine/Waves.lean ====
section
/-!
DEFINITION. Device steps of waves and pages: clock epochs (spec/07_model_far.md R119, R120), promotion
(spec/10_execution_model.md R179), the launch minimum (spec/09_engines_determinism.md R161), walks (spec/02_address_spaces.md
R25, R28), reclaims and fills (spec/03_operand_stores.md R40, spec/04_pending_logs.md R64), asynchronous traps and ring
retries (spec/12_traps_preemption.md R197, R204).
-/
namespace Sys2Proof.Machine

/-- One crossing of a multiple of 4,096 by a clock of the wave (R119); in FO mode the lease set is emptied (R120). -/
def execClockEpochStep (w : Nat) (s : State) : Out :=
  runEvent (fun _ d =>
    let x := waveOf d w
    if x.epochDue = 0 then d
    else setWave d w { x with
      vstamp := max (x.vstamp + 256) (x.lmax + 1), lmax := 0, epochDue := x.epochDue - 1,
      leaseSet := if x.fo then [] else x.leaseSet }) s

/-- A split whose next word has been ready for 64 cycles is promoted, from the cycle in which it had been (R179). -/
def execIssuePromotion (w sp : Nat) (s : State) : Out :=
  runEvent (fun m d =>
    let q := splitOf (waveOf d w) sp
    if readyWord m d w sp && q.promoted.isNone && decide (q.readySince + 64 ≤ d.cycle) then
      modSplit d w sp (fun q => { q with promoted := some (q.readySince + 64) })
    else d) s

/-- The launch minimum is refreshed (R161). -/
def execMinTreeRefresh (l : Nat) (s : State) : Out :=
  runEvent (fun _ d => setLaunch d l { launchOf d l with minKey := leastKey (activeKeys d l) }) s

/-- A walk for an access of a physical core (R25): A and D are set and the TLB takes the leaf; a walk that fails opens an
episode, whose record names no wave (R28). -/
def execPageWalk (core ctx : Nat) (va : BitVec 64) (acc : Access) (s : State) : Out :=
  runEvent (fun m d =>
    match runAct (translate core ctx va.toNat acc) m d with
    | .ok (_, d1) => d1
    | .error t =>
      if !replayable t then d
      else
        let (d1, opened) := joinEpisode d (coreDie core) ctx t []
        if opened then
          writeRecord m d1 ctx (recordWords d1 ctx none 0 0 t { external := true, replay := true })
        else d1) s

/-- The core reclaims a frame of a store when none is free (R40, R41). -/
def execPageReclaim (core : Nat) (st : StoreId) (s : State) : Out := runEvent (fun m d => reclaim m d core st) s

/-- The fill of a page of a stage set completes (R64). -/
def execFillComplete (set pg : Nat) (s : State) : Out := runEvent (fun m d => completeFill m d set pg) s

/-- Whether an asynchronous trap may be delivered to a split that stands so (R197). -/
def deliverable : Park → Bool
  | .replay | .held | .ring _ _ | .stopped | .peer _ => false
  | .running | .header _ | .ldfe _ _ _ | .lock _ _ _ | .lockFull _ _ _ _ | .mwait _ | .cwait _ _ _ _ _ _ | .phwait _ _ _ _
  | .mfence | .bar | .cbar | .ack | .yielded _ _ | .queueFull => true

/-- A parked split leaves what it waits in, its instruction not performed (R197): the queue of a lock, or the waiters of a
phaser. -/
def unwait (m : Memory) (d : Dev) (w sp : Nat) : Dev :=
  match (splitOf (waveOf d w) sp).park with
  | .lock _ _ _ => dropWaiter m d w sp
  | .phwait _ _ _ (.due _ _) => d
  | .phwait n _ _ _ => countWaiters d n { phaserOf m d n with waiters := (phaserOf m d n).waiters - 1 }
  | _ => d

/-- An asynchronous trap has been taken. -/
def takenTrap (d : Dev) (w : Nat) (t : AsyncTrap) : Dev :=
  setWave d w { waveOf d w with atraps := (waveOf d w).atraps.erase t }

/-- A split takes its oldest asynchronous trap at its next instruction boundary (R197). -/
def execAsyncTrapDelivery (w sp : Nat) (s : State) : Out :=
  runEvent (fun m d =>
    let x := waveOf d w
    let q := splitOf x sp
    match dueTrap x sp with
    | some t =>
      if x.live && q.mask ≠ 0 && q.handler.isNone && q.ans.isNone && deliverable q.park && setResident d x.set then
        takeTrap m (takenTrap (unpark (unwait m d w sp) w sp) w t) w sp t.trap true
      else d
    | none => d) s

/-- The splits of a wave that are parked on a full ring retry, each once the header's line has been written (R204). -/
def execRingRetry (w : Nat) (s : State) : Out :=
  runEvent (fun m d =>
    if !setResident d (waveOf d w).set then d
    else (List.range (waveOf d w).splits.length).foldl (fun d i =>
      let q := splitOf (waveOf d w) i
      match q.park with
      | .ring n wts => if (lineOf d n).wts ≠ wts then waveRecord m d w i q.ringRec q.after else d
      | _ => d) d) s

end Sys2Proof.Machine
end

