-- ==== Sys2Proof/Machine/Switch.lean ====
section
/-!
DEFINITION. Switching contexts (spec/12_traps_preemption.md R205 to R208): who leaves together, team blocks of the save area,
leaving, spilling and coming back.
-/
namespace Sys2Proof.Machine

/-- The clusters that are switched out with one (R170, R193, R205): its launch's, when it is co-resident. -/
def switchGroup (d : Dev) (cl : Nat) : List Nat :=
  let x := clusterOf d cl
  let l := launchOf d x.launch
  if l.cor || l.fo then
    (List.range d.clusters.length).filter (fun k => (clusterOf d k).launch == x.launch && (clusterOf d k).res == .resident)
  else if x.res == .resident then [cl] else []

/-- The stage sets of some clusters, in ascending order of launch team index. -/
def groupSets (d : Dev) (cs : List Nat) : List Nat :=
  sortBy (fun a b => decide ((setOf d a).team ≤ (setOf d b).team)) (cs.flatMap (fun k => (clusterOf d k).sets))

/-- The waves of some stage sets. -/
def wavesOf (d : Dev) (ts : List Nat) : List Nat := ts.flatMap (fun t => (setOf d t).waves)

/-- The physical core of a stage set. -/
def coreOfSet (d : Dev) (t : Nat) : Nat := pcore d (setOf d t).vcore

/-- Whether the shadow bank of a core holds a context that has not been saved (R206). -/
def shadowBusy (d : Dev) (core : Nat) : Bool :=
  d.shadow.any (fun k => (clusterOf d k).sets.any (fun t => coreOfSet d t == core))

/-! ### Team blocks (R206, R207). -/

/-- The physical address of a team block. -/
def blockAt (m : Memory) (d : Dev) (ctx k : Nat) : Nat := ctxSave m d ctx + 0x10000 + 0x80000 * k

/-- The first `n` free team blocks of a context's save area, or as many as there are. -/
def freeBlocks (m : Memory) (d : Dev) (ctx n : Nat) : List Nat :=
  let save := ctxSave m d ctx
  let count := min (rd64 m d (save + 0x4000)).toNat 65535
  ((List.range count).filter (fun k => !(rdByte m d (save + 0x8000 + k / 8)).getLsbD (k % 8))).take n

/-- A stage set takes a block. -/
def takeBlock (m : Memory) (d : Dev) (t k : Nat) : Dev :=
  let x := setOf d t
  let a := ctxSave m d x.ctx + 0x8000 + k / 8
  setSet (agentWrite m d whoEngine a [rdByte m d a ||| (1#8 <<< (k % 8))]) t { x with block := some k }

/-! ### Leaving (R206). -/

/-- The next stroke of an operation. -/
def stroke (m : Memory) (d : Dev) (i : Nat) (o : MatOp) : Dev :=
  if !loadDone o then loadBeat m d i o
  else if swaps o && !o.swapped then swapBanks (setMat d i { o with swapped := true }) o.wave
  else if hasRows o && !matOver o then strokeRow m d i o else d

/-- Run a core's Quill to the next point where an operation of some waves may be interrupted; `fuel` bounds the strokes. -/
def toPoint (m : Memory) (d : Dev) (core : Nat) (ws : List Nat) : Nat → Dev
  | 0 => d
  | fuel + 1 =>
    match midMat d core with
    | some (i, o) => if ws.contains o.wave then toPoint m (stroke m d i o) core ws fuel else d
    | none => d

/-- Whether a core's Quill stands where the waves may leave. -/
def quillReady (d : Dev) (core : Nat) (ws : List Nat) : Bool :=
  (midMat d core).all (fun h => !ws.contains h.2.wave)

/-- The strokes between two points of an operation: a load's beats, then sixteen rows (R294, R298). -/
def strokesToPoint : Nat := 256

/-- A wave leaves its core: its matrix operations stand in the checkpoint (R128, R206). -/
def waveAway (d : Dev) (w : Nat) : Dev :=
  let d0 := loseArray d w
  let d1 := { d0 with matops := d0.matops.map (fun o => if o.wave = w ∧ !o.done then { o with saved := true } else o) }
  let x := waveOf d1 w
  setWave d1 w { x with
    reservation := none,
    splits := x.splits.map (fun s => if s.park = .stopped then { s with park := .running } else s) }

/-- The die on whose queue a cluster group waits: its own, or die 0's when it lies on both (R188, R205). -/
def groupDie (d : Dev) (cs : List Nat) : Nat :=
  match (cs.map (fun k => dieOf d (clusterOf d k).lcl)).eraseDups with
  | [x] => x
  | _ => dieOf d 0

/-- Push an entry as a queue's oldest (R193, R205). -/
def pushOldest (d : Dev) (q : Nat) (e : Entry) : Dev := { d with queues := nthSet d.queues q (e :: nth d.queues q []) }

/-- What came of an attempt to switch clusters out. -/
inductive SwitchRes where
  | done
  | wait
  | full (teams : List Nat)
  deriving DecidableEq, Repr

/-- Switch a cluster's group out (R206): all of it, or nothing where a stage set finds no block. It waits for the
shadow banks of its cores, and for Quill. -/
def switchOut (m : Memory) (d : Dev) (cl : Nat) : Dev × SwitchRes :=
  let cs := switchGroup d cl
  let ts := groupSets d cs
  let ws := wavesOf d ts
  let ctx := (launchOf d (clusterOf d cl).launch).ctx
  let bs := freeBlocks m d ctx ts.length
  let cores := ts.map (coreOfSet d)
  if cs.isEmpty then (d, .wait)
  else if bs.length < ts.length then (d, .full ((ts.drop bs.length).map (fun t => (setOf d t).team)))
  else if cores.any (shadowBusy d) then (d, .wait)
  else
    let d1 := cores.foldl (fun d k => toPoint m d k ws strokesToPoint) d
    if !cores.all (fun k => quillReady d1 k ws) then (d1, .wait)
    else
      let d2 := (ts.zip bs).foldl (fun d p => takeBlock m d p.1 p.2) d1
      let d3 := ts.foldl unpinSet (ws.foldl waveAway d2)
      let d4 := cs.foldl (fun d k => setCluster d k { clusterOf d k with res := .shadow }) { d3 with shadow := d3.shadow ++ cs }
      let x := clusterOf d cl
      let e : Entry := { work := .again x.launch cs, hint := x.hint, bypass := x.bypass }
      (pushOldest d4 (queueIdx (groupDie d cs) x.prio) e, .done)

/-- Whether a split of a cluster has stopped at a PREEMPT_AT boundary (R205). -/
def stoppedIn (d : Dev) (cl : Nat) : Bool :=
  (wavesOf d (clusterOf d cl).sets).any (fun w => (waveOf d w).splits.any (fun s => s.mask ≠ 0 && s.park == .stopped))

/-- The stopped splits of a cluster go on where they stopped (R206). -/
def resumeStopped (d : Dev) (cl : Nat) : Dev :=
  (wavesOf d (clusterOf d cl).sets).foldl (fun d w =>
    let x := waveOf d w
    setWave d w { x with splits := x.splits.map (fun s => if s.park = .stopped then { s with park := .running } else s) }) d

/-- A cluster is switched out (R206); one that stopped at PREEMPT_AT and finds no block writes its SAVE_FULL records and
goes on. -/
def execContextSwitchOut (cl : Nat) (s : State) : Out :=
  runEvent (fun m d =>
    match switchOut m d cl with
    | (d1, .full teams) =>
      if stoppedIn d1 cl then
        let ctx := (launchOf d1 (clusterOf d1 cl).launch).ctx
        teams.foldl (fun d t =>
          writeRecord m d ctx (recordWords d ctx none 0 0 { cause := cSAVEFULL, info0 := w64 t } {}))
          (resumeStopped d1 cl)
      else d1
    | (d1, _) => d1) s

/-- A clock of the wave has reached PREEMPT_AT (R205): it is cleared, the splits of the wave stop, and the switch of its
cluster begins. -/
def execPreemptAtReached (w : Nat) (s : State) : Out :=
  runEvent (fun _ d =>
    let x := waveOf d w
    if !x.preemptHit || !setResident d x.set then d
    else
      let stop := fun (q : Split) => if q.mask ≠ 0 && q.park == .running then { q with park := .stopped } else q
      let d1 := setWave d w { x with preemptAt := 0, preemptHit := false, splits := x.splits.map stop }
      { d1 with agenda := .event (.contextSwitchOut (clusterIdx d1 w)) :: d1.agenda }) s

/-! ### Spilling and coming back (R206 to R208). -/

/-- The page map's entry for a page (R44). -/
def pageWord (d : Dev) (p : Page) : W64 :=
  let st := match p.st with
    | .nonResident => 0
    | .filling => 1
    | .unpinned => 2
    | .pinned => 3
  let flags := bitAt p.dirty 29 ||| bitAt p.mapped.isSome 28 ||| bitAt (logged p) 27 ||| bitAt (decide (pagePoison d p ≠ 0)) 26
  (p.gen.setWidth 64 <<< 32) ||| (w64 st <<< 30) ||| flags ||| (w64 (storeNo p.store) <<< 24) |||
    (w64 (if p.st = .nonResident then 0 else p.frame % 256) <<< 16) ||| (w64 (p.idx % 256) <<< 8)

/-- The bytes of a team block that stand for a checkpoint of Quill and the waves of a set (R207). -/
def stateBytes (seq team waves : Nat) : List Byte :=
  (List.range (0x1000 + 0x7000 * waves)).map (fun i => Config.blockByte seq team (0x1000 + i))

/-- The tag of a team block as memory holds it, over the block past the tag and the spill sequence number (R208). -/
def tagOf (m : Memory) (d : Dev) (k seq : Nat) : List Byte :=
  let bs := rdBytes m d (k + 16) (0x80000 - 16)
  leBytes 8 (Config.blockTag seq bs 0) ++ leBytes 8 (Config.blockTag seq bs 1)

/-- Spill a stage set into its block (R206 to R208). Its page map entries stand by store, then by page, and are written once, at
the end of the spill (DESIGN CHOICE, log 59). -/
def spillSet (m : Memory) (d : Dev) (t : Nat) : Dev :=
  let x := setOf d t
  match x.block with
  | none => d
  | some b =>
    let seq := (ctxOf d x.ctx).spillSeq + 1
    let k := blockAt m d x.ctx b
    let d1 := setCtx d x.ctx { ctxOf d x.ctx with spillSeq := seq }
    let map := (x.pages.flatMap (fun p => leBytes 8 (pageWord d p)))
    let d2 := engineBytes m (engineBytes m d1 (k + 0x40) map) (k + 0x1000) (stateBytes seq x.team x.waves.length)
    let d3 := engineBytes m d2 (k + 16) (leBytes 8 (w64 seq) ++ leBytes 8 (w64 x.team))
    let d4 := { d3 with poison := d3.poison.filter (fun n => deadLine d n || !(decide (k / 64 ≤ n) && decide (n < k / 64 + 0x2000))) }
    setSet (engineBytes m d4 k (tagOf m d4 k seq)) t { setOf d4 t with spillSeq := seq }

/-- The spill of a switched-out cluster ends (R206): the shadow banks are free. -/
def spillEnd (m : Memory) (d : Dev) (cl : Nat) : Dev :=
  let x := clusterOf d cl
  if x.res ≠ .shadow then d
  else
    let d1 := x.sets.foldl (spillSet m) d
    { setCluster d1 cl { clusterOf d1 cl with res := .spilled } with shadow := d1.shadow.filter (· ≠ cl) }

def execSpillComplete (cl : Nat) (s : State) : Out := runEvent (fun m d => spillEnd m d cl) s

/-- Whether a set's block verifies (R208): no uncorrectable error, and the tag of what it holds. -/
def blockGood (m : Memory) (d : Dev) (t : Nat) : Bool :=
  let x := setOf d t
  match x.block with
  | none => false
  | some b =>
    let k := blockAt m d x.ctx b
    !d.poison.any (fun n => decide (k / 64 ≤ n) && decide (n < k / 64 + 0x2000)) &&
      rd64 m d (k + 16) == w64 x.spillSeq && rdBytes m d k 16 == tagOf m d k x.spillSeq

/-- A core comes to a set with no copy of a line that is older than what the set's waves have read elsewhere (R107). -/
def freshCaches (d : Dev) (core : Nat) : Dev :=
  { d with caches := d.caches.filter (fun p => p.1 ≠ .l1 core && p.1 ≠ .l2 (coreDie core)) }

/-- The watches of a wave that comes back: a line that was written while it was away wakes it at once (R129, R284). -/
def tellBack (d : Dev) (w : Nat) : Dev :=
  (List.range (waveOf d w).splits.length).foldl (fun d sp => pollWaiter d w sp) (pollMonitor d w)

/-- A set comes back to its core: its block is free, its pages are pinned while it has a live wave (R39), and its waves are
told of what they watch. In FO mode the back messages of its waves arrive with the switch-in, before an unlock of their launch can,
so that the switch changes no order of grants (R141, R164). -/
def setBack (m : Memory) (d : Dev) (t : Nat) : Dev :=
  let d1 := freeBlock m d t
  let x := setOf d1 t
  let d2 := if setAlive d1 t then
      setSet d1 t { x with
        lastIssue := d1.cycle, pages := x.pages.map (fun p => if p.st = .unpinned then { p with st := .pinned } else p) }
    else d1
  let core := coreOfSet d2 t
  let back := fun (d : Dev) (w : Nat) => tellBack (if (waveOf d w).fo then waiterBack m d w else d) w
  x.waves.foldl back (freshCaches (setCore d2 core { coreOf d2 core with lastIssue := d2.cycle }) core)

/-- A cluster is restored (R206, R208); `ok` says that the restore met no error. One whose block does not verify breaks
its context: every launch of it ends with RESTORE_FAIL. -/
def execContextSwitchIn (cl : Nat) (ok : Bool) (s : State) : Out :=
  runEvent (fun m d =>
    let x := clusterOf d cl
    if x.res ≠ .spilled then d
    else if ok && x.sets.all (blockGood m d) then
      x.sets.foldl (setBack m) (setCluster d cl { x with res := .resident, lastIssue := d.cycle })
    else
      let ctx := (launchOf d x.launch).ctx
      failContext m (setCtx d ctx { ctxOf d ctx with broken := true }) ctx 0x08) s

end Sys2Proof.Machine
end

