-- ==== Sys2Proof/Machine/Place.lean ====
section
/-!
DEFINITION. Selection and placement (spec/11_launch_scheduling.md R184, R188 to R193, R383; spec/03_operand_stores.md R38,
R48, R54; spec/10_execution_model.md R165, R170, R175 to R177).
-/
namespace Sys2Proof.Machine

/-! ### Whether a stage set fits a core (R190). -/

/-- Pages of a store in a footprint. -/
def footPages (f : Footprint) : StoreId → Nat
  | .s => f.s
  | .a => f.a
  | .w => f.w
  | .c => f.c

/-- The stores, in the order of R43. -/
def stores : List StoreId := [.s, .a, .w, .c]

/-- The resident stage sets of a core that stay when the clusters `gone` are taken off. -/
def coreSets (d : Dev) (gone : List Nat) (core : Nat) : List Nat :=
  (List.range d.sets.length).filter (fun t =>
    (setOf d t).live && setResident d t && !gone.contains (setOf d t).cluster && coreOfSet d t == core)

/-- The resident-unpinned pages of a store on a core, with the pinned ones of the clusters taken off. -/
def freeable (d : Dev) (gone : List Nat) (core : Nat) (st : StoreId) : Nat :=
  ((corePages d core).filter (fun p =>
    let g := pageOf d p.1 p.2
    g.store == st && (g.st == .unpinned || (g.st == .pinned && gone.contains (setOf d p.1).cluster)))).length

/-- The v registers of a footprint (R165). -/
def vRegs (vblk : Nat) : Nat := 16 * (vblk + 1)

/-- Whether the sub-pipes of a core take some waves, given by wave index and VBLK (R165). -/
def pipesTake (d : Dev) (gone : List Nat) (core : Nat) (new : List (Nat × Nat)) : Bool :=
  let ws := ((coreSets d gone core).flatMap (fun t => (setOf d t).waves)).filter (fun w => (waveOf d w).live)
  (List.range 4).all (fun i =>
    let mine := ws.filter (fun w => (waveOf d w).widx % 4 == i)
    let more := new.filter (fun q => q.1 % 4 == i)
    decide (mine.length + more.length ≤ 16) &&
      decide (mine.foldl (fun n w => n + vRegs (waveOf d w).vblk) 0 + more.foldl (fun n q => n + vRegs q.2) 0 ≤ 512))

/-- Whether another logical cluster is resident on a core's physical cluster (R33). -/
def otherTurn (d : Dev) (gone : List Nat) (lcl core : Nat) : Bool :=
  (List.range d.sets.length).any (fun t =>
    let x := setOf d t
    x.live && setResident d t && !gone.contains x.cluster && coreOfSet d t / 8 == core / 8 && lclOf x.vcore ≠ lcl)

/-- The frames of a store that a core has free. -/
def freeCount (d : Dev) (core : Nat) (st : StoreId) : Nat := framesOf d core st - (usedFrames d core st).length

/-- The frames that placing the pages of a footprint and some waves on a logical core would reclaim, when they fit
(R190). A die that is going offline takes none (R380). -/
def coreRoom (d : Dev) (gone avoid : List Nat) (vcore : Nat) (f : Footprint) (new : List (Nat × Nat)) : Option Nat :=
  let core := pcore d vcore
  let free := freeCount d core
  if avoid.contains core || d.leaving = some (coreDie core) || otherTurn d gone (lclOf vcore) core || !pipesTake d gone core new then none
  else if stores.all (fun st => decide (footPages f st ≤ free st + freeable d gone core st)) then
    some (stores.foldl (fun n st => n + (footPages f st - free st)) 0)
  else none

/-- The sum of what several parts need, when each fits. -/
def sumNeeds : List (Option Nat) → Option Nat
  | [] => some 0
  | none :: _ => none
  | some n :: r => (sumNeeds r).map (n + ·)

/-- The place that needs least, ties to the first. -/
def leastOf : List (Nat × Option Nat) → Option (Nat × Nat)
  | [] => none
  | (k, some n) :: r => match leastOf r with
    | some (j, q) => if q < n then some (j, q) else some (k, n)
    | none => some (k, n)
  | (_, none) :: r => leastOf r

/-! ### Where an entry goes. -/

/-- A placement: new clusters of a launch by index and logical cluster; a continuation on a logical core; a record that
fails its check (R175); clusters that come back, with the logical core of each of their sets. -/
inductive Placing where
  | start (l : Nat) (cs : List (Nat × Nat))
  | cont (r : ContRec) (vcore : Nat)
  | bad (r : ContRec)
  | back (cs : List Nat) (sites : List (Nat × Nat))
  deriving DecidableEq, Repr

/-- The physical cores on which the teams of a launch cluster lie at a logical cluster. -/
def clusterCores (d : Dev) (x : Launch) (lcl : Nat) : List Nat := (List.range x.tpc).map (fun j => pcore d (8 * lcl + j))

/-- Whether a place may be taken: one that holds a core, where one is asked for (R193, R205). -/
def onCore (on : Option Nat) (cores : List Nat) : Bool := on.all cores.contains

/-- Whether the teams of a launch cluster fit a logical cluster. -/
def clusterRoom (d : Dev) (gone avoid : List Nat) (x : Launch) (lcl : Nat) : Option Nat :=
  sumNeeds ((List.range x.tpc).map (fun j => coreRoom d gone avoid (8 * lcl + j) x.foot
    ((List.range (x.nstg * x.wpt)).map (fun w => (w, x.foot.vblk)))))

/-- Whether an earlier cluster of a launch on the same logical cluster has not ended (R184). -/
def earlierRuns (d : Dev) (l i : Nat) : Bool :=
  let x := launchOf d l
  let same := fun (k : Nat) => decide (k < i) && k % 24 == i % 24
  let queued := d.queues.any (fun q => q.any (fun e => match e.work with | .cluster m k => m == l && same k | _ => false))
  queued || d.clusters.any (fun y => y.launch == l && y.aff.isNone && y.res ≠ .ended &&
    (y.sets.head?).any (fun t => same ((setOf d t).team / x.tpc)))

/-- The logical clusters of a die. -/
def dieClusters (d : Dev) (die : Nat) : List Nat := (List.range 24).filter (fun k => dieOf d k == die)

/-- The plan of one launch cluster (R184). -/
def planCluster (d : Dev) (gone avoid : List Nat) (on : Option Nat) (die l i : Nat) : Option Placing :=
  let x := launchOf d l
  let open_ := fun (k : Nat) => onCore on (clusterCores d x k)
  if x.clbase ≠ 31 then
    let lcl := (x.clbase + i) % 24
    if earlierRuns d l i || !open_ lcl then none
    else (clusterRoom d gone avoid x lcl).map (fun _ => .start l [(i, lcl)])
  else
    (leastOf (((dieClusters d die).filter open_).map (fun k => (k, clusterRoom d gone avoid x k)))).map
      (fun p => .start l [(i, p.1)])

/-- Choose logical clusters on distinct physical clusters for the clusters of a launch from index `i` on (R188); the first
holds the core asked for. -/
def chooseClusters (d : Dev) (gone avoid : List Nat) (x : Launch) :
    Option Nat → Nat → Nat → List Nat → Option (List (Nat × Nat))
  | _, 0, _, _ => some []
  | on, n + 1, i, used =>
    match leastOf (((List.range 24).filter (fun k =>
          onCore on (clusterCores d x k) && !used.any (fun u => physOf d u == physOf d k))).map
        (fun k => (k, clusterRoom d gone avoid x k))) with
    | none => none
    | some (k, _) => (chooseClusters d gone avoid x none n (i + 1) (k :: used)).map ((i, k) :: ·)

/-- The plan of a whole co-resident launch (R188, R190). -/
def planWhole (d : Dev) (gone avoid : List Nat) (on : Option Nat) (l : Nat) : Option Placing :=
  let x := launchOf d l
  if x.clbase ≠ 31 then
    let cs := (List.range x.ncl).map (fun i => (i, (x.clbase + i) % 24))
    if !onCore on (cs.flatMap (fun p => clusterCores d x p.2)) then none
    else (sumNeeds (cs.map (fun p => clusterRoom d gone avoid x p.2))).map (fun _ => .start l cs)
  else (chooseClusters d gone avoid x on x.ncl 0 []).map (.start l)

/-- Whether a continuation record passes its check (R175). -/
def recOk (r : BitVec 512) : Bool :=
  let f := footOf (bits r 255 224) 0
  bits r 511 320 == 0 && bits r 288 256 == 0 && bits r 220 192 == 0 && bits r 303 300 ≤ 11 &&
    !(24 ≤ bits r 297 293 && bits r 297 293 ≤ 30) && bits r 292 289 ≤ 8 && pagesOk f &&
    (bits r 127 64 == 0 || (64 ≤ bits r 319 304 && bits r 319 304 % 8 == 0))

/-- The footprint of a record. -/
def recFoot (r : BitVec 512) : Footprint := footOf (bits r 255 224) (bits r 223 221)

/-- Whether a footprint pins a page. -/
def pins (f : Footprint) : Bool := f.s + f.a + f.w + f.c ≠ 0

/-- The free regions of a die's backing pool (R383). -/
def freePool (d : Dev) (die : Nat) : Option Nat := (List.range 256).find? (fun i => !d.pool.contains (die, i))

/-- The plan of a continuation record (R175, R190, R383). -/
def planCont (d : Dev) (gone avoid : List Nat) (on : Option Nat) (die : Nat) (r : ContRec) : Option Placing :=
  if !recOk r.bits then some (.bad r)
  else
    let f := recFoot r.bits
    let cands := match affOf (bits r.bits 297 293) with
      | some k => coresOf (some k)
      | none => (dieClusters d die).flatMap (fun k => coresOf (some k))
    let open_ := cands.filter (fun v =>
      onCore on [pcore d v] && (!pins f || (freePool d (dieOf d (lclOf v))).isSome))
    (leastOf (open_.map (fun v => (v, coreRoom d gone avoid v f [(0, f.vblk)])))).map (fun p => .cont r p.1)

/-- The footprint of a set that has been placed before. -/
def setFoot (d : Dev) (t : Nat) : Footprint :=
  let x := setOf d t
  { s := allocPages x .s, c := allocPages x .c, a := allocPages x .a, w := allocPages x .w, vblk := x.vblk }

/-- The pages of two footprints. -/
def addFoot (f g : Footprint) : Footprint := { f with w := f.w + g.w, a := f.a + g.a, c := f.c + g.c, s := f.s + g.s }

/-- The live waves of a set, by wave index and VBLK. -/
def liveIdx (d : Dev) (t : Nat) : List (Nat × Nat) :=
  ((setOf d t).waves.filter (fun w => (waveOf d w).live)).map (fun w => ((waveOf d w).widx, (waveOf d w).vblk))

/-- The frames of a core that a set's own pages hold, which need no reclaim. -/
def ownFrames (d : Dev) (t core : Nat) : Nat :=
  if coreOfSet d t = core then ((setOf d t).pages.filter (fun p => p.st ≠ .nonResident)).length else 0

/-- The frames that sets reclaim when set `t` comes back to a logical core beside those that `plan` brings to it. -/
def backRoom (d : Dev) (gone avoid : List Nat) (plan : List (Nat × Nat)) (t v : Nat) : Option Nat :=
  let core := pcore d v
  let here := (t :: (plan.filter (fun q => pcore d q.2 == core)).map (·.1))
  if shadowBusy d core || plan.any (fun q => pcore d q.2 / 8 == core / 8 && lclOf q.2 ≠ lclOf v) then none
  else
    (coreRoom d gone avoid v ((here.map (setFoot d)).foldl addFoot { w := 0, a := 0, c := 0, s := 0, vblk := 0 })
      (here.flatMap (liveIdx d))).map (· - (here.map (fun u => ownFrames d u core)).foldl (· + ·) 0)

/-- The places, as a logical core for each set, where a cluster may come back (R184, R190): a continuation's set on any core
of its logical cluster, or of any cluster for AFF 31; a launch cluster on its logical cluster, or where CLBASE is 31 on
any. -/
def landings (d : Dev) (c : Nat) : List (List (Nat × Nat)) :=
  let x := clusterOf d c
  let l := launchOf d x.launch
  let near := dieClusters d (dieOf d x.lcl)
  match x.aff with
  | some a => ((((affOf a).map (fun k => [k])).getD near).flatMap (fun k => coresOf (some k))).map (fun v => x.sets.map (·, v))
  | none =>
    (if l.clbase ≠ 31 then [x.lcl] else if l.cor then List.range 24 else near).map (fun k =>
      x.sets.map (fun t => (t, 8 * k + (setOf d t).jidx)))

/-- What a landing reclaims; the clusters of a co-resident launch land on distinct physical clusters (R188). -/
def landingRoom (d : Dev) (gone avoid : List Nat) (own : Bool) (plan l : List (Nat × Nat)) : Option Nat :=
  if own && l.any (fun q => plan.any (fun r => physOf d (lclOf q.2) == physOf d (lclOf r.2))) then none
  else sumNeeds (l.map (fun q => backRoom d gone avoid plan q.1 q.2))

/-- Choose where each of some clusters comes back; the first on the core asked for. -/
def planSites (d : Dev) (gone avoid : List Nat) : Option Nat → List Nat → List (Nat × Nat) → Option (List (Nat × Nat))
  | _, [], plan => some plan
  | on, c :: r, plan =>
    let x := clusterOf d c
    let own := x.aff.isNone && (launchOf d x.launch).cor && (launchOf d x.launch).clbase == 31
    let ls := (landings d c).filter (fun l => onCore on (l.map (fun q => pcore d q.2)))
    match leastOf (ls.zipIdx.map (fun p => (p.2, landingRoom d gone avoid own plan p.1))) with
    | none => none
    | some (i, _) => planSites d gone avoid none r (plan ++ nth ls i [])

/-- The clusters of an entry that have not ended while they were away. -/
def notEnded (d : Dev) (cs : List Nat) : List Nat := cs.filter (fun k => (clusterOf d k).res ≠ .ended)

/-- The plan of clusters that were switched out: they come back once they have been spilled, and may land on other cores
(R67, R193). -/
def planBack (d : Dev) (gone avoid : List Nat) (on : Option Nat) (cs : List Nat) : Option Placing :=
  let ks := notEnded d cs
  if !ks.all (fun k => (clusterOf d k).res == .spilled) then none
  else match on with
    | none => (planSites d gone avoid none ks []).map (.back ks)
    | some _ => ((List.range ks.length).findSome? (fun j =>
        planSites d gone avoid on (nth ks j 0 :: ks.eraseIdx j) [])).map (.back ks)

/-- Whether and where an entry of a die's queue fits, were the clusters `gone` taken off, outside the cores `avoid`
(R190), and on a core where one is asked for. -/
def planEntry (d : Dev) (gone avoid : List Nat) (on : Option Nat) (die : Nat) (e : Entry) : Option Placing :=
  match e.work with
  | .cluster l i => planCluster d gone avoid on die l i
  | .whole l => planWhole d gone avoid on l
  | .cont r => planCont d gone avoid on die r
  | .again _ cs => planBack d gone avoid on cs

/-- The physical cores of a plan with the pages that each is to give (R191). -/
def planNeeds (d : Dev) (p : Placing) : List (Nat × Footprint) :=
  match p with
  | .start l cs => cs.flatMap (fun q => (clusterCores d (launchOf d l) q.2).map (·, (launchOf d l).foot))
  | .cont r v => [(pcore d v, recFoot r.bits)]
  | .bad _ | .back _ _ => []

/-- Reclaim frames of a store, longest switched out first, until `n` are free; a page that cannot be written back keeps the
request waiting (R40). -/
def freeUp (m : Memory) (core : Nat) (st : StoreId) (n : Nat) : Nat → Dev → Dev
  | 0, d => d
  | fuel + 1, d =>
    if n ≤ freeCount d core st then d
    else match reclaimable d core st with
      | none => d
      | some (t, pi) =>
        let e := evict m d t pi
        if (pageOf e t pi).st = .nonResident then freeUp m core st n fuel e else e

/-- Free the frames that some pages need on their cores (R40, R191). -/
def makeRoom (m : Memory) (d : Dev) (needs : List (Nat × Footprint)) : Dev :=
  needs.foldl (fun d q => stores.foldl (fun d st => freeUp m q.1 st (footPages q.2 st) (footPages q.2 st) d) d) d

/-- Whether the frames are free. -/
def roomMade (d : Dev) (needs : List (Nat × Footprint)) : Bool :=
  needs.all (fun q => stores.all (fun st => decide (footPages q.2 st ≤ freeCount d q.1 st)))

/-! ### Mappings (R48, R49, R191). -/

/-- The eight mapping entries of a team; none when the array cannot be read (R191). -/
def mapArray (m : Memory) (d : Dev) (die ctx va : Nat) : Option (List (W64 × W64)) :=
  match walkVa m d die ctx va .read with
  | .error _ => none
  | .ok (l, _) =>
    let k := leafKey l
    if l.tgt ≤ 1 then
      if (List.range 2).any (fun i => d.poison.contains (k / 64 + i)) then none
      else some ((List.range 8).map (fun i => (rd64 m d (k + 16 * i), rd64 m d (k + 16 * i + 8))))
    else if l.tgt = 2 then
      if !peerUp d l.peer then none
      else
      let w := fun (o : Nat) => leWord ((List.range 8).map (fun i => Config.peerByte l.peer (l.pa + o + i)))
      some ((List.range 8).map (fun i => (w (16 * i), w (16 * i + 8))))
    else some ((List.range 8).map (fun i => (regRead d (l.pa + 16 * i) 8, regRead d (l.pa + 16 * i + 8) 8)))

/-- Whether the mapping entries of some team of a launch lie at a peer whose link is training, so that reading them waits (R371). -/
def mapsWait (m : Memory) (d : Dev) (die ctx va : Nat) : Bool :=
  match walkVa m d die ctx va .read with
  | .error _ => false
  | .ok (l, _) => l.tgt == 2 && peerUp d l.peer && !linkOpen d l.peer

/-- A mapping entry in use: VA, store, pages, first page, RW. -/
structure MapEntry where
  va : Nat
  st : StoreId
  n : Nat
  first : Nat
  rw : Bool
  deriving DecidableEq, Repr

def mapEntry (w : W64 × W64) : MapEntry :=
  { va := bits w.1 56 12 * 4096, st := storeOf (bits w.1 11 10), n := bits w.1 7 0 + 1, first := bits w.2 15 8,
    rw := bits w.2 1 1 == 1 }

/-- Whether two entries overlap in pages or in VA. -/
def mapsMeet (a b : MapEntry) : Bool :=
  (a.st == b.st && decide (a.first < b.first + b.n) && decide (b.first < a.first + a.n)) ||
    (decide (a.va < b.va + 4096 * b.n) && decide (b.va < a.va + 4096 * a.n))

/-- Whether no two of some entries overlap. -/
def mapsApart : List MapEntry → Bool
  | [] => true
  | a :: r => r.all (fun b => !mapsMeet a b) && mapsApart r

/-- The key that a mapped page stands for, when its leaf may be mapped: device memory with R and W. -/
def mapKey (m : Memory) (d : Dev) (die ctx va : Nat) : Option Nat :=
  match walkVa m d die ctx va .read with
  | .ok (l, _) => if l.tgt = 0 ∧ bits l.word 4 4 = 1 then some l.pa else none
  | .error _ => none

/-- The mapping entries of a team (R48); none ends the launch with BADMAP. -/
def teamMaps (m : Memory) (d : Dev) (die ctx : Nat) (maps : W64) (team : Nat) (f : Footprint) : Option (List MapEntry) :=
  if maps = 0 then some []
  else
    match mapArray m d die ctx (maps.toNat + 128 * team) with
    | none => none
    | some ws =>
      let used := ws.filter (fun w => bits w.2 0 0 == 1)
      let es := used.map mapEntry
      let fields := used.all (fun w => bits w.1 63 57 == 0 && bits w.1 9 8 == 0 && bits w.2 63 16 == 0 && bits w.2 7 2 == 0)
      let inside := es.all (fun e => decide (e.first + e.n ≤ footPages f e.st))
      let good := es.all (fun e => (List.range e.n).all (fun i => (mapKey m d die ctx (e.va + 4096 * i)).isSome))
      if fields && inside && mapsApart es && good then some es else none

/-- The mapping of a page (R49). -/
def pageMap (m : Memory) (d : Dev) (die ctx : Nat) (es : List MapEntry) (st : StoreId) (i : Nat) : Option Mapping :=
  (es.find? (fun e => e.st == st && decide (e.first ≤ i) && decide (i < e.first + e.n))).bind (fun e =>
    let va := e.va + 4096 * (i - e.first)
    (mapKey m d die ctx va).map (fun k => { va := va, key := k, rw := e.rw }))

/-! ### Starting teams (R191). -/

/-- The walk of a mapping's address sets A (R25). -/
def touch (m : Memory) (die ctx : Nat) (d : Dev) (va : Nat) : Dev :=
  match walkVa m d die ctx va .read with
  | .ok (_, d1) => d1
  | .error _ => d

/-- The walks by which a team's mappings are read and checked. -/
def touchMaps (m : Memory) (d : Dev) (die ctx : Nat) (maps : W64) (team : Nat) (es : List MapEntry) : Dev :=
  let d1 := if maps = 0 then d else touch m die ctx d (maps.toNat + 128 * team)
  (es.flatMap (fun e => (List.range e.n).map (fun i => e.va + 4096 * i))).foldl (touch m die ctx) d1

/-- Give a set a page (R38): pinned, zero, every granule empty, in one of the frames that `makeRoom` has freed. -/
def addPage (m : Memory) (d : Dev) (t : Nat) (es : List MapEntry) (st : StoreId) (i : Nat) (gen : BitVec 32) : Dev :=
  let core := coreOfSet d t
  let mp := pageMap m d (coreDie core) (setOf d t).ctx es st i
  let d2 := match mp with
    | some q => (List.range 64).foldl (fun d n => registerLine d (lineNo (q.key + 64 * n))) d
    | none => d
  let p : Page := { store := st, idx := i, gen := gen, mapped := mp, frame := (freeFrame d2 core st).getD 0 }
  setSet d2 t { setOf d2 t with pages := (setOf d2 t).pages ++ [p] }

/-- Create a set's allocation (R38, R54): one for its four stores, counted for an empty footprint too (DESIGN CHOICE, log
60). -/
def addPages (m : Memory) (d : Dev) (t : Nat) (es : List MapEntry) (f : Footprint) : Dev :=
  let core := coreOfSet d t
  let gen := (coreOf d core).allocs + 1
  let d1 := setCore d core { coreOf d core with allocs := gen, lastIssue := d.cycle }
  stores.foldl (fun d st => (List.range (footPages f st)).foldl (fun d i => addPage m d t es st i gen) d) d1

/-- A wave at its start (R191). -/
def newWave (x : Launch) (l t widx stage vidx vblk : Nat) (args : List W64) (code : W64) (vstamp clock : Nat) : Wave :=
  { ctx := x.ctx, launch := l, set := t, widx := widx, stage := stage, vidx := vidx, vblk := vblk, fo := x.fo,
    vstamp := vstamp, s := (List.range args.length).foldl (fun r i => put 0 r i (nth args i 0)) [],
    splits := [{ pc := code.toNat, clock := clock }] }

/-- Add a wave to a set. -/
def addWave (d : Dev) (t : Nat) (x : Wave) : Dev :=
  setSet { d with waves := d.waves ++ [x] } t { setOf d t with waves := (setOf d t).waves ++ [d.waves.length] }

/-- Start stage set `j` of launch cluster `i` on a logical core (R182, R191). -/
def startSet (m : Memory) (l i lcl k : Nat) (d : Dev) (j : Nat) : Dev :=
  let x := launchOf d l
  let team := x.tpc * i + j
  let t := d.sets.length
  let y : StageSet := { launch := l, ctx := x.ctx, cluster := k, jidx := j, team := team, vcore := 8 * lcl + j,
                        nstg := x.nstg, wpt := x.wpt, vblk := x.foot.vblk, pages := [],
                        back := x.back.toNat + team * 0x204000, pool := none, waves := [] }
  let die := dieOf d lcl
  let es := (teamMaps m d die x.ctx x.maps team x.foot).getD []
  let d0 := touchMaps m { d with sets := d.sets ++ [y] } die x.ctx x.maps team es
  let d1 := addPages m d0 t es x.foot
  (List.range (x.nstg * x.wpt)).foldl (fun d w =>
    addWave d t (newWave x l t w (w / x.wpt) (16 * team + w) x.foot.vblk x.args x.code x.vstamp 0)) d1

/-- The constant path is emptied at the start of a launch (R19). -/
def emptyConst (d : Dev) : Dev :=
  { d with caches := d.caches.filter (fun p => match p.1 with | .konst _ => false | _ => true) }

/-- Start a launch cluster on a logical cluster. -/
def startCluster (m : Memory) (d : Dev) (l i lcl bypass : Nat) : Dev :=
  let x := launchOf d l
  let k := d.clusters.length
  let t0 := d.sets.length
  let y : Cluster := { launch := l, sets := (List.range x.tpc).map (t0 + ·), lcl := lcl, prio := x.prio, hint := x.hint,
                       lastIssue := d.cycle, bypass := bypass }
  (List.range x.tpc).foldl (startSet m l i lcl k) { emptyConst d with clusters := d.clusters ++ [y] }

/-- The bytes of a backing region (spec/03_operand_stores.md R43, R383). -/
def regionBytes : Nat := 0x204000

/-- The size of device memory (spec/24_host_and_fabric.md R364). -/
def deviceBytes : Nat := 0xC000000000

/-- Whether the regions that bring-up has reserved are regions of device memory, apart from one another (R383). -/
def poolApart : Bool :=
  let all := (List.range 512).map (fun n => Config.poolBase (n / 256) (n % 256))
  all.all (fun a => a % 4096 == 0 && decide (a + regionBytes ≤ deviceBytes)) &&
    (List.range 512).all (fun i => (List.range i).all (fun j =>
      decide (nth all i 0 + regionBytes ≤ nth all j 0) || decide (nth all j 0 + regionBytes ≤ nth all i 0)))

/-- The physical address of a region of the backing pool of a die (R383): where bring-up has reserved it, which is free as
long as no two regions meet; else at the end of device memory (log 8). -/
def poolBase (die i : Nat) : Nat :=
  if poolApart then Config.poolBase die i else deviceBytes - (512 - (256 * die + i)) * regionBytes

/-- Start the wave of a continuation record on a logical core (R177, R333, R383). -/
def startCont (m : Memory) (d : Dev) (r : ContRec) (vcore bypass : Nat) : Dev :=
  let x := launchOf d r.launch
  let f := recFoot r.bits
  let die := dieOf d (lclOf vcore)
  let region := if pins f then freePool d die else none
  let k := d.clusters.length
  let t := d.sets.length
  let y : Cluster := { launch := r.launch, sets := [t], lcl := lclOf vcore, prio := bits r.bits 303 300,
                       hint := w64 (bits r.bits 191 128), lastIssue := d.cycle, bypass := bypass,
                       aff := some (bits r.bits 297 293) }
  let z : StageSet := { launch := r.launch, ctx := r.ctx, cluster := k, jidx := 0, team := Config.spawnedTeam r.vidx,
                        vcore := vcore, nstg := 1, wpt := 1, vblk := f.vblk, pages := [],
                        back := region.elim 0 (poolBase die), pool := region.map (fun i => (die, i)), waves := [] }
  let d1 := { d with clusters := d.clusters ++ [y], sets := d.sets ++ [z],
                     pool := (region.map (fun i => (die, i))).toList ++ d.pool }
  let frame := w64 (bits r.bits 127 64)
  let joff := bits r.bits 319 304
  let w := newWave x r.launch t 0 (bits r.bits 299 298) r.vidx f.vblk [frame, w64 (bits r.bits 191 128)]
    (w64 (bits r.bits 63 0)) r.vstamp r.clock
  let w1 := { w with rframe := frame, rjoff := joff, cframe := frame, cjoff := joff, depth := bits r.bits 292 289 }
  addWave (addPages m d1 t [] f) t w1

/-- A page leaves its physical core (R67): a fill is completed, the page written back, its log applied in place. -/
def leaveCore (m : Memory) (d : Dev) (t pi : Nat) : Dev :=
  let d1 := completeFill m d t pi
  let d2 := if (pageOf d1 t pi).st = .unpinned then evict m d1 t pi else d1
  if (pageOf d2 t pi).st = .nonResident then logToBacking m d2 t pi false else d2

/-- The pages of a set leave its core. -/
def leavePages (m : Memory) (d : Dev) (t : Nat) : Dev :=
  (List.range (setOf d t).pages.length).foldl (fun d pi => leaveCore m d t pi) d

/-- Whether nothing of a set's pages is left on its core. -/
def pagesGone (d : Dev) (t : Nat) : Bool := (setOf d t).pages.all (fun p => p.st == .nonResident && !logged p)

/-- Whether a set comes back to another physical core. -/
def movesTo (d : Dev) (q : Nat × Nat) : Bool := coreOfSet d q.1 ≠ pcore d q.2

/-- A set has its place (R31). -/
def settleSet (d : Dev) (q : Nat × Nat) : Dev :=
  let d1 := setSet d q.1 { setOf d q.1 with vcore := q.2 }
  let c := (setOf d1 q.1).cluster
  setCluster d1 c { clusterOf d1 c with lcl := lclOf q.2 }

/-- Lines that the old cluster unit owns for some clusters return to their homes (R114). -/
def recallGrants (d : Dev) (cs : List Nat) : Dev :=
  d.lines.foldl (fun d p =>
    match p.2.grant with
    | some g => if cs.contains g.cluster then recallLine d p.1 else d
    | none => d) d

/-- Clusters come back (R193, R206): the sets that land on another core leave their old one first; where a page cannot be
written back, the entry stays the oldest of its queue. -/
def bringBack (m : Memory) (d : Dev) (cs : List Nat) (sites : List (Nat × Nat)) (bypass : Nat) : Dev :=
  let moving := sites.filter (movesTo d)
  let d1 := cs.foldl (fun d k => setCluster d k { clusterOf d k with bypass := bypass }) d
  let d2 := moving.foldl (fun d q => leavePages m d q.1) d1
  if moving.all (fun q => pagesGone d2 q.1) then
    let d3 := if moving.isEmpty then d2 else recallGrants d2 cs
    let d4 := sites.foldl settleSet d3
    { d4 with agenda := cs.map (fun k => .event (.contextSwitchIn k true)) ++ d4.agenda }
  else
    let x := clusterOf d2 (nth cs 0 0)
    pushOldest d2 (queueIdx (groupDie d2 cs) x.prio) { work := .again x.launch cs, hint := x.hint, bypass := bypass }

/-- The pending entries of a launch become fewer. -/
def lessPending (d : Dev) (l n : Nat) : Dev := setLaunch d l { launchOf d l with pending := (launchOf d l).pending - n }

/-- Whether the mapping entries of some team of a plan fail their check (R191). -/
def badMaps (m : Memory) (d : Dev) : Placing → Bool
  | .start l cs =>
    let x := launchOf d l
    cs.any (fun q => (List.range x.tpc).any (fun j =>
      (teamMaps m d (dieOf d q.2) x.ctx x.maps (x.tpc * q.1 + j) x.foot).isNone))
  | _ => false

/-- Place an entry that its plan has taken off its queue (R190, R191): the teams of one entry start in one dispatch. -/
def place (m : Memory) (d : Dev) (p : Placing) (bypass : Nat) : Dev :=
  match p with
  | .start l cs =>
    if badMaps m d p then failLaunch m d l 0x05
    else reKey (cs.foldl (fun d q => startCluster m d l q.1 q.2 bypass) (lessPending d l 1)) l
  | .cont r v => reKey (startCont m (lessPending d r.launch 1) r v bypass) r.launch
  | .bad r => failLaunch m d r.launch 0x06
  | .back cs sites => bringBack m d cs sites bypass

/-! ### Selection (R190). -/

/-- The eight oldest entries of a queue. -/
def oldest8 (d : Dev) (die p : Nat) : List Entry := (nth d.queues (queueIdx die p) []).take 8

/-- The cores that an entry for both dies needs; none for one whose clusters lie on one die. A launch for any logical cluster
needs those that an empty device would give it (DESIGN CHOICE, log 68). -/
def crossDie (d : Dev) (e : Entry) : Option (List Nat) :=
  let both := fun (ls : List Nat) => decide (2 ≤ (ls.map (dieOf d)).eraseDups.length)
  match e.work with
  | .whole l =>
    let x := launchOf d l
    let ls := if x.clbase ≠ 31 then (List.range x.ncl).map (fun i => (x.clbase + i) % 24)
      else match chooseClusters d (List.range d.clusters.length) [] x none x.ncl 0 [] with
        | some cs => cs.map (·.2)
        | none => []
    if both ls then some (ls.flatMap (clusterCores d x)) else none
  | .again _ cs =>
    let ks := notEnded d cs
    if both (ks.map (fun k => (clusterOf d k).lcl)) then some ((groupSets d ks).map (coreOfSet d)) else none
  | _ => none

/-- The cores that die 1's dispatcher leaves alone at a priority (R190): those that an entry of die 0 for both dies needs,
once it has been passed over as often as DPOL.BYPASS. -/
def heldCores (d : Dev) (die p : Nat) : List Nat :=
  if die = 0 then []
  else ((List.range 12).filter (fun q => decide (p ≤ q))).flatMap (fun q =>
    match oldest8 d 0 q with
    | e :: _ => if d.regs.bypass.toNat ≤ e.bypass then (crossDie d e).getD [] else []
    | [] => [])

/-- The entry that a dispatcher selects: its queue, its place there, where it goes, and its bypass count. -/
structure Choice where
  q : Nat
  k : Nat
  p : Placing
  bypass : Nat
  deriving DecidableEq, Repr

/-- The clusters of priority below `p` that are resident, lowest priority first, least recently issued first (R205). -/
def lowerClusters (d : Dev) (p : Nat) : List Nat :=
  sortBy (fun a b =>
      let x := clusterOf d a
      let y := clusterOf d b
      decide (x.prio < y.prio) || (x.prio == y.prio && decide (x.lastIssue ≤ y.lastIssue)))
    ((List.range d.clusters.length).filter (fun k => (clusterOf d k).res == .resident && decide ((clusterOf d k).prio < p)))

/-- Whether a cluster's group would find its team blocks (R206). -/
def hasBlocks (m : Memory) (d : Dev) (cl : Nat) : Bool :=
  let ts := groupSets d (switchGroup d cl)
  decide ((freeBlocks m d (launchOf d (clusterOf d cl).launch).ctx ts.length).length = ts.length)

/-- The cluster to switch out for the oldest entry of a level, which fits nowhere (R205): the first by priority and issue of
those on a core where the entry would fit were the teams of lower priority gone. -/
def victim (m : Memory) (d : Dev) (die p : Nat) (e : Entry) : Option Nat :=
  let lower := lowerClusters d p
  let there := fun (t : Nat) => (planEntry d lower (heldCores d die p) (some (coreOfSet d t)) die e).isSome
  lower.find? (fun k => (clusterOf d k).sets.any there && hasBlocks m d k)

/-- Whether an L2 may hold the line of an entry's HINT: one of device memory, or one of host memory that an agent of the
device has taken (R121, R190). -/
def mayHit (m : Memory) (d : Dev) (die : Nat) (e : Entry) : Bool :=
  match walkVa m d die (launchOf d (entryLaunch e.work)).ctx e.hint.toNat .read with
  | .ok (l, _) => l.tgt == 0 || (l.tgt == 1 && (lineOf d (lineNo (leafKey l))).inL2)
  | .error _ => false

/-- The first of some places whose HINT line hits; HINT 0 hits (R190). `hits` says which lines that an L2 may hold it does
hold. -/
def hitOf (m : Memory) (d : Dev) (die : Nat) (hits : BitVec 8) :
    List (Nat × Entry × Placing) → Option (Nat × Entry × Placing)
  | [] => none
  | q :: r =>
    if q.2.1.hint = 0 || (hits.getLsbD q.1 && mayHit m d die q.2.1) then some q else hitOf m d die hits r

/-- `select` of R190 at one priority. -/
def selectAt (m : Memory) (d : Dev) (die : Nat) (hits : BitVec 8) (p : Nat) : Option Choice :=
  let avoid := heldCores d die p
  match oldest8 d die p with
  | [] => none
  | e0 :: r =>
    let es := (e0 :: r).zipIdx
    let fits := es.filterMap (fun q => (planEntry d [] avoid none die q.1).map (fun pl => (q.2, q.1, pl)))
    if d.regs.bypass.toNat ≤ e0.bypass then (planEntry d [] avoid none die e0).map (fun pl => ⟨queueIdx die p, 0, pl, e0.bypass⟩)
    else ((hitOf m d die hits fits).orElse (fun _ => fits.head?)).map (fun q => ⟨queueIdx die p, q.1, q.2.2, q.2.1.bypass⟩)

/-- `select` of R190: the levels from 11 down. -/
def select (m : Memory) (d : Dev) (die : Nat) (hits : BitVec 8) : Option Choice :=
  (List.range 12).findSome? (fun i => selectAt m d die hits (11 - i))

/-- The cluster to switch out at one priority: the oldest entry fits nowhere, and would fit without it (R205). -/
def evictAt (m : Memory) (d : Dev) (die p : Nat) : Option Nat :=
  match oldest8 d die p with
  | [] => none
  | e0 :: _ => if (planEntry d [] (heldCores d die p) none die e0).isSome then none else victim m d die p e0

/-- The cluster that a selection switches out (R205), at the first of the levels that `select` looks at which asks for one. -/
def evictDue (m : Memory) (d : Dev) (die : Nat) (hits : BitVec 8) : Option Nat :=
  let n := ((List.range 12).find? (fun i => (selectAt m d die hits (11 - i)).isSome)).getD 11
  (List.range (n + 1)).findSome? (fun i => evictAt m d die (11 - i))

/-- Take an entry off its queue; the older ones of the eight have been passed over once more. -/
def takeEntry (d : Dev) (q k : Nat) : Dev :=
  let es := nth d.queues q []
  let passed := (es.take k).map (fun e => { e with bypass := e.bypass + 1 })
  { d with queues := nthSet d.queues q (passed ++ es.drop (k + 1)) }

/-- Whether the mapping entries of some team of a plan cannot be read yet. -/
def planWaits (m : Memory) (d : Dev) : Placing → Bool
  | .start l cs =>
    let x := launchOf d l
    cs.any (fun q => (List.range x.tpc).any (fun j =>
      decide (x.maps ≠ 0) && mapsWait m d (dieOf d q.2) x.ctx (x.maps.toNat + 128 * (x.tpc * q.1 + j))))
  | .cont _ _ | .bad _ | .back _ _ => false

/-- Place an entry of a queue once the frames for its pages are free; until then it waits there (R40, R191). -/
def placeFrom (m : Memory) (d : Dev) (p : Placing) (take : Dev → Dev) (bypass : Nat) : Dev :=
  if planWaits m d p then d
  else
  let needs := if badMaps m d p then [] else planNeeds d p
  let d1 := makeRoom m d needs
  if roomMade d1 needs then place m (wakeSpawns (take d1)) p bypass else d1

/-- The dispatcher of a die selects (R190): an entry is placed; and a cluster makes room for an older one that fits nowhere (R205). -/
def execDispatchSelect (die : Nat) (hits : BitVec 8) (s : State) : Out :=
  runEvent (fun m d =>
    if d.regs.stage ≠ 5 then d
    else
      let d1 := match select m d die hits with
        | some c => placeFrom m d c.p (takeEntry · c.q c.k) c.bypass
        | none => d
      match evictDue m d die hits with
      | some k => { d1 with agenda := d1.agenda ++ [.event (.contextSwitchOut k)] }
      | none => d1) s

/-! ### Forward progress (R193). -/

/-- The entries of a die in the order of R190, as queue and place. -/
def entryOrder (d : Dev) (die : Nat) : List (Nat × Nat × Entry) :=
  (List.range 12).flatMap (fun i =>
    let q := queueIdx die (11 - i)
    (nth d.queues q []).zipIdx.map (fun e => (q, e.2, e.1)))

/-- The resident clusters of a core. -/
def coreClusters (d : Dev) (core : Nat) : List Nat := ((coreSets d [] core).map (fun t => (setOf d t).cluster)).eraseDups

/-- Whether a core has been idle for 2^SWAPK cycles with a wave resident (R193). -/
def coreIdle (d : Dev) (core : Nat) : Bool :=
  (coreSets d [] core).any (setAlive d) && decide ((coreOf d core).lastIssue + 2 ^ d.regs.swapk.toNat ≤ d.cycle)

/-- The first entry that would fit on a core with its teams removed. -/
def swapEntry (d : Dev) (core : Nat) : Option (Nat × Nat × Entry) :=
  let die := coreDie core
  (entryOrder d die).find? (fun q =>
    (planEntry d (coreClusters d core) (heldCores d die (q.1 % 12)) (some core) die q.2.2).isSome)

/-- The cluster of the core's team that issued least recently and may be swapped out. -/
def swapVictim (m : Memory) (d : Dev) (core : Nat) : Option Nat :=
  let ts := (coreSets d [] core).filter (fun t =>
    decide ((clusterOf d (setOf d t).cluster).swapUntil ≤ d.cycle) && hasBlocks m d (setOf d t).cluster)
  ((sortBy (fun a b => decide ((setOf d a).lastIssue ≤ (setOf d b).lastIssue)) ts).head?).map (fun t => (setOf d t).cluster)

/-- The clusters placed since a count are not swapped out again for 2^SWAPK cycles (R193). -/
def shieldFrom (d : Dev) (n : Nat) (back : List Nat) : Dev :=
  let until_ := d.cycle + 2 ^ d.regs.swapk.toNat
  { d with clusters := d.clusters.mapIdx (fun k x => if n ≤ k || back.contains k then { x with swapUntil := until_ } else x) }

/-- The forward-progress swap of a core (R193). -/
def execForwardProgressSwap (core : Nat) (s : State) : Out :=
  runEvent (fun m d =>
    if !coreIdle d core then d
    else match swapEntry d core, swapVictim m d core with
      | some (q, k, e), some v =>
        match switchOut m d v with
        | (d1, .done) =>
          let k1 := if (nth d1.queues q []).length = (nth d.queues q []).length then k else k + 1
          match planEntry d1 [] (heldCores d1 (coreDie core) (q % 12)) (some core) (coreDie core) e with
          | some p =>
            let take := fun (d : Dev) => { d with queues := nthSet d.queues q ((nth d.queues q []).eraseIdx k1) }
            shieldFrom (placeFrom m d1 p take e.bypass) d1.clusters.length
              (match p with | .back cs _ => cs | _ => [])
          | none => d1
        | (d1, _) => d1
      | _, _ => d) s

end Sys2Proof.Machine
end

