-- ==== Sys2Proof/Machine/Launch.lean ====
section
/-!
DEFINITION. Launch records: acceptance and end (spec/11_launch_scheduling.md R180 to R188, R194, R195), and the command
journal (spec/25_service.md R378).
-/
namespace Sys2Proof.Machine

/-- The entries that the journal holds (R364). -/
def journalSize : Nat := 4096

/-- Write a journal entry (R378). -/
def writeJournal (d : Dev) (slot : Nat) (seq : W64) (ctx : Nat) (status : BitVec 8) (fin : Bool) : Dev :=
  let e : Journal := { idx := d.regs.jprod.toNat, time := d.cycle, seq := seq, ctx := BitVec.ofNat 16 ctx, slot := slot,
                       status := status, fin := fin }
  { d with
    journal := (d.journal ++ [e]).drop (d.journal.length + 1 - journalSize)
    regs := { d.regs with jprod := d.regs.jprod + 1 } }

/-- The 32 bytes of an entry (R378). -/
def journalBytes (e : Journal) : List Byte :=
  natBytes 32 (e.idx % 2 ^ 32 * 2 ^ 224 + e.time % 2 ^ 64 * 2 ^ 160 + e.seq.toNat * 2 ^ 96 + e.ctx.toNat * 2 ^ 80 +
    e.slot % 2 ^ 16 * 2 ^ 64 + e.status.toNat * 2 ^ 56 + (if e.fin then 2 ^ 55 else 0))

/-! ### The launch record (R182, R183). -/

/-- The 2,048 bits of a window slot. -/
def slotBits (d : Dev) (slot : Nat) : BitVec 2048 :=
  BitVec.ofNat 2048 (leNat ((List.range 256).map (fun i => look 0 d.window (256 * slot + i))))

/-- The launch that a record describes, from the WTS that the home slices had assigned at its acceptance (R119, R182). -/
def launchFrom (d : Dev) (slot : Nat) (r : BitVec 2048) : Launch :=
  let f := fun (hi lo : Nat) => bits r hi lo
  let ncl := f 143 128
  let tpc := f 163 160 + 1
  let fo := f 102 102 == 1
  let clbase := if fo && f 107 103 == 31 then 0 else f 107 103
  let whole := fo || f 101 101 == 1
  { slot := slot, seq := w64 (f 2047 1984), ctx := f 127 112, code := w64 (f 63 0),
    args := (List.range 8).map (fun i => w64 (f (1024 + 64 * i + 63) (1024 + 64 * i))),
    donectr := w64 (f 575 512), sealVa := w64 (f 511 448), maps := w64 (f 447 384), back := w64 (f 383 320),
    hint := w64 (f 319 256), foot := footOf (f 255 224) (f 223 221), wpt := f 169 166 + 1, nstg := f 165 164 + 1,
    tpc := tpc, ncl := ncl, prio := f 111 108, clbase := clbase, fo := fo, cor := f 101 101 == 1, vstamp := d.maxWts,
    pending := if whole then 1 else ncl, nextVidx := 16 * (tpc * ncl) }

/-- Whether an address is beyond the global space or misaligned. -/
def badVa (va : W64) (align : Nat) : Bool := decide (2 ^ 57 ≤ va.toNat) || decide (va.toNat % align ≠ 0)

/-- BADLAUNCH (R183). -/
def badLaunch (m : Memory) (d : Dev) (r : BitVec 2048) : Bool :=
  let x := launchFrom d 0 r
  let zeros := [(1983, 1536), (1023, 576), (220, 170), (159, 144), (100, 64)]
  zeros.any (fun p => bits r p.1 p.2 ≠ 0) ||
    x.code = 0 || badVa x.code 64 || x.sealVa = 0 || badVa x.sealVa 64 ||
    (x.donectr ≠ 0 && badVa x.donectr 8) || (x.maps ≠ 0 && badVa x.maps 128) ||
    x.back = 0 || decide (x.back.toNat % 4096 ≠ 0) ||
    decide (11 < x.prio) || (24 ≤ bits r 107 103 && bits r 107 103 ≤ 30) || x.ncl = 0 ||
    decide (16 < x.nstg * x.wpt) || decide (7 < bits r 163 160) || !pagesOk x.foot || !ctxValid m d x.ctx

/-- The logical clusters that can be resident at once (R33, R185). -/
def clusterCap (d : Dev) : Nat := if d.regs.dies = 3 && !d.regs.part then 24 else 12

/-- Whether a stage set of a launch fits an empty core (R165, R185). -/
def setFits (d : Dev) (x : Launch) (vcore : Nat) : Bool :=
  fitsEmpty d x.foot (pcore d vcore) && decide ((x.nstg * x.wpt + 3) / 4 * vRegs x.foot.vblk ≤ 512)

/-- Whether every stage set of a launch fits an empty core on which it may be placed (R184, R185). -/
def launchFits (d : Dev) (x : Launch) : Bool :=
  let on := fun (k : Nat) => (List.range x.tpc).all (fun j => setFits d x (8 * k + j))
  if x.clbase = 31 then (List.range 24).any on
  else (List.range (min x.ncl 24)).all (fun i => on ((x.clbase + i) % 24))

/-- NORES (R185). -/
def noRes (d : Dev) (x : Launch) : Bool := !launchFits d x || ((x.cor || x.fo) && decide (clusterCap d < x.ncl))

/-- The entries of an accepted launch and the queues that they go to (R188). -/
def launchEntries (d : Dev) (l : Nat) : List (Nat × Entry) :=
  let x := launchOf d l
  let lcl := fun (i : Nat) => (x.clbase + i) % 24
  if x.cor || x.fo then
    let dies := ((List.range x.ncl).map (fun i => dieOf d (lcl i))).eraseDups
    let die := match dies with
      | [k] => if x.clbase = 31 then dieOf d 0 else k
      | _ => dieOf d 0
    [(queueIdx die x.prio, { work := .whole l, hint := x.hint })]
  else (List.range x.ncl).map (fun i =>
    let die := if x.clbase = 31 then (if clusterCap d = 24 then i % 2 else dieOf d 0) else dieOf d (lcl i)
    (queueIdx die x.prio, { work := .cluster l i, hint := x.hint }))

/-- The launch of the record in a slot is accepted: its entries are pushed. A launch of a broken context ends at once
(R208). -/
def accept (m : Memory) (d : Dev) (x : Launch) : Dev :=
  let l := d.launches.length
  let d1 := { d with launches := d.launches ++ [x] }
  if (ctxOf d1 x.ctx).broken then failLaunch m d1 l 0x08
  else (launchEntries d1 l).foldl (fun d q => pushEntry d q.1 q.2) d1

/-- The trigger of a slot (R180, R181, R183). -/
def execLaunchTrigger (slot : Nat) (s : State) : Out :=
  runEvent (fun m d =>
    let r := slotBits d slot
    let x := launchFrom d slot r
    if d.regs.stage ≠ 5 ∨ x.seq = 0 then d
    else if x.seq ≤ look 0 d.slotSeq slot then writeJournal d slot x.seq x.ctx 0x04 false
    else
      let d1 := { d with slotSeq := put 0 d.slotSeq slot x.seq }
      if badLaunch m d1 r then writeJournal d1 slot x.seq x.ctx 0x03 false
      else if noRes d1 x then writeJournal d1 slot x.seq x.ctx 0x02 false
      else accept m (writeJournal d1 slot x.seq x.ctx 0x00 false) x) s

/-! ### The end of a launch (R194). -/

/-- The waves of a launch. -/
def launchWaves (d : Dev) (l : Nat) : List Nat := (List.range d.waves.length).filter (fun w => (waveOf d w).launch == l)

/-- Whether a launch has nothing left to run: no entry, no live wave, no engine operation, no signal of one on its way; and, with a counter to add to, no
write to a peer that has not performed, for the addition is a `.sys` release (R115, R194). -/
def launchIdle (d : Dev) (l : Nat) : Bool :=
  let x := launchOf d l
  x.pending == 0 && d.signals.all (fun g => (waveOf d g.wave).launch ≠ l) && (launchWaves d l).all (fun w =>
    !(waveOf d w).live && (waveOf d w).held.isEmpty && enginesDone d w && (x.donectr == 0 || (waveOf d w).posted.isEmpty))

/-- The cause that stops the addition to DONECTR, or the word's key (R194). -/
def doneKey (m : Memory) (d : Dev) (x : Launch) : Except (BitVec 8) (Option Nat × Dev) :=
  match walkVa m d (dieOf d 0) x.ctx x.donectr.toNat .readWrite with
  | .error t => .error t.cause
  | .ok (l, d1) =>
    match l.tgt with
    | 0 =>
      if d1.poison.contains (lineNo l.pa) then .error cPOISON
      else if (mappedAt d1 l.pa).isSome then .error cPERM
      else .ok (some l.pa, d1)
    | 1 => if d1.poison.contains (lineNo (hostKey + l.pa)) then .error cPOISON else .ok (some (hostKey + l.pa), d1)
    | _ => .ok (none, d1)

/-- Add 1 to DONECTR, as a `.sys` release of every write of the launch, those that still stand in cluster units included
(R114), or report that it cannot be made (R194). -/
def addDone (m : Memory) (d0 : Dev) (l : Nat) (x : Launch) : Dev :=
  let d := (launchWaves d0 l).foldl (drainGrants · · .sys) d0
  if x.donectr = 0 then d
  else match doneKey m d x with
    | .error c =>
      writeRecord m d x.ctx (recordWords d x.ctx none 0 0 { cause := cDONECTRFAULT, sub := c, addr := x.donectr } {})
    | .ok (some k, d1) => addOne m d1 0 k d1.maxWts
    | .ok (none, d1) => d1

/-- A launch ends (R194): its allocations, its end entry, its counter. -/
def endLaunch (m : Memory) (d : Dev) (l : Nat) : Dev :=
  let x := launchOf d l
  if x.ended || !launchIdle d l then d
  else
    let cs := (List.range d.clusters.length).filter (fun k => (clusterOf d k).launch == l)
    let d1 := cs.foldl (settleCluster m) d
    let d2 := writeJournal (setLaunch d1 l { x with ended := true }) x.slot x.seq x.ctx (x.status.getD 0x01) true
    addDone m d2 l x

def execLaunchEnd (l : Nat) (s : State) : Out := runEvent (fun m d => endLaunch m d l) s

end Sys2Proof.Machine
end

