-- ==== Sys2Proof/Machine/External.lean ====
section
/-!
DEFINITION. What comes from outside the device: register writes and the commands they carry (spec/24_host_and_fabric.md
R365, spec/02_address_spaces.md R29, R30, spec/12_traps_preemption.md R202), the host over CXL (spec/07_model_far.md R121,
R122, spec/24 R363, R364), and what arrives from peers (spec/07 R123).
-/
namespace Sys2Proof.Machine

/-! ### Register writes (R10, R365). -/

/-- Events take place before everything else, in their order. -/
def first (d : Dev) (es : List Instr) : Dev := { d with agenda := es.map .event ++ d.agenda }

/-- The event of a write to XINVC (R29). -/
def xinvEvent (v : W64) : Instr :=
  let ctx := BitVec.ofNat 16 (bits v 63 48)
  match bits v 1 0 with
  | 0 => .xinvPage ctx (BitVec.ofNat 3 (bits v 34 32))
  | 1 => .xinvContext ctx
  | 2 => .xinvAllContexts
  | _ => .xinvReserved

/-- The event of a write to TRCMD (R202). -/
def trcmdEvent (v : W64) : Instr :=
  let ctx := BitVec.ofNat 16 (bits v 63 48)
  let held : HeldId :=
    ⟨ctx, BitVec.ofNat 8 (bits v 47 40), BitVec.ofNat 4 (bits v 39 36), BitVec.ofNat 2 (bits v 35 34)⟩
  match bits v 2 0 with
  | 0 => .releaseEpisode ctx
  | 1 => .releaseAllEpisodes ctx
  | 2 => .resumeAtTpc held
  | 3 => .resumePastTpc held
  | 4 => .abortLaunch held
  | _ => .trcmdInvalid

/-- The event of a doorbell (R376); none for a command code outside the table. -/
def doorEvent (v : W64) : Option Instr :=
  let tag := BitVec.ofNat 32 (bits v 63 32)
  let len := BitVec.ofNat 16 (bits v 31 16)
  match bits v 15 0 with
  | 1 => some (.loadfw tag len)
  | 2 => some (.attest tag len)
  | 3 => some (.dieoff tag len)
  | 4 => some (.dieon tag len)
  | 5 => some (.relread tag len)
  | 6 => some (.logread tag len)
  | 7 => some (.route tag len)
  | 8 => some (.reset tag len)
  | _ => none

/-- A command that completes as it is taken (R367): a LEN above 2,048, or a code outside the table, which is not admitted
below stage 5 and is a bad argument at it (DEDUCED, log 43). -/
def answerAtOnce (d : Dev) (tag : BitVec 32) (result : BitVec 16) : Dev :=
  { d with regs := { d.regs with mbTag := tag, mbResult := result, mbDone := true } }

/-- A write to MBDOOR (R367). -/
def writeDoor (d : Dev) (v : W64) : Dev :=
  match doorEvent v with
  | some e => first d [e]
  | none =>
    if d.regs.mbBusy.isSome then { d with regs := { d.regs with mbOvr := true } }
    else if 2048 < bits v 31 16 then answerAtOnce d (BitVec.ofNat 32 (bits v 63 32)) 0xFFFF
    else answerAtOnce d (BitVec.ofNat 32 (bits v 63 32)) (if d.regs.stage = 5 then 5 else 6)

/-- A write to MBSTAT clears OVR and DONE where it writes 1 (R367). -/
def writeMbStat (d : Dev) (v : W64) : Dev :=
  { d with regs := { d.regs with mbOvr := d.regs.mbOvr && !v.getLsbD 2, mbDone := d.regs.mbDone && !v.getLsbD 1 } }

/-- A write to MBDATA, ignored while a command runs (R367). -/
def writeMbData (d : Dev) (off n : Nat) (v : W64) : Dev :=
  if d.regs.mbBusy.isSome then d
  else { d with regs := { d.regs with
    mbData := (List.range n).foldl (fun t i => put 0 t (off + i) ((v >>> (8 * i)).setWidth 8)) d.regs.mbData } }

/-- The bits of a 64-bit register that an access writes (R365). -/
def writeMask (off n : Nat) : W64 := w64 ((2 ^ (8 * n) - 1) * 2 ^ (8 * (off % 8)))

/-- A register with the written bits of its fields `fields` replaced. -/
def mergeReg (old v mask fields : W64) : W64 := (old &&& ~~~(mask &&& fields)) ||| (v &&& mask &&& fields)

/-- Bits [hi:lo]. -/
def fieldMask (hi lo : Nat) : W64 := w64 (2 ^ (hi + 1) - 2 ^ lo)

/-- What POWER, TEMP and PLIMIT do to PALARM (R381): it is set beyond the limits, and the time since which it might clear runs while
both are low. -/
def judgePower (d : Dev) : Dev :=
  let r := d.regs
  let cool := decide (100 * r.power.toNat < 95 * r.plimit.toNat) && decide (r.temp.toNat < 90 * 16)
  { d with regs := { r with
    palarm := r.palarm || decide (r.plimit < r.power) || decide (95 * 16 < r.temp.toNat)
    coolSince := if cool then some (r.coolSince.getD d.cycle) else none } }

/-- A write that reaches an aligned register, its bits in place and 0 outside the access (R29, R187, R202, R367,
R370, R374). -/
def writeReg (d : Dev) (off : Nat) (v mask : W64) : Dev :=
  let r := d.regs
  if off = 0x020 then
    if mask.getLsbD 32 then judgePower { d with regs := { r with plimit := BitVec.ofNat 16 (min 2400 (max 600 (bits v 47 32))) } } else d
  else if off = 0x800 then writeDoor d v
  else if off = 0x808 then writeMbStat d v
  else if r.stage ≠ 5 then d
  else if off = 0x1000 then writeDoor d v
  else if off = 0x1008 then writeMbStat d v
  else if off = 0x2000 then { d with regs := { r with xinva := mergeReg r.xinva v mask (fieldMask 56 12) } }
  else if off = 0x2008 then first d [xinvEvent v]
  else if off = 0x2010 then
    { d with regs := { r with xinvErr := r.xinvErr && !v.getLsbD 2, xinvOvf := r.xinvOvf && !v.getLsbD 1 } }
  else if off = 0x3000 then { d with regs := { r with ctxt := mergeReg r.ctxt v mask (fieldMask 55 12) } }
  else if off = 0x3008 then
    if mask.getLsbD 0 then
      { d with regs := { r with bypass := BitVec.ofNat 4 (bits v 15 12), swapk := BitVec.ofNat 5 (min 24 (max 10 (bits v 9 5))) } }
    else d
  else if off = 0x4000 then { d with regs := { r with trva := mergeReg r.trva v mask (fieldMask 56 12) } }
  else if off = 0x4008 then first d [trcmdEvent v]
  else if off = 0x4010 then { d with regs := { r with trErr := r.trErr && !v.getLsbD 0 } }
  else if 0x5080 ≤ off && off < 0x5100 then
    first d (((List.range 64).filter v.getLsbD).map (fun i => .pdownClear ((off - 0x5080) * 8 + i)))
  else d

/-- A write of the register space: 4 or 8 bytes, naturally aligned; any other is ignored (R365). A command register takes
0 in the half that a 4-byte write leaves out (DESIGN CHOICE, log 43). -/
def regWrite (d : Dev) (off n : Nat) (val : W64) : Dev :=
  if (n = 4 ∨ n = 8) ∧ off % n = 0 then
    let mask := writeMask off n
    let v := (val <<< (8 * (off % 8))) &&& mask
    if 0xC00 ≤ off ∧ off < 0x1000 then writeMbData d (off - 0xC00) n val
    else if d.regs.stage = 5 ∧ 0x1800 ≤ off ∧ off < 0x2000 then writeMbData d (off - 0x1800) n val
    else writeReg d (off / 8 * 8) v mask
  else d

def execRegisterWrite (off size : Nat) (val : BitVec 64) (s : State) : Out :=
  runEvent (fun _ d => regWrite d off size val) s

/-! ### Invalidation of translations (R29, R30). -/

/-- Queue a request; the ninth is dropped. -/
def queueXinv (d : Dev) (x : Xinv) : Dev :=
  if 8 ≤ d.regs.xinvq.length then { d with regs := { d.regs with xinvOvf := true } }
  else { d with regs := { d.regs with xinvq := d.regs.xinvq ++ [x] } }

def execXinvPage (ctx : BitVec 16) (sz : BitVec 3) (s : State) : Out :=
  runEvent (fun _ d => queueXinv d (.page ctx sz d.regs.xinva)) s
def execXinvContext (ctx : BitVec 16) (s : State) : Out := runEvent (fun _ d => queueXinv d (.context ctx)) s
def execXinvAllContexts (s : State) : Out := runEvent (fun _ d => queueXinv d .all) s

/-- KIND 3 does nothing, completes and sets ERR (R30); with the queue full it is dropped like any other (DEDUCED, log 43). -/
def execXinvReserved (s : State) : Out :=
  runEvent (fun _ d =>
    if 8 ≤ d.regs.xinvq.length then { d with regs := { d.regs with xinvOvf := true, xinvErr := true } }
    else { d with regs := { d.regs with xinvErr := true, xinvSeq := d.regs.xinvSeq + 1 } }) s

/-- Whether a TLB entry matches a request (R30). -/
def xinvHits (x : Xinv) (t : Tlb) : Bool :=
  match x with
  | .page ctx sz va =>
    let a := va.toNat / pageBytes sz.toNat * pageBytes sz.toNat
    let b := t.vpn * pageBytes t.sz.toNat
    t.ctx == ctx.toNat && decide (b < a + pageBytes sz.toNat) && decide (a < b + pageBytes t.sz.toNat)
  | .context ctx => t.ctx == ctx.toNat
  | .all => true

/-- Whether an entry of a walk cache matches a request (R30): it serves addresses of the page. -/
def xinvWalks (x : Xinv) (e : WalkEntry) : Bool :=
  match x with
  | .page ctx sz va =>
    let a := va.toNat / pageBytes sz.toNat * pageBytes sz.toNat
    let b := e.part * natural e.lvl
    e.ctx == ctx.toNat && decide (b < a + pageBytes sz.toNat) && decide (a < b + natural e.lvl)
  | .context ctx => e.ctx == ctx.toNat
  | .all => true

/-- The oldest request completes: every entry that it matches is gone from every TLB and walk cache (R30). -/
def execXinvComplete (s : State) : Out :=
  runEvent (fun _ d =>
    match d.regs.xinvq with
    | [] => d
    | x :: r => { d with
        tlb := d.tlb.filter (fun t => !xinvHits x t)
        walks := d.walks.filter (fun e => !xinvWalks x e)
        regs := { d.regs with xinvq := r, xinvSeq := d.regs.xinvSeq + 1 } }) s

/-! ### Trap commands (R202). -/

/-- A command completes. -/
def trDone (d : Dev) (err : Bool) : Dev :=
  { d with regs := { d.regs with trSeq := d.regs.trSeq + 1, trErr := d.regs.trErr || err } }

/-- A split that was parked by an episode executes its instruction again (R201). -/
def unreplay (q : Split) : Split :=
  { q with park := if q.park = .replay then .running else q.park, after := if q.after = .replay then .running else q.after }

/-- Release some episodes: their waves go on (R28, R202). -/
def releaseIf (d : Dev) (p : Episode → Bool) : Dev :=
  let ws := (d.episodes.filter p).flatMap (·.waves)
  let d1 := { d with episodes := d.episodes.filter (fun e => !p e) }
  ws.foldl (fun d w =>
    let x := waveOf d w
    setWave d w { x with splits := x.splits.map unreplay }) d1

def execReleaseEpisode (ctx : BitVec 16) (s : State) : Out :=
  runEvent (fun _ d =>
    let va := d.regs.trva.toNat
    trDone (releaseIf d (fun e => e.ctx == ctx.toNat && decide (e.base ≤ va) && decide (va < e.base + e.size))) false) s
def execReleaseAllEpisodes (ctx : BitVec 16) (s : State) : Out :=
  runEvent (fun _ d => trDone (releaseIf d (fun e => e.ctx == ctx.toNat)) false) s

/-- The held split that a command names. -/
def heldSplit (d : Dev) (t : HeldId) : Option (Nat × Nat) :=
  (allSplits d).find? (fun p =>
    let x := waveOf d p.1
    x.live && x.ctx == t.ctx.toNat && vcoreOf d x == t.vcore.toNat && x.widx == t.wave.toNat &&
      (splitOf x p.2).mask ≠ 0 && (splitOf x p.2).park == .held && ordOf x p.2 == t.split.toNat)

/-- The faulted copy of the COPY trap for which a split is held (R199, R326). -/
def heldCopy (d : Dev) (p : Nat × Nat) : Option Nat :=
  match (splitOf (waveOf d p.1) p.2).heldTrap with
  | some t => if t.cause = cCOPY then faultedCopy d p.1 (bits t.info0 12 7) else none
  | none => none

/-- The split goes on. -/
def unhold (d : Dev) (p : Nat × Nat) : Dev :=
  modSplit d p.1 p.2 (fun q => { q with park := .running, heldTrap := none, heldAsync := false })

/-- Resume at TPC; a faulted copy retries (R202, R326). -/
def execResumeAtTpc (t : HeldId) (s : State) : Out :=
  runEvent (fun _ d =>
    match heldSplit d t with
    | none => trDone d true
    | some p => trDone (unhold ((heldCopy d p).elim d (retryCopy d)) p) false) s

/-- The word at a split's PC counts as retired and writes nothing, as `tret.skip` (R200, R202). A word that cannot be
fetched has no stall count (DEDUCED, log 43). -/
def skipAt (m : Memory) (d : Dev) (p : Nat × Nat) : Dev :=
  let old := d.cur
  let d1 := { d with cur := p }
  let w : W64 := match runAct (fetchWord (mySplit d1).pc) m d1 with
    | .ok (w, _) => w
    | .error _ => 0
  { skipWord d1 w with cur := old }

/-- Resume past TPC: the faulted copy of a COPY trap skips its element; a synchronous trap's word is skipped (R200, R202,
R326). -/
def execResumePastTpc (t : HeldId) (s : State) : Out :=
  runEvent (fun m d =>
    match heldSplit d t with
    | none => trDone d true
    | some p =>
      let q := splitOf (waveOf d p.1) p.2
      let d1 := unhold ((heldCopy d p).elim d (skipCopy d)) p
      trDone (if q.heldAsync || q.entering then d1 else skipAt m d1 p) false) s

/-- End the split's launch with ABORTED (R202). -/
def execAbortLaunch (t : HeldId) (s : State) : Out :=
  runEvent (fun m d =>
    match heldSplit d t with
    | none => trDone d true
    | some p => trDone (failLaunch m d (waveOf d p.1).launch 0x09) false) s

def execTrcmdInvalid (s : State) : Out := runEvent (fun _ d => trDone d true) s

/-- Software clears a DOWN bit; one that was set in the same cycle stays set (R371). -/
def execPdownClear (peer : Nat) (s : State) : Out :=
  runEvent (fun _ d =>
    if look 0 d.regs.pdownAt peer = d.cycle + 1 then d
    else { d with regs := { d.regs with pdown := put false d.regs.pdown peer false } }) s

/-! ### Device memory as outside agents reach it (R49, R121 to R123). -/

/-- The parts of a range that lie in one line each, as first key and count. -/
def linePieces (k n : Nat) : List (Nat × Nat) :=
  ((List.range ((k % 64 + n + 63) / 64)).map (fun i =>
    let a := max k ((k / 64 + i) * 64)
    (a, min (k + n) ((k / 64 + i + 1) * 64) - a))).filter (fun p => p.2 ≠ 0)

/-- A mapped page of a range whose fill the access has to wait for (R49). -/
def fillingIn (d : Dev) (k n : Nat) : Option (Nat × Nat) :=
  (linePieces k n).findSome? (fun p => (mappedAt d p.1).bind (fun q =>
    if (pageOf d q.1 q.2).st = .filling then some q else none))

/-- Bring a mapped non-resident page's log to its backing before an access of an outside agent (R49). -/
def settleMapped (m : Memory) (d : Dev) (k : Nat) : Dev :=
  match mappedAt d k with
  | some (t, pi) => if (pageOf d t pi).st = .nonResident then logToBacking m d t pi true else d
  | none => d

/-- The page whose store serves a byte (R49). -/
def storeAt (d : Dev) (k : Nat) : Option (Nat × Nat) :=
  (mappedAt d k).bind (fun q => if (pageOf d q.1 q.2).st = .nonResident then none else some q)

/-- Read a part of one line: from the store of a page mapped there, or at the home; the answer says whether it holds an
uncorrectable error. `host` says that the host may keep a copy (R121). -/
def readPiece (m : Memory) (host : Bool) (r : Dev × List Byte × Bool) (p : Nat × Nat) : Dev × List Byte × Bool :=
  let d := settleMapped m r.1 p.1
  match storeAt d p.1 with
  | some (t, pi) =>
    let g := pageOf d t pi
    let off := p.1 % 4096
    (modLine d (lineNo p.1) (fun l => { l with hostCopy := l.hostCopy || host }), r.2.1 ++ pageBytesAt g off p.2, r.2.2 || (List.range p.2).any (fun i => g.poison.getLsbD (granOf (off + i))))
  | none =>
    let d1 := modLine (recallLine d (lineNo p.1)) (lineNo p.1) (fun l => { l with hostCopy := l.hostCopy || host })
    (d1, r.2.1 ++ rdBytes m d1 p.1 p.2, r.2.2 || d1.poison.contains (lineNo p.1))

def readOutside (m : Memory) (d : Dev) (host : Bool) (k n : Nat) : Dev × List Byte × Bool :=
  (linePieces k n).foldl (readPiece m host) (d, [], false)

/-- A write from outside takes its stamp at the home and raises XSTAMP; one that touches bytes 0 to 7 is a `.sys` release on
the line (R116, R122, R123). -/
def externalStamp (d : Dev) (k : Nat) : Dev :=
  let n := lineNo k
  let d1 := { d with xstamp := max d.xstamp (lineOf d n).wts }
  if k % 64 < 8 then releaseStamps d1 n .sys none d1.xstamp else d1

/-- Whether an outside agent may write some bytes of a line (R49, R126): those of a registered page only where RW allows it, and
none of a replica. -/
def outsideWrites (d : Dev) (p : Nat × Nat) : Bool :=
  (mappedAt d p.1).all (fun q =>
    let g := pageOf d q.1 q.2
    g.mapped.any (·.rw) && !inReplica (setOf d q.1) g.store (g.idx * 4096 + p.1 % 4096) p.2)

/-- Write a part of one line; one that is not allowed is refused (R49, R126). -/
def writePiece (m : Memory) (bs : List Byte) (k0 : Nat) (d : Dev) (p : Nat × Nat) : Dev :=
  let part := (bs.drop (p.1 - k0)).take p.2
  if !outsideWrites d p then d
  else
    let d1 := settleMapped m d p.1
    match storeAt d1 p.1 with
    | some (t, pi) =>
      externalStamp (stampWrite m (modPage d1 t pi (fun g => pagePut g (p.1 % 4096) part)) whoEngine p.1 part) p.1
    | none => externalStamp (homeWrite m (recallLine d1 (lineNo p.1)) whoEngine p.1 part) p.1

def writeOutside (m : Memory) (d : Dev) (k : Nat) (bs : List Byte) : Dev :=
  (linePieces k bs.length).foldl (writePiece m bs k) d

/-- An access that waits for a fill takes place after it. -/
def afterFill (d : Dev) (q : Nat × Nat) (e : Instr) : Dev :=
  { d with agenda := d.agenda ++ [.event (.fillComplete q.1 q.2), .event e] }

/-! ### The host's range (R364, R373). -/

/-- Where the launch window and the journal begin, and where they end. -/
def windowBase : Nat := 0xC000000000
def journalBase : Nat := 0xC000400000
def journalEnd : Nat := 0xC000420000

/-- A byte of the range past device memory; below stage 5 it reads zero. -/
def rangeByte (d : Dev) (a : Nat) : Byte :=
  if d.regs.stage ≠ 5 then 0
  else if windowBase ≤ a ∧ a < journalBase then look 0 d.window (a - windowBase)
  else if journalBase ≤ a ∧ a < journalEnd then
    match d.journal.find? (fun e => e.idx % journalSize == (a - journalBase) / 32) with
    | some e => nth (journalBytes e) ((a - journalBase) % 32) 0
    | none => 0
  else 0

/-- The host reads over CXL.mem: the current version at the home (R121), with poison for a line that holds an
uncorrectable error (R363). -/
def execHostRead (addr n : Nat) (s : State) : Out :=
  runEvent (fun m d =>
    if addr + n ≤ deviceBytes then
      match fillingIn d addr n with
      | some q => afterFill d q (.hostRead addr n)
      | none =>
        let r := readOutside m d true addr n
        { r.1 with hostResp := r.2.1, hostPoison := r.2.2 }
    else { d with hostResp := (List.range n).map (fun i => rangeByte d (addr + i)), hostPoison := false }) s

/-- Write the launch window; at stage 5 the last byte of a slot triggers its record (R180, R181, R373). -/
def writeWindow (d : Dev) (off : Nat) (bs : List Byte) : Dev :=
  let d1 := { d with window := bs.zipIdx.foldl (fun t b => put 0 t (off + b.2) b.1) d.window }
  let hit := (List.range bs.length).filter (fun i => (off + i) % 256 = 255)
  if d.regs.stage = 5 then first d1 (hit.map (fun i => .launchTrigger ((off + i) / 256))) else d1

/-- The host writes over CXL.mem (R121, R122, R364). -/
def execHostWrite (addr : Nat) (data : List (BitVec 8)) (s : State) : Out :=
  runEvent (fun m d =>
    if addr + data.length ≤ deviceBytes then
      match fillingIn d addr data.length with
      | some q => afterFill d q (.hostWrite addr data)
      | none => writeOutside m d addr data
    else if windowBase ≤ addr ∧ addr + data.length ≤ journalBase then writeWindow d (addr - windowBase) data
    else d) s

/-- The host writes its own memory: the snoop takes the lines from die 0's L2, and wakes what watches them (R121, R128,
R129). -/
def execCxlSnoop (addr : Nat) (data : List (BitVec 8)) (s : State) : Out :=
  runEvent (fun _ d =>
    let k := hostKey + addr
    (linePieces k data.length).foldl (fun d p =>
      let n := lineNo p.1
      let d1 := modLine d n (fun l => { l with wts := l.wts + 1, inL2 := false })
      wakeMonitors (clearReservations d1 n) n 0) (wrBytes d k data)) s

/-! ### Peers (R123). -/

/-- A posted write of a peer arrives. -/
def execPeerWriteArrival (peer addr : Nat) (data : List (BitVec 8)) (s : State) : Out :=
  runEvent (fun m d =>
    if addr + data.length ≤ deviceBytes then
      match fillingIn d addr data.length with
      | some q => afterFill d q (.peerWriteArrival peer addr data)
      | none => writeOutside m d addr data
    else d) s

/-- What a peer's request is about: bytes, and what it makes of the value there (none for a read). -/
def peerWork : PeerReq → Nat × Option (W64 → W64)
  | .read n => (n, none)
  | .atomic op t v => (tyBytes (ty t), some (fun x => atomVal op.toNat (ty t) x v))
  | .compareSwap t new cmp =>
    let n := tyBytes (ty t)
    (n, some (fun x => if x.toNat % 2 ^ (8 * n) = cmp.toNat % 2 ^ (8 * n) then new else x))
  | .red op t v => (tyBytes (ty t), some (fun x => atomVal op.toNat (ty t) x v))
  | .count v => (8, some (fun x => x + v))

/-- Whether a request is the addition of a version counter, which a peer's push makes (R152, R331, R369). -/
def addsCount : PeerReq → Option W64
  | .count v => some v
  | _ => none

/-- Whether a request is answered (R369). -/
def answered : PeerReq → Bool
  | .read _ | .atomic _ _ _ | .compareSwap _ _ _ => true
  | .red _ _ _ | .count _ => false

/-- A request of a peer, performed at the home; its answer is the value before it. An atomic on a mapped page is not performed
(R49). -/
def execPeerRequestArrival (peer addr : Nat) (rq : PeerReq) (s : State) : Out :=
  runEvent (fun m d =>
    let (n, f) := peerWork rq
    let answer := fun (d : Dev) (bs : List Byte) (bad : Bool) =>
      if answered rq then { d with hostResp := bs, hostPoison := bad } else d
    if deviceBytes < addr + n then answer d (List.replicate n 0) false
    else match fillingIn d addr n with
    | some q => afterFill d q (.peerRequestArrival peer addr rq)
    | none =>
      let r := readOutside m d false addr n
      let d1 := answer r.1 r.2.1 r.2.2
      match f with
      | none => d1
      | some f =>
        if addr % n ≠ 0 ∨ (mappedAt d1 addr).isSome ∨ d1.poison.contains (lineNo addr) then d1
        else match addsCount rq with
        | some v =>
          let d2 := counterAdd m d1 whoEngine addr v d1.xstamp true
          { d2 with xstamp := max d2.xstamp (lineOf d2 (lineNo addr)).wts }
        | none => externalStamp (homeWrite m d1 whoEngine addr (leBytes n (f (leWord r.2.1)))) addr) s

end Sys2Proof.Machine
end

