-- ==== Sys2Proof/Machine/Fabric.lean ====
section
/-!
DEFINITION. The links and ports of the Waggle fabric (spec/24_host_and_fabric.md R368 to R371), and what peers answer
(spec/07_model_far.md R124, R125).
-/
namespace Sys2Proof.Machine

/-- The state of a port (R370). -/
def portState (d : Dev) (p : Nat) : BitVec 4 := look 0 d.regs.pstate p
def setPort (d : Dev) (p : Nat) (x : BitVec 4) : Dev := { d with regs := { d.regs with pstate := put 0 d.regs.pstate p x } }

/-- The peers whose traffic uses a port (R368). -/
def portPeers (d : Dev) (port : Nat) : List Nat := (d.regs.routes.filter (fun r => r.2 == some port)).map (·.1)

/-- The writes to a peer that copies of a wave have sent and that have not been acknowledged. -/
def copiesPosted (d : Dev) (w p : Nat) : Nat :=
  (d.copies.filter (fun c => c.wave == w)).foldl (fun n c => n + look 0 c.posted p) 0

/-- Writes to peers that were not acknowledged, those of the wave's copies included, are lost (R115, R124). -/
def losePosted (d : Dev) (ps : List Nat) (w : Nat) (x : Wave) : Wave :=
  ps.foldl (fun x p => { x with
    lost := put 0 x.lost p (look 0 x.lost p + look 0 x.posted p + copiesPosted d w p)
    posted := put 0 x.posted p 0 }) x

/-- A fence that waits for acknowledgements goes on when none is outstanding (R124). -/
def wakeAck (x : Wave) : Wave :=
  if x.posted.isEmpty then
    { x with splits := x.splits.map (fun s => if s.park = .ack then { s with park := .running } else s) }
  else x

/-- An access that waits for the answer of a peer that is down issues again, and meets the trap of R125. -/
def downAgain (ps : List Nat) (s : Split) : Split :=
  match s.park with
  | .peer n => if ps.contains (n / 2) then { s with park := .running, peerLost := n % 2 == 1 } else s
  | _ => s

/-- The splits that wait for the answers of some peers. -/
def awaiting (d : Dev) (ps : List Nat) : List (Nat × Nat) :=
  (allSplits d).filter (fun p => match (splitOf (waveOf d p.1) p.2).park with
    | .peer n => ps.contains (n / 2)
    | _ => false)

/-- A port goes down (R371): its peers are declared down, their unacknowledged writes are lost, and the accesses that wait
for them trap before anything else moves. Locks whose break waited for such writes are broken (R145). -/
def portFails (m : Memory) (d : Dev) (port : Nat) : Dev :=
  let ps := portPeers d port
  let who := awaiting d ps
  let d1 := setPort d port 0
  let d2 := { d1 with
    regs := { d1.regs with
      pdown := ps.foldl (fun t p => put false t p true) d1.regs.pdown
      pdownAt := ps.foldl (fun t p => put 0 t p (d.cycle + 1)) d1.regs.pdownAt }
    waves := d1.waves.mapIdx (fun w x =>
      let y := wakeAck (losePosted d ps w x)
      { y with splits := y.splits.map (downAgain ps) })
    copies := d1.copies.map (fun c => { c with posted := ps.foldl (fun t p => put 0 t p 0) c.posted })
    sent := d1.sent.filter (fun s => !ps.contains s.peer)
    agenda := who.map (fun p => .issue p.1 p.2) ++ d1.agenda }
  (List.range d2.waves.length).foldl (lateBreaks m) d2

/-- A reliability record (R376, R379). -/
def noteError (d : Dev) (e : ErrStruct) (lasting : Bool) : Dev :=
  let r : RelRecord := { what := e, time := d.cycle, lasting := lasting }
  { d with reliability := d.reliability ++ [r] }

/-- A flit that fails its CRC is replayed from the sender's buffer (R368), so that no traffic changes; it is a detected error that
did not reproduce (R379). -/
def execFlitCrcFail (port : Nat) (s : State) : Out :=
  runEvent (fun _ d =>
    noteError { d with regs := { d.regs with trans := d.regs.trans + 1 } } (.linkLane port) false) s

/-- A port trains (R370), or starts retraining (R371): from now on it has the bound of a retrain. -/
def train (d : Dev) (port : Nat) (st : BitVec 4) : Dev :=
  let d1 := setPort d port st
  { d1 with regs := { d1.regs with retrainStart := put 0 d1.regs.retrainStart port d1.cycle } }
def startRetrain (d : Dev) (port : Nat) : Dev :=
  if portState d port = 2 ∨ portState d port = 4 then train d port 3 else d
def execLinkRetrainStart (port : Nat) (s : State) : Out := runEvent (fun _ d => startRetrain d port) s

/-- The bound of a retrain, in cycles (R371). -/
def retrainBound : Nat := 72000
def retrainLate (d : Dev) (port : Nat) : Bool := decide (look 0 d.regs.retrainStart port + retrainBound < d.cycle)

/-- Whether a port is training or retraining (R370). -/
def inTraining (d : Dev) (port : Nat) : Bool := portState d port == 1 || portState d port == 3

/-- The count of lasting faults of a structure (R379): cores by cluster, columns by core, rows and channels by the region
of their line (log 71), lanes by port. -/
def faultKey : ErrStruct → Nat
  | .core phys => 8 * coreCluster phys
  | .arrayColumn core => 8 * core + 1
  | .l2Way slice => 8 * slice + 2
  | .hbmRow line => regionKey line
  | .linkLane port => 8 * port + 4
  | .headCache _ _ _ _ | .joinCounter _ _ | .logSlot _ _ => 5

/-- The lanes of a port that have failed for good (R379). -/
def deadLanes (d : Dev) (port : Nat) : Nat := look 0 d.lastingAt (faultKey (.linkLane port))

/-- The state of a port whose training has ended (R370, R371): up, up on the spare lane when it has taken it, as it does once a lane
has failed, or down when a second lane has failed (R379). -/
def trained (d : Dev) (port : Nat) (spare : Bool) : BitVec 4 :=
  if 2 ≤ deadLanes d port then 0 else if spare || deadLanes d port = 1 then 4 else 2

/-- A port's training, or a retrain within the bound, completes (R370, R371); `spare` says that it took the spare lane. -/
def execLinkRetrainComplete (port : Nat) (spare : Bool) (s : State) : Out :=
  runEvent (fun _ d =>
    if inTraining d port && !retrainLate d port then setPort d port (trained d port spare) else d) s

/-- A retrain has not completed within the bound (R371). -/
def execPortDown (port : Nat) (s : State) : Out :=
  runEvent (fun m d => if inTraining d port && retrainLate d port then portFails m d port else d) s

/-- The answer of a peer to the lanes of an access; a value that it does not supply is free (log 9). -/
def answerRow (peer : Nat) (data : List (BitVec 64)) : Row :=
  (List.range 64).foldl (fun r i =>
    put 0 r i (nth data i (leWord ((List.range 8).map (fun j => Config.peerByte peer (8 * i + j)))))) []

/-- Whether an entry travels as a posted write, and not as a request (R369). -/
def isPost (s : Sent) : Bool :=
  match s.who with
  | .write _ | .copy _ => true
  | .request _ _ => false

/-- The wave of an entry. -/
def sentBy (d : Dev) (s : Sent) : Nat :=
  match s.who with
  | .write w | .request w _ => w
  | .copy i => (copyAt d i).elim d.waves.length (·.wave)

/-- What a peer acknowledges next: the oldest of the posted writes to it and the oldest of the requests, for each of the two channels
delivers in the order sent (R123, R369). -/
def sentHeads (d : Dev) (peer : Nat) : List Sent :=
  let mine := d.sent.filter (fun s => s.peer == peer)
  ((mine.find? isPost).toList ++ (mine.find? (fun s => !isPost s)).toList)

/-- The peer acknowledges an entry: a posted write of the wave or of a copy of it, or at its link layer a request (R115, R124,
R125). -/
def acknowledge (m : Memory) (d0 : Dev) (s : Sent) : Dev :=
  let d := { d0 with sent := d0.sent.erase s }
  match s.who with
  | .write w =>
    let x := waveOf d w
    lateBreaks m (setWave d w (wakeAck { x with posted := put 0 x.posted s.peer (look 0 x.posted s.peer - 1) })) w
  | .copy i =>
    match copyAt d i with
    | some c => setCopy d i { c with posted := put 0 c.posted s.peer (look 0 c.posted s.peer - 1) }
    | none => d
  | .request w sp =>
    if (splitOf (waveOf d w) sp).park = .peer (2 * s.peer) then modSplit d w sp (fun q => { q with park := .peer (2 * s.peer + 1) })
    else d

/-- A peer acknowledges what a wave has sent; where the heads of both channels are its own, which of them is free (log 1). -/
def peerTakes (m : Memory) (d : Dev) (w peer : Nat) : Dev :=
  let hs := (sentHeads d peer).filter (fun s => sentBy d s == w)
  match hs[Config.freeChoice d.tick / 2 ^ 20 % hs.length]? with
  | some s => acknowledge m d s
  | none => d

/-- The peer answers the request of a wave that its link layer has acknowledged, or is to acknowledge next (R125, R369). -/
def peerAnswers (m : Memory) (d : Dev) (w peer : Nat) (data : List (BitVec 64)) : Dev :=
  let d1 := ((sentHeads d peer).filter (fun s => !isPost s && sentBy d s == w)).foldl (acknowledge m) d
  match (awaiting d1 [peer]).find? (fun p => p.1 == w && (splitOf (waveOf d1 p.1) p.2).park == .peer (2 * peer + 1)) with
  | some p => modSplit d1 w p.2 (fun s => { s with park := .running, ans := some (answerRow peer data) })
  | none => d

def execPeerAcknowledgement (w peer : Nat) (data : List (BitVec 64)) (s : State) : Out :=
  runEvent (fun m d =>
    if !linkOpen d peer then d else if data.isEmpty then peerTakes m d w peer else peerAnswers m d w peer data) s

end Sys2Proof.Machine
end

