-- ==== Sys2Proof/Machine/Lanes.lean ====
section
/-!
DEFINITION. Lane operations: major 0x14 (spec/14_isa_compute.md R251 to R253).
-/
namespace Sys2Proof.Machine

/-- The lane that a lane of a segment reads (R251). -/
def shflLane (mode n l k : Nat) : Nat :=
  let w := 2 ^ n
  let base := l - l % w
  let j := l % w
  let k := k % w
  match mode with
  | 0 => base + k
  | 1 => base + (j + k) % w
  | 2 => base + (j ^^^ k)
  | _ => base + (w - 1 - j)

/-- The active lanes, the values and the lane numbers of `shfl` and `bcast`, taken in field order. -/
def takeS (h : Head) (f : FmtX) : Act (W32 × Src × Src) := do
  let m ← acting h true
  let a ← takeSrc (ty f.ty) m f.a
  let b ← takeSrc .n32 m f.b
  pure (m, a, b)

/-- What a lane takes from another, which is 0 when that lane is not active (R251, R252). -/
def fromLane (d : Dev) (t : Ty) (m : W32) (a : Src) (n : Nat) : W64 :=
  if n < 32 ∧ m.getLsbD n then valX (me d) (mySplit d) t a n else 0

def execShfl (h : Head) (f : FmtX) (s : State) : Out :=
  runX (.shfl h f) h (codesX f) (do
    let t := ty f.ty
    let q ← takeS h f
    let d ← dev
    putX t (latX 8 [t]) q.1 f.d (fun l => fromLane d t q.1 q.2.1
      (shflLane (bits f.md 1 0) (bits f.md 4 2) l ((valX (me d) (mySplit d) .n32 q.2.2 l).toNat % 32)))
    pure .retire) s

/-- `vote` (R252): AND, OR, parity, majority of the predicate over the active lanes. -/
def voteOf (mode : Nat) (m p : W32) : Bool :=
  let n := (lanesOf m).length
  let k := (lanesOf (m &&& p)).length
  match mode with
  | 0 => k == n
  | 1 => k ≠ 0
  | 2 => k % 2 == 1
  | _ => decide (n < 2 * k)

def execVote (h : Head) (f : FmtX) (s : State) : Out :=
  runX (.vote h f) h (codesX f) (do
    let q ← takeP h f
    putPred true 8 q.1 f.d (fun _ => voteOf (bits f.md 1 0) q.1 q.2.1)
    pure .retire) s

def execBallot (h : Head) (f : FmtX) (s : State) : Out :=
  runX (.ballot h f) h (codesX f) (do
    let q ← takeP h f
    putX .n32 8 q.1 f.d (fun _ => (q.1 &&& q.2.1).setWidth 64)
    pure .retire) s

def execBcast (h : Head) (f : FmtX) (s : State) : Out :=
  runX (.bcast h f) h (codesX f) (do
    let t := ty f.ty
    let q ← takeS h f
    let d ← dev
    let n := (valX (me d) (mySplit d) .n32 q.2.2 ((lowLane q.1).getD 0)).toNat
    putX t (latX 8 [t]) q.1 f.d (fun _ => fromLane d t q.1 q.2.1 n)
    pure .retire) s

/-- `lanemask` (R252). -/
def laneMaskOf (mode : Nat) (m : W32) (l : Nat) : W32 :=
  match mode with
  | 5 => m
  | _ => maskOf ((List.range 32).filter (fun i =>
      match mode with
      | 0 => i == l | 1 => decide (i < l) | 2 => decide (i ≤ l) | 3 => decide (l < i) | _ => decide (l ≤ i)))

def execLanemask (h : Head) (f : FmtX) (s : State) : Out :=
  runX (.lanemask h f) h (codesX f) (do
    let m ← acting h true
    putX .n32 8 m f.d (fun l => (laneMaskOf (bits f.md 2 0) m l).setWidth 64)
    pure .retire) s

/-- The identity of a fold (R253). -/
def foldIdent (op : Nat) (t : Ty) : W64 :=
  match op with
  | 1 => intCode t (intRange t).2
  | 2 => intCode t (intRange t).1
  | 3 => onesOf t
  | 6 => exactCode t (fzero true)
  | 7 => exactCode t (.inf false)
  | 8 => exactCode t (.inf true)
  | _ => 0

/-- One step of a fold (R253), rounded with the lane's mode and RSS step for `fadd`. -/
def foldStep (env : LaneEnv) (op : Nat) (t : Ty) (p a : W64) : LaneRes :=
  let dec := fun (x : W64) => decodeF (fmt t) .nan x.toNat
  match op with
  | 0 => plain env (onInts (fun x y _ => x + y) t p a 0)
  | 1 => plain env (onInts (fun x y _ => if x ≤ y then x else y) t p a 0)
  | 2 => plain env (onInts (fun x y _ => if x ≤ y then y else x) t p a 0)
  | 3 => plain env (p &&& a)
  | 4 => plain env (p ||| a)
  | 5 => plain env (p ^^^ a)
  | 6 => let r := fpAdd env.rnd (dec p) (dec a); roundRes env t r.1 false (if r.2 then fINV else 0)
  | 7 => plain env (exactCode t (fpMin (dec p) (dec a)))
  | _ => plain env (exactCode t (fpMax (dec p) (dec a)))

/-- The fold over the lanes in ascending order (R253): the running value, and per lane the result with its flags and
RSS state. -/
def scanGo (op : Nat) (t : Ty) (excl : Bool) (m heads : W32) (envs : Nat → LaneEnv) (a : Nat → W64) :
    List Nat → W64 → W64 × List (Nat × LaneRes)
  | [], p => (p, [])
  | l :: r, p =>
    let p0 := if heads.getLsbD l then foldIdent op t else p
    if m.getLsbD l then
      let q := foldStep (envs l) op t p0 (a l)
      let rest := scanGo op t excl m heads envs a r q.val
      (rest.1, (l, { q with val := if excl then p0 else q.val }) :: rest.2)
    else scanGo op t excl m heads envs a r p0

/-- The active lanes, the values and the segment heads of `wscan` and `wred`, taken in field order; heads count in every
lane (R253). -/
def takeW (h : Head) (f : FmtX) : Act (W32 × Src × W32) := do
  let m ← acting h true
  let a ← takeSrc (ty f.ty) m f.a
  let heads ← takePred true (0xFFFFFFFF#32) f.c
  pure (m, a, heads)

/-- The fold of `wscan` and `wred` at a device: only `fadd` admits rounding, so only it steps the RSS states (R86, R253). -/
def scanOf (d : Dev) (f : FmtX) (q : W32 × Src × W32) : W64 × List (Nat × LaneRes) :=
  let t := ty f.ty
  let op := bits f.md 3 0
  let x := me d
  let r := if op = 6 then roundingOf x f.md else .rne
  scanGo op t (bits f.md 4 4 == 1) q.1 q.2.2 (envOf x r 0) (valX x (mySplit d) t q.2.1) (List.range 32) (foldIdent op t)

/-- The result of one lane of a fold. -/
def scanLane (d : Dev) (out : W64 × List (Nat × LaneRes)) (l : Nat) : LaneRes :=
  ((out.2.find? (fun p => p.1 == l)).map (·.2)).getD { val := 0, rss := nth (me d).rss l 0 }

/-- The shared shape of `wscan` and `wred` (R253). -/
def scanOp (h : Head) (f : FmtX) (red : Bool) : Act Verdict := do
  let q ← takeW h f
  let d ← dev
  let out := scanOf d f q
  upd (fun d' => keepRes d' q.1 (scanLane d out))
  putX (ty f.ty) (latX 14 [ty f.ty]) q.1 f.d (fun l => if red then out.1 else (scanLane d out l).val)
  pure .retire

def execWscan (h : Head) (f : FmtX) (s : State) : Out := runX (.wscan h f) h (codesX f) (scanOp h f false) s
def execWred (h : Head) (f : FmtX) (s : State) : Out := runX (.wred h f) h (codesX f) (scanOp h f true) s

end Sys2Proof.Machine
end

