-- ==== Sys2Proof/Machine/Service.lean ====
section
/-!
DEFINITION. The service processor: dies going offline and coming back (spec/25_service.md R379, R380, spec/02_address_spaces.md
R33), the mailbox (spec/24_host_and_fabric.md R367, spec/25 R376, R377), bring-up (R372 to R375), errors (R379, spec/04_pending_logs.md
R68, spec/11_launch_scheduling.md R189) and power (R381).
-/
namespace Sys2Proof.Machine

/-! ### Moving V1 between configurations (R33, R380). -/

/-- The clusters whose logical cluster lies on another die when `dies` are online. -/
def movedClusters (d : Dev) (dies : BitVec 2) : List Nat :=
  let e := { d with regs := { d.regs with dies := dies } }
  (List.range d.clusters.length).filter (fun k =>
    let x := clusterOf d k
    x.res ≠ .ended && dieOf d x.lcl ≠ dieOf e x.lcl)

/-- Switch out some clusters at once, the shadow banks being spilled first; none where one has to wait for a free team block or
for Quill. -/
def clearAway (m : Memory) : List Nat → Dev → Option Dev
  | [], d => some d
  | k :: r, d =>
    if (clusterOf d k).res = .resident then
      match switchOut m d k with
      | (d1, .done) => clearAway m r (d1.shadow.foldl (spillEnd m) d1)
      | (_, .full _) | (_, .wait) => none
    else clearAway m r d

/-- The pages of a cluster leave their cores. -/
def leaveCores (m : Memory) (d : Dev) (k : Nat) : Dev := (clusterOf d k).sets.foldl (leavePages m) d

/-- The die whose queues an entry belongs on; `die` is the one that it waits on. -/
def entryDie (d : Dev) (die : Nat) (e : Entry) : Nat :=
  let near := if d.regs.dies.getLsbD die then die else dieOf d 0
  let ofLaunch := fun (l : Nat) (i : Nat) =>
    let x := launchOf d l
    if x.clbase = 31 then near else dieOf d ((x.clbase + i) % 24)
  match e.work with
  | .cluster l i => ofLaunch l i
  | .whole _ => near
  | .cont r => match affOf (bits r.bits 297 293) with
    | some k => dieOf d k
    | none => near
  | .again _ cs => groupDie d (notEnded d cs)

/-- Put every entry on the queue of its die; those that come from the other die follow the ones that stay. -/
def sortQueues (d : Dev) : Dev :=
  let q := fun (die p : Nat) => nth d.queues (queueIdx die p) []
  let at_ := fun (die p : Nat) =>
    (q die p).filter (fun e => entryDie d die e == die) ++ (q (1 - die) p).filter (fun e => entryDie d (1 - die) e == die)
  { d with queues := (List.range 12).map (at_ 0) ++ (List.range 12).map (at_ 1) }

/-- The die of a TLB. -/
def tlbDie : TlbAt → Nat
  | .core n => coreDie n
  | .cluster n => n / 12

/-- Drop what the cores, walkers and L2 of a die hold of translations and lines. -/
def dropDie (d : Dev) (die : Nat) : Dev :=
  { d with
    tlb := d.tlb.filter (fun t => tlbDie t.place ≠ die)
    walks := d.walks.filter (fun e => e.die ≠ die)
    caches := d.caches.filter (fun p => match p.1 with
      | .l1 core => coreDie core ≠ die
      | .l2 k => k ≠ die
      | .konst _ => false)
    episodes := d.episodes.map (fun e => if e.die = die then { e with die := 1 - die } else e) }

/-- A co-resident launch with more than twelve clusters cannot stay on one die (R185, R380). -/
def abortWide (m : Memory) (d : Dev) : Dev :=
  failLaunches m d ((List.range d.launches.length).filter (fun l =>
    let x := launchOf d l
    (x.cor || x.fo) && decide (12 < x.ncl))) 0x09

/-- V1 is moved to the dies `dies` (R33): the clusters concerned are switched out and queued again, their pages leave their
cores; none while one of them cannot leave. -/
def moveV1 (m : Memory) (d : Dev) (dies : BitVec 2) : Option Dev :=
  let ks := movedClusters d dies
  (clearAway m ks (d.shadow.foldl (spillEnd m) d)).map (fun d1 =>
    let d2 := ks.foldl (leaveCores m) d1
    wakeSpawns (sortQueues { d2 with regs := { d2.regs with dies := dies } }))

/-- The ports of a die. -/
def diePorts (die : Nat) : List Nat := (List.range 8).map (8 * die + ·)

/-- Whether a die may go offline (R380): OK, NOROOM, or BADARG, which a partitioned device, whose dies each serve a partition, and one
whose other die is offline answer too (DESIGN CHOICE, log 43). -/
def mayLeave (d : Dev) (die : Nat) : BitVec 16 :=
  if 1 < die ∨ d.regs.part ∨ d.regs.dies ≠ 3 then 5
  else if 384 * 2 ^ 30 < Config.memoryInUse d.tick then 4 else 0

/-- A die begins to go offline (R380): the host receives a hot-plug interrupt, dispatch on the die stops, and a co-resident launch
that is too wide ends. -/
def startLeaving (m : Memory) (d : Dev) (die : Nat) : Dev :=
  abortWide m { d with leaving := some die, hotPlugs := d.hotPlugs + 1 }

/-- The die that is going offline leaves, as soon as every cluster can be switched out (R380; log 71). -/
def goLeaving (m : Memory) (d : Dev) : Dev :=
  match d.leaving with
  | none => d
  | some die =>
    match moveV1 m d (if die = 0 then 2 else 1) with
    | none => d
    | some d1 => { (diePorts die).foldl (portFails m) (dropDie d1 die) with leaving := none }

/-- DIEOFF (R380): the result, none while the die is going offline, and the device. -/
def dieOff (m : Memory) (d : Dev) (die : Nat) : Option (BitVec 16) × Dev :=
  match d.leaving with
  | some k =>
    let d1 := goLeaving m d
    (if k = die ∧ d1.leaving = none then some 0 else none, d1)
  | none =>
    if mayLeave d die = 0 then
      let d1 := goLeaving m (startLeaving m d die)
      (if d1.leaving = none then some 0 else none, d1)
    else (some (mayLeave d die), d)

/-- A lasting fault of a structure: whether it has had one before. -/
def countFault (d : Dev) (k : Nat) : Dev × Bool :=
  ({ d with lastingAt := put 0 d.lastingAt k (look 0 d.lastingAt k + 1) }, decide (0 < look 0 d.lastingAt k))

/-- The spare core of a cluster takes the place of a core, with all that the core holds (R33, R379): no result changes. -/
def spareTakes (d : Dev) (core : Nat) : Dev :=
  let c := coreCluster core
  let d1 := setCore { d with spared := put 0 d.spared c (core % 8 + 1) } (192 + c) (coreOf d core)
  { d1 with
    tlb := d1.tlb.filter (fun t => t.place ≠ .core core)
    caches := d1.caches.filter (fun p => p.1 ≠ .l1 core) }

/-- A lasting core fault takes the spare core (R379); the answer says that there is none left. -/
def coreFault (d : Dev) (core : Nat) : Dev × Bool :=
  let (d1, again) := countFault d (faultKey (.core core))
  if again then (d1, true) else (spareTakes d1 core, false)

/-- A structure with a lasting fault is remapped to its spare (R379); the answer says that a core has none left. A region of HBM4 has
a spare row or the spare channel for its first fault (DESIGN CHOICE, log 71); after a second its lines read with poison. -/
def remap (m : Memory) (d : Dev) (e : ErrStruct) : Dev × Bool :=
  match e with
  | .core phys => coreFault d phys
  | .arrayColumn core =>
    let (d1, again) := countFault d (faultKey e)
    if again then coreFault d1 core else (d1, false)
  | .hbmRow line =>
    let (d1, again) := countFault d (faultKey e)
    let (first, n) := Config.hbmRegion line
    (if again then { d1 with poison := ((List.range n).map (first + ·) ++ d1.poison).eraseDups } else d1, false)
  | .linkLane port =>
    let (d1, again) := countFault d (faultKey e)
    (if again then portFails m d1 port else startRetrain d1 port, false)
  | .l2Way _ | .headCache _ _ _ _ | .joinCounter _ _ | .logSlot _ _ => ((countFault d (faultKey e)).1, false)

/-- The die of a core, or of an array column, whose fault finds no spare. -/
def faultDie : ErrStruct → Nat
  | .core phys => coreDie phys
  | .arrayColumn core => coreDie core
  | _ => 0

/-- A self-test finds lasting faults (R372, R379): each is recorded and counted, and its structure remapped; the answer says
that a die has no working configuration left. -/
def selfTest (m : Memory) (d : Dev) (faults : List ErrStruct) : Dev × Bool :=
  faults.foldl (fun (q : Dev × Bool) e =>
    let d1 := noteError q.1 e true
    let (d2, bad) := remap m { d1 with regs := { d1.regs with lasting := d1.regs.lasting + 1 } } e
    (d2, q.2 || bad)) (d, false)

/-- A structure of which a self-test may find a fault, by a number. -/
def structOf (n : Nat) : ErrStruct :=
  match n % 5 with
  | 0 => .core (n / 5 % 192)
  | 1 => .arrayColumn (n / 5 % 192)
  | 2 => .l2Way (n / 5 % 96)
  | 3 => .hbmRow (n / 5)
  | _ => .linkLane (n / 5 % 16)

/-- The faults that a self-test finds: as many as may be, chosen freely (log 1). -/
def freeFaults (n : Nat) : List ErrStruct :=
  (List.range (n % 8)).map (fun i => structOf (n / 8 / 2 ^ (40 * i) % 2 ^ 40))

/-- Whether a structure belongs to a die, as its self-test covers it. Which die homes a row of HBM4 is not given: any may. -/
def onDie (die : Nat) : ErrStruct → Bool
  | .core phys => coreDie phys == die
  | .arrayColumn core => coreDie core == die
  | .l2Way slice => slice / 48 == die
  | .linkLane p => p / 8 == die
  | .hbmRow _ => true
  | .headCache _ _ _ _ | .joinCounter _ _ | .logSlot _ _ => false

/-- DIEON (R376): a die that is offline is self-tested and rejoins, and its ports train again, but for those whose lanes have failed;
one that has no working configuration left stays offline, and NOROOM is answered (DESIGN CHOICE, log 43). No result while a cluster
that moves cannot leave. -/
def dieOn (m : Memory) (d : Dev) (die : Nat) : Option (BitVec 16) × Dev :=
  if 1 < die ∨ d.regs.part ∨ d.regs.dies.getLsbD die then (some 5, d)
  else
    let (d0, bad) := selfTest m d ((freeFaults (Config.freeChoice d.tick)).filter (onDie die))
    if bad then (some 4, d0)
    else match moveV1 m d0 3 with
    | none => (none, d)
    | some d1 =>
      let d2 := (diePorts die).foldl (fun d p => if 2 ≤ deadLanes d p then d else train d p 1) d1
      (some 0, { d2 with caches := d2.caches.filter (fun p => match p.1 with | .konst _ => false | _ => true) })

/-! ### The mailbox (R367, R376). -/

/-- A doorbell. -/
def doorbell (c : MailCmd) (tag : BitVec 32) (len : BitVec 16) (d : Dev) : Dev :=
  if d.regs.mbBusy.isSome then { d with regs := { d.regs with mbOvr := true } }
  else if 2048 < len.toNat then answerAtOnce d tag 0xFFFF
  else { d with regs := { d.regs with mbBusy := some c, mbTag := tag, mbDone := false, mbLen := len } }

def execLoadfw (tag : BitVec 32) (len : BitVec 16) (s : State) : Out := runEvent (fun _ d => doorbell .loadfw tag len d) s
def execAttest (tag : BitVec 32) (len : BitVec 16) (s : State) : Out := runEvent (fun _ d => doorbell .attest tag len d) s
def execDieoff (tag : BitVec 32) (len : BitVec 16) (s : State) : Out := runEvent (fun _ d => doorbell .dieoff tag len d) s
def execDieon (tag : BitVec 32) (len : BitVec 16) (s : State) : Out := runEvent (fun _ d => doorbell .dieon tag len d) s
def execRelread (tag : BitVec 32) (len : BitVec 16) (s : State) : Out := runEvent (fun _ d => doorbell .relread tag len d) s
def execLogread (tag : BitVec 32) (len : BitVec 16) (s : State) : Out := runEvent (fun _ d => doorbell .logread tag len d) s
def execRoute (tag : BitVec 32) (len : BitVec 16) (s : State) : Out := runEvent (fun _ d => doorbell .route tag len d) s
def execReset (tag : BitVec 32) (len : BitVec 16) (s : State) : Out := runEvent (fun _ d => doorbell .reset tag len d) s

/-- The n-th argument of a command, eight bytes little-endian; bytes past LEN are zero (R376; DESIGN CHOICE, log 43). -/
def mailArg (d : Dev) (n : Nat) : Nat :=
  leNat ((List.range 8).map (fun i => if 8 * n + i < d.regs.mbLen.toNat then look 0 d.regs.mbData (8 * n + i) else 0))

/-- The first host address past those that a translation can name (R22). -/
def hostBytes : Nat := 2 ^ 56

/-- Whether an image may run (R375): 0 OK, 1 BADSIG, 2 BADVER. -/
def imageResult (image : List Byte) : BitVec 16 :=
  if !Config.imageSigned image then 1 else if Config.imageVersion image < Config.fusedMinimum then 2 else 0

/-- LOADFW (R377). -/
def doLoadfw (m : Memory) (d : Dev) : BitVec 16 × Dev × List Byte :=
  let a := mailArg d 0
  let n := mailArg d 1
  if hostBytes < a + n then (5, d, [])
  else
    let image := rdBytes m d (hostKey + a) n
    let r := imageResult image
    (r, if r = 0 then { d with image := image, stored := true, imageCut := false } else d, [])

/-- The image that the device holds (R375). -/
def heldImage (d : Dev) : List Byte := if d.stored then d.image else Config.factoryImage

/-- ATTEST (R376): the report goes to the host's buffer. -/
def doAttest (d : Dev) : BitVec 16 × Dev × List Byte :=
  let a := mailArg d 4
  if hostBytes < a + 4096 then (5, d, [])
  else
    let words := [devId d, Config.serial, d.regs.fwver.setWidth 64, configWord d] ++
      (List.range 4).map (fun i => w64 (mailArg d i))
    (0, wrBytes d (hostKey + a) ((List.range 4096).map (Config.attestation words (heldImage d))), [])

/-- The structure that a record names, as a kind and a position. -/
def structAt : ErrStruct → Nat × List Nat
  | .core phys => (0, [phys])
  | .arrayColumn core => (1, [core])
  | .l2Way slice => (2, [slice])
  | .hbmRow line => (3, [line])
  | .linkLane port => (4, [port])
  | .headCache die prio idx lost => (5, [die, prio, idx, if lost then 1 else 0])
  | .joinCounter l lost => (6, [l, if lost then 1 else 0])
  | .logSlot t pi => (7, [t, pi])

/-- The 64 bytes of a reliability record: its fields stand in places that are free (R376; log 6). -/
def relBytes (r : RelRecord) : List Byte :=
  (List.range 64).map (Config.reliabilityByte (structAt r.what).1 (structAt r.what).2 r.time r.lasting)

/-- RELREAD (R376): up to sixteen records from an index on. -/
def doRelread (d : Dev) : BitVec 16 × Dev × List Byte :=
  let i := mailArg d 0
  if d.reliability.length < i then (5, d, []) else (0, d, ((d.reliability.drop i).take 16).flatMap relBytes)

/-- The bytes of a log entry (R59). -/
def entryWords (e : LogEntry) : List Byte :=
  let w1 := (e.clock.setWidth 64 <<< 40) ||| (e.kind.setWidth 64 <<< 36) ||| (e.ty.setWidth 64 <<< 32) |||
    (e.vcore.setWidth 64 <<< 24) ||| (e.wave.setWidth 64 <<< 20) ||| (e.src.setWidth 64 <<< 16) |||
    (e.gran.setWidth 64 <<< 8) ||| (e.off.setWidth 64 <<< 4) ||| (e.sz.setWidth 64 : W64)
  leBytes 8 e.operand ++ leBytes 8 w1 ++ e.ext

/-- LOGREAD (R376): the entries of a page's log in apply order; one that no longer fits in MBDATA is left out, and a later,
shorter one may still stand there (DESIGN CHOICE, log 61). -/
def doLogread (d : Dev) : BitVec 16 × Dev × List Byte :=
  let st := mailArg d 2
  let page := d.sets.findSome? (fun t =>
    if t.live ∧ t.ctx = mailArg d 0 ∧ t.vcore = mailArg d 1 ∧ st < 4 then
      (findPage t (storeOf st) (mailArg d 3)).map (fun i => nth t.pages i noPage)
    else none)
  match page with
  | none => (5, d, [])
  | some p => (0, d, p.log.foldl (fun r e => if r.length + (entryWords e).length ≤ 2048 then r ++ entryWords e else r) [])

/-- ROUTE (R368, R376). -/
def doRoute (d : Dev) : BitVec 16 × Dev × List Byte :=
  let peer := mailArg d 0
  let port := mailArg d 1
  if 1024 ≤ peer then (5, d, [])
  else if port < 16 then (0, { d with regs := { d.regs with routes := put none d.regs.routes peer (some port) } }, [])
  else if port = 0xFF then (0, { d with regs := { d.regs with routes := put none d.regs.routes peer none } }, [])
  else (5, d, [])

/-- Whether a command is admitted at the stage (R373). -/
def admitted (d : Dev) (c : MailCmd) : Bool :=
  d.regs.stage == 5 || c == .loadfw || c == .attest || c == .reset

/-- A result with its device and answer. -/
def withResult (q : BitVec 16 × Dev × List Byte) : Option (BitVec 16) × Dev × List Byte := (some q.1, q.2.1, q.2.2)

/-- Perform a command: result, none while it is under way, device, answer. -/
def mailEffect (m : Memory) (d : Dev) (c : MailCmd) : Option (BitVec 16) × Dev × List Byte :=
  if !admitted d c then (some 6, d, [])
  else match c with
    | .loadfw => withResult (doLoadfw m d)
    | .attest => withResult (doAttest d)
    | .dieoff => let r := dieOff m d (mailArg d 0); (r.1, r.2, [])
    | .dieon => let r := dieOn m d (mailArg d 0); (r.1, r.2, [])
    | .relread => withResult (doRelread d)
    | .logread => withResult (doLogread d)
    | .route => withResult (doRoute d)
    | .reset => (some 0, first d [.deviceReset], [])

/-- The service processor goes on with the command, or with a die that goes offline, and completes it (R367, R380): the answer and
RESULT, then DONE and BUSY as one. -/
def execMailboxCompletion (s : State) : Out :=
  runEvent (fun m d =>
    match d.regs.mbBusy.map (mailEffect m d) with
    | none => goLeaving m d
    | some (none, d1, _) => d1
    | some (some r, d1, bs) =>
      let data := bs.zipIdx.foldl (fun t b => put 0 t b.2 b.1) d1.regs.mbData
      { d1 with regs := { d1.regs with mbData := data, mbResult := r, mbDone := true, mbBusy := none } }) s

/-! ### Bring-up (R372, R373). -/

/-- What a reset leaves: the image, the counts and the spares taken since manufacture, the host's window, and what memory holds
until stage 3. It may cut short the writing of an image that has been verified, which then fails R375 (R377). -/
def restart (m : Memory) (d : Dev) : Dev :=
  let cut := d.regs.mbBusy = some .loadfw && (doLoadfw m d).1 = 0 && Config.freeChoice d.tick % 2 = 1
  { tick := d.tick + 1, window := d.window, image := d.image, stored := d.stored, imageCut := d.imageCut || cut,
    lastingAt := d.lastingAt, spared := d.spared, reliability := d.reliability, poison := d.poison,
    regs := { devnum := d.regs.devnum, lasting := d.regs.lasting } }

def execDeviceReset (s : State) : Out := runEvent (fun m d => restart m d) s

/-- The device halts with a cause (R372). -/
def haltWith (d : Dev) (cause : BitVec 16) : Dev := { d with regs := { d.regs with stage := 0xF, haltc := cause } }
def toStage (d : Dev) (n : BitVec 4) : Dev := { d with regs := { d.regs with stage := n } }

/-- SELFTEST (R372): the lasting faults that it finds, chosen freely (log 1), are remapped; `good` says which dies have a
working configuration otherwise. -/
def execSelftest (good : BitVec 2) (s : State) : Out :=
  runEvent (fun m d =>
    if d.regs.stage ≠ 1 then d
    else
      let (d1, bad) := selfTest m { d with tick := d.tick + 1 } (freeFaults (Config.freeChoice d.tick))
      if good = 3 && !bad then toStage d1 2 else haltWith d1 2) s

/-- FWCHECK (R372, R375). -/
def execFwcheck (s : State) : Out :=
  runEvent (fun _ d =>
    if d.regs.stage ≠ 2 then d
    else if d.imageCut || imageResult (heldImage d) ≠ 0 then haltWith d 1
    else toStage { d with regs := { d.regs with fwver := Config.imageVersion (heldImage d) } } 3) s

/-- MEMINIT (R372): device memory reads zero, with good ECC but for regions that have failed; then the ports train (R370). -/
def execMeminit (s : State) : Out :=
  runEvent (fun m d =>
    if d.regs.stage ≠ 3 then d
    else
      let zeros : List Host.Cell := (m.filter (fun c => c.1 < hostKey)).map (fun c => (c.1, blankByte))
      let d1 := { d with wlog := zeros ++ d.wlog, poison := d.poison.filter (fun n => hostKey / 64 ≤ n || deadLine d n) }
      toStage ((List.range 16).foldl (fun d p => train d p 1) d1) 4) s

/-- LINKS (R372): the ports that come up have trained, those whose lanes have failed on the spare lane or not at all, and stamps are
0 (R116, R370, R379). -/
def execLinks (up spare : BitVec 16) (s : State) : Out :=
  runEvent (fun _ d =>
    if d.regs.stage ≠ 4 then d
    else
      let d1 := (List.range 16).foldl (fun d p =>
        setPort d p (if up.getLsbD p then trained d p (spare.getLsbD p) else 0)) d
      toStage { d1 with lines := [], maxWts := 0, xstamp := 0 } 5) s

/-! ### Errors (R68, R189, R379). -/

/-- What a lasting fault does to a structure (R379): it is remapped, and a die whose core has no spare left goes offline, where a die
may (DESIGN CHOICE, log 71: otherwise the core runs on). -/
def lastingFault (m : Memory) (d : Dev) (e : ErrStruct) : Dev :=
  let (d1, bad) := remap m d e
  if bad && d1.leaving.isNone && mayLeave d1 (faultDie e) = 0 then goLeaving m (startLeaving m d1 (faultDie e)) else d1

/-- What the error itself costs: a lost queue entry or join counter ends its launch (R189), a lost log slot poisons its page
(R68); which slot is free. -/
def errorEffect (m : Memory) (d : Dev) (e : ErrStruct) : Dev :=
  match e with
  | .headCache die prio idx true =>
    match (nth d.queues (queueIdx die prio) [])[idx]? with
    | some q => if idx < 16 then failLaunch m d (entryLaunch q.work) 0x07 else d
    | none => d
  | .joinCounter l true => failLaunch m d l 0x07
  | .logSlot t pi =>
    let p := pageOf d t pi
    if p.log.isEmpty then d
    else
      let d1 := modPage { d with tick := d.tick + 1 } t pi (fun p => { p with
        log := p.log.eraseIdx (Config.freeChoice d.tick % p.log.length), logBad := true })
      writeRecord m d1 (setOf d1 t).ctx (recordWords d1 (setOf d1 t).ctx none 0 0
        { cause := cUE, sub := BitVec.ofNat 8 (storeNo p.store), info0 := w64 p.idx } {})
  | .headCache _ _ _ false | .joinCounter _ false | .core _ | .arrayColumn _ | .l2Way _ | .hbmRow _ | .linkLane _ => d

/-- The service processor finds an error (R379): it counts, and a reliability record is written. -/
def execErrorDetected (e : ErrStruct) (lasting : Bool) (s : State) : Out :=
  runEvent (fun m d =>
    let d1 := errorEffect m (noteError d e lasting) e
    if lasting then lastingFault m { d1 with regs := { d1.regs with lasting := d1.regs.lasting + 1 } } e
    else { d1 with regs := { d1.regs with trans := d1.regs.trans + 1 } }) s

/-! ### Power (R381). -/

/-- The engine operations of waves that have ended stop where they are. -/
def stopEngines (d : Dev) : Dev :=
  { d with
    copies := d.copies.map (fun c => { c with done := true, published := true, fault := none, posted := [] })
    waves := d.waves.map (fun x => { x with posted := [] })
    matops := d.matops.map (fun o => { o with done := true, published := true })
    signals := []
    sent := [] }

/-- The device halts at 110 °C with HALTC 3, and every launch ends with ABORTED (R381). -/
def tripHalt (m : Memory) (d1 : Dev) : Dev :=
  let d2 := failLaunches m d1 (List.range d1.launches.length) 0x09
  let d3 := (List.range d2.launches.length).foldl (fun d l => endLaunch m d l) (stopEngines d2)
  haltWith d3 3

/-- POWER and TEMP as measured, with what they do to PALARM (R381): the device halts at 110 °C. -/
def measured (m : Memory) (d : Dev) (power temp : BitVec 16) : Dev :=
  let d1 := judgePower { d with regs := { d.regs with power := power, temp := temp } }
  if 110 * 16 ≤ temp.toNat then tripHalt m d1 else d1

/-- POWER beyond PLIMIT, or TEMP beyond 95 °C: PALARM is set, and the cores run narrowed (R295, R381). -/
def execPowerAlarm (power temp : BitVec 16) (s : State) : Out := runEvent (fun m d => measured m d power temp) s

/-- 10 ms, in cycles. -/
def coolCycles : Nat := 22500000

/-- POWER has stayed below 95 % of PLIMIT and TEMP below 90 °C for 10 ms: PALARM clears (R381). -/
def execPowerAlarmClear (power temp : BitVec 16) (s : State) : Out :=
  runEvent (fun m d =>
    let d1 := measured m d power temp
    if d1.regs.coolSince.any (fun t => decide (t + coolCycles ≤ d1.cycle)) then { d1 with regs := { d1.regs with palarm := false } }
    else d1) s

/-- TEMP reaches 110 °C (R381). -/
def execThermalTrip (s : State) : Out :=
  runEvent (fun m d =>
    measured m d d.regs.power (if d.regs.temp.toNat < 110 * 16 then BitVec.ofNat 16 (110 * 16) else d.regs.temp)) s

end Sys2Proof.Machine
end

