-- ==== Sys2Proof/Machine/Dispatch.lean ====
section
/-!
DEFINITION. The meaning of every instruction: one arm per constructor (spec/opcode_table.json).
-/
namespace Sys2Proof.Machine

/-- What an instruction word or a device step does. -/
def exec (i : Instr) (s : State) : Host.Outcome State Fault Refusal :=
  match i with
  | .nop h bits => Sys2Proof.Machine.execNop h bits s
  | .hint h f => Sys2Proof.Machine.execHint h f s
  | .hintSpace h fn bits => Sys2Proof.Machine.execHintSpace h fn bits s
  | .unassignedEncoding w => Sys2Proof.Machine.execUnassignedEncoding w s
  | .add h f => Sys2Proof.Machine.execAdd h f s
  | .sub h f => Sys2Proof.Machine.execSub h f s
  | .mul h f => Sys2Proof.Machine.execMul h f s
  | .mulhi h f => Sys2Proof.Machine.execMulhi h f s
  | .mad h f => Sys2Proof.Machine.execMad h f s
  | .madhi h f => Sys2Proof.Machine.execMadhi h f s
  | .min h f => Sys2Proof.Machine.execMin h f s
  | .max h f => Sys2Proof.Machine.execMax h f s
  | .abs h f => Sys2Proof.Machine.execAbs h f s
  | .neg h f => Sys2Proof.Machine.execNeg h f s
  | .clamp h f => Sys2Proof.Machine.execClamp h f s
  | .sad4 h f => Sys2Proof.Machine.execSad4 h f s
  | .and h f => Sys2Proof.Machine.execAnd h f s
  | .or h f => Sys2Proof.Machine.execOr h f s
  | .xor h f => Sys2Proof.Machine.execXor h f s
  | .andn h f => Sys2Proof.Machine.execAndn h f s
  | .not h f => Sys2Proof.Machine.execNot h f s
  | .shl h f => Sys2Proof.Machine.execShl h f s
  | .shr h f => Sys2Proof.Machine.execShr h f s
  | .sar h f => Sys2Proof.Machine.execSar h f s
  | .rotl h f => Sys2Proof.Machine.execRotl h f s
  | .bfx h f => Sys2Proof.Machine.execBfx h f s
  | .bfi h f => Sys2Proof.Machine.execBfi h f s
  | .popc h f => Sys2Proof.Machine.execPopc h f s
  | .clz h f => Sys2Proof.Machine.execClz h f s
  | .ctz h f => Sys2Proof.Machine.execCtz h f s
  | .brev h f => Sys2Proof.Machine.execBrev h f s
  | .lsel h f => Sys2Proof.Machine.execLsel h f s
  | .cmp h f => Sys2Proof.Machine.execCmp h f s
  | .sel h f => Sys2Proof.Machine.execSel h f s
  | .setp h f => Sys2Proof.Machine.execSetp h f s
  | .getp h f => Sys2Proof.Machine.execGetp h f s
  | .pand h f => Sys2Proof.Machine.execPand h f s
  | .por h f => Sys2Proof.Machine.execPor h f s
  | .pxor h f => Sys2Proof.Machine.execPxor h f s
  | .pnot h f => Sys2Proof.Machine.execPnot h f s
  | .fadd h f => Sys2Proof.Machine.execFadd h f s
  | .fsub h f => Sys2Proof.Machine.execFsub h f s
  | .fmul h f => Sys2Proof.Machine.execFmul h f s
  | .ffma h f => Sys2Proof.Machine.execFfma h f s
  | .fdiv h f => Sys2Proof.Machine.execFdiv h f s
  | .fsqrt h f => Sys2Proof.Machine.execFsqrt h f s
  | .frcp h f => Sys2Proof.Machine.execFrcp h f s
  | .frsq h f => Sys2Proof.Machine.execFrsq h f s
  | .fmin h f => Sys2Proof.Machine.execFmin h f s
  | .fmax h f => Sys2Proof.Machine.execFmax h f s
  | .fclamp h f => Sys2Proof.Machine.execFclamp h f s
  | .fexp2 h f => Sys2Proof.Machine.execFexp2 h f s
  | .flog2 h f => Sys2Proof.Machine.execFlog2 h f s
  | .fsinpi h f => Sys2Proof.Machine.execFsinpi h f s
  | .fcospi h f => Sys2Proof.Machine.execFcospi h f s
  | .ffloor h f => Sys2Proof.Machine.execFfloor h f s
  | .fceil h f => Sys2Proof.Machine.execFceil h f s
  | .ftrunc h f => Sys2Proof.Machine.execFtrunc h f s
  | .fround h f => Sys2Proof.Machine.execFround h f s
  | .fcmp h f => Sys2Proof.Machine.execFcmp h f s
  | .fclass h f => Sys2Proof.Machine.execFclass h f s
  | .cvt h f => Sys2Proof.Machine.execCvt h f s
  | .pack2 h f => Sys2Proof.Machine.execPack2 h f s
  | .unpack2 h f => Sys2Proof.Machine.execUnpack2 h f s
  | .quant h f => Sys2Proof.Machine.execQuant h f s
  | .dequant h f => Sys2Proof.Machine.execDequant h f s
  | .srnd h f => Sys2Proof.Machine.execSrnd h f s
  | .shfl h f => Sys2Proof.Machine.execShfl h f s
  | .vote h f => Sys2Proof.Machine.execVote h f s
  | .ballot h f => Sys2Proof.Machine.execBallot h f s
  | .wscan h f => Sys2Proof.Machine.execWscan h f s
  | .wred h f => Sys2Proof.Machine.execWred h f s
  | .bcast h f => Sys2Proof.Machine.execBcast h f s
  | .lanemask h f => Sys2Proof.Machine.execLanemask h f s
  | .aadd h f => Sys2Proof.Machine.execAadd h f s
  | .asub h f => Sys2Proof.Machine.execAsub h f s
  | .amul h f => Sys2Proof.Machine.execAmul h f s
  | .amad h f => Sys2Proof.Machine.execAmad h f s
  | .ashl h f => Sys2Proof.Machine.execAshl h f s
  | .ashr h f => Sys2Proof.Machine.execAshr h f s
  | .asar h f => Sys2Proof.Machine.execAsar h f s
  | .aand h f => Sys2Proof.Machine.execAand h f s
  | .aor h f => Sys2Proof.Machine.execAor h f s
  | .axor h f => Sys2Proof.Machine.execAxor h f s
  | .amin h f => Sys2Proof.Machine.execAmin h f s
  | .amax h f => Sys2Proof.Machine.execAmax h f s
  | .acmp h f => Sys2Proof.Machine.execAcmp h f s
  | .asel h f => Sys2Proof.Machine.execAsel h f s
  | .amov h f => Sys2Proof.Machine.execAmov h f s
  | .amovk h f => Sys2Proof.Machine.execAmovk h f s
  | .br h f => Sys2Proof.Machine.execBr h f s
  | .brc h f => Sys2Proof.Machine.execBrc h f s
  | .brx h f => Sys2Proof.Machine.execBrx h f s
  | .call h f => Sys2Proof.Machine.execCall h f s
  | .ret h f => Sys2Proof.Machine.execRet h f s
  | .exit h f => Sys2Proof.Machine.execExit h f s
  | .yield h f => Sys2Proof.Machine.execYield h f s
  | .wait h f => Sys2Proof.Machine.execWait h f s
  | .ld h f => Sys2Proof.Machine.execLd h f s
  | .st h f => Sys2Proof.Machine.execSt h f s
  | .ldfe h f => Sys2Proof.Machine.execLdfe h f s
  | .stfe h f => Sys2Proof.Machine.execStfe h f s
  | .ldw h f => Sys2Proof.Machine.execLdw h f s
  | .stw h f => Sys2Proof.Machine.execStw h f s
  | .prefetch h f => Sys2Proof.Machine.execPrefetch h f s
  | .fill h f => Sys2Proof.Machine.execFill h f s
  | .atom h f => Sys2Proof.Machine.execAtom h f s
  | .atomcas h f => Sys2Proof.Machine.execAtomcas h f s
  | .red h f => Sys2Proof.Machine.execRed h f s
  | .lr h f => Sys2Proof.Machine.execLr h f s
  | .sc h f => Sys2Proof.Machine.execSc h f s
  | .lock h f => Sys2Proof.Machine.execLock h f s
  | .trylock h f => Sys2Proof.Machine.execTrylock h f s
  | .unlock h f => Sys2Proof.Machine.execUnlock h f s
  | .lockq h f => Sys2Proof.Machine.execLockq h f s
  | .acq h f => Sys2Proof.Machine.execAcq h f s
  | .rel h f => Sys2Proof.Machine.execRel h f s
  | .bind h f => Sys2Proof.Machine.execBind h f s
  | .unbind h f => Sys2Proof.Machine.execUnbind h f s
  | .fence h f => Sys2Proof.Machine.execFence h f s
  | .mon h f => Sys2Proof.Machine.execMon h f s
  | .mwait h f => Sys2Proof.Machine.execMwait h f s
  | .bar h f => Sys2Proof.Machine.execBar h f s
  | .cbar h f => Sys2Proof.Machine.execCbar h f s
  | .phinit h f => Sys2Proof.Machine.execPhinit h f s
  | .phreg h f => Sys2Proof.Machine.execPhreg h f s
  | .phdrop h f => Sys2Proof.Machine.execPhdrop h f s
  | .phsig h f => Sys2Proof.Machine.execPhsig h f s
  | .phwait h f => Sys2Proof.Machine.execPhwait h f s
  | .phsw h f => Sys2Proof.Machine.execPhsw h f s
  | .phquery h f => Sys2Proof.Machine.execPhquery h f s
  | .cadd h f => Sys2Proof.Machine.execCadd h f s
  | .cwait h f => Sys2Proof.Machine.execCwait h f s
  | .cread h f => Sys2Proof.Machine.execCread h f s
  | .mcfg h f => Sys2Proof.Machine.execMcfg h f s
  | .mwld h f => Sys2Proof.Machine.execMwld h f s
  | .mswap h f => Sys2Proof.Machine.execMswap h f s
  | .mma h f => Sys2Proof.Machine.execMma h f s
  | .mmas h f => Sys2Proof.Machine.execMmas h f s
  | .mzero h f => Sys2Proof.Machine.execMzero h f s
  | .mpre h f => Sys2Proof.Machine.execMpre h f s
  | .mpost h f => Sys2Proof.Machine.execMpost h f s
  | .mdrain h f => Sys2Proof.Machine.execMdrain h f s
  | .mfence h f => Sys2Proof.Machine.execMfence h f s
  | .mstat h f => Sys2Proof.Machine.execMstat h f s
  | .cpld h f => Sys2Proof.Machine.execCpld h f s
  | .cpy h f => Sys2Proof.Machine.execCpy h f s
  | .cpyx h f => Sys2Proof.Machine.execCpyx h f s
  | .cpyw h f => Sys2Proof.Machine.execCpyw h f s
  | .halo h f => Sys2Proof.Machine.execHalo h f s
  | .pub h f => Sys2Proof.Machine.execPub h f s
  | .subCopy h f => Sys2Proof.Machine.execSubCopy h f s
  | .cpfix h f => Sys2Proof.Machine.execCpfix h f s
  | .cpq h f => Sys2Proof.Machine.execCpq h f s
  | .spawn h f => Sys2Proof.Machine.execSpawn h f s
  | .join h f => Sys2Proof.Machine.execJoin h f s
  | .done h f => Sys2Proof.Machine.execDone h f s
  | .frame h f => Sys2Proof.Machine.execFrame h f s
  | .dclk h f => Sys2Proof.Machine.execDclk h f s
  | .dsync h f => Sys2Proof.Machine.execDsync h f s
  | .stage h f => Sys2Proof.Machine.execStage h f s
  | .trap h f => Sys2Proof.Machine.execTrap h f s
  | .brk h f => Sys2Proof.Machine.execBrk h f s
  | .tret h f => Sys2Proof.Machine.execTret h f s
  | .rdsr h f => Sys2Proof.Machine.execRdsr h f s
  | .wrsr h f => Sys2Proof.Machine.execWrsr h f s
  | .carve h f => Sys2Proof.Machine.execCarve h f s
  | .halt h f => Sys2Proof.Machine.execHalt h f s
  | .rdtr h f => Sys2Proof.Machine.execRdtr h f s
  | .splitArrive => Sys2Proof.Machine.execSplitArrive s
  | .clockEpochStep w => Sys2Proof.Machine.execClockEpochStep w s
  | .issuePromotion w sp => Sys2Proof.Machine.execIssuePromotion w sp s
  | .waitExpiry w sp => Sys2Proof.Machine.execWaitExpiry w sp s
  | .minTreeRefresh l => Sys2Proof.Machine.execMinTreeRefresh l s
  | .pageWalk core ctx va acc => Sys2Proof.Machine.execPageWalk core ctx va acc s
  | .pageReclaim core st => Sys2Proof.Machine.execPageReclaim core st s
  | .fillComplete set pg => Sys2Proof.Machine.execFillComplete set pg s
  | .multicastArrival k => Sys2Proof.Machine.execMulticastArrival k s
  | .copyFault k => Sys2Proof.Machine.execCopyFault k s
  | .copyComplete k => Sys2Proof.Machine.execCopyComplete k s
  | .weightLoadStroke core => Sys2Proof.Machine.execWeightLoadStroke core s
  | .swapStroke core => Sys2Proof.Machine.execSwapStroke core s
  | .rowStroke core => Sys2Proof.Machine.execRowStroke core s
  | .matrixOpComplete core => Sys2Proof.Machine.execMatrixOpComplete core s
  | .phaserEngineSignal n => Sys2Proof.Machine.execPhaserEngineSignal n s
  | .asyncTrapDelivery w sp => Sys2Proof.Machine.execAsyncTrapDelivery w sp s
  | .ringRetry w => Sys2Proof.Machine.execRingRetry w s
  | .waiterAway w => Sys2Proof.Machine.execWaiterAway w s
  | .waiterBack w => Sys2Proof.Machine.execWaiterBack w s
  | .lockReissue w sp => Sys2Proof.Machine.execLockReissue w sp s
  | .lockWaitTimeout w sp => Sys2Proof.Machine.execLockWaitTimeout w sp s
  | .lockHoldTimeout w line => Sys2Proof.Machine.execLockHoldTimeout w line s
  | .mwaitTimeout w sp => Sys2Proof.Machine.execMwaitTimeout w sp s
  | .cwaitTimeout w sp => Sys2Proof.Machine.execCwaitTimeout w sp s
  | .monitorPoll w => Sys2Proof.Machine.execMonitorPoll w s
  | .launchTrigger slot => Sys2Proof.Machine.execLaunchTrigger slot s
  | .dispatchSelect die hits => Sys2Proof.Machine.execDispatchSelect die hits s
  | .forwardProgressSwap core => Sys2Proof.Machine.execForwardProgressSwap core s
  | .preemptAtReached w => Sys2Proof.Machine.execPreemptAtReached w s
  | .contextSwitchOut cl => Sys2Proof.Machine.execContextSwitchOut cl s
  | .spillComplete cl => Sys2Proof.Machine.execSpillComplete cl s
  | .contextSwitchIn cl ok => Sys2Proof.Machine.execContextSwitchIn cl ok s
  | .launchEnd l => Sys2Proof.Machine.execLaunchEnd l s
  | .registerWrite off size val => Sys2Proof.Machine.execRegisterWrite off size val s
  | .xinvPage ctx sz => Sys2Proof.Machine.execXinvPage ctx sz s
  | .xinvContext ctx => Sys2Proof.Machine.execXinvContext ctx s
  | .xinvAllContexts => Sys2Proof.Machine.execXinvAllContexts s
  | .xinvReserved => Sys2Proof.Machine.execXinvReserved s
  | .xinvComplete => Sys2Proof.Machine.execXinvComplete s
  | .releaseEpisode ctx => Sys2Proof.Machine.execReleaseEpisode ctx s
  | .releaseAllEpisodes ctx => Sys2Proof.Machine.execReleaseAllEpisodes ctx s
  | .resumeAtTpc t => Sys2Proof.Machine.execResumeAtTpc t s
  | .resumePastTpc t => Sys2Proof.Machine.execResumePastTpc t s
  | .abortLaunch t => Sys2Proof.Machine.execAbortLaunch t s
  | .trcmdInvalid => Sys2Proof.Machine.execTrcmdInvalid s
  | .pdownClear peer => Sys2Proof.Machine.execPdownClear peer s
  | .loadfw tag len => Sys2Proof.Machine.execLoadfw tag len s
  | .attest tag len => Sys2Proof.Machine.execAttest tag len s
  | .dieoff tag len => Sys2Proof.Machine.execDieoff tag len s
  | .dieon tag len => Sys2Proof.Machine.execDieon tag len s
  | .relread tag len => Sys2Proof.Machine.execRelread tag len s
  | .logread tag len => Sys2Proof.Machine.execLogread tag len s
  | .route tag len => Sys2Proof.Machine.execRoute tag len s
  | .reset tag len => Sys2Proof.Machine.execReset tag len s
  | .mailboxCompletion => Sys2Proof.Machine.execMailboxCompletion s
  | .hostRead addr n => Sys2Proof.Machine.execHostRead addr n s
  | .hostWrite addr data => Sys2Proof.Machine.execHostWrite addr data s
  | .cxlSnoop addr data => Sys2Proof.Machine.execCxlSnoop addr data s
  | .peerWriteArrival peer addr data => Sys2Proof.Machine.execPeerWriteArrival peer addr data s
  | .peerRequestArrival peer addr rq => Sys2Proof.Machine.execPeerRequestArrival peer addr rq s
  | .flitCrcFail port => Sys2Proof.Machine.execFlitCrcFail port s
  | .linkRetrainStart port => Sys2Proof.Machine.execLinkRetrainStart port s
  | .linkRetrainComplete port spare => Sys2Proof.Machine.execLinkRetrainComplete port spare s
  | .portDown port => Sys2Proof.Machine.execPortDown port s
  | .deviceReset => Sys2Proof.Machine.execDeviceReset s
  | .selftest good => Sys2Proof.Machine.execSelftest good s
  | .links up spare => Sys2Proof.Machine.execLinks up spare s
  | .errorDetected st lasting => Sys2Proof.Machine.execErrorDetected st lasting s
  | .powerAlarm power temp => Sys2Proof.Machine.execPowerAlarm power temp s
  | .powerAlarmClear power temp => Sys2Proof.Machine.execPowerAlarmClear power temp s
  | .copyEngineWrite k => Sys2Proof.Machine.execCopyEngineWrite k s
  | .peerAcknowledgement w peer data => Sys2Proof.Machine.execPeerAcknowledgement w peer data s
  | .yieldExpiry w sp => Sys2Proof.Machine.execYieldExpiry w sp s
  | .fwcheck => Sys2Proof.Machine.execFwcheck s
  | .meminit => Sys2Proof.Machine.execMeminit s
  | .thermalTrip => Sys2Proof.Machine.execThermalTrip s

end Sys2Proof.Machine
end

