-- ==== Sys2Proof/Machine/Ahead.lean ====
section
/-!
DEFINITION. Loads that run ahead of older words of their split (spec/06_model_near.md R104).
-/
namespace Sys2Proof.Machine

/-- A plain load or store: its register or queue, the registers of its address, its elements, and its address in each lane. -/
structure MemForm where
  store : Bool
  head : Head
  reg : BitVec 8
  base : BitVec 8
  ty : Ty
  two : Bool
  sp : Space
  keep : Bool
  addrs : W32 → Act (Nat → W64)

/-- The form of a word that is a plain load or store (R266, R267). -/
def memForm : Instr → Option MemForm
  | .ld h f => some ⟨false, h, f.d, f.base, ty f.sz, bits f.q 0 0 == 1, spaceM f.sp, bits f.q 1 1 == 0, laneAddr f.base f.off⟩
  | .ldw h f => some ⟨false, h, f.d, f.base, ty f.sz, false, spaceM f.sp, true, rowAddr f.base f.off (tyBytes (ty f.sz))⟩
  | .st h f => some ⟨true, h, f.d, f.base, ty f.sz, bits f.q 0 0 == 1, spaceM f.sp, false, laneAddr f.base f.off⟩
  | .stw h f => some ⟨true, h, f.d, f.base, ty f.sz, false, spaceM f.sp, false, rowAddr f.base f.off (tyBytes (ty f.sz))⟩
  | _ => none

/-- The bytes of a lane's access. -/
def MemForm.size (q : MemForm) : Nat := tyBytes q.ty * (if q.two then 2 else 1)

/-- The checked places of the active lanes of a load or store, and their addresses. -/
def MemForm.places (q : MemForm) : Act (W32 × (Nat → W64) × List (Nat × Place)) := do
  let m ← acting q.head false
  let ea ← q.addrs m
  let use : Use := { acc := if q.store then .write else .read, size := q.size, writes := q.store, posted := q.store }
  pure (m, ea, ← checkLanes (lanesOf m) (fun l => checkPlace q.sp use (ea l).toNat))

/-- Access arithmetic, which the access stream performs before a later load (R255, R256). -/
def arithOf (i : Instr) (s : State) : Option Out :=
  match i with
  | .aadd h f => some (execAadd h f s)
  | .asub h f => some (execAsub h f s)
  | .amul h f => some (execAmul h f s)
  | .amad h f => some (execAmad h f s)
  | .ashl h f => some (execAshl h f s)
  | .ashr h f => some (execAshr h f s)
  | .asar h f => some (execAsar h f s)
  | .aand h f => some (execAand h f s)
  | .aor h f => some (execAor h f s)
  | .axor h f => some (execAxor h f s)
  | .amin h f => some (execAmin h f s)
  | .amax h f => some (execAmax h f s)
  | .asel h f => some (execAsel h f s)
  | .amov h f => some (execAmov h f s)
  | .amovk h f => some (execAmovk h f s)
  | .acmp h f => some (execAcmp h f s)
  | _ => none

/-- Where bytes of memory or of a page lie, so that accesses through a store and through its mapping meet (R49). Peers and
registers, which no load that runs ahead reads, lie apart. -/
def spotOf : Place → Option (Nat × Nat) × Nat
  | .page t pi off | .mapped t pi off _ => (some (t, pi), off)
  | .device k | .host k => (none, k)
  | .peer _ pa | .reg pa => (none, 2 * hostKey + pa)

/-- Whether two ranges of bytes have one in common. -/
def meets (p q : Place × Nat) : Bool :=
  let (a, i) := spotOf p.1
  let (b, j) := spotOf q.1
  a == b && decide (i < j + q.2) && decide (j < i + p.2)

/-- Whether a load that has run ahead is the word at a split's PC. -/
def isAt (s : Split) (e : Ahead) : Bool := e.pc == s.pc && e.clock == s.clock

/-- Look at what an action finds, and leave the device as it is. -/
def peekAct {α : Type} (x : Act α) : Act α := fun m d =>
  match x m d with
  | .ok (a, _) => .ok (a, d)
  | .error t => .error t

/-- An access that neither waits nor traps (R42, R68); one that would does not run ahead. -/
def atOnce {α : Type} (x : Perf α) : Act α := fun m d =>
  match x m d with
  | .ok r => .ok r
  | .error (.trap t) => .error t
  | .error (.page _ _) => .error { cause := 0 }

/-- Whether a split has gone on by itself, with the lanes that it had: neither diverged, merged, parked, nor trapped. -/
def sameLanes (d e : Dev) : Bool :=
  let a := mySplit d
  let b := mySplit e
  b.mask == a.mask && b.stack == a.stack && b.park == .running && b.handler.isSome == a.handler.isSome &&
    (me e).splits.length == (me d).splits.length

/-- What a word that changes nothing but the split's own registers and PC makes of the device; none where it does more. -/
def stepOver (f : State → Out) : Act (Option (List (Place × Nat))) := fun m d =>
  match f ⟨m, d⟩ with
  | .next t => if sameLanes d t.dev && (mySplit t.dev).clock == (mySplit d).clock + 1 then .ok (some [], t.dev) else .ok (none, d)
  | _ => .ok (none, d)

/-- Transfers of control that the access stream decides (R173, R257, R258). -/
def jumpOf (i : Instr) (s : State) : Option Out :=
  match i with
  | .br h f => some (execBr h f s)
  | .brc h f => if bits f.flg 0 0 = 1 then some (execBrc h f s) else none
  | .brx h f => some (execBrx h f s)
  | .call h f => some (execCall h f s)
  | .ret h f => some (execRet h f s)
  | _ => none

/-- Words that do nothing (R270, R341). -/
def idleWord : Instr → Bool
  | .nop _ _ | .hint _ _ | .hintSpace _ _ _ | .prefetch _ _ => true
  | _ => false

/-- Go past a load that has run ahead: its register, or its entry of qd, takes what it has loaded. -/
def passLoad (q : MemForm) (word : W64) (e : Ahead) : Act (Option (List (Place × Nat))) := do
  roomFor q.reg (if q.two then 2 else 1)
  let m ← acting q.head false
  loadDst q.ty m q.reg (lane e.vals)
  if q.two then loadDst q.ty m (nextCode q.reg) (fun l => lane e.vals (l + 32)) else pure ()
  retireWord (bits word 57 54) true false
  pure (some [])

/-- What a word leaves to a later load of its split that may go before it (R104): the bytes that it is to store, and the device as the
access stream has then made it; none where it holds the load back. Words of the execute stream pass, but for a branch; of the access
stream, which is in order, those that it performs before the load and that are no load's to wait for: a load that has run ahead
itself, access arithmetic and transfers of control that take no value of the execute stream, a store, and a word that does
nothing. -/
def passWord (es : List Ahead) (word : W64) : Act (Option (List (Place × Nat))) := do
  let i := decode word
  let d ← dev
  match memForm i with
  | some q =>
    if !fieldsOk i || !offAligned i || opd q.base == .qv then pure none
    else if q.store then do
      let r ← peekAct q.places
      retireWord (bits word 57 54) true false
      pure (some (r.2.2.map (fun p => (p.2, q.size))))
    else match es.find? (isAt (mySplit d)) with
      | some e => passLoad q word e
      | none => pure none
  | none => fun m d =>
    if ((arithOf i ⟨m, d⟩).or (jumpOf i ⟨m, d⟩)).isSome then
      match stepOver (fun s => ((arithOf i s).or (jumpOf i s)).getD (.next s)) m d with
      | .ok (some w, e) => if (mySplit e).qv.length = (mySplit d).qv.length then .ok (some w, e) else .ok (none, d)
      | r => r
    else if fieldsOk i && (idleWord i || (streamsOf word = (false, true) && bits word 63 58 ≠ 0x1C)) then
      (do
        retireWord (bits word 57 54) (streamsOf word).1 (streamsOf word).2
        pure (some []) : Act (Option (List (Place × Nat)))) m d
    else .ok (none, d)

/-- Enter the header that a split has come to, if it has; false where it does not go on alone there (R167, R209). -/
def enterNext : Nat → Act Bool
  | 0 => pure false
  | n + 1 => do
    let d ← dev
    if !(mySplit d).entering then pure true
    else
      let ok ← (fun m d => match execSplitArrive ⟨m, d⟩ with
        | .next t => .ok (sameLanes d t.dev && ((mySplit t.dev).pc ≠ (mySplit d).pc), t.dev)
        | _ => .ok (false, d) : Act Bool)
      if ok then enterNext n else pure false

/-- Perform a load ahead (R104): its lanes and what they load; none where an older store is to write what it reads, for a
peer's memory, for the registers (R365), and where it would wait or trap. -/
def loadAhead (q : MemForm) (ws : List (Place × Nat)) : Act (Option (W32 × Row)) := do
  let (m, ea, ps) ← q.places
  let far := fun (p : Place) => match p with
    | .peer _ _ | .reg _ => true
    | .page _ _ _ | .device _ | .mapped _ _ _ _ | .host _ => false
  if m = 0 || ps.any (fun p => far p.2 || ws.any (meets (p.2, q.size))) then pure none
  else do
    let vals ← (loadParts q.ty q.two q.size q.keep (q.sp == .k) ea ps).mapM (fun p => atOnce p.run)
    pure (some (m, vals.flatten.foldl (fun r v => put 0 r v.1 v.2) []))

/-- Perform an `ldfe` that keeps its granules full ahead (R46, R104): each is full, and no older store is to write it. In FO mode it is
an ordering operation, which does not run ahead (R160). -/
def fullAhead (h : Head) (f : FmtM) (ws : List (Place × Nat)) : Act (Option (W32 × Row)) := do
  let t := ty f.sz
  let m ← acting h false
  let ea ← laneAddr f.base f.off m
  let ps ← checkLanes (lanesOf m) (fun l => checkPlace (spaceM f.sp) { acc := .read, size := tyBytes t } (ea l).toNat)
  let d ← dev
  let wants := wantsOf ps (tyBytes t)
  if m = 0 || (me d).fo || wants.any (fun w => !wantReady d w) || ps.any (fun p => ws.any (meets (p.2, tyBytes t))) then pure none
  else do
    let _ ← (wantParts wants (fun l => (ea l).toNat)).mapM (fun p => atOnce p.run)
    pure (some (m, wants.foldl (fun r w => put 0 r w.l (wantVal d w)) []))

/-- What a word loads when it performs ahead of older ones; none for a word that is no load, and for one that may not (R104). -/
def performAhead (i : Instr) (ws : List (Place × Nat)) : Act (Option (W32 × Row)) :=
  if !fieldsOk i || !offAligned i then pure none
  else match memForm i, i with
    | some q, _ => if q.store || opd q.base == .qv then pure none else loadAhead q ws
    | none, .ldfe h f => if f.q = 0 && opd f.base ≠ .qv then fullAhead h f ws else pure none
    | none, _ => pure none

/-- How far ahead the model follows a split's words. -/
def aheadReach : Nat := 1024

/-- Perform the word at a split's PC ahead, if it is a load that may and has not yet. -/
def tryAhead (es : List Ahead) (ws : List (Place × Nat)) : Act (Option (W32 × Row)) := do
  let d ← dev
  let word ← fetchWord (mySplit d).pc
  if es.any (isAt (mySplit d)) then pure none
  else match ← tryAct (performAhead (decode word) ws) with
    | .ok r => pure r
    | .error _ => pure none

/-- Go past the words of a split up to the first load that has not run ahead, and perform it, where none of them holds it back
(R104). -/
def loadPast (es : List Ahead) : Nat → List (Place × Nat) → Act (Option (W32 × Row))
  | 0, _ => pure none
  | n + 1, ws => do
    let d ← dev
    match ← passWord es (← fetchWord (mySplit d).pc) with
    | none => pure none
    | some w =>
      if !(← enterNext aheadReach) then pure none
      else do
        match ← tryAhead es (w ++ ws) with
        | some r => pure (some r)
        | none => loadPast es n (w ++ ws)

/-- What the next load of a split leaves when it runs ahead (R104): the device, with the values kept for the word; none when none may.
In FO mode a read of device memory takes its line into the lease set then (R120). -/
def aheadOf (m : Memory) (d : Dev) (w sp : Nat) : Option Dev :=
  let x := waveOf d w
  let q := splitOf x sp
  match runAct (loadPast q.early aheadReach []) m { d with cur := (w, sp) } with
  | .ok (some (lanes, vals), d1) =>
    let s := splitOf (waveOf d1 w) sp
    let e : Ahead := { pc := s.pc, clock := s.clock, lanes := lanes, vals := vals }
    some (setWave d1 w (setSplitOf { x with lmax := (waveOf d1 w).lmax, leaseSet := (waveOf d1 w).leaseSet } sp
      { q with early := e :: q.early.filter (fun o => decide (q.clock ≤ o.clock)) }))
  | _ => none

/-- The entry that the access stream pushes next into the empty qd of a split, when it has run ahead to that push (R104, R173). -/
def nextPush (es : List Ahead) : Nat → Act (Option Row)
  | 0 => pure none
  | n + 1 => do
    let d ← dev
    match ← passWord es (← fetchWord (mySplit d).pc) with
    | none => pure none
    | some _ => do
      let e ← dev
      match (mySplit e).qd with
      | r :: _ => pure (some r)
      | [] => if ← enterNext aheadReach then nextPush es n else pure none

/-- Whether a word of the execute stream peeks at qd (R213, R219). -/
def peeks (word : W64) : Bool :=
  streamsOf word == (false, true) && [12, 20, 28].any (fun n => bits word (n + 7) n == 0xC1)

/-- A split comes to a word: the lanes of a load that has run ahead have performed (R104), and a peek of an empty qd sees what has been
pushed ahead of it (R173). -/
def takeAhead (m : Memory) (d : Dev) (w sp : Nat) (word : W64) : Dev :=
  let q := splitOf (waveOf d w) sp
  let d1 := if q.qd.isEmpty && peeks word then
      match runAct (nextPush q.early aheadReach) m { d with cur := (w, sp) } with
      | .ok (r, _) => modSplit d w sp (fun s => { s with peeked := r })
      | .error _ => modSplit d w sp (fun s => { s with peeked := none })
    else d
  match q.early.find? (isAt q) with
  | none => d1
  | some e =>
    if q.served = 0 ∧ q.ans.isNone then
      modSplit d1 w sp (fun s => { s with served := e.lanes, servedVals := e.vals, early := s.early.filter (· ≠ e) })
    else d1

end Sys2Proof.Machine
end

