-- ==== Sys2Proof/Machine/Run.lean ====
section
/-!
DEFINITION. What a step does (spec/95_what_each_step_holds.md: a step is one instruction word of one split, or one device step):
the agenda names the next move; when it is empty, one of the moves that can happen is chosen freely (spec/06_model_near.md
R110, spec/10_execution_model.md R178, R179; log 1).
-/
namespace Sys2Proof.Machine

/-! ### Issue. -/

/-- Whether a split's park holds back its whole wave: it waits for an episode (R201), on a full ring (R204), or has stopped at
PREEMPT_AT (R205). -/
def holdsWave : Park → Bool
  | .replay | .stopped | .ring _ _ => true
  | _ => false

/-- Whether a wave is held back as a whole. -/
def waveHeld (x : Wave) : Bool := x.splits.any (fun q => q.mask ≠ 0 && holdsWave q.park)

/-- Whether an asynchronous trap is due at a split (R197). -/
def trapDue (x : Wave) (sp : Nat) : Bool :=
  let q := splitOf x sp
  (dueTrap x sp).isSome && q.handler.isNone && q.ans.isNone && deliverable q.park

/-- Whether a split may move: it is neither parked nor ended, and its wave is there and not held back (R178). -/
def canMove (d : Dev) (w sp : Nat) : Bool :=
  let x := waveOf d w
  let q := splitOf x sp
  x.live && q.mask ≠ 0 && q.park == .running && setResident d x.set && !waveHeld x

/-- Whether what a split does next is to issue a word: nothing else is due before it (R119, R167, R197, R205). -/
def wordNext (d : Dev) (w sp : Nat) : Bool :=
  let x := waveOf d w
  let q := splitOf x sp
  canMove d w sp && x.epochDue == 0 && !trapDue x sp && !x.preemptHit && !q.entering

/-- Whether a split's next word is ready to issue (R178). -/
def readyNow (m : Memory) (d : Dev) (w sp : Nat) : Bool := wordNext d w sp && readyWord m d w sp

/-- The stream slots of a core's sub-pipes, by sub-pipe and stream (R178). -/
def slotKey (x : Wave) (acc : Bool) : Nat := 2 * (x.widx % 4) + (if acc then 1 else 0)

/-- What a stream slot of a wave's sub-pipe issued last: one more than the cycle, and the split. -/
def lastIn (d : Dev) (w : Nat) (acc : Bool) : Nat × Nat × Nat :=
  look (0, 0, 0) (coreOf d (coreOfWave d w)).issued (slotKey (waveOf d w) acc)

/-- Whether the stream slots that a word needs have issued nothing in this cycle (R178). -/
def slotsFree (d : Dev) (w : Nat) (st : Bool × Bool) : Bool :=
  (!st.1 || (lastIn d w true).1 ≠ d.cycle + 1) && (!st.2 || (lastIn d w false).1 ≠ d.cycle + 1)

/-- Pairs in lexicographic order. -/
def pairLt (a b : Nat × Nat) : Bool := decide (a.1 < b.1) || (a.1 == b.1 && decide (a.2 < b.2))

/-- Round-robin order from the split after the last to issue (R179). -/
def roundBefore (last a b : Nat × Nat) : Bool :=
  if pairLt last a = pairLt last b then pairLt a b else pairLt last a

/-- Whether split `a` goes before split `b` at a stream slot (R172, R179): one that was promoted, the longest ago first, then by
wave index and ordinal; then the higher stage; then in round robin. -/
def goesBefore (d : Dev) (acc : Bool) (a b : Nat × Nat) : Bool :=
  let x := waveOf d a.1
  let y := waveOf d b.1
  match (splitOf x a.2).promoted, (splitOf y b.2).promoted with
  | some s, some t =>
    decide (s < t) || (s == t && (pairLt (x.widx, ordOf x a.2) (y.widx, ordOf y b.2) ||
      ((x.widx, ordOf x a.2) == (y.widx, ordOf y b.2) && pairLt a b)))
  | some _, none => true
  | none, some _ => false
  | none, none => decide (y.stage < x.stage) || (x.stage == y.stage && roundBefore (lastIn d b.1 acc).2 a b)

/-- Whether another ready split of the sub-pipe goes first at a slot that a word needs (R179). -/
def overtaken (m : Memory) (d : Dev) (w sp : Nat) (st : Bool × Bool) : Bool :=
  (allSplits d).any (fun p =>
    p ≠ (w, sp) && samePipe d p.1 w && readyNow m d p.1 p.2 &&
      (let s2 := nextStreams m d p.1 p.2
       ((st.1 && s2.1) || (st.2 && s2.2)) && goesBefore d (st.1 && s2.1) p (w, sp)))

/-- Whether a split may issue its next word now (R178, R179). -/
def mayIssue (m : Memory) (d : Dev) (w sp : Nat) : Bool :=
  let st := nextStreams m d w sp
  readyNow m d w sp && slotsFree d w st && !overtaken m d w sp st

/-- A split has issued once: other splits' `yield` no longer waits for it (R260). -/
def unyield (w sp : Nat) (q : Split) : Split :=
  match q.park with
  | .yielded t l =>
    let r := l.filter (· ≠ (w, sp))
    if r.isEmpty then { q with park := .running } else { q with park := .yielded t r }
  | _ => q

/-- The streams of a split take no word before a cycle (R178, R227). -/
def hold (q : Split) (st : Bool × Bool) (c : Nat) : Split :=
  { q with heldA := if st.1 then c else q.heldA, heldX := if st.2 then c else q.heldX }

/-- What an issue leaves behind: the stalls of its streams, which what the next word waits for may lengthen (R178, R227, log
1), and what counts for the order of issue and for the dispatcher (R179, R193, R205, R260). -/
def noteIssue (d : Dev) (w sp : Nat) (word : W64) : Dev :=
  let st := streamsOf word
  let c := d.cycle + bits word 57 54 + Config.operandDelay d.tick
  let d1 := modSplit d w sp (fun q => hold { q with promoted := none, readySince := d.cycle } st c)
  let x := waveOf d1 w
  let cl := clusterIdx d1 w
  let core := coreOfWave d1 w
  let mark := fun (on acc : Bool) (t : Sparse (Nat × Nat × Nat)) =>
    if on then put (0, 0, 0) t (slotKey x acc) (d.cycle + 1, w, sp) else t
  let y := coreOf d1 core
  let d2 := setSet (setCluster d1 cl { clusterOf d1 cl with lastIssue := d.cycle }) x.set
    { setOf d1 x.set with lastIssue := d.cycle }
  let d3 := setCore d2 core { y with lastIssue := d.cycle, issued := mark st.1 true (mark st.2 false y.issued) }
  { d3 with waves := d3.waves.map (fun x => { x with splits := x.splits.map (unyield w sp) }) }

/-- Whether a split has issued its word: it went on, parked, trapped, or some of its lanes performed. A word that waits in
place has not issued (R178, R193). -/
def hasIssued (q0 q1 : Split) : Bool :=
  q0.clock ≠ q1.clock || q1.park ≠ .running || q0.pc ≠ q1.pc || q0.served ≠ q1.served || q0.mask ≠ q1.mask ||
    q0.handler.isSome ≠ q1.handler.isSome

/-- What stands after a word has been given to its meaning; one that waits in place is tried again in the next cycle. -/
def afterWord (s : State) (w sp : Nat) (word : W64) (t : State) : State :=
  if hasIssued (splitOf (waveOf s.dev w) sp) (splitOf (waveOf t.dev w) sp) then
    { t with dev := noteIssue t.dev w sp word }
  else { t with dev := modSplit t.dev w sp (fun q => hold q (streamsOf word) (t.dev.cycle + 1)) }

/-- What a step comes to: a device step, the word of a split, a state, or an agent that does not exist. -/
inductive Work1 where
  | run (i : Instr) (s : State)
  | word (i : Instr) (w sp : Nat) (x : W64) (s : State)
  | still (s : State)
  | missing
  deriving DecidableEq, Repr

/-- The split fetches its next word and issues it, with what its load has loaded ahead (R104, R209 to R211); a fetch that fails is a trap of the split,
and one that waits for a link is tried again in the next cycle (R371). -/
def fetchIssue (m : Memory) (d : Dev) (w sp : Nat) : Work1 :=
  match runAct (fetchWord (splitOf (waveOf d w) sp).pc) m d with
  | .error t =>
    let e := takeOrWait m d w sp t
    .still (finish m (if t.cause = 0 then modSplit e w sp (fun q => hold q (true, true) (d.cycle + 1)) else e))
  | .ok (word, d1) => .word (decode word) w sp word (finish m (takeAhead m d1 w sp word))

/-- A split issues: what is due before its next instruction comes first (R119, R167, R197, R205). A split that may not
issue is left as it is. -/
def issueWork (m : Memory) (d0 : Dev) (w sp : Nat) : Work1 :=
  let d := { d0 with cur := (w, sp) }
  let x := waveOf d w
  let q := splitOf x sp
  if d.waves.length ≤ w ∨ x.splits.length ≤ sp then .missing
  else if !canMove d w sp then .still ⟨m, d0⟩
  else if x.epochDue ≠ 0 then .run (.clockEpochStep w) ⟨m, d⟩
  else if trapDue x sp then .run (.asyncTrapDelivery w sp) ⟨m, d⟩
  else if x.preemptHit then .run (.preemptAtReached w) ⟨m, d⟩
  else if q.entering then .run .splitArrive ⟨m, d⟩
  else if !mayIssue m d w sp then .still ⟨m, d0⟩
  else fetchIssue m d w sp

/-- The next load of a split that may move runs ahead of the words before it (R104). -/
def runAhead (m : Memory) (d : Dev) (w sp : Nat) : Dev := if wordNext d w sp then (aheadOf m d w sp).getD d else d

/-- A port that has trained past its bound is down (R371). -/
def portsDue (m : Memory) (d : Dev) : Dev :=
  (List.range 16).foldl (fun d p => if inTraining d p && retrainLate d p then portFails m d p else d) d

/-- The splits whose words have now been ready for 64 cycles: they are promoted before anything else moves (R179). -/
def promotions (m : Memory) (d : Dev) (cycle : Nat) : List Move :=
  ((allSplits d).filter (fun p =>
    let q := splitOf (waveOf d p.1) p.2
    readyNow m d p.1 p.2 && q.promoted.isNone && decide (q.readySince + 64 ≤ cycle))).map (fun p => .event (.issuePromotion p.1 p.2))

/-- Cycles pass: a split that is not ready begins its count of ready cycles again, and one that has been ready for 64 is promoted
(R179); at stage 0 clocks and supplies come up (R372). -/
def passCycles (m : Memory) (d : Dev) (n : Nat) : Dev :=
  let d1 := { d with cycle := d.cycle + n, agenda := promotions m d (d.cycle + n) ++ d.agenda }
  let d2 := { d1 with waves := d1.waves.mapIdx (fun w x => { x with
    splits := x.splits.mapIdx (fun sp q => if readyNow m d w sp then q else { q with readySince := d1.cycle }) }) }
  portsDue m (if d.regs.stage = 0 then toStage d2 1 else d2)

/-- The non-resident pages that a split parked in `ldfe` waits for, while its set's context runs (R39, R42). -/
def wantedFills (d : Dev) (p : Nat × Nat) : List (Nat × Nat) :=
  let x := waveOf d p.1
  match (splitOf x p.2).park with
  | .ldfe _ _ want =>
    if x.live && setResident d x.set then
      (want.map (fun w => (w.set, w.pg))).filter (fun g => (pageOf d g.1 g.2).st == .nonResident)
    else []
  | _ => []

/-- A page that a reader waits for begins to fill (R39, R46). -/
def fillWanted (m : Memory) (d : Dev) (t pi : Nat) : Dev :=
  if (allSplits d).any (fun p => (wantedFills d p).contains (t, pi)) then startFill m d t pi else d

/-- A move. -/
def moveWork (m : Memory) (d : Dev) (v : Move) : Work1 :=
  match v with
  | .issue w sp => issueWork m d w sp
  | .event e => .run e ⟨m, d⟩
  | .tick n => .still (finish m (passCycles m d n))
  | .drop c n => .still (finish m { d with caches := d.caches.filter (fun p => !(p.1 == c && p.2.line == n)) })
  | .fill t pi => .still (finish m (fillWanted m d t pi))
  | .forget i => .still (finish m { d with tlb := d.tlb.eraseIdx i })
  | .forgetWalk i => .still (finish m { d with walks := d.walks.eraseIdx i })
  | .ahead w sp => .still (finish m (runAhead m d w sp))

/-! ### What can happen next. -/

/-- A move when a condition holds. -/
def when_ (c : Bool) (v : Move) : List Move := if c then [v] else []


/-- The moves of a split. -/
def splitMoves (m : Memory) (d : Dev) (p : Nat × Nat) : List Move :=
  let (w, sp) := p
  let x := waveOf d w
  let q := splitOf x sp
  if q.mask = 0 ∨ !x.live then []
  else
    let wait := match q.park with
      | .lockFull _ _ _ t => when_ true (.event (.lockReissue w sp)) ++ when_ (passed d t) (.event (.lockWaitTimeout w sp))
      | .lock _ _ t => when_ (passed d t) (.event (.lockWaitTimeout w sp))
      | .mwait t => when_ (passed d t) (.event (.mwaitTimeout w sp))
      | .cwait _ _ _ t _ _ => when_ (passed d t) (.event (.cwaitTimeout w sp))
      | .yielded t _ => when_ (decide (t + 64 ≤ d.cycle)) (.event (.yieldExpiry w sp))
      | .peer n => [.event (.peerAcknowledgement w (n / 2) [leWord ((List.range 8).map (Config.peerByte (n / 2)))])]
      | _ => []
    when_ (canMove d w sp && (!wordNext d w sp || mayIssue m d w sp)) (.issue w sp) ++
    when_ (wordNext d w sp && (aheadOf m d w sp).isSome) (.ahead w sp) ++
    when_ (q.waitUntil.any (fun t => decide (t ≤ d.cycle))) (.event (.waitExpiry w sp)) ++
    when_ (trapDue x sp && q.park ≠ .running && setResident d x.set) (.event (.asyncTrapDelivery w sp)) ++ wait ++ (wantedFills d p).map (fun g => .fill g.1 g.2)

/-- Whether a wave has a place in a lock's queue that is marked so (R141). -/
def queuedAs (d : Dev) (w : Nat) (away : Bool) : Bool :=
  d.lines.any (fun p => p.2.lock.any (fun e => e.queue.any (fun q => q.wave == w && q.away == away)))

/-- Whether a split parked on a full ring may try again: the header's line has been written (R204). -/
def ringWritten (d : Dev) (q : Split) : Bool :=
  match q.park with
  | .ring n wts => (lineOf d n).wts ≠ wts
  | _ => false

/-- Whether a split's polled watch has something to tell (R129, R284, R286). -/
def watchDue (q : Split) : Bool :=
  match q.park with
  | .cwait _ _ _ _ _ (.due _ _) | .phwait _ _ _ (.due _ _) => true
  | _ => false

/-- The moves of a wave. -/
def waveMoves (d : Dev) (w : Nat) : List Move :=
  let x := waveOf d w
  if !x.live then []
  else
    let here := setResident d x.set
    when_ (here && x.splits.any (ringWritten d)) (.event (.ringRetry w)) ++
    when_ (x.monitor.any (·.polling) || x.splits.any watchDue) (.event (.monitorPoll w)) ++
    when_ (!here && queuedAs d w false) (.event (.waiterAway w)) ++
    when_ (here && queuedAs d w true) (.event (.waiterBack w)) ++
    x.held.flatMap (fun h => when_ (passed d h.deadline) (.event (.lockHoldTimeout w h.line)))

/-- The moves of the engines (R285, R293, R324). -/
def engineMoves (d : Dev) : List Move :=
  let copies := (List.range d.copies.length).filter (fun k => (d.copies[k]?).any (fun x => !x.done))
  let cores := ((d.matops.filter (fun o => !o.done)).map (fun o => pcore d (vcoreOf d (waveOf d o.wave)))).eraseDups
  copies.flatMap (fun k => [.event (.copyEngineWrite k), .event (.multicastArrival k), .event (.copyFault k),
    .event (.copyComplete k)]) ++
  cores.flatMap (fun k => [.event (.weightLoadStroke k), .event (.swapStroke k), .event (.rowStroke k),
    .event (.matrixOpComplete k)]) ++
  (List.range d.signals.length).map (fun n => .event (.phaserEngineSignal n))

/-- The fills under way (R64). -/
def fillMoves (d : Dev) : List Move :=
  d.sets.zipIdx.flatMap (fun p => (List.range p.1.pages.length).flatMap (fun i =>
    when_ ((nth p.1.pages i noPage).st == .filling) (.event (.fillComplete p.2 i))))

/-- The moves of launches, clusters and dispatchers (R161, R188 to R194, R205, R206). -/
def launchMoves (d : Dev) : List Move :=
  let hits := BitVec.ofNat 8 (Config.freeChoice d.tick / 256)
  (List.range d.launches.length).flatMap (fun l =>
    let x := launchOf d l
    when_ (x.fo && !x.ended && x.minKey ≠ leastKey (activeKeys d l)) (.event (.minTreeRefresh l)) ++
    when_ (!x.ended && launchIdle d l) (.event (.launchEnd l))) ++
  (List.range d.clusters.length).flatMap (fun k => when_ (stoppedIn d k) (.event (.contextSwitchOut k))) ++
  d.shadow.map (fun k => .event (.spillComplete k)) ++
  (if d.queues.all (·.isEmpty) then []
   else [.event (.dispatchSelect 0 hits), .event (.dispatchSelect 1 hits)] ++
     (List.range 216).flatMap (fun k => when_ (coreIdle d k) (.event (.forwardProgressSwap k))))

/-- What peers may acknowledge next (R123, R369). -/
def peerMoves (d : Dev) : List Move :=
  (d.sent.map (·.peer)).eraseDups.flatMap (fun p => (sentHeads d p).map (fun s => .event (.peerAcknowledgement (sentBy d s) p [])))

/-- The moves of the service processor and the links (R30, R367, R371, R372). -/
def serviceMoves (d : Dev) : List Move :=
  let n := Config.freeChoice d.tick / 256
  let stage := match d.regs.stage.toNat with
    | 1 => [.event (.selftest (BitVec.ofNat 2 n))]
    | 2 => [.event .fwcheck]
    | 3 => [.event .meminit]
    | 4 => [.event (.links (BitVec.ofNat 16 n) (BitVec.ofNat 16 (n / 2 ^ 16)))]
    | _ => []
  stage ++ when_ (d.regs.mbBusy.isSome || d.leaving.isSome) (.event .mailboxCompletion) ++
  when_ (!d.regs.xinvq.isEmpty) (.event .xinvComplete) ++
  (List.range 16).flatMap (fun p =>
    if inTraining d p then
      if retrainLate d p then [.event (.portDown p)]
      else [.event (.linkRetrainComplete p false), .event (.linkRetrainComplete p true)]
    else [])

/-- Every move that can happen; cycles can always pass. -/
def enabledMoves (m : Memory) (d : Dev) : List Move :=
  .tick 1 :: (allSplits d).flatMap (splitMoves m d) ++ (List.range d.waves.length).flatMap (waveMoves d) ++ engineMoves d ++
    fillMoves d ++ launchMoves d ++ peerMoves d ++ serviceMoves d ++ d.caches.map (fun p => .drop p.1 p.2.line) ++
    (List.range d.tlb.length).map .forget ++ (List.range d.walks.length).map .forgetWalk

/-- The next move: the agenda's first, or else one that can happen (log 1). -/
def nextMove (m : Memory) (d : Dev) : Move × Dev :=
  match d.agenda with
  | v :: r => (v, { d with agenda := r })
  | [] =>
    let vs := enabledMoves m d
    (nth vs (Config.freeChoice d.tick % vs.length) (.tick 1), { d with tick := d.tick + 1 })

/-- What the next step comes to. -/
def stepWork (s : State) : Work1 :=
  let (v, d) := nextMove s.mem s.dev
  moveWork s.mem d v

/-! ### An instruction where a step fetches it. -/

/-- Where the tables, the context table and the program of `withFetchWord` stand. -/
def placeTables : Nat := 0x1000
def placeContexts : Nat := 0x4000
def placeCode : Nat := 0x10000

/-- The bytes of a word in memory. -/
def putWord (m : Memory) (k : Nat) (x : W64) : Memory :=
  (leBytes 8 x).zipIdx.foldl (fun m b => put blankByte m (k + b.2) b.1) m

/-- Context 0 with a tree that maps the first GiB onto itself, readable, writable and executable (R21 to R25, R186). -/
def placeMemory (m : Memory) (w : W64) : Memory :=
  let m1 := putWord m placeTables (w64 (placeTables + 0x1000 + 1))
  let m2 := putWord m1 (placeTables + 0x1000) (w64 (placeTables + 0x2000 + 1))
  let m3 := putWord m2 (placeTables + 0x2000) (w64 (6 * 2 ^ 58 + 0x33B))
  let m4 := putWord m3 placeContexts (w64 (placeTables + 1))
  putWord m4 (placeCode + 8) w

/-- A wave that is not promoted. -/
def unpromoted (x : Wave) : Wave := { x with splits := x.splits.map (fun q => { q with promoted := none }) }

/-- A wave of context 0, alone in its launch, stage set and cluster on logical core 0, past the header of its block, that
issues next: it is the one that is promoted, and its sub-pipe has issued nothing in this cycle. -/
def placeWave (d0 : Dev) : Dev :=
  let d := setCore d0 (pcore d0 0) { coreOf d0 (pcore d0 0) with issued := [] }
  let l := d.launches.length
  let c := d.clusters.length
  let t := d.sets.length
  let w := d.waves.length
  let q : Split := { hdr := placeCode, pc := placeCode + 8, entering := false, len := 7, promoted := some 0 }
  { d with
    regs := { d.regs with ctxt := w64 placeContexts }
    tlb := []
    walks := []
    episodes := []
    launches := d.launches ++ [{ noLaunch with ended := false }]
    clusters := d.clusters ++ [{ launch := l, sets := [t], lcl := 0, prio := 0 }]
    sets := d.sets ++ [{ noSet with launch := l, cluster := c, waves := [w], live := true }]
    waves := d.waves.map unpromoted ++ [{ launch := l, set := t, vblk := 7, splits := [q] }]
    agenda := [.issue w 0] }

/-- A state whose next step issues the instruction with the word `w` (log 44): a launch of a program, which otherwise
comes by bring-up, a launch record and a dispatch, is stood in for. -/
def fetchAt (s : State) (w : Nat) : State :=
  { mem := placeMemory s.mem (BitVec.ofNat 64 w), dev := placeWave s.dev }

end Sys2Proof.Machine
end

