-- ==== Sys2Proof/Machine/Step.lean ====
section
/-!
DEFINITION. The step of the machine.
-/
namespace Sys2Proof.Machine

/-- One step: the next move, and the meaning of the instruction that it issues, if it issues one, with what the issue of a word
leaves behind. -/
def step (s : State) : Host.Outcome State Fault Refusal :=
  match stepWork s with
  | .run i t => exec i t
  | .word i w sp x t =>
    match exec i t with
    | .next u => .next (afterWord t w sp x u)
    | r => r
  | .still t => .next t
  | .missing => .fault .noSuchSplit

/-- The state with an instruction where the next step fetches; every instruction is one word (R209), so `nbits` is not
needed. -/
def State.withFetchWord (s : State) (_nbits w : Nat) : State := fetchAt s w

end Sys2Proof.Machine
end

