-- ==== Sys2Proof/Safety.lean ====
section
/-!
DEFINITION. What the statements say of states: the canonical form of memory and of the tables, and what a step must not do.
-/
namespace Sys2Proof.Machine

/-- Memory is in canonical form, and no store is left to perform: a step is indivisible (spec/95_what_each_step_holds.md). -/
def Inv (s : State) : Prop := memWf s.mem = true ∧ s.dev.wlog = []

/-- A run of `n` steps does not stop. -/
def SafeFor (s : State) : Nat → Prop
  | 0 => True
  | n + 1 => ∃ t, step s = .next t ∧ SafeFor t n

end Sys2Proof.Machine
end

