-- ==== Sys2Proof/Certificates/Slice0/Obligations.lean ====
section
/-!
DEFINITION. The statements for the provers, and the vocabulary they are written in. An instruction's statement says
from which operands, taken as the manual says they are taken, it answers which next state: the device after its effect,
then retirement (`Retires`), or the device itself where the instruction moves its split (`Becomes`).
-/
namespace Sys2Proof.Claims
open Sys2Proof Sys2Proof.Machine

/-- An action runs to a value and a device. -/
def Runs {α : Type} (x : Act α) (m : Memory) (d : Dev) (a : α) (e : Dev) : Prop := runAct x m d = .ok (a, e)

/-- The word of an instruction passes the checks made before it acts: its fields, its footprint, its offset. -/
def Admitted (i : Instr) (codes : List (BitVec 8)) (s : State) : Prop :=
  fieldsOk i = true ∧ inFootprint (me s.dev) codes = true ∧ offAligned i = true

/-- The instruction answers the state in which the device is `d` and the word has then retired. -/
def Retires (i : Instr) (h : Head) (acc exe : Bool) (s : State) (d : Dev) : Prop :=
  ∀ e, Runs (do checkBegun s.dev; retireWord h.stl.toNat acc exe) s.mem d () e → exec i s = .next (finish s.mem e)

/-- The instruction answers the state in which the device is `d` and the word has not retired: its pops and pushes are given
back. Where it is the last of its block and has parked, its fall-through, if it has one, has been checked (R210). -/
def Stays (i : Instr) (s : State) (d : Dev) : Prop :=
  ∀ e, Runs (if endsLanes i then pure () else checkBegun s.dev) s.mem d () e → exec i s = .next (finish s.mem (setMySplit e { mySplit e with
    qd := (mySplit s.dev).qd, qv := (mySplit s.dev).qv, qb := (mySplit s.dev).qb }))

/-- The instruction answers the state in which the device is `d`. -/
def Becomes (i : Instr) (s : State) (d : Dev) : Prop := exec i s = .next (finish s.mem d)

/-- The split takes a trap, and nothing else has changed; where the trap has cause 0, the word waits in place. -/
def Traps (i : Instr) (s : State) (t : Trap) : Prop :=
  exec i s = .next (finish s.mem (if t.cause = 0 then s.dev else takeTrap s.mem s.dev s.dev.cur.1 s.dev.cur.2 t false))

/-- A lane instruction: with its sources taken, each active lane computes `fn` of their values, its flags and RSS state
are kept, and the destination takes the results at type `td` with latency `lat`; then the word retires. -/
def LaneResult (i : Instr) (h : Head) (f : FmtX) (codes : List (BitVec 8)) (ta tb tc : Option Ty) (td : Ty) (lat : Nat)
    (fn : LaneEnv → W64 → W64 → W64 → LaneRes) : Prop :=
  ∀ s q d0 d1,
    Admitted i codes s →
    Runs (takeX h f ta tb tc) s.mem s.dev q d0 →
    Runs (putX td lat q.1 f.d (fun l => (laneOf d0 f.md ta tb tc q fn l).val)) s.mem
      (keepRes d0 q.1 (laneOf d0 f.md ta tb tc q fn)) () d1 →
    Retires i h false true s d1

/-- A lane instruction of format X with n sources of the word's type, no flag and no rounding. -/
def PlainResult (i : Instr) (h : Head) (f : FmtX) (n lat : Nat) (fn : W64 → W64 → W64 → W64) : Prop :=
  let t := ty f.ty
  LaneResult i h f (codesX f) (some t) (if 2 ≤ n then some t else none) (if 3 ≤ n then some t else none) t
    (if t = .i64 ∨ t = .n64 then lat + 2 else lat) (fun env a b c => { val := fn a b c, rss := env.rss })

end Sys2Proof.Claims

open Sys2Proof Sys2Proof.Machine Sys2Proof.Claims

/-! ### Encoding. -/

/-- R209, R211, R213, R230, R8: the word of a well-formed instruction, stored little-endian, decodes to that instruction
with every operand as it was, and leaves the bytes behind it. -/
def Obligations.EncodeThenDecode : Prop :=
  ∀ (i : Instr) (w : W64) (r : List Byte),
    i.wellFormed = true → encode i = some w → decodeBytes (leBytes 8 w ++ r) = some (i, r)

/-- R230, R231: decoding loses nothing of a word, listed or not; so two words that differ are different instructions. -/
def Obligations.DecodeThenEncode : Prop := ∀ w : W64, encode (decode w) = some w

/-- R211, R213, R216, R230: words written out from the encoding tables, and the instructions they stand for. -/
def Obligations.DecodeSamples : Prop :=
  decode 0x2148304010204440 = .ffma ⟨5, 1, 0⟩ ⟨0x04, 0x01, 0x02, 0x04, 4, 0x40⟩ ∧
  decode 0x80000C0810400010 = .ld ⟨0, 0, 0⟩ ⟨0xC0, 0x81, 0, 4, 0, 0, 0x0010⟩ ∧
  decode 0x7000102000003002 = .brc ⟨0, 0, 0⟩ ⟨0x02, 3, 0x002⟩ ∧
  decode 0xC0003A6A4A57F600 = .mma ⟨0, 0, 0⟩ ⟨0xA6, 0xA4, 0xA5, 0x7F, 6, 0, 0⟩ ∧
  decode 0xF0002C8C80000001 = .tret ⟨0, 0, 0⟩ ⟨0xC8, 0xC8, 1⟩ ∧
  decode 0x0400C00000000000 = .unassignedEncoding 0x0400C00000000000

/-! ### Steps. -/

/-- spec/95_what_each_step_holds.md: whatever a step does, it is whole. Memory keeps its canonical form, and no store
of the step is left over. -/
def Obligations.StepKeepsInv : Prop := ∀ s t : State, Inv s → step s = .next t → Inv t

/-- The state after reset meets the invariant. -/
def Obligations.ResetInv : Prop := Inv State.reset

/-- R209 to R211: when a split that may issue stands past a header with nothing due before its next instruction, the
step fetches the word at its PC and runs the instruction that the word decodes to; the step then notes the issue. A load that has run
ahead (R104) comes with its lanes performed. A fetch that traps is a trap of the split; one that meets a link in training waits (R371). That a word which waits in
place has not issued, and holds its streams until the next cycle, is the model's choice (log 12). -/
def Obligations.StepRunsWord : Prop :=
  ∀ (s : State) (w sp : Nat) (r : List Move),
    let d := { s.dev with agenda := r, cur := (w, sp) }
    let x := waveOf d w
    let q := splitOf x sp
    s.dev.agenda = .issue w sp :: r → w < d.waves.length → sp < x.splits.length → mayIssue s.mem d w sp = true →
    (∀ word d1, Runs (fetchWord q.pc) s.mem d word d1 → ∀ e i t, e = takeAhead s.mem d1 w sp word → decode word = i →
      exec i (finish s.mem e) = .next t →
      step s = .next (if hasIssued (splitOf (waveOf (finish s.mem e).dev w) sp) (splitOf (waveOf t.dev w) sp) = true
        then { t with dev := noteIssue t.dev w sp word }
        else { t with dev := modSplit t.dev w sp (fun q => hold q (streamsOf word) (t.dev.cycle + 1)) })) ∧
    (∀ t, runAct (fetchWord q.pc) s.mem d = .error t → step s = .next (finish s.mem
      (if t.cause = 0 then modSplit d w sp (fun q => hold q (true, true) (d.cycle + 1)) else takeTrap s.mem d w sp t false)))

/-- Words that hold back every later load of their split, each by its instruction: those that R104 names, and the joint ones (R174). -/
def Sys2Proof.Claims.HoldsBack : Instr → Prop
  | .fence _ _ | .acq _ _ | .lock _ _ | .trylock _ _ | .ldfe _ _ | .cwait _ _ | .cread _ _ | .phwait _ _ | .phsw _ _ | .mfence _ _
  | .mwait _ _ | .halo _ _ | .pub _ _ | .dsync _ _ | .exit _ _ | .done _ _ | .join _ _ | .yield _ _ | .bar _ _ | .cbar _ _ | .trap _ _
  | .brk _ _ | .tret _ _ | .rdsr _ _ | .wrsr _ _ | .carve _ _ | .halt _ _ | .rdtr _ _ => True
  | _ => False

/-- R104, R173: the first load of a split's next words that has not run ahead may run ahead of those before it, as the move `ahead`: no
word that acquires, joins or orders and no joint instruction lies between, nor, as the access stream is in order (log 10), a load
that has not run ahead itself or a branch on a predicate of the execute stream; an older store that is to write what it reads
holds it back. What it has loaded is taken when the split comes to it. A peek of an empty qd sees what the access stream has pushed
ahead of it. -/
def Sys2Proof.Claims.LoadsRunAhead : Prop :=
  (∀ (m : Memory) (d : Dev) (w sp : Nat),
    (wordNext d w sp = false → runAhead m d w sp = d) ∧
    (wordNext d w sp = true → ∀ lanes vals e,
      Runs (loadPast (splitOf (waveOf d w) sp).early aheadReach []) m { d with cur := (w, sp) } (some (lanes, vals)) e →
      runAhead m d w sp = setWave e w (setSplitOf { waveOf d w with lmax := (waveOf e w).lmax, leaseSet := (waveOf e w).leaseSet } sp
        { splitOf (waveOf d w) sp with early :=
            { pc := (splitOf (waveOf e w) sp).pc, clock := (splitOf (waveOf e w) sp).clock, lanes := lanes, vals := vals } ::
            (splitOf (waveOf d w) sp).early.filter (fun o => decide ((splitOf (waveOf d w) sp).clock ≤ o.clock)) }))) ∧
  (∀ (es : List Ahead) (word : W64) (m : Memory) (d : Dev),
    (Claims.HoldsBack (decode word) → Runs (passWord es word) m d none d) ∧
    (∀ h f, decode word = .brc h f → bits f.flg 0 0 = 0 → Runs (passWord es word) m d none d) ∧
    (∀ q, memForm (decode word) = some q → q.store = false →
      (∀ e ∈ es, ¬ (e.pc = (mySplit d).pc ∧ e.clock = (mySplit d).clock)) → Runs (passWord es word) m d none d) ∧
    (∀ q r d1 e, memForm (decode word) = some q → q.store = true → fieldsOk (decode word) = true → offAligned (decode word) = true →
      opd q.base ≠ .qv → Runs q.places m d r d1 → Runs (retireWord (bits word 57 54) true false) m d () e →
      Runs (passWord es word) m d (some (r.2.2.map (fun p => (p.2, q.size)))) e)) ∧
  (∀ (i : Instr) (q : MemForm) (ws : List (Place × Nat)) (m : Memory) (d d1 : Dev) (r : W32 × (Nat → W64) × List (Nat × Place)),
    memForm i = some q → Runs q.places m d r d1 → (∃ p ∈ r.2.2, ∃ o ∈ ws, meets (p.2, q.size) o = true) →
    ∀ v e, ¬ Runs (performAhead i ws) m d (some v) e) ∧
  (∀ h f ws m d v e, f.q ≠ 0 → ¬ Runs (performAhead (.ldfe h f) ws) m d (some v) e) ∧
  (∀ (m : Memory) (d : Dev) (w sp : Nat) (word : W64), let q := splitOf (waveOf d w) sp
    ((∀ e ∈ q.early, ¬ (e.pc = q.pc ∧ e.clock = q.clock)) → (q.qd ≠ [] ∨ peeks word = false) → takeAhead m d w sp word = d) ∧
    (∀ e r, q.early = e :: r → e.pc = q.pc → e.clock = q.clock → q.served = 0 → q.ans = none → peeks word = false →
      takeAhead m d w sp word =
        modSplit d w sp (fun s => { s with served := e.lanes, servedVals := e.vals, early := s.early.filter (· ≠ e) })) ∧
    ((∀ e ∈ q.early, ¬ (e.pc = q.pc ∧ e.clock = q.clock)) → q.qd = [] → peeks word = true →
      ∀ r e, Runs (nextPush q.early aheadReach) m { d with cur := (w, sp) } r e →
        takeAhead m d w sp word = modSplit d w sp (fun s => { s with peeked := r })))

/-- R178, R179, R172: which split may issue: one that moves, with nothing due before its next word, whose word is ready; whose
stream slots have issued nothing in this cycle; and before which no other ready split of its sub-pipe that needs one of the
same slots goes: a promoted one first, the longest promoted before the others; then the higher stage; then round robin, from the one
after the last to issue. A split whose word has been ready for 64 cycles is promoted before anything else moves. That this order binds
every issue is the model's reading (log 12). -/
def Sys2Proof.Claims.IssueOrder : Prop :=
  ∀ (m : Memory) (d : Dev) (w sp : Nat),
    let st := nextStreams m d w sp
    let x := waveOf d w
    (mayIssue m d w sp = true ↔
      canMove d w sp = true ∧ x.epochDue = 0 ∧ trapDue x sp = false ∧ x.preemptHit = false ∧
      (splitOf x sp).entering = false ∧ readyWord m d w sp = true ∧
      (st.1 = true → (lastIn d w true).1 ≠ d.cycle + 1) ∧ (st.2 = true → (lastIn d w false).1 ≠ d.cycle + 1) ∧
      ∀ p ∈ allSplits d, p ≠ (w, sp) → samePipe d p.1 w = true → readyNow m d p.1 p.2 = true →
        ((st.1 = true ∧ (nextStreams m d p.1 p.2).1 = true) ∨ (st.2 = true ∧ (nextStreams m d p.1 p.2).2 = true)) →
        goesBefore d (st.1 && (nextStreams m d p.1 p.2).1) p (w, sp) = false) ∧
    (∀ (acc : Bool) (a b : Nat × Nat), let qa := splitOf (waveOf d a.1) a.2
      let qb := splitOf (waveOf d b.1) b.2
      (qa.promoted.isSome = true → qb.promoted = none → goesBefore d acc a b = true ∧ goesBefore d acc b a = false) ∧
      (∀ i j, qa.promoted = some i → qb.promoted = some j → i < j → goesBefore d acc a b = true ∧ goesBefore d acc b a = false) ∧
      (qa.promoted = none → qb.promoted = none → (waveOf d b.1).stage < (waveOf d a.1).stage →
        goesBefore d acc a b = true ∧ goesBefore d acc b a = false) ∧
      (qa.promoted = none → qb.promoted = none → (waveOf d a.1).stage = (waveOf d b.1).stage →
        let last := (lastIn d b.1 acc).2
        (pairLt last a = true → pairLt last b = false → goesBefore d acc a b = true) ∧
        (pairLt last a = false → pairLt last b = true → goesBefore d acc a b = false) ∧
        (pairLt last a = pairLt last b → goesBefore d acc a b = pairLt a b))) ∧
    (∀ n, (∀ p < 16, portState d p ≠ 1 ∧ portState d p ≠ 3) → (w, sp) ∈ allSplits d → readyNow m d w sp = true →
      (splitOf x sp).promoted = none → (splitOf x sp).readySince + 64 ≤ d.cycle + n →
      ∃ a, (passCycles m d n).agenda = a ++ d.agenda ∧ .event (.issuePromotion w sp) ∈ a)

/-- R119, R167, R197, R205: what is due at an issue comes before the next instruction, one step each, in this order: a
clock epoch, an asynchronous trap, a stop at PREEMPT_AT, the arrival at a header. -/
def Sys2Proof.Claims.StepDueFirst : Prop :=
  ∀ (s : State) (w sp : Nat) (r : List Move),
    let d := { s.dev with agenda := r, cur := (w, sp) }
    let x := waveOf d w
    let q := splitOf x sp
    s.dev.agenda = .issue w sp :: r → w < d.waves.length → sp < x.splits.length → canMove d w sp = true →
    (x.epochDue ≠ 0 → step s = exec (.clockEpochStep w) ⟨s.mem, d⟩) ∧
    (x.epochDue = 0 → trapDue x sp = true → step s = exec (.asyncTrapDelivery w sp) ⟨s.mem, d⟩) ∧
    (x.epochDue = 0 → trapDue x sp = false → x.preemptHit = true → step s = exec (.preemptAtReached w) ⟨s.mem, d⟩) ∧
    (x.epochDue = 0 → trapDue x sp = false → x.preemptHit = false → q.entering = true → step s = exec .splitArrive ⟨s.mem, d⟩)

/-- The moves of the agenda, and with an empty agenda one of the moves that can happen (the model's choice, log 1):
a device step runs its meaning, cycles pass, a cache, a TLB or a walk cache drops an entry (R26, R117), the fill of a page that a reader
waits for begins (R46), a load runs
ahead (R104), and a split that may not issue is left as it is. -/
def Sys2Proof.Claims.StepMoves : Prop :=
  ∀ (s : State) (r : List Move),
    let d := { s.dev with agenda := r }
    (∀ i, s.dev.agenda = .event i :: r → step s = exec i ⟨s.mem, d⟩) ∧
    (∀ n, s.dev.agenda = .tick n :: r → step s = .next (finish s.mem (passCycles s.mem d n))) ∧
    (∀ w sp, s.dev.agenda = .issue w sp :: r → w < d.waves.length → sp < (waveOf d w).splits.length →
      (canMove d w sp = false ∨ (wordNext d w sp = true ∧ mayIssue s.mem d w sp = false)) → step s = .next ⟨s.mem, d⟩) ∧
    (∀ c n, s.dev.agenda = .drop c n :: r →
      step s = .next (finish s.mem { d with caches := d.caches.filter (fun p => !(p.1 == c && p.2.line == n)) })) ∧
    (∀ t pi, s.dev.agenda = .fill t pi :: r → step s = .next (finish s.mem (fillWanted s.mem d t pi))) ∧
    (∀ n, s.dev.agenda = .forget n :: r → step s = .next (finish s.mem { d with tlb := d.tlb.eraseIdx n })) ∧
    (∀ n, s.dev.agenda = .forgetWalk n :: r → step s = .next (finish s.mem { d with walks := d.walks.eraseIdx n })) ∧
    (∀ w sp, s.dev.agenda = .ahead w sp :: r → step s = .next (finish s.mem (runAhead s.mem d w sp))) ∧
    (s.dev.agenda = [] → ∃ v ∈ enabledMoves s.mem s.dev,
      step s = step ⟨s.mem, { s.dev with agenda := [v], tick := s.dev.tick + 1 }⟩)

/-- Every instruction and every device step answers a next state, and a step does too unless the agenda names a split that
does not exist (the fault noSuchSplit). -/
def Obligations.StepsGoOn : Prop :=
  (∀ i s, ∃ t, exec i s = .next t) ∧
  (∀ s, (∃ t, step s = .next t) ∨
    (step s = .fault .noSuchSplit ∧ ∃ w sp r, s.dev.agenda = .issue w sp :: r ∧
      (s.dev.waves.length ≤ w ∨ (waveOf s.dev w).splits.length ≤ sp)))

/-- R374, R187, R202, R29, R373, R370: the registers that the manual gives a reset value hold it after reset; no link is
up, no launch has been accepted, bring-up is at stage 0. -/
def Sys2Proof.Claims.ResetValues : Prop :=
  let d := State.reset.dev
  d.regs.stage = 0 ∧ d.regs.dies = 3 ∧ d.regs.part = false ∧ d.regs.palarm = false ∧ d.regs.plimit = 2400 ∧
  d.regs.bypass = 4 ∧ d.regs.swapk = 14 ∧ d.regs.ctxt = 0 ∧ d.regs.trSeq = 0 ∧ d.regs.xinvSeq = 0 ∧ d.regs.jprod = 0 ∧
  (∀ c < 216, (coreOf d c).carve = 2) ∧ (∀ n, lineOf d n = {}) ∧ d.launches = [] ∧ d.waves = [] ∧ d.tlb = [] ∧
  (∀ p < 16, look 0 d.regs.pstate p = 0) ∧ (∀ p < 1024, look none d.regs.routes p = none) ∧
  (∀ off < 0x1000, regRead d (0x1000 + off) 8 = 0) ∧ regRead d 0x010 8 = 0

/-- R85, R86, R73, R220, R191, R292: what a wave holds when it starts, wherever its launch or its record gives no other value. -/
def Sys2Proof.Claims.StartsFresh (x : Wave) (args : List W64) : Prop :=
  (∀ code l, code < 0xA0 → fileLane x code l = 0) ∧ (∀ i < 32, fileLane x (0xA0 + i) 0 = nth args i 0) ∧
  (∀ code l, 0x101 ≤ code → code < 0x108 → fileLane x code l = 0) ∧ (∀ l, fileLane x 0x100 l = 1) ∧
  fileLane x 0x108 0 = 1 ∧ (∀ code, 0x109 ≤ code → code < 0x110 → fileLane x code 0 = 0) ∧
  (∀ l < 32, nth x.rss l 0 = BitVec.ofNat 32 (l + 1)) ∧ x.rnd = .rne ∧ x.chk = false ∧ x.fstat = 0 ∧
  x.xva = 0x8000 ∧ x.xvw = 0x8000 ∧ x.mgeo = 3 ∧ x.mdesc = 0 ∧ x.mringa = 0 ∧ x.mringw = 0 ∧ x.msparse = 0 ∧
  x.front = none ∧ x.back = none ∧ x.held = [] ∧ x.monitor = none ∧ x.reservation = none ∧ x.preemptAt = 0

/-- R191, R177, R333: the waves that a launch's team starts with, and the wave of a continuation record, start so: at the code of the
launch or of the record with every lane active, the arguments in s0 and on, or the frame and the argument of the record. -/
def Sys2Proof.Claims.WaveStartValues : Prop :=
  (∀ (x : Launch) (l t widx stage vidx vblk : Nat) (args : List W64) (code : W64) (vstamp clock : Nat),
    let y := newWave x l t widx stage vidx vblk args code vstamp clock
    Claims.StartsFresh y args ∧ y.ctx = x.ctx ∧ y.launch = l ∧ y.set = t ∧ y.widx = widx ∧ y.stage = stage ∧ y.vidx = vidx ∧
      y.vblk = vblk ∧ y.fo = x.fo ∧ y.vstamp = vstamp ∧ y.live = true ∧
      y.splits = [{ pc := code.toNat, entering := true, mask := 0xFFFFFFFF#32, clock := clock }]) ∧
  (∀ (m : Memory) (l i lcl k : Nat) (d : Dev) (j : Nat), let x := launchOf d l
    ∃ e, startSet m l i lcl k d j = (List.range (x.nstg * x.wpt)).foldl (fun e w => addWave e d.sets.length
      (newWave x l d.sets.length w (w / x.wpt) (16 * (x.tpc * i + j) + w) x.foot.vblk x.args x.code x.vstamp 0)) e) ∧
  (∀ (m : Memory) (d : Dev) (r : ContRec) (vcore bypass : Nat), ∃ e y, startCont m d r vcore bypass = addWave e d.sets.length y ∧
    Claims.StartsFresh y [w64 (bits r.bits 127 64), w64 (bits r.bits 191 128)] ∧ y.launch = r.launch ∧ y.vidx = r.vidx ∧
    y.vstamp = r.vstamp ∧ y.splits = [{ pc := bits r.bits 63 0, entering := true, mask := 0xFFFFFFFF#32, clock := r.clock }] ∧
    y.rframe = w64 (bits r.bits 127 64) ∧ y.cframe = w64 (bits r.bits 127 64) ∧ y.depth = bits r.bits 292 289)

/-! ### Memory, registers, queues, operands. -/

/-- R8, spec/95: bytes stored by a step read back, every other byte reads as before, the step's end puts them in memory
byte for byte, and memory keeps its canonical form. -/
def Obligations.MemoryReadsBack : Prop :=
  ∀ (m : Memory) (d : Dev) (k : Nat) (bs : List Byte) (a : Nat),
    rdByte m (wrBytes d k bs) a = (if h : k ≤ a ∧ a < k + bs.length then bs[a - k]'(by omega) else rdByte m d a) ∧
    look blankByte (finish m d).mem a = rdByte m d a ∧
    (memWf m = true → memWf (finish m d).mem = true) ∧
    (∀ w : W64, rd64 m (wr64 d k w) k = w)

/-- R220, R222, R165: a register written in some lanes reads back there as its file holds it, and every other register
and lane is unchanged; p0 and g0 read true and discard writes; a and s registers hold 64 bits, v registers 32. -/
def Obligations.RegistersReadBack : Prop :=
  ∀ (x : Wave) (code c l : Nat) (mask : W32) (f : Nat → W64), code < 0x110 → c < 0x110 → l < 32 →
    fileLane (fileSet x code mask f) c l =
      (if c = code ∧ mask ≠ 0 ∧ (perWave code = true ∨ mask.getLsbD l = true) ∧ code ≠ 0x100 ∧ code ≠ 0x108 ∧
          ¬ (0xC0 ≤ code ∧ code < 0x100)
       then
         if code < 0x80 then ((f l).setWidth 32).setWidth 64
         else if code < 0xA0 then f l
         else if code < 0xC0 then f 0
         else if code < 0x108 then (if f l = 0 then 0 else 1)
         else (if f 0 = 0 then 0 else 1)
       else fileLane x c l) ∧
    fileLane x 0x100 l = 1 ∧ fileLane x 0x108 l = 1

/-- R229: a read that comes too early sees an older value. With every pending write of the register in the lane still
short it sees what the register held before the oldest; once one is satisfied it sees what stands after the youngest
satisfied one. -/
def Obligations.EarlyReadsSeeOldValues : Prop :=
  ∀ (x : Wave) (s : Split) (code l : Nat),
    let k := laneIdx code l
    let ps := s.pend.filter (fun p => p.code == code && p.mask.getLsbD l)
    let sat := fun (p : Pend) => p.lat ≤ p.dist
    (ps = [] → regLane x s code l = fileLane x code l) ∧
    (∀ p r, ps = p :: r → (∀ q ∈ ps, ¬ sat q) → regLane x s code l = lane p.old k) ∧
    (∀ a p r, ps = a ++ p :: r → sat p → (∀ q ∈ r, ¬ sat q) →
      regLane x s code l = match r with
        | [] => fileLane x code l
        | q :: _ => lane q.old k)

/-- R173: a pop from an empty queue and a push to a queue of 16 entries are QUEUE_ORDER, with the queue as SUB; otherwise
a pop takes the oldest entry, a peek leaves it, a push appends, and nothing else changes. A peek of an empty queue sees what has been
pushed ahead of it, or else its word waits with nothing changed. The words of a split perform in one program order, so the count of a
queue is the length of its list: the model's reading (log 10). -/
def Obligations.QueuesKeepOrder : Prop :=
  ∀ (m : Memory) (d : Dev) (r : Row),
    let s := mySplit d
    (s.qd = [] → runAct popQd m d = .error { cause := 0x0A, sub := 0 }) ∧
    (∀ a, s.qd = [] → s.peeked = some a → Runs peekQd m d a d) ∧
    (s.qd = [] → s.peeked = none → runAct peekQd m d = .error { cause := 0 } ∧
      ∀ (x : Act Unit) (t : State), runAct x t.mem t.dev = .error { cause := 0 } → runSplit x t = finish t.mem t.dev) ∧
    (s.qv = [] → runAct popQv m d = .error { cause := 0x0A, sub := 1 }) ∧
    (∀ a q, s.qd = a :: q → Runs popQd m d a (setMySplit d { s with qd := q }) ∧ Runs peekQd m d a d) ∧
    (∀ a q, s.qv = a :: q → Runs popQv m d a (setMySplit d { s with qv := q })) ∧
    (16 ≤ s.qd.length → runAct (pushQd r) m d = .error { cause := 0x0A, sub := 0 }) ∧
    (s.qd.length < 16 → Runs (pushQd r) m d () (setMySplit d { s with qd := s.qd ++ [r] })) ∧
    (16 ≤ s.qv.length → runAct (pushQv r) m d = .error { cause := 0x0A, sub := 1 }) ∧
    (s.qv.length < 16 → Runs (pushQv r) m d () (setMySplit d { s with qv := s.qv ++ [r] }))

/-- R158, R210, R227: a word that retires advances the split's clock by 1 and the distances of its streams by its stall
count; the PC goes to the next word, or past the last of the block to the next 64-byte boundary, which must hold a header. Of a
word that has been woken, or whose lanes have begun to perform, that was checked at its first issue. -/
def Obligations.WordsRetire : Prop :=
  ∀ (m : Memory) (d : Dev) (stl : Nat) (acc exe : Bool), d.cur.1 < d.waves.length → d.cur.2 < (me d).splits.length →
    let s := mySplit d
    (atLast s = false → ∃ e, Runs (retireWord stl acc exe) m d () e ∧
      (mySplit e).pc = s.pc + 8 ∧ (mySplit e).clock = s.clock + 1 ∧ (mySplit e).entering = s.entering ∧
      (mySplit e).pend = prune (addDist s.pend stl acc exe) ∧ (mySplit e).qd = s.qd ∧ (mySplit e).qv = s.qv ∧
      (mySplit e).mask = s.mask ∧ (me e).v = (me d).v ∧ (me e).a = (me d).a ∧ (me e).s = (me d).s ∧ (me e).p = (me d).p ∧
      (me e).g = (me d).g ∧ { e with waves := [] } = { d with waves := [] }) ∧
    (atLast s = true → (s.ans.isSome = true ∨ s.served ≠ 0) → ∃ e, Runs (retireWord stl acc exe) m d () e ∧
      (mySplit e).pc = (s.pc + 8 + 63) / 64 * 64 ∧ (mySplit e).entering = true ∧ (mySplit e).clock = s.clock + 1) ∧
    (atLast s = true → s.ans = none → s.served = 0 → ∀ d1, Runs (checkTarget (w64 ((s.pc + 8 + 63) / 64 * 64))) m d () d1 →
      d1.cur = d.cur → d1.waves = d.waves →
      ∃ e, Runs (retireWord stl acc exe) m d () e ∧ (mySplit e).pc = (s.pc + 8 + 63) / 64 * 64 ∧
        (mySplit e).entering = true ∧ (mySplit e).clock = s.clock + 1) ∧
    (atLast s = true → s.ans = none → s.served = 0 → ∀ t, runAct (checkTarget (w64 ((s.pc + 8 + 63) / 64 * 64))) m d = .error t →
      runAct (retireWord stl acc exe) m d = .error t)

/-- R219, R232, R254: how the codes of a source field are taken and read, in both streams: inline integers, zero, the
queues, and registers of 32 and 64 bits, v pairs joining two registers. -/
def Sys2Proof.Claims.SourceForms : Prop :=
  ∀ (m : Memory) (d : Dev) (x : Wave) (s : Split) (t : Ty) (lanes : W32) (code : BitVec 8) (l : Nat),
    (∀ z, opd code = .inl z → Runs (takeSrc t lanes code) m d (.inl z) d ∧
      valX x s t (.inl z) l = inlineTy t z ∧ valA x s (.inl z) l = BitVec.ofInt 64 z) ∧
    (opd code = .zero → Runs (takeSrc t lanes code) m d .zero d ∧ valX x s t .zero l = 0 ∧ valA x s .zero l = 0) ∧
    (∀ r q, opd code = .qd → (mySplit d).qd = r :: q →
      Runs (takeSrc t lanes code) m d (.row r) (setMySplit d { mySplit d with qd := q }) ∧
      valX x s t (.row r) l = readTy t (lane r l) ∧ valA x s (.row r) l = lane r l) ∧
    (∀ r q, opd code = .qv → (mySplit d).qv = r :: q →
      Runs (takeSrc t lanes code) m d (.row r) (setMySplit d { mySplit d with qv := q })) ∧
    (∀ r q, opd code = .qdPeek → (mySplit d).qd = r :: q → Runs (takeSrc t lanes code) m d (.row r) d) ∧
    (regAS code = true → (me d).chk = false → Runs (takeSrc t lanes code) m d (.reg code.toNat) d) ∧
    (∀ n, opd code = .v n → (me d).chk = false → Runs (takeSrc t lanes code) m d (.reg code.toNat) d) ∧
    (∀ c, valX x s t (.reg c) l = (if tyBits t = 64 then regLane x s c l ||| (regLane x s (c + 1) l <<< 32)
      else readTy t (regLane x s c l)) ∧ valA x s (.reg c) l = regLane x s c l)

/-- R219, R232, R228: where a result goes: an execute result to a v register or an even pair, to qv or nowhere; an access
result to an a register, to an s register as its lowest lane, to qd or nowhere; a predicate to p or g. -/
def Sys2Proof.Claims.DestinationForms : Prop :=
  ∀ (m : Memory) (d : Dev) (t : Ty) (lat : Nat) (mask : W32) (code : BitVec 8) (f : Nat → W64) (b : Nat → Bool),
    (∀ n, opd code = .v n → tyBits t = 64 → Runs (putX t lat mask code f) m d ()
      (setReg (setReg d n lat false mask (fun l => ((f l).setWidth 32).setWidth 64)) (n + 1) lat false mask (fun l => f l >>> 32))) ∧
    (∀ n, opd code = .v n → tyBits t ≠ 64 → Runs (putX t lat mask code f) m d ()
      (setReg d n lat false mask (fun l => writeTy t (f l)))) ∧
    (opd code = .qv → (mySplit d).qv.length < 16 → Runs (putX t lat mask code f) m d ()
      (setMySplit d { mySplit d with qv := (mySplit d).qv ++ [rowOf mask (fun l => if tyBits t = 64 then f l else writeTy t (f l))] })) ∧
    (opd code = .zero → Runs (putX t lat mask code f) m d () d ∧ Runs (putA lat mask code f) m d () d) ∧
    (∀ n, opd code = .a n → Runs (putA lat mask code f) m d () (setReg d code.toNat lat true mask f)) ∧
    (∀ n, opd code = .s n → Runs (putA lat mask code f) m d ()
      (setReg d code.toNat lat true mask (fun _ => f ((lowLane mask).getD 0)))) ∧
    (opd code = .qd → (mySplit d).qd.length < 16 → Runs (putA lat mask code f) m d ()
      (setMySplit d { mySplit d with qd := (mySplit d).qd ++ [rowOf mask f] })) ∧
    Runs (putPred true lat mask code b) m d () (setReg d (0x100 + code.toNat) lat false mask (fun l => if b l then 1 else 0)) ∧
    Runs (putPred false lat mask code b) m d () (setReg d (0x108 + code.toNat) lat true mask (fun l => if b l then 1 else 0))

/-- R212, R220: the lanes in which an instruction acts: the active lanes in which its predicate, or guard, is true, or
false under inversion; predicate 0 is always true. -/
def Sys2Proof.Claims.PredicatesChooseLanes : Prop :=
  ∀ (m : Memory) (d : Dev) (h : Head) (exe : Bool), (me d).chk = false →
    let s := mySplit d
    let n := h.ps.toNat
    let code := if exe then 0x100 + n else 0x108 + n
    ∃ lanes, Runs (acting h exe) m d lanes d ∧
      ∀ l < 32, lanes.getLsbD l = (s.mask.getLsbD l &&
        ((n = 0 ∨ regLane (me d) s code l ≠ 0 : Bool) != (h.pn == 1)))

/-! ### Traps. -/

/-- R231, R215, R212: a word whose fields fail their checks raises ILLOP with the word in INFO0, and one whose offset is no
multiple of its access size raises ALIGN where some lane acts; the instruction has changed nothing (R196). -/
def Sys2Proof.Claims.IllegalWordsTrap : Prop :=
  ∀ (s : State),
    (∀ (i : Instr) (w : W64), encode i = some w → fieldsOk i = false → Traps i s { cause := 0x01, info0 := w }) ∧
    (∀ (h : Head) (f : FmtM) (m : W32) (d : Dev), Runs (acting h false) s.mem s.dev m d → m ≠ 0 →
      ∀ i ∈ [Instr.ld h f, .st h f, .ldfe h f, .stfe h f, .ldw h f, .stw h f, .prefetch h f, .fill h f, .lr h f, .lock h f,
        .trylock h f, .unlock h f, .lockq h f, .acq h f, .rel h f, .fence h f, .mon h f, .cread h f],
      fieldsOk i = true → offAligned i = false → Traps i s { cause := 0x02, addr := f.off.signExtend 64 })

/-- Words of the execute stream and the registers that they may write. -/
def Sys2Proof.Claims.laneWords (h : Head) (f : FmtX) (g : FmtI) : List (Instr × List Nat) :=
  let one := fun (code : BitVec 8) => [code.toNat]
  let pair := fun (code : BitVec 8) => [code.toNat, code.toNat + 1]
  let typed := if tyBits (ty f.ty) = 64 then pair f.d else one f.d
  let pred := [0x100 + f.d.toNat]
  let same : List Instr := [.add h f, .sub h f, .mul h f, .mulhi h f, .mad h f, .madhi h f, .min h f, .max h f, .abs h f, .neg h f,
    .clamp h f, .and h f, .or h f, .xor h f, .andn h f, .not h f, .shl h f, .shr h f, .sar h f, .rotl h f, .popc h f, .clz h f,
    .ctz h f, .brev h f, .lsel h f, .sad4 h f, .fadd h f, .fsub h f, .fmul h f, .ffma h f, .fdiv h f, .fsqrt h f, .frcp h f]
  let more : List Instr := [.frsq h f, .fexp2 h f, .flog2 h f, .fsinpi h f, .fcospi h f, .fmin h f, .fmax h f, .fclamp h f, .ffloor h f,
    .fceil h f, .ftrunc h f, .fround h f, .sel h f, .cvt h f, .shfl h f, .bcast h f, .wscan h f, .wred h f]
  let single : List Instr := [.fclass h f, .getp h f, .srnd h f, .pack2 h f, .dequant h f, .ballot h f, .lanemask h f]
  let preds : List Instr := [.cmp h f, .fcmp h f, .setp h f, .pnot h f, .pand h f, .por h f, .pxor h f, .vote h f]
  let fields : List Instr := [.bfx h g, .bfi h g]
  same.map (fun i => (i, typed)) ++ more.map (fun i => (i, typed)) ++ single.map (fun i => (i, one f.d)) ++
    preds.map (fun i => (i, pred)) ++ [(Instr.quant h f, pair f.d), (Instr.unpack2 h f, pair f.d)] ++
    fields.map (fun i => (i, if tyBits (ty g.ty) = 64 then pair g.d else one g.d))

/-- R231, R165: a word of the execute stream that names a v register outside the wave's footprint raises ILLOP, in every field
that may name one: D, A, B and C, and in the bit-field words D and A. -/
def Sys2Proof.Claims.FootprintIsKept : Prop :=
  ∀ (h : Head) (f : FmtX) (g : FmtI) (s : State) (i : Instr) (ds : List Nat), (i, ds) ∈ Claims.laneWords h f g →
    inFootprint (me s.dev) (if i = .bfx h g ∨ i = .bfi h g then [g.d, g.a] else [f.d, f.a, f.b, f.c]) = false →
    Traps i s { cause := 0x01, info0 := encodeD i }

/-- R199 to R201: who handles a precise trap. A replayable cause joins its region's episode or opens one, and the split waits;
only the opener writes a record, EXTERNAL and REPLAY. What its loads have loaded ahead is forgotten (R196). A local cause with TRAPBASE set and no handler running sets the
queues and pending writes aside, keeps TPC, and goes to the handler block. Every other holds the split with the trap. -/
def Obligations.TrapsAreTaken : Prop :=
  ∀ (m : Memory) (d0 : Dev) (w sp : Nat) (t : Trap),
    let d := modSplit (modSplit d0 w sp (fun s => { s with peerLost := false })) w sp (fun s => { s with early := [] })
    let x := waveOf d w
    let s := splitOf x sp
    let base := (setOf d x.set).trapbase
    let words := fun (f : RecFlags) => recordWords d x.ctx (some (w, sp)) s.pc s.clock t { f with handler := s.handler.isSome }
    let kept : Handler :=
    { qd := s.qd, qv := s.qv, qb := s.qb, pend := s.pend, hdr := s.hdr, pc := s.pc, entering := s.entering,
      len := s.len, reconv := s.reconv, ans := s.ans, served := s.served, servedVals := s.servedVals,
      async := false, peerLost := s.peerLost, waitUntil := s.waitUntil, forced := s.forced, depth := s.stack.length, record := words {}, cont := [] }
    let join := joinEpisode d (dieOf d (lclOf (vcoreOf d x))) x.ctx t [w]
    (replayable t = true → join.2 = true →
      takeTrap m d0 w sp t false = waveRecord m join.1 w sp [words { external := true, replay := true }] .replay) ∧
    (replayable t = true → join.2 = false →
      takeTrap m d0 w sp t false = modSplit join.1 w sp (fun s => { s with park := .replay })) ∧
    (replayable t = false → t.cause ≠ 0x16 → base ≠ 0 → s.handler = none →
      takeTrap m d0 w sp t false =
        waveRecord m (modSplit d w sp (fun q => { q with
          qd := [], qv := [], qb := [], pend := [], pc := base.toNat, entering := true, ans := none, served := 0, servedVals := [],
          peerLost := false, waitUntil := none, forced := [], handler := some kept })) w sp [words {}] .running) ∧
    (replayable t = false → (t.cause = 0x16 ∨ base = 0 ∨ s.handler.isSome = true) →
      takeTrap m d0 w sp t false =
        waveRecord m (modSplit d w sp (fun q => { q with heldTrap := some t, heldAsync := false })) w sp
          [words { external := true }] .held)

/-- R198: the fields of a trap record, as its eight words hold them. -/
def Obligations.RecordLayout : Prop :=
  ∀ (d : Dev) (ctx w sp pc clock : Nat) (t : Trap) (f : RecFlags),
    let x := waveOf d w
    let r := recordWords d ctx (some (w, sp)) pc clock t f
    let w0 := nth r 0 0
    r.length = 8 ∧ bits w0 7 0 = t.cause.toNat ∧ bits w0 15 8 = 0 ∧ bits w0 23 16 = t.sub.toNat ∧ bits w0 24 24 = 0 ∧
    bits w0 25 25 = f.async.toNat ∧ bits w0 26 26 = f.replay.toNat ∧ bits w0 27 27 = f.external.toNat ∧
    bits w0 28 28 = f.orphan.toNat ∧ bits w0 29 29 = f.handler.toNat ∧ bits w0 30 30 = f.cont.toNat ∧ bits w0 31 31 = 0 ∧
    bits w0 33 32 = x.stage % 4 ∧ bits w0 35 34 = ordOf x sp % 4 ∧ bits w0 39 36 = x.widx % 16 ∧
    bits w0 47 40 = vcoreOf d x % 256 ∧ bits w0 63 48 = ctx % 65536 ∧
    nth r 1 0 = w64 (pc % 2 ^ 57) ∧ nth r 2 0 = w64 clock ∧ nth r 3 0 = w64 d.cycle ∧
    nth r 4 0 = w64 (t.addr.toNat % 2 ^ 57) ∧ nth r 5 0 = t.info0 ∧ nth r 6 0 = t.info1 ∧ nth r 7 0 = t.info2.setWidth 64

/-- R340, R231, R200: `trap` raises TRAP with CODE in INFO0, `brk` raises BRK, an unassigned word raises ILLOP; outside a
handler `tret` and `rdtr` raise ILLOP. That trap is the whole effect. -/
def Sys2Proof.Claims.TrapInstructions : Prop :=
  ∀ (h : Head) (f : FmtS) (s : State) (w : W64),
    (Admitted (.trap h f) [] s → Traps (.trap h f) s { cause := 0x15, info0 := f.code.setWidth 64 }) ∧
    (Admitted (.brk h f) [] s → Traps (.brk h f) s { cause := 0x16 }) ∧
    Traps (.unassignedEncoding w) s { cause := 0x01, info0 := w } ∧
    ((mySplit s.dev).handler = none →
      (Admitted (.tret h f) [] s → Traps (.tret h f) s { cause := 0x01, info0 := encodeD (.tret h f) }) ∧
      (Admitted (.rdtr h f) [] s → Traps (.rdtr h f) s { cause := 0x01, info0 := encodeD (.rdtr h f) }))

/-- R200, R340: a return from a handler. `tret` retires, gives back the queues, the pending writes and the PC that were
set aside, and leaves handler state; `tret.skip` after a precise trap then counts the word at TPC as retired, without its
effect. `rdtr` writes a word of the current record, or of its continuation, in every active lane. That `tret.skip` at a header is a plain
`tret`, that `tret` counts as a word of the handler, and that a skipped word pops nothing are the model's reading (log 30). -/
def Sys2Proof.Claims.HandlersReturn : Prop :=
  ∀ (h : Head) (f : FmtS) (s : State) (k : Handler), (mySplit s.dev).handler = some k →
    let d1 := countWord s.dev h.stl.toNat true true
    let back := setMySplit d1 (leaveHandler (mySplit d1) k)
    (Admitted (.tret h f) [] s → ¬ (f.code = 1 ∧ k.async = false ∧ k.entering = false) → Becomes (.tret h f) s back) ∧
    (Admitted (.tret h f) [] s → f.code = 1 → k.async = false → k.entering = false →
      ∀ word e, Runs (fetchWord k.pc) s.mem back word e → Becomes (.tret h f) s (skipWord e word)) ∧
    (leaveHandler (mySplit d1) k).handler = none ∧ (leaveHandler (mySplit d1) k).pc = k.pc ∧
    (leaveHandler (mySplit d1) k).qd = k.qd ∧ (leaveHandler (mySplit d1) k).qv = k.qv ∧
    (leaveHandler (mySplit d1) k).pend = k.pend ∧ (leaveHandler (mySplit d1) k).waitUntil = k.waitUntil ∧
    (∀ d2, Admitted (.rdtr h f) [] s →
      Runs (putA 0 (mySplit s.dev).mask f.d (fun _ => nth (if bits f.code 3 3 = 1 then k.cont else k.record) (bits f.code 2 0) 0))
        s.mem s.dev () d2 → Retires (.rdtr h f) h true true s d2)

/-- R235, R228, R232: the integer instructions. Operands are integers of the type, results wrap to the container. -/
def Sys2Proof.Claims.IntegerArithmetic : Prop :=
  ∀ (h : Head) (f : FmtX),
    let t := ty f.ty
    let z := intOf t
    PlainResult (.add h f) h f 2 4 (fun a b _ => intCode t (z a + z b)) ∧
    PlainResult (.sub h f) h f 2 4 (fun a b _ => intCode t (z a - z b)) ∧
    PlainResult (.mul h f) h f 2 6 (fun a b _ => intCode t (z a * z b)) ∧
    PlainResult (.mulhi h f) h f 2 6 (fun a b _ => intCode t (z a * z b / 2 ^ tyBits t)) ∧
    PlainResult (.mad h f) h f 3 6 (fun a b c => intCode t (z a * z b + z c)) ∧
    PlainResult (.madhi h f) h f 3 6 (fun a b c => intCode t ((z a * z b + z c) / 2 ^ tyBits t)) ∧
    PlainResult (.min h f) h f 2 4 (fun a b _ => intCode t (min (z a) (z b))) ∧
    PlainResult (.max h f) h f 2 4 (fun a b _ => intCode t (max (z a) (z b))) ∧
    PlainResult (.abs h f) h f 1 4 (fun a _ _ => intCode t (z a).natAbs) ∧
    PlainResult (.neg h f) h f 1 4 (fun a _ _ => intCode t (0 - z a)) ∧
    PlainResult (.clamp h f) h f 3 4 (fun a lo hi => intCode t (min (max (z a) (z lo)) (z hi))) ∧
    PlainResult (.sad4 h f) h f 3 6 (fun a b c =>
      let byte := fun (x : W64) (i : Nat) => ((x.toNat / 256 ^ i % 256 : Nat) : Int)
      intCode .n32 (c.toNat + ((byte a 0 - byte b 0).natAbs + (byte a 1 - byte b 1).natAbs +
        (byte a 2 - byte b 2).natAbs + (byte a 3 - byte b 3).natAbs) : Nat))

/-- R236, R228: the logic instructions. Counts and tables are as the manual gives them; a count of the width or more
shifts everything out. -/
def Sys2Proof.Claims.IntegerLogic : Prop :=
  ∀ (h : Head) (f : FmtX),
    let t := ty f.ty
    let w := tyBits t
    let table := fun (n : Nat) (a b : Bool) => n / 2 ^ (2 * a.toNat + b.toNat) % 2 == 1
    PlainResult (.and h f) h f 2 4 (fun a b _ => a &&& b) ∧
    PlainResult (.or h f) h f 2 4 (fun a b _ => a ||| b) ∧
    PlainResult (.xor h f) h f 2 4 (fun a b _ => a ^^^ b) ∧
    PlainResult (.andn h f) h f 2 4 (fun a b _ => a &&& ~~~b) ∧
    PlainResult (.not h f) h f 1 4 (fun a _ _ => readTy t (~~~a)) ∧
    PlainResult (.shl h f) h f 2 4 (fun a b _ => if w ≤ b.toNat then 0 else readTy t (a <<< b.toNat)) ∧
    PlainResult (.shr h f) h f 2 4 (fun a b _ => if w ≤ b.toNat then 0 else a >>> b.toNat) ∧
    PlainResult (.sar h f) h f 2 4 (fun a b _ =>
      readTy t (BitVec.ofInt 64 (signedOf t a / 2 ^ (if w ≤ b.toNat then w - 1 else b.toNat)))) ∧
    PlainResult (.rotl h f) h f 2 4 (fun a b _ => readTy t (a <<< (b.toNat % w)) ||| (a >>> (w - b.toNat % w))) ∧
    PlainResult (.popc h f) h f 1 6 (fun a _ _ => w64 (((List.range w).map a.getLsbD).count true)) ∧
    PlainResult (.clz h f) h f 1 6 (fun a _ _ => w64 (w - bitLen a.toNat)) ∧
    PlainResult (.ctz h f) h f 1 6 (fun a _ _ => w64 (((List.range w).map a.getLsbD).takeWhile (· == false)).length) ∧
    PlainResult (.brev h f) h f 1 6 (fun a _ _ =>
      (List.range w).foldl (fun r i => if a.getLsbD (w - 1 - i) then r ||| (1#64 <<< i) else r) 0) ∧
    PlainResult (.lsel h f) h f 3 4 (fun a b c =>
      (List.range w).foldl (fun r j =>
        if table (bits f.md (if c.getLsbD j then 7 else 3) (if c.getLsbD j then 4 else 0)) (a.getLsbD j) (b.getLsbD j)
        then r ||| (1#64 <<< j) else r) 0)

/-- R237: the bit-field instructions, from the fields of IMM24 to their results; a field out of its range makes the word
illegal. -/
def Obligations.BitFields : Prop :=
  ∀ (h : Head) (f : FmtI),
    let t := ty f.ty
    let w := tyBits t
    let pos := bits f.imm 6 0
    let len := bits f.imm 14 8
    let ones := fun (n : Nat) => w64 (2 ^ n - 1)
    let lat := if t = .i64 ∨ t = .n64 then 6 else 4
    (fieldsOk (.bfx h f) = true ∨ fieldsOk (.bfi h f) = true →
      pos ≤ 63 ∧ len ≤ 64 ∧ pos + len ≤ w ∧ f.imm.toNat = pos + 256 * len ∧ isInt t = true) ∧
    (fieldsOk (.bfi h f) = true → ∃ n, opd f.d = .v n ∧ (w = 64 → n % 2 = 0)) ∧
    (∀ (s : State) (i : Instr), i = .bfx h f ∨ i = .bfi h f → fieldsOk i = false → Traps i s { cause := 0x01, info0 := encodeD i }) ∧
    LaneResult (.bfx h f) h (asX f 0xC8#8) [f.d, f.a] (some t) none none t lat (fun env a _ _ =>
      let x := (a >>> pos) &&& ones len
      { val := if (t = .i32 ∨ t = .i64) ∧ 0 < len ∧ x.getLsbD (len - 1) = true then readTy t (x ||| ~~~(ones len)) else x,
        rss := env.rss }) ∧
    LaneResult (.bfi h f) h (asX f f.d) [f.d, f.a] (some t) (some t) none t lat (fun env a d _ =>
      let m := ones len <<< pos
      { val := readTy t ((d &&& ~~~m) ||| ((a <<< pos) &&& m)), rss := env.rss })

/-! ### Compares and predicates. -/

/-- R238: the condition codes over operands that are ordered, or not (`un`), whose comparison is −1, 0 or 1. -/
def Sys2Proof.Claims.Holds (code : Nat) (un : Bool) (z : Int) : Bool :=
  let rel := match code % 8 with
    | 0 => z == 0 | 1 => z ≠ 0 | 2 => z < 0 | 3 => z ≤ 0 | 4 => z > 0 | _ => z ≥ 0
  let rel8 := match code - 8 with
    | 0 => z == 0 | 1 => z ≠ 0 | 2 => z < 0 | 3 => z ≤ 0 | 4 => z > 0 | _ => z ≥ 0
  if code < 6 then !un && rel else if code = 6 then !un else if code = 7 then un else un || rel8

/-- R238: MD[5:4] combines the result with the predicate of field C. -/
def Sys2Proof.Claims.Combined (md : BitVec 8) (r c : Bool) : Bool :=
  if bits md 5 4 = 0 then r else if bits md 5 4 = 1 then r && c else if bits md 5 4 = 2 then r || c else r ^^ c

/-- A compare: with its sources taken, the lanes' flags are kept and the predicate takes the combined result. -/
def Sys2Proof.Claims.CompareResult (i : Instr) (h : Head) (f : FmtX) (lat : Nat) (r : W64 → W64 → Bool) (fl : W64 → W64 → BitVec 9) : Prop :=
  ∀ (s : State) (q : W32 × Src × Src × W32) (d0 d1 : Dev),
    let val := fun (src : Src) (l : Nat) => valX (me d0) (mySplit d0) (ty f.ty) src l
    let flags := (lanesOf q.1).foldl (fun a l => a ||| fl (val q.2.1 l) (val q.2.2.1 l)) 0
    Admitted i (codesX f) s → Runs (takeC h f) s.mem s.dev q d0 →
    Runs (putPred true lat q.1 f.d (fun l => Claims.Combined f.md (r (val q.2.1 l) (val q.2.2.1 l)) (q.2.2.2.getLsbD l)))
      s.mem (orFlags d0 d0.cur.1 flags) () d1 →
    Retires i h false true s d1

/-- R238, R239, R244: `cmp` compares integers of the type, `fcmp` decoded values, −0 equal to +0 and NaN unordered; only
conditions 2 to 5 of `fcmp` on an unordered pair set a flag, INV. -/
def Sys2Proof.Claims.Compares : Prop :=
  ∀ (h : Head) (f : FmtX),
    let t := ty f.ty
    let wide := if t = .i64 ∨ t = .n64 then 2 else 0
    let c := bits f.md 3 0
    let fp := fun (x : W64) => decodeF (fmt t) .nan x.toNat
    let un := fun (a b : W64) => decide (fp a = .nan ∨ fp b = .nan)
    Claims.CompareResult (.cmp h f) h f (4 + wide)
      (fun a b => Claims.Holds c false (if intOf t a < intOf t b then -1 else if intOf t b < intOf t a then 1 else 0))
      (fun _ _ => 0) ∧
    Claims.CompareResult (.fcmp h f) h f (6 + wide) (fun a b => Claims.Holds c (un a b) (fpCmp (fp a) (fp b)))
      (fun a b => if un a b = true ∧ 2 ≤ c ∧ c ≤ 5 then 1 else 0)

/-- R239: selects and the instructions on predicates, per lane. -/
def Sys2Proof.Claims.Selects : Prop :=
  ∀ (h : Head) (f : FmtX) (s : State) (m : W32),
    let t := ty f.ty
    let lat := if t = .i64 ∨ t = .n64 then 6 else 4
    (∀ a b p d0 d1, Admitted (.sel h f) (codesX f) s → Runs (takeC h f) s.mem s.dev (m, a, b, p) d0 →
      Runs (putX (if tyBits t = 64 then t else .n32) lat m f.d (fun l =>
        rawX (me d0) (mySplit d0) t (if p.getLsbD l then a else b) l)) s.mem d0 () d1 → Retires (.sel h f) h false true s d1) ∧
    (∀ a x y d0 d1, Admitted (.setp h f) (codesX f) s → Runs (takeX h f (some t) none none) s.mem s.dev (m, a, x, y) d0 →
      Runs (putPred true lat m f.d (fun l => decide (valX (me d0) (mySplit d0) t a l ≠ 0))) s.mem d0 () d1 →
      Retires (.setp h f) h false true s d1) ∧
    (∀ p y d0 d1, Admitted (.getp h f) (codesX f) s → Runs (takeP h f) s.mem s.dev (m, p, y) d0 →
      Runs (putX .n32 4 m f.d (fun l => if p.getLsbD l then 1 else 0)) s.mem d0 () d1 → Retires (.getp h f) h false true s d1) ∧
    (∀ p y d0 d1, Admitted (.pnot h f) (codesX f) s → Runs (takeP h f) s.mem s.dev (m, p, y) d0 →
      Runs (putPred true 4 m f.d (fun l => !p.getLsbD l)) s.mem d0 () d1 → Retires (.pnot h f) h false true s d1) ∧
    (∀ (i : Instr) (op : Bool → Bool → Bool), (i, op) ∈ [(Instr.pand h f, (· && ·)), (.por h f, (· || ·)), (.pxor h f, Bool.xor)] →
      ∀ p q d0 d1, Admitted i (codesX f) s → Runs (takeP h f) s.mem s.dev (m, p, q) d0 →
      Runs (putPred true 4 m f.d (fun l => op (p.getLsbD l ^^ (bits f.md 3 3 == 1)) (q.getLsbD l ^^ (bits f.md 1 1 == 1))))
        s.mem d0 () d1 → Retires i h false true s d1)

/-! ### Floating point. -/

/-- A floating instruction: operands after MD's modifiers, the exact result rounded once to the type, its flags joined to
those the operation sets; under RSS the lane's state has stepped once. -/
def Sys2Proof.Claims.FloatResult (i : Instr) (h : Head) (f : FmtX) (n lat : Nat) (fn : Rnd → Fp → Fp → Fp → Pre) : Prop :=
  let t := ty f.ty
  let op := fun (neg abs : Bool) (x : W64) => decodeF (fmt t) .nan (signMods t neg abs x).toNat
  LaneResult i h f (codesX f) (some t) (if 2 ≤ n then some t else none) (if 3 ≤ n then some t else none) t lat
    (fun env a b c =>
      let r := fn env.rnd (op (bits f.md 3 3 == 1) (bits f.md 2 2 == 1) a) (op (bits f.md 1 1 == 1) (bits f.md 0 0 == 1) b)
        (op false false c)
      let st := if env.rnd = .rss then rssStep env.rss else env.rss
      let e := encodeF (fmt t) env.rnd st true r.val r.sticky
      { val := w64 e.code, flags := e.flags ||| r.flags, rss := st })

/-- R240 to R242, R88, R228: floating arithmetic. INV where a NaN is made from operands that are none; `ffma` rounds once,
and 0 × ∞ in it is INV whatever C is. -/
def Sys2Proof.Claims.FloatArithmetic : Prop :=
  ∀ (h : Head) (f : FmtX),
    let one := ofInt 1
    let inv := fun (r : Fp × Bool) => ({ val := r.1, flags := if r.2 then 1 else 0 } : Pre)
    Claims.FloatResult (.fadd h f) h f 2 6 (fun r a b _ => inv (fpAdd r a b)) ∧
    Claims.FloatResult (.fsub h f) h f 2 6 (fun r a b _ => inv (fpAdd r a (fpNeg b))) ∧
    Claims.FloatResult (.fmul h f) h f 2 6 (fun _ a b _ => inv (fpMul a b)) ∧
    Claims.FloatResult (.ffma h f) h f 3 6 (fun r a b c =>
      if (fpMul a b).2 then { val := .nan, flags := 1 } else inv (fpAdd r (fpMul a b).1 c)) ∧
    Claims.FloatResult (.fdiv h f) h f 2 20 (fun _ a b _ => fpDiv a b) ∧
    Claims.FloatResult (.fsqrt h f) h f 1 20 (fun _ a _ _ => fpSqrt a) ∧
    Claims.FloatResult (.frcp h f) h f 1 20 (fun _ a _ _ => fpDiv one a) ∧
    Claims.FloatResult (.frsq h f) h f 1 20 (fun _ a _ _ => fpRsqrt a) ∧
    Claims.FloatResult (.fexp2 h f) h f 1 20 (fun _ a _ _ => fpExp2 a) ∧
    Claims.FloatResult (.flog2 h f) h f 1 20 (fun _ a _ _ => fpLog2 a) ∧
    Claims.FloatResult (.fsinpi h f) h f 1 20 (fun _ a _ _ => fpSinpi a) ∧
    Claims.FloatResult (.fcospi h f) h f 1 20 (fun _ a _ _ => fpCospi a)

/-- R241, R243, R245: the floating instructions that set no flag. `fmin`, `fmax` and `fclamp` return an operand, NaN losing
to a number and −0 below +0; the roundings return an integral value, `fround` in the word's mode; `fclass` gives one bit. -/
def Sys2Proof.Claims.FloatChoices : Prop :=
  ∀ (h : Head) (f : FmtX),
    let t := ty f.ty
    let opA := fun (x : W64) => decodeF (fmt t) .nan (signMods t (bits f.md 3 3 == 1) (bits f.md 2 2 == 1) x).toNat
    let opB := fun (x : W64) => decodeF (fmt t) .nan (signMods t (bits f.md 1 1 == 1) (bits f.md 0 0 == 1) x).toNat
    let opC := fun (x : W64) => decodeF (fmt t) .nan (signMods t false false x).toNat
    let code := fun (x : Fp) => w64 (encodeF (fmt t) .rne 0 true x false).code
    let less := fun (a b : Fp) => match a, b with
      | .fin s 0 _, .fin u 0 _ => s && !u
      | a, b => decide (fpCmp a b < 0)
    let lo := fun (a b : Fp) => if a = .nan then b else if b = .nan then a else if less b a then b else a
    let hi := fun (a b : Fp) => if a = .nan then b else if b = .nan then a else if less a b then b else a
    let whole := fun (r : Rnd) (st : W32) (x : Fp) => match x with
      | .fin s m e => if m = 0 then x else .fin s (roundTo r st s m e 0 false).1 0
      | y => y
    let fixed := fun (r : Rnd) (env : LaneEnv) (a _ _ : W64) => ({ val := code (whole r 0 (opA a)), rss := env.rss } : LaneRes)
    LaneResult (.fmin h f) h f (codesX f) (some t) (some t) none t 6 (fun env a b _ =>
      { val := code (lo (opA a) (opB b)), rss := env.rss }) ∧
    LaneResult (.fmax h f) h f (codesX f) (some t) (some t) none t 6 (fun env a b _ =>
      { val := code (hi (opA a) (opB b)), rss := env.rss }) ∧
    LaneResult (.fclamp h f) h f (codesX f) (some t) (some t) (some t) t 6 (fun env a b c =>
      { val := code (lo (hi (opA a) (opB b)) (opC c)), rss := env.rss }) ∧
    LaneResult (.ffloor h f) h f (codesX f) (some t) none none t 6 (fixed .rdn) ∧
    LaneResult (.fceil h f) h f (codesX f) (some t) none none t 6 (fixed .rup) ∧
    LaneResult (.ftrunc h f) h f (codesX f) (some t) none none t 6 (fixed .rtz) ∧
    LaneResult (.fround h f) h f (codesX f) (some t) none none t 6 (fun env a _ _ =>
      let st := if env.rnd = .rss then rssStep env.rss else env.rss
      { val := code (whole env.rnd st (opA a)), rss := st }) ∧
    LaneResult (.fclass h f) h f (codesX f) (some t) none none .n32 6 (fun env a _ _ =>
      { val := w64 (2 ^ classBit t a.toNat), rss := env.rss })

/-! ### Conversion. -/

/-- R246, R247, R250, R85 to R87, R228: `cvt` converts one value; `pack2` two into one register, a first; `unpack2` the two
of a register into a pair; `srnd` sets the RSS state, 0 standing for 1, and writes no destination. An inline integer under a narrow
source type is taken as its exact value by `cvt`; `unpack2`, whose source is a register of packed values, takes the inline integer
rounded to the source type (R219 as the model reads it, log 20). -/
def Sys2Proof.Claims.Conversions : Prop :=
  ∀ (h : Head) (f : FmtX),
    let dst := ty f.ty
    let src := srcTy f.md
    let nsat := bits f.md 4 4 == 1
    let lat := if dst = .i64 ∨ dst = .n64 ∨ src = .i64 ∨ src = .n64 then 8 else 6
    let small := match opd f.a with
      | .inl _ => src = .e4m3 ∨ src = .e5m2 ∨ src = .e2m1 ∨ src = .i4x
      | _ => False
    (¬ small → LaneResult (.cvt h f) h f (codesX f) (some src) none none dst lat
      (fun env a _ _ => convert env dst src nsat a)) ∧
    (small → LaneResult (.cvt h f) h f (codesX f) (some .i32) none none dst lat
      (fun env a _ _ => convert env dst .i32 nsat a)) ∧
    LaneResult (.pack2 h f) h f (codesX f) (some src) (some src) none .n32 lat (fun env a b _ =>
      let x := convert env dst src nsat a
      let y := convert { env with rss := x.rss } dst src nsat b
      { val := readTy dst x.val ||| (readTy dst y.val <<< tyBits dst), flags := x.flags ||| y.flags, rss := y.rss }) ∧
    LaneResult (.unpack2 h f) h f (codesX f) (some .n32) none none .n64 lat (fun env a _ _ =>
      let v := match opd f.a with
        | .inl z => inlineTy src z
        | _ => a
      let x := convert env dst src nsat (readTy src v)
      let y := convert { env with rss := x.rss } dst src nsat (readTy src (v >>> tyBits src))
      { val := ((writeTy dst x.val).setWidth 32).setWidth 64 ||| (writeTy dst y.val <<< 32), flags := x.flags ||| y.flags,
        rss := y.rss }) ∧
    LaneResult (.srnd h f) h f (codesX f) (some .n32) none none .n32 6 (fun _ a _ _ =>
      { val := 0, rss := if a = 0 then 1 else a.setWidth 32 }) ∧
    (fieldsOk (.srnd h f) = true → opd f.d = .zero)

/-- R248, R249: the warp-wide group conversions. `quant` makes a group of the active lanes' values, its data four bytes a
lane and its descriptor in the upper register; `dequant` decodes a group, FORMAT for a bad descriptor. -/
def Sys2Proof.Claims.GroupConversions : Prop :=
  ∀ (h : Head) (f : FmtX) (s : State) (m : W32),
    let t := ty f.ty
    (∀ a x y d0 d1, Admitted (.quant h f) (codesX f) s → Runs (takeX h f (some .f32) none none) s.mem s.dev (m, a, x, y) d0 →
      let res := quantLane d0 f m a
      Runs (putX .n64 10 m f.d (fun l => leWord (((quantBytes t m res).drop (4 * l)).take 4) |||
        w64 ((quantSc d0 t m a * 256 + tyFmt t) * 2 ^ 32))) s.mem (keepRes d0 m res) () d1 → Retires (.quant h f) h false true s d1) ∧
    (∀ l0 d1, (me s.dev).chk = false → Admitted (.dequant h f) (codesX f) s → Runs (acting h true) s.mem s.dev m s.dev →
      (lowLane m = none → Runs (putX .f32 10 m f.d (fun _ => 0)) s.mem s.dev () d1 → Retires (.dequant h f) h false true s d1) ∧
      (lowLane m = some l0 →
      let raw := (regLane (me s.dev) (mySplit s.dev) (f.a.toNat + 1) l0).setWidth 16
      let res := dequantLane s.dev f (dequantGroup s.dev f raw)
      (descOk raw = false → Traps (.dequant h f) s { cause := 0x13 }) ∧
      (descOk raw = true → Runs (putX .f32 10 m f.d (fun l => (res l).val)) s.mem (keepRes s.dev m res) () d1 →
        Retires (.dequant h f) h false true s d1)))

/-! ### Lane operations. -/

/-- R251 to R253, R228: values and predicates move between the lanes of the active mask. -/
def Obligations.LaneMovement : Prop :=
  ∀ (h : Head) (f : FmtX) (s : State) (m : W32),
    let t := ty f.ty
    let lat := fun (n : Nat) => if t = .i64 ∨ t = .n64 then n + 2 else n
    let width := 2 ^ bits f.md 4 2
    (∀ a b d0 d1, Admitted (.shfl h f) (codesX f) s → Runs (takeS h f) s.mem s.dev (m, a, b) d0 →
      let k := fun (l : Nat) => (valX (me d0) (mySplit d0) .n32 b l).toNat % 32 % width
      let from_ := fun (l : Nat) =>
        let base := l - l % width
        let j := l % width
        if bits f.md 1 0 = 0 then base + k l else if bits f.md 1 0 = 1 then base + (j + k l) % width
        else if bits f.md 1 0 = 2 then base + (j ^^^ k l) else base + (width - 1 - j)
      Runs (putX t (lat 8) m f.d (fun l => if from_ l < 32 ∧ m.getLsbD (from_ l) = true
        then valX (me d0) (mySplit d0) t a (from_ l) else 0)) s.mem d0 () d1 → Retires (.shfl h f) h false true s d1) ∧
    (∀ a b d0 d1, Admitted (.bcast h f) (codesX f) s → Runs (takeS h f) s.mem s.dev (m, a, b) d0 →
      let n := (valX (me d0) (mySplit d0) .n32 b ((lowLane m).getD 0)).toNat
      Runs (putX t (lat 8) m f.d (fun _ => if n < 32 ∧ m.getLsbD n = true then valX (me d0) (mySplit d0) t a n else 0))
        s.mem d0 () d1 → Retires (.bcast h f) h false true s d1) ∧
    (∀ p y d0 d1, Admitted (.vote h f) (codesX f) s → Runs (takeP h f) s.mem s.dev (m, p, y) d0 →
      let n := (lanesOf m).length
      let k := (lanesOf (m &&& p)).length
      Runs (putPred true 8 m f.d (fun _ => if bits f.md 1 0 = 0 then k == n else if bits f.md 1 0 = 1 then k ≠ 0
        else if bits f.md 1 0 = 2 then k % 2 == 1 else decide (n < 2 * k))) s.mem d0 () d1 → Retires (.vote h f) h false true s d1) ∧
    (∀ p y d0 d1, Admitted (.ballot h f) (codesX f) s → Runs (takeP h f) s.mem s.dev (m, p, y) d0 →
      Runs (putX .n32 8 m f.d (fun _ => (m &&& p).setWidth 64)) s.mem d0 () d1 → Retires (.ballot h f) h false true s d1) ∧
    (∀ d0 d1, Admitted (.lanemask h f) (codesX f) s → Runs (acting h true) s.mem s.dev m d0 →
      Runs (putX .n32 8 m f.d (fun l => (laneMaskOf (bits f.md 2 0) m l).setWidth 64)) s.mem d0 () d1 →
      Retires (.lanemask h f) h false true s d1) ∧
    (∀ a heads d0 d1, Admitted (.wscan h f) (codesX f) s → Runs (takeW h f) s.mem s.dev (m, a, heads) d0 →
      let out := scanOf d0 f (m, a, heads)
      Runs (putX t (lat 14) m f.d (fun l => (scanLane d0 out l).val)) s.mem (keepRes d0 m (scanLane d0 out)) () d1 →
      Retires (.wscan h f) h false true s d1) ∧
    (∀ a heads d0 d1, Admitted (.wred h f) (codesX f) s → Runs (takeW h f) s.mem s.dev (m, a, heads) d0 →
      let out := scanOf d0 f (m, a, heads)
      Runs (putX t (lat 14) m f.d (fun _ => out.1)) s.mem (keepRes d0 m (scanLane d0 out)) () d1 →
      Retires (.wred h f) h false true s d1)

/-- R253: the fold of `wscan` and `wred` takes the lanes in ascending order, each active one once, and begins again from
the operation's identity at every segment head; an inclusive lane sees its own value, an exclusive one what came before. -/
def Obligations.FoldsInLaneOrder : Prop :=
  ∀ (op : Nat) (t : Ty) (excl : Bool) (m heads : W32) (envs : Nat → LaneEnv) (a : Nat → W64) (l : Nat) (r : List Nat) (p : W64),
    let p0 := if heads.getLsbD l then foldIdent op t else p
    let q := foldStep (envs l) op t p0 (a l)
    let rest := scanGo op t excl m heads envs a r
    scanGo op t excl m heads envs a [] p = (p, []) ∧
    (m.getLsbD l = false → scanGo op t excl m heads envs a (l :: r) p = rest p0) ∧
    (m.getLsbD l = true → scanGo op t excl m heads envs a (l :: r) p =
      ((rest q.val).1, (l, { q with val := if excl then p0 else q.val }) :: (rest q.val).2)) ∧
    (foldStep (envs l) 0 .n32 p (a l)).val = intCode .n32 (intOf .n32 p + intOf .n32 (a l)) ∧
    (foldStep (envs l) 3 t p (a l)).val = p &&& a l ∧ (foldStep (envs l) 4 t p (a l)).val = p ||| a l ∧
    (foldStep (envs l) 5 t p (a l)).val = p ^^^ a l ∧ foldIdent 0 t = 0 ∧ foldIdent 4 t = 0 ∧ foldIdent 5 t = 0

/-! ### Access arithmetic. -/

/-- Access arithmetic: with its sources and its guard taken, each active lane's result, computed at the width of the type
and extended to 64 bits, goes to the destination; then the word retires. -/
def Sys2Proof.Claims.AccessResult (i : Instr) (h : Head) (d a b c gc : BitVec 8) (t : Ty) (lat : Nat) (fn : Bool → W64 → W64 → W64 → W64) : Prop :=
  ∀ (s : State) (q : W32 × Src × Src × Src × W32) (d0 d1 : Dev),
    let val := fun (src : Src) (l : Nat) => readTy t (valA (me d0) (mySplit d0) src l)
    let ext := fun (v : W64) => match t with
      | .i32 => (v.setWidth 32).signExtend 64
      | .n32 => (v.setWidth 32).setWidth 64
      | _ => v
    Admitted i [] s → Runs (takeA h a b c gc) s.mem s.dev q d0 →
    Runs (putA lat q.1 d (fun l => ext (fn (q.2.2.2.2.getLsbD l) (val q.2.1 l) (val q.2.2.1 l) (val q.2.2.2.1 l)))) s.mem d0 () d1 →
    Retires i h true false s d1

/-- R254 to R256, R228, R217: access arithmetic wraps to the type; `asel` chooses by a guard, `amovk` loads an immediate,
`acmp` reduces its lanes to one guard, combined with the guard of field C as the split's lowest lane sees it (R229). -/
def Obligations.AccessArithmetic : Prop :=
  ∀ (h : Head) (f : FmtX) (g : FmtK),
    let t := ty f.ty
    let w := tyBits t
    let z := intOf t
    let plain := fun (i : Instr) (lat : Nat) (fn : W64 → W64 → W64 → W64) =>
      Claims.AccessResult i h f.d f.a f.b f.c 0xC8 t lat (fun _ a b c => fn a b c)
    plain (.aadd h f) 2 (fun a b _ => intCode t (z a + z b)) ∧
    plain (.asub h f) 2 (fun a b _ => intCode t (z a - z b)) ∧
    plain (.amul h f) 5 (fun a b _ => intCode t (z a * z b)) ∧
    plain (.amad h f) 5 (fun a b c => intCode t (z a * z b + z c)) ∧
    plain (.ashl h f) 2 (fun a b _ => if w ≤ b.toNat then 0 else readTy t (a <<< b.toNat)) ∧
    plain (.ashr h f) 2 (fun a b _ => if w ≤ b.toNat then 0 else a >>> b.toNat) ∧
    plain (.asar h f) 2 (fun a b _ => readTy t (BitVec.ofInt 64 (signedOf t a / 2 ^ (if w ≤ b.toNat then w - 1 else b.toNat)))) ∧
    plain (.aand h f) 2 (fun a b _ => a &&& b) ∧
    plain (.aor h f) 2 (fun a b _ => a ||| b) ∧
    plain (.axor h f) 2 (fun a b _ => a ^^^ b) ∧
    plain (.amin h f) 2 (fun a b _ => intCode t (min (z a) (z b))) ∧
    plain (.amax h f) 2 (fun a b _ => intCode t (max (z a) (z b))) ∧
    plain (.amov h f) 2 (fun a _ _ => a) ∧
    Claims.AccessResult (.asel h f) h f.d f.a f.b 0xC8 f.c t 2 (fun c a b _ => if c then a else b) ∧
    Claims.AccessResult (.amovk h g) h g.d 0xC8 0xC8 0xC8 0xC8 (ty g.ty) 2 (fun _ _ _ _ =>
      readTy (ty g.ty) (if ty g.ty = .i32 ∨ ty g.ty = .i64 then g.imm.signExtend 64 else g.imm.setWidth 64)) ∧
    (∀ (s : State) (q : W32 × Src × Src × Src × W32) (d0 d1 : Dev),
      let val := fun (src : Src) (l : Nat) => z (readTy t (valA (me d0) (mySplit d0) src l))
      let r := fun (l : Nat) => Claims.Holds (bits f.md 3 0) false
        (if val q.2.1 l < val q.2.2.1 l then -1 else if val q.2.2.1 l < val q.2.1 l then 1 else 0)
      let one := if bits f.md 7 6 = 0 then r ((lowLane q.1).getD 0) else if bits f.md 7 6 = 1 then (lanesOf q.1).all r
        else (lanesOf q.1).any r
      Admitted (.acmp h f) [] s → Runs (takeA h f.a f.b 0xC8 f.c) s.mem s.dev q d0 →
      Runs (putPred false 2 q.1 f.d (fun _ => Claims.Combined f.md one (q.2.2.2.2.getLsbD ((lowLane (mySplit d0).mask).getD 0))))
        s.mem d0 () d1 →
      Retires (.acmp h f) h true false s d1)

/-! ### Control. -/

/-- An ordering operation performs (R160 to R163): outside FO mode at once; in FO mode when the split holds its launch's
least key and the wave's engine operations have completed, which are then published at its clock. -/
def Sys2Proof.Claims.Ordered (m : Memory) (d e : Dev) : Prop :=
  ((me d).fo = false ∧ e = d) ∨
  ((me d).fo = true ∧ (launchOf d (me d).launch).minKey = some (keyOf (me d) d.cur.2) ∧ enginesDone d d.cur.1 = true ∧
    e = publishWave m d d.cur.1 (mySplit d).clock)

/-- A release proceeds (R101, R115, R124): every posted write has been acknowledged, and the lines that the wave has
written under a grant go home, at `.dev` and `.sys`. -/
def Sys2Proof.Claims.Released (sc : Scope) (d e : Dev) : Prop := (me d).posted = [] ∧ e = drainGrants d d.cur.1 sc

/-- R216, R257, R258, R210: `br` and `brc`. With no lane to take the branch the word retires in place; with every lane
taking it the split goes to the target, 64 times the offset from the word's 64-byte line, once it is checked; otherwise the
taken lanes diverge from those that go on. -/
def Sys2Proof.Claims.Branches : Prop :=
  ∀ (h : Head) (f : FmtB) (s : State),
    let q := mySplit s.dev
    let va := BitVec.ofInt 64 ((q.pc / 64 * 64 : Nat) + 64 * f.off.toInt)
    let exe := bits f.flg 0 0 == 0
    let stl := h.stl.toNat
    (∀ m, Admitted (.br h f) [] s → Runs (acting h false) s.mem s.dev m s.dev →
      (m = 0 → Retires (.br h f) h true false s s.dev) ∧
      (m ≠ 0 → ∀ d1, Runs (checkTarget va) s.mem s.dev () d1 →
        Becomes (.br h f) s (goHeader (countWord d1 stl true false) va.toNat)) ∧
      (m ≠ 0 → ∀ t, runAct (checkTarget va) s.mem s.dev = .error t → Traps (.br h f) s t)) ∧
    (∀ c, Admitted (.brc h f) [] s → Runs (takePred exe q.mask f.reg) s.mem s.dev c s.dev →
      let t := (if bits f.flg 1 1 = 1 then ~~~c else c) &&& q.mask
      (t = 0 → Retires (.brc h f) h (!exe) exe s s.dev) ∧
      (t ≠ 0 → t = q.mask → ∀ d1, Runs (checkTarget va) s.mem s.dev () d1 →
        Becomes (.brc h f) s (goHeader (countWord d1 stl (!exe) exe) va.toNat)) ∧
      (t ≠ 0 → t ≠ q.mask → ∀ d1 p d2 next d3 d4, Runs (checkTarget va) s.mem s.dev () d1 → Runs reconvOf s.mem d1 p d2 →
        Runs fallThrough s.mem d2 next d3 →
        Runs (diverge t (q.mask &&& ~~~t) va.toNat p) s.mem (countWord d3 stl (!exe) exe) () d4 →
        Becomes (.brc h f) s (match next with
          | some b => goHeader d4 b
          | none => setMySplit d4 { mySplit d4 with pc := q.pc + 8 })))

/-- R257, R258: `brx` and `ret` send each lane to its own target. Every target is checked first; the lanes that fail with
a trap are named in INFO2 of the lowest's. Lanes of one target move together, several targets diverge, lowest first. -/
def Sys2Proof.Claims.IndirectBranches : Prop :=
  ∀ (h : Head) (f : FmtX) (s : State) (i : Instr), i = .brx h f ∨ i = .ret h f → Admitted i [] s →
    ∀ m src d0 d1, Runs (acting h false) s.mem s.dev m d0 → Runs (takeSrc .n64 m f.a) s.mem d0 src d1 →
      let tgt := fun (l : Nat) => valA (me d1) (mySplit d1) src l
      let gs := groupTargets (lanesOf m) tgt
      (m = 0 → Retires i h true false s d1) ∧
      (m ≠ 0 → ∀ rs d2,
        Runs ((lanesOf m).mapM (fun l => do pure (l, ← tryAct (checkTarget (tgt l))))) s.mem d1 rs d2 →
        let bad := rs.filterMap (fun r => match r.2 with | .error t => some (r.1, t) | .ok _ => none)
        (∀ l t b, bad = (l, t) :: b → (∀ r ∈ bad, r.2.cause ≠ 0) → Traps i s { t with info2 := maskOf (bad.map (·.1)) }) ∧
        ((∃ r ∈ bad, r.2.cause = 0) → Traps i s { cause := 0 }) ∧
        (bad = [] → gs.length ≤ 1 → ∀ d3, Runs (divergeAll 0 gs) s.mem (countWord d2 h.stl.toNat true false) () d3 → Becomes i s d3) ∧
        (bad = [] → 1 < gs.length → ∀ p d3 d4, Runs reconvOf s.mem d2 p d3 →
          Runs (divergeAll p gs) s.mem (countWord d3 h.stl.toNat true false) () d4 → Becomes i s d4))

/-- R258, R210: `call` stands last in its block, writes the next boundary to its register, and goes to its target. -/
def Sys2Proof.Claims.Calls : Prop :=
  ∀ (h : Head) (f : FmtB) (s : State), Admitted (.call h f) [] s →
    let q := mySplit s.dev
    let va := BitVec.ofInt 64 ((q.pc / 64 * 64 : Nat) + 64 * f.off.toInt)
    (atLast q = false → Traps (.call h f) s { cause := 0x01, info0 := encodeD (.call h f) }) ∧
    (∀ m, atLast q = true → Runs (acting h false) s.mem s.dev m s.dev →
      (m = 0 → Retires (.call h f) h true false s s.dev) ∧
      (m ≠ 0 → ∀ d1 d2, Runs (checkTarget va) s.mem s.dev () d1 →
        Runs (putA 0 m f.reg (fun _ => w64 ((q.pc + 8 + 63) / 64 * 64))) s.mem d1 () d2 →
        Becomes (.call h f) s (goHeader (countWord d2 h.stl.toNat true false) va.toNat)))

/-- The subtraction of `done` and `join` (R177): one that cannot reach the counter is JOIN_FAULT with the cause as SUB, a counter
at 0 is JOIN_UNDERFLOW; else the counter takes one less at its home, and one that has been 1 pushes the frame's record. That nothing
is subtracted where that record cannot be read is the model's choice (log 23). -/
def Sys2Proof.Claims.CounterSubtracts : Prop :=
  ∀ (m : Memory) (d : Dev) (w sp joff : Nat) (frame : W64),
    let out := subtractJoin m d w sp frame joff
    (∀ c, joinKey m d w (frame.toNat + joff) = .error c → out = .error { cause := 0x29, sub := c, addr := frame }) ∧
    (∀ k d1, joinKey m d w (frame.toNat + joff) = .ok (k, d1) →
      let v := rd64 m d1 k
      let less := fun (e : Dev) =>
        homeWrite m (recallLine e (k / 64)) ⟨some w, (splitOf (waveOf d w) sp).clock⟩ k (leBytes 8 (v - 1))
      (v = 0 → out = .error { cause := 0x25, addr := frame }) ∧
      (2 ≤ v.toNat → out = .ok (less d1)) ∧
      (v = 1 → ∀ c, frameRecord m d1 w frame.toNat = .error c → out = .error { cause := 0x29, sub := c, addr := frame }) ∧
      (v = 1 → ∀ r d2, frameRecord m d1 w frame.toNat = .ok (r, d2) →
        out = .ok (pushCont (less d2) w r (lineOf (less d2) (k / 64)).wts
          (if (waveOf d w).fo then (splitOf (waveOf d w) sp).clock + 1 else 0))))

/-- The locks that a wave still holds as its last lanes end are broken first, as a `.dev` release (R145, R146): with none it goes
on; else once every posted write has been acknowledged and the records have been written, or dropped. -/
def Sys2Proof.Claims.Unlocked (m : Memory) (d e : Dev) : Prop :=
  ((me d).held = [] ∧ e = d) ∨
  ((me d).held ≠ [] ∧ (me d).posted = [] ∧ e = breakHeld m (drainGrants d d.cur.1 .dev) ∧ (mySplit e).park = .running)

/-- R259, R335, R177, R163: `exit`, `join` and `done` end the active lanes: a split that takes up other lanes has its clock count the
word. When they are the wave's last, in FO mode the wave's engine operations are published first; then the locks that it holds are
broken, for which it waits while posted writes are unacknowledged (R145, R146) or a record meets a full ring (R204; log 70); then
`join` and `done` release at `.dev` and subtract from their frame's counter. A subtraction that faults still ends the lanes, with
its record. That `exit` orders only for the wave's last lanes is log 34, and that a counter at 1 whose record cannot be read faults
log 23: the model's choices. -/
def Sys2Proof.Claims.LanesEnd : Prop :=
  ∀ (h : Head) (f : FmtX) (s : State) (i : Instr) (sub : Wave → W64 × Nat),
    let last := lastLanes s.dev s.dev.cur.1 s.dev.cur.2
    let e := endSplit s.mem s.dev
    let frame := sub (me s.dev)
    (i = .exit h f) ∨ (i = .join h f ∧ sub = (fun x => (x.cframe, x.cjoff))) ∨ (i = .done h f ∧ sub = (fun x => (x.rframe, x.rjoff))) →
    Admitted i [] s →
    (last = false → Becomes i s (if (mySplit e).mask = 0 then e else moveClock e e.cur.1 e.cur.2 ((mySplit e).clock + 1))) ∧
    (last = true → ∀ d0, Claims.Ordered s.mem s.dev d0 → (me d0).held ≠ [] →
      ((me d0).posted ≠ [] → Stays i s (setMySplit d0 { mySplit d0 with park := .ack })) ∧
      ((me d0).posted = [] → let e := breakHeld s.mem (drainGrants d0 d0.cur.1 .dev)
        (mySplit e).park ≠ .running → Becomes i s e)) ∧
    (last = true → i = .exit h f → ∀ d0 d1, Claims.Ordered s.mem s.dev d0 → Claims.Unlocked s.mem d0 d1 → Becomes i s (endSplit s.mem d1)) ∧
    (last = true → i ≠ .exit h f → ∀ d0 d1 d2, Claims.Ordered s.mem s.dev d0 → Claims.Unlocked s.mem d0 d1 → Claims.Released .dev d1 d2 →
      let d3 := drainGrants d2 d2.cur.1 .dev
      (frame.1 = 0 → Becomes i s (endSplit s.mem d2)) ∧
      (frame.1 ≠ 0 → ∀ d4, subtractJoin s.mem d3 d2.cur.1 d2.cur.2 frame.1 frame.2 = .ok d4 → Becomes i s (endSplit s.mem d4)) ∧
      (frame.1 ≠ 0 → ∀ t, subtractJoin s.mem d3 d2.cur.1 d2.cur.2 frame.1 frame.2 = .error t →
        let r := ringWrite s.mem d2 (me d2).ctx
          [recordWords d2 (me d2).ctx (some d2.cur) (mySplit d2).pc (mySplit d2).clock t {}] true
        (∀ n wts, r.2 = .full n wts → Becomes i s (modSplit r.1 d2.cur.1 d2.cur.2 (fun q =>
          { q with park := .ring n wts, ringRec := [], after := .running }))) ∧
        ((∀ n wts, r.2 ≠ .full n wts) → Becomes i s (endSplit s.mem r.1))))

/-- R260, R261, and the device steps that end them: `yield` retires and lets every other ready split of its sub-pipe
issue once, for at most 64 cycles; `wait` adds its count to the access distances and holds the access stream for as many cycles,
and, where some lane acts, until the fixed-latency writes of that stream have completed. -/
def Sys2Proof.Claims.Pauses : Prop :=
  ∀ (h : Head) (f : FmtX) (g : FmtI) (s : State) (w sp : Nat),
    let stl := h.stl.toNat
    let q := splitOf (waveOf s.dev w) sp
    let others := otherReady s.mem s.dev
    let n := g.imm.toNat + stl
    (Admitted (.yield h f) [] s → ∀ e, Runs (retireWord stl true true) s.mem s.dev () e →
      Becomes (.yield h f) s (if others = [] then e else setMySplit e { mySplit e with park := .yielded e.cycle others })) ∧
    (∀ m e, Admitted (.wait h g) [] s → Runs (acting h false) s.mem s.dev m s.dev → Runs (retireWord n true false) s.mem s.dev () e →
      Becomes (.wait h g) s (setMySplit e { mySplit e with
        waitUntil := some (e.cycle + max n (if m = 0 then 0 else writesLeft (mySplit s.dev))) })) ∧
    (∀ p ∈ q.pend, p.acc = true → p.lat - p.dist ≤ writesLeft q) ∧
    (writesLeft q = 0 ∨ ∃ p ∈ q.pend, p.acc = true ∧ writesLeft q = p.lat - p.dist) ∧
    (∀ t, q.waitUntil = some t → t ≤ s.dev.cycle →
      Becomes (.waitExpiry w sp) s (modSplit s.dev w sp (fun q => { q with waitUntil := none }))) ∧
    (∀ t l, q.park = .yielded t l → t + 64 ≤ s.dev.cycle →
      Becomes (.yieldExpiry w sp) s (modSplit s.dev w sp (fun q => { q with park := .running })))

/-- An instruction that pushes one row to qd has room for it before it acts (R173). -/
def Sys2Proof.Claims.Room (code : BitVec 8) (d : Dev) : Prop := opd code = .qd → (mySplit d).qd.length + 1 ≤ 16

/-! ### Memory. -/

/-- An instruction whose lanes perform in parts, from its checked places on. A part that would trap stops the word with nothing
performed; when the last part has performed the word ends as `done` says of the lanes' values and of the device; a word whose
next part has to wait stays. -/
def Sys2Proof.Claims.InParts (i : Instr) (h : Head) (s : State) (d : Dev) (ps : List Part) (done : Row → Dev → Dev → Prop) : Prop :=
  (∀ t, runAct (needParts ps) s.mem d = .error t → Traps i s t) ∧
  (Runs (needParts ps) s.mem d () d →
    (∀ e e1, Runs (performParts ps) s.mem d true e → done (mySplit e).servedVals e e1 → Retires i h true false s e1) ∧
    (∀ e, Runs (performParts ps) s.mem d false e → Stays i s e))

/-- R42, R65, R68, R125, R198, R263: the parts of an instruction. The first part that would trap decides the cause, and INFO2 holds
the lanes of every part that would with that cause. Else parts perform in order, each whole: one that this device serves, and
then its lanes have performed; one that waits for a page ends the issue there; one for a peer parks the split until its answer
has come, and takes it. -/
def Sys2Proof.Claims.PartsPerform : Prop :=
  ∀ (m : Memory) (d : Dev) (p : Part) (r : List Part),
    (∀ t a b, (p :: r) = a ++ b → (∀ q ∈ a, partTrap m d q = none) → b.head?.bind (partTrap m d) = some t →
      let bad := (p :: r).filter (fun q => (partTrap m d q).any (fun x => x.cause == t.cause))
      runAct (needParts (p :: r)) m d = .error { t with info2 := maskOf (bad.flatMap (·.lanes)) }) ∧
    ((∀ q ∈ p :: r, partTrap m d q = none) → Runs (needParts (p :: r)) m d () d) ∧
    Runs (performParts []) m d true d ∧
    (p.peer = none → ∀ vals d1, p.run m d = .ok (vals, d1) →
      runAct (performParts (p :: r)) m d = runAct (performParts r) m (servePart d1 p vals)) ∧
    (p.peer = none → ∀ t pi d1, p.run m d = .error (.page t pi) → Runs (awaitPage t pi) m d () d1 →
      Runs (performParts (p :: r)) m d false (forcePage d1 t pi)) ∧
    (∀ n, p.peer = some n → (mySplit d).ans = none →
      let e := sendTo d n (.request d.cur.1 d.cur.2)
      Runs (performParts (p :: r)) m d false (setMySplit e { mySplit e with park := .peer (2 * n) })) ∧
    (∀ n a, p.peer = some n → (mySplit d).ans = some a →
      let e := servePart d p (p.answer a)
      Runs (performParts (p :: r)) m d r.isEmpty (setMySplit e { mySplit e with ans := none }))

/-- A load: the effective addresses of the lanes that have still to perform are checked, a place at a time; each lane that this
device serves reads its bytes at its place, each peer is asked once; and when every lane has its elements they go to the
destination and the word retires. -/
def Sys2Proof.Claims.LoadResult (i : Instr) (h : Head) (d : BitVec 8) (t : Ty) (two : Bool) (sp : Space) (keep : Bool)
    (addrs : W32 → Act (Nat → W64)) : Prop :=
  ∀ (s : State) m ea ps d0 d1 d2,
    let n := tyBytes t * (if two then 2 else 1)
    Admitted i [] s → Runs (acting h false) s.mem s.dev m d0 → Runs (addrs m) s.mem d0 ea d1 →
    (opd d = .qd → (mySplit d1).qd.length + (if two then 2 else 1) ≤ 16) →
    Runs (checkLanes (lanesOf (m &&& ~~~(mySplit d1).served)) (fun l =>
      checkPlace sp { acc := .read, size := n, posted := (mySplit d1).ans.isSome } (ea l).toNat)) s.mem d1 ps d2 →
    Claims.InParts i h s d2 (loadParts t two n keep (sp == .k) ea ps) (fun r e e1 =>
      ∃ e2, Runs (loadDst t m d (lane r)) s.mem e () e2 ∧
        (if two then Runs (loadDst t m (nextCode d) (fun l => lane r (l + 32))) s.mem e2 () e1 else e1 = e2))

/-- R215, R262, R263, R266, R267: `ld` and `ldw` load each active lane's element, or two under `.v2`, from the lane's effective
address, in `ldw` plus the lane number times the element's bytes; one that waits for a page or a peer waits. -/
def Sys2Proof.Claims.Loads : Prop :=
  ∀ (h : Head) (f : FmtM),
    let sp := (space f.sp.toNat).getD .g
    Claims.LoadResult (.ld h f) h f.d (ty f.sz) (bits f.q 0 0 == 1) sp (bits f.q 1 1 == 0) (laneAddr f.base f.off) ∧
    Claims.LoadResult (.ldw h f) h f.d (ty f.sz) false sp true (fun m => do
      let ea ← laneAddr f.base f.off m
      pure (fun l => ea l + w64 (l * tyBytes (ty f.sz)))) ∧
    (∀ (m : Memory) (d : Dev) (lanes : W32) (src : Src) (e : Dev), Runs (takeSrc .n64 lanes f.base) m d src e →
      ∃ ea, Runs (laneAddr f.base f.off lanes) m d ea e ∧
        ∀ l, (ea l) = valA (me e) (mySplit e) src l + f.off.signExtend 64)

/-- A store: its sources and addresses are taken, the addresses of the lanes that have still to perform are checked, then each
lane's bytes are written at its place, in ascending lane order; where a lane would go to a log in FO mode the store is an
ordering operation. -/
def Sys2Proof.Claims.StoreResult (i : Instr) (h : Head) (f : FmtM) (two : Bool) (sp : Space) (addrs : W32 → Act (Nat → W64)) : Prop :=
  ∀ (s : State) m s0 s1 ea ps d0 d1 d2 d3 d4 d5,
    let t := ty f.sz
    let n := tyBytes t * (if two then 2 else 1)
    let second := if opd f.d = .qv then f.d else nextCode f.d
    let val := fun (src : Src) (l : Nat) => storeBytes t (valT (me d3) (mySplit d3) t src l)
    Admitted i [] s → Runs (acting h false) s.mem s.dev m d0 → Runs (takeSrc .n64 m f.d) s.mem d0 s0 d1 →
    (if two then Runs (takeSrc .n64 m second) s.mem d1 s1 d2 else s1 = s0 ∧ d2 = d1) →
    Runs (addrs m) s.mem d2 ea d3 →
    Runs (checkLanes (lanesOf (m &&& ~~~(mySplit d3).served)) (fun l =>
      checkPlace sp { acc := .write, size := n, writes := true, posted := true } (ea l).toNat)) s.mem d3 ps d4 →
    (if (me d3).fo && ps.any (fun p => wouldLog d3 p.2) then Claims.Ordered s.mem d4 d5 else d5 = d4) →
    Claims.InParts i h s d5 (ps.map (fun p =>
      { lanes := [p.1], run := do
          writePlace p.2 t (if two then val s0 p.1 ++ val s1 p.1 else val s0 p.1)
          pure [] })) (fun _ e e1 => e1 = e)

/-- R215, R263, R266, R267, R160: `st` and `stw`. -/
def Sys2Proof.Claims.Stores : Prop :=
  ∀ (h : Head) (f : FmtM),
    let sp := (space f.sp.toNat).getD .g
    Claims.StoreResult (.st h f) h f (bits f.q 0 0 == 1) sp (laneAddr f.base f.off) ∧
    Claims.StoreResult (.stw h f) h f false sp (fun m => do
      let ea ← laneAddr f.base f.off m
      pure (fun l => ea l + w64 (l * tyBytes (ty f.sz))))

/-- R42, R49, R55, R61, R68, R102, R117, R121, R365: the bytes that a lane reads at its place, and what stops it: a page that
must be filled first, and POISON, of a logged read where the granule would be poisoned after its fill. -/
def Obligations.PlacesRead : Prop :=
  ∀ (m : Memory) (d : Dev) (t pi off k n addr : Nat) (keep konst : Bool),
    let p := pageOf d t pi
    let resident := p.st = .pinned ∨ p.st = .unpinned
    let bad := (List.range n).any (fun i => p.poison.getLsbD ((off + i) / 16))
    let poison : Trap := { cause := 0x12, addr := w64 (addr / 16 * 16) }
    let read := readPlace (.page t pi off) n addr keep konst m d
    (resident → bad = false → read = .ok ((List.range n).map (fun i => look 0 p.data (off + i)), d)) ∧
    (resident → bad = true → read = .error (.trap poison)) ∧
    (p.st = .filling → read = .error (.page t pi)) ∧
    (p.st = .nonResident → loadFromLog p off n = none → read = .error (.page t pi)) ∧
    (∀ bs, p.st = .nonResident → loadFromLog p off n = some bs →
      (fillPoisons m d t pi off n = false → read = .ok (bs, d)) ∧ (fillPoisons m d t pi off n = true → read = .error (.trap poison))) ∧
    (resident → bad = false →
      readPlace (.mapped t pi off k) n addr keep konst m d =
        .ok ((List.range n).map (fun i => look 0 p.data (off + i)), mappedSeen m d d.cur.1 k)) ∧
    (resident → bad = true → readPlace (.mapped t pi off k) n addr keep konst m d = .error (.trap poison)) ∧
    (d.poison.contains (k / 64) = false →
      readPlace (.device k) n addr keep false m d = .ok ((homeRead m d d.cur.1 addr k n keep).2, (homeRead m d d.cur.1 addr k n keep).1) ∧
      readPlace (.device k) n addr keep true m d = .ok ((constRead m d d.cur.1 k n).2, (constRead m d d.cur.1 k n).1) ∧
      readPlace (.host k) n addr keep konst m d = .ok (rdBytes m d k n, takeHost d k)) ∧
    (d.poison.contains (k / 64) = true → readPlace (.device k) n addr keep konst m d = .error (.trap poison) ∧
      readPlace (.host k) n addr keep konst m d = .error (.trap poison)) ∧
    readPlace (.reg off) n addr keep konst m d = .ok (natBytes n (regRead d off n).toNat, d)

/-- R114, R117, R119, R120: outside FO mode a read of a line that its cluster does not hold under a grant takes a leased copy of the
core's L1, or of the die's L2 for a line of the other die, whose lease covers the wave's view; else the line returns from a cluster
that holds it, with one write stamp, and the read takes the memory's bytes, with the line's RTS raised to 255 past the later of its
WTS and the view; a line of the other die is then kept in the die's L2. LMAX takes the lease end. A line that the wave's own cluster
holds under a grant is read at its unit. In FO mode the wave's lease set answers, and a line that is not in it is read and enters it.
Memory is unchanged. -/
def Sys2Proof.Claims.ReadsTakeLeases : Prop :=
  ∀ (m : Memory) (d : Dev) (w va k n : Nat) (keep : Bool),
    let x := waveOf d w
    let l1 := Cache.l1 (pcore d (vcoreOf d x))
    let l2 := Cache.l2 (dieOf d (lclOf (vcoreOf d x)))
    let l := lineOf d (k / 64)
    let r := homeRead m d w va k n keep
    let far := remoteLine d w va
    let served := fun (c : Lease) => r.2 = (c.data.drop (k % 64)).take n ∧ (waveOf r.1 w).lmax = max x.lmax c.leaseEnd
    let d0 := recallLine d (k / 64)
    let leaseEnd := max (lineOf d0 (k / 64)).rts (max (lineOf d0 (k / 64)).wts (waveOf d0 w).vstamp + 255)
    w < d.waves.length → k % 64 + n ≤ 64 →
    (∀ g, l.grant = some g → (lineOf d0 (k / 64)).grant = none ∧
      (lineOf d0 (k / 64)).wts = max (l.rts + 1) (g.writers.foldl (fun v w => max v (waveOf d w).vstamp) 0 + 1)) ∧
    (l.grant = none → d0 = d) ∧
    (∀ g, x.fo = false → l.grant = some g → g.cluster = clusterIdx d w → r = (d, rdBytes m d k n)) ∧
    (x.fo = false → (∀ g, l.grant = some g → g.cluster ≠ clusterIdx d w) →
      (∀ c, findCopy d l1 (k / 64) x.vstamp = some c → served c) ∧
      (∀ c, findCopy d l1 (k / 64) x.vstamp = none → far = true → findCopy d l2 (k / 64) x.vstamp = some c → served c) ∧
      (findCopy d l1 (k / 64) x.vstamp = none → (far = true → findCopy d l2 (k / 64) x.vstamp = none) →
        r.2 = rdBytes m d k n ∧ (lineOf r.1 (k / 64)).grant = none ∧ (lineOf r.1 (k / 64)).rts = leaseEnd ∧
        (waveOf r.1 w).lmax = max x.lmax leaseEnd ∧
        (far = true → ∃ c, findCopy r.1 l2 (k / 64) x.vstamp = some c ∧ c.leaseEnd = leaseEnd ∧
          c.data = rdBytes m d (k / 64 * 64) 64))) ∧
    (∀ c, x.fo = true → x.leaseSet.find? (fun c => c.line == k / 64) = some c → served c) ∧
    (x.fo = true → x.leaseSet.find? (fun c => c.line == k / 64) = none →
      r.2 = rdBytes m d k n ∧ ((waveOf r.1 w).leaseSet.any (fun c => c.line == k / 64)) = true) ∧
    (∀ a, rdByte m r.1 a = rdByte m d a)

/-- R115, R116: bytes written at a line's home are the memory's, and no other byte changes. With no grant on the line its WTS
and RTS become one more than the later of its RTS and the writer's view, which rises to them. -/
def Sys2Proof.Claims.HomeWrites : Prop :=
  ∀ (m : Memory) (d : Dev) (w k clock : Nat) (bs : List Byte),
    let l := lineOf d (k / 64)
    let t := max (l.rts + 1) ((waveOf d w).vstamp + 1)
    let e := homeWrite m d ⟨some w, clock⟩ k bs
    (∀ a, rdByte m e a = if h : k ≤ a ∧ a < k + bs.length then bs[a - k]'(by omega) else rdByte m d a) ∧
    (w < d.waves.length → l.grant = none →
      (lineOf e (k / 64)).wts = t ∧ (lineOf e (k / 64)).rts = t ∧ (waveOf e w).vstamp ≥ max (waveOf d w).vstamp t)

/-- R55, R266, R49: the frame of a store. The stores of a word change no byte of memory outside the bytes that its lanes store to;
one at a page that stands for global memory and is in its frame changes none at all, its page taking the bytes. One at such a page
that is not resident changes those bytes and what the page's log, which is first applied to its backing, changes. -/
def Obligations.StoreFrame : Prop :=
  (∀ (m : Memory) (d e : Dev) (t : Ty) (ps : List (Nat × Place)) (bs : Nat → List Byte) (a : Nat),
    let key := fun (p : Place) => match p with
      | .device k => some k
      | .host k => some k
      | _ => none
    (∀ p ∈ ps, ∀ u pi off k, p.2 = .mapped u pi off k → (pageOf d u pi).st = .pinned ∨ (pageOf d u pi).st = .unpinned) →
    Runs (perform (ps.forM (fun p => writePlace p.2 t (bs p.1)))) m d (some ()) e →
    (∀ p ∈ ps, ∀ k, key p.2 = some k → ¬ (k ≤ a ∧ a < k + (bs p.1).length)) →
    rdByte m e a = rdByte m d a) ∧
  (∀ (m : Memory) (d e : Dev) (t : Ty) (u pi off k : Nat) (bs : List Byte) (a : Nat),
    (pageOf d u pi).st = .nonResident →
    Runs (perform (writePlace (.mapped u pi off k) t bs)) m d (some ()) e →
    rdByte m e a = if h : k ≤ a ∧ a < k + bs.length then bs[a - k]'(by omega) else rdByte m (logToBacking m d u pi true) a)

/-- R45 to R47, R268 to R270: full/empty accesses, `fill` and `prefetch`, from their checked places to their effects. An `ldfe`
whose granules are full takes its values, and empties them under `.clr`; else it begins the fills of pages that are not there, and
parks at its granules in order of arrival, in FO mode once its pages are there (log 17). One that has taken values is an acquire, which
in FO mode empties the lease set (log 17). A `fill` traps in its lowest lane. -/
def Sys2Proof.Claims.FullEmpty : Prop :=
  ∀ (h : Head) (f : FmtM) (s : State) m ea d0 d1 d2 d3,
    let t := ty f.sz
    let sp := (space f.sp.toNat).getD .g
    let n := tyBytes t
    let room := opd f.d = .qd → (mySplit d1).qd.length + 1 ≤ 16
    let loaded := fun (r : Row) (d : Dev) => ∀ e, Runs (loadDst t m f.d (lane r)) s.mem d () e →
      Retires (.ldfe h f) h true false s (if m = 0 then e else emptyLeases e e.cur.1)
    (∀ r, Admitted (.ldfe h f) [] s → Runs (acting h false) s.mem s.dev m d0 → Runs (laneAddr f.base f.off m) s.mem d0 ea d1 → room →
      (mySplit d1).ans = some r → loaded r d1) ∧
    (∀ ps, Admitted (.ldfe h f) [] s → Runs (acting h false) s.mem s.dev m d0 → Runs (laneAddr f.base f.off m) s.mem d0 ea d1 → room →
      (mySplit d1).ans = none →
      Runs (checkLanes (lanesOf (m &&& ~~~(mySplit d1).served)) (fun l => checkPlace sp { acc := .read, size := n } (ea l).toNat))
        s.mem d1 ps d2 →
      (ps = [] → loaded (mySplit d1).servedVals d2) ∧
      (ps ≠ [] → Claims.Ordered s.mem d2 d3 →
        let ws := wantsOf ps n
        let d4 := serveWants d3 (f.q == 1) ws
        let rest := ws.filter (fun w => !wantReady d3 w)
        let gone := rest.filter (fun w => !wantHere d4 w)
        Runs (needParts (wantParts ws (fun l => (ea l).toNat))) s.mem d3 () d3 →
        (rest = [] → loaded (mySplit d4).servedVals d4) ∧
        (rest ≠ [] → ∀ e, Runs (gone.forM (fun w => awaitPage w.set w.pg)) s.mem d4 () e →
          ((me d4).fo = true → gone ≠ [] → Stays (.ldfe h f) s e) ∧
          ((me d4).fo = false ∨ gone = [] → Stays (.ldfe h f) s
            (setMySplit { e with seq := e.seq + 1 } { mySplit e with park := .ldfe d4.seq (f.q == 1) rest }))))) ∧
    (∀ src ps d4 d5, Admitted (.stfe h f) [] s → Runs (acting h false) s.mem s.dev m d0 → Runs (takeSrc .n64 m f.d) s.mem d0 src d1 →
      Runs (laneAddr f.base f.off m) s.mem d1 ea d2 →
      Runs (checkLanes (lanesOf m) (fun l => checkPlace sp { acc := .write, size := n, writes := true } (ea l).toNat)) s.mem d2 ps d3 →
      (ps = [] → Retires (.stfe h f) h true false s d3) ∧
      (ps ≠ [] → Claims.Ordered s.mem d3 d4 →
        Runs (perform (storeFull ps (fun l => storeBytes t (valT (me d3) (mySplit d3) t src l)) (mySplit d3).clock)) s.mem d4 (some ()) d5 →
        Retires (.stfe h f) h true false s d5)) ∧
    (∀ src l u st off d4, Admitted (.fill h f) [] s → Runs (acting h false) s.mem s.dev m d0 → Runs (takeSrc .n64 m f.d) s.mem d0 src d1 →
      Runs (laneAddr f.base f.off m) s.mem d1 ea d2 → lowLane m = some l →
      let len := (valA (me d2) (mySplit d2) src l).toNat
      (¬ ((ea l).toNat % 16 = 0 ∧ len % 16 = 0) → Traps (.fill h f) s { cause := 0x02, addr := ea l, info2 := maskOf [l] }) ∧
      ((ea l).toNat % 16 = 0 → len % 16 = 0 → len = 0 → Retires (.fill h f) h true false s d2) ∧
      ((ea l).toNat % 16 = 0 → len % 16 = 0 → len ≠ 0 →
        (∀ t, fillRange d2 sp (ea l).toNat = .error t → t.cause ≠ 0 → Traps (.fill h f) s { t with info2 := maskOf [l] }) ∧
        (fillRange d2 sp (ea l).toNat = .ok (u, st, off) → off + len ≤ 4096 * allocPages (setOf d2 u) st →
          Claims.Ordered s.mem d2 d3 →
          Runs (perform (fillGranules (f.q == 1) u st off len (mySplit d2).clock)) s.mem d3 (some ()) d4 →
          Retires (.fill h f) h true false s d4))) ∧
    (∀ st, Admitted (.prefetch h f) [] s → Runs (acting h false) s.mem s.dev m d0 → Runs (laneAddr f.base f.off m) s.mem d0 ea d1 →
      (sp = .g ∨ sp = .k → Retires (.prefetch h f) h true false s d1) ∧
      (sp = .store st ∨ sp = .m → ∀ d2, Runs (prefetchLanes sp (lanesOf m) (fun l => (ea l).toNat)) s.mem d1 () d2 →
        Retires (.prefetch h f) h true false s d2))

/-- R45, R46, R268, R269: a granule that becomes full: its bit is set, and with no reader parked on it nothing else of the
machine changes. Emptying it clears the bit: an `ldfe.clr` that takes a value from it, and a `fill` that empties its range; an `ldfe`
that keeps leaves every page as it is. -/
def Sys2Proof.Claims.GranulesFill : Prop :=
  (∀ (d : Dev) (t pi g e g' : Nat), t < d.sets.length → pi < (setOf d t).pages.length → g < 256 → ldfeWaiters d = [] →
    let p := pageOf d t pi
    let d1 := setFull d t pi g e
    (pageOf d1 t pi).full.getLsbD g = true ∧ (g' ≠ g → (pageOf d1 t pi).full.getLsbD g' = p.full.getLsbD g') ∧
    (pageOf d1 t pi).data = p.data ∧ (pageOf d1 t pi).dirty = true ∧ { d1 with sets := [] } = { d with sets := [] }) ∧
  (∀ (d : Dev) (ws : List Want) (w : Want), w ∈ ws → w.set < d.sets.length → w.pg < (setOf d w.set).pages.length → wantReady d w = true →
    let e := serveWants d true ws
    (pageOf e w.set w.pg).full.getLsbD (w.off / 16) = false ∧ (pageOf e w.set w.pg).dirty = true ∧
    (pageOf e w.set w.pg).data = (pageOf d w.set w.pg).data ∧
    look 0 (mySplit e).servedVals w.l = look 0 (mySplit (serveWants d false ws)).servedVals w.l) ∧
  (∀ (d : Dev) (ws : List Want), (serveWants d false ws).sets = d.sets) ∧
  (∀ (m : Memory) (d e : Dev) (t : Nat) (st : StoreId) (off n clock g : Nat), t < d.sets.length →
    Runs (perform (fillGranules false t st off n clock)) m d (some ()) e → off / 16 ≤ g → g < off / 16 + n / 16 →
    let pi := (findPage (setOf d t) st (g / 256)).getD 0
    pi < (setOf d t).pages.length →
    (pageOf e t pi).full.getLsbD (g % 256) = false ∧ (pageOf e t pi).data = (pageOf d t pi).data)

/-! ### Atomics and reservations. -/

/-- `atom` and `atomcas`: operands and places are taken in every lane that has still to perform; each group of lanes that name
one place reads, computes and writes there as one action, in the order of lowest lanes, and every lane gets its old value. -/
def Sys2Proof.Claims.AtomResult (i : Instr) (h : Head) (f : FmtX)
    (fn : (Nat → W64) → (Nat → W64) → List Nat → W64 → W64 × List (Nat × W64)) : Prop :=
  ∀ (s : State) m a b c ps d0 d1 d2 d3 d4 d5,
    let t := ty f.ty
    let sc := scope (bits f.md 4 3)
    let val := fun (src : Src) (l : Nat) => readTy t (valT (me d3) (mySplit d3) t src l)
    let va := valA (me d3) (mySplit d3) a
    Admitted i [] s → Runs (acting h false) s.mem s.dev m d0 → Runs (takeSrc .n64 m f.a) s.mem d0 a d1 →
    Runs (takeSrc .n64 m f.b) s.mem d1 b d2 → Runs (takeSrc .n64 m f.c) s.mem d2 c d3 →
    (opd f.d = .qd → (mySplit d3).qd.length + 1 ≤ 16) →
    Runs (checkLanes (lanesOf (m &&& ~~~(mySplit d3).served)) (fun l => checkPlace ((space (bits f.md 7 5)).getD .g)
      { acc := .readWrite, size := tyBytes t, writes := true, atomic := true, posted := (mySplit d3).ans.isSome } (va l).toNat))
      s.mem d3 ps d4 →
    (if m ≠ 0 ∧ sc ≠ .team then Claims.Ordered s.mem d4 d5 else d5 = d4) →
    Claims.InParts i h s d5 ((groups ps).map (fun g =>
      { lanes := g.2, peer := peerOf g.1, run := readModify g.1 t (va (g.2.headD 0)).toNat (sc == .clu) (fn (val b) (val c) g.2),
        answer := fun r => (fn (val b) (val c) g.2 (lane r 0)).2 }))
      (fun r e e1 => Runs (loadDst t m f.d (lane r)) s.mem e () e1)

/-- R110, R111, R160, R271 to R275: `atom`, `atomcas` and `red`. `atom` folds the lanes of a place into one operand, and each
lane's old value is what the lanes before it leave; `atomcas` takes the lanes one after another; `red` answers nothing. R111 groups
lanes that name the same address; that lanes are grouped by the translated place is the model's choice (log 64). -/
def Sys2Proof.Claims.Atomics : Prop :=
  ∀ (h : Head) (f : FmtX),
    Claims.AtomResult (.atom h f) h f (fun b _ ls o =>
      ((foldLanes (bits f.md 2 0) (ty f.ty) o (ls.map b)).1, ls.zip (foldLanes (bits f.md 2 0) (ty f.ty) o (ls.map b)).2)) ∧
    Claims.AtomResult (.atomcas h f) h f (fun b c ls o =>
      ls.foldl (fun p l => (if p.1 = c l then b l else p.1, p.2 ++ [(l, p.1)])) (o, [])) ∧
    (∀ (s : State) m a b ps d0 d1 d2 d3 d4,
      let t := ty f.ty
      let sc := scope (bits f.md 4 3)
      let va := valA (me d2) (mySplit d2) a
      Admitted (.red h f) [] s → Runs (acting h false) s.mem s.dev m d0 → Runs (takeSrc .n64 m f.a) s.mem d0 a d1 →
      Runs (takeSrc .n64 m f.b) s.mem d1 b d2 →
      Runs (checkLanes (lanesOf (m &&& ~~~(mySplit d2).served)) (fun l => checkPlace ((space (bits f.md 7 5)).getD .g)
        { acc := .readWrite, size := tyBytes t, writes := true, atomic := true, posted := true } (va l).toNat)) s.mem d2 ps d3 →
      (if m ≠ 0 ∧ (sc ≠ .team ∨ ((me d2).fo = true ∧ ps.any (fun p => wouldLog d2 p.2) = true)) then Claims.Ordered s.mem d3 d4
        else d4 = d3) →
      Claims.InParts (.red h f) h s d4 ((groups ps).map (fun g =>
        { lanes := g.2, run := do
            redGroup (bits f.md 2 0) t (sc == .clu) (va (g.2.headD 0)).toNat
              (g.2.map (fun l => readTy t (valT (me d2) (mySplit d2) t b l))) g.1
            pure [] })) (fun _ e e1 => e1 = e))

/-- R111, R272, R273: for the integer additions, minima, maxima and logic operations, and exchange, folding the lanes of a
place into one operand gives every lane, and memory, what performing them one after another would. -/
def Obligations.AtomicsFoldAsSequence : Prop :=
  ∀ (op : Nat) (t : Ty) (o : W64) (vs : List W64), isInt t = true → op ≤ 6 →
    let seq := vs.foldl (fun (p : W64 × List W64) v => (atomVal op t p.1 v, p.2 ++ [p.1])) (o, [])
    foldLanes op t o vs = seq

/-- R110, R275: an atomic at a resident page or in device memory reads the old value, and writes the new one to the same
bytes and to no other. -/
def Obligations.ReadModifyWrite : Prop :=
  ∀ (m : Memory) (d e : Dev) (t : Ty) (t0 pi off k addr : Nat) (clu : Bool) (fn : W64 → W64 × List (Nat × W64)) (r : List (Nat × W64)),
    let n := tyBytes t
    let p := pageOf d t0 pi
    ((p.st = .pinned ∨ p.st = .unpinned) → (List.range n).any (fun i => p.poison.getLsbD ((off + i) / 16)) = false →
      let old := leWord ((List.range n).map (fun i => look 0 p.data (off + i)))
      readModify (.page t0 pi off) t addr clu fn m d =
        .ok ((fn old).2, changePage d t0 pi off n (fun p => pagePut p off (leBytes n (fn old).1)))) ∧
    (d.poison.contains (k / 64) = false → readModify (.device k) t addr clu fn m d = .ok (r, e) →
      let old := leWord (rdBytes m d k n)
      r = (fn old).2 ∧
      ∀ a, rdByte m e a = if h : k ≤ a ∧ a < k + n then (leBytes n (fn old).1)[a - k]'(by
        have hl : ∀ (n : Nat) (x : W64), (leBytes n x).length = n := by
          intro n
          induction n with
          | zero => intro x; rfl
          | succ n ih => intro x; simp [leBytes, ih]
        rw [hl]
        omega) else rdByte m d a)

/-- R128, R276: `lr` reads at the line's home and takes the reservation of its lowest lane's line; `sc` stores in a lane, and
answers 0, only while the reservation on its line stands, and leaves none. -/
def Sys2Proof.Claims.Reservations : Prop :=
  ∀ (h : Head) (g : FmtM) (f : FmtX) (s : State) m d0 d1 d2 d3 d4,
    (∀ ea ps, Admitted (.lr h g) [] s → Runs (acting h false) s.mem s.dev m d0 →
      Runs (laneAddr g.base g.off m) s.mem d0 ea d1 → (opd g.d = .qd → (mySplit d1).qd.length + 1 ≤ 16) →
      Runs (checkLanes (lanesOf m) (fun l => devicePlace (resUse (ty g.sz) false) (ea l).toNat)) s.mem d1 ps d2 →
      (ps = [] → ∀ e, Runs (loadDst (ty g.sz) m g.d (fun _ => 0)) s.mem d2 () e → Retires (.lr h g) h true false s e) ∧
      (∀ l k r, ps = (l, .device k) :: r → Claims.Ordered s.mem d2 d3 →
        Claims.InParts (.lr h g) h s d3 (ps.map (fun p => { lanes := [p.1], run := lrRead p.2 (ty g.sz) (ea p.1).toNat p.1 }))
          (fun r e e1 => Runs (loadDst (ty g.sz) m g.d (lane r)) s.mem (setMe e { me e with reservation := some (k / 64) }) () e1))) ∧
    (∀ a b ps d5 d6, Admitted (.sc h f) [] s → Runs (acting h false) s.mem s.dev m d0 → Runs (takeSrc .n64 m f.a) s.mem d0 a d1 →
      Runs (takeSrc .n64 m f.b) s.mem d1 b d2 → (opd f.d = .qd → (mySplit d2).qd.length + 1 ≤ 16) →
      Runs (checkLanes (lanesOf m) (fun l => devicePlace (resUse (ty f.ty) true) (valA (me d2) (mySplit d2) a l).toNat)) s.mem d2 ps d3 →
      (m = 0 → Runs (loadDst .n64 m f.d (fun _ => 0)) s.mem d3 () d6 → Retires (.sc h f) h true false s d6) ∧
      (m ≠ 0 → Claims.Ordered s.mem d3 d4 →
        let out := scLanes s.mem (ty f.ty) (valA (me d2) (mySplit d2) b) ps d4 0
        d5 = setMe out.1 { me out.1 with reservation := none } →
        Runs (loadDst .n64 m f.d (fun l => if out.2.getLsbD l then 0 else 1)) s.mem d5 () d6 →
        Retires (.sc h f) h true false s d6)) ∧
    (∀ (m : Memory) (t : Ty) (v : Nat → W64) (l k : Nat) (r : List (Nat × Place)) (d : Dev) (ok : W32),
      ((me d).reservation ≠ some (k / 64) → scLanes m t v ((l, .device k) :: r) d ok = scLanes m t v r d ok) ∧
      ((me d).reservation = some (k / 64) → scLanes m t v ((l, .device k) :: r) d ok =
        scLanes m t v r (homeWrite m (recallLine (setMe d { me d with reservation := none }) (k / 64)) (whoMe d) k
          (leBytes (tyBytes t) (v l))) (ok ||| (1#32 <<< l))))

/-! ### Seals, bindings, fences. -/

/-- R95 to R101, R115, R118, R123, R124, R277: `acq` reads a seal's value and takes its stamp at its scope; `rel` waits for the wave's
posted writes, at `.sys` reports those that were lost, and issues again where that record meets a full ring; then it sets the stamp,
writes the value, and starts the pushes declared on the seal. A seal in host memory or at a peer has no stamps: its releases are
remembered, and its acquires see what they cover (log 53). With no lane nothing happens but pops and pushes. -/
def Sys2Proof.Claims.Seals : Prop :=
  ∀ (h : Head) (f : FmtM) (s : State) m ea p d0 d1 d2 d3,
    let sc := scope f.sc.toNat
    let t := ty f.sz
    (Admitted (.acq h f) [] s → Runs (acting h false) s.mem s.dev m d0 → Runs (sealAddr f m) s.mem d0 ea d1 →
      let out := fun (v : W64) (d : Dev) => ∀ e, Runs (loadDst t m f.d (fun _ => v)) s.mem d () e → Retires (.acq h f) h true false s e
      (lowLane m = none → out 0 d1) ∧
      (∀ l, lowLane m = some l → Claims.Room f.d d1 → Runs (sealPlace .read (mySplit d1).ans.isSome (ea l)) s.mem d1 p d2 →
        (∀ k, p = .device k → d2.poison.contains (k / 64) = false → Claims.Ordered s.mem d2 d3 →
          let d4 := recallFrom d3 (k / 64) (some (clusterIdx d3 d3.cur.1))
          out (rd64 s.mem d4 k) (acquireStamps d4 (k / 64) d4.cur.1 sc)) ∧
        (∀ k bs d4, p = .host k → Claims.Ordered s.mem d2 d3 →
          Runs (perform (readPlace p 8 (ea l) false false)) s.mem d3 (some bs) d4 → out (leWord bs) (acquireAway d4 p d4.cur.1 sc)) ∧
        (∀ n pa, p = .peer n pa → (mySplit d2).ans = none → d2.cur = d1.cur → (mySplit d1).ans = none → Claims.Ordered s.mem d2 d3 →
          let e := sendTo d3 n (.request d3.cur.1 d3.cur.2)
          Stays (.acq h f) s (setMySplit e { mySplit e with park := .peer (2 * n) })) ∧
        (∀ n pa r, p = .peer n pa → (mySplit d1).ans = some r → out (lane r 0) (acquireAway d2 p d2.cur.1 sc)))) ∧
    (∀ src, Admitted (.rel h f) [] s → Runs (acting h false) s.mem s.dev m d0 → Runs (takeSrc .n64 m f.d) s.mem d0 src d1 →
      Runs (sealAddr f m) s.mem d1 ea d2 →
      (lowLane m = none → Retires (.rel h f) h true false s d2) ∧
      (∀ l d4 d5 d6, lowLane m = some l → Runs (sealPlace .write true (ea l)) s.mem d2 p d3 → Claims.Ordered s.mem d3 d4 →
        Claims.Released sc d4 d5 → (if sc = .sys then Runs reportLost s.mem d5 () d6 else d6 = d5) →
        let v := extLoad t (valA (me d3) (mySplit d3) src l)
        ((mySplit d6).park ≠ .running → Stays (.rel h f) s d6) ∧
        (∀ k d8, (mySplit d6).park = .running → p = .device k →
          let d7 := recallLine d6 (k / 64)
          Runs (startPushes m (k / 64)) s.mem (homeWrite s.mem
            (releaseStamps d7 (k / 64) sc (some d6.cur.1) (me d7).vstamp) (whoMe d6) k (leBytes 8 v)) () d8 →
          Retires (.rel h f) h true false s d8) ∧
        (∀ d7 d8, (mySplit d6).park = .running → (∀ k, p ≠ .device k) →
          Runs (perform (writePlace p .n64 (leBytes 8 v))) s.mem d6 (some ()) d7 →
          Runs (startPushes m (sealLine p)) s.mem (releaseAway d7 p d7.cur.1 sc) () d8 → Retires (.rel h f) h true false s d8)))

/-- R118: an acquire raises the wave's view to the line's stamp of its scope, a release raises the line's stamps to the wave's view;
neither lowers a stamp. That a line remembers a release with what it covers, beside those of other waves and scopes, so that an acquire
can tell with which releases it synchronises (R99), is the model's own data (log 53). -/
def Obligations.StampsRise : Prop :=
  ∀ (d : Dev) (n w vst : Nat) (sc : Scope), w < d.waves.length →
    let l := lineOf d n
    let x := waveOf d w
    let r := lineOf (releaseStamps d n sc (some w) vst) n
    (waveOf (acquireStamps d n w sc) w).vstamp =
      (match sc with | .dev | .sys => max x.vstamp l.dst | .clu => max x.vstamp l.cst | .team => x.vstamp) ∧
    (match sc with
      | .dev | .sys => r.dst = max l.dst vst ∧ r.cst = max l.cst (max l.dst vst)
      | .clu => r.dst = l.dst ∧ r.cst = max l.cst vst
      | .team => r.dst = l.dst ∧ r.cst = l.cst) ∧
    r.wts = l.wts ∧ r.rts = l.rts ∧
    (∃ q ∈ r.rels, q.scope = sc ∧ q.wave = some w ∧ vst ≤ q.vst ∧ ∀ o ∈ l.rels, o.scope = sc → o.wave = some w → o.vst ≤ q.vst) ∧
    (∀ o ∈ l.rels, ¬ (o.scope = sc ∧ o.wave = some w) → o ∈ r.rels)

/-- R96, R278: `bind` appends a seal's range to the context's table of 1,024 and traps when it is full; `unbind` removes every
equal one; a length of 0 binds nothing, and a range past the address space is BADADDR. `fence` waits for acknowledgements, sends
granted lines home, and at `.sys` reports lost writes (only `rel.sys` and `fence.sys` report them: log 24, the model's reading). -/
def Sys2Proof.Claims.BindingsAndFences : Prop :=
  ∀ (h : Head) (f : FmtX) (g : FmtM) (s : State) m args p d0 d1 d2,
    let line := fun (a : Nat × Nat × Nat) => (⟨a.1, a.2.1 / 64, (a.2.1 + a.2.2 - 1) / 64⟩ : Binding)
    (∀ i : Instr, i = .bind h f ∨ i = .unbind h f → Admitted i [] s → Runs (acting h false) s.mem s.dev m d0 →
      Runs (bindArgs f m) s.mem d0 args d1 →
      (lowLane m = none → Retires i h true false s d1) ∧
      (∀ l, lowLane m = some l → Runs (sealPlace .read true (args l).1) s.mem d1 p d2 →
        let bs := (ctxOf d2 (me d2).ctx).bindings
        let keep := putBindings s.mem d2 (me d2).ctx
        ((args l).2.2 = 0 → Retires i h true false s d2) ∧
        ((args l).2.2 ≠ 0 → 2 ^ 57 < (args l).2.1 + (args l).2.2 →
          Traps i s { cause := 0x06, addr := w64 (args l).2.1, info2 := 1#32 <<< l }) ∧
        ((args l).2.2 ≠ 0 → (args l).2.1 + (args l).2.2 ≤ 2 ^ 57 →
          (i = .bind h f → bs.length < 1024 → Retires i h true false s (keep (bs ++ [line (args l)]))) ∧
          (i = .bind h f → 1024 ≤ bs.length → Traps i s { cause := 0x0D }) ∧
          (i = .unbind h f → Retires i h true false s (keep (bs.filter (· ≠ line (args l)))))))) ∧
    (Admitted (.fence h g) [] s → Runs (acting h false) s.mem s.dev m d0 →
      let sc := scope g.sc.toNat
      (m = 0 → Retires (.fence h g) h true false s d0) ∧
      (m ≠ 0 → (me d0).posted ≠ [] → Stays (.fence h g) s (setMySplit d0 { mySplit d0 with park := .ack })) ∧
      (m ≠ 0 → Claims.Released sc d0 d1 → (if sc = .sys then Runs reportLost s.mem d1 () d2 else d2 = d1) →
        Retires (.fence h g) h true false s d2))

/-! ### Locks, monitors, barriers. -/

/-- R130 to R139, R160: `lock`, `trylock`, `unlock` and `lockq` on the line of their lowest lane's address. What the home slice
answers a `lock` at once is its status; else it waits, and a woken one answers its grant. `trylock` answers 1 where a `lock` would
wait and 2 where no entry is free; `unlock` releases at `.dev` and hands on. A line already held, a fifth line, and an `unlock` of
a line that is not held trap. With no lane no request is made. -/
def Obligations.Locks : Prop :=
  ∀ (h : Head) (f : FmtM) (s : State) m ea d0 d1,
    Runs (acting h false) s.mem s.dev m d0 →
    (∀ r d2, Admitted (.lock h f) [] s → (mySplit s.dev).ans = some r →
      Runs (putA 0 m f.d (fun _ => lane r 0)) s.mem d0 () d2 → Retires (.lock h f) h true false s d2) ∧
    (∀ i : Instr, (i = .lock h f ∧ (mySplit s.dev).ans = none) ∨ i = .trylock h f ∨ i = .unlock h f ∨ i = .lockq h f →
      Admitted i [] s → Runs (laneAddr f.base f.off m) s.mem d0 ea d1 →
      (lowLane m = none → Retires i h true false s d1) ∧
      (∀ l k d2, lowLane m = some l → Runs (lockAddr (ea l).toNat) s.mem d1 k d2 →
        let va := (ea l).toNat
        let n := k / 64
        let takes := i = .lock h f ∨ i = .trylock h f
        (takes → holds (me d2) n = true → Traps i s { cause := 0x0E, addr := w64 va }) ∧
        (takes → holds (me d2) n = false → 4 ≤ (me d2).held.length → Traps i s { cause := 0x0F, addr := w64 va }) ∧
        (i = .unlock h f → holds (me d2) n = false → Traps i s { cause := 0x10, addr := w64 va }) ∧
        (∀ d3, Claims.Ordered s.mem d2 d3 →
          let out := fun (v : W64) (d : Dev) => ∀ e, Runs (putA 0 m f.d (fun _ => v)) s.mem d () e → Retires i h true false s e
          (i = .lock h f → holds (me d2) n = false → (me d2).held.length < 4 →
            let r := lockRequest s.mem d3 d3.cur.1 d3.cur.2 n va m (waitDeadline d3 f.sz)
            (∀ st, r.2 = .inl st → out st r.1) ∧
            (∀ p, r.2 = .inr p → Stays i s (setMySplit r.1 { mySplit r.1 with park := p }))) ∧
          (i = .trylock h f → holds (me d2) n = false → (me d2).held.length < 4 →
            (lockEntry s.mem d3 n (bankOf va) = none → out 2 d3) ∧
            (∀ e, lockEntry s.mem d3 n (bankOf va) = some e →
              (e.locked = false ∧ e.queue = [] →
                let r := grantLock s.mem d3 n e d3.cur.1 va m (mySplit d3).clock
                out r.2 r.1) ∧
              (e.locked = true ∨ e.queue ≠ [] → out 1 d3))) ∧
          (i = .unlock h f → holds (me d2) n = true → ∀ d4 d5, Claims.Released .dev d3 d4 →
            Runs (startPushes m n) s.mem (unlockLine s.mem d4 d4.cur.1 n (mySplit d4).clock) () d5 → Retires i h true false s d5) ∧
          (i = .lockq h f → out (lockWord d3 d3.cur.1 n) d3))))

/-- R134, R135, R140: what a lock request comes to at the home slice: a free lock with no waiter is granted, else the split
stands last in the queue, or is parked to ask again when the bank has no room. -/
def Obligations.LockRequests : Prop :=
  ∀ (m : Memory) (d : Dev) (w sp n va : Nat) (mask : W32) (t : Option Nat) (e : Lock),
    let r := lockRequest m d w sp n va mask t
    let g := grantLock m d n e w va mask (splitOf (waveOf d w) sp).clock
    (lockEntry m d n (bankOf va) = none → r = (d, .inr (.lockFull n va mask t))) ∧
    (lockEntry m d n (bankOf va) = some e → e.locked = false → e.queue = [] → r = (g.1, .inl g.2)) ∧
    (lockEntry m d n (bankOf va) = some e → (e.locked = true ∨ e.queue ≠ []) → bankWaiters d e.bank < 16384 →
      r = (setLock d n { e with queue := e.queue ++ [{ wave := w, split := sp, va := va, mask := mask }] }, .inr (.lock n va t))) ∧
    (lockEntry m d n (bankOf va) = some e → (e.locked = true ∨ e.queue ≠ []) → 16384 ≤ bankWaiters d e.bank →
      r = (d, .inr (.lockFull n va mask t)))

/-- R137: who gets a lock that is handed on: the first waiter that is not away, each waiter passed over counting once more; but
never past a waiter that has been passed over four times, for whom the lock is kept. -/
def Obligations.LocksHandOn : Prop :=
  ∀ (ahead r : List Waiter) (q : Waiter), (∀ p ∈ ahead, p.away = true ∧ p.passes ≠ 4) →
    (q.away = false → nextWaiter [] (ahead ++ q :: r) =
      some (q, ahead.map (fun p => { p with passes := p.passes + 1 }) ++ r, true)) ∧
    (q.away = true → q.passes = 4 → nextWaiter [] (ahead ++ q :: r) = some (q, ahead ++ q :: r, false)) ∧
    nextWaiter [] ahead = none

/-- R129, R279, R280: `mon` arms the wave's monitor on a line with the stamp it has, in a watch entry or, with none free, in polling
form, and is PERM outside device and host memory. `mwait` answers 2 with none armed, 0 when the line has been written since, and
else parks until the deadline of its immediate; a woken one answers what woke it. -/
def Obligations.Monitors : Prop :=
  ∀ (h : Head) (f : FmtM) (g : FmtI) (s : State) m d0 d1,
    Runs (acting h false) s.mem s.dev m d0 →
    (∀ ea, Admitted (.mon h f) [] s → Runs (laneAddr f.base f.off m) s.mem d0 ea d1 →
      (lowLane m = none → Retires (.mon h f) h true false s d1) ∧
      (∀ l p d2, lowLane m = some l →
        Runs (checkPlace .g { acc := .read, size := 1, posted := true } (ea l).toNat) s.mem d1 p d2 →
        let bank := bankOf (ea l).toNat
        (∀ k, p = .device k ∨ p = .host k →
          let d3 := recallLine d2 (k / 64)
          let d4 := setMe d3 { me d3 with monitor := none }
          Retires (.mon h f) h true false s (setMe d4 { me d3 with
            monitor := some ⟨k / 64, bank, (lineOf d4 (k / 64)).wts, decide (8192 ≤ bankWatches d4 bank), none⟩ })) ∧
        ((∀ k, p ≠ .device k ∧ p ≠ .host k) →
          Traps (.mon h f) s { cause := 0x09, sub := 1, addr := w64 (ea l).toNat, info2 := 1#32 <<< l }))) ∧
    (Admitted (.mwait h g) [] s →
      let out := fun (v : W64) (d : Dev) => ∀ e, Runs (loadDst .n64 m g.d (fun _ => v)) s.mem d () e → Retires (.mwait h g) h true false s e
      (lowLane m = none → out 0 d0) ∧
      (∀ l, lowLane m = some l → Claims.Room g.d d0 →
        (∀ r, (mySplit d0).ans = some r → out (lane r 0) d0) ∧
        ((mySplit d0).ans = none → Claims.Ordered s.mem d0 d1 →
          ((me d1).monitor = none → out 2 d1) ∧
          (∀ mo, (me d1).monitor = some mo →
            ((lineOf d1 mo.line).wts ≠ mo.wts → out 0 (viewWrite (setMe d1 { me d1 with monitor := none }) d1.cur.1 mo.line)) ∧
            ((lineOf d1 mo.line).wts = mo.wts → Stays (.mwait h g) s (setMySplit d1 { mySplit d1 with
              park := .mwait (if g.imm = 0 then none else some (d1.cycle + 64 * g.imm.toNat)) }))))))

/-- R108, R113, R281, R120: `bar` and `cbar` release at `.team` or `.clu` and park their split; one that would leave the wave's splits
at both kinds is ILLOP. While some live wave of the stage set, or of the cluster, has not arrived nothing happens; when all have,
every split with lanes is woken, the waves of a `cbar` have seen what every entry had, and a woken split's word retires. -/
def Obligations.Barriers : Prop :=
  ∀ (h : Head) (f : FmtX) (s : State),
    (∀ (i : Instr) (clu : Bool), (i = .bar h f ∧ clu = false) ∨ (i = .cbar h f ∧ clu = true) → Admitted i [] s →
      let others := (me s.dev).splits.zipIdx.filter (fun p => p.2 ≠ s.dev.cur.2 && p.1.mask ≠ 0)
      let mixed := (∀ p ∈ others, p.1.park = .bar ∨ p.1.park = .cbar) ∧ ∃ p ∈ others, p.1.park = if clu then .bar else .cbar
      ((mySplit s.dev).ans.isSome = true → Retires i h true true s s.dev) ∧
      ((mySplit s.dev).ans = none → mixed → Traps i s { cause := 0x01, info0 := encodeD i }) ∧
      (∀ d, (mySplit s.dev).ans = none → ¬ mixed → Claims.Released (if clu then .clu else .team) s.dev d →
        let e := setMySplit d { mySplit d with park := if clu then .cbar else .bar }
        Stays i s (settleBars e (me e).set))) ∧
    (∀ (d : Dev) (clu : Bool) (ws : List Nat),
      let arrived := fun (w : Nat) => ∀ q ∈ (waveOf d w).splits, q.mask ≠ 0 → q.park = if clu then .cbar else .bar
      let e := settleBar d clu ws
      (∀ w ∈ ws, (waveOf d w).live = true → ¬ arrived w → e = d) ∧
      ((∀ w ∈ ws, (waveOf d w).live = true → arrived w) → ∀ w ∈ ws, (waveOf d w).live = true →
        (∀ j, (splitOf (waveOf d w) j).mask ≠ 0 →
          (splitOf (waveOf e w) j).park = .running ∧ (splitOf (waveOf e w) j).ans = some []) ∧
        (clu = true → ∀ v ∈ ws, (waveOf d v).live = true → (waveOf d v).vstamp ≤ (waveOf e w).vstamp)))

/-! ### Phasers and counters. -/

/-- A phaser instruction on the line of its lowest lane's address, with its operand B and the bank of the address. -/
def Sys2Proof.Claims.PhaserAt (i : Instr) (h : Head) (f : FmtX) (acc : Access) (s : State) (m : W32) (n : Nat) (v : BitVec 32) (bank : Nat)
    (e : Dev) : Prop :=
  ∃ l a b d0 d1 d2 d3, Admitted i [] s ∧ Runs (acting h false) s.mem s.dev m d0 ∧ lowLane m = some l ∧
    Runs (takeSrc .n64 m f.a) s.mem d0 a d1 ∧ Runs (takeSrc .n64 m f.b) s.mem d1 b d2 ∧ Claims.Room f.d d2 ∧
    Runs (phaserLine acc (valA (me d2) (mySplit d2) a l).toNat) s.mem d2 n d3 ∧
    v = (valA (me d2) (mySplit d2) b l).setWidth 32 ∧ bank = bankOf (valA (me d2) (mySplit d2) a l).toNat ∧ Claims.Ordered s.mem d3 e

/-- The result of a per-wave instruction goes to its destination, and the word retires. -/
def Sys2Proof.Claims.Answers (i : Instr) (h : Head) (code : BitVec 8) (s : State) (m : W32) (v : W64) (d : Dev) : Prop :=
  ∀ e, Runs (loadDst .n64 m code (fun _ => v)) s.mem d () e → Retires i h true false s e

/-- A wait for phase k: reached, it is a `.dev` acquire that answers OK; else the split parks, counted among the waiters. -/
def Sys2Proof.Claims.WaitsForPhase (i : Instr) (h : Head) (code : BitVec 8) (s : State) (m : W32) (n : Nat) (k : BitVec 32) (bank : Nat)
    (d : Dev) : Prop :=
  let p := phaserOf s.mem d n
  let e := countWaiters d n { p with waiters := p.waiters + 1 }
  (phReached p k = true → Claims.Answers i h code s m (phStatus p.phase 0) (acquireStamps d n d.cur.1 .dev)) ∧
  (phReached p k = false → Stays i s (setMySplit e { mySplit e with park := .phwait n k bank (newWatch e bank) }))

/-- R282 to R284: the phaser instructions, from their line on. Every result is a status word with the PHASE; NOPH where no
phaser stands. `phwait` and `phsw` wait for their phase, and answer what they were woken with. That a `phsw` which is issued again
signals no second time, and that a `phdrop` which answers UNDER is no release, is the model's reading (log 16). -/
def Obligations.Phasers : Prop :=
  ∀ (h : Head) (f : FmtX) (s : State) m n v bank d,
    let out := fun (i : Instr) (w : W64) (e : Dev) => Claims.Answers i h f.d s m w e
    let p := phaserOf s.mem d n
    let ph := (lineOf d n).ph
    let fresh := (mySplit s.dev).ans = none
    (∀ i : Instr, i = .phreg h f ∨ i = .phdrop h f ∨ i = .phsig h f ∨ ((i = .phwait h f ∨ i = .phsw h f) ∧ fresh) →
      Claims.PhaserAt i h f .readWrite s m n v bank d → ph = false → out i 3 d) ∧
    (∀ (i : Instr) a b d0 d1 d2, i = .phinit h f ∨ i = .phreg h f ∨ i = .phdrop h f ∨ i = .phsig h f ∨ i = .phquery h f ∨
        ((i = .phwait h f ∨ i = .phsw h f) ∧ fresh) → Admitted i [] s → Runs (acting h false) s.mem s.dev m d0 → lowLane m = none →
      Runs (takeSrc .n64 m f.a) s.mem d0 a d1 → Runs (takeSrc .n64 m f.b) s.mem d1 b d2 → out i 0 d2) ∧
    (∀ (i : Instr) r l a b c d0 d1 d2 d3, i = .phwait h f ∨ i = .phsw h f → (mySplit s.dev).ans = some r → Admitted i [] s →
      Runs (acting h false) s.mem s.dev m d0 → lowLane m = some l → Runs (takeSrc .n64 m f.a) s.mem d0 a d1 →
      Runs (takeSrc .n64 m f.b) s.mem d1 b d2 → Runs (takeSrc .n64 m f.c) s.mem d2 c d3 → out i (lane r 0) d3) ∧
    (Claims.PhaserAt (.phquery h f) h f .read s m n v bank d → out (.phquery h f)
      (if ph = true then (p.phase.setWidth 64 <<< 32) ||| (w64 (p.parties % 65536) <<< 16) ||| w64 (p.arrived % 65536) else 0)
      (sawHome s.mem d d.cur.1 (n * 64) 64)) ∧
    (Claims.PhaserAt (.phinit h f) h f .readWrite s m n v bank d →
      let q := if ph = true then p else {}
      let busy := ph = true ∧ q.waiters ≠ 0 ∧ bits f.md 0 0 = 0
      (busy → out (.phinit h f) (phStatus q.phase 1) d) ∧
      (¬ busy → 65535 < v.toNat → out (.phinit h f) (phStatus q.phase 5) d) ∧
      (¬ busy → v.toNat ≤ 65535 →
        out (.phinit h f) (phStatus 0 0) (phInit s.mem d n v.toNat (bits f.md 1 1 == 1) (bits f.md 2 2 == 1)))) ∧
    (Claims.PhaserAt (.phreg h f) h f .readWrite s m n v bank d → ph = true →
      (65535 < p.parties + v.toNat → out (.phreg h f) (phStatus p.phase 5) d) ∧
      (p.parties + v.toNat ≤ 65535 →
        let e := setParties s.mem d n (p.parties + v.toNat)
        out (.phreg h f) (phStatus (phaserOf s.mem e n).phase 0) e)) ∧
    (∀ d1, Claims.PhaserAt (.phdrop h f) h f .readWrite s m n v bank d → ph = true → Claims.Released .dev d d1 →
      let p := phaserOf s.mem d1 n
      (p.parties < v.toNat → out (.phdrop h f) (phStatus p.phase 4) d1) ∧
      (v.toNat ≤ p.parties → ∀ d2, Runs (phRelease m n (fun m d => setParties m d n (p.parties - v.toNat))) s.mem d1 () d2 →
        out (.phdrop h f) (phStatus (phaserOf s.mem d2 n).phase 0) d2)) ∧
    (∀ d1 code d2, Claims.PhaserAt (.phsig h f) h f .readWrite s m n v bank d → ph = true → Claims.Released .dev d d1 →
      Runs (signalNow m n v) s.mem d1 code d2 → out (.phsig h f) (phStatus (phaserOf s.mem d2 n).phase code) d2) ∧
    (Claims.PhaserAt (.phwait h f) h f .readWrite s m n v bank d → fresh → ph = true →
      Claims.WaitsForPhase (.phwait h f) h f.d s m n v bank d) ∧
    (∀ d1 code d2, Claims.PhaserAt (.phsw h f) h f .readWrite s m n v bank d → fresh → ph = true →
      (mySplit d).served = 0 → Claims.Released .dev d d1 → Runs (signalNow m n v) s.mem d1 code d2 →
      let k := (phaserOf s.mem d1 n).phase + 1
      Claims.WaitsForPhase (.phsw h f) h f.d s m n k bank
        (setMySplit d2 { mySplit d2 with served := m, servedVals := [(0, k.setWidth 64)] })) ∧
    (Claims.PhaserAt (.phsw h f) h f .readWrite s m n v bank d → fresh → ph = true → (mySplit d).served ≠ 0 →
      Claims.WaitsForPhase (.phsw h f) h f.d s m n ((lane (mySplit d).servedVals 0).setWidth 32) bank d)

/-- R284: the arithmetic of a phaser. An advance takes whole rounds of PARTIES arrivals into PHASE and leaves the rest; a target is
reached when PHASE has come to it, counted modulo 2^32 within half the circle. -/
def Sys2Proof.Claims.PhaserArithmetic : Prop :=
  ∀ (p : Phaser) (k : BitVec 32),
    let q := phAdvance p
    (p.any = false → p.parties ≠ 0 →
      q.arrived < p.parties ∧ q.arrived + p.parties * (p.arrived / p.parties) = p.arrived ∧
      q.phase = p.phase + BitVec.ofNat 32 (p.arrived / p.parties)) ∧
    ((p.any = true ∨ p.parties = 0) → q = p) ∧ q.parties = p.parties ∧ q.epoch = p.epoch ∧ q.waiters = p.waiters ∧
    (phReached p k = true ↔ (p.phase - k).toNat < 2 ^ 31)

/-- R282: QSTATE, bits [511:256] of its line, holds a phaser's fields at their places and zero between them: PH in [511], MODE in [400],
PARTIES from [384], ARRIVED from [368], WAITERS from [352], EPOCH from [320], PHASE from [288]; what is written there is read back whole,
and the line's other half stays. -/
def Sys2Proof.Claims.PhaserLayout : Prop :=
  ∀ (m : Memory) (d : Dev) (n : Nat) (p : Phaser), p.parties < 2 ^ 16 → p.arrived < 2 ^ 16 → p.waiters < 2 ^ 16 →
    phaserOf m (countWaiters d n p) n = p ∧
    (let q := fun (i : Nat) => rd64 m (countWaiters d n p) (n * 64 + 32 + 8 * i)
     q 3 = 1#64 <<< 63 ∧ q 2 = w64 ((if p.any then 2 ^ 16 else 0) + p.parties) ∧
     q 1 = w64 (p.arrived * 2 ^ 48 + p.waiters * 2 ^ 32 + p.epoch.toNat) ∧ q 0 = p.phase.setWidth 64 <<< 32) ∧
    (∀ i < 32, rdByte m (countWaiters d n p) (n * 64 + i) = rdByte m d (n * 64 + i))

/-- R286, R152, R153: `cadd` releases, adds and answers the old value; `cread` answers the value and acquires; `cwait` does when its
target is reached, and else parks with its deadline in a watch entry, or, with none free, in polling form; a woken one answers
what it was woken with. With no lane they answer 0 and do nothing. -/
def Obligations.Counters : Prop :=
  ∀ (h : Head) (f : FmtX) (g : FmtM) (s : State) m d0,
    let sc := scope (bits f.md 4 3)
    Runs (acting h false) s.mem s.dev m d0 →
    (∀ a b d1 d2, Admitted (.cadd h f) [] s → Runs (takeSrc .n64 m f.a) s.mem d0 a d1 → Runs (takeSrc .n64 m f.b) s.mem d1 b d2 →
      (lowLane m = none → Claims.Answers (.cadd h f) h f.d s m 0 d2) ∧
      (∀ l k d3 d4 d5, lowLane m = some l → Claims.Room f.d d2 →
        Runs (counterKey { acc := .readWrite, size := 8, writes := true } (valA (me d2) (mySplit d2) a l).toNat) s.mem d2 k d3 →
        Claims.Ordered s.mem d3 d4 → Claims.Released sc d4 d5 →
        let e := recallLine d5 (k / 64)
        Claims.Answers (.cadd h f) h f.d s m (rd64 s.mem e k)
          (counterAdd s.mem e (whoMe e) k (valA (me d2) (mySplit d2) b l) (me e).vstamp false))) ∧
    (∀ a b c d1 d2 d3, Admitted (.cwait h f) [] s → Runs (takeSrc .n64 m f.a) s.mem d0 a d1 →
      Runs (takeSrc .n64 m f.b) s.mem d1 b d2 → Runs (takeSrc .n64 m f.c) s.mem d2 c d3 →
      ((mySplit s.dev).ans = none → lowLane m = none → Claims.Answers (.cwait h f) h f.d s m 0 d3) ∧
      (∀ l, lowLane m = some l →
        (∀ r, (mySplit s.dev).ans = some r → Claims.Answers (.cwait h f) h f.d s m (lane r 0) d3) ∧
        (∀ k d4 d5, (mySplit s.dev).ans = none → Claims.Room f.d d3 →
          let va := (valA (me d3) (mySplit d3) a l).toNat
          Runs (counterKey { acc := .read, size := 8 } va) s.mem d3 k d4 → Claims.Ordered s.mem d4 d5 →
          let target := valA (me d3) (mySplit d3) b l
          let time := valA (me d3) (mySplit d3) c l
          let e0 := recallLine d5 (k / 64)
          let e := sawHome s.mem e0 e0.cur.1 k 8
          (target ≤ rd64 s.mem e k → Claims.Answers (.cwait h f) h f.d s m (rd64 s.mem e k) (counterAcquire e e.cur.1 k sc)) ∧
          (rd64 s.mem e k < target → Stays (.cwait h f) s (setMySplit e { mySplit e with
            park := .cwait k target sc (if time = 0 then none else some (e.cycle + time.toNat)) (bankOf va) (newWatch e (bankOf va)) }))))) ∧
    (∀ ea d1, Admitted (.cread h g) [] s → Runs (laneAddr g.base g.off m) s.mem d0 ea d1 →
      (lowLane m = none → Claims.Answers (.cread h g) h g.d s m 0 d1) ∧
      (∀ l k d2 d3, lowLane m = some l → Claims.Room g.d d1 →
        Runs (counterKey { acc := .read, size := 8 } (ea l).toNat) s.mem d1 k d2 → Claims.Ordered s.mem d2 d3 →
        let e0 := recallLine d3 (k / 64)
        let e := sawHome s.mem e0 e0.cur.1 k 8
        Claims.Answers (.cread h g) h g.d s m (rd64 s.mem e k) (counterAcquire e e.cur.1 k (scope g.sc.toNat))))

/-! ### The matrix engine. -/

/-- A matrix instruction: its operands are taken, the operation is sampled, its configuration, extents, counter and phasers are
checked, and it joins the queue of the core's Quill as its youngest; then the word retires. With no lane it retires at
once; with a configuration that the operation forbids it is ILLOP, also where no lane acts (log 28, the model's reading of R212). -/
def Sys2Proof.Claims.MatIssues (i : Instr) (h : Head) (f : FmtT) (kind : MatKind) (cnt : Option W64) (s : State) (d : Dev) : Prop :=
  ∀ q d0 r d1,
    let o := sampleMat d0 kind f q.2.1 q.2.2.1 q.2.2.2
    Runs (takeT h f) s.mem d q d0 →
    (configOk d0 d0.cur.1 o = false → Traps i s { cause := 0x01, info0 := encodeD i }) ∧
    (configOk d0 d0.cur.1 o = true → q.1 = 0 → Retires i h true false s d0) ∧
    (configOk d0 d0.cur.1 o = true → q.1 ≠ 0 → Runs (checkMat o cnt) s.mem d0 r d1 →
      quillCount d1 (pcore d1 (vcoreOf d1 (me d1))) < 16 →
      Retires i h true false s { d1 with matops := d1.matops ++
        [{ o with lane := q.1, cnt := r.1, lineA := r.2.1.1, epochA := r.2.1.2, lineW := r.2.2.1, epochW := r.2.2.2 }] })

/-- R288 to R291, R293, R298 to R308: the matrix instructions that issue an operation; `mswap` and `mdrain` name none of
format T's operands, and `mdrain` a counter. -/
def Sys2Proof.Claims.MatrixIssue : Prop :=
  ∀ (h : Head) (f : FmtT) (g : FmtS) (s : State),
    let bare : FmtT := { c := 0xC8, a := 0xC8, w := 0xC8, m1 := 0, ty := 4, acc := 0, fl := 0 }
    (Admitted (.mwld h f) [] s → Claims.MatIssues (.mwld h f) h f .mwld none s s.dev) ∧
    (Admitted (.mma h f) [] s → Claims.MatIssues (.mma h f) h f .mma none s s.dev) ∧
    (Admitted (.mmas h f) [] s → Claims.MatIssues (.mmas h f) h f .mmas none s s.dev) ∧
    (Admitted (.mzero h f) [] s → Claims.MatIssues (.mzero h f) h f .mzero none s s.dev) ∧
    (Admitted (.mpre h f) [] s → Claims.MatIssues (.mpre h f) h f .mpre none s s.dev) ∧
    (Admitted (.mpost h f) [] s → Claims.MatIssues (.mpost h f) h f .mpost none s s.dev) ∧
    (Admitted (.mswap h g) [] s → Claims.MatIssues (.mswap h g) h bare .mswap none s s.dev) ∧
    (∀ m va d0 d1, Admitted (.mdrain h g) [] s → Runs (acting h false) s.mem s.dev m d0 → Runs (sReg m g.a) s.mem d0 va d1 →
      Claims.MatIssues (.mdrain h g) h bare .mdrain (some va) s d1)

/-- R292, R312, R314: `mcfg` sets a configuration register; `mfence` retires once every operation that the wave issued before it
has completed, and parks until then (that its first issue counts those operations is log 17, the model's reading); `mstat` reads the
engine's word. -/
def Sys2Proof.Claims.MatrixControl : Prop :=
  ∀ (h : Head) (f : FmtS) (s : State) m d0 d1,
    Runs (acting h false) s.mem s.dev m d0 →
    (∀ v, Admitted (.mcfg h f) [] s → Runs (sReg m f.a) s.mem d0 v d1 →
      let x := me d1
      (m = 0 → Retires (.mcfg h f) h true false s d1) ∧
      (m ≠ 0 → Retires (.mcfg h f) h true false s (setMe d1
        (if f.code = 0 then { x with mgeo := v } else if f.code = 1 then { x with mdesc := v }
         else if f.code = 2 then { x with mringa := v } else if f.code = 3 then { x with mringw := v }
         else { x with msparse := v })))) ∧
    (Admitted (.mfence h f) [] s →
      let q := mySplit d0
      let q1 := if q.served = 0 then { q with servedVals := put 0 [] 0 (w64 d0.matops.length) } else q
      let idle := ∀ o ∈ d0.matops.take (lane q1.servedVals 0).toNat, o.wave = d0.cur.1 → o.done = true
      let e := setMySplit d0 { q1 with served := m }
      (m = 0 ∨ idle → Retires (.mfence h f) h true false s d0) ∧
      (m ≠ 0 → ¬ idle → Stays (.mfence h f) s (setMySplit e { mySplit e with park := .mfence }))) ∧
    (Admitted (.mstat h f) [] s → Runs (putA 0 m f.d (fun _ => mstatWord d0 d0.cur.1)) s.mem d0 () d1 →
      Retires (.mstat h f) h true false s d1)

/-! ### The copy engine. -/

/-- A copy instruction: its two records, its lanes, its destination and its counter are taken and checked, and a copy takes the
core's lowest free tag; then the word retires. Records that the copy forbids are ILLOP also where no lane acts (log 28, the model's
reading of R212). -/
def Sys2Proof.Claims.CopyIssues (i : Instr) (h : Head) (f : FmtE) (kind : CopyKind) : Prop :=
  ∀ (s : State) la lb m dst c tag d0 d1 d2,
    Admitted i [] s → Runs (slotArg i f.la) s.mem s.dev la s.dev → Runs (slotArg i f.lb) s.mem s.dev lb s.dev →
    (copyShapes kind la.raw lb.raw = false → Traps i s { cause := 0x01, info0 := encodeD i }) ∧
    (copyShapes kind la.raw lb.raw = true → Runs (acting h false) s.mem s.dev m d0 →
      (m = 0 → Retires i h true false s d0) ∧
      (m ≠ 0 → Runs (sReg m f.dst) s.mem d0 dst d1 → dst.toNat % lSize lb.raw = 0 → Runs (copyCounter f m) s.mem d1 c d2 →
        freeTag d2 (pcore d2 (vcoreOf d2 (me d2))) = some tag →
        Retires i h true false s { d2 with copies := d2.copies ++ [newCopy d2 f kind la lb m dst c tag] }))

/-- R319, R320, R326, R327: `cpld` fills a slot from memory; `cpy`, `cpyx` and `cpyw` issue a copy; `cpfix` retries, skips, aborts or
reloads the wave's faulted copy of a tag and answers its status, 1 where none has faulted; `cpq` reads the tags. -/
def Sys2Proof.Claims.CopyInstructions : Prop :=
  ∀ (h : Head) (f : FmtE) (g : FmtS),
    Claims.CopyIssues (.cpy h f) h f .cpy ∧ Claims.CopyIssues (.cpyx h f) h f .cpyx ∧ Claims.CopyIssues (.cpyw h f) h f .cpyw ∧
    ∀ (s : State) m d0 d1 d2, Runs (acting h false) s.mem s.dev m d0 →
      (∀ va k bs d3 d4, m ≠ 0 → Admitted (.cpld h g) [] s → Runs (sReg m g.a) s.mem d0 va d1 →
        Runs (checkPlace .g { acc := .read, size := 64 } va.toNat) s.mem d1 (.device k) d2 →
        Runs (perform (readPlace (.device k) 64 va.toNat true false)) s.mem d2 (some bs) d3 →
        let r := BitVec.ofNat 512 (leNat bs)
        layoutOk r = true →
        d4 = setMe d3 { me d3 with slots := put none (me d3).slots (bits g.code 3 0) (some ⟨r, va.toNat⟩) } →
        Retires (.cpld h g) h true false s d4) ∧
      (∀ tag d3, m ≠ 0 → Admitted (.cpfix h g) [] s → Runs (sReg m g.a) s.mem d0 tag d1 →
        let r := match faultedCopy d1 d1.cur.1 (tag.toNat % 64) with
          | none => (d1, 1)
          | some i => fixCopy s.mem d1 i (bits g.code 1 0) (bits g.code 2 2 == 1)
        Runs (putA 0 m g.d (fun _ => w64 r.2)) s.mem r.1 () d3 → Retires (.cpfix h g) h true false s d3) ∧
      (Admitted (.cpq h g) [] s → Runs (putA 0 m g.d (fun _ => copyWord d0 (bits g.code 1 0))) s.mem d0 () d1 →
        Retires (.cpq h g) h true false s d1)

/-- R328 to R330: `halo` and `pub` declare a pattern on a seal, or withdraw it, and answer in STAT; `sub` enters the wave's
stage set, or a range of global memory, as a subscriber. -/
def Sys2Proof.Claims.Declarations : Prop :=
  ∀ (h : Head) (f : FmtE) (s : State) m d0 d1 d2,
    (∀ (i : Instr) (halo : Bool) la lb a, (i = .halo h f ∧ halo = true) ∨ (i = .pub h f ∧ halo = false) → Admitted i [] s →
      Runs (slotArg i f.la) s.mem s.dev la s.dev → Runs (slotArg i f.lb) s.mem s.dev lb s.dev →
      Runs (acting h false) s.mem s.dev m d0 →
      (m = 0 → Retires i h true false s d0) ∧
      (m ≠ 0 → Runs (takeDecl f la lb m) s.mem d0 a d1 → Runs (declApply halo f a) s.mem d1 () d2 → Retires i h true false s d2)) ∧
    (∀ a, Admitted (.subCopy h f) [] s → Runs (acting h false) s.mem s.dev m d0 →
      (m = 0 → Retires (.subCopy h f) h true false s d0) ∧
      (m ≠ 0 → Runs (takeSub f m) s.mem d0 a d1 → Runs (subApply f m a) s.mem d1 () d2 → Retires (.subCopy h f) h true false s d2)) ∧
    (∀ (d : Dev) (halo : Bool) (a : DeclArgs),
      let cur := (lineOf d a.n).decl
      let nent := bits a.hd 79 72
      (bits f.mode 11 11 = 1 → declStatus d halo f a = if cur.any (fun e => e.desc == placeKey a.p) then 0 else 3) ∧
      (bits f.mode 11 11 = 0 → cur.isSome = true → declStatus d halo f a = 2) ∧
      (bits f.mode 11 11 = 0 → cur = none →
        (if halo then haloOk a.la.raw a.lb.raw nent (bits f.mode 3 0) else pubOk a.la.raw a.lb.raw nent) = true →
        declStatus d halo f a = if 256 ≤ bankDecls d (bankOf (bits a.hd 56 0)) then 1 else 0))

/-! ### Tasks. -/

/-- R332 to R338, R177: `spawn` checks its depth, its task word and its code address, in that order, counts itself in the wave's frame
and queues a record; `frame` checks its frame's alignment and its task word, stores a record and a counter of 1, and makes it the
wave's frame; `dclk` moves the clock forward; `dsync`
waits for the wave's engine operations, their traps and its posted writes; `stage` reads the wave's stages. -/
def Obligations.Tasks : Prop :=
  ∀ (h : Head) (f : FmtX) (s : State),
    let x := me s.dev
    let all := (mySplit s.dev).mask
    (∀ code word hint k d0 d1 d2 d3 d4 d5, Admitted (.spawn h f) [] s → x.depth < 8 → Runs (sReg all f.a) s.mem s.dev code d0 →
      Runs (sReg all f.b) s.mem d0 word d1 →
      (if none8 f.c then hint = 0 ∧ d2 = d1 else Runs (sReg all f.c) s.mem d1 hint d2) → taskOk s.dev word = true →
      code.toNat < 2 ^ 57 → code.toNat % 64 = 0 → Runs (spawnCounter x) s.mem d2 k d3 → Claims.Ordered s.mem d3 d4 →
      Claims.Released .dev d4 d5 →
      let r := recBits code x.cframe hint word (x.depth + 1) x.cjoff
      (nth d5.queues (contQueue d5 d5.cur.1 r) []).length < 65536 → Retires (.spawn h f) h true false s (spawnEffect s.mem d5 k r)) ∧
    (Admitted (.spawn h f) [] s → 8 ≤ x.depth → Traps (.spawn h f) s { cause := 0x11 }) ∧
    (∀ code word hint d0 d1 d2, Admitted (.spawn h f) [] s → x.depth < 8 → Runs (sReg all f.a) s.mem s.dev code d0 →
      Runs (sReg all f.b) s.mem d0 word d1 →
      (if none8 f.c then hint = 0 ∧ d2 = d1 else Runs (sReg all f.c) s.mem d1 hint d2) →
      (taskOk s.dev word = false → Traps (.spawn h f) s { cause := 0x01, info0 := encodeD (.spawn h f) }) ∧
      (taskOk s.dev word = true → 2 ^ 57 ≤ code.toNat → Traps (.spawn h f) s { cause := 0x06, addr := code }) ∧
      (taskOk s.dev word = true → code.toNat < 2 ^ 57 → code.toNat % 64 ≠ 0 → Traps (.spawn h f) s { cause := 0x02, addr := code })) ∧
    (∀ fr code word d0 d1 d2, Admitted (.frame h f) [] s → Runs (sReg all f.a) s.mem s.dev fr d0 →
      Runs (sReg all f.b) s.mem d0 code d1 → Runs (sReg all f.c) s.mem d1 word d2 →
      (fr.toNat % 64 ≠ 0 → Traps (.frame h f) s { cause := 0x02, addr := fr }) ∧
      (fr.toNat % 64 = 0 → (8 * (f.ty.toNat * 256 + f.md.toNat) < 64 ∨ taskOk s.dev word = false) →
        Traps (.frame h f) s { cause := 0x01, info0 := encodeD (.frame h f) })) ∧
    (∀ fr code word ps d0 d1 d2 d3 d4, Admitted (.frame h f) [] s → Runs (sReg all f.a) s.mem s.dev fr d0 →
      Runs (sReg all f.b) s.mem d0 code d1 → Runs (sReg all f.c) s.mem d1 word d2 → fr.toNat % 64 = 0 →
      let joff := 8 * (f.ty.toNat * 256 + f.md.toNat)
      64 ≤ joff → taskOk s.dev word = true →
      Runs (((List.range 8).map (8 * ·) ++ [joff]).mapM (fun o =>
        checkPlace .g { acc := .write, size := 8, writes := true, posted := true } (fr.toNat + o))) s.mem d2 ps d3 →
      Runs (perform (frameStores ps (natBytes 64 (recBits code x.cframe fr word x.depth x.cjoff).toNat))) s.mem d3 (some ()) d4 →
      Retires (.frame h f) h true false s (setMe d4 { me d4 with cframe := fr, cjoff := joff })) ∧
    (∀ src d0 e, Admitted (.dclk h f) [] s → Runs (takeSrc .n64 all f.a) s.mem s.dev src d0 →
      Runs (retireWord h.stl.toNat true false) s.mem d0 () e →
      Becomes (.dclk h f) s (moveClock e e.cur.1 e.cur.2
        (max (mySplit e).clock (valA (me d0) (mySplit d0) src ((lanesOf all).headD 0)).toNat))) ∧
    (Admitted (.dsync h f) [] s →
      let q := mySplit s.dev
      let n := if q.served = 0 then s.dev.copies.length else (lane q.servedVals 0).toNat
      let k := if q.served = 0 then s.dev.matops.length else (lane q.servedVals 1).toNat
      (∀ c ∈ s.dev.copies.take n, c.wave = s.dev.cur.1 → c.done = true) →
      (∀ o ∈ s.dev.matops.take k, o.wave = s.dev.cur.1 → o.done = true) → x.posted = [] →
      (∀ t ∈ x.atraps, fromEngine t.trap = false) → Retires (.dsync h f) h true true s s.dev) ∧
    (∀ d0, Admitted (.stage h f) [] s → Runs (loadDst .n64 all f.d (fun _ => stageWord s.dev)) s.mem s.dev () d0 →
      Retires (.stage h f) h true false s d0)

/-! ### System. -/

/-- R341, R339, R223 to R226, R52, R53, R340: `nop`, `hint` and the hint space retire and do nothing; `rdsr` and `wrsr` read and write
special registers; `carve` resizes the S store once the pages in the frames that it takes have left (that it waits in place while one of them fills or cannot
be written back is log 33, the model's reading), and `halt` ends a context's launches, both PERM with SUB 1 outside context 0. -/
def Obligations.SystemInstructions : Prop :=
  ∀ (h : Head) (f : FmtS) (fn : BitVec 5) (b : BitVec 44) (s : State),
    let all := (mySplit s.dev).mask
    let x := me s.dev
    let core := pcore s.dev (vcoreOf s.dev x)
    let units := bits f.code 2 0
    let n := 64 - 8 * units
    Retires (.nop h b) h true true s s.dev ∧ Retires (.hintSpace h fn b) h true true s s.dev ∧
    (Admitted (.hint h f) [] s → Retires (.hint h f) h true true s s.dev) ∧
    (∀ d0, Admitted (.rdsr h f) [] s → Runs (putA 0 all f.d (fun l => srWord s.dev f.code.toNat l)) s.mem s.dev () d0 →
      Retires (.rdsr h f) h true true s d0) ∧
    (∀ src d0 d1, Admitted (.wrsr h f) [] s → Runs (takeSrc .n64 all f.a) s.mem s.dev src d0 →
      Runs (srWrite f.code.toNat (valA (me d0) (mySplit d0) src ((lanesOf all).headD 0))
        { cause := 0x01, info0 := encodeD (.wrsr h f) }) s.mem d0 () d1 →
      Retires (.wrsr h f) h true true s d1) ∧
    (Admitted (.carve h f) [] s → x.ctx ≠ 0 → Traps (.carve h f) s { cause := 0x09, sub := 1 }) ∧
    (∀ d0, Admitted (.carve h f) [] s → x.ctx = 0 → n < pinnedS s.dev core →
      Runs (putA 0 all f.d (fun _ => 1)) s.mem s.dev () d0 → Retires (.carve h f) h true true s d0) ∧
    (Admitted (.carve h f) [] s → x.ctx = 0 → pinnedS s.dev core ≤ n →
      let filling := (takenPages s.dev core n).any (fun p => (pageOf s.dev p.1 p.2).st == .filling)
      let e := (takenPages s.dev core n).foldl (fun d p => evict s.mem d p.1 p.2) s.dev
      (filling = true → Stays (.carve h f) s s.dev) ∧
      (filling = false → takenPages e core n ≠ [] → Stays (.carve h f) s e) ∧
      (∀ d0, filling = false → takenPages e core n = [] → Runs (putA 0 all f.d (fun _ => 0)) s.mem (setCarve e core units) () d0 →
        Retires (.carve h f) h true true s d0)) ∧
    (Admitted (.halt h f) [] s → x.ctx ≠ 0 → Traps (.halt h f) s { cause := 0x09, sub := 1 }) ∧
    (∀ c d0, Admitted (.halt h f) [] s → x.ctx = 0 → Runs (sReg all f.a) s.mem s.dev c d0 →
      let d1 := failContext s.mem d0 (c.toNat % 65536) 0x09
      ((me d1).live = true → Retires (.halt h f) h true true s d1) ∧ ((me d1).live = false → Becomes (.halt h f) s d1))

/-- R223 to R226, R85, R143: what the special registers read and take: FSTAT reads as written, LANE, WAVE, STAGE and CLOCK read
the lane, the wave and its split, MODE packs its fields, and a MODE with no rounding mode is refused. -/
def Obligations.SpecialRegisters : Prop :=
  ∀ (m : Memory) (d : Dev) (v : W64) (bad : Trap) (l : Nat),
    d.cur.1 < d.waves.length →
    srWord d 0x00 l = w64 l ∧ srWord d 0x01 l = w64 (me d).widx ∧ srWord d 0x04 l = w64 (me d).stage ∧
    srWord d 0x06 l = w64 (mySplit d).clock ∧
    (∃ e, Runs (srWrite 0x09 v bad) m d () e ∧ srWord e 0x09 l = (v.setWidth 9).setWidth 64) ∧
    (∃ e, Runs (srWrite 0x0B v bad) m d () e ∧ srWord e 0x0B l = (v.setWidth 16).setWidth 64) ∧
    (∃ e, Runs (srWrite 0x0C v bad) m d () e ∧ srWord e 0x0C l = (v.setWidth 16).setWidth 64) ∧
    (∃ e, Runs (srWrite 0x0E v bad) m d () e ∧ srWord e 0x0E l = v) ∧
    ((bits v 10 8 = 0 ∨ 6 ≤ bits v 10 8) → runAct (srWrite 0x08 v bad) m d = .error bad) ∧
    (1 ≤ bits v 10 8 → bits v 10 8 ≤ 5 → (me d).set < d.sets.length →
      ∃ e, Runs (srWrite 0x08 v bad) m d () e ∧ rndCode (me e).rnd = bits v 10 8 ∧ (me e).chk = (bits v 0 0 == 1) ∧
        (me e).fo = (me d).fo ∧
        (mySet e).logcap.toNat = bits v 17 15 ∧
        (mySet e).lhold.toNat = (if bits v 23 18 = 0 then 0 else min 47 (max 12 (bits v 23 18))))

/-! ### Device steps. -/

/-- R119, R120, R161, R179, R204, R205, R167, R197: the device steps of waves. A clock epoch raises the view and empties the lease
record; a split whose word has been ready for 64 cycles is promoted, from the cycle in which it had been; the minimum of a launch becomes
the least key of its active splits; an asynchronous trap is taken at a boundary, by the split that then holds the lowest lane of its
instruction's mask; each split of a wave that waits on a full ring is tried again once the header has been written, in turn; a reached
PREEMPT_AT parks the splits that run and asks for a switch of the wave's cluster (log 38). -/
def Sys2Proof.Claims.WaveSteps : Prop :=
  ∀ (s : State) (w sp l : Nat),
    let d := s.dev
    let x := waveOf d w
    let q := splitOf x sp
    (x.epochDue ≠ 0 → Becomes (.clockEpochStep w) s (setWave d w { x with
      vstamp := max (x.vstamp + 256) (x.lmax + 1), lmax := 0, epochDue := x.epochDue - 1,
      leaseSet := if x.fo then [] else x.leaseSet })) ∧
    (readyWord s.mem d w sp = true → q.promoted = none → q.readySince + 64 ≤ d.cycle →
      Becomes (.issuePromotion w sp) s (modSplit d w sp (fun q => { q with promoted := some (q.readySince + 64) }))) ∧
    (∀ k ∈ activeKeys d l, (∀ j ∈ activeKeys d l, keyLt j k = false) →
      Becomes (.minTreeRefresh l) s (setLaunch d l { launchOf d l with minKey := some k })) ∧
    (activeKeys d l = [] → Becomes (.minTreeRefresh l) s (setLaunch d l { launchOf d l with minKey := none })) ∧
    (∀ t, dueTrap x sp = some t → x.live = true → q.mask ≠ 0 → q.handler = none → q.ans = none → deliverable q.park = true →
      setResident d x.set = true →
      let d1 := unpark (unwait s.mem d w sp) w sp
      Becomes (.asyncTrapDelivery w sp) s
        (takeTrap s.mem (setWave d1 w { waveOf d1 w with atraps := (waveOf d1 w).atraps.erase t }) w sp t.trap true)) ∧
    (∀ a t r, x.atraps = a ++ t :: r → trapSplit x t.mask = some sp → (∀ u ∈ a, trapSplit x u.mask ≠ some sp) → dueTrap x sp = some t) ∧
    (∀ (mask : W32) (n j : Nat), x.live = true → n < 32 → mask.getLsbD n = true → j < x.splits.length →
      (∀ i < n, mask.getLsbD i = true → ∀ p ∈ x.splits, p.mask.getLsbD i = false ∧ (p.mask ≠ 0 → stackHolds p i = false)) →
      (splitOf x j).mask.getLsbD n = true → (∀ i < j, (splitOf x i).mask.getLsbD n = false) → trapSplit x mask = some j) ∧
    (setResident d x.set = true → Becomes (.ringRetry w) s ((List.range x.splits.length).foldl (fun d i =>
      match (splitOf (waveOf d w) i).park with
      | .ring n wts => if (lineOf d n).wts = wts then d
        else waveRecord s.mem d w i (splitOf (waveOf d w) i).ringRec (splitOf (waveOf d w) i).after
      | _ => d) d)) ∧
    (∀ (d : Dev) (i : Nat) (recs : List (List W64)) (after : Park), i < (waveOf d w).splits.length → w < d.waves.length →
      (recs = [] → waveRecord s.mem d w i recs after = modSplit d w i (fun q => { q with park := after, ringRec := [] })) ∧
      (∀ r rest d1 n wts, recs = r :: rest → ringWrite s.mem d (waveOf d w).ctx [r] true = (d1, .full n wts) →
        waveRecord s.mem d w i recs after = modSplit d1 w i (fun q => { q with park := .ring n wts, ringRec := recs, after := after }))) ∧
    (x.preemptHit = true → setResident d x.set = true →
      let stop := fun (q : Split) => if q.mask ≠ 0 && q.park == .running then { q with park := .stopped } else q
      let d1 := setWave d w { x with preemptAt := 0, preemptHit := false, splits := x.splits.map stop }
      Becomes (.preemptAtReached w) s { d1 with agenda := .event (.contextSwitchOut (clusterIdx d1 w)) :: d1.agenda }) ∧
    (∀ d1, Runs (checkTarget (w64 (mySplit d).pc)) s.mem d () d1 →
      (∀ d2 d3, Runs (arrive 9) s.mem d1 true d2 → Runs enterHeader s.mem d2 () d3 → Becomes .splitArrive s d3) ∧
      (∀ d2, Runs (arrive 9) s.mem d1 false d2 → Becomes .splitArrive s d2)) ∧
    (∀ t, runAct (checkTarget (w64 (mySplit d).pc)) s.mem d = .error t → Traps .splitArrive s t)

/-- R25, R28, R39, R40, R64: the device steps of pages. A walk takes its leaf, or opens an episode with
a record that names no wave (log 35); a store with no free frame loses one page; a fill ends with the page's bytes, its bits and its log,
or is a FILL_FAULT. -/
def Sys2Proof.Claims.PageSteps : Prop :=
  ∀ (s : State) (core ctx t pi : Nat) (va : BitVec 64) (acc : Access) (st : StoreId),
    let d := s.dev
    let walk := runAct (translate core ctx va.toNat acc) s.mem d
    (∀ r d1, walk = .ok (r, d1) → Becomes (.pageWalk core ctx va acc) s d1) ∧
    (∀ e, walk = .error e → replayable e = false → Becomes (.pageWalk core ctx va acc) s d) ∧
    (∀ e, walk = .error e → replayable e = true →
      let r := joinEpisode d (coreDie core) ctx e []
      (r.2 = true → Becomes (.pageWalk core ctx va acc) s (writeRecord s.mem r.1 ctx
        (recordWords r.1 ctx none 0 0 e { external := true, replay := true }))) ∧
      (r.2 = false → Becomes (.pageWalk core ctx va acc) s r.1)) ∧
    ((freeFrame d core st).isSome = true → Becomes (.pageReclaim core st) s d) ∧
    (∀ u i, freeFrame d core st = none → reclaimable d core st = some (u, i) →
      Becomes (.pageReclaim core st) s (evict s.mem d u i)) ∧
    ((pageOf d t pi).st ≠ .filling → Becomes (.fillComplete t pi) s d) ∧
    ((pageOf d t pi).st = .filling → ∀ e, dataKey s.mem d t (pageOf d t pi) .read = .error e →
      Becomes (.fillComplete t pi) s (fillFailed s.mem d t pi e)) ∧
    (∀ k d1 e, (pageOf d t pi).st = .filling → dataKey s.mem d t (pageOf d t pi) .read = .ok (k, d1) →
      bitsKey s.mem d1 t (pageOf d t pi) .read = .error e → Becomes (.fillComplete t pi) s (fillFailed s.mem d1 t pi e)) ∧
    ((pageOf d t pi).st = .filling → ∀ k d1 b d2,
      dataKey s.mem d t (pageOf d t pi) .read = .ok (k, d1) → bitsKey s.mem d1 t (pageOf d t pi) .read = .ok (b, d2) →
      let p := pageOf d t pi
      let d3 := if p.mapped = none then d2
        else (List.range 64).foldl (fun d i => recallFrom d ((k + 64 * i) / 64) (some (setOf d t).cluster)) d2
      let bytes := (rdBytes s.mem d3 k 4096).zipIdx.foldl (fun r x => put 0 r x.2 x.1) ([] : Sparse Byte)
      let back := { p with
        data := bytes, full := fullFrom (rdBytes s.mem d3 b 32), poison := p.poison ||| backPoison d3 k,
        dirty := logged p || decide (p.poison ≠ 0) }
      let q := { appliedLog d3 back p.log with
        st := if setResident d3 t = true ∧ setAlive d3 t = true then .pinned else .unpinned }
      Becomes (.fillComplete t pi) s ((List.range 256).foldl (fun d g =>
        if q.full.getLsbD g then serveGranule d t pi g (look 0 q.fullClock g) else d) (setPage d3 t pi q)))

/-- R151, R152, R324, R325, R331, R54, R88, R285, R293, R313: the device steps of the engines. A push first reads its record copies. A copy
reads its next elements and lands those of one granule together (R126, R151; log 65): while one of them waits for a page or a link
nothing lands. A failing access posts COPY, the index entries read before it being kept (log 27); when the last has performed the copy
completes. Quill moves the operation
that it turns to next (a free choice among the oldest of each wave, log 67), a weight load by a beat, a swap or a row by one, and
completes it, its flags going to FSTAT. -/
def Obligations.EngineSteps : Prop :=
  ∀ (s : State) (i core n : Nat),
    let d := s.dev
    (∀ e c0, (e = .copyEngineWrite i ∧ c0.tset = none) ∨ (e = .multicastArrival i ∧ c0.tset ≠ none) →
      copyAt d i = some c0 → copyRuns d i c0 = true →
      let c := takeTag d c0
      let d0 := setCopy d i c
      (targetStale d0 c = true → Becomes e s (dropStale s.mem d0 i c)) ∧
      (∀ t pi, targetStale d0 c = false → planNext c s.mem d0 = .error (.wait t pi) → Becomes e s (startFill s.mem d0 t pi)) ∧
      (targetStale d0 c = false → planNext c s.mem d0 = .error .link → Becomes e s d0) ∧
      (∀ c1 p d1, targetStale d0 c = false → planNext c s.mem d0 = .ok ((c1, p), d1) →
        (p.writes = [] → Becomes e s (setCopy d1 i (landed c1 {}))) ∧
        (∀ w r, p.writes = w :: r →
          let land := (elemWhere c1).2
          let last := lastMate c1 (if w.desc then descAddr c1.lb.raw c1.dst land else landVa c1 land)
          let all := collect s.mem (granuleOf w.dst) last (last - c1.pos) (advance c1) (takeWrites (granuleOf w.dst) c1.pos {} p.writes) d1
          (∀ t pi, all = .error (.wait t pi) → Becomes e s (startFill s.mem d0 t pi)) ∧
          (all = .error .link → Becomes e s d0) ∧
          (∀ b idx d2, all = .ok (b, idx, d2) →
            (∀ d3 c3, landCells i w.dst (lastCells b.cells) s.mem d2 = .ok ((), d3) → copyAt d3 i = some c3 →
              Becomes e s (setCopy d3 i (landed { c3 with idx := c1.idx.filter (fun q => !idx.contains q) ++ idx } b))) ∧
            (∀ t pi, landCells i w.dst (lastCells b.cells) s.mem d2 = .error (.page t pi) → Becomes e s (startFill s.mem d0 t pi)))))) ∧
    (∀ c0 raw cf, copyAt d i = some c0 → copyRuns d i c0 = true →
      let r := keepIndex s.mem d (takeTag d c0)
      let d1 := raw.elim r.2 (engineEpisode s.mem r.2 r.1.wave)
      let o := postAsync s.mem (setCopy d1 i { r.1 with fault := some cf }) r.1.wave r.1.lane cf.trap
      targetStale d r.1 = false → planNext r.1 s.mem r.2 = .error (.fault raw cf) →
      Becomes (.copyFault i) s (if o.2 then abortCopy s.mem o.1 i else o.1)) ∧
    (∀ c, copyAt d i = some c → c.done = false → c.fault = none → c.posted = [] →
      (c.aborted = true ∨ (c.unread = false ∧ copyTotal c ≤ c.pos)) → Becomes (.copyComplete i) s (finishCopy s.mem d i)) ∧
    (∀ (c : Copy), c.unread = false → planNext c = planElem c) ∧
    (∀ j o, nextMat d core = some (j, o) →
      (loadDone o = false → Becomes (.weightLoadStroke core) s (loadBeat s.mem d j o)) ∧
      (loadDone o = true → swaps o = true → o.swapped = false →
        Becomes (.swapStroke core) s (swapBanks (setMat d j { o with swapped := true }) o.wave)) ∧
      (loadDone o = true → (swaps o = true → o.swapped = true) → hasRows o = true → matOver o = false →
        Becomes (.rowStroke core) s (strokeRow s.mem d j o)) ∧
      (matOver o = true →
        let o1 := { o with done := true, published := !matHeld d o }
        let d1 := orFlags (setMat d j o1) o.wave o.flags
        let d2 := wakeFences (if matHeld d o = true then d1 else matEffects s.mem d1 o1 0) o.wave
        Becomes (.matrixOpComplete core) s (settleCluster s.mem d2 (clusterIdx d2 o.wave)))) ∧
    (∀ g, d.signals[n]? = some g → g.held = none →
      Becomes (.phaserEngineSignal n) s (engineSignal s.mem { d with signals := d.signals.eraseIdx n } g 0))

/-- R129, R140, R141, R143, R144, R148, R149, R280, R286: the device steps of locks, monitors and counters. A parked request is made
again, in FO mode in its turn: below the keys of the launch's active splits and of those that wait with it; a wait that times out answers 3 with its records; a hold that times out posts LOCK_HOLD once and
the lock stays held; a wave that is switched out is marked away in its queues, and one that is back gets what was reserved for it;
timeouts answer their waiters, and the monitor stays armed for another split that waits by it (log 72); polled watches are compared. One that comes where it does not apply changes nothing. -/
def Obligations.SyncSteps : Prop :=
  ∀ (s : State) (w sp line : Nat),
    let d := s.dev
    let x := waveOf d w
    let q := splitOf x sp
    let due := fun (t : Option Nat) => ∃ n, t = some n ∧ n ≤ d.cycle
    (∀ n va mask t, q.park = .lockFull n va mask t →
      let r := lockRequest s.mem d w sp n va mask t
      let next := arrivesNext d w sp (bankOf va) n
      (x.fo = false → next = true) ∧
      (x.fo = true → next = (leastKey (activeKeys d x.launch ++ fullKeys d w sp (bankOf va) n)).all (fun k => keyLt (keyOf x sp) k)) ∧
      (next = false → Becomes (.lockReissue w sp) s d) ∧
      (∀ st, next = true → r.2 = .inl st →
        Becomes (.lockReissue w sp) s (modSplit (unpark r.1 w sp) w sp (fun q => { q with ans := some [(0, st)] }))) ∧
      (∀ p, next = true → r.2 = .inr p →
        Becomes (.lockReissue w sp) s (modSplit r.1 w sp (fun q => { q with park := p })))) ∧
    (∀ n va mask t, q.park = .lock n va t ∨ q.park = .lockFull n va mask t →
      let d1 := dropWaiter s.mem d w sp
      (due t → Becomes (.lockWaitTimeout w sp) s
        (ringWrite s.mem (wake d1 w sp [(0, 3)] q.clock) (waveOf d1 w).ctx (lockWaitRecords d w sp n va) false).1) ∧
      (¬ due t → Becomes (.lockWaitTimeout w sp) s d)) ∧
    (∀ h, x.held.find? (fun h => h.line == line && passed d h.deadline) = some h →
      let d1 := setWave d w { x with held := x.held.map (fun g => if g = h then { g with deadline := none } else g) }
      Becomes (.lockHoldTimeout w line) s (postAsync s.mem d1 w h.mask { cause := 0x18, addr := w64 h.va }).1) ∧
    ((∀ h ∈ x.held, h.line = line → ¬ due h.deadline) → Becomes (.lockHoldTimeout w line) s d) ∧
    (Becomes (.waiterAway w) s (if setResident d x.set = true then d else markWaiters d w true)) ∧
    (let d1 := markWaiters d w false
     Becomes (.waiterBack w) s
      (if setResident d x.set = true then d1.lines.foldl (fun d p => grantReserved s.mem w d p.1) d1 else d)) ∧
    (∀ (d : Dev) (n : Nat) (e : Lock), (lineOf d n).lock = some e →
      (∀ y, e.queue.find? (fun q => q.wave == w && reservedFor e q.wave q.split) = some y →
        grantReserved s.mem w d n = grantWaiter s.mem d n { e with queue := e.queue.filter (· ≠ y) } y e.clock) ∧
      ((∀ y ∈ e.queue, y.wave = w → reservedFor e y.wave y.split = false) → grantReserved s.mem w d n = d)) ∧
    (∀ t, q.park = .mwait t →
      let told := ∃ mo, x.monitor = some mo ∧ mo.due.isSome = true
      ((∀ i, i ≠ sp → i < x.splits.length → inMwait (splitOf x i) = false) → due t → ¬ told →
        Becomes (.mwaitTimeout w sp) s (wake (setWave d w { x with monitor := none }) w sp [(0, 1)] q.clock)) ∧
      ((∃ i, i ≠ sp ∧ i < x.splits.length ∧ inMwait (splitOf x i) = true) → due t → ¬ told →
        Becomes (.mwaitTimeout w sp) s (wake (setWave d w x) w sp [(0, 1)] q.clock)) ∧
      (¬ due t ∨ told → Becomes (.mwaitTimeout w sp) s d)) ∧
    (∀ k v sc t bank watch, q.park = .cwait k v sc t bank watch →
      let told := ∃ r e, watch = .due r e
      let d1 := recallLine d (k / 64)
      (due t → ¬ told → Becomes (.cwaitTimeout w sp) s (wake (sawHome s.mem d1 w k 8) w sp [(0, rd64 s.mem d1 k)] q.clock)) ∧
      (¬ due t ∨ told → Becomes (.cwaitTimeout w sp) s d)) ∧
    (let polled := ∃ mo, x.monitor = some mo ∧ mo.polling = true
     ∀ d1, (polled → d1 = pollMonitor d w) → (¬ polled → d1 = d) →
      Becomes (.monitorPoll w) s ((List.range (waveOf d1 w).splits.length).foldl (fun d sp => pollWaiter d w sp) d1)) ∧
    (∀ mo, x.monitor = some mo →
      ((lineOf d mo.line).wts = mo.wts → pollMonitor d w = d) ∧
      ((lineOf d mo.line).wts ≠ mo.wts → pollMonitor d w =
        if mwaiting x = [] then d
        else (mwaiting x).foldl (fun d i => wake d w i [] (mo.due.getD 0)) (viewWrite (setWave d w { x with monitor := none }) w mo.line))) ∧
    (∀ k v sc t bank r e, q.park = .cwait k v sc t bank (.due r e) → pollWaiter d w sp = wake d w sp r e) ∧
    (∀ n k bank r e, q.park = .phwait n k bank (.due r e) → pollWaiter d w sp = wake d w sp r e)

/-- R180 to R195, R205 to R208: the device steps of launches. A trigger of a record not seen before answers in the journal, NORES and
BADLAUNCH ending it there; a dispatcher selects, at the highest level that has one, an entry that fits, the oldest alone once it has been
passed over DPOL.BYPASS times, and places it, and has a cluster leave that an older entry of a higher priority needs (R205); an idle core
swaps, which leaves and places in one step (log 38); a cluster leaves with
its group, is spilled, and comes back whole, or its context is broken; a launch that has nothing left ends. That LASTISSUE is set at the
return is log 36, and that the SAVE_FULL record names no wave log 38: the model's readings. -/
def Obligations.LaunchSteps : Prop :=
  ∀ (s : State) (slot die cl core l : Nat) (hits : BitVec 8),
    let d := s.dev
    let r := slotBits d slot
    let x := launchFrom d slot r
    let d1 := { d with slotSeq := put 0 d.slotSeq slot x.seq }
    let fresh := d.regs.stage = 5 ∧ x.seq ≠ 0 ∧ look 0 d.slotSeq slot < x.seq
    let k := clusterOf d cl
    (x.seq = 0 → Becomes (.launchTrigger slot) s d) ∧
    (d.regs.stage = 5 → x.seq ≠ 0 → x.seq ≤ look 0 d.slotSeq slot →
      Becomes (.launchTrigger slot) s (writeJournal d slot x.seq x.ctx 0x04 false)) ∧
    (fresh → badLaunch s.mem d1 r = true → Becomes (.launchTrigger slot) s (writeJournal d1 slot x.seq x.ctx 0x03 false)) ∧
    (fresh → badLaunch s.mem d1 r = false → noRes d1 x = true →
      Becomes (.launchTrigger slot) s (writeJournal d1 slot x.seq x.ctx 0x02 false)) ∧
    (fresh → badLaunch s.mem d1 r = false → noRes d1 x = false →
      let d2 := writeJournal d1 slot x.seq x.ctx 0x00 false
      let d3 := { d2 with launches := d2.launches ++ [x] }
      ((ctxOf d3 x.ctx).broken = false →
        Becomes (.launchTrigger slot) s ((launchEntries d3 d2.launches.length).foldl (fun d q => pushEntry d q.1 q.2) d3)) ∧
      ((ctxOf d3 x.ctx).broken = true → Becomes (.launchTrigger slot) s (failLaunch s.mem d3 d2.launches.length 0x08))) ∧
    (d.regs.stage = 5 →
      let d1 := (select s.mem d die hits).elim d (fun c => placeFrom s.mem d c.p (takeEntry · c.q c.k) c.bypass)
      (evictDue s.mem d die hits = none → Becomes (.dispatchSelect die hits) s d1) ∧
      (∀ v, evictDue s.mem d die hits = some v →
        Becomes (.dispatchSelect die hits) s { d1 with agenda := d1.agenda ++ [.event (.contextSwitchOut v)] })) ∧
    (∀ (m : Memory) (d : Dev) p take b,
      let needs := if badMaps m d p = true then [] else planNeeds d p
      let e := makeRoom m d needs
      (planWaits m d p = true → placeFrom m d p take b = d) ∧
      (planWaits m d p = false →
        placeFrom m d p take b = if roomMade e needs = true then place m (wakeSpawns (take e)) p b else e)) ∧
    (∀ (m : Memory) (d : Dev) (p : Nat), p ≤ 11 →
      let es := (nth d.queues (12 * die + p) []).take 8
      let fits := fun (e : Entry) => planEntry d [] (heldCores d die p) none die e
      (∀ c, selectAt m d die hits p = some c → c.q = 12 * die + p ∧ ∃ e, es[c.k]? = some e ∧ fits e = some c.p ∧ c.bypass = e.bypass ∧
        (∀ e0, es[0]? = some e0 → d.regs.bypass.toNat ≤ e0.bypass → c.k = 0) ∧
        (e.hint = 0 ∨ hits.getLsbD c.k = true ∨ ∀ j e', es[j]? = some e' → j < c.k → fits e' = none)) ∧
      (selectAt m d die hits p = none → ∀ e0, es[0]? = some e0 → fits e0 = none ∧
        (e0.bypass < d.regs.bypass.toNat → ∀ e ∈ es, fits e = none)) ∧
      (∀ c, selectAt m d die hits p = some c → (∀ q, p < q → q ≤ 11 → selectAt m d die hits q = none) → select m d die hits = some c) ∧
      (∀ k, p < d.queues.length → nth (takeEntry d p k).queues p [] =
        ((nth d.queues p []).take k).map (fun e => { e with bypass := e.bypass + 1 }) ++ (nth d.queues p []).drop (k + 1))) ∧
    (∀ q n e v e1 p, coreIdle d core = true → swapEntry d core = some (q, n, e) → swapVictim s.mem d core = some v →
      switchOut s.mem d v = (e1, .done) → planEntry e1 [] (heldCores e1 (coreDie core) (q % 12)) (some core) (coreDie core) e = some p →
      let n1 := if (nth e1.queues q []).length = (nth d.queues q []).length then n else n + 1
      let take := fun (d : Dev) => { d with queues := nthSet d.queues q ((nth d.queues q []).eraseIdx n1) }
      Becomes (.forwardProgressSwap core) s
        (shieldFrom (placeFrom s.mem e1 p take e.bypass) e1.clusters.length (match p with | .back cs _ => cs | _ => []))) ∧
    (∀ e1 r, switchOut s.mem d cl = (e1, r) → r = .done ∨ r = .wait ∨ ((∃ ts, r = .full ts) ∧ stoppedIn e1 cl = false) →
      Becomes (.contextSwitchOut cl) s e1) ∧
    (∀ e1 ts, switchOut s.mem d cl = (e1, .full ts) → stoppedIn e1 cl = true →
      Becomes (.contextSwitchOut cl) s (ts.foldl (fun d t =>
        writeRecord s.mem d (launchOf e1 (clusterOf e1 cl).launch).ctx
          (recordWords d (launchOf e1 (clusterOf e1 cl).launch).ctx none 0 0 { cause := 0x28, info0 := w64 t } {}))
        (resumeStopped e1 cl))) ∧
    (k.res = .shadow →
      let e1 := k.sets.foldl (spillSet s.mem) d
      Becomes (.spillComplete cl) s
        { setCluster e1 cl { clusterOf e1 cl with res := .spilled } with shadow := e1.shadow.filter (· ≠ cl) }) ∧
    (∀ ok, k.res = .spilled →
      (ok = true → k.sets.all (blockGood s.mem d) = true → Becomes (.contextSwitchIn cl ok) s
        (k.sets.foldl (setBack s.mem) (setCluster d cl { k with res := .resident, lastIssue := d.cycle }))) ∧
      ((ok = false ∨ k.sets.all (blockGood s.mem d) = false) →
        let c := (launchOf d k.launch).ctx
        Becomes (.contextSwitchIn cl ok) s (failContext s.mem (setCtx d c { ctxOf d c with broken := true }) c 0x08))) ∧
    ((launchOf d l).ended = false → launchIdle d l = true →
      let y := launchOf d l
      let cs := (List.range d.clusters.length).filter (fun k => (clusterOf d k).launch == l)
      let e := cs.foldl (settleCluster s.mem) d
      Becomes (.launchEnd l) s
        (addDone s.mem (writeJournal (setLaunch e l { y with ended := true }) y.slot y.seq y.ctx (y.status.getD 0x01) true) l y)) ∧
    ((launchOf d l).ended = true ∨ launchIdle d l = false → Becomes (.launchEnd l) s d) ∧
    (∀ (d0 : Dev) (y : Launch),
      let e := (launchWaves d0 l).foldl (drainGrants · · .sys) d0
      (y.donectr = 0 → addDone s.mem d0 l y = e) ∧
      (∀ k e1, y.donectr ≠ 0 → doneKey s.mem e y = .ok (some k, e1) → addDone s.mem d0 l y = addOne s.mem e1 0 k e1.maxWts) ∧
      (∀ c, y.donectr ≠ 0 → doneKey s.mem e y = .error c → addDone s.mem d0 l y =
        writeRecord s.mem e y.ctx (recordWords e y.ctx none 0 0 { cause := 0x2A, sub := c, addr := y.donectr } {})))

/-- R29, R30, R202, R365, R370, R371: the device steps of registers. Invalidations queue, eight at most, and complete in order with
every matching translation and walk gone; trap commands release episodes, resume held splits or end their launch, and count;
software clears a DOWN bit, but not in the cycle that sets it. -/
def Obligations.RegisterSteps : Prop :=
  ∀ (s : State) (ctx : BitVec 16) (sz : BitVec 3) (id : HeldId) (peer : Nat),
    let d := s.dev
    let q := d.regs.xinvq
    let done := fun (e : Dev) (err : Bool) =>
      { e with regs := { e.regs with trSeq := e.regs.trSeq + 1, trErr := e.regs.trErr || err } }
    (∀ off n v, Becomes (.registerWrite off n v) s (regWrite d off n v)) ∧
    (∀ (i : Instr) (x : Xinv), (i, x) ∈ [(.xinvPage ctx sz, .page ctx sz d.regs.xinva), (.xinvContext ctx, .context ctx), (.xinvAllContexts, .all)] →
      (q.length < 8 → Becomes i s { d with regs := { d.regs with xinvq := q ++ [x] } }) ∧
      (8 ≤ q.length → Becomes i s { d with regs := { d.regs with xinvOvf := true } })) ∧
    (q.length < 8 → Becomes .xinvReserved s { d with regs := { d.regs with xinvErr := true, xinvSeq := d.regs.xinvSeq + 1 } }) ∧
    (8 ≤ q.length → Becomes .xinvReserved s { d with regs := { d.regs with xinvOvf := true, xinvErr := true } }) ∧
    (∀ x r, q = x :: r → Becomes .xinvComplete s { d with
      tlb := d.tlb.filter (fun t => !xinvHits x t), walks := d.walks.filter (fun e => !xinvWalks x e), regs := { d.regs with xinvq := r, xinvSeq := d.regs.xinvSeq + 1 } }) ∧
    Becomes (.releaseEpisode ctx) s (done (releaseIf d (fun e =>
      e.ctx == ctx.toNat && decide (e.base ≤ d.regs.trva.toNat) && decide (d.regs.trva.toNat < e.base + e.size))) false) ∧
    Becomes (.releaseAllEpisodes ctx) s (done (releaseIf d (fun e => e.ctx == ctx.toNat)) false) ∧
    (∀ i ∈ [Instr.resumeAtTpc id, .resumePastTpc id, .abortLaunch id], heldSplit d id = none → Becomes i s (done d true)) ∧
    (∀ p, heldSplit d id = some p →
      let x := waveOf d p.1
      let y := splitOf x p.2
      (heldCopy d p = none → Becomes (.resumeAtTpc id) s (done (unhold d p) false)) ∧
      (∀ c, heldCopy d p = some c → Becomes (.resumeAtTpc id) s (done (unhold (retryCopy d c) p) false)) ∧
      (∀ c, heldCopy d p = some c → y.heldAsync = true → Becomes (.resumePastTpc id) s (done (unhold (skipCopy d c) p) false)) ∧
      (heldCopy d p = none → y.heldAsync = false → y.entering = false →
        Becomes (.resumePastTpc id) s (done (skipAt s.mem (unhold d p) p) false)) ∧
      Becomes (.abortLaunch id) s (done (failLaunch s.mem d x.launch 0x09) false)) ∧
    Becomes .trcmdInvalid s (done d true) ∧
    Becomes (.pdownClear peer) s (if look 0 d.regs.pdownAt peer = d.cycle + 1 then d
      else { d with regs := { d.regs with pdown := put false d.regs.pdown peer false } })

/-- R367, R368, R372, R373, R375 to R377, R379 to R381: the device steps of the service processor. A doorbell is taken, or is OVR while
one runs; the command completes with its result as it goes; a die that goes offline does so once its clusters can leave (log 71);
bring-up goes from stage to stage or halts with its cause, the faults that a self-test finds being a free choice (log 1); errors
count, with their records; power and temperature set PALARM, which clears when they have been low for 10 ms; at 110 °C every launch
ends and the device halts. That the engines stop then, and what a reset keeps, is the model's reading (log 40). -/
def Obligations.ServiceSteps : Prop :=
  ∀ (s : State) (tag : BitVec 32) (len : BitVec 16),
    let d := s.dev
    let g := d.regs
    let halt := fun (e : Dev) (c : BitVec 16) => { e with regs := { e.regs with stage := 0xF, haltc := c } }
    (∀ (i : Instr) (c : MailCmd), (i, c) ∈ [(.loadfw tag len, .loadfw), (.attest tag len, .attest), (.dieoff tag len, .dieoff),
        (.dieon tag len, .dieon), (.relread tag len, .relread), (.logread tag len, .logread), (.route tag len, .route), (.reset tag len, .reset)] →
      (g.mbBusy ≠ none → Becomes i s { d with regs := { g with mbOvr := true } }) ∧
      (g.mbBusy = none → len.toNat ≤ 2048 →
        Becomes i s { d with regs := { g with mbBusy := some c, mbTag := tag, mbDone := false, mbLen := len } }) ∧
      (g.mbBusy = none → 2048 < len.toNat →
        Becomes i s { d with regs := { g with mbTag := tag, mbResult := 0xFFFF, mbDone := true } })) ∧
    (∀ c, g.mbBusy = some c →
      let r := mailEffect s.mem d c
      (∀ res, r.1 = some res → Becomes .mailboxCompletion s { r.2.1 with regs := { r.2.1.regs with
        mbData := r.2.2.zipIdx.foldl (fun t b => put 0 t b.2 b.1) r.2.1.regs.mbData, mbResult := res, mbDone := true, mbBusy := none } }) ∧
      (r.1 = none → Becomes .mailboxCompletion s r.2.1) ∧
      (g.stage ≠ 5 → c ≠ .loadfw → c ≠ .attest → c ≠ .reset → r = (some 6, d, []))) ∧
    (g.mbBusy = none → Becomes .mailboxCompletion s (goLeaving s.mem d)) ∧
    (∀ die : Nat,
      (d.leaving = none → mayLeave d die ≠ 0 → dieOff s.mem d die = (some (mayLeave d die), d)) ∧
      (d.leaving = none → mayLeave d die = 0 →
        let e := goLeaving s.mem (abortWide s.mem { d with leaving := some die, hotPlugs := d.hotPlugs + 1 })
        dieOff s.mem d die = (if e.leaving = none then some 0 else none, e)) ∧
      (d.leaving = some die → moveV1 s.mem d (if die = 0 then 2 else 1) = none → goLeaving s.mem d = d) ∧
      (∀ d1, d.leaving = some die → moveV1 s.mem d (if die = 0 then 2 else 1) = some d1 → goLeaving s.mem d =
        { ((List.range 8).map (8 * die + ·)).foldl (portFails s.mem) (dropDie d1 die) with leaving := none })) ∧
    (∃ e, Becomes .deviceReset s e ∧ e.regs.stage = 0 ∧ e.regs.dies = 3 ∧ e.waves = [] ∧ e.launches = [] ∧ e.tlb = [] ∧
      e.image = d.image ∧ e.stored = d.stored ∧ e.window = d.window ∧ e.reliability = d.reliability ∧ e.regs.lasting = g.lasting ∧
      e.lastingAt = d.lastingAt ∧ e.spared = d.spared ∧ e.poison = d.poison) ∧
    (g.stage = 1 → ∀ good, ∃ faults : List ErrStruct,
      let r := selfTest s.mem { d with tick := d.tick + 1 } faults
      (good = 3 ∧ r.2 = false → Becomes (.selftest good) s { r.1 with regs := { r.1.regs with stage := 2 } }) ∧
      (¬ (good = 3 ∧ r.2 = false) → Becomes (.selftest good) s (halt r.1 2)) ∧ selfTest s.mem d [] = (d, false)) ∧
    (∀ x : ErrStruct, let k := faultKey x
      let again := 0 < look 0 d.lastingAt k
      let d1 := { d with lastingAt := put 0 d.lastingAt k (look 0 d.lastingAt k + 1) }
      (∀ core, x = .core core → again → remap s.mem d x = (d1, true)) ∧
      (∀ port, x = .linkLane port → remap s.mem d x = (if again then portFails s.mem d1 port else startRetrain d1 port, false)) ∧
      (∀ line, x = .hbmRow line → ¬ again → remap s.mem d x = (d1, false)) ∧
      (∀ line, x = .hbmRow line → again → ∀ n < (Config.hbmRegion line).2,
        (Config.hbmRegion line).1 + n ∈ (remap s.mem d x).1.poison)) ∧
    (g.stage = 2 →
      let v := Config.imageVersion (heldImage d)
      let good := Config.imageSigned (heldImage d) = true ∧ ¬ v < Config.fusedMinimum ∧ d.imageCut = false
      (good → Becomes .fwcheck s { d with regs := { g with fwver := v, stage := 3 } }) ∧ (¬ good → Becomes .fwcheck s (halt d 1))) ∧
    (g.stage = 3 → ∃ t, exec .meminit s = .next t ∧ t.dev.regs.stage = 4 ∧ (∀ p < 16, portState t.dev p = 1) ∧
      (∀ n < hostKey / 64, n ∈ t.dev.poison → deadLine d n = true) ∧
      (memWf s.mem = true → d.wlog = [] → (∀ a < hostKey, look blankByte t.mem a = blankByte) ∧
        ∀ a, hostKey ≤ a → look blankByte t.mem a = look blankByte s.mem a)) ∧
    (g.stage = 4 → ∀ up spare : BitVec 16, ∃ e, Becomes (.links up spare) s e ∧ e.regs.stage = 5 ∧ e.lines = [] ∧
      (∀ p < 16, portState e p = if up.getLsbD p = false ∨ 2 ≤ deadLanes d p then 0
        else if spare.getLsbD p = true ∨ deadLanes d p = 1 then 4 else 2)) ∧
    (∀ e,
      let d1 := errorEffect s.mem (noteError d e false) e
      Becomes (.errorDetected e false) s { d1 with regs := { d1.regs with trans := d1.regs.trans + 1 } }) ∧
    (∀ e,
      let d1 := errorEffect s.mem (noteError d e true) e
      Becomes (.errorDetected e true) s
        (lastingFault s.mem { d1 with regs := { d1.regs with lasting := d1.regs.lasting + 1 } } e)) ∧
    (∀ power temp : BitVec 16,
      let cool := 100 * power.toNat < 95 * g.plimit.toNat ∧ temp.toNat < 1440
      let since := if cool then some (g.coolSince.getD d.cycle) else none
      let e := { d with regs := { g with power := power, temp := temp, coolSince := since,
                                         palarm := g.palarm || decide (g.plimit < power) || decide (1520 < temp.toNat) } }
      (temp.toNat < 1760 → Becomes (.powerAlarm power temp) s e) ∧
      (1760 ≤ temp.toNat → Becomes (.powerAlarm power temp) s (tripHalt s.mem e)) ∧
      (temp.toNat < 1760 → (∃ t, since = some t ∧ t + 22500000 ≤ d.cycle) →
        Becomes (.powerAlarmClear power temp) s { e with regs := { e.regs with palarm := false } }) ∧
      (temp.toNat < 1760 → ¬ (∃ t, since = some t ∧ t + 22500000 ≤ d.cycle) → Becomes (.powerAlarmClear power temp) s e)) ∧
    (let d1 := judgePower { d with regs := { g with temp := if g.temp.toNat < 1760 then 1760 else g.temp } }
     let d2 := failLaunches s.mem d1 (List.range d1.launches.length) 0x09
     let d3 := (List.range d2.launches.length).foldl (fun d l => endLaunch s.mem d l) (stopEngines d2)
     Becomes .thermalTrip s (halt d3 3))

/-- R49, R121 to R125, R129, R363, R364, R368, R369, R371, R373: the device steps that come from outside. The host and peers read
and write device memory at its home, after a fill under way there; the host's window takes launch records, whose last byte
triggers; a snoop wakes what watches a host line. A peer's request is answered with what stood there before, and refused where it
may not act; a peer acknowledges the posted writes and the requests of each channel in the order sent (log 45), which of the two
next being a free choice (log 1), or answers; an acknowledgement over a link that is not open has no effect (log 45). A link trains
or retrains, comes back, or goes down. That an access is performed after a fill under way is log 39, and that an atomic on a mapped
page is not performed log 19. -/
def Obligations.OutsideSteps : Prop :=
  ∀ (s : State) (addr n port peer w : Nat) (data : List (BitVec 8)) (rq : PeerReq),
    let d := s.dev
    let base := 0xC000000000
    let later := fun (q : Nat × Nat) (i : Instr) => { d with agenda := d.agenda ++ [.event (.fillComplete q.1 q.2), .event i] }
    (addr + n ≤ base →
      (fillingIn d addr n = none →
        let r := readOutside s.mem d true addr n
        Becomes (.hostRead addr n) s { r.1 with hostResp := r.2.1, hostPoison := r.2.2 }) ∧
      (∀ q, fillingIn d addr n = some q → Becomes (.hostRead addr n) s (later q (.hostRead addr n)))) ∧
    (base < addr + n → Becomes (.hostRead addr n) s
      { d with hostResp := (List.range n).map (fun i => rangeByte d (addr + i)), hostPoison := false }) ∧
    (∀ i : Instr, i = .hostWrite addr data ∨ i = .peerWriteArrival peer addr data → addr + data.length ≤ base →
      (fillingIn d addr data.length = none → Becomes i s (writeOutside s.mem d addr data)) ∧
      (∀ q, fillingIn d addr data.length = some q → Becomes i s (later q i))) ∧
    (base < addr + data.length →
      Becomes (.peerWriteArrival peer addr data) s d ∧
      (¬ (base ≤ addr ∧ addr + data.length ≤ 0xC000400000) → Becomes (.hostWrite addr data) s d) ∧
      (base ≤ addr → addr + data.length ≤ 0xC000400000 →
        let off := addr - base
        let last := (List.range data.length).filter (fun i => (off + i) % 256 = 255)
        let d1 := { d with window := data.zipIdx.foldl (fun t b => put 0 t (off + b.2) b.1) d.window }
        (d.regs.stage ≠ 5 → Becomes (.hostWrite addr data) s d1) ∧
        (d.regs.stage = 5 → Becomes (.hostWrite addr data) s
          { d1 with agenda := last.map (fun i => .event (.launchTrigger ((off + i) / 256))) ++ d.agenda }))) ∧
    (∀ p, (mappedAt d p.1 = none → outsideWrites d p = true) ∧
      (∀ t pi, mappedAt d p.1 = some (t, pi) → let g := pageOf d t pi
        outsideWrites d p = ((g.mapped.any (·.rw)) && !inReplica (setOf d t) g.store (g.idx * 4096 + p.1 % 4096) p.2)) ∧
      (outsideWrites d p = false → writePiece s.mem data addr d p = d)) ∧
    (Becomes (.cxlSnoop addr data) s ((linePieces (hostKey + addr) data.length).foldl (fun d p =>
      let d1 := modLine d (p.1 / 64) (fun l => { l with wts := l.wts + 1, inL2 := false })
      wakeMonitors (clearReservations d1 (p.1 / 64)) (p.1 / 64) 0) (wrBytes d (hostKey + addr) data))) ∧
    (∀ k f, peerWork rq = (k, f) →
      let answer := fun (d : Dev) (bs : List Byte) (bad : Bool) =>
        if answered rq = true then { d with hostResp := bs, hostPoison := bad } else d
      let r := readOutside s.mem d false addr k
      let d1 := answer r.1 r.2.1 r.2.2
      let i := Instr.peerRequestArrival peer addr rq
      (base < addr + k → Becomes i s (answer d (List.replicate k 0) false)) ∧
      (∀ q, addr + k ≤ base → fillingIn d addr k = some q → Becomes i s (later q i)) ∧
      (addr + k ≤ base → fillingIn d addr k = none →
        (f = none ∨ addr % k ≠ 0 ∨ mappedAt d1 addr ≠ none ∨ d1.poison.contains (addr / 64) = true → Becomes i s d1) ∧
        (∀ g, f = some g → addr % k = 0 → mappedAt d1 addr = none → d1.poison.contains (addr / 64) = false →
          (addsCount rq = none → Becomes i s
            (externalStamp (homeWrite s.mem d1 whoEngine addr (leBytes k (g (leWord r.2.1)))) addr)) ∧
          (∀ v, addsCount rq = some v →
            let d2 := counterAdd s.mem d1 whoEngine addr v d1.xstamp true
            Becomes i s { d2 with xstamp := max d2.xstamp (lineOf d2 (addr / 64)).wts })))) ∧
    (∀ t x v c, let k := tyBytes (ty t)
      peerWork (.read n) = (n, none) ∧ answered (.read n) = true ∧
      peerWork (.atomic c t v) = (k, some (fun y => atomVal c.toNat (ty t) y v)) ∧ answered (.atomic c t v) = true ∧
      peerWork (.compareSwap t v x) = (k, some (fun y => if y.toNat % 2 ^ (8 * k) = x.toNat % 2 ^ (8 * k) then v else y)) ∧
      answered (.compareSwap t v x) = true ∧
      peerWork (.red c t v) = (k, some (fun y => atomVal c.toNat (ty t) y v)) ∧ answered (.red c t v) = false ∧
      peerWork (.count v) = (8, some (fun y => y + v)) ∧ answered (.count v) = false ∧ addsCount (.count v) = some v) ∧
    (∀ vs, linkOpen d peer = false → Becomes (.peerAcknowledgement w peer vs) s d) ∧
    (linkOpen d peer = true →
      let hs := (sentHeads d peer).filter (fun x => sentBy d x == w)
      (hs = [] → Becomes (.peerAcknowledgement w peer []) s d) ∧
      (hs ≠ [] → ∃ x ∈ hs, Becomes (.peerAcknowledgement w peer []) s (acknowledge s.mem d x))) ∧
    (∀ x, x ∈ sentHeads d peer ↔ ∃ a r, d.sent = a ++ x :: r ∧ x.peer = peer ∧ ∀ y ∈ a, y.peer = peer → isPost y ≠ isPost x) ∧
    (∀ x, let d0 := { d with sent := d.sent.erase x }
      (∀ v, x.who = .write v → acknowledge s.mem d x = lateBreaks s.mem (setWave d0 v (wakeAck { waveOf d v with
        posted := put 0 (waveOf d v).posted x.peer (look 0 (waveOf d v).posted x.peer - 1) })) v) ∧
      (∀ i c, x.who = .copy i → copyAt d i = some c → acknowledge s.mem d x =
        setCopy d0 i { c with posted := put 0 c.posted x.peer (look 0 c.posted x.peer - 1) }) ∧
      (∀ v i, x.who = .request v i → (splitOf (waveOf d v) i).park = .peer (2 * x.peer) →
        acknowledge s.mem d x = modSplit d0 v i (fun q => { q with park := .peer (2 * x.peer + 1) }))) ∧
    (∀ v vs, linkOpen d peer = true →
      let d1 := ((sentHeads d peer).filter (fun x => !isPost x && sentBy d x == w)).foldl (acknowledge s.mem) d
      let found := (awaiting d1 [peer]).find? (fun p => p.1 == w && (splitOf (waveOf d1 p.1) p.2).park == .peer (2 * peer + 1))
      (∀ p, found = some p → Becomes (.peerAcknowledgement w peer (v :: vs)) s
        (modSplit d1 w p.2 (fun q => { q with park := .running, ans := some (answerRow peer (v :: vs)) }))) ∧
      (found = none → Becomes (.peerAcknowledgement w peer (v :: vs)) s d)) ∧
    Becomes (.flitCrcFail port) s { d with
      reliability := d.reliability ++ [{ what := .linkLane port, time := d.cycle, lasting := false }]
      regs := { d.regs with trans := d.regs.trans + 1 } } ∧
    (let retrains := portState d port = 2 ∨ portState d port = 4
     (¬ retrains → Becomes (.linkRetrainStart port) s d) ∧
     (retrains →
      let d1 := setPort d port 3
      Becomes (.linkRetrainStart port) s { d1 with regs := { d1.regs with retrainStart := put 0 d1.regs.retrainStart port d.cycle } })) ∧
    (∀ spare : Bool,
      let late := look 0 d.regs.retrainStart port + 72000 < d.cycle
      let lanes := look 0 d.lastingAt (faultKey (.linkLane port))
      let training := portState d port = 1 ∨ portState d port = 3
      (¬ training → Becomes (.linkRetrainComplete port spare) s d ∧ Becomes (.portDown port) s d) ∧
      (training → ¬ late →
        Becomes (.linkRetrainComplete port spare) s
          (setPort d port (if 2 ≤ lanes then 0 else if spare = true ∨ lanes = 1 then 4 else 2)) ∧
        Becomes (.portDown port) s d) ∧
      (training → late →
        Becomes (.linkRetrainComplete port spare) s d ∧ Becomes (.portDown port) s (portFails s.mem d port)))

/-! ### Frames. -/

/-- Words of access arithmetic and the register that each writes. -/
def Sys2Proof.Claims.accessWords (h : Head) (f : FmtX) (g : FmtK) : List (Instr × List Nat) :=
  let plain : List Instr := [.aadd h f, .asub h f, .amul h f, .amad h f, .ashl h f, .ashr h f, .asar h f, .aand h f, .aor h f, .axor h f,
    .amin h f, .amax h f, .asel h f, .amov h f]
  plain.map (fun i => (i, [f.d.toNat])) ++ [(.acmp h f, [0x108 + f.d.toNat]), (.amovk h g, [g.d.toNat])]

/-- What may differ in the wave that issues a register word: its register files (said apart), RSS states and flags, what its clock
has reached, and its splits. -/
def Sys2Proof.Claims.restOfWave (x : Wave) : Wave :=
  { x with v := noWave.v, a := noWave.a, s := noWave.s, p := noWave.p, g := noWave.g, rss := [], fstat := 0, epochDue := 0,
           preemptHit := false, splits := [] }

/-- What may differ in the split: its PC, its clock, its queues, its pending writes, and what its word was answered and had done. -/
def Sys2Proof.Claims.restOfSplit (q : Split) : Split :=
  { q with pc := 0, clock := 0, qd := [], qv := [], pend := [], ans := none, served := 0, servedVals := [], forced := [], peeked := none,
           peerLost := false }

/-- The frame of the words that only compute (R219, R220, R222): one that is not the last of its block and does not trap leaves
memory, the device and every other wave and split alone, and of its own wave every register but its destination, and but
for execute words the flags and RSS states. -/
def Obligations.RegisterFrame : Prop :=
  ∀ (h : Head) (f : FmtX) (g : FmtI) (k : FmtK) (s t : State) (i : Instr) (ds : List Nat),
    (i, ds) ∈ Claims.laneWords h f g ++ Claims.accessWords h f k → atLast (mySplit s.dev) = false → s.dev.wlog = [] →
    exec i s = .next t → (∀ tr, tr.cause ≠ 0 → ¬ Traps i s tr) →
    t.mem = s.mem ∧ { t.dev with waves := [] } = { s.dev with waves := [] } ∧
    (∀ w, w ≠ s.dev.cur.1 → waveOf t.dev w = waveOf s.dev w) ∧
    Claims.restOfWave (me t.dev) = Claims.restOfWave (me s.dev) ∧
    (∀ code < 0x110, code ∉ ds → ∀ l < 32, fileLane (me t.dev) code l = fileLane (me s.dev) code l) ∧
    (∀ j, j ≠ s.dev.cur.2 → splitOf (me t.dev) j = splitOf (me s.dev) j) ∧
    Claims.restOfSplit (mySplit t.dev) = Claims.restOfSplit (mySplit s.dev) ∧
    ((i, ds) ∈ Claims.accessWords h f k → (me t.dev).rss = (me s.dev).rss ∧ (me t.dev).fstat = (me s.dev).fstat)

/-! ### What the rows of a matrix operation are (R289, R300 to R309, with R83 and R89 to R92). -/

/-- A byte of a store of a set, with the poison of its granule. -/
def Sys2Proof.Claims.cellAt (d : Dev) (t : Nat) (st : StoreId) (a : Nat) : Byte × Bool :=
  match findPage (setOf d t) st (a / 4096) with
  | some pi => (look 0 (pageOf d t pi).data (a % 4096), (pageOf d t pi).poison.getLsbD (granOf (a % 4096)))
  | none => (0, false)

/-- The `n` bytes at an offset, as bytes, as a code, and whether one of them lies in a poisoned granule. -/
def Sys2Proof.Claims.bytesAt (d : Dev) (t : Nat) (st : StoreId) (a n : Nat) : List Byte :=
  (List.range n).map (fun i => (cellAt d t st (a + i)).1)
def Sys2Proof.Claims.codeAt (d : Dev) (t : Nat) (st : StoreId) (a n : Nat) : W64 := leWord (bytesAt d t st a n)
def Sys2Proof.Claims.badAt (d : Dev) (t : Nat) (st : StoreId) (a n : Nat) : Bool :=
  (List.range n).any (fun i => (cellAt d t st (a + i)).2)

/-- Every page of a set is in a frame. -/
def Sys2Proof.Claims.AllIn (d : Dev) (t : Nat) : Prop :=
  ∀ st n pi, findPage (setOf d t) st n = some pi → (pageOf d t pi).st = .pinned ∨ (pageOf d t pi).st = .unpinned

/-- Element `n` of a row of cells, of `c` bytes each. -/
def Sys2Proof.Claims.cellsOfElem (q : RowOut) (c n : Nat) : List (Byte × Bool) := (q.cells.drop (c * n)).take c

/-- Bytes with one poison for all. -/
def Sys2Proof.Claims.marked (bad : Bool) (bs : List Byte) : List (Byte × Bool) := bs.map (fun x => (x, bad))

/-- The elements of a group (R78, R83): element j of a format of w bits is the j-th w bits of the group's bytes, times 2 to the
power of SCALE less 127; every element is NaN when SCALE is 0xFF. -/
def Sys2Proof.Claims.GroupPlaces : Prop :=
  ∀ (g : Desc) (x : Fp) (bs : List Byte) (j : Nat), g.fmtc ≤ 9 → g.fmtc ≠ 5 → 4 * fmtBits g.fmtc ≤ bs.length → j < 32 →
    let w := fmtBits g.fmtc
    let code := leNat bs / 2 ^ (w * j) % 2 ^ w
    let v := if fmtInt g.fmtc then ofInt (intOf (fmtTy g.fmtc) (w64 code)) else decodeF (fmt (fmtTy g.fmtc)) x code
    nth (groupElems g x bs).1 j .nan = if g.scale = 0xFF then .nan else fpScale v ((g.scale : Int) - 127)

/-- Where the elements of the A operand lie (R289, R290, R301). Without `.ca`, group g of row r is read at A + r times the A stride
plus g groups, with its descriptor at the side area under `.g` and at SCALE 0x7F with the container's format otherwise. With `.ca`,
element (r, k) is the f32 at A + ((k div 64) m + r) cstride + 4 (k mod 64), converted. -/
def Sys2Proof.Claims.RowsOfA : Prop :=
  ∀ m d t o r, AllIn d t → ∃ a, readARow t o r m d = .ok (a, d) ∧
    (mCa o = true → ∀ k, k < mKd o → nth a.vec.elems k .nan =
      (caElem (mTy o) (codeAt d t .c (offOf o.a + (k / 64 * mRows o + r) * mCstr o + 4 * (k % 64)) 4).toNat).1) ∧
    (mCa o = false →
      let n := vecBytes (mTy o) 32
      let g := fun (j : Nat) => if mG o then descOf ((codeAt d t .a (mAdesc o + 2 * (r * (mKd o / 32) + j)) 2).setWidth 16)
        else ⟨tyFmt (mTy o), 0x7F⟩
      (∀ j, j < mKd o / 32 → (g j).fmtc ≤ 9 ∧ 4 * fmtBits (g j).fmtc ≤ n) →
      ∀ k, k < mKd o → nth a.vec.elems k .nan = nth (groupElems (g (k / 32)) (extraOf o.xva)
        (bytesAt d t .a (offOf o.a + r * mAstr o + n * (k / 32)) n)).1 (k % 32) .nan)

/-- Where the elements of a bank lie (R289, R290): column n is K consecutive elements, W + n times a column, with its descriptors
in order under `.g`. -/
def Sys2Proof.Claims.ColumnsOfW : Prop :=
  ∀ (b : Bank) (n k : Nat),
    let nb := vecBytes b.ty 32
    let g := fun (j : Nat) => if b.g then descOf (BitVec.ofNat 16 (leNat (bankBytes b (b.wdesc + 2 * (n * (b.k / 32) + j)) 2)))
      else ⟨tyFmt b.ty, 0x7F⟩
    b.k % 32 = 0 → (∀ j, j < b.k / 32 → (g j).fmtc ≤ 9 ∧ 4 * fmtBits (g j).fmtc ≤ nb) → k < b.k →
    nth (bankCol b n).1.elems k .nan = nth (groupElems (g (k / 32)) (extraOf b.xvw)
      (bankBytes b (offOf b.word + n * colBytes b + nb * (k / 32)) nb)).1 (k % 32) .nan

/-- The chunks of a dense product: first position and size (R89). -/
def Sys2Proof.Claims.chunks (kd : Nat) (fa fw : List Nat) : List (Nat × Nat) :=
  (List.range (kd / 32)).flatMap (fun g =>
    let c := chunkOf (nth fa g 0) (nth fw g 0)
    (List.range (32 / c)).map (fun j => (32 * g + j * c, c)))

/-- The products (R89 to R92). A floating element is the loop over the chunks of each group of 32, one rounding a chunk; an i64
element is its old value plus the sum of the products, modulo 2^64. A sparse bank's positions are those whose mask bit is set,
ascending, and a chunk with none of them leaves the accumulator as it stands. -/
def Sys2Proof.Claims.ProductLoops : Prop :=
  (∀ (kd acc : Nat) (a w : Vec), kd % 32 = 0 → w.elems.length = kd →
    fpLoop kd a w (List.range kd) kd 0 0 (acc, 0) = (chunks kd a.fmts w.fmts).foldl (fun x p =>
      let s := chunkSum (p.2 == 32) ((List.range p.2).map (fun i => (nth a.elems (p.1 + i) .nan, nth w.elems (p.1 + i) .nan)))
      let r := accRound x.1 s.1
      (r.1, x.2 ||| s.2 ||| r.2)) (acc, 0)) ∧
  (∀ (k : Nat) (a w : Vec) (acc : W64), intLoop a w (List.range k) acc =
    acc + BitVec.ofInt 64 (((List.range k).map (fun i =>
      intElem (nth a.elems i (fzero false)) * intElem (nth w.elems i (fzero false)))).sum)) ∧
  (∀ (b : Bank), presentPos b = if b.sparse = 0 then List.range b.k
    else (List.range (128 * (maskBytes b / 16))).filter (fun k => (look 0 b.bytes (b.moff + k / 8)).getLsbD (k % 8))) ∧
  (∀ (kd fuel k i : Nat) (a w : Vec) (pos : List Nat) (acc : Nat × BitVec 9), k < kd →
    let c := chunkOf (nth a.fmts (k / 32) 0) (nth w.fmts (min i (w.elems.length - 1) / 32) 0)
    let stop := min kd (k / c * c + c)
    (∀ p ∈ pos.drop i, stop ≤ p) → fpLoop kd a w pos (fuel + 1) k i acc = fpLoop kd a w pos fuel stop i acc)

/-- A row of `mma` or `mmas` (R289, R300, R303): C(r, n) becomes the loop of its old value, or of zero under `.z`, over A row r and
column n of the bank, poisoned where one of them is. -/
def Sys2Proof.Claims.RowsOfProducts : Prop :=
  ∀ m d t o b a, isProduct o = true → AllIn d t → readARow t o o.row m d = .ok (a, d) → a.ready = true →
    ∃ q, rowOut t o b m d = .ok (some q, d) ∧ q.off = offOf o.c + o.row * mCstr o ∧ q.cells.length = 64 * mC o ∧
      ∀ n, n < 64 →
        let at_ := q.off + mC o * n
        let w := bankCol b n
        let old := if mZ o then 0 else codeAt d t .c at_ (mC o)
        let val := if mC o = 8 then intLoop a.vec w.1 (presentPos b) old
          else w64 (fpLoop (mKd o) a.vec w.1 (presentPos b) (mKd o) 0 0 (old.toNat, 0)).1
        cellsOfElem q (mC o) n = marked (w.2 || a.bad || (!mZ o && badAt d t .c at_ (mC o))) (leBytes (mC o) val)

/-- A row of `mzero` and of `mpre` (R305, R306): zeros; or element n of the one source row or of source row r, exact, at C stride. -/
def Sys2Proof.Claims.RowsOfPreloads : Prop :=
  (∀ m d t o b, o.kind = .mzero → AllIn d t →
    rowOut t o b m d = .ok (some ⟨offOf o.c + o.row * mCstr o, List.replicate (64 * mC o) (0, false), 0, none⟩, d)) ∧
  (∀ m d t o b, o.kind = .mpre → AllIn d t →
    (isFloatTy (mTy o) = true ∧ mC o = 4) ∨ (isFloatTy (mTy o) = false ∧ mC o = 8) →
    let s := tyBytes (mTy o)
    ∃ q, rowOut t o b m d = .ok (some q, d) ∧ q.off = offOf o.c + o.row * mCstr o ∧ q.cells.length = 64 * mC o ∧ q.flags = 0 ∧
      ∀ n, n < 64 →
        let at_ := offOf o.a + (if bits o.f.acc 0 0 = 1 then o.row * 64 * s else 0) + s * n
        let x := codeAt d t .a at_ s
        cellsOfElem q (mC o) n = marked (badAt d t .a at_ s)
          (if isFloatTy (mTy o) then leBytes 4 (exactCode .f32 (decodeF (fmt (mTy o)) .nan x.toNat))
           else leBytes 8 (BitVec.ofInt 64 (intOf (mTy o) x))))

/-- A row of `mpost` (R307 to R309), with no earlier row waiting for its granule. Element n of the C-store row at A becomes element n
of the packed output row, a nibble where T has four bits; `cmp` and `cover` give bit n of a mask of 64. -/
def Sys2Proof.Claims.RowsOfPosts : Prop :=
  ∀ m d t o b, o.kind = .mpost → AllIn d t → o.carry = [] →
    let at_ := fun (n : Nat) => offOf o.a + o.row * mCstr o + mC o * n
    let x := fun (n : Nat) => codeAt d t .c (at_ n) (mC o)
    let op := bits o.f.acc 2 0
    ∃ q, rowOut t o b m d = .ok (some q, d) ∧ q.off = offOf o.c + o.row * mOutRow o ∧
      (op = 2 ∨ op = 3 → ∃ z : W64, q.cells = marked (badAt d t .c (at_ 0) (64 * mC o)) (leBytes 8 z) ∧ ∀ n, n < 64 →
        (op = 2 → z.getLsbD n = (postBit o (x n)).1) ∧
        (op = 3 → (z.getLsbD n = true ↔ ∀ k, k < 64 → (∀ j, min n k ≤ j → j < max n k → none8 o.f.w = false ∧
          o.w.getLsbD j = false) → 0 ≤ (x k).toInt))) ∧
      (op ≠ 2 → op ≠ 3 → tyBits (mTy o) ≠ 4 → ∀ n, n < 64 → cellsOfElem q (tyBytes (mTy o)) n =
        marked (badAt d t .c (at_ n) (mC o)) (leBytes (tyBytes (mTy o)) (postElem o (x n)).val)) ∧
      (op ≠ 2 → op ≠ 3 → tyBits (mTy o) = 4 → ∀ n, n < 64 →
        (nth q.cells (n / 2) (0, false)).1.toNat / 16 ^ (n % 2) % 16 = (postElem o (x n)).val.toNat % 16)

/-- The elements of `rshr` and `div255` (R308): the shift rounds half up and saturates or wraps; `div255` is v / 255 to the nearest
up to 255 times 255, 255 with SAT above and 0 with SAT where v + 128 is negative. -/
def Sys2Proof.Claims.PostArithmetic : Prop :=
  ∀ (o : MatOp) (v : W64),
    (bits o.f.acc 2 0 = 4 →
      let s := bits o.w 5 0
      let r := intoRange (mTy o) ((2 * v.toInt + 2 ^ s) / 2 ^ (s + 1)) (bits o.f.fl 3 3 == 1)
      (postElem o v).val = r.1 ∧ (postElem o v).flags = r.2) ∧
    (bits o.f.acc 2 0 = 5 →
      (v.toInt < -128 → (postElem o v).val = 0 ∧ (postElem o v).flags = fSAT) ∧
      (-128 ≤ v.toInt → v.toInt < 0 → (postElem o v).val = 0 ∧ (postElem o v).flags = 0) ∧
      (0 ≤ v.toInt → v.toInt ≤ 65025 → (postElem o v).val.toNat = (2 * v.toNat + 255) / 510 ∧ (postElem o v).flags = 0) ∧
      (65153 ≤ v.toInt → (postElem o v).val = 255 ∧ (postElem o v).flags = fSAT))

/-- An output row is written where it lies and nowhere else (R45, R163): every byte of the row, no other byte of any store; each granule of it
is noted for its full bit where the operation's effects wait for a publication. -/
def Sys2Proof.Claims.RowsLand : Prop :=
  ∀ d o off cells, matHeld d o = true → 0 < cells.length → cells.length ≤ 4096 →
    (∀ j, j ≤ (off + cells.length - 1) / 4096 → off / 4096 ≤ j →
      ∃ pi, findPage (setOf d (waveOf d o.wave).set) .c j = some pi) →
    let t := (waveOf d o.wave).set
    let r := writeRow d o off cells
    (∀ st a, (cellAt r.1 t st a).1 = if st = .c ∧ off ≤ a ∧ a < off + cells.length then (nth cells (a - off) (0, false)).1
      else (cellAt d t st a).1) ∧
    (∀ u st a, u ≠ t → cellAt r.1 u st a = cellAt d u st a) ∧
    (∀ j, off / 16 ≤ j → j ≤ (off + cells.length - 1) / 16 → ∀ pi, findPage (setOf d t) .c (j / 256) = some pi →
      (t, pi, j % 256) ∈ r.2.fullBits)

/-- R83, R89 to R92, R289, R290, R300 to R309: where the elements of A, W and C lie and what a row of each operation computes from them, in
pages that are in their frames: groups and their scales, A rows, `.ca`, columns of a bank and sparse positions; the floating loop, one
rounding a chunk, and the i64 sum; zeros, exact preloads; conversions, shifts, `div255`, masks and cover; and that a row of at most 4,096
bytes is written where it lies and nowhere else. -/
def Sys2Proof.Claims.MatrixRows : Prop :=
  GroupPlaces ∧ RowsOfA ∧ ColumnsOfW ∧ ProductLoops ∧ RowsOfProducts ∧ RowsOfPreloads ∧ RowsOfPosts ∧ PostArithmetic ∧ RowsLand

/-! ### The elements of a copy (R316 to R318, R321 to R323). -/

/-- The address of an element (R316): base plus the sum of coordinate times stride, in which bit j of the SWN bits from SWL on is XORed
with the bit SWH above it. -/
def Sys2Proof.Claims.ElementAddresses : Prop :=
  (∀ (r : BitVec 512) (base : W64) (c : List Int) (j : Nat), j < 64 →
    let off := BitVec.ofInt 64 (((List.range (lRank r)).map (fun i => crd c i * lStride r i)).sum)
    (elemAddr r base c - base).getLsbD j =
      ((off.getLsbD j) ^^ (decide (lSwl r ≤ j) && decide (j < lSwl r + lSwn r) && off.getLsbD (j + lSwh r)))) ∧
  (∀ (r : BitVec 512) (base : W64) (c : List Int), lSwn r = 0 → elemAddr r base c =
    base + BitVec.ofInt 64 (((List.range (lRank r)).map (fun i => crd c i * lStride r i)).sum)) ∧
  -- The descriptor of a group (R318).
  (∀ (r : BitVec 512) (base : W64) (c : List Int), descAddr r base c = base + BitVec.ofInt 64 (lDoff r + 2 *
    (crd c 0 * lUnit r / 32 + (lExtent r 0 / 32 : Nat) *
      (crd c 1 + lExtent r 1 * (crd c 2 + lExtent r 2 * crd c 3)))))

/-- Range and policy (R317). -/
def Sys2Proof.Claims.OutOfRange : Prop :=
  (∀ (r : BitVec 512) (c : List Int), outRange r c = true ↔
    (∃ i, i < lRank r ∧ (crd c i < 0 ∨ (lExt r i : Int) ≤ crd c i)) ∨ (∃ i, lRank r ≤ i ∧ i < 4 ∧ crd c i ≠ 0)) ∧
  (∀ (r : BitVec 512) (c : List Int), (∀ i, i < lRank r → 0 < lExt r i) → outRange r (clampTo r c) = false ∧
    ∀ i, i < 4 → crd (clampTo r c) i = if lRank r ≤ i then 0 else if crd c i < 0 then 0
      else if (lExt r i : Int) ≤ crd c i then (lExt r i : Int) - 1 else crd c i) ∧
  (∀ (c : Copy) (q : List Int) (m : Memory) (d : Dev), c.zeros = 0 →
    let second := c.kind == .cpyx
    let r := (if second then c.lb else c.la).raw
    (outRange r q = true → lPol r = 0 → readElem c q m d = .ok ((List.replicate (lSize r) 0, none), d)) ∧
    (outRange r q = true → lPol r = 2 →
      readElem c q m d = .error (.fault none { trap := copyTrap c second 6 0 q, onWrite := false })) ∧
    (∀ a p bs d1 d2, (outRange r q = false ∧ a = elemAddr r (lBase r) q) ∨
        (outRange r q = true ∧ lPol r = 1 ∧ a = elemAddr r (lBase r) (clampTo r q)) →
      a.toNat % lSize r = 0 → eng c second q false (engPlace (lSpace r) (lSize r) a.toNat false) m d = .ok (p, d1) →
      eng c second q false (engRead p (lSize r) a.toNat) m d1 = .ok (bs, d2) → readElem c q m d = .ok ((bs, some p), d2)))

/-- The order of a copy's elements (R321 to R323). `cpy`: the coordinates of LB's domain, dimension 0 fastest, read and written alike, none
out of range in LB. `cpyw`: the source coordinates of destination element (e, q). `cpyx`: sub-tensor j holds P elements, packed at the
destination, whose coordinates end with the index entries of j, which are read once. -/
def Sys2Proof.Claims.ElementOrder : Prop :=
  (∀ (c : Copy) (pos : Nat), c.kind = .cpy →
    let q := (elemCoords c pos).1
    (elemCoords c pos).2 = q ∧ copyTotal c = (lExts c.lb.raw).foldl (· * ·) 1 ∧
    (∀ i, i < lRank c.lb.raw →
      crd q i = ((pos / ((lExts c.lb.raw).take i).foldl (· * ·) 1 % lExt c.lb.raw i : Nat) : Int)) ∧
    (pos < copyTotal c → outRange c.lb.raw q = false)) ∧
  (∀ (c : Copy) (pos n0 n1 ox oy : Nat), c.kind = .cpyw → winExts c.la.raw = some (n0, n1, ox, oy) → lRank c.lb.raw = 2 →
    let w := winOf c.la.raw
    let cc := lExt c.la.raw 0
    let e := pos % lExt c.lb.raw 0
    let q := pos / lExt c.lb.raw 0 % lExt c.lb.raw 1
    n0 = w.kx * w.ky * cc ∧ n1 = ox * oy * (if lRank c.la.raw = 4 then lExt c.la.raw 3 else 1) ∧
    (ox : Int) = ((lExt c.la.raw 1 : Int) + 2 * w.px - w.dx * (w.kx - 1) - 1) / w.sx + 1 ∧
    (oy : Int) = ((lExt c.la.raw 2 : Int) + 2 * w.py - w.dy * (w.ky - 1) - 1) / w.sy + 1 ∧
    elemCoords c pos = ([((e % cc : Nat) : Int), ((q % ox * w.sx : Nat) : Int) - w.px + (e / cc % w.kx * w.dx : Nat),
      ((q / ox % oy * w.sy : Nat) : Int) - w.py + (e / (cc * w.kx) * w.dy : Nat), ((q / (ox * oy) : Nat) : Int)],
      [(e : Int), (q : Int)])) ∧
  (∀ (c : Copy) (q : List Int), c.kind = .cpyx → idxOf c (c.pos / max 1 (subTensor c)) = some q →
    elemWhere c = (ints (unflat ((lExts c.lb.raw).take (lRank c.lb.raw - lExtent c.la.raw 0)) (c.pos % max 1 (subTensor c))) ++ q,
      ints (unflat ((lExts c.lb.raw).take (lRank c.lb.raw - lExtent c.la.raw 0)) (c.pos % max 1 (subTensor c))) ++ q) ∧
    (∀ land, landVa c land = c.dst + w64 (c.pos * lSize c.lb.raw)) ∧
    (∀ m d, withIndex c m d = .ok ((c, []), d)) ∧
    ((c.pos + 1) / max 1 (subTensor c) = c.pos / max 1 (subTensor c) →
      idxOf (advance c) (c.pos / max 1 (subTensor c)) = some q)) ∧
  (∀ (c : Copy) (m : Memory) (d d1 : Dev) (r : List (Int × Place)), c.kind = .cpyx → c.zeros = 0 →
    idxOf c (c.pos / max 1 (subTensor c)) = none →
    readIndex c (unflat ((lExts c.la.raw).drop 1) (c.pos / max 1 (subTensor c))) m d = .ok (r, d1) →
    ∃ e, withIndex c m d = .ok ((e, r.map (·.2)), d1) ∧ idxOf e (c.pos / max 1 (subTensor c)) = some (r.map (·.1))) ∧
  (∀ (c : Copy) (land : List Int), c.kind ≠ .cpyx → landVa c land = elemAddr c.lb.raw c.dst land)

/-- R316 to R318, R321 to R323: the address of an element and of its group's descriptor, which coordinates are out of range and what is
delivered for them, and the elements of each kind of copy in their order. -/
def Sys2Proof.Claims.CopyElements : Prop := ElementAddresses ∧ OutOfRange ∧ ElementOrder

/-! ### Statements of several parts. -/

/-- R104, R119, R167, R172, R178, R179, R197, R205: what a step does besides running a word: what is due before a split's next instruction;
the moves of the agenda, one of which is chosen when it is empty (the model's choice, log 1); which split issues first; and which
loads run ahead. -/
def Obligations.StepMoves : Prop := Claims.StepDueFirst ∧ Claims.StepMoves ∧ Claims.IssueOrder ∧ Claims.LoadsRunAhead

/-- R374, R187, R202, R29, R85, R86, R220, R292: what holds after reset, and what a wave holds when it starts. Register values that the
manual does not give are not among them. -/
def Obligations.StartValues : Prop := Claims.ResetValues ∧ Claims.WaveStartValues

/-- R212, R219, R220, R228, R232, R254: how operands are taken, where results go, and in which lanes. -/
def Obligations.OperandForms : Prop := Claims.SourceForms ∧ Claims.DestinationForms ∧ Claims.PredicatesChooseLanes

/-- R231, R215, R165: words that fail their checks. -/
def Obligations.IllegalWordsTrap : Prop := Claims.IllegalWordsTrap ∧ Claims.FootprintIsKept

/-- R340, R200, R231: the words that trap, and the return from a handler. -/
def Obligations.TrapsAndReturns : Prop := Claims.TrapInstructions ∧ Claims.HandlersReturn

/-- R235, R236, R228, R232: integer arithmetic and logic. -/
def Obligations.IntegerWords : Prop := Claims.IntegerArithmetic ∧ Claims.IntegerLogic

/-- R238, R239, R244: compares, selects and predicates. -/
def Obligations.ComparesAndSelects : Prop := Claims.Compares ∧ Claims.Selects

/-- R240 to R245, R88: the floating-point words. -/
def Obligations.FloatWords : Prop := Claims.FloatArithmetic ∧ Claims.FloatChoices

/-- R246 to R250: the conversions. -/
def Obligations.ConversionWords : Prop := Claims.Conversions ∧ Claims.GroupConversions

/-- R210, R257, R258: branches and calls. -/
def Obligations.BranchWords : Prop := Claims.Branches ∧ Claims.IndirectBranches ∧ Claims.Calls

/-- R259 to R261, R335, R177: the ends of lanes, `yield` and `wait`. -/
def Obligations.EndsAndPauses : Prop := Claims.LanesEnd ∧ Claims.CounterSubtracts ∧ Claims.Pauses

/-- R42, R65, R68, R125, R198, R215, R262, R263, R266, R267: loads and stores, and the parts in which they perform. -/
def Obligations.LoadsAndStores : Prop := Claims.PartsPerform ∧ Claims.Loads ∧ Claims.Stores

/-- R115 to R119: reads and writes at the home of a line. -/
def Obligations.HomeReadsAndWrites : Prop := Claims.ReadsTakeLeases ∧ Claims.HomeWrites

/-- R45 to R47, R268 to R270: full/empty accesses. -/
def Obligations.FullEmptyWords : Prop := Claims.FullEmpty ∧ Claims.GranulesFill

/-- R110, R111, R128, R271 to R276: atomics, `lr` and `sc`. -/
def Obligations.AtomicsAndReservations : Prop := Claims.Atomics ∧ Claims.Reservations

/-- R95 to R101, R124, R277 to R279: seals, bindings and fences. -/
def Obligations.SealsAndFences : Prop := Claims.Seals ∧ Claims.BindingsAndFences

/-- R282, R284: the state of a phaser. -/
def Obligations.PhaserState : Prop := Claims.PhaserArithmetic ∧ Claims.PhaserLayout

/-- R288 to R314, with R83 and R89 to R92: how the matrix words issue, what the control words do, and what a row of each operation
computes and where its elements lie. -/
def Obligations.MatrixWords : Prop := Claims.MatrixIssue ∧ Claims.MatrixControl ∧ Claims.MatrixRows

/-- R316 to R330: copies and declared patterns, and the elements of a copy: addresses, out-of-range policies, order. -/
def Obligations.CopiesAndDeclarations : Prop := Claims.CopyInstructions ∧ Claims.Declarations ∧ Claims.CopyElements

/-- R25, R28, R40, R64, R119, R161, R179, R197, R204, R205: the device steps of waves and pages. -/
def Obligations.WavesAndPages : Prop := Claims.WaveSteps ∧ Claims.PageSteps
end

