-- ==== Sys2Proof/Laws/Acts.lean ====
section
/-!
SUPPORT. Running actions: one lemma per building block of a meaning, and one per frame of an instruction word. Proofs
peel a meaning apart with these and never unfold the monad.
-/
namespace Sys2Proof.Machine

theorem runAct_bind {α β : Type} (x : Act α) (f : α → Act β) (m : Memory) (d : Dev) :
    runAct (x >>= f) m d = match runAct x m d with
      | .ok (a, e) => runAct (f a) m e
      | .error t => .error t := by
  show (x >>= f) m d = _
  simp only [runAct, bind, ReaderT.bind, StateT.bind, Except.bind]
  cases x m d <;> rfl

theorem runAct_bind_ok {α β : Type} {x : Act α} {f : α → Act β} {m : Memory} {d e : Dev} {a : α}
    (h : runAct x m d = .ok (a, e)) : runAct (x >>= f) m d = runAct (f a) m e := by
  rw [runAct_bind, h]

theorem runAct_bind_error {α β : Type} {x : Act α} {f : α → Act β} {m : Memory} {d : Dev} {t : Trap}
    (h : runAct x m d = .error t) : runAct (x >>= f) m d = .error t := by
  rw [runAct_bind, h]

@[simp] theorem runAct_pure {α : Type} (a : α) (m : Memory) (d : Dev) : runAct (pure a : Act α) m d = .ok (a, d) := rfl
@[simp] theorem runAct_dev (m : Memory) (d : Dev) : runAct dev m d = .ok (d, d) := rfl
@[simp] theorem runAct_upd (f : Dev → Dev) (m : Memory) (d : Dev) : runAct (upd f) m d = .ok ((), f d) := rfl
@[simp] theorem runAct_trap {α : Type} (t : Trap) (m : Memory) (d : Dev) :
    runAct (trap t : Act α) m d = .error t := rfl
@[simp] theorem runAct_need_true (t : Trap) (m : Memory) (d : Dev) : runAct (need true t) m d = .ok ((), d) := rfl
@[simp] theorem runAct_need_false (t : Trap) (m : Memory) (d : Dev) : runAct (need false t) m d = .error t := rfl
@[simp] theorem runAct_park (p : Park) (m : Memory) (d : Dev) :
    runAct (park p) m d = .ok (.stay, setMySplit d { mySplit d with park := p }) := rfl
@[simp] theorem runAct_retireTo (stl : Nat) (acc exe : Bool) (va : Nat) (m : Memory) (d : Dev) :
    runAct (retireTo stl acc exe va) m d = .ok ((), goHeader (countWord d stl acc exe) va) := rfl

/-- A split that traps: its changes are discarded and the trap is taken (R196). -/
theorem runSplit_error {x : Act Unit} {s : State} {t : Trap} (h : runAct x s.mem s.dev = .error t) :
    runSplit x s = finish s.mem (takeOrWait s.mem s.dev s.dev.cur.1 s.dev.cur.2 t) := by
  simp [runSplit, h]

theorem runSplit_ok {x : Act Unit} {s : State} {d : Dev} (h : runAct x s.mem s.dev = .ok ((), d)) :
    runSplit x s = finish s.mem d := by
  simp [runSplit, h]

/-- A word whose fields fail their checks raises ILLOP (R231). -/
theorem framed_illop {i : Instr} {h : Head} {acc exe : Bool} {codes : List (BitVec 8)} {body : Act Verdict} {m : Memory}
    {d : Dev} (hf : (fieldsOk i && inFootprint (me d) codes) = false) :
    runAct (framed i h acc exe codes body) m d = .error (illop i) := by
  unfold framed
  rw [runAct_bind_ok (runAct_dev m d), hf]
  exact runAct_bind_error (runAct_need_false _ _ _)

/-- Where an instruction has not begun to perform, its fall-through is left to retirement (R210). -/
theorem checkBegun_unbegun {m : Memory} {d e : Dev} (h : atLast (mySplit d) = false ∨ hasBegun (mySplit e) = false) :
    runAct (checkBegun d) m e = .ok ((), e) := by
  unfold checkBegun
  rw [runAct_bind_ok (runAct_dev m e), if_neg (by rcases h with h | h <;> simp [h])]
  rfl

/-- A word that is admitted runs its body, and what the body answers says how it ends. -/
theorem framed_body {i : Instr} {h : Head} {acc exe : Bool} {codes : List (BitVec 8)} {body : Act Verdict} {m : Memory}
    {d e : Dev} {v : Verdict} (hf : (fieldsOk i && inFootprint (me d) codes) = true) (ho : offAligned i = true)
    (hb : runAct body m d = .ok (v, e)) :
    runAct (framed i h acc exe codes body) m d = match v with
      | .retire => runAct (do checkBegun d; retireWord h.stl.toNat acc exe) m e
      | .moved => .ok ((), e)
      | .stay => runAct ((if endsLanes i then pure () else checkBegun d) >>= fun _ =>
          upd (fun e => setMySplit e { mySplit e with qd := (mySplit d).qd, qv := (mySplit d).qv, qb := (mySplit d).qb })) m e := by
  unfold framed
  rw [runAct_bind_ok (runAct_dev m d), hf, runAct_bind_ok (runAct_need_true _ _ _), ho]
  simp only [if_true]
  rw [runAct_bind_ok hb]
  cases v with
  | retire => rfl
  | moved => rfl
  | stay => dsimp only; split <;> rfl

/-- A trap of the body is the trap of the word. -/
theorem framed_trap {i : Instr} {h : Head} {acc exe : Bool} {codes : List (BitVec 8)} {body : Act Verdict} {m : Memory}
    {d : Dev} {t : Trap} (hf : (fieldsOk i && inFootprint (me d) codes) = true) (ho : offAligned i = true)
    (hb : runAct body m d = .error t) : runAct (framed i h acc exe codes body) m d = .error t := by
  unfold framed
  rw [runAct_bind_ok (runAct_dev m d), hf, runAct_bind_ok (runAct_need_true _ _ _), ho]
  simp only [if_true]
  rw [runAct_bind_error hb]

end Sys2Proof.Machine
end

