-- ==== Sys2Proof/Laws/Memory.lean ====
section
/-!
SUPPORT. Tables and memory: a read after a write, the canonical form, and what a commit leaves.
-/
namespace Sys2Proof.Machine

section
variable {α : Type} [DecidableEq α] {d : α}

/-- A read after a write gives the value at its key, and what stood before at every other. -/
theorem look_put (t : Sparse α) (k x : Nat) (v : α) : look d (put d t k v) x = if x = k then v else look d t x := by
  induction t with
  | nil =>
    unfold put
    split
    · next h => subst h; split <;> rfl
    · simp only [look]
      split
      · next h => simp [h]
      · next h => rw [if_neg (fun e => h e.symm)]
  | cons p r ih =>
    obtain ⟨j, u⟩ := p
    unfold put
    split
    · next hk =>
      split
      · next hv =>
        simp only [look]
        split
        · next e => rw [if_neg (by omega)]
        · exact ih
      · simp only [look]
        by_cases e : k = x
        · simp [e]
        · rw [if_neg e, if_neg (fun h : x = k => e h.symm)]
    · split
      · next hk e =>
        subst e
        split
        · next hv =>
          rw [ih]
          simp only [look]
          split
          · rfl
          · next hx => rw [if_neg (fun h => hx h.symm)]
        · simp only [look]
          by_cases e : k = x
          · simp [e]
          · rw [if_neg e, if_neg e, if_neg (fun h => e h.symm)]
      · next hk e =>
        simp only [look]
        split
        · next h => rw [if_neg (by omega)]
        · exact ih

theorem look_put_same (t : Sparse α) (k : Nat) (v : α) : look d (put d t k v) k = v := by simp [look_put]

theorem look_put_other (t : Sparse α) {k x : Nat} (v : α) (h : x ≠ k) : look d (put d t k v) x = look d t x := by
  simp [look_put, h]

theorem canonFrom_le {lo hi : Nat} {t : Sparse α} (h : canonFrom d hi t = true) (hl : lo ≤ hi) :
    canonFrom d lo t = true := by
  cases t with
  | nil => rfl
  | cons p r =>
    simp only [canonFrom, Bool.and_eq_true, decide_eq_true_eq] at h ⊢
    exact ⟨⟨Nat.le_trans hl h.1.1, h.1.2⟩, h.2⟩

/-- A write keeps the canonical form. -/
theorem canonFrom_put {lo k : Nat} {t : Sparse α} (v : α) (h : canonFrom d lo t = true) (hk : lo ≤ k) :
    canonFrom d lo (put d t k v) = true := by
  induction t generalizing lo with
  | nil =>
    unfold put
    split
    · rfl
    · next hv => simp [canonFrom, hk, hv]
  | cons p r ih =>
    obtain ⟨j, u⟩ := p
    simp only [canonFrom, Bool.and_eq_true, decide_eq_true_eq] at h
    obtain ⟨⟨h1, h2⟩, h3⟩ := h
    have low : ∀ {m x : Nat} {q : Sparse α}, canonFrom d m q = true → x < m → put d q x d = q := by
      intro m x q hq hx
      induction q generalizing m with
      | nil => simp [put]
      | cons p r ih =>
        obtain ⟨j, u⟩ := p
        simp only [canonFrom, Bool.and_eq_true, decide_eq_true_eq] at hq
        unfold put
        rw [if_pos (by omega), if_pos rfl, ih hq.2 (by omega)]
    unfold put
    split
    · next hlt =>
      split
      · next hv =>
        subst hv
        rw [low h3 (by omega)]
        simp [canonFrom, h1, h2, h3]
      · next hv =>
        simp only [canonFrom, Bool.and_eq_true, decide_eq_true_eq]
        exact ⟨⟨hk, hv⟩, ⟨by omega, h2⟩, h3⟩
    · split
      · next hlt e =>
        subst e
        split
        · next hv =>
          subst hv
          rw [low h3 (by omega)]
          exact canonFrom_le h3 (by omega)
        · next hv => simp [canonFrom, hk, hv, h3]
      · next hlt e =>
        simp only [canonFrom, Bool.and_eq_true, decide_eq_true_eq]
        exact ⟨⟨h1, h2⟩, ih h3 (by omega)⟩

theorem canon_put {t : Sparse α} (k : Nat) (v : α) (h : canon d t = true) : canon d (put d t k v) = true :=
  canonFrom_put v h (Nat.zero_le k)

end

/-- The stores of a step keep the canonical form of memory. -/
theorem memWf_commit {m : Memory} (log : List Host.Cell) (h : memWf m = true) : memWf (commit m log) = true := by
  induction log with
  | nil => exact h
  | cons c r ih => exact canon_put c.1 c.2 ih

/-- A byte after the commit is the byte as the step saw it. -/
theorem look_commit (m : Memory) (d : Dev) (k : Nat) : look blankByte (commit m d.wlog) k = rdByte m d k := by
  unfold rdByte
  generalize d.wlog = log
  induction log with
  | nil => rfl
  | cons c r ih =>
    show look blankByte (put blankByte (commit m r) c.1 c.2) k = _
    rw [look_put, List.find?_cons]
    by_cases e : k = c.1
    · simp [e]
    · have : (c.1 == k) = false := by simp; exact fun h => e h.symm
      rw [if_neg e, this]
      exact ih

end Sys2Proof.Machine
end

