-- ==== Sys2Proof/Laws/State.lean ====
section
/-!
SUPPORT. The updates of the device: what each leaves of every other field, and what reads back after it. Proofs rewrite with
these and never unfold a record update.
-/
namespace Sys2Proof.Machine

/-! ### Every other field, one lemma per field and update. -/

section
variable (d : Dev)

@[simp] theorem setWave_cur (w : Nat) (x : Wave) : (setWave d w x).cur = d.cur := rfl
@[simp] theorem setWave_agenda (w : Nat) (x : Wave) : (setWave d w x).agenda = d.agenda := rfl
@[simp] theorem setWave_cycle (w : Nat) (x : Wave) : (setWave d w x).cycle = d.cycle := rfl
@[simp] theorem setWave_tick (w : Nat) (x : Wave) : (setWave d w x).tick = d.tick := rfl
@[simp] theorem setWave_seq (w : Nat) (x : Wave) : (setWave d w x).seq = d.seq := rfl
@[simp] theorem setWave_wlog (w : Nat) (x : Wave) : (setWave d w x).wlog = d.wlog := rfl
@[simp] theorem setWave_regs (w : Nat) (x : Wave) : (setWave d w x).regs = d.regs := rfl
@[simp] theorem setWave_sets (w : Nat) (x : Wave) : (setWave d w x).sets = d.sets := rfl
@[simp] theorem setWave_clusters (w : Nat) (x : Wave) : (setWave d w x).clusters = d.clusters := rfl
@[simp] theorem setWave_launches (w : Nat) (x : Wave) : (setWave d w x).launches = d.launches := rfl
@[simp] theorem setWave_ctxs (w : Nat) (x : Wave) : (setWave d w x).ctxs = d.ctxs := rfl
@[simp] theorem setWave_cores (w : Nat) (x : Wave) : (setWave d w x).cores = d.cores := rfl
@[simp] theorem setWave_spared (w : Nat) (x : Wave) : (setWave d w x).spared = d.spared := rfl
@[simp] theorem setWave_copies (w : Nat) (x : Wave) : (setWave d w x).copies = d.copies := rfl
@[simp] theorem setWave_matops (w : Nat) (x : Wave) : (setWave d w x).matops = d.matops := rfl
@[simp] theorem setWave_signals (w : Nat) (x : Wave) : (setWave d w x).signals = d.signals := rfl
@[simp] theorem setWave_lines (w : Nat) (x : Wave) : (setWave d w x).lines = d.lines := rfl
@[simp] theorem setWave_poison (w : Nat) (x : Wave) : (setWave d w x).poison = d.poison := rfl
@[simp] theorem setWave_caches (w : Nat) (x : Wave) : (setWave d w x).caches = d.caches := rfl
@[simp] theorem setWave_tlb (w : Nat) (x : Wave) : (setWave d w x).tlb = d.tlb := rfl
@[simp] theorem setWave_walks (w : Nat) (x : Wave) : (setWave d w x).walks = d.walks := rfl
@[simp] theorem setWave_episodes (w : Nat) (x : Wave) : (setWave d w x).episodes = d.episodes := rfl
@[simp] theorem setWave_queues (w : Nat) (x : Wave) : (setWave d w x).queues = d.queues := rfl
@[simp] theorem setWave_pool (w : Nat) (x : Wave) : (setWave d w x).pool = d.pool := rfl
@[simp] theorem setWave_window (w : Nat) (x : Wave) : (setWave d w x).window = d.window := rfl
@[simp] theorem setWave_slotSeq (w : Nat) (x : Wave) : (setWave d w x).slotSeq = d.slotSeq := rfl
@[simp] theorem setWave_journal (w : Nat) (x : Wave) : (setWave d w x).journal = d.journal := rfl
@[simp] theorem setWave_xstamp (w : Nat) (x : Wave) : (setWave d w x).xstamp = d.xstamp := rfl
@[simp] theorem setWave_maxWts (w : Nat) (x : Wave) : (setWave d w x).maxWts = d.maxWts := rfl
@[simp] theorem setWave_image (w : Nat) (x : Wave) : (setWave d w x).image = d.image := rfl
@[simp] theorem setWave_stored (w : Nat) (x : Wave) : (setWave d w x).stored = d.stored := rfl
@[simp] theorem setWave_imageCut (w : Nat) (x : Wave) : (setWave d w x).imageCut = d.imageCut := rfl
@[simp] theorem setWave_lastingAt (w : Nat) (x : Wave) : (setWave d w x).lastingAt = d.lastingAt := rfl
@[simp] theorem setWave_reliability (w : Nat) (x : Wave) : (setWave d w x).reliability = d.reliability := rfl
@[simp] theorem setWave_hostResp (w : Nat) (x : Wave) : (setWave d w x).hostResp = d.hostResp := rfl
@[simp] theorem setWave_hostPoison (w : Nat) (x : Wave) : (setWave d w x).hostPoison = d.hostPoison := rfl
@[simp] theorem setWave_shadow (w : Nat) (x : Wave) : (setWave d w x).shadow = d.shadow := rfl
@[simp] theorem setWave_sent (w : Nat) (x : Wave) : (setWave d w x).sent = d.sent := rfl
@[simp] theorem setWave_leaving (w : Nat) (x : Wave) : (setWave d w x).leaving = d.leaving := rfl
@[simp] theorem setWave_hotPlugs (w : Nat) (x : Wave) : (setWave d w x).hotPlugs = d.hotPlugs := rfl

@[simp] theorem setSet_cur (t : Nat) (x : StageSet) : (setSet d t x).cur = d.cur := rfl
@[simp] theorem setSet_agenda (t : Nat) (x : StageSet) : (setSet d t x).agenda = d.agenda := rfl
@[simp] theorem setSet_cycle (t : Nat) (x : StageSet) : (setSet d t x).cycle = d.cycle := rfl
@[simp] theorem setSet_tick (t : Nat) (x : StageSet) : (setSet d t x).tick = d.tick := rfl
@[simp] theorem setSet_seq (t : Nat) (x : StageSet) : (setSet d t x).seq = d.seq := rfl
@[simp] theorem setSet_wlog (t : Nat) (x : StageSet) : (setSet d t x).wlog = d.wlog := rfl
@[simp] theorem setSet_regs (t : Nat) (x : StageSet) : (setSet d t x).regs = d.regs := rfl
@[simp] theorem setSet_waves (t : Nat) (x : StageSet) : (setSet d t x).waves = d.waves := rfl
@[simp] theorem setSet_clusters (t : Nat) (x : StageSet) : (setSet d t x).clusters = d.clusters := rfl
@[simp] theorem setSet_launches (t : Nat) (x : StageSet) : (setSet d t x).launches = d.launches := rfl
@[simp] theorem setSet_ctxs (t : Nat) (x : StageSet) : (setSet d t x).ctxs = d.ctxs := rfl
@[simp] theorem setSet_cores (t : Nat) (x : StageSet) : (setSet d t x).cores = d.cores := rfl
@[simp] theorem setSet_spared (t : Nat) (x : StageSet) : (setSet d t x).spared = d.spared := rfl
@[simp] theorem setSet_copies (t : Nat) (x : StageSet) : (setSet d t x).copies = d.copies := rfl
@[simp] theorem setSet_matops (t : Nat) (x : StageSet) : (setSet d t x).matops = d.matops := rfl
@[simp] theorem setSet_signals (t : Nat) (x : StageSet) : (setSet d t x).signals = d.signals := rfl
@[simp] theorem setSet_lines (t : Nat) (x : StageSet) : (setSet d t x).lines = d.lines := rfl
@[simp] theorem setSet_poison (t : Nat) (x : StageSet) : (setSet d t x).poison = d.poison := rfl
@[simp] theorem setSet_caches (t : Nat) (x : StageSet) : (setSet d t x).caches = d.caches := rfl
@[simp] theorem setSet_tlb (t : Nat) (x : StageSet) : (setSet d t x).tlb = d.tlb := rfl
@[simp] theorem setSet_walks (t : Nat) (x : StageSet) : (setSet d t x).walks = d.walks := rfl
@[simp] theorem setSet_episodes (t : Nat) (x : StageSet) : (setSet d t x).episodes = d.episodes := rfl
@[simp] theorem setSet_queues (t : Nat) (x : StageSet) : (setSet d t x).queues = d.queues := rfl
@[simp] theorem setSet_pool (t : Nat) (x : StageSet) : (setSet d t x).pool = d.pool := rfl
@[simp] theorem setSet_window (t : Nat) (x : StageSet) : (setSet d t x).window = d.window := rfl
@[simp] theorem setSet_slotSeq (t : Nat) (x : StageSet) : (setSet d t x).slotSeq = d.slotSeq := rfl
@[simp] theorem setSet_journal (t : Nat) (x : StageSet) : (setSet d t x).journal = d.journal := rfl
@[simp] theorem setSet_xstamp (t : Nat) (x : StageSet) : (setSet d t x).xstamp = d.xstamp := rfl
@[simp] theorem setSet_maxWts (t : Nat) (x : StageSet) : (setSet d t x).maxWts = d.maxWts := rfl
@[simp] theorem setSet_image (t : Nat) (x : StageSet) : (setSet d t x).image = d.image := rfl
@[simp] theorem setSet_stored (t : Nat) (x : StageSet) : (setSet d t x).stored = d.stored := rfl
@[simp] theorem setSet_imageCut (t : Nat) (x : StageSet) : (setSet d t x).imageCut = d.imageCut := rfl
@[simp] theorem setSet_lastingAt (t : Nat) (x : StageSet) : (setSet d t x).lastingAt = d.lastingAt := rfl
@[simp] theorem setSet_reliability (t : Nat) (x : StageSet) : (setSet d t x).reliability = d.reliability := rfl
@[simp] theorem setSet_hostResp (t : Nat) (x : StageSet) : (setSet d t x).hostResp = d.hostResp := rfl
@[simp] theorem setSet_hostPoison (t : Nat) (x : StageSet) : (setSet d t x).hostPoison = d.hostPoison := rfl
@[simp] theorem setSet_shadow (t : Nat) (x : StageSet) : (setSet d t x).shadow = d.shadow := rfl
@[simp] theorem setSet_sent (t : Nat) (x : StageSet) : (setSet d t x).sent = d.sent := rfl
@[simp] theorem setSet_leaving (t : Nat) (x : StageSet) : (setSet d t x).leaving = d.leaving := rfl
@[simp] theorem setSet_hotPlugs (t : Nat) (x : StageSet) : (setSet d t x).hotPlugs = d.hotPlugs := rfl

@[simp] theorem setCluster_cur (c : Nat) (x : Cluster) : (setCluster d c x).cur = d.cur := rfl
@[simp] theorem setCluster_agenda (c : Nat) (x : Cluster) : (setCluster d c x).agenda = d.agenda := rfl
@[simp] theorem setCluster_cycle (c : Nat) (x : Cluster) : (setCluster d c x).cycle = d.cycle := rfl
@[simp] theorem setCluster_tick (c : Nat) (x : Cluster) : (setCluster d c x).tick = d.tick := rfl
@[simp] theorem setCluster_seq (c : Nat) (x : Cluster) : (setCluster d c x).seq = d.seq := rfl
@[simp] theorem setCluster_wlog (c : Nat) (x : Cluster) : (setCluster d c x).wlog = d.wlog := rfl
@[simp] theorem setCluster_regs (c : Nat) (x : Cluster) : (setCluster d c x).regs = d.regs := rfl
@[simp] theorem setCluster_waves (c : Nat) (x : Cluster) : (setCluster d c x).waves = d.waves := rfl
@[simp] theorem setCluster_sets (c : Nat) (x : Cluster) : (setCluster d c x).sets = d.sets := rfl
@[simp] theorem setCluster_launches (c : Nat) (x : Cluster) : (setCluster d c x).launches = d.launches := rfl
@[simp] theorem setCluster_ctxs (c : Nat) (x : Cluster) : (setCluster d c x).ctxs = d.ctxs := rfl
@[simp] theorem setCluster_cores (c : Nat) (x : Cluster) : (setCluster d c x).cores = d.cores := rfl
@[simp] theorem setCluster_spared (c : Nat) (x : Cluster) : (setCluster d c x).spared = d.spared := rfl
@[simp] theorem setCluster_copies (c : Nat) (x : Cluster) : (setCluster d c x).copies = d.copies := rfl
@[simp] theorem setCluster_matops (c : Nat) (x : Cluster) : (setCluster d c x).matops = d.matops := rfl
@[simp] theorem setCluster_signals (c : Nat) (x : Cluster) : (setCluster d c x).signals = d.signals := rfl
@[simp] theorem setCluster_lines (c : Nat) (x : Cluster) : (setCluster d c x).lines = d.lines := rfl
@[simp] theorem setCluster_poison (c : Nat) (x : Cluster) : (setCluster d c x).poison = d.poison := rfl
@[simp] theorem setCluster_caches (c : Nat) (x : Cluster) : (setCluster d c x).caches = d.caches := rfl
@[simp] theorem setCluster_tlb (c : Nat) (x : Cluster) : (setCluster d c x).tlb = d.tlb := rfl
@[simp] theorem setCluster_walks (c : Nat) (x : Cluster) : (setCluster d c x).walks = d.walks := rfl
@[simp] theorem setCluster_episodes (c : Nat) (x : Cluster) : (setCluster d c x).episodes = d.episodes := rfl
@[simp] theorem setCluster_queues (c : Nat) (x : Cluster) : (setCluster d c x).queues = d.queues := rfl
@[simp] theorem setCluster_pool (c : Nat) (x : Cluster) : (setCluster d c x).pool = d.pool := rfl
@[simp] theorem setCluster_window (c : Nat) (x : Cluster) : (setCluster d c x).window = d.window := rfl
@[simp] theorem setCluster_slotSeq (c : Nat) (x : Cluster) : (setCluster d c x).slotSeq = d.slotSeq := rfl
@[simp] theorem setCluster_journal (c : Nat) (x : Cluster) : (setCluster d c x).journal = d.journal := rfl
@[simp] theorem setCluster_xstamp (c : Nat) (x : Cluster) : (setCluster d c x).xstamp = d.xstamp := rfl
@[simp] theorem setCluster_maxWts (c : Nat) (x : Cluster) : (setCluster d c x).maxWts = d.maxWts := rfl
@[simp] theorem setCluster_image (c : Nat) (x : Cluster) : (setCluster d c x).image = d.image := rfl
@[simp] theorem setCluster_stored (c : Nat) (x : Cluster) : (setCluster d c x).stored = d.stored := rfl
@[simp] theorem setCluster_imageCut (c : Nat) (x : Cluster) : (setCluster d c x).imageCut = d.imageCut := rfl
@[simp] theorem setCluster_lastingAt (c : Nat) (x : Cluster) : (setCluster d c x).lastingAt = d.lastingAt := rfl
@[simp] theorem setCluster_reliability (c : Nat) (x : Cluster) : (setCluster d c x).reliability = d.reliability := rfl
@[simp] theorem setCluster_hostResp (c : Nat) (x : Cluster) : (setCluster d c x).hostResp = d.hostResp := rfl
@[simp] theorem setCluster_hostPoison (c : Nat) (x : Cluster) : (setCluster d c x).hostPoison = d.hostPoison := rfl
@[simp] theorem setCluster_shadow (c : Nat) (x : Cluster) : (setCluster d c x).shadow = d.shadow := rfl
@[simp] theorem setCluster_sent (c : Nat) (x : Cluster) : (setCluster d c x).sent = d.sent := rfl
@[simp] theorem setCluster_leaving (c : Nat) (x : Cluster) : (setCluster d c x).leaving = d.leaving := rfl
@[simp] theorem setCluster_hotPlugs (c : Nat) (x : Cluster) : (setCluster d c x).hotPlugs = d.hotPlugs := rfl

@[simp] theorem setLaunch_cur (l : Nat) (x : Launch) : (setLaunch d l x).cur = d.cur := rfl
@[simp] theorem setLaunch_agenda (l : Nat) (x : Launch) : (setLaunch d l x).agenda = d.agenda := rfl
@[simp] theorem setLaunch_cycle (l : Nat) (x : Launch) : (setLaunch d l x).cycle = d.cycle := rfl
@[simp] theorem setLaunch_tick (l : Nat) (x : Launch) : (setLaunch d l x).tick = d.tick := rfl
@[simp] theorem setLaunch_seq (l : Nat) (x : Launch) : (setLaunch d l x).seq = d.seq := rfl
@[simp] theorem setLaunch_wlog (l : Nat) (x : Launch) : (setLaunch d l x).wlog = d.wlog := rfl
@[simp] theorem setLaunch_regs (l : Nat) (x : Launch) : (setLaunch d l x).regs = d.regs := rfl
@[simp] theorem setLaunch_waves (l : Nat) (x : Launch) : (setLaunch d l x).waves = d.waves := rfl
@[simp] theorem setLaunch_sets (l : Nat) (x : Launch) : (setLaunch d l x).sets = d.sets := rfl
@[simp] theorem setLaunch_clusters (l : Nat) (x : Launch) : (setLaunch d l x).clusters = d.clusters := rfl
@[simp] theorem setLaunch_ctxs (l : Nat) (x : Launch) : (setLaunch d l x).ctxs = d.ctxs := rfl
@[simp] theorem setLaunch_cores (l : Nat) (x : Launch) : (setLaunch d l x).cores = d.cores := rfl
@[simp] theorem setLaunch_spared (l : Nat) (x : Launch) : (setLaunch d l x).spared = d.spared := rfl
@[simp] theorem setLaunch_copies (l : Nat) (x : Launch) : (setLaunch d l x).copies = d.copies := rfl
@[simp] theorem setLaunch_matops (l : Nat) (x : Launch) : (setLaunch d l x).matops = d.matops := rfl
@[simp] theorem setLaunch_signals (l : Nat) (x : Launch) : (setLaunch d l x).signals = d.signals := rfl
@[simp] theorem setLaunch_lines (l : Nat) (x : Launch) : (setLaunch d l x).lines = d.lines := rfl
@[simp] theorem setLaunch_poison (l : Nat) (x : Launch) : (setLaunch d l x).poison = d.poison := rfl
@[simp] theorem setLaunch_caches (l : Nat) (x : Launch) : (setLaunch d l x).caches = d.caches := rfl
@[simp] theorem setLaunch_tlb (l : Nat) (x : Launch) : (setLaunch d l x).tlb = d.tlb := rfl
@[simp] theorem setLaunch_walks (l : Nat) (x : Launch) : (setLaunch d l x).walks = d.walks := rfl
@[simp] theorem setLaunch_episodes (l : Nat) (x : Launch) : (setLaunch d l x).episodes = d.episodes := rfl
@[simp] theorem setLaunch_queues (l : Nat) (x : Launch) : (setLaunch d l x).queues = d.queues := rfl
@[simp] theorem setLaunch_pool (l : Nat) (x : Launch) : (setLaunch d l x).pool = d.pool := rfl
@[simp] theorem setLaunch_window (l : Nat) (x : Launch) : (setLaunch d l x).window = d.window := rfl
@[simp] theorem setLaunch_slotSeq (l : Nat) (x : Launch) : (setLaunch d l x).slotSeq = d.slotSeq := rfl
@[simp] theorem setLaunch_journal (l : Nat) (x : Launch) : (setLaunch d l x).journal = d.journal := rfl
@[simp] theorem setLaunch_xstamp (l : Nat) (x : Launch) : (setLaunch d l x).xstamp = d.xstamp := rfl
@[simp] theorem setLaunch_maxWts (l : Nat) (x : Launch) : (setLaunch d l x).maxWts = d.maxWts := rfl
@[simp] theorem setLaunch_image (l : Nat) (x : Launch) : (setLaunch d l x).image = d.image := rfl
@[simp] theorem setLaunch_stored (l : Nat) (x : Launch) : (setLaunch d l x).stored = d.stored := rfl
@[simp] theorem setLaunch_imageCut (l : Nat) (x : Launch) : (setLaunch d l x).imageCut = d.imageCut := rfl
@[simp] theorem setLaunch_lastingAt (l : Nat) (x : Launch) : (setLaunch d l x).lastingAt = d.lastingAt := rfl
@[simp] theorem setLaunch_reliability (l : Nat) (x : Launch) : (setLaunch d l x).reliability = d.reliability := rfl
@[simp] theorem setLaunch_hostResp (l : Nat) (x : Launch) : (setLaunch d l x).hostResp = d.hostResp := rfl
@[simp] theorem setLaunch_hostPoison (l : Nat) (x : Launch) : (setLaunch d l x).hostPoison = d.hostPoison := rfl
@[simp] theorem setLaunch_shadow (l : Nat) (x : Launch) : (setLaunch d l x).shadow = d.shadow := rfl
@[simp] theorem setLaunch_sent (l : Nat) (x : Launch) : (setLaunch d l x).sent = d.sent := rfl
@[simp] theorem setLaunch_leaving (l : Nat) (x : Launch) : (setLaunch d l x).leaving = d.leaving := rfl
@[simp] theorem setLaunch_hotPlugs (l : Nat) (x : Launch) : (setLaunch d l x).hotPlugs = d.hotPlugs := rfl

@[simp] theorem setLine_cur (n : Nat) (x : Line) : (setLine d n x).cur = d.cur := rfl
@[simp] theorem setLine_agenda (n : Nat) (x : Line) : (setLine d n x).agenda = d.agenda := rfl
@[simp] theorem setLine_cycle (n : Nat) (x : Line) : (setLine d n x).cycle = d.cycle := rfl
@[simp] theorem setLine_tick (n : Nat) (x : Line) : (setLine d n x).tick = d.tick := rfl
@[simp] theorem setLine_seq (n : Nat) (x : Line) : (setLine d n x).seq = d.seq := rfl
@[simp] theorem setLine_wlog (n : Nat) (x : Line) : (setLine d n x).wlog = d.wlog := rfl
@[simp] theorem setLine_regs (n : Nat) (x : Line) : (setLine d n x).regs = d.regs := rfl
@[simp] theorem setLine_waves (n : Nat) (x : Line) : (setLine d n x).waves = d.waves := rfl
@[simp] theorem setLine_sets (n : Nat) (x : Line) : (setLine d n x).sets = d.sets := rfl
@[simp] theorem setLine_clusters (n : Nat) (x : Line) : (setLine d n x).clusters = d.clusters := rfl
@[simp] theorem setLine_launches (n : Nat) (x : Line) : (setLine d n x).launches = d.launches := rfl
@[simp] theorem setLine_ctxs (n : Nat) (x : Line) : (setLine d n x).ctxs = d.ctxs := rfl
@[simp] theorem setLine_cores (n : Nat) (x : Line) : (setLine d n x).cores = d.cores := rfl
@[simp] theorem setLine_spared (n : Nat) (x : Line) : (setLine d n x).spared = d.spared := rfl
@[simp] theorem setLine_copies (n : Nat) (x : Line) : (setLine d n x).copies = d.copies := rfl
@[simp] theorem setLine_matops (n : Nat) (x : Line) : (setLine d n x).matops = d.matops := rfl
@[simp] theorem setLine_signals (n : Nat) (x : Line) : (setLine d n x).signals = d.signals := rfl
@[simp] theorem setLine_poison (n : Nat) (x : Line) : (setLine d n x).poison = d.poison := rfl
@[simp] theorem setLine_caches (n : Nat) (x : Line) : (setLine d n x).caches = d.caches := rfl
@[simp] theorem setLine_tlb (n : Nat) (x : Line) : (setLine d n x).tlb = d.tlb := rfl
@[simp] theorem setLine_walks (n : Nat) (x : Line) : (setLine d n x).walks = d.walks := rfl
@[simp] theorem setLine_episodes (n : Nat) (x : Line) : (setLine d n x).episodes = d.episodes := rfl
@[simp] theorem setLine_queues (n : Nat) (x : Line) : (setLine d n x).queues = d.queues := rfl
@[simp] theorem setLine_pool (n : Nat) (x : Line) : (setLine d n x).pool = d.pool := rfl
@[simp] theorem setLine_window (n : Nat) (x : Line) : (setLine d n x).window = d.window := rfl
@[simp] theorem setLine_slotSeq (n : Nat) (x : Line) : (setLine d n x).slotSeq = d.slotSeq := rfl
@[simp] theorem setLine_journal (n : Nat) (x : Line) : (setLine d n x).journal = d.journal := rfl
@[simp] theorem setLine_xstamp (n : Nat) (x : Line) : (setLine d n x).xstamp = d.xstamp := rfl
@[simp] theorem setLine_maxWts (n : Nat) (x : Line) : (setLine d n x).maxWts = d.maxWts := rfl
@[simp] theorem setLine_image (n : Nat) (x : Line) : (setLine d n x).image = d.image := rfl
@[simp] theorem setLine_stored (n : Nat) (x : Line) : (setLine d n x).stored = d.stored := rfl
@[simp] theorem setLine_imageCut (n : Nat) (x : Line) : (setLine d n x).imageCut = d.imageCut := rfl
@[simp] theorem setLine_lastingAt (n : Nat) (x : Line) : (setLine d n x).lastingAt = d.lastingAt := rfl
@[simp] theorem setLine_reliability (n : Nat) (x : Line) : (setLine d n x).reliability = d.reliability := rfl
@[simp] theorem setLine_hostResp (n : Nat) (x : Line) : (setLine d n x).hostResp = d.hostResp := rfl
@[simp] theorem setLine_hostPoison (n : Nat) (x : Line) : (setLine d n x).hostPoison = d.hostPoison := rfl
@[simp] theorem setLine_shadow (n : Nat) (x : Line) : (setLine d n x).shadow = d.shadow := rfl
@[simp] theorem setLine_sent (n : Nat) (x : Line) : (setLine d n x).sent = d.sent := rfl
@[simp] theorem setLine_leaving (n : Nat) (x : Line) : (setLine d n x).leaving = d.leaving := rfl
@[simp] theorem setLine_hotPlugs (n : Nat) (x : Line) : (setLine d n x).hotPlugs = d.hotPlugs := rfl

@[simp] theorem setCtx_cur (c : Nat) (x : Ctx) : (setCtx d c x).cur = d.cur := rfl
@[simp] theorem setCtx_agenda (c : Nat) (x : Ctx) : (setCtx d c x).agenda = d.agenda := rfl
@[simp] theorem setCtx_cycle (c : Nat) (x : Ctx) : (setCtx d c x).cycle = d.cycle := rfl
@[simp] theorem setCtx_tick (c : Nat) (x : Ctx) : (setCtx d c x).tick = d.tick := rfl
@[simp] theorem setCtx_seq (c : Nat) (x : Ctx) : (setCtx d c x).seq = d.seq := rfl
@[simp] theorem setCtx_wlog (c : Nat) (x : Ctx) : (setCtx d c x).wlog = d.wlog := rfl
@[simp] theorem setCtx_regs (c : Nat) (x : Ctx) : (setCtx d c x).regs = d.regs := rfl
@[simp] theorem setCtx_waves (c : Nat) (x : Ctx) : (setCtx d c x).waves = d.waves := rfl
@[simp] theorem setCtx_sets (c : Nat) (x : Ctx) : (setCtx d c x).sets = d.sets := rfl
@[simp] theorem setCtx_clusters (c : Nat) (x : Ctx) : (setCtx d c x).clusters = d.clusters := rfl
@[simp] theorem setCtx_launches (c : Nat) (x : Ctx) : (setCtx d c x).launches = d.launches := rfl
@[simp] theorem setCtx_cores (c : Nat) (x : Ctx) : (setCtx d c x).cores = d.cores := rfl
@[simp] theorem setCtx_spared (c : Nat) (x : Ctx) : (setCtx d c x).spared = d.spared := rfl
@[simp] theorem setCtx_copies (c : Nat) (x : Ctx) : (setCtx d c x).copies = d.copies := rfl
@[simp] theorem setCtx_matops (c : Nat) (x : Ctx) : (setCtx d c x).matops = d.matops := rfl
@[simp] theorem setCtx_signals (c : Nat) (x : Ctx) : (setCtx d c x).signals = d.signals := rfl
@[simp] theorem setCtx_lines (c : Nat) (x : Ctx) : (setCtx d c x).lines = d.lines := rfl
@[simp] theorem setCtx_poison (c : Nat) (x : Ctx) : (setCtx d c x).poison = d.poison := rfl
@[simp] theorem setCtx_caches (c : Nat) (x : Ctx) : (setCtx d c x).caches = d.caches := rfl
@[simp] theorem setCtx_tlb (c : Nat) (x : Ctx) : (setCtx d c x).tlb = d.tlb := rfl
@[simp] theorem setCtx_walks (c : Nat) (x : Ctx) : (setCtx d c x).walks = d.walks := rfl
@[simp] theorem setCtx_episodes (c : Nat) (x : Ctx) : (setCtx d c x).episodes = d.episodes := rfl
@[simp] theorem setCtx_queues (c : Nat) (x : Ctx) : (setCtx d c x).queues = d.queues := rfl
@[simp] theorem setCtx_pool (c : Nat) (x : Ctx) : (setCtx d c x).pool = d.pool := rfl
@[simp] theorem setCtx_window (c : Nat) (x : Ctx) : (setCtx d c x).window = d.window := rfl
@[simp] theorem setCtx_slotSeq (c : Nat) (x : Ctx) : (setCtx d c x).slotSeq = d.slotSeq := rfl
@[simp] theorem setCtx_journal (c : Nat) (x : Ctx) : (setCtx d c x).journal = d.journal := rfl
@[simp] theorem setCtx_xstamp (c : Nat) (x : Ctx) : (setCtx d c x).xstamp = d.xstamp := rfl
@[simp] theorem setCtx_maxWts (c : Nat) (x : Ctx) : (setCtx d c x).maxWts = d.maxWts := rfl
@[simp] theorem setCtx_image (c : Nat) (x : Ctx) : (setCtx d c x).image = d.image := rfl
@[simp] theorem setCtx_stored (c : Nat) (x : Ctx) : (setCtx d c x).stored = d.stored := rfl
@[simp] theorem setCtx_imageCut (c : Nat) (x : Ctx) : (setCtx d c x).imageCut = d.imageCut := rfl
@[simp] theorem setCtx_lastingAt (c : Nat) (x : Ctx) : (setCtx d c x).lastingAt = d.lastingAt := rfl
@[simp] theorem setCtx_reliability (c : Nat) (x : Ctx) : (setCtx d c x).reliability = d.reliability := rfl
@[simp] theorem setCtx_hostResp (c : Nat) (x : Ctx) : (setCtx d c x).hostResp = d.hostResp := rfl
@[simp] theorem setCtx_hostPoison (c : Nat) (x : Ctx) : (setCtx d c x).hostPoison = d.hostPoison := rfl
@[simp] theorem setCtx_shadow (c : Nat) (x : Ctx) : (setCtx d c x).shadow = d.shadow := rfl
@[simp] theorem setCtx_sent (c : Nat) (x : Ctx) : (setCtx d c x).sent = d.sent := rfl
@[simp] theorem setCtx_leaving (c : Nat) (x : Ctx) : (setCtx d c x).leaving = d.leaving := rfl
@[simp] theorem setCtx_hotPlugs (c : Nat) (x : Ctx) : (setCtx d c x).hotPlugs = d.hotPlugs := rfl

@[simp] theorem setCore_cur (c : Nat) (x : Core) : (setCore d c x).cur = d.cur := rfl
@[simp] theorem setCore_agenda (c : Nat) (x : Core) : (setCore d c x).agenda = d.agenda := rfl
@[simp] theorem setCore_cycle (c : Nat) (x : Core) : (setCore d c x).cycle = d.cycle := rfl
@[simp] theorem setCore_tick (c : Nat) (x : Core) : (setCore d c x).tick = d.tick := rfl
@[simp] theorem setCore_seq (c : Nat) (x : Core) : (setCore d c x).seq = d.seq := rfl
@[simp] theorem setCore_wlog (c : Nat) (x : Core) : (setCore d c x).wlog = d.wlog := rfl
@[simp] theorem setCore_regs (c : Nat) (x : Core) : (setCore d c x).regs = d.regs := rfl
@[simp] theorem setCore_waves (c : Nat) (x : Core) : (setCore d c x).waves = d.waves := rfl
@[simp] theorem setCore_sets (c : Nat) (x : Core) : (setCore d c x).sets = d.sets := rfl
@[simp] theorem setCore_clusters (c : Nat) (x : Core) : (setCore d c x).clusters = d.clusters := rfl
@[simp] theorem setCore_launches (c : Nat) (x : Core) : (setCore d c x).launches = d.launches := rfl
@[simp] theorem setCore_ctxs (c : Nat) (x : Core) : (setCore d c x).ctxs = d.ctxs := rfl
@[simp] theorem setCore_spared (c : Nat) (x : Core) : (setCore d c x).spared = d.spared := rfl
@[simp] theorem setCore_copies (c : Nat) (x : Core) : (setCore d c x).copies = d.copies := rfl
@[simp] theorem setCore_matops (c : Nat) (x : Core) : (setCore d c x).matops = d.matops := rfl
@[simp] theorem setCore_signals (c : Nat) (x : Core) : (setCore d c x).signals = d.signals := rfl
@[simp] theorem setCore_lines (c : Nat) (x : Core) : (setCore d c x).lines = d.lines := rfl
@[simp] theorem setCore_poison (c : Nat) (x : Core) : (setCore d c x).poison = d.poison := rfl
@[simp] theorem setCore_caches (c : Nat) (x : Core) : (setCore d c x).caches = d.caches := rfl
@[simp] theorem setCore_tlb (c : Nat) (x : Core) : (setCore d c x).tlb = d.tlb := rfl
@[simp] theorem setCore_walks (c : Nat) (x : Core) : (setCore d c x).walks = d.walks := rfl
@[simp] theorem setCore_episodes (c : Nat) (x : Core) : (setCore d c x).episodes = d.episodes := rfl
@[simp] theorem setCore_queues (c : Nat) (x : Core) : (setCore d c x).queues = d.queues := rfl
@[simp] theorem setCore_pool (c : Nat) (x : Core) : (setCore d c x).pool = d.pool := rfl
@[simp] theorem setCore_window (c : Nat) (x : Core) : (setCore d c x).window = d.window := rfl
@[simp] theorem setCore_slotSeq (c : Nat) (x : Core) : (setCore d c x).slotSeq = d.slotSeq := rfl
@[simp] theorem setCore_journal (c : Nat) (x : Core) : (setCore d c x).journal = d.journal := rfl
@[simp] theorem setCore_xstamp (c : Nat) (x : Core) : (setCore d c x).xstamp = d.xstamp := rfl
@[simp] theorem setCore_maxWts (c : Nat) (x : Core) : (setCore d c x).maxWts = d.maxWts := rfl
@[simp] theorem setCore_image (c : Nat) (x : Core) : (setCore d c x).image = d.image := rfl
@[simp] theorem setCore_stored (c : Nat) (x : Core) : (setCore d c x).stored = d.stored := rfl
@[simp] theorem setCore_imageCut (c : Nat) (x : Core) : (setCore d c x).imageCut = d.imageCut := rfl
@[simp] theorem setCore_lastingAt (c : Nat) (x : Core) : (setCore d c x).lastingAt = d.lastingAt := rfl
@[simp] theorem setCore_reliability (c : Nat) (x : Core) : (setCore d c x).reliability = d.reliability := rfl
@[simp] theorem setCore_hostResp (c : Nat) (x : Core) : (setCore d c x).hostResp = d.hostResp := rfl
@[simp] theorem setCore_hostPoison (c : Nat) (x : Core) : (setCore d c x).hostPoison = d.hostPoison := rfl
@[simp] theorem setCore_shadow (c : Nat) (x : Core) : (setCore d c x).shadow = d.shadow := rfl
@[simp] theorem setCore_sent (c : Nat) (x : Core) : (setCore d c x).sent = d.sent := rfl
@[simp] theorem setCore_leaving (c : Nat) (x : Core) : (setCore d c x).leaving = d.leaving := rfl
@[simp] theorem setCore_hotPlugs (c : Nat) (x : Core) : (setCore d c x).hotPlugs = d.hotPlugs := rfl

@[simp] theorem setMe_cur (x : Wave) : (setMe d x).cur = d.cur := rfl
@[simp] theorem setMe_agenda (x : Wave) : (setMe d x).agenda = d.agenda := rfl
@[simp] theorem setMe_cycle (x : Wave) : (setMe d x).cycle = d.cycle := rfl
@[simp] theorem setMe_tick (x : Wave) : (setMe d x).tick = d.tick := rfl
@[simp] theorem setMe_seq (x : Wave) : (setMe d x).seq = d.seq := rfl
@[simp] theorem setMe_wlog (x : Wave) : (setMe d x).wlog = d.wlog := rfl
@[simp] theorem setMe_regs (x : Wave) : (setMe d x).regs = d.regs := rfl
@[simp] theorem setMe_sets (x : Wave) : (setMe d x).sets = d.sets := rfl
@[simp] theorem setMe_clusters (x : Wave) : (setMe d x).clusters = d.clusters := rfl
@[simp] theorem setMe_launches (x : Wave) : (setMe d x).launches = d.launches := rfl
@[simp] theorem setMe_ctxs (x : Wave) : (setMe d x).ctxs = d.ctxs := rfl
@[simp] theorem setMe_cores (x : Wave) : (setMe d x).cores = d.cores := rfl
@[simp] theorem setMe_spared (x : Wave) : (setMe d x).spared = d.spared := rfl
@[simp] theorem setMe_copies (x : Wave) : (setMe d x).copies = d.copies := rfl
@[simp] theorem setMe_matops (x : Wave) : (setMe d x).matops = d.matops := rfl
@[simp] theorem setMe_signals (x : Wave) : (setMe d x).signals = d.signals := rfl
@[simp] theorem setMe_lines (x : Wave) : (setMe d x).lines = d.lines := rfl
@[simp] theorem setMe_poison (x : Wave) : (setMe d x).poison = d.poison := rfl
@[simp] theorem setMe_caches (x : Wave) : (setMe d x).caches = d.caches := rfl
@[simp] theorem setMe_tlb (x : Wave) : (setMe d x).tlb = d.tlb := rfl
@[simp] theorem setMe_walks (x : Wave) : (setMe d x).walks = d.walks := rfl
@[simp] theorem setMe_episodes (x : Wave) : (setMe d x).episodes = d.episodes := rfl
@[simp] theorem setMe_queues (x : Wave) : (setMe d x).queues = d.queues := rfl
@[simp] theorem setMe_pool (x : Wave) : (setMe d x).pool = d.pool := rfl
@[simp] theorem setMe_window (x : Wave) : (setMe d x).window = d.window := rfl
@[simp] theorem setMe_slotSeq (x : Wave) : (setMe d x).slotSeq = d.slotSeq := rfl
@[simp] theorem setMe_journal (x : Wave) : (setMe d x).journal = d.journal := rfl
@[simp] theorem setMe_xstamp (x : Wave) : (setMe d x).xstamp = d.xstamp := rfl
@[simp] theorem setMe_maxWts (x : Wave) : (setMe d x).maxWts = d.maxWts := rfl
@[simp] theorem setMe_image (x : Wave) : (setMe d x).image = d.image := rfl
@[simp] theorem setMe_stored (x : Wave) : (setMe d x).stored = d.stored := rfl
@[simp] theorem setMe_imageCut (x : Wave) : (setMe d x).imageCut = d.imageCut := rfl
@[simp] theorem setMe_lastingAt (x : Wave) : (setMe d x).lastingAt = d.lastingAt := rfl
@[simp] theorem setMe_reliability (x : Wave) : (setMe d x).reliability = d.reliability := rfl
@[simp] theorem setMe_hostResp (x : Wave) : (setMe d x).hostResp = d.hostResp := rfl
@[simp] theorem setMe_hostPoison (x : Wave) : (setMe d x).hostPoison = d.hostPoison := rfl
@[simp] theorem setMe_shadow (x : Wave) : (setMe d x).shadow = d.shadow := rfl
@[simp] theorem setMe_sent (x : Wave) : (setMe d x).sent = d.sent := rfl
@[simp] theorem setMe_leaving (x : Wave) : (setMe d x).leaving = d.leaving := rfl
@[simp] theorem setMe_hotPlugs (x : Wave) : (setMe d x).hotPlugs = d.hotPlugs := rfl

@[simp] theorem setMySplit_cur (x : Split) : (setMySplit d x).cur = d.cur := rfl
@[simp] theorem setMySplit_agenda (x : Split) : (setMySplit d x).agenda = d.agenda := rfl
@[simp] theorem setMySplit_cycle (x : Split) : (setMySplit d x).cycle = d.cycle := rfl
@[simp] theorem setMySplit_tick (x : Split) : (setMySplit d x).tick = d.tick := rfl
@[simp] theorem setMySplit_seq (x : Split) : (setMySplit d x).seq = d.seq := rfl
@[simp] theorem setMySplit_wlog (x : Split) : (setMySplit d x).wlog = d.wlog := rfl
@[simp] theorem setMySplit_regs (x : Split) : (setMySplit d x).regs = d.regs := rfl
@[simp] theorem setMySplit_sets (x : Split) : (setMySplit d x).sets = d.sets := rfl
@[simp] theorem setMySplit_clusters (x : Split) : (setMySplit d x).clusters = d.clusters := rfl
@[simp] theorem setMySplit_launches (x : Split) : (setMySplit d x).launches = d.launches := rfl
@[simp] theorem setMySplit_ctxs (x : Split) : (setMySplit d x).ctxs = d.ctxs := rfl
@[simp] theorem setMySplit_cores (x : Split) : (setMySplit d x).cores = d.cores := rfl
@[simp] theorem setMySplit_spared (x : Split) : (setMySplit d x).spared = d.spared := rfl
@[simp] theorem setMySplit_copies (x : Split) : (setMySplit d x).copies = d.copies := rfl
@[simp] theorem setMySplit_matops (x : Split) : (setMySplit d x).matops = d.matops := rfl
@[simp] theorem setMySplit_signals (x : Split) : (setMySplit d x).signals = d.signals := rfl
@[simp] theorem setMySplit_lines (x : Split) : (setMySplit d x).lines = d.lines := rfl
@[simp] theorem setMySplit_poison (x : Split) : (setMySplit d x).poison = d.poison := rfl
@[simp] theorem setMySplit_caches (x : Split) : (setMySplit d x).caches = d.caches := rfl
@[simp] theorem setMySplit_tlb (x : Split) : (setMySplit d x).tlb = d.tlb := rfl
@[simp] theorem setMySplit_walks (x : Split) : (setMySplit d x).walks = d.walks := rfl
@[simp] theorem setMySplit_episodes (x : Split) : (setMySplit d x).episodes = d.episodes := rfl
@[simp] theorem setMySplit_queues (x : Split) : (setMySplit d x).queues = d.queues := rfl
@[simp] theorem setMySplit_pool (x : Split) : (setMySplit d x).pool = d.pool := rfl
@[simp] theorem setMySplit_window (x : Split) : (setMySplit d x).window = d.window := rfl
@[simp] theorem setMySplit_slotSeq (x : Split) : (setMySplit d x).slotSeq = d.slotSeq := rfl
@[simp] theorem setMySplit_journal (x : Split) : (setMySplit d x).journal = d.journal := rfl
@[simp] theorem setMySplit_xstamp (x : Split) : (setMySplit d x).xstamp = d.xstamp := rfl
@[simp] theorem setMySplit_maxWts (x : Split) : (setMySplit d x).maxWts = d.maxWts := rfl
@[simp] theorem setMySplit_image (x : Split) : (setMySplit d x).image = d.image := rfl
@[simp] theorem setMySplit_stored (x : Split) : (setMySplit d x).stored = d.stored := rfl
@[simp] theorem setMySplit_imageCut (x : Split) : (setMySplit d x).imageCut = d.imageCut := rfl
@[simp] theorem setMySplit_lastingAt (x : Split) : (setMySplit d x).lastingAt = d.lastingAt := rfl
@[simp] theorem setMySplit_reliability (x : Split) : (setMySplit d x).reliability = d.reliability := rfl
@[simp] theorem setMySplit_hostResp (x : Split) : (setMySplit d x).hostResp = d.hostResp := rfl
@[simp] theorem setMySplit_hostPoison (x : Split) : (setMySplit d x).hostPoison = d.hostPoison := rfl
@[simp] theorem setMySplit_shadow (x : Split) : (setMySplit d x).shadow = d.shadow := rfl
@[simp] theorem setMySplit_sent (x : Split) : (setMySplit d x).sent = d.sent := rfl
@[simp] theorem setMySplit_leaving (x : Split) : (setMySplit d x).leaving = d.leaving := rfl
@[simp] theorem setMySplit_hotPlugs (x : Split) : (setMySplit d x).hotPlugs = d.hotPlugs := rfl

@[simp] theorem modSplit_cur (w sp : Nat) (f : Split → Split) : (modSplit d w sp f).cur = d.cur := rfl
@[simp] theorem modSplit_agenda (w sp : Nat) (f : Split → Split) : (modSplit d w sp f).agenda = d.agenda := rfl
@[simp] theorem modSplit_cycle (w sp : Nat) (f : Split → Split) : (modSplit d w sp f).cycle = d.cycle := rfl
@[simp] theorem modSplit_tick (w sp : Nat) (f : Split → Split) : (modSplit d w sp f).tick = d.tick := rfl
@[simp] theorem modSplit_seq (w sp : Nat) (f : Split → Split) : (modSplit d w sp f).seq = d.seq := rfl
@[simp] theorem modSplit_wlog (w sp : Nat) (f : Split → Split) : (modSplit d w sp f).wlog = d.wlog := rfl
@[simp] theorem modSplit_regs (w sp : Nat) (f : Split → Split) : (modSplit d w sp f).regs = d.regs := rfl
@[simp] theorem modSplit_sets (w sp : Nat) (f : Split → Split) : (modSplit d w sp f).sets = d.sets := rfl
@[simp] theorem modSplit_clusters (w sp : Nat) (f : Split → Split) : (modSplit d w sp f).clusters = d.clusters := rfl
@[simp] theorem modSplit_launches (w sp : Nat) (f : Split → Split) : (modSplit d w sp f).launches = d.launches := rfl
@[simp] theorem modSplit_ctxs (w sp : Nat) (f : Split → Split) : (modSplit d w sp f).ctxs = d.ctxs := rfl
@[simp] theorem modSplit_cores (w sp : Nat) (f : Split → Split) : (modSplit d w sp f).cores = d.cores := rfl
@[simp] theorem modSplit_spared (w sp : Nat) (f : Split → Split) : (modSplit d w sp f).spared = d.spared := rfl
@[simp] theorem modSplit_copies (w sp : Nat) (f : Split → Split) : (modSplit d w sp f).copies = d.copies := rfl
@[simp] theorem modSplit_matops (w sp : Nat) (f : Split → Split) : (modSplit d w sp f).matops = d.matops := rfl
@[simp] theorem modSplit_signals (w sp : Nat) (f : Split → Split) : (modSplit d w sp f).signals = d.signals := rfl
@[simp] theorem modSplit_lines (w sp : Nat) (f : Split → Split) : (modSplit d w sp f).lines = d.lines := rfl
@[simp] theorem modSplit_poison (w sp : Nat) (f : Split → Split) : (modSplit d w sp f).poison = d.poison := rfl
@[simp] theorem modSplit_caches (w sp : Nat) (f : Split → Split) : (modSplit d w sp f).caches = d.caches := rfl
@[simp] theorem modSplit_tlb (w sp : Nat) (f : Split → Split) : (modSplit d w sp f).tlb = d.tlb := rfl
@[simp] theorem modSplit_walks (w sp : Nat) (f : Split → Split) : (modSplit d w sp f).walks = d.walks := rfl
@[simp] theorem modSplit_episodes (w sp : Nat) (f : Split → Split) : (modSplit d w sp f).episodes = d.episodes := rfl
@[simp] theorem modSplit_queues (w sp : Nat) (f : Split → Split) : (modSplit d w sp f).queues = d.queues := rfl
@[simp] theorem modSplit_pool (w sp : Nat) (f : Split → Split) : (modSplit d w sp f).pool = d.pool := rfl
@[simp] theorem modSplit_window (w sp : Nat) (f : Split → Split) : (modSplit d w sp f).window = d.window := rfl
@[simp] theorem modSplit_slotSeq (w sp : Nat) (f : Split → Split) : (modSplit d w sp f).slotSeq = d.slotSeq := rfl
@[simp] theorem modSplit_journal (w sp : Nat) (f : Split → Split) : (modSplit d w sp f).journal = d.journal := rfl
@[simp] theorem modSplit_xstamp (w sp : Nat) (f : Split → Split) : (modSplit d w sp f).xstamp = d.xstamp := rfl
@[simp] theorem modSplit_maxWts (w sp : Nat) (f : Split → Split) : (modSplit d w sp f).maxWts = d.maxWts := rfl
@[simp] theorem modSplit_image (w sp : Nat) (f : Split → Split) : (modSplit d w sp f).image = d.image := rfl
@[simp] theorem modSplit_stored (w sp : Nat) (f : Split → Split) : (modSplit d w sp f).stored = d.stored := rfl
@[simp] theorem modSplit_imageCut (w sp : Nat) (f : Split → Split) : (modSplit d w sp f).imageCut = d.imageCut := rfl
@[simp] theorem modSplit_lastingAt (w sp : Nat) (f : Split → Split) : (modSplit d w sp f).lastingAt = d.lastingAt := rfl
@[simp] theorem modSplit_reliability (w sp : Nat) (f : Split → Split) : (modSplit d w sp f).reliability = d.reliability := rfl
@[simp] theorem modSplit_hostResp (w sp : Nat) (f : Split → Split) : (modSplit d w sp f).hostResp = d.hostResp := rfl
@[simp] theorem modSplit_hostPoison (w sp : Nat) (f : Split → Split) : (modSplit d w sp f).hostPoison = d.hostPoison := rfl
@[simp] theorem modSplit_shadow (w sp : Nat) (f : Split → Split) : (modSplit d w sp f).shadow = d.shadow := rfl
@[simp] theorem modSplit_sent (w sp : Nat) (f : Split → Split) : (modSplit d w sp f).sent = d.sent := rfl
@[simp] theorem modSplit_leaving (w sp : Nat) (f : Split → Split) : (modSplit d w sp f).leaving = d.leaving := rfl
@[simp] theorem modSplit_hotPlugs (w sp : Nat) (f : Split → Split) : (modSplit d w sp f).hotPlugs = d.hotPlugs := rfl

@[simp] theorem wrBytes_cur (k : Nat) (bs : List Byte) : (wrBytes d k bs).cur = d.cur := rfl
@[simp] theorem wrBytes_agenda (k : Nat) (bs : List Byte) : (wrBytes d k bs).agenda = d.agenda := rfl
@[simp] theorem wrBytes_cycle (k : Nat) (bs : List Byte) : (wrBytes d k bs).cycle = d.cycle := rfl
@[simp] theorem wrBytes_tick (k : Nat) (bs : List Byte) : (wrBytes d k bs).tick = d.tick := rfl
@[simp] theorem wrBytes_seq (k : Nat) (bs : List Byte) : (wrBytes d k bs).seq = d.seq := rfl
@[simp] theorem wrBytes_regs (k : Nat) (bs : List Byte) : (wrBytes d k bs).regs = d.regs := rfl
@[simp] theorem wrBytes_waves (k : Nat) (bs : List Byte) : (wrBytes d k bs).waves = d.waves := rfl
@[simp] theorem wrBytes_sets (k : Nat) (bs : List Byte) : (wrBytes d k bs).sets = d.sets := rfl
@[simp] theorem wrBytes_clusters (k : Nat) (bs : List Byte) : (wrBytes d k bs).clusters = d.clusters := rfl
@[simp] theorem wrBytes_launches (k : Nat) (bs : List Byte) : (wrBytes d k bs).launches = d.launches := rfl
@[simp] theorem wrBytes_ctxs (k : Nat) (bs : List Byte) : (wrBytes d k bs).ctxs = d.ctxs := rfl
@[simp] theorem wrBytes_cores (k : Nat) (bs : List Byte) : (wrBytes d k bs).cores = d.cores := rfl
@[simp] theorem wrBytes_spared (k : Nat) (bs : List Byte) : (wrBytes d k bs).spared = d.spared := rfl
@[simp] theorem wrBytes_copies (k : Nat) (bs : List Byte) : (wrBytes d k bs).copies = d.copies := rfl
@[simp] theorem wrBytes_matops (k : Nat) (bs : List Byte) : (wrBytes d k bs).matops = d.matops := rfl
@[simp] theorem wrBytes_signals (k : Nat) (bs : List Byte) : (wrBytes d k bs).signals = d.signals := rfl
@[simp] theorem wrBytes_lines (k : Nat) (bs : List Byte) : (wrBytes d k bs).lines = d.lines := rfl
@[simp] theorem wrBytes_poison (k : Nat) (bs : List Byte) : (wrBytes d k bs).poison = d.poison := rfl
@[simp] theorem wrBytes_caches (k : Nat) (bs : List Byte) : (wrBytes d k bs).caches = d.caches := rfl
@[simp] theorem wrBytes_tlb (k : Nat) (bs : List Byte) : (wrBytes d k bs).tlb = d.tlb := rfl
@[simp] theorem wrBytes_walks (k : Nat) (bs : List Byte) : (wrBytes d k bs).walks = d.walks := rfl
@[simp] theorem wrBytes_episodes (k : Nat) (bs : List Byte) : (wrBytes d k bs).episodes = d.episodes := rfl
@[simp] theorem wrBytes_queues (k : Nat) (bs : List Byte) : (wrBytes d k bs).queues = d.queues := rfl
@[simp] theorem wrBytes_pool (k : Nat) (bs : List Byte) : (wrBytes d k bs).pool = d.pool := rfl
@[simp] theorem wrBytes_window (k : Nat) (bs : List Byte) : (wrBytes d k bs).window = d.window := rfl
@[simp] theorem wrBytes_slotSeq (k : Nat) (bs : List Byte) : (wrBytes d k bs).slotSeq = d.slotSeq := rfl
@[simp] theorem wrBytes_journal (k : Nat) (bs : List Byte) : (wrBytes d k bs).journal = d.journal := rfl
@[simp] theorem wrBytes_xstamp (k : Nat) (bs : List Byte) : (wrBytes d k bs).xstamp = d.xstamp := rfl
@[simp] theorem wrBytes_maxWts (k : Nat) (bs : List Byte) : (wrBytes d k bs).maxWts = d.maxWts := rfl
@[simp] theorem wrBytes_image (k : Nat) (bs : List Byte) : (wrBytes d k bs).image = d.image := rfl
@[simp] theorem wrBytes_stored (k : Nat) (bs : List Byte) : (wrBytes d k bs).stored = d.stored := rfl
@[simp] theorem wrBytes_imageCut (k : Nat) (bs : List Byte) : (wrBytes d k bs).imageCut = d.imageCut := rfl
@[simp] theorem wrBytes_lastingAt (k : Nat) (bs : List Byte) : (wrBytes d k bs).lastingAt = d.lastingAt := rfl
@[simp] theorem wrBytes_reliability (k : Nat) (bs : List Byte) : (wrBytes d k bs).reliability = d.reliability := rfl
@[simp] theorem wrBytes_hostResp (k : Nat) (bs : List Byte) : (wrBytes d k bs).hostResp = d.hostResp := rfl
@[simp] theorem wrBytes_hostPoison (k : Nat) (bs : List Byte) : (wrBytes d k bs).hostPoison = d.hostPoison := rfl
@[simp] theorem wrBytes_shadow (k : Nat) (bs : List Byte) : (wrBytes d k bs).shadow = d.shadow := rfl
@[simp] theorem wrBytes_sent (k : Nat) (bs : List Byte) : (wrBytes d k bs).sent = d.sent := rfl
@[simp] theorem wrBytes_leaving (k : Nat) (bs : List Byte) : (wrBytes d k bs).leaving = d.leaving := rfl
@[simp] theorem wrBytes_hotPlugs (k : Nat) (bs : List Byte) : (wrBytes d k bs).hotPlugs = d.hotPlugs := rfl

end

/-! ### Elements of lists. -/

theorem nth_nthSet {α : Type} (l : List α) (n k : Nat) (x e : α) :
    nth (nthSet l n x) k e = if k = n ∧ n < l.length then x else nth l k e := by
  unfold nth nthSet
  rw [List.getElem?_set]
  by_cases h : n = k
  · subst h
    by_cases hl : n < l.length <;> simp [hl]
  · simp [h, Ne.symm h]

@[simp] theorem nthSet_length {α : Type} (l : List α) (n : Nat) (x : α) : (nthSet l n x).length = l.length :=
  List.length_set

/-! ### What reads back. -/

variable (d : Dev)

theorem waveOf_setWave (w v : Nat) (x : Wave) :
    waveOf (setWave d w x) v = if v = w ∧ w < d.waves.length then x else waveOf d v := nth_nthSet ..
theorem setOf_setSet (t u : Nat) (x : StageSet) :
    setOf (setSet d t x) u = if u = t ∧ t < d.sets.length then x else setOf d u := nth_nthSet ..
theorem clusterOf_setCluster (c e : Nat) (x : Cluster) :
    clusterOf (setCluster d c x) e = if e = c ∧ c < d.clusters.length then x else clusterOf d e := nth_nthSet ..
theorem launchOf_setLaunch (l k : Nat) (x : Launch) :
    launchOf (setLaunch d l x) k = if k = l ∧ l < d.launches.length then x else launchOf d k := nth_nthSet ..
theorem coreOf_setCore (c e : Nat) (x : Core) :
    coreOf (setCore d c x) e = if e = c ∧ c < d.cores.length then x else coreOf d e := nth_nthSet ..
theorem splitOf_setSplitOf (x : Wave) (i k : Nat) (s : Split) :
    splitOf (setSplitOf x i s) k = if k = i ∧ i < x.splits.length then s else splitOf x k := nth_nthSet ..

@[simp] theorem me_setMe (x : Wave) (h : d.cur.1 < d.waves.length) : me (setMe d x) = x := by
  show waveOf (setWave d d.cur.1 x) d.cur.1 = x
  simp [waveOf_setWave, h]

@[simp] theorem mySplit_setMySplit (s : Split) (h : d.cur.1 < d.waves.length) (hs : d.cur.2 < (me d).splits.length) :
    mySplit (setMySplit d s) = s := by
  show splitOf (me (setMe d _)) d.cur.2 = s
  rw [me_setMe d _ h, splitOf_setSplitOf]
  simp [hs]

@[simp] theorem setMySplit_twice (s t : Split) : setMySplit (setMySplit d s) t = setMySplit d t := by
  by_cases h : d.cur.1 < d.waves.length
  · show setMe (setMe d _) (setSplitOf (me (setMe d _)) d.cur.2 t) = _
    rw [me_setMe d _ h]
    simp [setMe, setWave, nthSet, setSplitOf, setMySplit]
  · have e : ∀ x, d.waves.set d.cur.1 x = d.waves := fun x => List.set_eq_of_length_le (Nat.le_of_not_lt h)
    simp [setMySplit, setMe, setWave, nthSet, e]

theorem lineOf_setLine (n k : Nat) (x : Line) : lineOf (setLine d n x) k = if k = n then x else lineOf d k := look_put ..
theorem ctxOf_setCtx (c e : Nat) (x : Ctx) : ctxOf (setCtx d c x) e = if e = c then x else ctxOf d e := look_put ..

/-! ### Bytes. -/

@[simp] theorem wrBytes_nil (k : Nat) : wrBytes d k [] = d := rfl

end Sys2Proof.Machine
end

