-- ==== Sys2Proof/Laws/Ops.lean ====
section
/-!
SUPPORT. What the shared operations can do, said once each: the lanes of an instruction, its sources and destinations, the
gates of ordering operations and releases, retirement. Proofs cite these and never unfold the operations.
-/
namespace Sys2Proof.Machine

/-- From the success of a sequence, the success of its parts. -/
theorem runAct_bind_inv {α β : Type} {x : Act α} {f : α → Act β} {m : Memory} {d e : Dev} {b : β}
    (h : runAct (x >>= f) m d = .ok (b, e)) : ∃ a c, runAct x m d = .ok (a, c) ∧ runAct (f a) m c = .ok (b, e) := by
  rw [runAct_bind] at h
  split at h
  · exact ⟨_, _, ‹_›, h⟩
  · cases h

theorem runAct_pure_inv {α : Type} {a b : α} {m : Memory} {d e : Dev} (h : runAct (pure a : Act α) m d = .ok (b, e)) :
    a = b ∧ d = e := by
  cases h
  exact ⟨rfl, rfl⟩

theorem need_inv {c : Bool} {t : Trap} {m : Memory} {d e : Dev} {u : Unit} (h : runAct (need c t) m d = .ok (u, e)) :
    c = true ∧ d = e := by
  cases c
  · cases h
  · exact ⟨rfl, (runAct_pure_inv h).2⟩

/-- A check of pending writes changes nothing; with MODE.CHK clear it never traps (R229). -/
theorem checkShort_inv {code : Nat} {lanes : W32} {m : Memory} {d e : Dev} {u : Unit}
    (h : runAct (checkShort code lanes) m d = .ok (u, e)) : d = e := by
  obtain ⟨_, _, h1, h2⟩ := runAct_bind_inv h
  cases h1
  exact (need_inv h2).2

theorem checkShort_free {code : Nat} {lanes : W32} {m : Memory} {d : Dev} (h : (me d).chk = false) :
    runAct (checkShort code lanes) m d = .ok ((), d) := by
  unfold checkShort
  rw [runAct_bind_ok (runAct_dev m d), h]
  rfl

theorem checkShorts_inv {lanes : W32} {m : Memory} {rs : List Nat} {d e : Dev} {u : List Unit}
    (h : runAct (rs.mapM (fun r => checkShort r lanes)) m d = .ok (u, e)) : d = e := by
  induction rs generalizing d e u with
  | nil => exact (runAct_pure_inv h).2
  | cons r rs ih =>
    rw [List.mapM_cons] at h
    obtain ⟨_, _, h1, h2⟩ := runAct_bind_inv h
    obtain ⟨_, _, h3, h4⟩ := runAct_bind_inv h2
    rw [checkShort_inv h1, ih h3]
    exact (runAct_pure_inv h4).2

/-- Choosing the lanes in which an instruction acts changes nothing (R212). -/
theorem acting_inv {h : Head} {exe : Bool} {m : Memory} {d e : Dev} {l : W32} (hr : runAct (acting h exe) m d = .ok (l, e)) :
    d = e := by
  unfold acting at hr
  obtain ⟨_, _, h1, h2⟩ := runAct_bind_inv hr
  cases h1
  dsimp only at h2
  split at h2
  · exact (runAct_pure_inv h2).2
  · obtain ⟨_, _, h3, h4⟩ := runAct_bind_inv h2
    rw [checkShort_inv h3]
    exact (runAct_pure_inv h4).2

/-- What taking a source may change: the head of a queue goes (R219). -/
def Popped (d e : Dev) : Prop :=
  e = d ∨ (∃ r q, (mySplit d).qd = r :: q ∧ e = setMySplit d { mySplit d with qd := q }) ∨
    (∃ r q, (mySplit d).qv = r :: q ∧ e = setMySplit d { mySplit d with qv := q })

theorem popQd_inv {m : Memory} {d e : Dev} {r : Row} (h : runAct popQd m d = .ok (r, e)) :
    ∃ q, (mySplit d).qd = r :: q ∧ e = setMySplit d { mySplit d with qd := q } := by
  unfold popQd at h
  obtain ⟨_, _, h1, h2⟩ := runAct_bind_inv h
  cases h1
  split at h2
  · cases h2
  · next hq =>
    obtain ⟨_, _, h3, h4⟩ := runAct_bind_inv h2
    cases h3
    cases h4
    exact ⟨_, hq, rfl⟩

theorem popQv_inv {m : Memory} {d e : Dev} {r : Row} (h : runAct popQv m d = .ok (r, e)) :
    ∃ q, (mySplit d).qv = r :: q ∧ e = setMySplit d { mySplit d with qv := q } := by
  unfold popQv at h
  obtain ⟨_, _, h1, h2⟩ := runAct_bind_inv h
  cases h1
  split at h2
  · cases h2
  · next hq =>
    obtain ⟨_, _, h3, h4⟩ := runAct_bind_inv h2
    cases h3
    cases h4
    exact ⟨_, hq, rfl⟩

theorem peekQd_inv {m : Memory} {d e : Dev} {r : Row} (h : runAct peekQd m d = .ok (r, e)) : d = e := by
  unfold peekQd at h
  obtain ⟨_, _, h1, h2⟩ := runAct_bind_inv h
  cases h1
  split at h2
  · cases h2
  · exact (runAct_pure_inv h2).2

/-- Everything that taking a source can do (R219): nothing, or one pop. -/
theorem takeSrc_inv {t : Ty} {lanes : W32} {code : BitVec 8} {m : Memory} {d e : Dev} {src : Src}
    (h : runAct (takeSrc t lanes code) m d = .ok (src, e)) : Popped d e := by
  unfold takeSrc at h
  split at h
  · obtain ⟨_, _, h1, h2⟩ := runAct_bind_inv h
    obtain ⟨q, hq, he⟩ := popQd_inv h1
    cases h2
    exact .inr (.inl ⟨_, q, hq, he⟩)
  · obtain ⟨_, _, h1, h2⟩ := runAct_bind_inv h
    cases h2
    exact .inl (peekQd_inv h1).symm
  · obtain ⟨_, _, h1, h2⟩ := runAct_bind_inv h
    obtain ⟨q, hq, he⟩ := popQv_inv h1
    cases h2
    exact .inr (.inr ⟨_, q, hq, he⟩)
  · exact .inl (runAct_pure_inv h).2.symm
  · exact .inl (runAct_pure_inv h).2.symm
  · exact .inl (runAct_pure_inv h).2.symm
  all_goals
    obtain ⟨_, _, h1, h2⟩ := runAct_bind_inv h
    cases h2
    exact .inl (checkShorts_inv h1).symm

/-- Taking a predicate changes nothing (R220). -/
theorem takePred_inv {exe : Bool} {lanes : W32} {code : BitVec 8} {m : Memory} {d e : Dev} {p : W32}
    (h : runAct (takePred exe lanes code) m d = .ok (p, e)) : d = e := by
  unfold takePred at h
  split at h
  · obtain ⟨_, _, h1, h2⟩ := runAct_bind_inv h
    obtain ⟨_, _, h3, h4⟩ := runAct_bind_inv h2
    cases h3
    rw [checkShort_inv h1]
    exact (runAct_pure_inv h4).2
  · exact (runAct_pure_inv h).2

/-- Everything that an access result can do (R219): one register, one entry of `qd`, or nothing. -/
theorem putA_cases {lat : Nat} {mask : W32} {code : BitVec 8} {f : Nat → W64} {m : Memory} {d e : Dev} {u : Unit}
    (h : runAct (putA lat mask code f) m d = .ok (u, e)) :
    e = d ∨ (∃ g, e = setReg d code.toNat lat true mask g) ∨
      e = setMySplit d { mySplit d with qd := (mySplit d).qd ++ [rowOf mask f] } := by
  unfold putA at h
  split at h
  · cases h
    exact .inr (.inl ⟨_, rfl⟩)
  · cases h
    exact .inr (.inl ⟨_, rfl⟩)
  · unfold pushQd at h
    obtain ⟨_, _, h1, h2⟩ := runAct_bind_inv h
    cases h1
    obtain ⟨_, _, h3, h4⟩ := runAct_bind_inv h2
    obtain ⟨_, rfl⟩ := need_inv h3
    cases h4
    exact .inr (.inr rfl)
  · exact .inl (runAct_pure_inv h).2.symm

/-- Retirement in the middle of a block never traps (R158, R210). -/
theorem retireWord_next {stl : Nat} {acc exe : Bool} {m : Memory} {d : Dev} (h : atLast (mySplit d) = false) :
    runAct (retireWord stl acc exe) m d = .ok ((), let e := countWord d stl acc exe
      setMySplit e { mySplit e with pc := (mySplit d).pc + 8 }) := by
  unfold retireWord
  rw [runAct_bind_ok (runAct_dev m d)]
  dsimp only
  rw [if_neg (by rw [h]; exact Bool.false_ne_true)]
  rfl

/-- Outside fixed-order mode an ordering operation performs at once (R160). -/
theorem ordering_free {body : Act Verdict} {m : Memory} {d : Dev} (h : (me d).fo = false) :
    runAct (ordering body) m d = runAct body m d := by
  unfold ordering
  rw [runAct_bind_ok (runAct_dev m d), if_neg (by simp [mayOrder, h]), h]
  rfl

/-- A read after the stores of a step (R8). -/
theorem rdByte_wrBytes (m : Memory) (d : Dev) (k a : Nat) (bs : List Byte) (h : ¬ (k ≤ a ∧ a < k + bs.length)) :
    rdByte m (wrBytes d k bs) a = rdByte m d a := by
  have gen : ∀ (bs : List Byte) (k : Nat) (log : List Host.Cell), ¬ (k ≤ a ∧ a < k + bs.length) →
      ((bs.foldl (fun (p : Nat × List Host.Cell) b => (p.1 + 1, (p.1, b) :: p.2)) (k, log)).2).find? (fun c => c.1 == a) =
        log.find? (fun c => c.1 == a) := by
    intro bs
    induction bs with
    | nil => intro k log _; rfl
    | cons b r ih =>
      intro k log hk
      simp only [List.length_cons] at hk
      rw [List.foldl_cons, ih (k + 1) _ (by omega), List.find?_cons]
      have : (k == a) = false := by simp; omega
      simp [this]
  unfold rdByte wrBytes
  rw [gen bs k d.wlog h]

end Sys2Proof.Machine
end

