-- ==== Sys2Proof/Laws/Claims.lean ====
section
/-!
SUPPORT. From a meaning's body to the words of the statements: each lemma takes what the body of an instruction answers and
gives how the instruction ends.
-/
namespace Sys2Proof.Machine
open Sys2Proof.Claims

section
variable {i : Instr} {h : Head} {acc exe : Bool} {codes : List (BitVec 8)} {body : Act Verdict} {s : State} {d : Dev}

theorem retires_of (hx : exec i s = .next (runSplit (framed i h acc exe codes body) s)) (ha : Admitted i codes s)
    (hb : runAct body s.mem s.dev = .ok (.retire, d)) : Retires i h acc exe s d := by
  intro e he
  obtain ⟨h1, h2, h3⟩ := ha
  rw [hx]
  congr 1
  apply runSplit_ok
  rw [framed_body (by simp [h1, h2]) h3 hb]
  exact he

theorem becomes_of (hx : exec i s = .next (runSplit (framed i h acc exe codes body) s)) (ha : Admitted i codes s)
    (hb : runAct body s.mem s.dev = .ok (.moved, d)) : Becomes i s d := by
  obtain ⟨h1, h2, h3⟩ := ha
  show exec i s = _
  rw [hx]
  congr 1
  apply runSplit_ok
  rw [framed_body (by simp [h1, h2]) h3 hb]

/-- A word that stays gives its pops and pushes back. -/
theorem stays_of (hx : exec i s = .next (runSplit (framed i h acc exe codes body) s)) (ha : Admitted i codes s)
    (hb : runAct body s.mem s.dev = .ok (.stay, d)) : Stays i s d := by
  intro e he
  obtain ⟨h1, h2, h3⟩ := ha
  rw [hx]
  congr 1
  apply runSplit_ok
  rw [framed_body (by simp [h1, h2]) h3 hb]
  exact runAct_bind_ok he

/-- A word that stays and is not the last of its block answers the device itself. -/
theorem stays_becomes (hs : Stays i s d) (hl : atLast (mySplit s.dev) = false) : Becomes i s (setMySplit d { mySplit d with
    qd := (mySplit s.dev).qd, qv := (mySplit s.dev).qv, qb := (mySplit s.dev).qb }) :=
  hs d (by
    split
    · rfl
    · exact checkBegun_unbegun (.inl hl))

theorem traps_of {t : Trap} (hx : exec i s = .next (runSplit (framed i h acc exe codes body) s)) (ha : Admitted i codes s)
    (hb : runAct body s.mem s.dev = .error t) : Traps i s t := by
  obtain ⟨h1, h2, h3⟩ := ha
  show exec i s = _
  rw [hx]
  congr 1
  apply runSplit_error
  rw [framed_trap (by simp [h1, h2]) h3 hb]

/-- A word whose fields fail raises ILLOP before anything else (R231). -/
theorem illegal_of (hx : exec i s = .next (runSplit (framed i h acc exe codes body) s))
    (hf : (fieldsOk i && inFootprint (me s.dev) codes) = false) : Traps i s (illop i) := by
  show exec i s = _
  rw [hx]
  congr 1
  apply runSplit_error
  rw [framed_illop hf]

end

theorem laneResult_of {i : Instr} {h : Head} {f : FmtX} {codes : List (BitVec 8)} {ta tb tc : Option Ty} {td : Ty} {lat : Nat}
    {fn : LaneEnv → W64 → W64 → W64 → LaneRes} (hx : ∀ s, exec i s = runX i h codes (laneOp h f ta tb tc td lat fn) s) :
    LaneResult i h f codes ta tb tc td lat fn := by
  intro s q d0 d1 ha ht hp
  refine retires_of (hx s) ha ?_
  unfold laneOp
  rw [runAct_bind_ok ht, runAct_bind_ok (runAct_dev _ _), runAct_bind_ok (runAct_upd _ _ _), runAct_bind_ok hp]
  rfl

theorem plainResult_of {i : Instr} {h : Head} {f : FmtX} {n lat : Nat} {fn fn' : W64 → W64 → W64 → W64}
    (hx : ∀ s, exec i s = runX i h (codesX f) (pureOp h f n lat (fun _ => fn')) s) (he : fn' = fn) :
    PlainResult i h f n lat fn := by
  subst he
  have : (if ty f.ty = .i64 ∨ ty f.ty = .n64 then lat + 2 else lat) = latX lat [ty f.ty] := by simp [latX]
  unfold PlainResult
  simp only [this]
  exact laneResult_of hx

/-- A device step answers what its function answers. -/
theorem event_of {i : Instr} {f : Memory → Dev → Dev} {s : State} {d : Dev} (hx : exec i s = runEvent f s)
    (h : f s.mem s.dev = d) : Becomes i s d := by
  show exec i s = _
  rw [hx, ← h]
  rfl

theorem next_finish {m : Memory} {a b : Dev} (h : a = b) :
    (Host.Outcome.next (finish m a) : Host.Outcome State Fault Refusal) = .next (finish m b) := by rw [h]

/-- Past its gate an ordering operation is its body (R160, R161). -/
theorem ordered_of {m : Memory} {d e : Dev} (h : Claims.Ordered m d e) (body : Act Verdict) :
    runAct (ordering body) m d = runAct body m e := by
  unfold ordering
  rw [runAct_bind_ok (runAct_dev _ _)]
  rcases h with ⟨h1, rfl⟩ | ⟨h1, h2, h3, rfl⟩
  · rw [if_neg (by simp [mayOrder, h1]), h1]
    rfl
  · rw [if_neg (by simp [mayOrder, h1, h2, h3]), h1]
    rfl

/-- A release whose writes have been acknowledged is its body (R101, R124). -/
theorem released_of {m : Memory} {d e : Dev} {sc : Scope} (h : Claims.Released sc d e) (body : Act Verdict) :
    runAct (releasing sc body) m d = runAct body m e := by
  unfold releasing
  obtain ⟨h1, rfl⟩ := h
  rw [runAct_bind_ok (runAct_dev _ _), if_neg (by simp [postsOpen, h1])]
  rfl

/-- An instruction that orders under a condition. -/
theorem orderedIf_of {p : Prop} [Decidable p] {m : Memory} {d e : Dev} {body : Act Verdict}
    (h : if p then Claims.Ordered m d e else e = d) :
    runAct (if p then ordering body else body) m d = runAct body m e := by
  split at h
  · rw [if_pos ‹_›]
    exact ordered_of h body
  · rw [if_neg ‹_›, h]

/-- What runs, runs under the lane's name. -/
theorem asLane_ok {α : Type} {l : Nat} {x : Act α} {m : Memory} {d e : Dev} {a : α} (h : runAct x m d = .ok (a, e)) :
    runAct (asLane l x) m d = .ok (a, e) := by
  have h' : x m d = .ok (a, e) := h
  simp [runAct, asLane, h']

/-- What a change of the device answers. -/
theorem runAct_act_bind {α β : Type} (f : Memory → Dev → α × Dev) (g : α → Act β) (m : Memory) (d : Dev) :
    runAct (act f >>= g) m d = runAct (g (f m d).1) m (f m d).2 := rfl
@[simp] theorem runAct_actU (f : Memory → Dev → Dev) (m : Memory) (d : Dev) : runAct (actU f) m d = .ok ((), f m d) := rfl

/-- A trap of a lane's checks names the lane (R198); any other stands as it is. -/
theorem asLane_error {α : Type} {l : Nat} {x : Act α} {m : Memory} {d : Dev} {t : Trap} (h : runAct x m d = .error t) :
    runAct (asLane l x) m d = .error (if laneCauses.contains t.cause && t.info2 == 0 then { t with info2 := 1#32 <<< l } else t) := by
  have h' : x m d = .error t := h
  simp [runAct, asLane, h']

/-- A trap that is none of a lane's checks stands as it is. -/
theorem asLane_other {α : Type} {l : Nat} {x : Act α} {m : Memory} {d : Dev} {t : Trap} (h : runAct x m d = .error t)
    (hc : laneCauses.contains t.cause = false) : runAct (asLane l x) m d = .error t := by
  rw [asLane_error h, hc]
  rfl

theorem asLane_bind {α β : Type} {l : Nat} {x : Act α} {f : α → Act β} {m : Memory} {d e : Dev} {a : α}
    (h : runAct x m d = .ok (a, e)) : runAct (asLane l (x >>= f)) m d = runAct (asLane l (f a)) m e := by
  have h1 : (x >>= f) m d = f a m e := runAct_bind_ok h
  simp [runAct, asLane, h1]

/-- An instruction that has room for what it pushes goes on (R173). -/
theorem room_of {code : BitVec 8} {m : Memory} {d : Dev} (h : Claims.Room code d) : runAct (roomFor code 1) m d = .ok ((), d) := by
  unfold roomFor
  rw [runAct_bind_ok (runAct_dev _ _)]
  split
  · rw [show decide ((mySplit d).qd.length + 1 ≤ 16) = true by simpa using h ‹_›]
    rfl
  · rfl

/-- A release with writes that have not been acknowledged waits for them (R115, R124). -/
theorem unreleased_of {m : Memory} {d : Dev} {sc : Scope} (h : (me d).posted ≠ []) (body : Act Verdict) :
    runAct (releasing sc body) m d = .ok (.stay, setMySplit d { mySplit d with park := .ack }) := by
  unfold releasing
  rw [runAct_bind_ok (runAct_dev _ _), if_pos (by simpa [postsOpen] using h)]
  rfl

/-- An instruction that acts for its wave runs its body at the lowest lane (R134, R262). -/
theorem waveOp_of {h : Head} {f : W32 → Act (W32 → Nat → Act Verdict)} {g : W32 → Act Unit} {m : Memory} {d d0 d1 : Dev}
    {lanes : W32} {l : Nat} {b : W32 → Nat → Act Verdict} (hm : Runs (acting h false) m d lanes d0)
    (hf : runAct (f lanes) m d0 = .ok (b, d1)) (hl : lowLane lanes = some l) :
    runAct (waveOp h f g) m d = runAct (asLane l (b lanes l)) m d1 := by
  unfold waveOp
  rw [runAct_bind_ok hm, runAct_bind_ok hf, hl]

/-- With no active lane it only pops and pushes (R134, R212). -/
theorem waveOp_none {h : Head} {f : W32 → Act (W32 → Nat → Act Verdict)} {g : W32 → Act Unit} {m : Memory} {d d0 d1 d2 : Dev}
    {lanes : W32} {b : W32 → Nat → Act Verdict} (hm : Runs (acting h false) m d lanes d0)
    (hf : runAct (f lanes) m d0 = .ok (b, d1)) (hl : lowLane lanes = none) (hg : Runs (g lanes) m d1 () d2) :
    runAct (waveOp h f g) m d = .ok (.retire, d2) := by
  unfold waveOp
  rw [runAct_bind_ok hm, runAct_bind_ok hf, hl]
  exact runAct_bind_ok hg

/-- A lock instruction runs its body on its line (R130, R134). -/
theorem lockOp_of {h : Head} {f : FmtM} {body : W32 → Nat → Nat → Act Verdict} {m : Memory} {d d0 d1 d2 : Dev} {lanes : W32}
    {l k : Nat} {ea : Nat → W64} (hm : Runs (acting h false) m d lanes d0) (he : Runs (laneAddr f.base f.off lanes) m d0 ea d1)
    (hl : lowLane lanes = some l) (hk : Runs (lockAddr (ea l).toNat) m d1 k d2) :
    runAct (lockOp h f body) m d = runAct (asLane l (body lanes (ea l).toNat (k / 64))) m d2 := by
  unfold lockOp
  refine (waveOp_of hm ((runAct_bind_ok he).trans rfl) hl).trans ?_
  exact asLane_bind hk

end Sys2Proof.Machine
end

