-- ==== Sys2Proof/Laws/Encoding.lean ====
section
/-!
SUPPORT. The encoding tables of spec/13_encoding.md: the fields of a word and of each format come back as they were
packed (R211, R213).
-/
namespace Sys2Proof

/-- A field that lies inside a concatenation is the part that stands there. -/
theorem field_eq {n m k st : Nat} {w : BitVec k} {e : k = n} {x : BitVec m}
    (hx : ∀ i, i < m → w.getLsbD (st + i) = x.getLsbD i) : (BitVec.cast e w).extractLsb' st m = x := by
  apply BitVec.eq_of_getLsbD_eq
  intro i hi
  rw [BitVec.getLsbD_extractLsb', BitVec.getLsbD_cast, hx i hi]
  simp [hi]

theorem FmtX.ofBits_toBits (f : FmtX) : FmtX.ofBits f.toBits = f := by
  simp only [FmtX.ofBits, FmtX.toBits]
  obtain ⟨x0, x1, x2, x3, x4, x5⟩ := f
  simp only [FmtX.mk.injEq]
  refine ⟨?_, ?_, ?_, ?_, ?_, ?_⟩ <;>
  (refine field_eq fun i hi => ?_
   simp only [BitVec.getLsbD_append]
   repeat' split
   all_goals first | (exfalso; omega) | (congr 1; omega))

theorem FmtI.ofBits_toBits (f : FmtI) : FmtI.ofBits f.toBits = f := by
  simp only [FmtI.ofBits, FmtI.toBits]
  obtain ⟨x0, x1, x2, x3⟩ := f
  simp only [FmtI.mk.injEq]
  refine ⟨?_, ?_, ?_, ?_⟩ <;>
  (refine field_eq fun i hi => ?_
   simp only [BitVec.getLsbD_append]
   repeat' split
   all_goals first | (exfalso; omega) | (congr 1; omega))

theorem FmtK.ofBits_toBits (f : FmtK) : FmtK.ofBits f.toBits = f := by
  simp only [FmtK.ofBits, FmtK.toBits]
  obtain ⟨x0, x1, x2⟩ := f
  simp only [FmtK.mk.injEq]
  refine ⟨?_, ?_, ?_⟩ <;>
  (refine field_eq fun i hi => ?_
   simp only [BitVec.getLsbD_append]
   repeat' split
   all_goals first | (exfalso; omega) | (congr 1; omega))

theorem FmtM.ofBits_toBits (f : FmtM) : FmtM.ofBits f.toBits = f := by
  simp only [FmtM.ofBits, FmtM.toBits]
  obtain ⟨x0, x1, x2, x3, x4, x5, x6⟩ := f
  simp only [FmtM.mk.injEq]
  refine ⟨?_, ?_, ?_, ?_, ?_, ?_, ?_⟩ <;>
  (refine field_eq fun i hi => ?_
   simp only [BitVec.getLsbD_append]
   repeat' split
   all_goals first | (exfalso; omega) | (congr 1; omega))

theorem FmtB.ofBits_toBits (f : FmtB) : FmtB.ofBits f.toBits = f := by
  simp only [FmtB.ofBits, FmtB.toBits]
  obtain ⟨x0, x1, x2⟩ := f
  simp only [FmtB.mk.injEq]
  refine ⟨?_, ?_, ?_⟩ <;>
  (refine field_eq fun i hi => ?_
   simp only [BitVec.getLsbD_append]
   repeat' split
   all_goals first | (exfalso; omega) | (congr 1; omega))

theorem FmtT.ofBits_toBits (f : FmtT) : FmtT.ofBits f.toBits = f := by
  simp only [FmtT.ofBits, FmtT.toBits]
  obtain ⟨x0, x1, x2, x3, x4, x5, x6⟩ := f
  simp only [FmtT.mk.injEq]
  refine ⟨?_, ?_, ?_, ?_, ?_, ?_, ?_⟩ <;>
  (refine field_eq fun i hi => ?_
   simp only [BitVec.getLsbD_append]
   repeat' split
   all_goals first | (exfalso; omega) | (congr 1; omega))

theorem FmtE.ofBits_toBits (f : FmtE) : FmtE.ofBits f.toBits = f := by
  simp only [FmtE.ofBits, FmtE.toBits]
  obtain ⟨x0, x1, x2, x3, x4⟩ := f
  simp only [FmtE.mk.injEq]
  refine ⟨?_, ?_, ?_, ?_, ?_⟩ <;>
  (refine field_eq fun i hi => ?_
   simp only [BitVec.getLsbD_append]
   repeat' split
   all_goals first | (exfalso; omega) | (congr 1; omega))

theorem FmtS.ofBits_toBits (f : FmtS) : FmtS.ofBits f.toBits = f := by
  simp only [FmtS.ofBits, FmtS.toBits]
  obtain ⟨x0, x1, x2⟩ := f
  simp only [FmtS.mk.injEq]
  refine ⟨?_, ?_, ?_⟩ <;>
  (refine field_eq fun i hi => ?_
   simp only [BitVec.getLsbD_append]
   repeat' split
   all_goals first | (exfalso; omega) | (congr 1; omega))

theorem wordOpc_packWord (opc fn : BitVec 6) (h : Head) (b : BitVec 44) : wordOpc (packWord opc fn h b) = opc := by
  simp only [wordOpc, packWord]
  (refine field_eq fun i hi => ?_
   simp only [BitVec.getLsbD_append]
   repeat' split
   all_goals first | (exfalso; omega) | (congr 1; omega))

theorem wordFn_packWord (opc fn : BitVec 6) (h : Head) (b : BitVec 44) : wordFn (packWord opc fn h b) = fn := by
  simp only [wordFn, packWord]
  (refine field_eq fun i hi => ?_
   simp only [BitVec.getLsbD_append]
   repeat' split
   all_goals first | (exfalso; omega) | (congr 1; omega))

theorem wordBody_packWord (opc fn : BitVec 6) (h : Head) (b : BitVec 44) : wordBody (packWord opc fn h b) = b := by
  simp only [wordBody, packWord]
  (refine field_eq fun i hi => ?_
   simp only [BitVec.getLsbD_append]
   repeat' split
   all_goals first | (exfalso; omega) | (congr 1; omega))

theorem wordHead_packWord (opc fn : BitVec 6) (h : Head) (b : BitVec 44) : wordHead (packWord opc fn h b) = h := by
  simp only [wordHead, packWord]
  obtain ⟨x0, x1, x2⟩ := h
  simp only [Head.mk.injEq]
  refine ⟨?_, ?_, ?_⟩ <;>
  (refine field_eq fun i hi => ?_
   simp only [BitVec.getLsbD_append]
   repeat' split
   all_goals first | (exfalso; omega) | (congr 1; omega))

/-- The decoder on a packed word sees the fields that were packed. -/
theorem decode_packWord (opc fn : BitVec 6) (h : Head) (b : BitVec 44) {i : Instr}
    (hi : decodeFields opc fn h b = some i) : decode (packWord opc fn h b) = i := by
  unfold decode decodeListed
  rw [wordOpc_packWord, wordFn_packWord, wordHead_packWord, wordBody_packWord, hi]
  rfl

end Sys2Proof
end

