-- ==== Sys2Proof/Laws/PerInstr.lean ====
section
/-!
SUPPORT. Statements made instruction by instruction. `RoundTrip`: the word of a well-formed instruction decodes to that
instruction, with every operand as it was (spec/13_encoding.md R211, R213, R230).
-/
namespace Sys2Proof.Laws.RoundTrip

/-- Decoding the word of a well-formed instruction gives it back. -/
def Statement (i : Instr) : Prop := i.wellFormed = true → ∀ w, encode i = some w → decode w = i

/-- A device step has no word. -/
theorem noWord {i : Instr} (h : encode i = none) : Statement i := by
  intro _ w hw
  rw [h] at hw
  cases hw

/-- A word packed from fields that decode to the instruction. -/
theorem ofFields {i : Instr} {opc fn : BitVec 6} {h : Head} {b : BitVec 44}
    (he : encode i = some (packWord opc fn h b)) (hd : decodeFields opc fn h b = some i) : Statement i := by
  intro _ w hw
  rw [he] at hw
  cases hw
  exact decode_packWord opc fn h b hd

theorem nop (h : Head) (bits : BitVec 44) : Statement (.nop h bits) := ofFields rfl rfl
theorem hint (h : Head) (f : FmtS) : Statement (.hint h f) :=
  ofFields rfl (congrArg (some <| Instr.hint h ·) f.ofBits_toBits)
/-- The minors 32 to 63, as the encoder builds them from their low five bits. -/
theorem hintFn : ∀ fn : BitVec 5, let c : BitVec 6 := BitVec.cast (n := 1 + 5) (m := 6) rfl (1#1 ++ fn)
    c.toNat = c.toNat - 2 + 2 ∧ c.msb = true ∧ c.extractLsb' 0 5 = fn := by decide

theorem hintSpace (h : Head) (fn : BitVec 5) (bits : BitVec 44) : Statement (.hintSpace h fn bits) := by
  refine ofFields rfl ?_
  obtain ⟨h1, h2, h3⟩ := hintFn fn
  show decode00 _ h bits = _
  unfold decode00
  rw [h1]
  simp only [h2, h3, if_true]

theorem unassignedEncoding (w : BitVec 64) : Statement (.unassignedEncoding w) := by
  intro hw
  cases hw
theorem add (h : Head) (f : FmtX) : Statement (.add h f) :=
  ofFields rfl (congrArg (some <| Instr.add h ·) f.ofBits_toBits)
theorem sub (h : Head) (f : FmtX) : Statement (.sub h f) :=
  ofFields rfl (congrArg (some <| Instr.sub h ·) f.ofBits_toBits)
theorem mul (h : Head) (f : FmtX) : Statement (.mul h f) :=
  ofFields rfl (congrArg (some <| Instr.mul h ·) f.ofBits_toBits)
theorem mulhi (h : Head) (f : FmtX) : Statement (.mulhi h f) :=
  ofFields rfl (congrArg (some <| Instr.mulhi h ·) f.ofBits_toBits)
theorem mad (h : Head) (f : FmtX) : Statement (.mad h f) :=
  ofFields rfl (congrArg (some <| Instr.mad h ·) f.ofBits_toBits)
theorem madhi (h : Head) (f : FmtX) : Statement (.madhi h f) :=
  ofFields rfl (congrArg (some <| Instr.madhi h ·) f.ofBits_toBits)
theorem min (h : Head) (f : FmtX) : Statement (.min h f) :=
  ofFields rfl (congrArg (some <| Instr.min h ·) f.ofBits_toBits)
theorem max (h : Head) (f : FmtX) : Statement (.max h f) :=
  ofFields rfl (congrArg (some <| Instr.max h ·) f.ofBits_toBits)
theorem abs (h : Head) (f : FmtX) : Statement (.abs h f) :=
  ofFields rfl (congrArg (some <| Instr.abs h ·) f.ofBits_toBits)
theorem neg (h : Head) (f : FmtX) : Statement (.neg h f) :=
  ofFields rfl (congrArg (some <| Instr.neg h ·) f.ofBits_toBits)
theorem clamp (h : Head) (f : FmtX) : Statement (.clamp h f) :=
  ofFields rfl (congrArg (some <| Instr.clamp h ·) f.ofBits_toBits)
theorem sad4 (h : Head) (f : FmtX) : Statement (.sad4 h f) :=
  ofFields rfl (congrArg (some <| Instr.sad4 h ·) f.ofBits_toBits)
theorem and (h : Head) (f : FmtX) : Statement (.and h f) :=
  ofFields rfl (congrArg (some <| Instr.and h ·) f.ofBits_toBits)
theorem or (h : Head) (f : FmtX) : Statement (.or h f) :=
  ofFields rfl (congrArg (some <| Instr.or h ·) f.ofBits_toBits)
theorem xor (h : Head) (f : FmtX) : Statement (.xor h f) :=
  ofFields rfl (congrArg (some <| Instr.xor h ·) f.ofBits_toBits)
theorem andn (h : Head) (f : FmtX) : Statement (.andn h f) :=
  ofFields rfl (congrArg (some <| Instr.andn h ·) f.ofBits_toBits)
theorem not (h : Head) (f : FmtX) : Statement (.not h f) :=
  ofFields rfl (congrArg (some <| Instr.not h ·) f.ofBits_toBits)
theorem shl (h : Head) (f : FmtX) : Statement (.shl h f) :=
  ofFields rfl (congrArg (some <| Instr.shl h ·) f.ofBits_toBits)
theorem shr (h : Head) (f : FmtX) : Statement (.shr h f) :=
  ofFields rfl (congrArg (some <| Instr.shr h ·) f.ofBits_toBits)
theorem sar (h : Head) (f : FmtX) : Statement (.sar h f) :=
  ofFields rfl (congrArg (some <| Instr.sar h ·) f.ofBits_toBits)
theorem rotl (h : Head) (f : FmtX) : Statement (.rotl h f) :=
  ofFields rfl (congrArg (some <| Instr.rotl h ·) f.ofBits_toBits)
theorem bfx (h : Head) (f : FmtI) : Statement (.bfx h f) :=
  ofFields rfl (congrArg (some <| Instr.bfx h ·) f.ofBits_toBits)
theorem bfi (h : Head) (f : FmtI) : Statement (.bfi h f) :=
  ofFields rfl (congrArg (some <| Instr.bfi h ·) f.ofBits_toBits)
theorem popc (h : Head) (f : FmtX) : Statement (.popc h f) :=
  ofFields rfl (congrArg (some <| Instr.popc h ·) f.ofBits_toBits)
theorem clz (h : Head) (f : FmtX) : Statement (.clz h f) :=
  ofFields rfl (congrArg (some <| Instr.clz h ·) f.ofBits_toBits)
theorem ctz (h : Head) (f : FmtX) : Statement (.ctz h f) :=
  ofFields rfl (congrArg (some <| Instr.ctz h ·) f.ofBits_toBits)
theorem brev (h : Head) (f : FmtX) : Statement (.brev h f) :=
  ofFields rfl (congrArg (some <| Instr.brev h ·) f.ofBits_toBits)
theorem lsel (h : Head) (f : FmtX) : Statement (.lsel h f) :=
  ofFields rfl (congrArg (some <| Instr.lsel h ·) f.ofBits_toBits)
theorem cmp (h : Head) (f : FmtX) : Statement (.cmp h f) :=
  ofFields rfl (congrArg (some <| Instr.cmp h ·) f.ofBits_toBits)
theorem sel (h : Head) (f : FmtX) : Statement (.sel h f) :=
  ofFields rfl (congrArg (some <| Instr.sel h ·) f.ofBits_toBits)
theorem setp (h : Head) (f : FmtX) : Statement (.setp h f) :=
  ofFields rfl (congrArg (some <| Instr.setp h ·) f.ofBits_toBits)
theorem getp (h : Head) (f : FmtX) : Statement (.getp h f) :=
  ofFields rfl (congrArg (some <| Instr.getp h ·) f.ofBits_toBits)
theorem pand (h : Head) (f : FmtX) : Statement (.pand h f) :=
  ofFields rfl (congrArg (some <| Instr.pand h ·) f.ofBits_toBits)
theorem por (h : Head) (f : FmtX) : Statement (.por h f) :=
  ofFields rfl (congrArg (some <| Instr.por h ·) f.ofBits_toBits)
theorem pxor (h : Head) (f : FmtX) : Statement (.pxor h f) :=
  ofFields rfl (congrArg (some <| Instr.pxor h ·) f.ofBits_toBits)
theorem pnot (h : Head) (f : FmtX) : Statement (.pnot h f) :=
  ofFields rfl (congrArg (some <| Instr.pnot h ·) f.ofBits_toBits)
theorem fadd (h : Head) (f : FmtX) : Statement (.fadd h f) :=
  ofFields rfl (congrArg (some <| Instr.fadd h ·) f.ofBits_toBits)
theorem fsub (h : Head) (f : FmtX) : Statement (.fsub h f) :=
  ofFields rfl (congrArg (some <| Instr.fsub h ·) f.ofBits_toBits)
theorem fmul (h : Head) (f : FmtX) : Statement (.fmul h f) :=
  ofFields rfl (congrArg (some <| Instr.fmul h ·) f.ofBits_toBits)
theorem ffma (h : Head) (f : FmtX) : Statement (.ffma h f) :=
  ofFields rfl (congrArg (some <| Instr.ffma h ·) f.ofBits_toBits)
theorem fdiv (h : Head) (f : FmtX) : Statement (.fdiv h f) :=
  ofFields rfl (congrArg (some <| Instr.fdiv h ·) f.ofBits_toBits)
theorem fsqrt (h : Head) (f : FmtX) : Statement (.fsqrt h f) :=
  ofFields rfl (congrArg (some <| Instr.fsqrt h ·) f.ofBits_toBits)
theorem frcp (h : Head) (f : FmtX) : Statement (.frcp h f) :=
  ofFields rfl (congrArg (some <| Instr.frcp h ·) f.ofBits_toBits)
theorem frsq (h : Head) (f : FmtX) : Statement (.frsq h f) :=
  ofFields rfl (congrArg (some <| Instr.frsq h ·) f.ofBits_toBits)
theorem fmin (h : Head) (f : FmtX) : Statement (.fmin h f) :=
  ofFields rfl (congrArg (some <| Instr.fmin h ·) f.ofBits_toBits)
theorem fmax (h : Head) (f : FmtX) : Statement (.fmax h f) :=
  ofFields rfl (congrArg (some <| Instr.fmax h ·) f.ofBits_toBits)
theorem fclamp (h : Head) (f : FmtX) : Statement (.fclamp h f) :=
  ofFields rfl (congrArg (some <| Instr.fclamp h ·) f.ofBits_toBits)
theorem fexp2 (h : Head) (f : FmtX) : Statement (.fexp2 h f) :=
  ofFields rfl (congrArg (some <| Instr.fexp2 h ·) f.ofBits_toBits)
theorem flog2 (h : Head) (f : FmtX) : Statement (.flog2 h f) :=
  ofFields rfl (congrArg (some <| Instr.flog2 h ·) f.ofBits_toBits)
theorem fsinpi (h : Head) (f : FmtX) : Statement (.fsinpi h f) :=
  ofFields rfl (congrArg (some <| Instr.fsinpi h ·) f.ofBits_toBits)
theorem fcospi (h : Head) (f : FmtX) : Statement (.fcospi h f) :=
  ofFields rfl (congrArg (some <| Instr.fcospi h ·) f.ofBits_toBits)
theorem ffloor (h : Head) (f : FmtX) : Statement (.ffloor h f) :=
  ofFields rfl (congrArg (some <| Instr.ffloor h ·) f.ofBits_toBits)
theorem fceil (h : Head) (f : FmtX) : Statement (.fceil h f) :=
  ofFields rfl (congrArg (some <| Instr.fceil h ·) f.ofBits_toBits)
theorem ftrunc (h : Head) (f : FmtX) : Statement (.ftrunc h f) :=
  ofFields rfl (congrArg (some <| Instr.ftrunc h ·) f.ofBits_toBits)
theorem fround (h : Head) (f : FmtX) : Statement (.fround h f) :=
  ofFields rfl (congrArg (some <| Instr.fround h ·) f.ofBits_toBits)
theorem fcmp (h : Head) (f : FmtX) : Statement (.fcmp h f) :=
  ofFields rfl (congrArg (some <| Instr.fcmp h ·) f.ofBits_toBits)
theorem fclass (h : Head) (f : FmtX) : Statement (.fclass h f) :=
  ofFields rfl (congrArg (some <| Instr.fclass h ·) f.ofBits_toBits)
theorem cvt (h : Head) (f : FmtX) : Statement (.cvt h f) :=
  ofFields rfl (congrArg (some <| Instr.cvt h ·) f.ofBits_toBits)
theorem pack2 (h : Head) (f : FmtX) : Statement (.pack2 h f) :=
  ofFields rfl (congrArg (some <| Instr.pack2 h ·) f.ofBits_toBits)
theorem unpack2 (h : Head) (f : FmtX) : Statement (.unpack2 h f) :=
  ofFields rfl (congrArg (some <| Instr.unpack2 h ·) f.ofBits_toBits)
theorem quant (h : Head) (f : FmtX) : Statement (.quant h f) :=
  ofFields rfl (congrArg (some <| Instr.quant h ·) f.ofBits_toBits)
theorem dequant (h : Head) (f : FmtX) : Statement (.dequant h f) :=
  ofFields rfl (congrArg (some <| Instr.dequant h ·) f.ofBits_toBits)
theorem srnd (h : Head) (f : FmtX) : Statement (.srnd h f) :=
  ofFields rfl (congrArg (some <| Instr.srnd h ·) f.ofBits_toBits)
theorem shfl (h : Head) (f : FmtX) : Statement (.shfl h f) :=
  ofFields rfl (congrArg (some <| Instr.shfl h ·) f.ofBits_toBits)
theorem vote (h : Head) (f : FmtX) : Statement (.vote h f) :=
  ofFields rfl (congrArg (some <| Instr.vote h ·) f.ofBits_toBits)
theorem ballot (h : Head) (f : FmtX) : Statement (.ballot h f) :=
  ofFields rfl (congrArg (some <| Instr.ballot h ·) f.ofBits_toBits)
theorem wscan (h : Head) (f : FmtX) : Statement (.wscan h f) :=
  ofFields rfl (congrArg (some <| Instr.wscan h ·) f.ofBits_toBits)
theorem wred (h : Head) (f : FmtX) : Statement (.wred h f) :=
  ofFields rfl (congrArg (some <| Instr.wred h ·) f.ofBits_toBits)
theorem bcast (h : Head) (f : FmtX) : Statement (.bcast h f) :=
  ofFields rfl (congrArg (some <| Instr.bcast h ·) f.ofBits_toBits)
theorem lanemask (h : Head) (f : FmtX) : Statement (.lanemask h f) :=
  ofFields rfl (congrArg (some <| Instr.lanemask h ·) f.ofBits_toBits)
theorem aadd (h : Head) (f : FmtX) : Statement (.aadd h f) :=
  ofFields rfl (congrArg (some <| Instr.aadd h ·) f.ofBits_toBits)
theorem asub (h : Head) (f : FmtX) : Statement (.asub h f) :=
  ofFields rfl (congrArg (some <| Instr.asub h ·) f.ofBits_toBits)
theorem amul (h : Head) (f : FmtX) : Statement (.amul h f) :=
  ofFields rfl (congrArg (some <| Instr.amul h ·) f.ofBits_toBits)
theorem amad (h : Head) (f : FmtX) : Statement (.amad h f) :=
  ofFields rfl (congrArg (some <| Instr.amad h ·) f.ofBits_toBits)
theorem ashl (h : Head) (f : FmtX) : Statement (.ashl h f) :=
  ofFields rfl (congrArg (some <| Instr.ashl h ·) f.ofBits_toBits)
theorem ashr (h : Head) (f : FmtX) : Statement (.ashr h f) :=
  ofFields rfl (congrArg (some <| Instr.ashr h ·) f.ofBits_toBits)
theorem asar (h : Head) (f : FmtX) : Statement (.asar h f) :=
  ofFields rfl (congrArg (some <| Instr.asar h ·) f.ofBits_toBits)
theorem aand (h : Head) (f : FmtX) : Statement (.aand h f) :=
  ofFields rfl (congrArg (some <| Instr.aand h ·) f.ofBits_toBits)
theorem aor (h : Head) (f : FmtX) : Statement (.aor h f) :=
  ofFields rfl (congrArg (some <| Instr.aor h ·) f.ofBits_toBits)
theorem axor (h : Head) (f : FmtX) : Statement (.axor h f) :=
  ofFields rfl (congrArg (some <| Instr.axor h ·) f.ofBits_toBits)
theorem amin (h : Head) (f : FmtX) : Statement (.amin h f) :=
  ofFields rfl (congrArg (some <| Instr.amin h ·) f.ofBits_toBits)
theorem amax (h : Head) (f : FmtX) : Statement (.amax h f) :=
  ofFields rfl (congrArg (some <| Instr.amax h ·) f.ofBits_toBits)
theorem acmp (h : Head) (f : FmtX) : Statement (.acmp h f) :=
  ofFields rfl (congrArg (some <| Instr.acmp h ·) f.ofBits_toBits)
theorem asel (h : Head) (f : FmtX) : Statement (.asel h f) :=
  ofFields rfl (congrArg (some <| Instr.asel h ·) f.ofBits_toBits)
theorem amov (h : Head) (f : FmtX) : Statement (.amov h f) :=
  ofFields rfl (congrArg (some <| Instr.amov h ·) f.ofBits_toBits)
theorem amovk (h : Head) (f : FmtK) : Statement (.amovk h f) :=
  ofFields rfl (congrArg (some <| Instr.amovk h ·) f.ofBits_toBits)
theorem br (h : Head) (f : FmtB) : Statement (.br h f) :=
  ofFields rfl (congrArg (some <| Instr.br h ·) f.ofBits_toBits)
theorem brc (h : Head) (f : FmtB) : Statement (.brc h f) :=
  ofFields rfl (congrArg (some <| Instr.brc h ·) f.ofBits_toBits)
theorem brx (h : Head) (f : FmtX) : Statement (.brx h f) :=
  ofFields rfl (congrArg (some <| Instr.brx h ·) f.ofBits_toBits)
theorem call (h : Head) (f : FmtB) : Statement (.call h f) :=
  ofFields rfl (congrArg (some <| Instr.call h ·) f.ofBits_toBits)
theorem ret (h : Head) (f : FmtX) : Statement (.ret h f) :=
  ofFields rfl (congrArg (some <| Instr.ret h ·) f.ofBits_toBits)
theorem exit (h : Head) (f : FmtX) : Statement (.exit h f) :=
  ofFields rfl (congrArg (some <| Instr.exit h ·) f.ofBits_toBits)
theorem yield (h : Head) (f : FmtX) : Statement (.yield h f) :=
  ofFields rfl (congrArg (some <| Instr.yield h ·) f.ofBits_toBits)
theorem wait (h : Head) (f : FmtI) : Statement (.wait h f) :=
  ofFields rfl (congrArg (some <| Instr.wait h ·) f.ofBits_toBits)
theorem ld (h : Head) (f : FmtM) : Statement (.ld h f) :=
  ofFields rfl (congrArg (some <| Instr.ld h ·) f.ofBits_toBits)
theorem st (h : Head) (f : FmtM) : Statement (.st h f) :=
  ofFields rfl (congrArg (some <| Instr.st h ·) f.ofBits_toBits)
theorem ldfe (h : Head) (f : FmtM) : Statement (.ldfe h f) :=
  ofFields rfl (congrArg (some <| Instr.ldfe h ·) f.ofBits_toBits)
theorem stfe (h : Head) (f : FmtM) : Statement (.stfe h f) :=
  ofFields rfl (congrArg (some <| Instr.stfe h ·) f.ofBits_toBits)
theorem ldw (h : Head) (f : FmtM) : Statement (.ldw h f) :=
  ofFields rfl (congrArg (some <| Instr.ldw h ·) f.ofBits_toBits)
theorem stw (h : Head) (f : FmtM) : Statement (.stw h f) :=
  ofFields rfl (congrArg (some <| Instr.stw h ·) f.ofBits_toBits)
theorem prefetch (h : Head) (f : FmtM) : Statement (.prefetch h f) :=
  ofFields rfl (congrArg (some <| Instr.prefetch h ·) f.ofBits_toBits)
theorem fill (h : Head) (f : FmtM) : Statement (.fill h f) :=
  ofFields rfl (congrArg (some <| Instr.fill h ·) f.ofBits_toBits)
theorem atom (h : Head) (f : FmtX) : Statement (.atom h f) :=
  ofFields rfl (congrArg (some <| Instr.atom h ·) f.ofBits_toBits)
theorem atomcas (h : Head) (f : FmtX) : Statement (.atomcas h f) :=
  ofFields rfl (congrArg (some <| Instr.atomcas h ·) f.ofBits_toBits)
theorem red (h : Head) (f : FmtX) : Statement (.red h f) :=
  ofFields rfl (congrArg (some <| Instr.red h ·) f.ofBits_toBits)
theorem lr (h : Head) (f : FmtM) : Statement (.lr h f) :=
  ofFields rfl (congrArg (some <| Instr.lr h ·) f.ofBits_toBits)
theorem sc (h : Head) (f : FmtX) : Statement (.sc h f) :=
  ofFields rfl (congrArg (some <| Instr.sc h ·) f.ofBits_toBits)
theorem lock (h : Head) (f : FmtM) : Statement (.lock h f) :=
  ofFields rfl (congrArg (some <| Instr.lock h ·) f.ofBits_toBits)
theorem trylock (h : Head) (f : FmtM) : Statement (.trylock h f) :=
  ofFields rfl (congrArg (some <| Instr.trylock h ·) f.ofBits_toBits)
theorem unlock (h : Head) (f : FmtM) : Statement (.unlock h f) :=
  ofFields rfl (congrArg (some <| Instr.unlock h ·) f.ofBits_toBits)
theorem lockq (h : Head) (f : FmtM) : Statement (.lockq h f) :=
  ofFields rfl (congrArg (some <| Instr.lockq h ·) f.ofBits_toBits)
theorem acq (h : Head) (f : FmtM) : Statement (.acq h f) :=
  ofFields rfl (congrArg (some <| Instr.acq h ·) f.ofBits_toBits)
theorem rel (h : Head) (f : FmtM) : Statement (.rel h f) :=
  ofFields rfl (congrArg (some <| Instr.rel h ·) f.ofBits_toBits)
theorem bind (h : Head) (f : FmtX) : Statement (.bind h f) :=
  ofFields rfl (congrArg (some <| Instr.bind h ·) f.ofBits_toBits)
theorem unbind (h : Head) (f : FmtX) : Statement (.unbind h f) :=
  ofFields rfl (congrArg (some <| Instr.unbind h ·) f.ofBits_toBits)
theorem fence (h : Head) (f : FmtM) : Statement (.fence h f) :=
  ofFields rfl (congrArg (some <| Instr.fence h ·) f.ofBits_toBits)
theorem mon (h : Head) (f : FmtM) : Statement (.mon h f) :=
  ofFields rfl (congrArg (some <| Instr.mon h ·) f.ofBits_toBits)
theorem mwait (h : Head) (f : FmtI) : Statement (.mwait h f) :=
  ofFields rfl (congrArg (some <| Instr.mwait h ·) f.ofBits_toBits)
theorem bar (h : Head) (f : FmtX) : Statement (.bar h f) :=
  ofFields rfl (congrArg (some <| Instr.bar h ·) f.ofBits_toBits)
theorem cbar (h : Head) (f : FmtX) : Statement (.cbar h f) :=
  ofFields rfl (congrArg (some <| Instr.cbar h ·) f.ofBits_toBits)
theorem phinit (h : Head) (f : FmtX) : Statement (.phinit h f) :=
  ofFields rfl (congrArg (some <| Instr.phinit h ·) f.ofBits_toBits)
theorem phreg (h : Head) (f : FmtX) : Statement (.phreg h f) :=
  ofFields rfl (congrArg (some <| Instr.phreg h ·) f.ofBits_toBits)
theorem phdrop (h : Head) (f : FmtX) : Statement (.phdrop h f) :=
  ofFields rfl (congrArg (some <| Instr.phdrop h ·) f.ofBits_toBits)
theorem phsig (h : Head) (f : FmtX) : Statement (.phsig h f) :=
  ofFields rfl (congrArg (some <| Instr.phsig h ·) f.ofBits_toBits)
theorem phwait (h : Head) (f : FmtX) : Statement (.phwait h f) :=
  ofFields rfl (congrArg (some <| Instr.phwait h ·) f.ofBits_toBits)
theorem phsw (h : Head) (f : FmtX) : Statement (.phsw h f) :=
  ofFields rfl (congrArg (some <| Instr.phsw h ·) f.ofBits_toBits)
theorem phquery (h : Head) (f : FmtX) : Statement (.phquery h f) :=
  ofFields rfl (congrArg (some <| Instr.phquery h ·) f.ofBits_toBits)
theorem cadd (h : Head) (f : FmtX) : Statement (.cadd h f) :=
  ofFields rfl (congrArg (some <| Instr.cadd h ·) f.ofBits_toBits)
theorem cwait (h : Head) (f : FmtX) : Statement (.cwait h f) :=
  ofFields rfl (congrArg (some <| Instr.cwait h ·) f.ofBits_toBits)
theorem cread (h : Head) (f : FmtM) : Statement (.cread h f) :=
  ofFields rfl (congrArg (some <| Instr.cread h ·) f.ofBits_toBits)
theorem mcfg (h : Head) (f : FmtS) : Statement (.mcfg h f) :=
  ofFields rfl (congrArg (some <| Instr.mcfg h ·) f.ofBits_toBits)
theorem mwld (h : Head) (f : FmtT) : Statement (.mwld h f) :=
  ofFields rfl (congrArg (some <| Instr.mwld h ·) f.ofBits_toBits)
theorem mswap (h : Head) (f : FmtS) : Statement (.mswap h f) :=
  ofFields rfl (congrArg (some <| Instr.mswap h ·) f.ofBits_toBits)
theorem mma (h : Head) (f : FmtT) : Statement (.mma h f) :=
  ofFields rfl (congrArg (some <| Instr.mma h ·) f.ofBits_toBits)
theorem mmas (h : Head) (f : FmtT) : Statement (.mmas h f) :=
  ofFields rfl (congrArg (some <| Instr.mmas h ·) f.ofBits_toBits)
theorem mzero (h : Head) (f : FmtT) : Statement (.mzero h f) :=
  ofFields rfl (congrArg (some <| Instr.mzero h ·) f.ofBits_toBits)
theorem mpre (h : Head) (f : FmtT) : Statement (.mpre h f) :=
  ofFields rfl (congrArg (some <| Instr.mpre h ·) f.ofBits_toBits)
theorem mpost (h : Head) (f : FmtT) : Statement (.mpost h f) :=
  ofFields rfl (congrArg (some <| Instr.mpost h ·) f.ofBits_toBits)
theorem mdrain (h : Head) (f : FmtS) : Statement (.mdrain h f) :=
  ofFields rfl (congrArg (some <| Instr.mdrain h ·) f.ofBits_toBits)
theorem mfence (h : Head) (f : FmtS) : Statement (.mfence h f) :=
  ofFields rfl (congrArg (some <| Instr.mfence h ·) f.ofBits_toBits)
theorem mstat (h : Head) (f : FmtS) : Statement (.mstat h f) :=
  ofFields rfl (congrArg (some <| Instr.mstat h ·) f.ofBits_toBits)
theorem cpld (h : Head) (f : FmtS) : Statement (.cpld h f) :=
  ofFields rfl (congrArg (some <| Instr.cpld h ·) f.ofBits_toBits)
theorem cpy (h : Head) (f : FmtE) : Statement (.cpy h f) :=
  ofFields rfl (congrArg (some <| Instr.cpy h ·) f.ofBits_toBits)
theorem cpyx (h : Head) (f : FmtE) : Statement (.cpyx h f) :=
  ofFields rfl (congrArg (some <| Instr.cpyx h ·) f.ofBits_toBits)
theorem cpyw (h : Head) (f : FmtE) : Statement (.cpyw h f) :=
  ofFields rfl (congrArg (some <| Instr.cpyw h ·) f.ofBits_toBits)
theorem halo (h : Head) (f : FmtE) : Statement (.halo h f) :=
  ofFields rfl (congrArg (some <| Instr.halo h ·) f.ofBits_toBits)
theorem pub (h : Head) (f : FmtE) : Statement (.pub h f) :=
  ofFields rfl (congrArg (some <| Instr.pub h ·) f.ofBits_toBits)
theorem subCopy (h : Head) (f : FmtE) : Statement (.subCopy h f) :=
  ofFields rfl (congrArg (some <| Instr.subCopy h ·) f.ofBits_toBits)
theorem cpfix (h : Head) (f : FmtS) : Statement (.cpfix h f) :=
  ofFields rfl (congrArg (some <| Instr.cpfix h ·) f.ofBits_toBits)
theorem cpq (h : Head) (f : FmtS) : Statement (.cpq h f) :=
  ofFields rfl (congrArg (some <| Instr.cpq h ·) f.ofBits_toBits)
theorem spawn (h : Head) (f : FmtX) : Statement (.spawn h f) :=
  ofFields rfl (congrArg (some <| Instr.spawn h ·) f.ofBits_toBits)
theorem join (h : Head) (f : FmtX) : Statement (.join h f) :=
  ofFields rfl (congrArg (some <| Instr.join h ·) f.ofBits_toBits)
theorem done (h : Head) (f : FmtX) : Statement (.done h f) :=
  ofFields rfl (congrArg (some <| Instr.done h ·) f.ofBits_toBits)
theorem frame (h : Head) (f : FmtX) : Statement (.frame h f) :=
  ofFields rfl (congrArg (some <| Instr.frame h ·) f.ofBits_toBits)
theorem dclk (h : Head) (f : FmtX) : Statement (.dclk h f) :=
  ofFields rfl (congrArg (some <| Instr.dclk h ·) f.ofBits_toBits)
theorem dsync (h : Head) (f : FmtX) : Statement (.dsync h f) :=
  ofFields rfl (congrArg (some <| Instr.dsync h ·) f.ofBits_toBits)
theorem stage (h : Head) (f : FmtX) : Statement (.stage h f) :=
  ofFields rfl (congrArg (some <| Instr.stage h ·) f.ofBits_toBits)
theorem trap (h : Head) (f : FmtS) : Statement (.trap h f) :=
  ofFields rfl (congrArg (some <| Instr.trap h ·) f.ofBits_toBits)
theorem brk (h : Head) (f : FmtS) : Statement (.brk h f) :=
  ofFields rfl (congrArg (some <| Instr.brk h ·) f.ofBits_toBits)
theorem tret (h : Head) (f : FmtS) : Statement (.tret h f) :=
  ofFields rfl (congrArg (some <| Instr.tret h ·) f.ofBits_toBits)
theorem rdsr (h : Head) (f : FmtS) : Statement (.rdsr h f) :=
  ofFields rfl (congrArg (some <| Instr.rdsr h ·) f.ofBits_toBits)
theorem wrsr (h : Head) (f : FmtS) : Statement (.wrsr h f) :=
  ofFields rfl (congrArg (some <| Instr.wrsr h ·) f.ofBits_toBits)
theorem carve (h : Head) (f : FmtS) : Statement (.carve h f) :=
  ofFields rfl (congrArg (some <| Instr.carve h ·) f.ofBits_toBits)
theorem halt (h : Head) (f : FmtS) : Statement (.halt h f) :=
  ofFields rfl (congrArg (some <| Instr.halt h ·) f.ofBits_toBits)
theorem rdtr (h : Head) (f : FmtS) : Statement (.rdtr h f) :=
  ofFields rfl (congrArg (some <| Instr.rdtr h ·) f.ofBits_toBits)
theorem splitArrive : Statement (.splitArrive) := noWord rfl
theorem clockEpochStep (w : Nat) : Statement (.clockEpochStep w) := noWord rfl
theorem issuePromotion (w sp : Nat) : Statement (.issuePromotion w sp) := noWord rfl
theorem waitExpiry (w sp : Nat) : Statement (.waitExpiry w sp) := noWord rfl
theorem minTreeRefresh (l : Nat) : Statement (.minTreeRefresh l) := noWord rfl
theorem pageWalk (core ctx : Nat) (va : BitVec 64) (acc : Access) : Statement (.pageWalk core ctx va acc) := noWord rfl
theorem pageReclaim (core : Nat) (st : StoreId) : Statement (.pageReclaim core st) := noWord rfl
theorem fillComplete (set pg : Nat) : Statement (.fillComplete set pg) := noWord rfl
theorem multicastArrival (k : Nat) : Statement (.multicastArrival k) := noWord rfl
theorem copyFault (k : Nat) : Statement (.copyFault k) := noWord rfl
theorem copyComplete (k : Nat) : Statement (.copyComplete k) := noWord rfl
theorem weightLoadStroke (core : Nat) : Statement (.weightLoadStroke core) := noWord rfl
theorem swapStroke (core : Nat) : Statement (.swapStroke core) := noWord rfl
theorem rowStroke (core : Nat) : Statement (.rowStroke core) := noWord rfl
theorem matrixOpComplete (core : Nat) : Statement (.matrixOpComplete core) := noWord rfl
theorem phaserEngineSignal (n : Nat) : Statement (.phaserEngineSignal n) := noWord rfl
theorem asyncTrapDelivery (w sp : Nat) : Statement (.asyncTrapDelivery w sp) := noWord rfl
theorem ringRetry (w : Nat) : Statement (.ringRetry w) := noWord rfl
theorem waiterAway (w : Nat) : Statement (.waiterAway w) := noWord rfl
theorem waiterBack (w : Nat) : Statement (.waiterBack w) := noWord rfl
theorem lockReissue (w sp : Nat) : Statement (.lockReissue w sp) := noWord rfl
theorem lockWaitTimeout (w sp : Nat) : Statement (.lockWaitTimeout w sp) := noWord rfl
theorem lockHoldTimeout (w line : Nat) : Statement (.lockHoldTimeout w line) := noWord rfl
theorem mwaitTimeout (w sp : Nat) : Statement (.mwaitTimeout w sp) := noWord rfl
theorem cwaitTimeout (w sp : Nat) : Statement (.cwaitTimeout w sp) := noWord rfl
theorem monitorPoll (w : Nat) : Statement (.monitorPoll w) := noWord rfl
theorem launchTrigger (slot : Nat) : Statement (.launchTrigger slot) := noWord rfl
theorem dispatchSelect (die : Nat) (hits : BitVec 8) : Statement (.dispatchSelect die hits) := noWord rfl
theorem forwardProgressSwap (core : Nat) : Statement (.forwardProgressSwap core) := noWord rfl
theorem preemptAtReached (w : Nat) : Statement (.preemptAtReached w) := noWord rfl
theorem contextSwitchOut (cl : Nat) : Statement (.contextSwitchOut cl) := noWord rfl
theorem spillComplete (cl : Nat) : Statement (.spillComplete cl) := noWord rfl
theorem contextSwitchIn (cl : Nat) (ok : Bool) : Statement (.contextSwitchIn cl ok) := noWord rfl
theorem launchEnd (l : Nat) : Statement (.launchEnd l) := noWord rfl
theorem registerWrite (off size : Nat) (val : BitVec 64) : Statement (.registerWrite off size val) := noWord rfl
theorem xinvPage (ctx : BitVec 16) (sz : BitVec 3) : Statement (.xinvPage ctx sz) := noWord rfl
theorem xinvContext (ctx : BitVec 16) : Statement (.xinvContext ctx) := noWord rfl
theorem xinvAllContexts : Statement (.xinvAllContexts) := noWord rfl
theorem xinvReserved : Statement (.xinvReserved) := noWord rfl
theorem xinvComplete : Statement (.xinvComplete) := noWord rfl
theorem releaseEpisode (ctx : BitVec 16) : Statement (.releaseEpisode ctx) := noWord rfl
theorem releaseAllEpisodes (ctx : BitVec 16) : Statement (.releaseAllEpisodes ctx) := noWord rfl
theorem resumeAtTpc (t : HeldId) : Statement (.resumeAtTpc t) := noWord rfl
theorem resumePastTpc (t : HeldId) : Statement (.resumePastTpc t) := noWord rfl
theorem abortLaunch (t : HeldId) : Statement (.abortLaunch t) := noWord rfl
theorem trcmdInvalid : Statement (.trcmdInvalid) := noWord rfl
theorem pdownClear (peer : Nat) : Statement (.pdownClear peer) := noWord rfl
theorem loadfw (tag : BitVec 32) (len : BitVec 16) : Statement (.loadfw tag len) := noWord rfl
theorem attest (tag : BitVec 32) (len : BitVec 16) : Statement (.attest tag len) := noWord rfl
theorem dieoff (tag : BitVec 32) (len : BitVec 16) : Statement (.dieoff tag len) := noWord rfl
theorem dieon (tag : BitVec 32) (len : BitVec 16) : Statement (.dieon tag len) := noWord rfl
theorem relread (tag : BitVec 32) (len : BitVec 16) : Statement (.relread tag len) := noWord rfl
theorem logread (tag : BitVec 32) (len : BitVec 16) : Statement (.logread tag len) := noWord rfl
theorem route (tag : BitVec 32) (len : BitVec 16) : Statement (.route tag len) := noWord rfl
theorem reset (tag : BitVec 32) (len : BitVec 16) : Statement (.reset tag len) := noWord rfl
theorem mailboxCompletion : Statement (.mailboxCompletion) := noWord rfl
theorem hostRead (addr n : Nat) : Statement (.hostRead addr n) := noWord rfl
theorem hostWrite (addr : Nat) (data : List (BitVec 8)) : Statement (.hostWrite addr data) := noWord rfl
theorem cxlSnoop (addr : Nat) (data : List (BitVec 8)) : Statement (.cxlSnoop addr data) := noWord rfl
theorem peerWriteArrival (peer addr : Nat) (data : List (BitVec 8)) : Statement (.peerWriteArrival peer addr data) := noWord rfl
theorem peerRequestArrival (peer addr : Nat) (rq : PeerReq) : Statement (.peerRequestArrival peer addr rq) := noWord rfl
theorem flitCrcFail (port : Nat) : Statement (.flitCrcFail port) := noWord rfl
theorem linkRetrainStart (port : Nat) : Statement (.linkRetrainStart port) := noWord rfl
theorem linkRetrainComplete (port : Nat) (spare : Bool) : Statement (.linkRetrainComplete port spare) := noWord rfl
theorem portDown (port : Nat) : Statement (.portDown port) := noWord rfl
theorem deviceReset : Statement (.deviceReset) := noWord rfl
theorem selftest (good : BitVec 2) : Statement (.selftest good) := noWord rfl
theorem links (up spare : BitVec 16) : Statement (.links up spare) := noWord rfl
theorem errorDetected (st : ErrStruct) (lasting : Bool) : Statement (.errorDetected st lasting) := noWord rfl
theorem powerAlarm (power temp : BitVec 16) : Statement (.powerAlarm power temp) := noWord rfl
theorem powerAlarmClear (power temp : BitVec 16) : Statement (.powerAlarmClear power temp) := noWord rfl
theorem copyEngineWrite (k : Nat) : Statement (.copyEngineWrite k) := noWord rfl
theorem peerAcknowledgement (w peer : Nat) (data : List (BitVec 64)) : Statement (.peerAcknowledgement w peer data) := noWord rfl
theorem yieldExpiry (w sp : Nat) : Statement (.yieldExpiry w sp) := noWord rfl
theorem fwcheck : Statement (.fwcheck) := noWord rfl
theorem meminit : Statement (.meminit) := noWord rfl
theorem thermalTrip : Statement (.thermalTrip) := noWord rfl

end Sys2Proof.Laws.RoundTrip
end

