-- ==== Sys2Proof/Tests/Slice0.lean ====
section
/-!
SUPPORT. Small tests: ill-formed terms that the checks refuse, words written out from the encoding tables, one step of an
instruction on a small state with results worked out from the manual, and a witness for the hypotheses of each statement.
-/
namespace Sys2Proof.Tests
set_option Elab.async false
open Sys2Proof Sys2Proof.Machine Sys2Proof.Claims

/-! ### Ill-formed terms (R213, R231): each differs in one field from a well-formed one. -/

def ok (is : List Instr) : Bool := is.all (·.wellFormed)
def bad (is : List Instr) : Bool := is.all (!·.wellFormed)
/-- No stall, no predicate; and a predicate where none may stand. -/
def h0 : Head := ⟨0, 0, 0⟩
def hp : Head := ⟨0, 1, 0⟩
def x2 : FmtX := ⟨0, 1, 2, 0xC8, 0, 0⟩
def x3 : FmtX := ⟨0, 1, 2, 3, 0, 0⟩
def x1 : FmtX := ⟨0, 1, 0xC8, 0xC8, 0, 0⟩
def bare : FmtX := ⟨0xC8, 0xC8, 0xC8, 0xC8, 0, 0⟩

/-- R235, R236: types, MD, destination, sources, unused fields, pairs. -/
theorem test_ill_integer :
    ok [.add h0 x2, .mad h0 x3, .abs h0 x1, .lsel h0 { x3 with md := 0xE8 }, .add h0 { x2 with b := 4, ty := 2, a := 2 }] = true ∧
    bad [.add h0 { x2 with ty := 4 }, .add h0 { x2 with md := 1 }, .add h0 { x2 with d := 0xA0 }, .add h0 { x2 with a := 0x80 },
      .add h0 { x2 with b := 0xC9 }, .add h0 { x2 with c := 3 }, .add h0 { x2 with ty := 2 }, .mulhi h0 { x2 with ty := 13 },
      .mad h0 { x3 with c := 0xC2 }, .mad h0 { x3 with d := 0xC0 }, .abs h0 { x1 with b := 2 }, .abs h0 { x1 with c := 2 },
      .abs h0 { x1 with md := 4 }] = true ∧
    bad [.sad4 h0 x3, .and h0 { x2 with ty := 13 }, .not h0 { x1 with ty := 4 }, .lsel h0 { x3 with ty := 5 }] = true := by
  decide +kernel

/-- R237: pos, len, pos + len, the other bits of IMM24, the type, the D of `bfi`. -/
theorem test_ill_bitfields :
    ok [.bfx h0 ⟨0, 1, 1, 0x001010⟩, .bfi h0 ⟨0, 2, 3, 0x00013F⟩] = true ∧
    bad [.bfx h0 ⟨0, 1, 1, 0x004100⟩, .bfx h0 ⟨0, 1, 1, 0x001011⟩, .bfx h0 ⟨0, 1, 1, 0x009010⟩, .bfx h0 ⟨0, 1, 1, 0x001090⟩,
      .bfx h0 ⟨0, 1, 4, 0x001010⟩, .bfx h0 ⟨0x80, 1, 1, 0x001010⟩, .bfx h0 ⟨0, 0x80, 1, 0x001010⟩, .bfx h0 ⟨0, 1, 1, 0x000140⟩,
      .bfi h0 ⟨0xC2, 1, 1, 0x001010⟩, .bfi h0 ⟨0xC8, 1, 1, 0x001010⟩, .bfi h0 ⟨1, 2, 3, 0x001010⟩] = true := by decide +kernel

/-- R238, R239, R244: conditions, combinations, predicates. -/
theorem test_ill_compare :
    ok [.cmp h0 { x2 with md := 5 }, .fcmp h0 { x2 with ty := 4, md := 13 }, .cmp h0 { x2 with md := 0x10, c := 7 }, .sel h0 { x2 with c := 1 },
      .setp h0 x1, .getp h0 { x1 with ty := 1 }, .pand h0 { x2 with md := 0x0A }, .pnot h0 x1] = true ∧
    bad [.cmp h0 { x2 with md := 6 }, .cmp h0 { x2 with d := 8 }, .cmp h0 { x2 with ty := 4 }, .cmp h0 { x2 with md := 0x40 },
      .cmp h0 { x2 with c := 1 }, .cmp h0 { x2 with md := 0x10 }, .cmp h0 { x2 with a := 0xC2 }, .cmp h0 { x2 with b := 0xC2 },
      .fcmp h0 { x2 with ty := 4, md := 14 }, .fcmp h0 x2] = true ∧
    bad [.sel h0 x2, .sel h0 { x2 with c := 1, ty := 5 }, .sel h0 { x2 with c := 1, md := 1 }, .setp h0 { x1 with d := 9 },
      .setp h0 { x1 with b := 0 }, .setp h0 { x1 with ty := 4 }, .getp h0 x1, .getp h0 { x1 with ty := 1, a := 8 },
      .getp h0 { x1 with ty := 1, d := 0xC1 }, .pand h0 { x2 with md := 1 }, .pand h0 { x2 with ty := 1 }, .por h0 { x2 with b := 8 },
      .pxor h0 { x2 with c := 0 }, .pnot h0 { x1 with md := 2 }, .pnot h0 { x1 with a := 0x10 }] = true := by decide +kernel

/-- R240 to R245: types, rounding codes, modifiers, operand counts. -/
theorem test_ill_float :
    ok [.fadd h0 { x2 with ty := 4, md := 0xAF }, .ffma h0 { x3 with ty := 6 }, .fsqrt h0 { x1 with ty := 5 }, .fmin h0 { x2 with ty := 4 },
      .fclamp h0 { x3 with ty := 4, md := 0x0C }, .fexp2 h0 { x1 with ty := 4 }, .ffloor h0 { x1 with ty := 4 }, .fclass h0 { x1 with ty := 7 }] = true ∧
    bad [.fadd h0 x2, .fadd h0 { x2 with ty := 4, md := 0xC0 }, .fadd h0 { x2 with ty := 4, md := 0x10 }, .fadd h0 { x2 with ty := 4, c := 0 },
      .fadd h0 { x2 with ty := 4, d := 0xC0 }, .ffma h0 { x3 with ty := 4, c := 0xA1 }, .fsqrt h0 { x1 with ty := 4, b := 2 },
      .fsqrt h0 { x1 with ty := 4, md := 2 }, .fmin h0 { x2 with ty := 4, md := 0x20 }, .fclamp h0 { x3 with ty := 4, md := 1 },
      .fexp2 h0 { x1 with ty := 5 }, .ffloor h0 { x1 with ty := 4, md := 0x20 }, .fclass h0 { x1 with ty := 9 },
      .fclass h0 { x1 with ty := 4, md := 4 }] = true := by decide +kernel

/-- R246 to R250. -/
theorem test_ill_convert :
    ok [.cvt h0 { x1 with ty := 5, md := 4 }, .pack2 h0 { x2 with ty := 5, md := 4 }, .unpack2 h0 { x1 with ty := 4, md := 5 },
      .quant h0 { x1 with ty := 7, md := 4 }, .dequant h0 { x1 with a := 2, ty := 4 }, .srnd h0 { x1 with d := 0xC8, ty := 1 }] = true ∧
    bad [.cvt h0 { x1 with ty := 10, md := 4 }, .cvt h0 { x1 with ty := 4, md := 10 }, .cvt h0 { x1 with ty := 4, md := 0xC0 },
      .cvt h0 { x1 with ty := 7, md := 4, a := 0xE1 }, .cvt h0 { x1 with ty := 4, b := 1 }, .pack2 h0 { x2 with ty := 4, md := 4 },
      .pack2 h0 { x2 with ty := 5, md := 5 }, .unpack2 h0 { x1 with ty := 5, md := 5 }, .unpack2 h0 { x1 with d := 1, ty := 4, md := 5 },
      .quant h0 { x1 with ty := 4, md := 4 }, .quant h0 { x1 with ty := 7, md := 5 }, .quant h0 { x1 with d := 1, ty := 7, md := 4 },
      .dequant h0 { x1 with ty := 4 }, .dequant h0 { x1 with a := 2, ty := 5 }, .dequant h0 { x1 with a := 2, ty := 4, md := 4 },
      .srnd h0 { x1 with ty := 1 }, .srnd h0 { x1 with d := 0xC8 }] = true := by decide +kernel

/-- R251 to R253. -/
theorem test_ill_lanes :
    ok [.shfl h0 { x2 with md := 0x14 }, .shfl h0 { x1 with md := 0x17 }, .vote h0 x1, .ballot h0 { x1 with ty := 1 }, .bcast h0 x2,
      .lanemask h0 { bare with d := 0, ty := 1, md := 5 }, .wscan h0 { x1 with c := 1, md := 0x10 }, .wred h0 { x1 with ty := 4, md := 0x26 }] = true ∧
    bad [.shfl h0 { x2 with ty := 5 }, .shfl h0 { x2 with md := 0x18 }, .shfl h0 { x2 with md := 0x20 }, .shfl h0 { x2 with md := 3 },
      .shfl h0 { x2 with c := 1 }, .vote h0 { x1 with md := 4 }, .vote h0 { x1 with a := 8 }, .vote h0 { x1 with ty := 1 },
      .ballot h0 x1, .ballot h0 { x1 with ty := 1, b := 1 }, .bcast h0 { x2 with md := 1 }, .bcast h0 { x2 with ty := 14 }] = true ∧
    bad [.lanemask h0 { bare with d := 0, ty := 1, md := 6 }, .lanemask h0 { bare with d := 0, ty := 1, a := 0 }, .wscan h0 { x1 with md := 9 },
      .wscan h0 { x1 with ty := 4 }, .wscan h0 { x1 with md := 6 }, .wscan h0 { x1 with md := 0x20 }, .wscan h0 { x1 with ty := 4, md := 0x27 },
      .wscan h0 { x1 with c := 9 }, .wscan h0 { x1 with b := 1 }, .wred h0 { x1 with c := 1 }, .wred h0 { x1 with md := 0x10 }] = true := by
  decide +kernel

def a2 : FmtX := ⟨0x80, 0x81, 0xA0, 0xC8, 3, 0⟩

/-- R254 to R261. -/
theorem test_ill_access_control :
    ok [.aadd h0 a2, .amad h0 { a2 with c := 0x82 }, .acmp h0 { a2 with d := 1 }, .asel h0 { a2 with c := 1 }, .amov h0 { a2 with b := 0xC8 },
      .amovk h0 ⟨0x80, 3, 5⟩, .br h0 ⟨0xC8, 2, 0⟩, .brc h0 ⟨7, 2, 3⟩, .brx hp { bare with a := 0x80 }, .call h0 ⟨0x80, 2, 0⟩, .exit h0 bare,
      .wait h0 ⟨0xC8, 0xC8, 0, 9⟩] = true ∧
    bad [.aadd h0 { a2 with ty := 4 }, .aadd h0 { a2 with md := 1 }, .aadd h0 { a2 with d := 0 }, .aadd h0 { a2 with a := 0xC0 },
      .aadd h0 { a2 with c := 0x82 }, .aadd h0 { a2 with d := 0xA1 }, .acmp h0 { a2 with d := 8 }, .acmp h0 { a2 with d := 1, md := 6 },
      .acmp h0 { a2 with d := 1, md := 0xC0 }, .acmp h0 { a2 with d := 1, md := 0x10 }, .acmp h0 { a2 with d := 1, c := 1 },
      .acmp h0 { a2 with d := 1, a := 0xA1, md := 0x40 }, .asel h0 a2, .amov h0 a2] = true ∧
    bad [.amovk h0 ⟨0x80, 4, 5⟩, .amovk h0 ⟨0, 3, 5⟩, .br h0 ⟨0x80, 2, 0⟩, .br h0 ⟨0xC8, 2, 1⟩, .brc hp ⟨7, 2, 0⟩, .brc h0 ⟨8, 2, 0⟩,
      .brc h0 ⟨7, 2, 4⟩, .brx h0 { bare with a := 0xA0 }, .ret h0 { bare with a := 0x80, md := 1 }, .call h0 ⟨0xA0, 2, 0⟩, .call h0 ⟨0x80, 2, 1⟩,
      .exit hp bare, .exit h0 { bare with ty := 1 }, .yield h0 { bare with a := 0 }, .wait h0 ⟨0xC8, 0xC8, 0, 0x800000⟩,
      .wait h0 ⟨0xC8, 0xC8, 1, 9⟩] = true := by decide +kernel

def m0 : FmtM := ⟨0x80, 0x81, 0, 4, 0, 0, 0⟩

/-- R215, R262 to R270; an offset that is no multiple of the size (R215). -/
theorem test_ill_memory :
    ok [.ld h0 { m0 with q := 1, off := 8 }, .st h0 { m0 with sp := 1 }, .ldfe h0 { m0 with sp := 4, q := 1 }, .stfe h0 { m0 with sp := 3 },
      .ldw h0 { m0 with base := 0xA0 }, .stw h0 { m0 with base := 0xA0 }, .prefetch h0 { m0 with d := 0xC8, sz := 0 },
      .fill h0 { m0 with sp := 2, sz := 0, q := 1, off := 16 }] = true ∧
    bad [.ld h0 { m0 with d := 0 }, .ld h0 { m0 with base := 0xC0 }, .ld h0 { m0 with sp := 7 }, .ld h0 { m0 with sz := 9 },
      .ld h0 { m0 with sc := 1 }, .ld h0 { m0 with d := 0xA0 }, .ld h0 { m0 with d := 0x81, q := 1 }, .ld h0 { m0 with off := 2 },
      .ld h0 { m0 with q := 1, off := 4 }, .st h0 { m0 with sp := 5 }, .st h0 { m0 with d := 0xE1, sz := 7 }, .st h0 { m0 with d := 0xC0 }] = true ∧
    bad [.ldfe h0 m0, .ldfe h0 { m0 with sp := 4, q := 2 }, .stfe h0 m0, .stfe h0 { m0 with sp := 3, q := 1 }, .ldw h0 m0,
      .ldw h0 { m0 with d := 0xA1, base := 0xA0 }, .ldw h0 { m0 with base := 0xA0, q := 1 }, .stw h0 m0, .stw h0 { m0 with base := 0xA0, sp := 5 },
      .prefetch h0 { m0 with sz := 0 }, .prefetch h0 { m0 with d := 0xC8 }, .fill h0 { m0 with sz := 0 }, .fill h0 { m0 with sp := 2, sz := 0, q := 2 },
      .fill h0 { m0 with sp := 2, sz := 0, off := 8 }] = true := by decide +kernel

/-- R271 to R281. -/
theorem test_ill_sync :
    ok [.atom h0 { a2 with ty := 1, md := 0x17 }, .atomcas h0 { a2 with c := 0x82 }, .red h0 { a2 with d := 0xC8, ty := 4, md := 1 },
      .lr h0 { m0 with sz := 3, sc := 2 }, .sc h0 a2, .lock h0 { m0 with sc := 2, sz := 9 }, .unlock h0 { m0 with d := 0xC8, sc := 2, sz := 0 },
      .acq h0 { m0 with base := 0xC8, sz := 3 }, .bind h0 { a2 with d := 0xC8 }, .fence h0 ⟨0xC8, 0xC8, 0, 0, 3, 0, 0⟩] = true ∧
    bad [.atom h0 { a2 with md := 7 }, .atom h0 { a2 with ty := 4, md := 3 }, .atom h0 { a2 with md := 0xA0 }, .atom h0 { a2 with a := 0xC8 },
      .atom h0 { a2 with d := 0xA1 }, .atom h0 { a2 with c := 0x82 }, .atom h0 { a2 with ty := 14 }, .atomcas h0 { a2 with c := 0x82, ty := 4 },
      .atomcas h0 { a2 with c := 0x82, md := 1 }, .red h0 a2, .lr h0 { m0 with sz := 3 }, .lr h0 { m0 with sz := 4, sc := 2 },
      .lr h0 { m0 with sp := 1, sz := 3, sc := 2 }, .sc h0 { a2 with md := 8 }] = true ∧
    bad [.lock h0 m0, .lock h0 { m0 with base := 0xC8, sc := 2 }, .lock h0 { m0 with d := 0xC0, sc := 2 }, .lock h0 { m0 with sc := 2, off := 8 },
      .trylock h0 { m0 with sc := 2 }, .unlock h0 { m0 with sc := 2, sz := 0 }, .acq h0 m0, .acq h0 { m0 with base := 0xC8, sz := 3, off := 64 },
      .acq h0 { m0 with sz := 3, q := 1 }, .rel h0 { m0 with sz := 3, sp := 1 }, .rel h0 { m0 with sz := 3, d := 0xC0 }, .bind h0 a2,
      .unbind h0 { a2 with d := 0xC8, c := 0x82 }, .fence h0 ⟨0xC8, 0x80, 0, 0, 3, 0, 0⟩, .fence h0 ⟨0xC8, 0xC8, 0, 0, 3, 0, 1⟩] = true ∧
    ok [.mon h0 { m0 with d := 0xC8, sz := 0 }, .mwait h0 ⟨0x80, 0xC8, 1, 1⟩] = true ∧
    bad [.mon h0 { m0 with sz := 0 }, .mon h0 { m0 with d := 0xC8, sz := 0, sc := 1 }, .mwait h0 ⟨0x80, 0xC8, 0, 1⟩,
      .mwait h0 ⟨0x80, 0xC8, 1, 0x800000⟩, .mwait h0 ⟨0x80, 0x80, 1, 1⟩, .bar hp bare, .cbar h0 { bare with md := 1 }] = true := by
  decide +kernel

/-- R282 to R286. -/
theorem test_ill_phasers :
    ok [.phinit h0 { a2 with ty := 1, md := 7 }, .phsig h0 { a2 with ty := 1 }, .phquery h0 { a2 with b := 0xC8, ty := 1 },
      .cadd h0 { a2 with md := 0x10 }, .cwait h0 { a2 with c := 0xA1, md := 0x18 }, .cread h0 { m0 with sz := 3, sc := 2, off := 8 }] = true ∧
    bad [.phinit h0 { a2 with ty := 1, md := 8 }, .phinit h0 a2, .phsig h0 { a2 with ty := 1, md := 1 }, .phsig h0 { a2 with ty := 1, c := 0x80 },
      .phquery h0 { a2 with ty := 1 }, .cadd h0 a2, .cadd h0 { a2 with ty := 2, md := 0x10 }, .cwait h0 { a2 with c := 0xE1, md := 0x18 },
      .cread h0 { m0 with sz := 3, sc := 1 }, .cread h0 { m0 with sz := 2, sc := 2 }, .cread h0 { m0 with sz := 3, sc := 2, off := 4 }] = true := by
  decide +kernel

def t0 : FmtT := ⟨0xA6, 0xA4, 0xA5, 0x7F, 6, 0, 0⟩
def s0 : FmtS := ⟨0xC8, 0xA0, 0⟩
def e0 : FmtE := ⟨0xC8, 0, 1, 0xA2, 2⟩

/-- R287 to R314. -/
theorem test_ill_matrix :
    ok [.mcfg h0 { s0 with code := 4 }, .mwld h0 { t0 with c := 0xC8, a := 0xC8, m1 := 0, acc := 3, fl := 1 }, .mswap h0 { s0 with a := 0xC8 },
      .mma h0 t0, .mmas h0 { t0 with acc := 4 }, .mzero h0 { t0 with a := 0xC8, w := 0xC8, ty := 4 }, .mpre h0 { t0 with w := 0xC8, ty := 4 },
      .mpost h0 { t0 with w := 0xC8 }, .mdrain h0 s0, .mstat h0 { s0 with d := 0x80, a := 0xC8 }] = true ∧
    bad [.mcfg h0 { s0 with code := 5 }, .mcfg h0 { s0 with a := 0x80 }, .mwld h0 t0, .mwld h0 { t0 with c := 0xC8, a := 0xC8 },
      .mwld h0 { t0 with c := 0xC8, a := 0xC8, m1 := 0, fl := 2 }, .mwld h0 { t0 with c := 0xC8, a := 0xC8, m1 := 0, acc := 4 }, .mswap h0 s0,
      .mma h0 { t0 with ty := 3 }, .mma h0 { t0 with c := 0x80 }, .mma h0 { t0 with acc := 2 }, .mma h0 { t0 with acc := 8 },
      .mma h0 { t0 with w := 0xC8, fl := 8 }, .mma h0 { t0 with ty := 4, fl := 2 }, .mmas h0 { t0 with acc := 6 }] = true ∧
    bad [.mzero h0 { t0 with a := 0xC8, w := 0xC8 }, .mzero h0 { t0 with a := 0xC8, w := 0xC8, ty := 4, acc := 1 }, .mpre h0 { t0 with w := 0xC8, ty := 9 },
      .mpre h0 { t0 with w := 0xC8, ty := 4, acc := 2 }, .mpost h0 t0, .mpost h0 { t0 with w := 0xC8, acc := 6 }, .mpost h0 { t0 with w := 0xC8, fl := 5 },
      .mpost h0 { t0 with w := 0xC8, ty := 10 }, .mdrain h0 { s0 with code := 1 }, .mfence h0 s0, .mstat h0 { s0 with a := 0xC8 }] = true := by
  decide +kernel

/-- R319 to R341. -/
theorem test_ill_copy_task_system :
    ok [.cpld h0 { s0 with code := 15 }, .cpy h0 e0, .halo h0 { e0 with mode := 1 }, .pub h0 { e0 with mode := 0x800 }, .subCopy h0 { e0 with lb := 0 },
      .cpfix h0 { s0 with code := 4 }, .cpq h0 { s0 with d := 0x80, a := 0xC8 }, .spawn h0 ⟨0xC8, 0xA0, 0xA1, 0xC8, 3, 0⟩, .frame h0 ⟨0xC8, 0xA0, 0xA1, 0xA2, 0, 9⟩,
      .dclk h0 ⟨0xC8, 0xA0, 0xC8, 0xC8, 3, 0⟩, .stage h0 ⟨0xC0, 0xC8, 0xC8, 0xC8, 1, 0⟩, .dsync h0 bare] = true ∧
    bad [.cpld h0 { s0 with code := 16 }, .cpy h0 { e0 with la := 16 }, .cpy h0 { e0 with dst := 0x80 }, .cpy h0 { e0 with cnt := 0x80 },
      .cpyx h0 { e0 with mode := 5 }, .cpyw h0 { e0 with mode := 0x22 }, .halo h0 { e0 with mode := 0 }, .halo h0 { e0 with mode := 0x11 }, .pub h0 e0,
      .subCopy h0 e0, .subCopy h0 { e0 with lb := 0, mode := 0x40 }, .cpfix h0 { s0 with code := 3 }, .cpfix h0 { s0 with code := 5 },
      .cpq h0 { s0 with d := 0x80, a := 0xC8, code := 3 }] = true ∧
    bad [.spawn hp ⟨0xC8, 0xA0, 0xA1, 0xC8, 3, 0⟩, .spawn h0 ⟨0xC8, 0xA0, 0xA1, 0xC8, 2, 0⟩, .frame h0 ⟨0xC8, 0xA0, 0xA1, 0xC8, 0, 9⟩,
      .dclk h0 ⟨0xC8, 0x80, 0xC8, 0xC8, 3, 0⟩, .stage h0 ⟨0xC8, 0xC8, 0xC8, 0xC8, 1, 0⟩, .dsync h0 { bare with ty := 1 }, .join hp bare, .done hp bare] = true ∧
    ok [.nop h0 0xFFFFFFFFFFF, .hint h0 { s0 with a := 0xC8 }, .hintSpace h0 31 5, .trap h0 { s0 with a := 0xC8, code := 9 }, .brk h0 { s0 with a := 0xC8 },
      .tret h0 { s0 with a := 0xC8, code := 1 }, .rdsr h0 { s0 with d := 0x80, a := 0xC8, code := 14 }, .wrsr h0 { s0 with code := 8 },
      .carve h0 { s0 with d := 0x80, a := 0xC8, code := 4 }, .halt h0 s0, .rdtr h0 { s0 with d := 0x80, a := 0xC8, code := 15 }] = true ∧
    bad [.unassignedEncoding 0x0400C00000000000, .hint h0 s0, .trap h0 s0, .brk h0 { s0 with a := 0xC8, code := 1 }, .tret h0 { s0 with a := 0xC8, code := 2 },
      .rdsr h0 { s0 with d := 0x80, a := 0xC8, code := 15 }, .rdsr h0 { s0 with d := 0xA0, a := 0xC8 }, .wrsr h0 { s0 with code := 10 },
      .wrsr h0 { s0 with a := 0x80, code := 8 }, .carve h0 { s0 with d := 0x80, a := 0xC8, code := 5 }, .halt hp s0, .halt h0 { s0 with code := 1 },
      .rdtr h0 { s0 with d := 0x80, a := 0xC8, code := 16 }] = true := by decide +kernel

/-! ### Words written out from the encoding tables (R211, R213, R230). -/

/-- One word of each family: head, fields and minor code as the tables place them. -/
theorem test_decode_compute :
    decode 0x0D000020103C8002 = .cmp ⟨4, 0, 0⟩ ⟨2, 1, 3, 0xC8, 0, 2⟩ ∧
    decode 0x2148304010204440 = .ffma ⟨5, 1, 0⟩ ⟨0x04, 0x01, 0x02, 0x04, 4, 0x40⟩ ∧
    decode 0x6000FA5312345678 = .amovk h0 ⟨0xA5, 3, 0x12345678⟩ ∧
    decode 0x7000102000003002 = .brc h0 ⟨2, 3, 2⟩ ∧ decode 0x70005C8C8C8C8000 = .exit h0 bare := by decide +kernel

theorem test_decode_memory :
    decode 0x80000C0810400010 = .ld h0 ⟨0xC0, 0x81, 0, 4, 0, 0, 0x10⟩ ∧
    decode 0x80002C0831110000 = .ldfe h0 ⟨0xC0, 0x83, 1, 1, 0, 1, 0⟩ ∧
    decode 0xA00008381C2C8110 = .atom h0 ⟨0x83, 0x81, 0xC2, 0xC8, 1, 0x10⟩ ∧
    decode 0xA0002C88486C8180 = .red h0 ⟨0xC8, 0x84, 0x86, 0xC8, 1, 0x80⟩ ∧
    decode 0xB0002C8810080000 = .lock h0 ⟨0xC8, 0x81, 0, 0, 2, 0, 0⟩ ∧
    decode 0xB000685810180000 = .acq h0 ⟨0x85, 0x81, 0, 1, 2, 0, 0⟩ ∧
    decode 0xB0008C88182C8001 = .bind h0 ⟨0xC8, 0x81, 0x82, 0xC8, 0, 1⟩ ∧
    decode 0xB400885A9A8C8310 = .cwait h0 ⟨0x85, 0xA9, 0xA8, 0xC8, 3, 0x10⟩ := by decide +kernel

theorem test_decode_engines :
    decode 0xC0003A6A4A57F600 = .mma h0 t0 ∧
    decode 0xC0005A6C8C87F400 = .mzero h0 ⟨0xA6, 0xC8, 0xC8, 0x7F, 4, 0, 0⟩ ∧
    decode 0xC0000C8A30000000 = .mcfg h0 ⟨0xC8, 0xA3, 0⟩ ∧
    decode 0xC0007A7A6A9043B0 = .mpost h0 ⟨0xA7, 0xA6, 0xA9, 4, 3, 0xB, 0⟩ ∧
    decode 0xD8000C8A10000000 = .cpld h0 ⟨0xC8, 0xA1, 0⟩ ∧
    decode 0xD8001C80001A3002 = .cpy h0 ⟨0xC8, 0, 1, 0xA3, 2⟩ ∧
    decode 0xD8002A90203A7001 = .cpyx h0 ⟨0xA9, 2, 3, 0xA7, 1⟩ ∧
    decode 0xD8007A5A40000001 = .cpfix h0 ⟨0xA5, 0xA4, 1⟩ := by decide +kernel

theorem test_decode_system :
    decode 0xE8000C8AAABC8300 = .spawn h0 ⟨0xC8, 0xAA, 0xAB, 0xC8, 3, 0⟩ ∧
    decode 0xE8001C8C8C8C8000 = .join h0 bare ∧ decode 0xF0002C8C80000001 = .tret h0 ⟨0xC8, 0xC8, 1⟩ ∧
    decode 0xF000386C80000009 = .rdsr h0 ⟨0x86, 0xC8, 9⟩ ∧ decode 0xF0005A5C80000002 = .carve h0 ⟨0xA5, 0xC8, 2⟩ ∧
    decode 0x0400C00000000000 = .unassignedEncoding 0x0400C00000000000 ∧ decode 0 = .nop h0 0 := by decide +kernel

/-! ### Small states. -/

/-- A wave on logical core 0, past the header of its block at 0x10000, that issues next; the first GiB is mapped onto itself. -/
def base : State :=
  let s := State.reset.withFetchWord 64 0
  { s with mem := putWord (putWord s.mem 0x10000 0xFC70000000000000) 0x10040 0xFC70000000000000 }
/-- The wave changed; and its split too. -/
def on (f : Wave → Wave) : State := { base with dev := setWave base.dev 0 (f (waveOf base.dev 0)) }
def sp (f : Split → Split) : State := on (fun x => { x with splits := x.splits.map f })
/-- Two active lanes, v1 and v2 in them. -/
def two (a b c e : W32) : State := on (fun x => { x with
  v := [(32, a), (33, b), (64, c), (65, e)], splits := x.splits.map (fun q => { q with mask := 3 }) })
/-- The state after an instruction, and what stands there. -/
def after (i : Instr) (s : State) : State := match exec i s with | .next t => t | _ => s
def reg (s : State) (code l : Nat) : W64 := fileLane (me s.dev) code l
def pcOf (s : State) : Nat := (mySplit s.dev).pc
/-- What an issue changes is there to be tried. -/
def traps (i : Instr) (s : State) (t : Trap) : Bool :=
  match exec i s with
  | .next u => decide (u = finish s.mem (takeTrap s.mem s.dev s.dev.cur.1 s.dev.cur.2 t false))
  | _ => false
theorem adm {i : Instr} {codes : List (BitVec 8)} {s : State}
    (h : (fieldsOk i && inFootprint (me s.dev) codes && offAligned i) = true) : Admitted i codes s := by
  simp only [Bool.and_eq_true] at h
  exact ⟨h.1.1, h.1.2, h.2⟩
def missing (s : State) : Bool := match step s with | .fault .noSuchSplit => true | _ => false

/-! ### Steps. -/

theorem witness_encode : (Instr.ffma ⟨5, 1, 0⟩ ⟨0x04, 0x01, 0x02, 0x04, 4, 0x40⟩).wellFormed = true ∧
    encode (.ffma ⟨5, 1, 0⟩ ⟨0x04, 0x01, 0x02, 0x04, 4, 0x40⟩) = some 0x2148304010204440 := by decide +kernel
theorem witness_stepKeepsInv : Inv base ∧ ∃ t, step base = .next t := ⟨⟨by decide +kernel, rfl⟩, _, rfl⟩

/-- A split that may issue, whose word is fetched; and one whose fetch traps. -/
theorem witness_stepRunsWord : base.dev.agenda = [.issue 0 0] ∧ 0 < base.dev.waves.length ∧ 0 < (waveOf base.dev 0).splits.length ∧
    mayIssue base.mem { base.dev with agenda := [], cur := (0, 0) } 0 0 = true ∧
    ∃ word e, Runs (fetchWord 0x10008) base.mem { base.dev with agenda := [] } word e :=
  ⟨rfl, by decide +kernel, by decide +kernel, by decide +kernel, _, _, rfl⟩
theorem witness_fetchTraps : mayIssue base.mem { (sp (fun q => { q with pc := 0x40000008 })).dev with agenda := [], cur := (0, 0) } 0 0 = true ∧
    ∃ t, runAct (fetchWord 0x40000008) base.mem (sp (fun q => { q with pc := 0x40000008 })).dev = .error t :=
  ⟨by decide +kernel, _, rfl⟩
/-- A step runs the word where the split stands: here `exit` of the last lanes. -/
theorem test_step_exit : (match step (State.reset.withFetchWord 64 0x70005C8C8C8C8000) with
    | .next t => (waveOf t.dev 0).live
    | _ => true) = false := by decide +kernel

def trapBrk : Trap := { cause := 0x16 }
theorem witness_dueFirst :
    canMove (on (fun x => { x with epochDue := 1 })).dev 0 0 = true ∧
    trapDue (waveOf (on (fun x => { x with atraps := [⟨1, trapBrk⟩] })).dev 0) 0 = true ∧
    canMove (on (fun x => { x with atraps := [⟨1, trapBrk⟩] })).dev 0 0 = true ∧
    canMove (on (fun x => { x with preemptHit := true })).dev 0 0 = true ∧
    canMove (sp (fun q => { q with entering := true })).dev 0 0 = true ∧
    canMove (sp (fun q => { q with park := .bar })).dev 0 0 = false := by decide +kernel
/-- Two waves of one sub-pipe, the second changed. -/
def pair (f : Wave → Wave) : Dev := { base.dev with agenda := [], waves := base.dev.waves.map unpromoted ++ (base.dev.waves.map unpromoted).map f }
def promotedAt (n : Nat) (x : Wave) : Wave := { x with splits := x.splits.map (fun q => { q with promoted := some n }) }
/-- The promoted, the earlier promoted and the higher stage go first; the other split may not issue; nor into a slot taken in this cycle. -/
theorem witness_issueOrder : ([promotedAt 3, fun x => { x with stage := 1 }].all (fun f =>
      mayIssue base.mem (pair f) 1 0 && !mayIssue base.mem (pair f) 0 0 && readyNow base.mem (pair f) 0 0 &&
      nextStreams base.mem (pair f) 0 0 == (true, true) && goesBefore (pair f) false (1, 0) (0, 0))) = true ∧
    goesBefore { pair id with waves := [promotedAt 3 (waveOf base.dev 0), promotedAt 2 (waveOf base.dev 0)] } true (1, 0) (0, 0) = true ∧
    mayIssue base.mem (setCore (pair id) 0 { coreOf base.dev 0 with issued := [(0, (1, 0, 0))] }) 1 0 = false := by decide +kernel
/-- An execute word that puts a value into qv, a store of that value to a0, an addition to a1, and a load from a2. -/
def pushQv : Instr := .add h0 ⟨0xC2, 1, 1, 0xC8, 0, 0⟩
def storeQv : Instr := .st h0 ⟨0xC2, 0x80, 0, 4, 0, 0, 0⟩
def nextA : Instr := .aadd ⟨3, 0, 0⟩ ⟨0x82, 0x81, 0xE4, 0xC8, 3, 0⟩
def loadA : Instr := .ld h0 ⟨0xC0, 0x82, 0, 4, 0, 0, 0⟩
/-- Such words from 0x10008 on, with a0, and 0x20104 in a1, in the one active lane; 77 stands at 0x20108. -/
def running (is : List Instr) (a0 : W64) : State :=
  let s := on (fun x => { fileSet (fileSet x 0x80 1 (fun _ => a0)) 0x81 1 (fun _ => 0x20104) with
    splits := x.splits.map (fun q => { q with mask := 1 }) })
  { s with mem := is.zipIdx.foldl (fun m p => putWord m (0x10008 + 8 * p.2) ((encode p.1).getD 0)) (putWord s.mem 0x20108 77) }
def aheadIn (s : State) : Option (List Ahead) := (aheadOf s.mem s.dev 0 0).map (fun d => (splitOf (waveOf d 0) 0).early)
def loaded77 : Ahead := { pc := 0x10020, clock := 3, lanes := 1, vals := [(0, 77)] }
/-- The load runs ahead of the store that waits for its value, but not of one to its own address, nor of a fence (R104). -/
theorem test_ahead : aheadIn (running [pushQv, storeQv, nextA, loadA] 0x20000) = some [loaded77] ∧
    aheadIn (running [pushQv, storeQv, nextA, loadA] 0x20108) = none ∧
    aheadIn (running [pushQv, .fence h0 ⟨0xC8, 0xC8, 0, 0, 0, 2, 0⟩, nextA, loadA] 0x20000) = none := by decide +kernel
theorem witness_ahead : wordNext base.dev 0 0 = true ∧ wordNext (sp (fun q => { q with entering := true })).dev 0 0 = false ∧
    (waveOf (on (fun x => { x with fo := true })).dev 0).fo = true ∧
    (match runAct (loadPast [] 3 []) (running [pushQv, storeQv, nextA, loadA] 0x20000).mem (running [pushQv, storeQv, nextA, loadA] 0x20000).dev with
      | .ok (some _, _) => true
      | _ => false) = true ∧
    (match runAct (loadPast [] 3 []) (running [pushQv, storeQv, nextA, loadA] 0x20108).mem (running [pushQv, storeQv, nextA, loadA] 0x20108).dev with
      | .ok (none, _) => true
      | _ => false) = true ∧
    HoldsBack (.fence h0 ⟨0xC8, 0xC8, 0, 0, 0, 2, 0⟩) ∧ decode 0xb000ac8c80020000 = .fence h0 ⟨0xC8, 0xC8, 0, 0, 0, 2, 0⟩ ∧
    (memForm loadA).any (fun q => !q.store) = true ∧
    (memForm (.st h0 ⟨0x83, 0x80, 0, 4, 0, 0, 0⟩)).any (fun q => q.store && opd q.reg != .qv) = true := by
  refine ⟨by decide +kernel, by decide +kernel, rfl, by decide +kernel, by decide +kernel, trivial, by decide +kernel, by decide +kernel,
    by decide +kernel⟩
theorem test_takeAhead : ((mySplit (takeAhead base.mem (sp (fun q => { q with early := [{ loaded77 with pc := 0x10008, clock := 0 }] })).dev 0 0 0)).servedVals,
      (mySplit (takeAhead base.mem (sp (fun q => { q with early := [{ loaded77 with pc := 0x10008, clock := 0 }] })).dev 0 0 0)).early) = ([(0, 77)], []) ∧
    takeAhead base.mem (sp (fun q => { q with early := [loaded77] })).dev 0 0 0 = (sp (fun q => { q with early := [loaded77] })).dev := by decide +kernel
theorem witness_noSuchSplit : missing { base with dev := { base.dev with agenda := [.issue 0 1] } } = true ∧
    missing { base with dev := { base.dev with agenda := [.issue 1 0] } } = true := by decide +kernel

/-! ### Memory, registers, queues, operands. -/

theorem test_memory : rdByte base.mem (wrBytes base.dev 0x20000 [1, 2]) 0x20001 = 2 ∧
    look blankByte (finish base.mem (wrBytes base.dev 0x20000 [1, 2])).mem 0x20000 = 1 ∧ memWf base.mem = true := by decide +kernel
/-- The last register of each file, written in lane 31 alone; p0 and g0 are not written. -/
theorem test_registers :
    let x : Wave := {}
    let m := 0x80000000#32
    let f : Nat → W64 := fun _ => 0x1_0000_0005
    fileLane (fileSet x 0x7F m f) 0x7F 31 = 5 ∧ fileLane (fileSet x 0x7F m f) 0x7F 30 = 0 ∧ fileLane (fileSet x 0x9F m f) 0x9F 31 = 0x1_0000_0005 ∧
    fileLane (fileSet x 0xBF m f) 0xBF 0 = 0x1_0000_0005 ∧ fileLane (fileSet x 0x107 m f) 0x107 31 = 1 ∧ fileLane (fileSet x 0x107 m f) 0x107 0 = 0 ∧
    fileLane (fileSet x 0x10F m f) 0x10F 7 = 1 ∧ fileLane (fileSet x 0x100 m (fun _ => 0)) 0x100 31 = 1 ∧
    fileLane (fileSet x 0x108 m (fun _ => 0)) 0x108 0 = 1 := by decide +kernel

/-- A pending write of v1 in lane 0: latency 4 at distance n, 7 before it, 9 after. -/
def pending (n : Nat) : Pend := { acc := false, code := 1, lat := 4, dist := n, mask := 1, old := [(0, 7)] }
def early (n : Nat) : W64 := regLane { (waveOf base.dev 0) with v := [(32, 9)] } { pend := [pending n] } 1 0
theorem test_early : early 3 = 7 ∧ early 4 = 9 := by decide +kernel
theorem witness_early : ([pending 3].filter (fun p => p.code == 1 && p.mask.getLsbD (laneIdx 1 0))) = pending 3 :: [] ∧
    ¬ (pending 3).lat ≤ (pending 3).dist ∧ (pending 4).lat ≤ (pending 4).dist ∧
    ([pending 3].filter (fun p => p.code == 2 && p.mask.getLsbD (laneIdx 2 0))) = [] := by decide +kernel

def queued (n : Nat) : State := sp (fun q => { q with qd := List.replicate n [(0, 5)], qv := List.replicate n [(0, 6)] })
theorem witness_queues : (mySplit (queued 0).dev).qd = [] ∧ (mySplit (queued 0).dev).qv = [] ∧
    (∃ a q, (mySplit (queued 15).dev).qd = a :: q) ∧ (∃ a q, (mySplit (queued 15).dev).qv = a :: q) ∧
    (mySplit (queued 15).dev).qd.length < 16 ∧ 16 ≤ (mySplit (queued 16).dev).qd.length ∧ (mySplit (queued 15).dev).qv.length < 16 ∧
    16 ≤ (mySplit (queued 16).dev).qv.length := ⟨rfl, rfl, ⟨_, _, rfl⟩, ⟨_, _, rfl⟩, by decide +kernel, by decide +kernel, by decide +kernel, by decide +kernel⟩

/-- In the middle of a block; at its end, with a header and without one at the next boundary. -/
def atEnd (len : Nat) : State := sp (fun q => { q with pc := 0x10000 + 8 * len, len := len })
theorem witness_retire : atLast (mySplit base.dev) = false ∧ base.dev.cur.1 < base.dev.waves.length ∧ base.dev.cur.2 < (me base.dev).splits.length ∧
    atLast (mySplit (atEnd 7).dev) = true ∧ (∃ d1, Runs (checkTarget (w64 0x10040)) base.mem (atEnd 7).dev () d1 ∧
      d1.cur = (atEnd 7).dev.cur ∧ d1.waves = (atEnd 7).dev.waves) ∧
    atLast (mySplit (atEnd 15).dev) = true ∧ ∃ t, runAct (checkTarget (w64 0x10080)) base.mem (atEnd 15).dev = .error t :=
  ⟨by decide +kernel, by decide +kernel, by decide +kernel, by decide +kernel, ⟨_, rfl, rfl, rfl⟩, by decide +kernel, _, rfl⟩
theorem witness_retireAgain : atLast (mySplit (sp (fun q => { q with pc := 0x10038, ans := some [] })).dev) = true ∧
    (mySplit (sp (fun q => { q with pc := 0x10038, ans := some [] })).dev).ans.isSome = true ∧
    pcOf (after (.nop h0 0) (sp (fun q => { q with pc := 0x10078, len := 15, served := 1 }))) = 0x10080 := by decide +kernel
theorem test_retire : pcOf (after (.nop ⟨3, 0, 0⟩ 0) base) = 0x10010 ∧ (mySplit (after (.nop h0 0) base).dev).clock = 1 ∧
    pcOf (after (.nop h0 0) (atEnd 7)) = 0x10040 ∧ (mySplit (after (.nop h0 0) (atEnd 7)).dev).entering = true := by decide +kernel

theorem witness_operands : opd 0xFF = .inl (-1) ∧ opd 0xE0 = .inl 0 ∧ opd 0xC8 = .zero ∧ opd 0xC0 = .qd ∧ opd 0xC1 = .qdPeek ∧
    opd 0xC2 = .qv ∧ opd 0x7F = .v 127 ∧ opd 0x9F = .a 31 ∧ opd 0xBF = .s 31 ∧ regAS 0xBF = true ∧ (me base.dev).chk = false ∧
    tyBits (ty 3) = 64 ∧ tyBits (ty 0) ≠ 64 := by decide +kernel

/-! ### Traps. -/

def xlate : Trap := { cause := 0x07, addr := 0x40000000, info0 := 0x40000000, info1 := 0x40000000 }
def inHandler : Handler :=
  { qd := [[(0, 5)]], qv := [], qb := [], pend := [], hdr := 0x10000, pc := 0x10010, entering := false, len := 7, reconv := 0, ans := none,
    served := 0, servedVals := [], async := false, peerLost := false, waitUntil := none, forced := [], depth := 0, record := [1, 2, 3, 4, 5, 6, 7, 8], cont := [] }
def handling : State := sp (fun q => { q with handler := some inHandler })
def based : State := { base with dev := setSet base.dev 0 { setOf base.dev 0 with trapbase := 0x10040 } }

/-- The first of a region opens its episode, the second joins it; a local cause with TRAPBASE set, and without; BRK. -/
theorem witness_traps : replayable xlate = true ∧ (joinEpisode base.dev 0 0 xlate [0]).2 = true ∧
    (joinEpisode (joinEpisode base.dev 0 0 xlate [0]).1 0 0 xlate [0]).2 = false ∧ replayable { cause := 0x02 } = false ∧
    (setOf based.dev 0).trapbase ≠ 0 ∧ (mySplit based.dev).handler = none ∧ (setOf base.dev 0).trapbase = 0 ∧
    (mySplit handling.dev).handler.isSome = true := by decide +kernel
/-- A local trap goes to TRAPBASE; without one it holds the split. -/
theorem test_trap : pcOf (after (.trap h0 ⟨0xC8, 0xC8, 5⟩) based) = 0x10040 ∧
    ((mySplit (after (.trap h0 ⟨0xC8, 0xC8, 5⟩) based).dev).handler.map (fun k => (k.pc, nth k.record 5 0))) = some (0x10008, 5) ∧
    (mySplit (after (.trap h0 ⟨0xC8, 0xC8, 5⟩) base).dev).park = .held ∧
    (mySplit (after (.brk h0 ⟨0xC8, 0xC8, 0⟩) based).dev).park = .held := by decide +kernel
theorem witness_illegal : encode (.add h0 { x2 with md := 1 }) ≠ none ∧ fieldsOk (.add h0 { x2 with md := 1 }) = false ∧
    fieldsOk (.ld h0 { m0 with off := 2 }) = true ∧ offAligned (.ld h0 { m0 with off := 2 }) = false ∧
    inFootprint (me (on (fun x => { x with vblk := 0 })).dev) (codesX { x2 with d := 16 }) = false ∧
    inFootprint (me (on (fun x => { x with vblk := 0 })).dev) (codesX { x2 with d := 15 }) = true := by decide +kernel
theorem witness_misaligned : (∃ d, Runs (acting h0 false) base.mem base.dev 0xFFFFFFFF d) ∧ traps (.ld hp { m0 with off := 2 }) base { cause := 0x02, addr := 2 } = false :=
  ⟨⟨_, rfl⟩, by decide +kernel⟩
theorem test_illegal : traps (.add h0 { x2 with md := 1 }) base { cause := 0x01, info0 := encodeD (.add h0 { x2 with md := 1 }) } = true ∧
    traps (.ld h0 { m0 with off := 2 }) base { cause := 0x02, addr := 2 } = true ∧
    traps (.unassignedEncoding 0x0400C00000000000) base { cause := 0x01, info0 := 0x0400C00000000000 } = true := by decide +kernel

def sTret (c : BitVec 28) : FmtS := ⟨0xC8, 0xC8, c⟩
theorem witness_handlers : Admitted (.trap h0 (sTret 5)) [] base ∧ Admitted (.brk h0 (sTret 0)) [] base ∧ Admitted (.tret h0 (sTret 0)) [] base ∧
    (mySplit base.dev).handler = none ∧ (mySplit handling.dev).handler = some inHandler ∧ Admitted (.tret h0 (sTret 1)) [] handling ∧
    (∃ word e, Runs (fetchWord 0x10010) handling.mem (setMySplit (countWord handling.dev 0 true true)
      (leaveHandler (mySplit (countWord handling.dev 0 true true)) inHandler)) word e) ∧ Admitted (.rdtr h0 ⟨0x80, 0xC8, 5⟩) [] handling ∧
    ∃ d2 e, Runs (putA 0 (mySplit handling.dev).mask 0x80 (fun _ => nth inHandler.record 5 0)) handling.mem handling.dev () d2 ∧
      Runs (retireWord 0 true true) handling.mem d2 () e :=
  ⟨adm (by decide +kernel), adm (by decide +kernel), adm (by decide +kernel), rfl, rfl, adm (by decide +kernel), ⟨_, _, rfl⟩, adm (by decide +kernel),
    _, _, rfl, rfl⟩
theorem test_tret : pcOf (after (.tret h0 (sTret 0)) handling) = 0x10010 ∧ (mySplit (after (.tret h0 (sTret 0)) handling).dev).qd = [[(0, 5)]] ∧
    pcOf (after (.tret h0 (sTret 1)) handling) = 0x10018 ∧ reg (after (.rdtr h0 ⟨0x80, 0xC8, 5⟩) handling) 0x80 31 = 6 := by decide +kernel

/-! ### Compute. Expected values are worked out by hand from the rules that each comment names. -/

def f32 : FmtX := ⟨0, 1, 2, 0xC8, 4, 0⟩
/-- v0 in lane 0, and in lane 1, after a word on the values of v1 and v2. -/
def r0 (i : Instr) (a c : W32) : W64 := reg (after i (two a 0 c 0)) 0 0
def r1 (i : Instr) (b e : W32) : W64 := reg (after i (two 0 b 0 e)) 0 1

/-- R235: results wrap; `mulhi` is signed for i32; `sad4` adds the byte differences. -/
theorem test_integer :
    r0 (.add h0 x2) 0xFFFFFFFF 3 = 2 ∧ r0 (.sub h0 x2) 3 5 = 0xFFFFFFFE ∧ r0 (.mul h0 x2) 0x10000 0x10001 = 0x10000 ∧
    r0 (.mulhi h0 x2) 0xFFFFFFFF 2 = 0xFFFFFFFF ∧ r0 (.mulhi h0 { x2 with ty := 1 }) 0xFFFFFFFF 2 = 1 ∧
    r0 (.mad h0 { x2 with c := 0xE7 }) 5 6 = 37 ∧ r0 (.madhi h0 { x2 with c := 0xE1, ty := 1 }) 0xFFFFFFFF 0xFFFFFFFF = 0xFFFFFFFE ∧
    r0 (.min h0 x2) 0xFFFFFFFF 1 = 0xFFFFFFFF ∧ r0 (.min h0 { x2 with ty := 1 }) 0xFFFFFFFF 1 = 1 ∧ r0 (.max h0 x2) 0xFFFFFFFF 1 = 1 ∧
    r0 (.abs h0 x1) 0x80000000 0 = 0x80000000 ∧ r0 (.neg h0 x1) 5 0 = 0xFFFFFFFB ∧ r0 (.clamp h0 { x2 with c := 0xE5 }) 9 0 = 5 ∧
    r0 (.sad4 h0 { x2 with c := 0xE1, ty := 1 }) 0x00FF0010 0x01000020 = 273 := by decide +kernel
/-- R236: counts at the width; `lsel` with the tables of R236. -/
theorem test_logic :
    r0 (.and h0 x2) 12 10 = 8 ∧ r0 (.or h0 x2) 12 10 = 14 ∧ r0 (.xor h0 x2) 12 10 = 6 ∧ r0 (.andn h0 x2) 12 10 = 4 ∧
    r0 (.not h0 x1) 5 0 = 0xFFFFFFFA ∧ r0 (.shl h0 x2) 1 32 = 0 ∧ r0 (.shl h0 x2) 3 31 = 0x80000000 ∧ r0 (.shr h0 x2) 0x80000000 31 = 1 ∧
    r0 (.sar h0 x2) 0x80000000 40 = 0xFFFFFFFF ∧ r0 (.rotl h0 x2) 0x80000001 33 = 3 ∧ r0 (.popc h0 x1) 0xF0F 0 = 8 ∧
    r0 (.clz h0 x1) 0 0 = 32 ∧ r0 (.ctz h0 x1) 8 0 = 3 ∧ r0 (.brev h0 x1) 1 0 = 0x80000000 ∧
    r0 (.lsel h0 { x2 with c := 0xFF, md := 0x80 }) 12 10 = 8 := by decide +kernel
/-- R237; a pair of registers holds 64 bits (R219). -/
theorem test_fields :
    r0 (.bfx h0 ⟨0, 1, 0, 0x000404⟩) 0xF0 0 = 0xFFFFFFFF ∧ r0 (.bfx h0 ⟨0, 1, 1, 0x000404⟩) 0xF0 0 = 15 ∧ r0 (.bfx h0 ⟨0, 1, 0, 0x000004⟩) 0xF0 0 = 0 ∧
    reg (after (.bfi h0 ⟨2, 1, 1, 0x000408⟩) (two 0xFF 0 0xFFFFFFFF 0)) 2 0 = 0xFFFFFFFF ∧
    reg (after (.bfi h0 ⟨2, 1, 1, 0x000408⟩) (two 0 0 0xFFFFFFFF 0)) 2 0 = 0xFFFFF0FF ∧
    reg (after (.add h0 ⟨4, 2, 0xFF, 0xC8, 3, 0⟩) (two 0 0 0 0)) 5 0 = 0xFFFFFFFF := by decide +kernel
/-- R238, R239: a predicate in the lane, combined with another; NaN is unordered. -/
def p3 (i : Instr) (a c : W32) : W64 := reg (after i (two a 0 c 0)) 0x103 0
theorem test_compare :
    p3 (.cmp h0 { x2 with d := 3, md := 2 }) 0xFFFFFFFF 0 = 1 ∧ p3 (.cmp h0 { x2 with d := 3, md := 2, ty := 1 }) 0xFFFFFFFF 0 = 0 ∧
    p3 (.cmp h0 { x2 with d := 3, md := 0x20, c := 0 }) 1 2 = 1 ∧ p3 (.fcmp h0 { f32 with d := 3, md := 0 }) 0x80000000 0 = 1 ∧
    p3 (.fcmp h0 { f32 with d := 3, md := 7 }) 0x7FC00000 0 = 1 ∧ p3 (.fcmp h0 { f32 with d := 3, md := 10 }) 0x7FC00000 0 = 1 ∧
    (me (after (.fcmp h0 { f32 with d := 3, md := 2 }) (two 0x7FC00000 0 0 0)).dev).fstat = 1 ∧
    r0 (.sel h0 { x2 with c := 0 }) 7 8 = 7 ∧ r0 (.sel h0 { x2 with c := 1 }) 7 8 = 8 ∧ p3 (.setp h0 { x1 with d := 3 }) 2 0 = 1 ∧
    r0 (.getp h0 { x1 with a := 0, ty := 1 }) 0 0 = 1 ∧ p3 (.pand h0 ⟨3, 0, 1, 0xC8, 0, 2⟩) 0 0 = 1 ∧ p3 (.por h0 ⟨3, 1, 1, 0xC8, 0, 0⟩) 0 0 = 0 ∧
    p3 (.pxor h0 ⟨3, 0, 0, 0xC8, 0, 0⟩) 0 0 = 0 ∧ p3 (.pnot h0 ⟨3, 1, 0xC8, 0xC8, 0, 0⟩) 0 0 = 1 := by decide +kernel
/-- R240 to R245: 1 + 2, 1 − 2, 2 × 0.5, 2 × 2 + 1, 1 ÷ 0 is +∞ with DIV (and 0 ÷ 0 in lane 1 INV), √4, 2^−1, log2 8, sin(π/2), cos π. -/
theorem test_float :
    r0 (.fadd h0 f32) 0x3F800000 0x40000000 = 0x40400000 ∧ r0 (.fsub h0 f32) 0x3F800000 0x40000000 = 0xBF800000 ∧
    r0 (.fmul h0 f32) 0x40000000 0x3F000000 = 0x3F800000 ∧ r0 (.ffma h0 { f32 with c := 0xE1 }) 0x40000000 0x40000000 = 0x40A00000 ∧
    r0 (.fdiv h0 f32) 0x3F800000 0 = 0x7F800000 ∧ (me (after (.fdiv h0 f32) (two 0x3F800000 0 0 0)).dev).fstat = 3 ∧
    r0 (.fsqrt h0 { f32 with b := 0xC8 }) 0x40800000 0 = 0x40000000 ∧ r0 (.frcp h0 { f32 with b := 0xC8 }) 0x40800000 0 = 0x3E800000 ∧
    r0 (.frsq h0 { f32 with b := 0xC8 }) 0x40800000 0 = 0x3F000000 := by decide +kernel
theorem test_transcendental :
    r0 (.fexp2 h0 { f32 with b := 0xC8 }) 0xBF800000 0 = 0x3F000000 ∧ r0 (.flog2 h0 { f32 with b := 0xC8 }) 0x41000000 0 = 0x40400000 ∧
    r0 (.fsinpi h0 { f32 with b := 0xC8 }) 0x3F000000 0 = 0x3F800000 ∧ r0 (.fcospi h0 { f32 with b := 0xC8 }) 0x3F800000 0 = 0xBF800000 := by
  decide +kernel
/-- R241, R243, R245: −0 is below +0, a NaN loses; 2.5 rounds to 2; the class of −∞ is bit 0 of R245's table. -/
theorem test_float_choices :
    r0 (.fmin h0 f32) 0 0x80000000 = 0x80000000 ∧ r0 (.fmax h0 f32) 0x7FC00000 0x3F800000 = 0x3F800000 ∧
    r0 (.fclamp h0 { f32 with c := 0xE1 }) 0x40000000 0 = 0x3F800000 ∧ r0 (.ffloor h0 { f32 with b := 0xC8 }) 0xBFC00000 0 = 0xC0000000 ∧
    r0 (.fceil h0 { f32 with b := 0xC8 }) 0x3FC00000 0 = 0x40000000 ∧ r0 (.ftrunc h0 { f32 with b := 0xC8 }) 0xBFC00000 0 = 0xBF800000 ∧
    r0 (.fround h0 { f32 with b := 0xC8 }) 0x40200000 0 = 0x40000000 ∧ r0 (.fclass h0 { f32 with b := 0xC8 }) 0x7FC00000 0 ≠ r0 (.fclass h0 { f32 with b := 0xC8 }) 0 0 := by
  decide +kernel
/-- R246 to R250: −1.5 to i32 is −2 to nearest even; 1.0 to f16; two halves; `srnd` of 0 stands for 1. -/
theorem test_convert :
    r0 (.cvt h0 ⟨0, 1, 0xC8, 0xC8, 0, 4⟩) 0xBFC00000 0 = 0xFFFFFFFE ∧ r0 (.cvt h0 ⟨0, 1, 0xC8, 0xC8, 5, 4⟩) 0x3F800000 0 = 0x3C00 ∧
    r0 (.pack2 h0 ⟨0, 1, 2, 0xC8, 5, 4⟩) 0x3F800000 0x40000000 = 0x40003C00 ∧
    reg (after (.unpack2 h0 ⟨4, 1, 0xC8, 0xC8, 4, 5⟩) (two 0x40003C00 0 0 0)) 5 0 = 0x40000000 ∧
    nth (me (after (.srnd h0 ⟨0xC8, 1, 0xC8, 0xC8, 1, 0⟩) (two 0 0 0 0)).dev).rss 0 0 = 1 := by decide +kernel
/-- R251 to R253: lane 0 reads lane 1; no lane 5; counts; the scan of 3 and 4 is 3 and 7. -/
theorem test_lanes :
    reg (after (.shfl h0 { x2 with md := 0x16, b := 0xE1 }) (two 3 4 0 0)) 0 0 = 4 ∧ reg (after (.bcast h0 { x2 with b := 0xE1 }) (two 3 4 0 0)) 0 0 = 4 ∧
    reg (after (.bcast h0 { x2 with b := 0xE5 }) (two 3 4 0 0)) 0 0 = 0 ∧ p3 (.vote h0 ⟨3, 0, 0xC8, 0xC8, 0, 0⟩) 0 0 = 1 ∧
    p3 (.vote h0 ⟨3, 0, 0xC8, 0xC8, 0, 2⟩) 0 0 = 0 ∧ r0 (.ballot h0 ⟨0, 0, 0xC8, 0xC8, 1, 0⟩) 0 0 = 3 ∧
    r1 (.wscan h0 x1) 4 0 = 4 ∧ reg (after (.wscan h0 x1) (two 3 4 0 0)) 0 1 = 7 ∧ reg (after (.wscan h0 { x1 with md := 0x10 }) (two 3 4 0 0)) 0 1 = 3 ∧
    reg (after (.wred h0 x1) (two 3 4 0 0)) 0 0 = 7 := by decide +kernel

/-- R254 to R256: 64-bit addresses; i32 results extend their sign; `acmp` reduces its lanes. -/
def acc_ (a b : W64) : State := on (fun x => { x with a := [(32, a), (64, b)], splits := x.splits.map (fun q => { q with mask := 1 }) })
def A (i : Instr) (a b : W64) : W64 := reg (after i (acc_ a b)) 0x80 0
def ax (t : BitVec 4) : FmtX := ⟨0x80, 0x81, 0x82, 0xC8, t, 0⟩
theorem test_access :
    A (.aadd h0 (ax 3)) 0xFFFFFFFFFFFFFFFF 2 = 1 ∧ A (.aadd h0 (ax 0)) 0x7FFFFFFF 1 = 0xFFFFFFFF80000000 ∧ A (.asub h0 (ax 1)) 0 1 = 0xFFFFFFFF ∧
    A (.amul h0 (ax 3)) 3 5 = 15 ∧ A (.amad h0 { ax 3 with c := 0xE1 }) 3 5 = 16 ∧ A (.ashl h0 (ax 3)) 1 64 = 0 ∧ A (.ashr h0 (ax 3)) 0x8000000000000000 63 = 1 ∧
    A (.asar h0 (ax 2)) 0x8000000000000000 99 = 0xFFFFFFFFFFFFFFFF ∧ A (.aand h0 (ax 3)) 12 10 = 8 ∧ A (.aor h0 (ax 3)) 12 10 = 14 ∧
    A (.axor h0 (ax 3)) 12 10 = 6 ∧ A (.amin h0 (ax 2)) 0xFFFFFFFFFFFFFFFF 1 = 0xFFFFFFFFFFFFFFFF ∧ A (.amax h0 (ax 3)) 0xFFFFFFFFFFFFFFFF 1 = 0xFFFFFFFFFFFFFFFF ∧
    A (.asel h0 { ax 3 with c := 1 }) 7 8 = 8 ∧ A (.amov h0 { ax 3 with b := 0xC8 }) 7 0 = 7 ∧ A (.amovk h0 ⟨0x80, 2, 0x80000000⟩) 0 0 = 0xFFFFFFFF80000000 ∧
    reg (after (.acmp h0 { ax 3 with d := 2, md := 0x42 }) (acc_ 1 2)) 0x10A 0 = 1 := by decide +kernel

/-! ### Witnesses of the statements about computing words: operands that are taken, a destination that is written, a word that
retires. -/

theorem witness_plain : ∃ q d0 d1 e, Admitted (.add h0 x2) (codesX x2) base ∧ Runs (takeX h0 x2 (some .i32) (some .i32) none) base.mem base.dev q d0 ∧
    Runs (putX .i32 4 q.1 0 (fun l => (laneOf d0 0 (some .i32) (some .i32) none q
      (fun env a b _ => { val := intCode .i32 (intOf .i32 a + intOf .i32 b), rss := env.rss }) l).val)) base.mem
      (keepRes d0 q.1 (laneOf d0 0 (some .i32) (some .i32) none q
        (fun env a b _ => { val := intCode .i32 (intOf .i32 a + intOf .i32 b), rss := env.rss }))) () d1 ∧
    Runs (retireWord 0 false true) base.mem d1 () e := ⟨_, _, _, _, adm (by decide +kernel), rfl, rfl, rfl⟩
theorem witness_fields : (fieldsOk (.bfx h0 ⟨0, 1, 1, 0x001010⟩) = true) ∧ fieldsOk (.bfi h0 ⟨0, 2, 3, 0x00013F⟩) = true ∧
    fieldsOk (.bfx h0 ⟨0, 1, 1, 0x004100⟩) = false ∧ tyBits (ty 3) = 64 := by decide +kernel
theorem witness_compare : ∃ q d0 d1, Admitted (.cmp h0 { x2 with md := 2 }) (codesX { x2 with md := 2 }) base ∧
    Runs (takeC h0 { x2 with md := 2 }) base.mem base.dev q d0 ∧ Runs (putPred true 4 q.1 3 (fun _ => true)) base.mem d0 () d1 :=
  ⟨_, _, _, adm (by decide +kernel), rfl, rfl⟩
theorem witness_select : ∃ q d0 p d1, Admitted (.sel h0 { x2 with c := 1 }) (codesX { x2 with c := 1 }) base ∧
    Runs (takeC h0 { x2 with c := 1 }) base.mem base.dev q d0 ∧ Runs (takeP h0 ⟨3, 0, 1, 0xC8, 0, 2⟩) base.mem base.dev p d1 :=
  ⟨_, _, _, _, adm (by decide +kernel), rfl, rfl⟩
theorem witness_float : Admitted (.ffma h0 { f32 with c := 0xE1 }) (codesX { f32 with c := 0xE1 }) base ∧
    ∃ q d0, Runs (takeX h0 { f32 with c := 0xE1 } (some .f32) (some .f32) (some .f32)) base.mem base.dev q d0 :=
  ⟨adm (by decide +kernel), _, _, rfl⟩
/-- A group of one f32 value in each of 32 lanes; its descriptor, and one that is none. -/
theorem witness_groups : Admitted (.quant h0 ⟨4, 1, 0xC8, 0xC8, 7, 4⟩) (codesX ⟨4, 1, 0xC8, 0xC8, 7, 4⟩) base ∧
    (∃ q d0, Runs (takeX h0 ⟨4, 1, 0xC8, 0xC8, 7, 4⟩ (some .f32) none none) base.mem base.dev q d0) ∧
    Admitted (.dequant h0 ⟨4, 2, 0xC8, 0xC8, 4, 0⟩) (codesX ⟨4, 2, 0xC8, 0xC8, 4, 0⟩) base ∧ Runs (acting h0 true) base.mem base.dev 0xFFFFFFFF base.dev ∧
    lowLane 0xFFFFFFFF = some 0 ∧ descOk 0x7F07 = true ∧ descOk 0xFFFF = false :=
  ⟨adm (by decide +kernel), ⟨_, _, rfl⟩, adm (by decide +kernel), rfl, by decide +kernel, by decide +kernel, by decide +kernel⟩
theorem witness_lanes : ∃ q d0 p d1 w d2, Runs (takeS h0 { x2 with md := 0x16 }) base.mem base.dev q d0 ∧ Runs (takeP h0 ⟨3, 0, 0xC8, 0xC8, 0, 0⟩) base.mem base.dev p d1 ∧
    Runs (takeW h0 x1) base.mem base.dev w d2 ∧ Admitted (.shfl h0 { x2 with md := 0x16 }) (codesX { x2 with md := 0x16 }) base ∧
    Admitted (.wscan h0 x1) (codesX x1) base := ⟨_, _, _, _, _, _, rfl, rfl, rfl, adm (by decide +kernel), adm (by decide +kernel)⟩
theorem witness_access : ∃ q d0 d1, Admitted (.aadd h0 (ax 3)) [] (acc_ 1 2) ∧ Runs (takeA h0 0x81 0x82 0xC8 0xC8) base.mem (acc_ 1 2).dev q d0 ∧
    Runs (putA 2 q.1 0x80 (fun _ => 3)) base.mem d0 () d1 := ⟨_, _, _, adm (by decide +kernel), rfl, rfl⟩

/-! ### Control and memory. -/

/-- An action runs, and its value and its device pass a check. -/
def go {α : Type} (x : Act α) (m : Memory) (d : Dev) (k : α → Dev → Bool) : Bool :=
  match runAct x m d with
  | .ok (a, e) => k a e
  | .error _ => false
def admitted (i : Instr) (s : State) : Bool := fieldsOk i && inFootprint (me s.dev) [] && offAligned i
/-- An action that runs, found by running it. -/
theorem runs_ex {α : Type} {x : Act α} {m : Memory} {d : Dev}
    (h : (match runAct x m d with | .ok _ => true | .error _ => false) = true) : ∃ a e, Runs x m d a e := by
  unfold Runs
  split at h
  · rename_i r hr; exact ⟨r.1, r.2, hr⟩
  · cases h
theorem runs_unit {x : Act Unit} {m : Memory} {d : Dev}
    (h : (match runAct x m d with | .ok _ => true | .error _ => false) = true) : ∃ e, Runs x m d () e := by
  unfold Runs
  split at h
  · rename_i r hr; exact ⟨r.2, hr⟩
  · cases h
theorem runs_done {α : Type} {x : Act (Option α)} {m : Memory} {d : Dev}
    (h : (match runAct x m d with | .ok (some _, _) => true | _ => false) = true) : ∃ a e, Runs x m d (some a) e := by
  unfold Runs
  split at h
  · rename_i a e hr; exact ⟨a, e, hr⟩
  · cases h

/-- An action that answers `v` and changes nothing. -/
theorem runs_val {α : Type} [DecidableEq α] {x : Act α} {m : Memory} {d : Dev} {v : α}
    (h : (match runAct x m d with | .ok r => decide (r = (v, d)) | .error _ => false) = true) : Runs x m d v d := by
  unfold Runs
  split at h
  · rename_i r hr; rw [hr, of_decide_eq_true h]
  · cases h

def fb (reg : BitVec 8) (off : BitVec 24) (flg : BitVec 12) : FmtB := ⟨reg, off, flg⟩
/-- R257 to R259: to the next line's header; in place; with one lane of two; call leaves the next boundary; lanes part. -/
theorem test_control :
    pcOf (after (.br h0 (fb 0xC8 1 0)) base) = 0x10040 ∧ (mySplit (after (.br h0 (fb 0xC8 1 0)) base).dev).entering = true ∧
    pcOf (after (.br hp (fb 0xC8 1 0)) base) = 0x10010 ∧ pcOf (after (.brc h0 (fb 0 1 0)) base) = 0x10040 ∧ pcOf (after (.brc h0 (fb 0 1 2)) base) = 0x10010 ∧
    pcOf (after (.brx h0 { bare with a := 0x81 }) (acc_ 0x10040 0)) = 0x10040 ∧ pcOf (after (.ret h0 { bare with a := 0x81 }) (acc_ 0x10000 0)) = 0x10000 ∧
    pcOf (after (.call h0 (fb 0x80 1 0)) (atEnd 7)) = 0x10040 ∧ reg (after (.call h0 (fb 0x80 1 0)) (atEnd 7)) 0x80 0 = 0x10040 := by decide +kernel
/-- v-predicate p1 in lane 1 alone: two splits, the taken lanes at the target. -/
def halves : State := on (fun x => { x with p := [(1, 2)], splits := x.splits.map (fun q => { q with mask := 3, reconv := 0x10040 }) })
theorem test_diverge : ((me (after (.brc h0 (fb 1 1 0)) halves).dev).splits.map (fun q => (q.mask, q.pc))) = [(1, 0x10010), (2, 0x10040)] := by
  decide +kernel
theorem test_ends : (me (after (.exit h0 bare) base).dev).live = false ∧ (me (after (.join h0 bare) base).dev).live = false ∧
    (me (after (.done h0 bare) base).dev).live = false ∧ pcOf (after (.yield h0 bare) base) = 0x10010 ∧
    (mySplit (after (.wait ⟨2, 0, 0⟩ ⟨0xC8, 0xC8, 0, 5⟩) base).dev).waitUntil = some 7 := by decide +kernel

theorem witness_branches : Admitted (.br h0 (fb 0xC8 1 0)) [] base ∧ Runs (acting h0 false) base.mem base.dev 0xFFFFFFFF base.dev ∧
    Runs (acting hp false) base.mem base.dev 0 base.dev ∧ (∃ d1, Runs (checkTarget 0x10040) base.mem base.dev () d1) ∧
    (∃ t, runAct (checkTarget 0x10080) base.mem base.dev = .error t) ∧ Admitted (.brc h0 (fb 1 1 0)) [] halves ∧
    Runs (takePred true 3 1) halves.mem halves.dev 2 halves.dev ∧ Runs (takePred true 3 0) halves.mem halves.dev 0xFFFFFFFF halves.dev ∧
    (∃ d1 p d2 next d3 d4, Runs (checkTarget 0x10040) halves.mem halves.dev () d1 ∧ Runs reconvOf halves.mem d1 p d2 ∧
      Runs fallThrough halves.mem d2 next d3 ∧ Runs (diverge 2 1 0x10040 p) halves.mem (countWord d3 0 false true) () d4) :=
  ⟨adm (by decide +kernel), rfl, rfl, ⟨_, rfl⟩, ⟨_, rfl⟩, adm (by decide +kernel), rfl, rfl, _, _, _, _, _, _, rfl, rfl, rfl, rfl⟩
/-- Two lanes with two targets; and with a target that holds no header. -/
def spread (b : W64) : State := on (fun x => { x with a := [(32, 0x10000), (33, b)], splits := x.splits.map (fun q => { q with mask := 3, reconv := 0x10040 }) })
theorem witness_indirect : Admitted (.brx h0 { bare with a := 0x81 }) [] (spread 0x10040) ∧
    (∃ src d1 rs d2 p d3 d4, Runs (takeSrc .n64 3 0x81) base.mem (spread 0x10040).dev src d1 ∧
      Runs ((lanesOf 3).mapM (fun l => do pure (l, ← tryAct (checkTarget (valA (me d1) (mySplit d1) src l))))) base.mem d1 rs d2 ∧
      rs.filterMap (fun r => match r.2 with | .error t => some (r.1, t) | .ok _ => none) = [] ∧
      Runs reconvOf base.mem d2 p d3 ∧ Runs (divergeAll p (groupTargets (lanesOf 3) (valA (me d1) (mySplit d1) src))) base.mem (countWord d3 0 true false) () d4) ∧
    (∃ rs d2, Runs ((lanesOf 3).mapM (fun l => do pure (l, ← tryAct (checkTarget (valA (me (spread 5).dev) (mySplit (spread 5).dev) (.reg 0x81) l)))))
        base.mem (spread 5).dev rs d2 ∧
      (rs.filterMap (fun r => match r.2 with | .error t => some (r.1, t) | .ok _ => none)).map (·.1) = [1]) :=
  ⟨adm (by decide +kernel), ⟨_, _, _, _, _, _, (runs_unit (by decide +kernel)).choose, rfl, rfl, rfl, rfl, (runs_unit (by decide +kernel)).choose_spec⟩, _, _, rfl, rfl⟩
theorem witness_calls : Admitted (.call h0 (fb 0x80 1 0)) [] (atEnd 7) ∧ atLast (mySplit (atEnd 7).dev) = true ∧ atLast (mySplit base.dev) = false ∧
    (∃ d1 d2, Runs (checkTarget 0x10040) base.mem (atEnd 7).dev () d1 ∧ Runs (putA 0 0xFFFFFFFF 0x80 (fun _ => 0x10040)) base.mem d1 () d2) :=
  ⟨adm (by decide +kernel), by decide +kernel, by decide +kernel, _, _, rfl, rfl⟩
theorem witness_ends : Admitted (.exit h0 bare) [] base ∧ Admitted (.join h0 bare) [] base ∧ lastLanes base.dev 0 0 = true ∧
    Claims.Ordered base.mem base.dev base.dev ∧ Claims.Released .dev base.dev base.dev ∧ lastLanes halves.dev 0 0 = true ∧
    lastLanes (after (.brc h0 (fb 1 1 0)) halves).dev 0 0 = false :=
  ⟨adm (by decide +kernel), adm (by decide +kernel), by decide +kernel, .inl ⟨rfl, rfl⟩, ⟨rfl, by decide +kernel⟩, by decide +kernel, by decide +kernel⟩
def fixedOrder : State :=
  { base with dev := setLaunch (on (fun x => { x with fo := true })).dev 0 { launchOf base.dev 0 with fo := true, minKey := some ⟨0, 0, 0⟩ } }
theorem witness_ordered : (me fixedOrder.dev).fo = true ∧ (launchOf fixedOrder.dev 0).minKey = some (keyOf (me fixedOrder.dev) 0) ∧
    enginesDone fixedOrder.dev 0 = true := by decide +kernel
/-- A frame whose counter, in the line behind its record, holds `v`; and the frame's own line poisoned. -/
def counter (v : W64) : Memory := putWord base.mem 0x20040 v
def poisoned : Dev := { base.dev with poison := [0x20000 / 64] }
def frame1 (d : Dev) : Bool := match frameRecord base.mem d 0 0x20000 with | .ok _ => true | .error _ => false
theorem witness_subtracts : (match joinKey base.mem base.dev 0 0x40000000 with | .error c => c != 0 | .ok _ => false) = true ∧
    ([0, 1, 2].all (fun v => match joinKey (counter v) base.dev 0 0x20040 with | .ok (k, d) => rd64 (counter v) d k == v | .error _ => false)) = true ∧
    frame1 base.dev = true ∧ frame1 poisoned = false ∧ (match joinKey (counter 1) poisoned 0 0x20040 with | .ok _ => true | .error _ => false) = true := by
  decide +kernel
theorem test_subtract : (match subtractJoin (counter 2) base.dev 0 0 0x20000 0x40 with | .ok d => rd64 (counter 2) d 0x20040 | .error _ => 9) = 1 ∧
    (match subtractJoin (counter 0) base.dev 0 0 0x20000 0x40 with | .ok _ => 0 | .error t => t.cause) = 0x25 := by decide +kernel
theorem witness_pauses : Admitted (.yield h0 bare) [] base ∧ otherReady base.mem base.dev = [] ∧ otherReady base.mem (pair id) ≠ [] ∧
    Admitted (.wait h0 ⟨0xC8, 0xC8, 0, 5⟩) [] base ∧ (∃ e, Runs (retireWord 5 true false) base.mem base.dev () e) ∧ (splitOf (waveOf (sp (fun q => { q with pend := [⟨true, 0x81, 7, 3, 1, []⟩] })).dev 0) 0).pend.any (·.acc) = true ∧
    (splitOf (waveOf (sp (fun q => { q with waitUntil := some 0 })).dev 0) 0).waitUntil = some base.dev.cycle ∧
    (splitOf (waveOf (sp (fun q => { q with park := .yielded 0 [] })).dev 0) 0).park = .yielded 0 [] :=
  ⟨adm (by decide +kernel), by decide +kernel, by decide +kernel, adm (by decide +kernel), ⟨_, rfl⟩, by decide +kernel, rfl, rfl⟩

def mf (d : BitVec 8) (sz : BitVec 4) : FmtM := ⟨d, 0x81, 0, sz, 0, 0, 0⟩
/-- R8, R266: a stored word reads back, its lowest byte at the lowest address; a byte extends its sign; `.v2`; a row. -/
theorem test_memory_words :
    A (.ld h0 (mf 0x80 1)) 0x10000 0 = 0 ∧ A (.ld h0 (mf 0x80 3)) 0x10000 0 = 0xFC70000000000000 ∧
    A (.ld h0 { mf 0x80 11 with off := 7 }) 0x10000 0 = 0xFFFFFFFFFFFFFFFC ∧ A (.ld h0 { mf 0x80 12 with off := 7 }) 0x10000 0 = 0xFC ∧
    reg (after (.ld h0 { mf 0x80 1 with q := 1 }) (acc_ 0x10000 0)) 0x81 0 = 0xFC700000 ∧
    look blankByte (after (.st h0 (mf 0x82 1)) (acc_ 0x20000 0x11223344)).mem 0x20000 = 0x44 ∧
    look blankByte (after (.st h0 (mf 0x82 1)) (acc_ 0x20000 0x11223344)).mem 0x20003 = 0x11 ∧
    look blankByte (after (.st h0 (mf 0x82 1)) (acc_ 0x20000 0x11223344)).mem 0x20004 = 0 ∧
    reg (after (.ldw h0 { mf 0x80 1 with base := 0xA0 }) (on (fun x => { x with s := [(0, 0x10000)] }))) 0x80 1 = 0xFC700000 ∧
    look blankByte (after (.stw h0 { mf 0xE5 12 with base := 0xA0 }) (on (fun x => { x with s := [(0, 0x20000)] }))).mem 0x2001F = 5 := by decide +kernel

/-- Runs with a value that is shown to be the one expected. -/
theorem runs_as {α : Type} [DecidableEq α] {x : Act α} {m : Memory} {d : Dev} (v : α)
    (h : (match runAct x m d with | .ok r => decide (r.1 = v) | .error _ => false) = true) : ∃ e, Runs x m d v e := by
  unfold Runs
  split at h
  · rename_i r hr
    exact ⟨r.2, by rw [hr, ← of_decide_eq_true h]⟩
  · cases h

/-- The parts of a load or a store of lane 0, from its checked place to their performance. -/
def parted (i : Instr) (s : State) (use : Use) (ea : Nat → W64) (mk : List (Nat × Place) → List Part) (v : Bool) : Bool :=
  admitted i s && go (acting h0 false) s.mem s.dev (fun m _ => m == 1) && go (laneAddr 0x81 0 1) s.mem s.dev (fun x _ => x 0 == ea 0) &&
  go (checkLanes [0] (fun l => checkPlace .g use (ea l).toNat)) s.mem s.dev (fun ps d =>
    go (needParts (mk ps)) s.mem d (fun _ _ => true) && go (performParts (mk ps)) s.mem d (fun b e => b == v && (v || mySplit e ≠ mySplit d)))
theorem witness_loads : parted (.ld h0 (mf 0x80 1)) (acc_ 0x20000 0) { acc := .read, size := 4 } (fun _ => 0x20000)
      (loadParts .n32 false 4 true false (fun _ => 0x20000)) true = true ∧
    opd 0x80 ≠ .qd ∧ go (loadDst .n32 1 0x80 (fun _ => 0)) base.mem base.dev (fun _ d => go (retireWord 0 true false) base.mem d (fun _ _ => true)) = true := by
  decide +kernel
theorem witness_stores : parted (.st h0 (mf 0x82 1)) (acc_ 0x20000 5) { acc := .write, size := 4, writes := true, posted := true } (fun _ => 0x20000)
      (fun ps => ps.map (fun p => { lanes := [p.1], run := do writePlace p.2 .n32 [5, 0, 0, 0]; pure [] })) true = true ∧
    go (takeSrc .n64 1 0x82) base.mem (acc_ 0x20000 5).dev (fun _ _ => true) = true := by decide +kernel
/-- A part that performs, one that traps, one whose page is away, and one for a peer. -/
def part (x : Perf (List (Nat × W64))) : Part := { lanes := [0], run := x }
def outPage : State := { base with dev := setSet base.dev 0 { setOf base.dev 0 with pages := [{ store := .s, idx := 0, gen := 1, st := .nonResident }] } }
theorem witness_parts : (partTrap base.mem base.dev (part (pure [(0, 1)]))).isNone = true ∧
    (partTrap base.mem base.dev (part (fun _ _ => .error (.trap trapBrk)))).isSome = true ∧
    (go (awaitPage 0 0) outPage.mem outPage.dev (fun _ d => (pageOf d 0 0).st == .filling)) = true ∧
    (mySplit base.dev).ans = none ∧ (mySplit (sp (fun q => { q with ans := some [(0, 5)] })).dev).ans = some [(0, 5)] ∧
    (mySplit (after (.ld h0 { mf 0x80 1 with sp := 1 }) { outPage with dev := setWave outPage.dev 0 (waveOf (acc_ 0 0).dev 0) }).dev).served = 0 := by
  decide +kernel
/-- A store to one device line changes its own bytes: a place that is no mapped page, and an address outside. -/
theorem witness_storeFrame : (∀ p ∈ [((0 : Nat), Place.device 0x20000)], ∀ u pi off k, p.2 ≠ .mapped u pi off k) ∧
    (∃ e, Runs (perform ([((0 : Nat), Place.device 0x20000)].forM (fun p => writePlace p.2 .n32 [5, 0, 0, 0]))) base.mem base.dev (some ()) e) ∧
    ¬ (0x20000 ≤ 0x20004 ∧ 0x20004 < 0x20000 + 4) := ⟨by simp, ⟨_, rfl⟩, by decide⟩

/-- One page of each store, as a launch without mapping makes them; the C page filling, the W page out, with poison in granule 1. -/
def paged : State :=
  let pg := fun (s : StoreId) => ({ store := s, idx := 0, gen := 1 } : Page)
  { base with dev := setSet base.dev 0 { setOf base.dev 0 with
      pages := [pg .s, { pg .a with poison := 2 }, { pg .w with st := .nonResident, dirty := false }, { pg .c with st := .filling }] } }
theorem witness_places : (pageOf paged.dev 0 0).st = .pinned ∧ (pageOf paged.dev 0 1).st = .pinned ∧ (pageOf paged.dev 0 2).st = .nonResident ∧
    (pageOf paged.dev 0 3).st = .filling ∧ (List.range 4).any (fun i => (pageOf paged.dev 0 0).poison.getLsbD ((0 + i) / 16)) = false ∧
    (List.range 4).any (fun i => (pageOf paged.dev 0 1).poison.getLsbD ((16 + i) / 16)) = true ∧ loadFromLog (pageOf paged.dev 0 2) 0 4 = none ∧
    base.dev.poison.contains (0x20000 / 64) = false ∧ poisoned.poison.contains (0x20000 / 64) = true := by decide +kernel
/-- A page away with a logged word in lane 0's granule: clean after its fill; and with the backing line poisoned, not. -/
def entry4 : LogEntry := ⟨5, 0, 0, 1, 0, 0, 0, 0, 0, 2, [], [], 0, []⟩
def logged (d : Dev) : Dev := setSet d 0 { setOf d 0 with
  pages := [{ store := .s, idx := 0, gen := 1, st := .nonResident, mapped := some { va := 0x20000, key := 0x20000, rw := true }, log := [entry4] }] }
theorem witness_logged : loadFromLog (pageOf (logged base.dev) 0 0) 0 4 = some [5, 0, 0, 0] ∧ fillPoisons base.mem (logged base.dev) 0 0 0 4 = false ∧
    fillPoisons base.mem (logged poisoned) 0 0 0 4 = true := by decide +kernel
theorem witness_home : 0 < base.dev.waves.length ∧ (waveOf base.dev 0).fo = false ∧ (lineOf base.dev (0x20000 / 64)).grant = none ∧ 0x20000 % 64 + 8 ≤ 64 ∧
    findCopy base.dev (.l1 (pcore base.dev (vcoreOf base.dev (waveOf base.dev 0)))) (0x20000 / 64) 0 = none ∧ remoteLine base.dev 0 0x20000 = false ∧
    ∃ c, findCopy (homeRead base.mem base.dev 0 0x20000 0x20000 8 true).1 (.l1 0) (0x20000 / 64) 0 = some c :=
  ⟨by decide +kernel, rfl, rfl, by decide +kernel, rfl, by decide +kernel, _, rfl⟩
/-- A line that the wave's cluster holds; in FO mode, a line that is in the lease set, and one that is not. -/
def leased : Dev := (on (fun x => { x with fo := true, leaseSet := [⟨0x20000 / 64, 9, List.replicate 64 7, 0⟩] })).dev
theorem witness_leases : (clusterIdx base.dev 0 = 0 ∧ (lineOf (setLine base.dev (0x20000 / 64) { grant := some { cluster := 0 } }) (0x20000 / 64)).grant = some { cluster := 0 }) ∧
    (waveOf leased 0).fo = true ∧ ((waveOf leased 0).leaseSet.find? (fun c => c.line == 0x20000 / 64)).isSome = true ∧
    (waveOf leased 0).leaseSet.find? (fun c => c.line == 0x30000 / 64) = none ∧ (homeRead base.mem leased 0 0x20000 0x20000 1 true).2 = [7] := by decide +kernel
/-- R116, R117: a read at a fresh home leases to 255 past stamp 0; a write then takes stamp 256. -/
theorem test_home : (lineOf (homeRead base.mem base.dev 0 0x20000 0x20000 8 true).1 (0x20000 / 64)).rts = 255 ∧
    (lineOf (homeWrite base.mem (homeRead base.mem base.dev 0 0x20000 0x20000 8 true).1 ⟨some 0, 0⟩ 0x20000 [1]) (0x20000 / 64)).wts = 256 := by decide +kernel

/-! ### Full/empty accesses. -/

def fe (d : BitVec 8) : FmtM := ⟨d, 0x81, 1, 1, 0, 0, 0⟩
def pg1 (a b : W64) : State := { paged with dev := setWave paged.dev 0 (waveOf (acc_ a b).dev 0) }
/-- R45, R46, R269: `stfe` sets the granule full, `ldfe` waits for an empty one and takes a full one. -/
theorem test_fullempty :
    (pageOf (after (.stfe h0 (fe 0x82)) (pg1 0x10 7)).dev 0 0).full = 2 ∧
    (match (mySplit (after (.ldfe h0 (fe 0x80)) (pg1 0x10 7)).dev).park with | .ldfe _ _ _ => true | _ => false) = true ∧
    reg (after (.ldfe h0 (fe 0x80)) (after (.stfe h0 (fe 0x82)) (pg1 0x10 7))) 0x80 0 = 7 ∧
    (pageOf (after (.fill h0 ⟨0xEF, 0x81, 1, 0, 0, 0, 16⟩) (pg1 0x10 7)).dev 0 0).full = 0 ∧
    (pageOf (after (.fill h0 ⟨0x82, 0x81, 1, 0, 0, 1, 16⟩) (pg1 0x10 32)).dev 0 0).full = 12 := by decide +kernel
def fulls : State :=
  let pg : Page := { store := .s, idx := 0, gen := 1, full := 2, data := [(16, 7)] }
  { acc_ 0x10 0 with dev := setSet (acc_ 0x10 0).dev 0 { setOf base.dev 0 with pages := [pg] } }
/-- A word from its checked places on. -/
def checked (sp : Space) (use : Use) (ea : Nat) (s : State) (k : List (Nat × Place) → Dev → Bool) : Bool :=
  go (checkLanes [0] (fun _ => checkPlace sp use ea)) s.mem s.dev k
/-- The wants of one lane, with the granule full, empty, and its page away. -/
def wanted (s : State) (k : List Want → Dev → Bool) : Bool :=
  checked (.store .s) { acc := .read, size := 4 } 0x10 s (fun ps d => ps ≠ [] && k (wantsOf ps 4) d &&
    go (needParts (wantParts (wantsOf ps 4) (fun _ => 0x10))) s.mem d (fun _ e => e == d))
def pageOut : State := { fulls with dev := modPage fulls.dev 0 0 (fun p => { p with st := .nonResident, dirty := false }) }
theorem witness_ldfe : admitted (.ldfe h0 (fe 0x80)) fulls = true ∧ (mySplit fulls.dev).ans = none ∧
    (mySplit (sp (fun q => { q with ans := some [] })).dev).ans = some [] ∧
    wanted fulls (fun ws d => ws.all (wantReady d)) = true ∧
    wanted (pg1 0x10 7) (fun ws d => ws.all (fun w => !wantReady d w && wantHere d w)) = true ∧
    wanted pageOut (fun ws d => ws.all (fun w => !wantHere d w) && go (ws.forM (fun w => awaitPage w.set w.pg)) pageOut.mem d (fun _ _ => true)) = true := by
  decide +kernel
theorem witness_stfe : Admitted (.stfe h0 (fe 0x82)) [] (pg1 0x10 7) ∧ Claims.Ordered paged.mem (pg1 0x10 7).dev (pg1 0x10 7).dev ∧ ∃ ea ps d3 d5,
    Runs (laneAddr 0x81 0 1) paged.mem (pg1 0x10 7).dev ea (pg1 0x10 7).dev ∧
    Runs (checkLanes (lanesOf 1) (fun l => checkPlace (.store .s) { acc := .write, size := 4, writes := true } (ea l).toNat)) paged.mem (pg1 0x10 7).dev ps d3 ∧
    Runs (perform (storeFull ps (fun _ => [7, 0, 0, 0]) 0)) paged.mem d3 (some ()) d5 :=
  ⟨adm (by decide +kernel), .inl ⟨rfl, rfl⟩, _, _, _, _, rfl, rfl, rfl⟩
theorem witness_fill : Admitted (.fill h0 ⟨0x82, 0x81, 1, 0, 0, 1, 16⟩) [] (pg1 0x10 32) ∧ lowLane 1 = some 0 ∧
    fillRange (pg1 0x10 32).dev (.store .s) 0x20 = .ok (0, .s, 0x20) ∧ 0x20 + 32 ≤ 4096 * allocPages (setOf (pg1 0x10 32).dev 0) .s ∧
    (∃ d4, Runs (perform (fillGranules true 0 .s 0x20 32 0)) paged.mem (pg1 0x10 32).dev (some ()) d4) ∧
    (∃ d2, Runs (prefetchLanes (.store .s) (lanesOf 1) (fun _ => 0x10)) paged.mem (pg1 0x10 32).dev () d2) :=
  ⟨adm (by decide +kernel), by decide +kernel, rfl, by decide +kernel, ⟨_, rfl⟩, _, rfl⟩
theorem witness_granules : 0 < paged.dev.sets.length ∧ 0 < (setOf paged.dev 0).pages.length ∧ 255 < 256 ∧ ldfeWaiters paged.dev = [] := by decide +kernel

/-! ### Atomics and reservations. -/

def at3 (md : BitVec 8) : FmtX := ⟨0x80, 0x81, 0x82, 0xC8, 3, md⟩
def memAt (i : Instr) (s : State) (a : Nat) : Byte := look blankByte (after i s).mem a
/-- Two lanes at one place, adding 5 and 6. -/
def twin : State := on (fun x => { x with
  a := [(32, 0x20000), (33, 0x20000), (64, 5), (65, 6)], splits := x.splits.map (fun q => { q with mask := 3 }) })
def lrW : FmtM := ⟨0x83, 0x81, 0, 3, 2, 0, 0⟩
/-- R271 to R276: the old value, the new one in memory; lanes in order; compare with 0; `sc` needs the line's reservation. -/
theorem test_atomics :
    A (.atom h0 (at3 0x10)) 0x10000 5 = 0xFC70000000000000 ∧ memAt (.atom h0 (at3 0x10)) (acc_ 0x10000 5) 0x10000 = 5 ∧
    reg (after (.atom h0 (at3 0x10)) twin) 0x80 1 = 5 ∧ memAt (.atom h0 (at3 0x10)) twin 0x20000 = 11 ∧
    memAt (.red h0 { at3 0x10 with d := 0xC8 }) twin 0x20000 = 11 ∧ memAt (.atomcas h0 (at3 0x10)) twin 0x20000 = 5 ∧
    reg (after (.atomcas h0 (at3 0x10)) twin) 0x80 1 = 5 ∧
    (me (after (.lr h0 lrW) (acc_ 0x20000 0)).dev).reservation = some 0x800 ∧
    A (.sc h0 (at3 0)) 0x20000 7 = 1 ∧ memAt (.sc h0 (at3 0)) (acc_ 0x20000 7) 0x20000 = 0 ∧
    reg (after (.sc h0 (at3 0)) (after (.lr h0 lrW) (acc_ 0x20000 7))) 0x80 0 = 0 ∧
    memAt (.sc h0 (at3 0)) (after (.lr h0 lrW) (acc_ 0x20000 7)) 0x20000 = 7 := by decide +kernel

/-- A wave that has not the launch order to wait for. -/
theorem ordered_free {m : Memory} {d : Dev} (h : (me d).fo = false) : Claims.Ordered m d d := .inl ⟨h, rfl⟩

/-- The places of some lanes, and the parts that they make, run to their end, or wait. -/
def partsRun (s : State) (use : Use) (ls : List Nat) (ea : Nat) (mk : List (Nat × Place) → List Part) (v : Bool) : Bool :=
  go (checkLanes ls (fun _ => checkPlace .g use ea)) s.mem s.dev (fun ps d =>
    go (needParts (mk ps)) s.mem d (fun _ _ => true) && go (performParts (mk ps)) s.mem d (fun b _ => b == v))
theorem witness_atomics : admitted (.atom h0 (at3 0x10)) twin = true ∧ admitted (.atomcas h0 (at3 0x10)) twin = true ∧
    admitted (.red h0 { at3 0x10 with d := 0xC8 }) twin = true ∧ opd (at3 0x10).d ≠ .qd ∧
    partsRun twin { acc := .readWrite, size := 8, writes := true, atomic := true } [0, 1] 0x20000 (fun ps => (groups ps).map (fun g =>
      { lanes := g.2, run := readModify g.1 .n64 0x20000 false (fun o => (o + 11, [(0, o), (1, o + 5)])) })) true = true ∧
    go (loadDst .n64 3 0x80 (lane [(0, 0), (1, 5)])) twin.mem twin.dev (fun _ _ => true) = true := by decide +kernel
theorem witness_atomOrdered : Claims.Ordered twin.mem twin.dev twin.dev := ordered_free rfl
theorem test_fold : foldLanes 0 .i32 1 [2, 3] = (6, [1, 3]) ∧ foldLanes 6 .n64 1 [2, 3] = (3, [1, 2]) ∧ isInt .i32 = true := by decide +kernel
theorem witness_readModify : (pageOf paged.dev 0 1).st = .pinned ∧
    (List.range 8).any (fun i => (pageOf paged.dev 0 1).poison.getLsbD ((0 + i) / 16)) = false ∧ base.dev.poison.contains (0x20000 / 64) = false ∧
    ∃ r e, readModify (.device 0x20000) .n64 0x20000 false (fun o => (o + 1, [(0, o)])) base.mem base.dev = .ok (r, e) :=
  ⟨by decide +kernel, by decide +kernel, by decide +kernel, _, _, rfl⟩
def reserved1 : State := { acc_ 0x20000 7 with dev := setMe (acc_ 0x20000 7).dev { me (acc_ 0x20000 7).dev with reservation := some 0x800 } }
theorem witness_reservations : admitted (.lr h0 lrW) (acc_ 0x20000 7) = true ∧ admitted (.sc h0 (at3 0)) reserved1 = true ∧
    (me (acc_ 0x20000 7).dev).reservation ≠ some (0x20000 / 64) ∧ (me reserved1.dev).reservation = some (0x20000 / 64) ∧
    go (checkLanes (lanesOf 1) (fun _ => devicePlace (resUse (ty 3) false) 0x20000)) base.mem base.dev (fun ps d =>
      ps == [(0, .device 0x20000)] &&
      go (performParts (ps.map (fun p => { lanes := [p.1], run := lrRead p.2 (ty 3) 0x20000 p.1 }))) base.mem d (fun b _ => b)) = true ∧
    go (checkLanes (lanesOf 1) (fun _ => devicePlace (resUse (ty 3) true) 0x20000)) base.mem reserved1.dev (fun ps d =>
      (scLanes base.mem (ty 3) (fun _ => 7) ps d 0).2 == 1) = true := by decide +kernel

/-! ### Seals, bindings, fences. -/

def seal3 (d : BitVec 8) : FmtM := ⟨d, 0x81, 0, 3, 2, 0, 0⟩
def bindW : FmtX := ⟨0xC8, 0x81, 0x82, 0xC8, 0, 1⟩
/-- R277, R278: a released value is acquired with its stamp; a range is bound once, and taken out. -/
theorem test_seals :
    memAt (.rel h0 (seal3 0x82)) (acc_ 0x20000 9) 0x20000 = 9 ∧
    reg (after (.acq h0 (seal3 0x80)) (after (.rel h0 (seal3 0x82)) (acc_ 0x20000 9))) 0x80 0 = 9 ∧
    (ctxOf (after (.bind h0 bindW) (acc_ 0x20000 0x30000)).dev (me base.dev).ctx).bindings = [⟨0x20000, 0xC00, 0xC00⟩] ∧
    (ctxOf (after (.unbind h0 bindW) { acc_ 0x20000 0x30000 with dev := setCtx (acc_ 0x20000 0x30000).dev 0 { bindings := [⟨0x20000, 0xC00, 0xC00⟩] } }).dev 0).bindings = [] ∧
    pcOf (after (.fence h0 ⟨0xC8, 0xC8, 0, 0, 3, 0, 0⟩) base) = 0x10010 := by decide +kernel
/-- The leaf of the first GiB with another target: host memory, and peer 0, whose link is up. -/
def target (tgt : Nat) (s : State) : State :=
  let r := { s.dev.regs with pstate := [(0, 2)], routes := [(0, some 0)] }
  { mem := putWord s.mem 0x3000 (w64 (6 * 2 ^ 58 + 0x33B + tgt * 2 ^ 56)), dev := { s.dev with regs := r } }
def sealAt (s : State) (acc : Access) (posted : Bool) (k : Place → Dev → Bool) : Bool := go (sealPlace acc posted 0x20000) s.mem s.dev k
def answered (s : State) : State := { s with dev := setMySplit s.dev { mySplit s.dev with ans := some [(0, 7)] } }
theorem witness_acquires : admitted (.acq h0 (seal3 0x80)) (acc_ 0x20000 9) = true ∧ lowLane 1 = some 0 ∧ lowLane 0 = none ∧ opd (seal3 0x80).d ≠ .qd ∧
    sealAt (acc_ 0x20000 9) .read false (fun p d => p == .device 0x20000 && !d.poison.contains (0x20000 / 64)) = true ∧
    sealAt (target 1 (acc_ 0x20000 9)) .read false (fun p d => p == .host (hostKey + 0x20000) &&
      go (perform (readPlace p 8 0x20000 false false)) base.mem d (fun r _ => r.isSome)) = true ∧
    sealAt (target 2 (acc_ 0x20000 9)) .read false (fun p d => p == .peer 0 0x20000 && (mySplit d).ans == none && d.cur == (0, 0)) = true ∧
    sealAt (answered (target 2 (acc_ 0x20000 9))) .read true (fun p d => p == .peer 0 0x20000 && (mySplit d).ans == some [(0, 7)]) = true := by
  decide +kernel
theorem witness_releases : admitted (.rel h0 (seal3 0x82)) (acc_ 0x20000 9) = true ∧ Claims.Released .dev (acc_ 0x20000 9).dev (acc_ 0x20000 9).dev ∧
    [0, 1, 2].all (fun g => sealAt (target g (acc_ 0x20000 9)) .write true (fun p d =>
      go (reportLost) base.mem d (fun _ _ => true) && (if g = 0 then go (startPushes 1 0x800) base.mem d (fun _ _ => true)
        else go (perform (writePlace p .n64 (leBytes 8 9))) base.mem d (fun r _ => r.isSome)))) = true := by
  refine ⟨?_, ⟨rfl, ?_⟩, ?_⟩ <;> decide +kernel
theorem test_peerSeal : (mySplit (after (.acq h0 (seal3 0x80)) (target 2 (acc_ 0x20000 9))).dev).park = .peer 0 ∧
    reg (after (.acq h0 (seal3 0x80)) (answered (target 2 (acc_ 0x20000 9)))) 0x80 0 = 7 := by decide +kernel
def bindOf (f : FmtX) (s : State) (n : Nat) : Bool :=
  admitted (.bind h0 f) s && go (bindArgs f 1) s.mem s.dev (fun a d => (a 0).2.2 == n && go (sealPlace .read true (a 0).1) s.mem d (fun _ e => (ctxOf e 0).bindings.length < 1024))
theorem witness_bindings : bindOf bindW (acc_ 0x20000 0x30000) 64 = true ∧ bindOf { bindW with md := 0 } (acc_ 0x20000 0x30000) 0 = true ∧
    bindOf bindW (acc_ 0x20000 (2 ^ 57 - 1)) 64 = true ∧ admitted (.unbind h0 bindW) (acc_ 0x20000 0x30000) = true ∧
    admitted (.fence h0 ⟨0xC8, 0xC8, 0, 0, 3, 0, 0⟩) base = true ∧ go reportLost base.mem base.dev (fun _ _ => true) = true ∧
    (me (on (fun x => { x with posted := [(1, 1)] })).dev).posted ≠ [] := by decide +kernel
theorem witness_fence : Claims.Released .sys base.dev base.dev ∧ Runs (acting hp false) base.mem base.dev 0 base.dev := ⟨⟨rfl, by decide +kernel⟩, rfl⟩
def fullBindings : State :=
  { base with dev := setCtx base.dev 0 { ctxOf base.dev 0 with bindings := List.replicate 1024 ⟨0, 0, 0⟩ } }
theorem witness_fullBindings : (me fullBindings.dev).ctx = 0 ∧ 1024 ≤ (ctxOf fullBindings.dev 0).bindings.length := by decide +kernel
/-- Two releases on one line at two scopes are remembered beside each other (R99). -/
theorem witness_stamps : base.dev.cur.1 < base.dev.waves.length ∧
    (lineOf (releaseStamps (releaseStamps base.dev 1 .clu (some 0) 3) 1 .dev (some 0) 2) 1).rels.length = 2 := by decide +kernel

/-! ### Locks, monitors, barriers. -/

def lk (d : BitVec 8) : FmtM := ⟨d, 0x81, 0, 0, 2, 0, 0⟩
def lockSt : State := acc_ 0x20000 0
def locked : State := after (.lock h0 (lk 0x80)) lockSt
/-- Another wave's lock. -/
def taken : State := { lockSt with dev := setLock lockSt.dev 0x800 { locked := true, owner := none } }
/-- R134 to R139: a grant, a second lock, an unlock, a lock that is not held; the queue words: LOCKED and SELF, QLEN. -/
theorem test_locks :
    reg locked 0x80 0 = 0 ∧ holds (me locked.dev) 0x800 = true ∧ memAt (.lock h0 (lk 0x80)) lockSt 0x20022 = 1 ∧
    traps (.lock h0 (lk 0x80)) locked { cause := 0x0E, addr := 0x20000 } = true ∧
    (me (after (.unlock h0 (lk 0xC8)) locked).dev).held = [] ∧ reg (after (.trylock h0 (lk 0x80)) taken) 0x80 0 = 1 ∧
    (mySplit (after (.lock h0 (lk 0x80)) taken).dev).park = .lock 0x800 0x20000 none ∧
    bits (reg (after (.lockq h0 (lk 0x80)) locked) 0x80 0) 17 0 = 0x30000 ∧
    bits (reg (after (.lockq h0 (lk 0x80)) (after (.lock h0 (lk 0x80)) taken)) 0x80 0) 16 0 = 0x10001 ∧
    traps (.unlock h0 (lk 0xC8)) lockSt { cause := 0x10, addr := 0x20000 } = true := by decide +kernel
def heldLock : State := { lockSt with dev := (grantLock lockSt.mem lockSt.dev 0x800 {} 0 0x20000 1 0).1 }
theorem witness_locks : [Instr.lock h0 (lk 0x80), .trylock h0 (lk 0x80), .lockq h0 (lk 0x80)].all (admitted · lockSt) = true ∧
    admitted (.unlock h0 (lk 0xC8)) heldLock = true ∧ lowLane 1 = some 0 ∧
    go (lockAddr 0x20000) lockSt.mem lockSt.dev (fun k d => k / 64 == 0x800 && !holds (me d) 0x800 && decide ((me d).held.length < 4) && !(me d).fo) = true ∧
    (lockEntry lockSt.mem lockSt.dev 0x800 (bankOf 0x20000)).any (fun e => !e.locked && e.queue.isEmpty) = true ∧
    (lockEntry taken.mem taken.dev 0x800 0).any (fun e => e.locked && decide (bankWaiters taken.dev e.bank < 16384)) = true ∧
    go (startPushes 1 0x800) lockSt.mem (unlockLine lockSt.mem heldLock.dev 0 0x800 0) (fun _ _ => true) = true ∧ holds (me heldLock.dev) 0x800 = true ∧
    4 ≤ (me (on (fun x => { x with held := List.replicate 4 ⟨1, 0, 1, none⟩ })).dev).held.length := by decide +kernel
/-- A granted request, answered; a bank of 4,096 locks, and one of 16,384 waiters. -/
def granted : State := { lockSt with dev := setMySplit lockSt.dev { mySplit lockSt.dev with ans := some [(0, 16)] } }
def fullBank : Dev := { base.dev with lines := (List.range 4096).map (fun n => (n, ({ lock := some {} } : Line))) }
theorem witness_lockAnswers : (mySplit granted.dev).ans = some [(0, 16)] ∧ Admitted (.lock h0 (lk 0x80)) [] granted ∧
    (∃ e, Runs (putA 0 1 0x80 (fun _ => 16)) base.mem granted.dev () e) ∧ reg (after (.lock h0 (lk 0x80)) granted) 0x80 0 = 16 :=
  ⟨rfl, adm (by decide +kernel), ⟨_, rfl⟩, by decide +kernel⟩
theorem witness_fullBanks : lockEntry base.mem fullBank 5000 0 = none ∧ 16384 ≤ bankWaiters
    { base.dev with lines := [(1, { lock := some { locked := true, queue := List.replicate 16384 ⟨0, 0, 0, 1, false, 0⟩ } })] } 0 := by
  decide +kernel
theorem witness_handOn : ∃ ahead : List Waiter, ∃ q : Waiter, (∀ p ∈ ahead, p.away = true ∧ p.passes ≠ 4) ∧ q.away = true ∧ q.passes = 4 ∧
    nextWaiter [] (ahead ++ [{ q with away := false }]) = some ({ q with away := false }, [⟨0, 0, 0, 1, true, 4⟩], true) :=
  ⟨[⟨0, 0, 0, 1, true, 3⟩], ⟨1, 0, 0, 1, true, 4⟩, by decide, rfl, rfl, by decide⟩

/-- R129, R280: no monitor armed answers 2; a line that has been written since answers 0; else the split parks. -/
def monW : FmtM := ⟨0xC8, 0x81, 0, 0, 0, 0, 0⟩
def mwaitW : FmtI := ⟨0x80, 0xC8, 1, 0⟩
def armed (n : Nat) : State := { lockSt with dev := setMe lockSt.dev { me lockSt.dev with monitor := some ⟨0x800, 0, n, false, none⟩ } }
theorem test_monitors : reg (after (.mwait h0 mwaitW) lockSt) 0x80 0 = 2 ∧ reg (after (.mwait h0 mwaitW) (armed 5)) 0x80 0 = 0 ∧
    (mySplit (after (.mwait h0 mwaitW) (armed 0)).dev).park = .mwait none ∧
    (me (after (.mon h0 monW) lockSt).dev).monitor.isSome = true := by decide +kernel
theorem witness_monitors : admitted (.mon h0 monW) lockSt = true ∧ admitted (.mwait h0 mwaitW) lockSt = true ∧ opd mwaitW.d ≠ .qd ∧
    (me lockSt.dev).monitor = none ∧ (mySplit lockSt.dev).ans = none ∧ (mySplit (answered lockSt).dev).ans.isSome = true ∧
    (me (armed 5).dev).monitor.any (fun o => (lineOf (armed 5).dev o.line).wts ≠ o.wts) = true ∧
    (me (armed 0).dev).monitor.any (fun o => (lineOf (armed 0).dev o.line).wts == o.wts) = true ∧
    [0, 1, 2].all (fun g => go (checkPlace .g { acc := .read, size := 1, posted := true } 0x20000) (target g lockSt).mem (target g lockSt).dev
      (fun p _ => p == if g = 0 then .device 0x20000 else if g = 1 then .host (hostKey + 0x20000) else .peer 0 0x20000)) = true := by decide +kernel
theorem test_monitorPeer : traps (.mon h0 monW) (target 2 lockSt) { cause := 0x09, sub := 1, addr := 0x20000, info2 := 1 } = true := by decide +kernel

/-- R281: the only wave of a stage set and a cluster passes at once. -/
theorem test_barriers : (mySplit (after (.bar h0 bare) base).dev).ans.isSome = true ∧ (mySplit (after (.bar h0 bare) base).dev).park = .running ∧
    pcOf (after (.bar h0 bare) (after (.bar h0 bare) base)) = 0x10010 ∧ pcOf (after (.cbar h0 bare) (after (.cbar h0 bare) base)) = 0x10010 := by decide +kernel
/-- Another split of the wave, parked so; and another wave of the set. -/
def other (p : Park) : State := on (fun x => { x with splits := x.splits ++ x.splits.map (fun q => { q with park := p }) })
def twoWaves : Dev := { base.dev with waves := base.dev.waves ++ base.dev.waves }
theorem witness_barriers : admitted (.bar h0 bare) base = true ∧ admitted (.cbar h0 bare) base = true ∧ (mySplit base.dev).ans = none ∧
    (mySplit (after (.bar h0 bare) base).dev).ans = some [] ∧
    [Park.cbar, .running].map (fun p => decide (((me (other p).dev).splits.zipIdx.filter (fun q => q.2 ≠ 0 && q.1.mask ≠ 0)).all (fun q => q.1.park == .cbar))) = [true, false] ∧
    ([0, 1].filter (fun w => (waveOf twoWaves w).live)).all (fun w => arrivedBar false (waveOf twoWaves w)) = false ∧
    arrivedBar false (me (setMySplit base.dev { mySplit base.dev with park := .bar })) = true := by decide +kernel
theorem witness_barrierReleases : Claims.Released .team base.dev base.dev ∧ Claims.Released .clu base.dev base.dev := by
  refine ⟨⟨rfl, ?_⟩, ⟨rfl, ?_⟩⟩ <;> decide +kernel
theorem test_mixedBarriers : traps (.bar h0 bare) (other .cbar) { cause := 0x01, info0 := encodeD (.bar h0 bare) } = true ∧
    (mySplit (after (.bar h0 bare) (other .running)).dev).park = .bar := by decide +kernel

/-! ### Phasers and counters. -/

def ph_ (md : BitVec 8) : FmtX := ⟨0x80, 0x81, 0x82, 0xC8, 1, md⟩
/-- A phaser of two parties on line 0x800, one arrival in, and B in a2. -/
def made (b : W64) : State :=
  let s := acc_ 0x20000 b
  { dev := { s.dev with lines := [(0x800, { ph := true })] }, mem := s.mem ++ [(0x20028, 1), (0x2002E, 1), (0x20030, 2), (0x2003F, 0x80)] }
def lowPh (s : State) : W64 := reg s 0x80 0
/-- R283, R284: `phinit` of 2, a second arrival advances to 1 and is waited for; OVER, UNDER, BUSY, NOPH; the query's fields. -/
theorem test_phasers :
    lowPh (after (.phinit h0 (ph_ 0)) (acc_ 0x20000 2)) = 0 ∧ memAt (.phinit h0 (ph_ 0)) (acc_ 0x20000 2) 0x2003F = 0x80 ∧
    lowPh (after (.phinit h0 (ph_ 0)) (acc_ 0x20000 65536)) = 5 ∧ lowPh (after (.phsig h0 (ph_ 0)) (made 1)) = 0x100000000 ∧
    lowPh (after (.phsig h0 (ph_ 0)) (acc_ 0x20000 1)) = 3 ∧ lowPh (after (.phdrop h0 (ph_ 0)) (made 3)) = 4 ∧
    lowPh (after (.phdrop h0 (ph_ 0)) (made 1)) = 0x100000000 ∧ lowPh (after (.phreg h0 (ph_ 0)) (made 65534)) = 5 ∧
    lowPh (after (.phquery h0 { ph_ 0 with b := 0xC8 }) (made 0)) = 0x20001 ∧ lowPh (after (.phwait h0 (ph_ 0)) (made 0)) = 0 ∧
    (mySplit (after (.phwait h0 (ph_ 0)) (made 1)).dev).park = .phwait 0x800 1 32 .entry ∧ lowPh (after (.phsw h0 (ph_ 0)) (made 1)) = 0x100000000 := by decide +kernel
theorem witness_phaserAt (i : Instr) (acc : Access) (s : State) (m : W32) (n : Nat) (v : BitVec 32) (bank : Nat) (e : Dev)
    (h1 : (fieldsOk i && inFootprint (me s.dev) [] && offAligned i) = true) (h2 : (me e).fo = false)
    (h3 : lowLane m = some 0) (h4 : Runs (acting h0 false) s.mem s.dev m s.dev)
    (h5 : ∃ a b, Runs (takeSrc .n64 m 0x81) s.mem s.dev a s.dev ∧ Runs (takeSrc .n64 m 0x82) s.mem s.dev b s.dev ∧
      Runs (phaserLine acc (valA (me s.dev) (mySplit s.dev) a 0).toNat) s.mem s.dev n e ∧ v = (valA (me s.dev) (mySplit s.dev) b 0).setWidth 32 ∧ bank = bankOf (valA (me s.dev) (mySplit s.dev) a 0).toNat) :
    Claims.PhaserAt i h0 (ph_ 0) acc s m n v bank e := by
  obtain ⟨a, b, ha, hb, hl, hv, hk⟩ := h5
  obtain ⟨c1, c2, c3⟩ := adm h1
  exact ⟨0, a, b, _, _, _, _, ⟨c1, c2, c3⟩, h4, h3, ha, hb, by simp [Claims.Room, ph_, opd], hl, hv, hk, .inl ⟨h2, rfl⟩⟩
/-- Each phaser instruction comes to a line, with a phaser and without. -/
theorem witness_phasers : (∀ i ∈ [Instr.phreg h0 (ph_ 0), .phdrop h0 (ph_ 0), .phsig h0 (ph_ 0), .phwait h0 (ph_ 0), .phsw h0 (ph_ 0), .phinit h0 (ph_ 0)],
      ∃ d, Claims.PhaserAt i h0 (ph_ 0) .readWrite (made 1) 1 0x800 1 32 d) ∧ (lineOf (made 1).dev 0x800).ph = true ∧
    (lineOf (acc_ 0x20000 1).dev 0x800).ph = false ∧ (mySplit (made 1).dev).ans = none ∧ phReached (phaserOf (made 1).mem (made 1).dev 0x800) 0 = true ∧ phReached (phaserOf (made 1).mem (made 1).dev 0x800) 1 = false ∧
    (phaserOf (made 1).mem (made 1).dev 0x800).parties = 2 ∧ (mySplit (made 1).dev).served = 0 ∧ (me (made 1).dev).posted = [] ∧
    (mySplit (answered (made 1)).dev).ans.isSome = true ∧ (mySplit (sp (fun q => { q with served := 1 })).dev).served ≠ 0 ∧ lowLane 0 = none ∧
    go (takeSrc .n64 0 0x81) base.mem (made 1).dev (fun _ _ => true) = true :=
  ⟨by
    intro i hi
    simp only [List.mem_cons, List.not_mem_nil, or_false] at hi
    obtain rfl | rfl | rfl | rfl | rfl | rfl := hi <;>
      exact ⟨_, witness_phaserAt _ _ _ _ _ _ _ _ (by decide +kernel) rfl (by decide +kernel) rfl ⟨_, _, rfl, rfl, rfl, by decide +kernel, by decide +kernel⟩⟩,
    by decide +kernel⟩
theorem witness_phaserSignals : (∃ c e, Runs (signalNow 1 0x800 1) (made 1).mem (made 1).dev c e) ∧
    (∃ e, Runs (phRelease 1 0x800 (fun m d => setParties m d 0x800 1)) (made 1).mem (made 1).dev () e) ∧
    ∃ e, Runs (loadDst .n64 1 0x80 (fun _ => 3)) base.mem (made 1).dev () e := ⟨⟨_, _, rfl⟩, ⟨_, rfl⟩, _, rfl⟩
/-- R284: five arrivals of two parties are two advances, one over; PHASE wraps; 0 has been reached from 2^32 − 1 on. -/
theorem test_advance : (phAdvance { parties := 2, arrived := 5, phase := 0xFFFFFFFF }).arrived = 1 ∧
    (phAdvance { parties := 2, arrived := 5, phase := 0xFFFFFFFF }).phase = 1 ∧ (phAdvance { any := true, parties := 2, arrived := 5 }).arrived = 5 ∧
    phReached { phase := 0 } 0xFFFFFFFF = true ∧ phReached { phase := 0xFFFFFFFF } 0 = false := by decide +kernel
theorem witness_phaserLayout : (phaserOf (made 1).mem (made 1).dev 0x800).parties < 2 ^ 16 ∧
    (phaserOf (made 1).mem (made 1).dev 0x800).arrived < 2 ^ 16 ∧ (phaserOf (made 1).mem (made 1).dev 0x800).waiters < 2 ^ 16 := by decide +kernel

def cntW : FmtX := ⟨0x80, 0x81, 0x82, 0xC8, 3, 0x10⟩
def creadW : FmtM := ⟨0x80, 0x81, 0, 3, 2, 0, 0⟩
/-- R286. -/
theorem test_counters : memAt (.cadd h0 cntW) (acc_ 0x20000 5) 0x20000 = 5 ∧ lowPh (after (.cadd h0 cntW) (acc_ 0x20000 5)) = 0 ∧
    lowPh (after (.cread h0 creadW) (acc_ 0x10000 5)) = 0xFC70000000000000 ∧ lowPh (after (.cwait h0 cntW) (acc_ 0x10000 5)) = 0xFC70000000000000 ∧
    (mySplit (after (.cwait h0 cntW) (acc_ 0x20000 5)).dev).park = .cwait 0x20000 5 .dev none 32 .entry := by decide +kernel
theorem witness_counters : [Instr.cadd h0 cntW, .cwait h0 cntW, .cread h0 creadW].all (admitted · (acc_ 0x10000 5)) = true ∧
    (mySplit (acc_ 0x10000 5).dev).ans = none ∧ opd cntW.d ≠ .qd ∧ opd creadW.d ≠ .qd ∧ (me (acc_ 0x10000 5).dev).posted = [] ∧ lowLane 0 = none ∧
    go (counterKey { acc := .readWrite, size := 8, writes := true } 0x10000) base.mem (acc_ 0x10000 5).dev (fun k _ => k == 0x10000) = true ∧
    go (counterKey { acc := .read, size := 8 } 0x10000) base.mem (acc_ 0x10000 5).dev (fun k e => decide (5 ≤ rd64 base.mem (recallLine e (k / 64)) k)) = true ∧
    go (counterKey { acc := .read, size := 8 } 0x20000) base.mem (acc_ 0x20000 5).dev (fun k e => decide (rd64 base.mem (recallLine e (k / 64)) k < 5)) = true ∧
    go (loadDst .n64 1 0x80 (fun _ => 5)) base.mem (acc_ 0x20000 5).dev (fun _ _ => true) = true := by decide +kernel
theorem test_counterAnswers : lowPh (after (.cwait h0 cntW) (answered (acc_ 0x20000 5))) = 7 ∧ lowPh (after (.phwait h0 (ph_ 0)) (answered (made 1))) = 7 := by
  decide +kernel

/-! ### The matrix engine. -/

/-- K of 32, a page of each store and two of C; the operand words of A, W, C and a second C, and a counter, in s4 to s8. -/
def mat : State :=
  let x := { waveOf base.dev 0 with mgeo := 0, s := [(4, 0x80000), (5, 0x100000), (6, 0x180000), (7, 0x181000), (8, 0x20000)] }
  let pg := fun (s : StoreId) (i : Nat) => ({ store := s, idx := i, gen := 1 } : Page)
  { base with dev := setWave (setSet base.dev 0 { setOf base.dev 0 with
      pages := [pg .s 0, pg .a 0, pg .w 0, { pg .c 0 with data := [(0, 1), (300, 1)] }, pg .c 1] }) 0 x }
def bare7 : FmtT := { c := 0xC8, a := 0xC8, w := 0xC8, m1 := 0, ty := 4, acc := 0, fl := 0 }
def mmaW : FmtT := { t0 with m1 := 0 }
def mzeroW : FmtT := { bare7 with c := 0xA6 }
def mpreW : FmtT := { bare7 with c := 0xA6, a := 0xA4 }
def mpostW : FmtT := { bare7 with c := 0xA7, a := 0xA6 }
def mwldW : FmtT := { bare7 with w := 0xA5, ty := 6 }
def mcfgW (c : BitVec 28) : FmtS := ⟨0xC8, 0xA4, c⟩
def queue (i : Instr) : List MatOp := (after i mat).dev.matops
/-- R291 to R293, R314: an operation with its operands joins the queue; another store raises SPACE, an odd address ALIGN, K above its
limit ILLOP; `mcfg` sets a word; `mstat` is idle at first and busy then. -/
theorem test_matrix :
    (queue (.mma h0 mmaW)).map (fun o => (o.kind, o.c, o.a, o.w, o.lane)) = [(.mma, 0x180000, 0x80000, 0x100000, 0xFFFFFFFF)] ∧
    (queue (.mzero h0 mzeroW)).map (fun o => (o.kind, o.c)) = [(.mzero, 0x180000)] ∧ traps (.mzero h0 { mzeroW with c := 0xA4 }) mat
      { cause := 0x05, sub := 1 } = true ∧
    (me (after (.mcfg h0 (mcfgW 0)) mat).dev).mgeo = 0x80000 ∧ (me (after (.mcfg h0 (mcfgW 4)) mat).dev).msparse = 0x80000 ∧
    bits (reg (after (.mstat h0 ⟨0x80, 0xC8, 0⟩) mat) 0x80 0) 2 2 = 0 ∧
    bits (reg (after (.mstat h0 ⟨0x80, 0xC8, 0⟩) (after (.mzero h0 mzeroW) mat)) 0x80 0) 2 2 = 1 ∧
    pcOf (after (.mfence h0 ⟨0xC8, 0xC8, 0⟩) mat) = 0x10010 ∧ pcOf (after (.mfence h0 ⟨0xC8, 0xC8, 0⟩) (after (.mzero h0 mzeroW) mat)) = 0x10010 ∧
    (queue (.mdrain h0 ⟨0xC8, 0xA8, 0⟩)).map (fun o => o.cnt) = [some 0x20000] := by decide +kernel
/-- With one operation to run, Quill turns to it. -/
theorem nextMat_one {d : Dev} {core : Nat} {p : Nat × MatOp} (h : quillHeads d core = [p]) : nextMat d core = some p := by
  have hm : matChoices d core = [p] := by
    unfold matChoices firstSaved
    rw [h]
    cases hs : p.2.saved <;> cases hb : begun p.2 <;> simp [hs, hb]
  unfold nextMat midMat
  simp only [h, hm, List.find?_cons, List.find?_nil, List.length_singleton, Nat.mod_one]
  cases atPoint p.2 <;> rfl
/-- The operations of the core, changed; and those that Quill would take. -/
def tuned (s : State) (f : MatOp → MatOp) : State := { s with dev := { s.dev with matops := s.dev.matops.map f } }
def headed (s : State) (k : MatOp → Bool) : Bool := (quillHeads s.dev 0).map (fun p => (p.1, k p.2)) == [(0, true)]
/-- Two rows of `mzero`, the first done. -/
def halfway : State := tuned (after (.mzero h0 { mzeroW with m1 := 1 }) mat) (fun o => { o with row := 1 })
/-- R305: a row of `mzero` clears its 256 bytes of the tile and no more. -/
theorem test_mzero : (pageOf (after (.rowStroke 0) halfway).dev 0 3).data = [(0, 1)] ∧
    (after (.rowStroke 0) halfway).dev.matops.map (fun o => (o.row, matOver o)) = [(2, true)] := by decide +kernel
/-- An issue: its operands are there, its configuration allowed, its checks passed, and the queue has room. -/
def issuable (i : Instr) (f : FmtT) (kind : MatKind) (cnt : Option W64) : Bool :=
  admitted i mat && go (takeT h0 f) mat.mem mat.dev (fun q d0 =>
    let o := sampleMat d0 kind f q.2.1 q.2.2.1 q.2.2.2
    configOk d0 d0.cur.1 o && q.1 != 0 && go (checkMat o cnt) mat.mem d0 (fun _ d1 =>
      decide (quillCount d1 (pcore d1 (vcoreOf d1 (me d1))) < 16)))
theorem witness_matrixIssues : issuable (.mwld h0 mwldW) mwldW .mwld none = true ∧ issuable (.mma h0 mmaW) mmaW .mma none = true ∧
    issuable (.mmas h0 mmaW) mmaW .mmas none = true ∧ issuable (.mzero h0 mzeroW) mzeroW .mzero none = true ∧
    issuable (.mpre h0 mpreW) mpreW .mpre none = true ∧ issuable (.mpost h0 mpostW) mpostW .mpost none = true ∧
    issuable (.mswap h0 ⟨0xC8, 0xC8, 0⟩) bare7 .mswap none = true ∧ issuable (.mdrain h0 ⟨0xC8, 0xA8, 0⟩) bare7 .mdrain (some 0x20000) = true := by decide +kernel
/-- K of 160 with bf16; no lane; a configuration word; a wave with nothing to wait for. -/
def wide : State := { mat with dev := setMe mat.dev { me mat.dev with mgeo := 4 } }
theorem witness_matrixOthers : (∃ q, Runs (takeT h0 mmaW) mat.mem wide.dev q wide.dev ∧
      configOk wide.dev 0 (sampleMat wide.dev .mma mmaW q.2.1 q.2.2.1 q.2.2.2) = false) ∧
    (∃ q, Runs (takeT hp mzeroW) mat.mem mat.dev q mat.dev ∧ q.1 = 0) ∧ Admitted (.mcfg h0 (mcfgW 0)) [] mat ∧ Admitted (.mfence h0 ⟨0xC8, 0xC8, 0⟩) [] mat ∧
    Admitted (.mstat h0 ⟨0x80, 0xC8, 0⟩) [] mat ∧
    Runs (sReg 0xFFFFFFFF 0xA4) mat.mem mat.dev 0x80000 mat.dev ∧ Runs (sReg 0xFFFFFFFF 0xA8) mat.mem mat.dev 0x20000 mat.dev ∧
    (∀ o ∈ mat.dev.matops.take 0, o.wave = mat.dev.cur.1 → o.done = true) ∧
    ∃ e, Runs (putA 0 0xFFFFFFFF 0x80 (fun _ => mstatWord mat.dev 0)) mat.mem mat.dev () e :=
  ⟨⟨_, rfl, by decide +kernel⟩, ⟨_, rfl, rfl⟩, adm (by decide +kernel), adm (by decide +kernel), adm (by decide +kernel), runs_val (by decide +kernel),
    runs_val (by decide +kernel), fun _ h => (by cases h), runs_unit (by decide +kernel)⟩

/-! ### The copy engine. Records are written out from R315: n32 elements in rows of four. -/

def rowRec (va : Nat) : BitVec 512 := BitVec.ofNat 512 (va + 2 ^ 68 + 4 * 2 ^ 128 + 4 * 2 ^ 256)
/-- One index of a row; a window over two columns of one row; and its target. -/
def idxRec : BitVec 512 := BitVec.ofNat 512 (0x20000 + 2 ^ 68 + 2 ^ 88 + 2 ^ 128 + 4 * 2 ^ 256)
def winRec : BitVec 512 := BitVec.ofNat 512 (0x10000 + 2 ^ 68 + 2 * 2 ^ 72 + 2 ^ 87 + 2 * 2 ^ 128 + 2 ^ 160 + 2 ^ 192 + 4 * 2 ^ 256 + 8 * 2 ^ 296 + 8 * 2 ^ 336)
def flatRec : BitVec 512 := BitVec.ofNat 512 (2 ^ 68 + 2 ^ 72 + 2 * 2 ^ 128 + 2 ^ 160 + 4 * 2 ^ 256 + 8 * 2 ^ 296)
/-- A wave with its records in slots 0 to 4, a record at s0 in memory, a destination in s2 and a counter in s3; a descriptor at
0x30000 of 8 entries on the seal 0x40000. -/
def cop : State :=
  let b := on (fun x => { x with
    slots := [(0, some ⟨rowRec 0x10000, 0⟩), (1, some ⟨rowRec 0, 0⟩), (2, some ⟨idxRec, 0⟩), (3, some ⟨winRec, 0⟩), (4, some ⟨flatRec, 0⟩)],
    s := [(0, 0x20000), (2, 0x30000), (3, 0x50000)] })
  { b with mem := b.mem ++ [(0x20002, 1), (0x20008, 0x10), (0x20010, 4), (0x20020, 4), (0x30002, 4), (0x30009, 8)] }
def cpyW (la lb : BitVec 8) : FmtE := ⟨0xC8, la, lb, 0xA2, 0⟩
/-- R319 to R327: a loaded record; four words from 0x10000 at once; the tag is read back; no faulted copy answers 1. -/
theorem test_copies :
    (look none (me (after (.cpld h0 ⟨0xC8, 0xA0, 7⟩) cop).dev).slots 7).map (·.raw) = some (rowRec 0x10000) ∧
    (after (.cpy h0 (cpyW 0 1)) cop).dev.copies.map (fun c => (c.tag, c.dst)) = [(0, 0x30000)] ∧
    look blankByte (after (.copyEngineWrite 0) (after (.cpy h0 (cpyW 0 1)) cop)).mem 0x30007 = 0xFC ∧
    (after (.copyComplete 0) (after (.copyEngineWrite 0) (after (.cpy h0 (cpyW 0 1)) cop))).dev.copies.map (·.done) = [true] ∧
    reg (after (.cpq h0 ⟨0x80, 0xC8, 0⟩) (after (.cpy h0 (cpyW 0 1)) cop)) 0x80 0 = 1 ∧ reg (after (.cpfix h0 ⟨0x80, 0xA0, 1⟩) cop) 0x80 0 = 1 ∧
    traps (.cpyx h0 (cpyW 0 1)) cop { cause := 0x01, info0 := encodeD (.cpyx h0 (cpyW 0 1)) } = true := by decide +kernel
def copies (i : Instr) (f : FmtE) (kind : CopyKind) : Bool :=
  admitted i cop && go (slotArg i f.la) cop.mem cop.dev (fun la d => decide (d = cop.dev) && go (slotArg i f.lb) cop.mem cop.dev (fun lb _ =>
    copyShapes kind la.raw lb.raw && go (acting h0 false) cop.mem cop.dev (fun m d0 => m != 0 && go (sReg m f.dst) cop.mem d0 (fun dst d1 =>
      dst.toNat % lSize lb.raw == 0 && go (copyCounter f m) cop.mem d1 (fun _ d2 => (freeTag d2 (pcore d2 (vcoreOf d2 (me d2)))).isSome)))))
theorem witness_copies : copies (.cpy h0 (cpyW 0 1)) (cpyW 0 1) .cpy = true ∧ copies (.cpyx h0 (cpyW 2 1)) (cpyW 2 1) .cpyx = true ∧
    copies (.cpyw h0 (cpyW 3 4)) (cpyW 3 4) .cpyw = true ∧ copies (.cpy h0 { cpyW 0 1 with cnt := 0xA3 }) { cpyW 0 1 with cnt := 0xA3 } .cpy = true ∧
    copyShapes .cpyx (rowRec 0) (rowRec 0) = false := by decide +kernel
def faulted : State :=
  let s := after (.cpy h0 (cpyW 0 1)) cop
  { s with dev := { s.dev with copies := s.dev.copies.map (fun c => { c with fault := some ⟨{ cause := 0x07 }, true, false⟩ }) } }
theorem witness_copyOthers : admitted (.cpld h0 ⟨0xC8, 0xA0, 7⟩) cop = true ∧ go (checkPlace .g { acc := .read, size := 64 } 0x20000) cop.mem cop.dev (fun p e =>
      p == .device 0x20000 && go (perform (readPlace (.device 0x20000) 64 0x20000 true false)) cop.mem e (fun b _ =>
        b.any (fun b => layoutOk (BitVec.ofNat 512 (leNat b))))) = true ∧
    admitted (.cpfix h0 ⟨0x80, 0xA0, 1⟩) faulted = true ∧ faultedCopy faulted.dev 0 0 = some 0 ∧ faultedCopy cop.dev 0 0 = none ∧
    admitted (.cpq h0 ⟨0x80, 0xC8, 0⟩) cop = true ∧ go (putA 0 1 0x80 (fun _ => 1)) cop.mem cop.dev (fun _ _ => true) = true := by decide +kernel

/-- R329, R330: a publication stands, STAT 0; a second one answers 2; `.off` of none answers 3; an entry of no descriptor answers 2. -/
def declW (mode : BitVec 12) : FmtE := ⟨0xC8, 0, 1, 0xA2, mode⟩
theorem test_declarations : (lineOf (after (.pub h0 (declW 0x800)) cop).dev 0x1000).decl = none ∧ memAt (.pub h0 (declW 0x800)) cop 0x30008 = 3 ∧
    ((lineOf (after (.pub h0 { declW 0 with cnt := 0xA3 }) cop).dev 0x1000).decl.map (·.desc)) = some 0x30000 ∧
    memAt (.pub h0 { declW 0 with cnt := 0xA3 }) cop 0x30008 = 0x20 ∧
    memAt (.pub h0 { declW 0 with cnt := 0xA3 }) (after (.pub h0 { declW 0 with cnt := 0xA3 }) cop) 0x30008 % 16 = 2 ∧
    memAt (.subCopy h0 { declW 0 with lb := 0 }) cop 0x300D8 = 2 := by decide +kernel
def declares (i : Instr) (halo : Bool) (f : FmtE) : Bool :=
  admitted i cop && go (slotArg i f.la) cop.mem cop.dev (fun la _ => go (slotArg i f.lb) cop.mem cop.dev (fun lb _ =>
    go (takeDecl f la lb 0xFFFFFFFF) cop.mem cop.dev (fun a d1 => go (declApply halo f a) cop.mem d1 (fun _ _ => true))))
theorem witness_declarations : declares (.halo h0 { declW 1 with cnt := 0xA3 }) true { declW 1 with cnt := 0xA3 } = true ∧
    declares (.pub h0 { declW 0 with cnt := 0xA3 }) false { declW 0 with cnt := 0xA3 } = true ∧ declares (.pub h0 (declW 0x800)) false (declW 0x800) = true ∧
    admitted (.subCopy h0 { declW 0 with lb := 0 }) cop = true ∧ go (takeSub (declW 0) 0xFFFFFFFF) cop.mem cop.dev (fun a d1 =>
      go (subApply (declW 0) 0xFFFFFFFF a) cop.mem d1 (fun _ _ => true)) = true ∧
    pubOk (rowRec 0) (rowRec 0) 8 = true ∧ bankDecls cop.dev 0 < 256 := by decide +kernel

/-! ### Tasks. -/

/-- The code of a task in s0, a task word of one block of v registers in s1, a frame in s2. -/
def tsk : State := on (fun x => { x with s := [(0, 0x10000), (1, 0), (2, 0x20000)], cjoff := 64 })
def spawnW : FmtX := ⟨0xC8, 0xA0, 0xA1, 0xC8, 3, 0⟩
def frameW : FmtX := ⟨0xC8, 0xA2, 0xA0, 0xA1, 0, 8⟩
def dclkW : FmtX := ⟨0xC8, 0xE9, 0xC8, 0xC8, 3, 0⟩
def stageW : FmtX := ⟨0x80, 0xC8, 0xC8, 0xC8, 1, 0⟩
def deepWave : State := on (fun x => { x with depth := 8, s := [(0, 0x10000)] })
/-- R332 to R338: a record is queued; its frame holds a counter of 1; the clock goes forward, and not back; a wave at depth 8. -/
theorem test_tasks :
    ((after (.spawn h0 spawnW) tsk).dev.queues.map List.length).sum = (tsk.dev.queues.map List.length).sum + 1 ∧
    memAt (.frame h0 frameW) tsk 0x20040 = 1 ∧ memAt (.frame h0 frameW) tsk 0x20002 = 1 ∧
    (me (after (.frame h0 frameW) tsk).dev).cframe = 0x20000 ∧ (mySplit (after (.dclk h0 dclkW) tsk).dev).clock = 9 ∧
    (mySplit (after (.dclk h0 dclkW) (sp (fun q => { q with clock := 20 }))).dev).clock = 21 ∧
    pcOf (after (.dsync h0 bare) tsk) = 0x10010 ∧ reg (after (.stage h0 stageW) tsk) 0x80 0 = 0x11 ∧
    traps (.spawn h0 spawnW) deepWave { cause := 0x11 } = true := by decide +kernel
theorem witness_tasks : admitted (.spawn h0 spawnW) tsk = true ∧ (me tsk.dev).depth < 8 ∧ taskOk tsk.dev 0 = true ∧
    go (sReg 0xFFFFFFFF 0xA0) tsk.mem tsk.dev (fun v d => v == 0x10000 && go (sReg 0xFFFFFFFF 0xA1) tsk.mem d (fun w e => w == 0 &&
      go (spawnCounter (me tsk.dev)) tsk.mem e (fun k d3 => decide ((nth d3.queues (contQueue d3 d3.cur.1 (recBits v 0 0 w 1 (me tsk.dev).cjoff)) []).length < 65536) &&
        k.isNone && !(me d3).fo && (me d3).posted.isEmpty))) = true ∧
    8 ≤ (me deepWave.dev).depth ∧ admitted (.spawn h0 spawnW) deepWave = true ∧ admitted (.frame h0 frameW) tsk = true ∧
    go (((List.range 8).map (8 * ·) ++ [64]).mapM (fun o => checkPlace .g { acc := .write, size := 8, writes := true, posted := true } (0x20000 + o)))
      tsk.mem tsk.dev (fun ps d3 => go (perform (frameStores ps (natBytes 64 0))) tsk.mem d3 (fun r _ => r.isSome)) = true ∧
    admitted (.dclk h0 dclkW) tsk = true ∧ go (takeSrc .n64 0xFFFFFFFF 0xE9) tsk.mem tsk.dev (fun _ d0 =>
      go (retireWord 0 true false) tsk.mem d0 (fun _ _ => true)) = true ∧
    admitted (.dsync h0 bare) tsk = true ∧ (me tsk.dev).posted = [] ∧ tsk.dev.copies = [] ∧ tsk.dev.matops = [] ∧
    (me tsk.dev).atraps.isEmpty = true ∧ admitted (.stage h0 stageW) tsk = true ∧
    go (loadDst .n64 0xFFFFFFFF 0x80 (fun _ => stageWord tsk.dev)) tsk.mem tsk.dev (fun _ _ => true) = true := by decide +kernel

/-! ### System. -/

/-- A wave of the admin context; one of another. -/
def guest : State := on (fun x => { x with ctx := 7 })
/-- R223 to R226, R339, R341: MODE reads as packed, RND 0 is refused; LANE, CLOCK; `carve` of 8 pages; `halt` and `carve` elsewhere. -/
theorem test_system :
    reg (after (.rdsr h0 ⟨0x80, 0xC8, 0⟩) base) 0x80 5 = 5 ∧ reg (after (.rdsr h0 ⟨0x80, 0xC8, 6⟩) (sp (fun q => { q with clock := 9 }))) 0x80 0 = 9 ∧
    (me (after (.wrsr h0 ⟨0xC8, 0xA4, 0xE⟩) mat).dev).preemptAt = 0x80000 ∧ (me (after (.wrsr h0 ⟨0xC8, 0xA4, 0xB⟩) mat).dev).xva = 0 ∧
    (coreOf (after (.carve h0 ⟨0x80, 0xC8, 1⟩) base).dev 0).carve = 1 ∧ reg (after (.carve h0 ⟨0x80, 0xC8, 1⟩) base) 0x80 0 = 0 ∧
    traps (.carve h0 ⟨0x80, 0xC8, 1⟩) guest { cause := 0x09, sub := 1 } = true ∧
    traps (.halt h0 ⟨0xC8, 0xA0, 0⟩) guest { cause := 0x09, sub := 1 } = true ∧
    (me (after (.halt h0 ⟨0xC8, 0xA4, 0⟩) (on (fun x => { x with s := [(4, 7)] }))).dev).live = true ∧
    pcOf (after (.hint h0 ⟨0xC8, 0xC8, 3⟩) base) = 0x10010 ∧ pcOf (after (.hintSpace h0 31 5) base) = 0x10010 := by decide +kernel
theorem witness_system : admitted (.hint h0 ⟨0xC8, 0xC8, 3⟩) base = true ∧ admitted (.rdsr h0 ⟨0x80, 0xC8, 0⟩) base = true ∧
    admitted (.wrsr h0 ⟨0xC8, 0xA4, 8⟩) mat = true ∧ admitted (.carve h0 ⟨0x80, 0xC8, 1⟩) base = true ∧ admitted (.carve h0 ⟨0x80, 0xC8, 1⟩) guest = true ∧
    (me guest.dev).ctx ≠ 0 ∧ (me base.dev).ctx = 0 ∧ pinnedS base.dev 0 ≤ 56 ∧ takenPages base.dev 0 56 = [] ∧ admitted (.halt h0 ⟨0xC8, 0xA0, 0⟩) base = true ∧
    admitted (.halt h0 ⟨0xC8, 0xA0, 0⟩) guest = true ∧ go (putA 0 1 0x80 (fun _ => 1)) base.mem base.dev (fun _ _ => true) = true ∧
    go (takeSrc .n64 0xFFFFFFFF 0xA4) mat.mem mat.dev (fun _ d0 => go (srWrite 0xE 0x80000 { cause := 1 }) mat.mem d0 (fun _ _ => true)) = true ∧
    go (sReg 0xFFFFFFFF 0xA0) base.mem base.dev (fun v e => v == 0 && !(me (failContext base.mem e 0 0x09)).live) = true ∧
    go (sReg 0xFFFFFFFF 0xA4) mat.mem mat.dev (fun _ e => (me (failContext mat.mem e 7 0x09)).live) = true := by decide +kernel
/-- A core whose resident pages do not leave room for the carve. -/
theorem witness_carveFails : 64 - 8 * 7 < pinnedS { base.dev with sets := base.dev.sets.map (fun t => { t with
    pages := (List.range 9).map (fun i => ({ store := .s, idx := i, gen := 1 } : Page)) }) } 0 := by decide +kernel
/-- An operation that runs: `mfence` parks. -/
theorem witness_fenceParks : (mySplit (after (.mfence h0 ⟨0xC8, 0xC8, 0⟩) mat).dev).park = .running ∧
    [0, 1].map (fun k => ((after (.mzero h0 mzeroW) mat).dev.matops.take k).all (·.done)) = [true, false] ∧
    (mySplit (after (.mfence h0 ⟨0xC8, 0xC8, 0⟩) (after (.mzero h0 mzeroW) mat)).dev).park = .mfence := by
  decide +kernel
/-- A carve from which a page fills, one from which a page can be written back, and one from which it cannot. -/
def carved (st : PageState) (back : Option Mapping) : State :=
  let pg : Page := { store := .s, idx := 0, gen := 1, st := st, frame := 63, dirty := back.isSome, mapped := back }
  { base with dev := setSet base.dev 0 { setOf base.dev 0 with live := false, pages := [pg] } }
def emptied (s : State) : Bool :=
  let ps := takenPages s.dev 0 32
  ps == [(0, 0)] && takenPages (ps.foldl (fun d p => evict base.mem d p.1 p.2) s.dev) 0 32 == []
theorem witness_carves : (pageOf (carved .filling none).dev 0 0).st = .filling ∧ emptied (carved .unpinned none) = true ∧
    emptied (carved .unpinned (some ⟨0x40000000, 0, true⟩)) = false := by decide +kernel
theorem witness_registers : base.dev.cur.1 < base.dev.waves.length ∧ (me base.dev).set < base.dev.sets.length ∧
    1 ≤ bits (0x300 : W64) 10 8 ∧ bits (0x300 : W64) 10 8 ≤ 5 ∧ bits (0 : W64) 10 8 = 0 := by decide +kernel

/-! ### Device steps. Each state changes one thing of `base`; a test gives the step's effect, a witness its conditions. -/

def dv (f : Dev → Dev) : State := { base with dev := f base.dev }
def wave0 (s : State) : Wave := waveOf s.dev 0
def split0 (s : State) : Split := splitOf (wave0 s) 0
def epochW : State := on (fun x => { x with epochDue := 2, vstamp := 5, lmax := 600 })
def ready : State := { base with dev := { base.dev with cycle := 64, waves := base.dev.waves.map unpromoted } }
def hurt : State := on (fun x => { x with atraps := [⟨1, { cause := 0x18 }⟩] })
def ringed (wts : Nat) : State := sp (fun q => { q with park := .ring 0 wts, ringRec := [[1, 2, 3, 4, 5, 6, 7, 8]] })
def stopAt : State := on (fun x => { x with preemptHit := true, preemptAt := 5 })
def atHeader (pc : Nat) : State := sp (fun q => { q with entering := true, pc := pc })
/-- R119, R161, R179, R197, R204, R205. -/
theorem test_waveSteps : (wave0 (after (.clockEpochStep 0) epochW)).vstamp = 601 ∧ (wave0 (after (.clockEpochStep 0) epochW)).epochDue = 1 ∧
    (split0 (after (.issuePromotion 0 0) ready)).promoted = some 64 ∧ (launchOf (after (.minTreeRefresh 0) fixedOrder).dev 0).minKey.isSome = true ∧
    (split0 (after (.asyncTrapDelivery 0 0) hurt)).park = .held ∧ (split0 (after (.ringRetry 0) (ringed 5))).park ≠ .ring 0 5 ∧ (split0 (after (.ringRetry 0) (ringed 0))).park = .ring 0 0 ∧
    (split0 (after (.preemptAtReached 0) stopAt)).park = .stopped ∧ (wave0 (after (.preemptAtReached 0) stopAt)).preemptAt = 0 ∧
    pcOf (after .splitArrive (atHeader 0x10000)) = 0x10008 ∧ (split0 (after .splitArrive (atHeader 0x10000))).entering = false := by decide +kernel
theorem witness_waveSteps : (wave0 epochW).epochDue ≠ 0 ∧ readyWord ready.mem ready.dev 0 0 = true ∧ (split0 ready).promoted = none ∧
    (split0 ready).readySince + 64 ≤ ready.dev.cycle ∧ (activeKeys base.dev 0).length = 1 ∧ activeKeys base.dev 1 = [] ∧
    (wave0 hurt).atraps = [⟨1, { cause := 0x18 }⟩] ∧ trapSplit (wave0 hurt) 1 = some 0 ∧ (wave0 hurt).live = true ∧ (split0 hurt).mask ≠ 0 ∧ (split0 hurt).handler = none ∧ (split0 hurt).ans = none ∧
    deliverable (split0 hurt).park = true ∧ setResident hurt.dev (wave0 hurt).set = true ∧ (wave0 (ringed 5)).splits = [split0 (ringed 5)] ∧
    (split0 (ringed 5)).park = .ring 0 5 ∧ (lineOf (ringed 5).dev 0).wts ≠ 5 ∧ (lineOf (ringed 0).dev 0).wts = 0 ∧ (wave0 stopAt).preemptHit = true := by
  decide +kernel
/-- At a header alone; at a header where another split is to be met; at no header. -/
def meet : State := on (fun x => { x with splits :=
  [{ (splitOf x 0) with mask := 1, entering := true, pc := 0x10040, stack := [.point 0x10040 3 0 []] }, { (splitOf x 0) with mask := 2 }] })
theorem witness_arrive : go (checkTarget 0x10000) base.mem (atHeader 0x10000).dev (fun _ d1 => go (arrive 9) base.mem d1 (fun r d2 =>
      r && go enterHeader base.mem d2 (fun _ _ => true))) = true ∧
    go (checkTarget 0x10040) base.mem meet.dev (fun _ d1 => go (arrive 9) base.mem d1 (fun r _ => !r)) = true ∧
    go (checkTarget 0x10080) base.mem (atHeader 0x10080).dev (fun _ _ => true) = false := by decide +kernel

/-! Pages. -/

/-- Every frame of the S store taken by unpinned pages; a filling page; one whose backing is not mapped. -/
def crowded : State := { base with dev := setSet base.dev 0 { setOf base.dev 0 with
  pages := (List.range 64).map (fun i => ({ store := .s, idx := i, gen := 1, st := .unpinned, frame := i, dirty := false } : Page)) } }
def farBack : State := { paged with dev := setSet paged.dev 0 { setOf paged.dev 0 with back := 0x40000000 } }
/-- R25, R28, R39, R40, R64. -/
theorem test_pageSteps : (after (.pageWalk 0 0 0x10000 .read) base).dev.tlb.length = 2 ∧
    (after (.pageWalk 0 0 0x40000000 .read) base).dev.episodes.length = 1 ∧ (pageOf (after (.fillComplete 0 3) paged).dev 0 3).st = .pinned ∧
    (pageOf (after (.fillComplete 0 3) farBack).dev 0 3).st = .filling ∧ (after (.fillComplete 0 3) farBack).dev.episodes.length = 1 := by decide +kernel
theorem witness_pageSteps : go (translate 0 0 0x10000 .read) base.mem base.dev (fun _ _ => true) = true ∧
    (match runAct (translate 0 0 (2 ^ 60) .read) base.mem base.dev with | .error e => !replayable e | _ => false) = true ∧
    (match runAct (translate 0 0 0x40000000 .read) base.mem base.dev with
      | .error e => replayable e && (joinEpisode base.dev 0 0 e []).2 && !(joinEpisode (joinEpisode base.dev 0 0 e []).1 0 0 e []).2
      | _ => false) = true ∧
    (freeFrame base.dev 0 .s).isSome = true ∧ (pageOf paged.dev 0 0).st ≠ .filling ∧ (pageOf paged.dev 0 3).st = .filling ∧
    (match dataKey farBack.mem farBack.dev 0 (pageOf farBack.dev 0 3) .read with | .error _ => true | _ => false) = true ∧
    (match dataKey paged.mem paged.dev 0 (pageOf paged.dev 0 3) .read with
      | .ok (_, d1) => (match bitsKey paged.mem d1 0 (pageOf paged.dev 0 3) .read with | .ok _ => true | _ => false)
      | _ => false) = true ∧ (pageOf paged.dev 0 3).mapped = none := by decide +kernel
/-- A mapped page whose bits' place is not mapped. -/
def farBits : State := { farBack with dev := modPage farBack.dev 0 3 (fun p => { p with mapped := some ⟨0x20000, 0x20000, true⟩ }) }
theorem witness_fillFault : (pageOf farBits.dev 0 3).st = .filling ∧ (match dataKey farBits.mem farBits.dev 0 (pageOf farBits.dev 0 3) .read with
    | .ok (_, d1) => (match bitsKey farBits.mem d1 0 (pageOf farBits.dev 0 3) .read with | .error _ => true | .ok _ => false)
    | .error _ => false) = true := by decide +kernel
theorem witness_reclaim : freeFrame crowded.dev 0 .s = none ∧ (reclaimable crowded.dev 0 .s).isSome = true := by decide +kernel

/-! Engines. -/

def copying : State := after (.cpy h0 (cpyW 0 1)) cop
def noCopy : Copy :=
  { wave := 0, lane := 0, tag := 64, kind := .cpy, la := ⟨0, 0⟩, lb := ⟨0, 0⟩, laSlot := 0, lbSlot := 0, dst := 0, space := 0, cnt := none,
    ph := false, epoch := 0 }
def copyOf (s : State) : Copy := (copyAt s.dev 0).getD noCopy
def withCopy (f : Copy → Copy) : State := { copying with dev := { copying.dev with copies := copying.dev.copies.map f } }
def badRead : State := withCopy (fun c => { c with la := ⟨rowRec 0x10001, 0⟩ })
def zeroing : State := after (.mzero h0 mzeroW) mat
def loading : State := after (.mwld h0 mwldW) mat
def swapping : State := after (.mswap h0 ⟨0xC8, 0xC8, 0⟩) mat
def zeroed : State := tuned zeroing (fun o => { o with row := 1 })
def signal : EngSignal := { line := 0x800, va := 0x20000, epoch := 1, wave := 0, wts := 0 }
def signalled : State := { made 0 with dev := { (made 0).dev with signals := [signal] } }
/-- R285, R294 to R298, R324, R325: a failing read posts COPY; a load's beat and a swap; a signal of the phaser's epoch counts and
advances it to phase 1. -/
theorem test_engineSteps : (copyOf (after (.copyFault 0) badRead)).fault.isSome = true ∧
    ((wave0 (after (.copyFault 0) badRead)).atraps.map (·.trap.cause)) = [0x17] ∧
    ((loading.dev.matops.head?).map (fun o => (loadBeat loading.mem loading.dev 0 o).matops.map (·.beat))) = some [1] ∧
    (phaserOf (after (.phaserEngineSignal 0) signalled).mem (after (.phaserEngineSignal 0) signalled).dev 0x800).phase = 1 := by decide +kernel
/-- The next element of a copy, and the landing of its granule. -/
def lands (s : State) (k : Plan → Bool) (ok : Bool) : Bool :=
  match planElem (copyOf s) s.mem s.dev with
  | .ok ((c1, p), d1) =>
    k p && (match p.writes with
      | [] => ok
      | w :: _ =>
        match collect s.mem (granuleOf w.dst) 16 16 (advance c1) (takeWrites (granuleOf w.dst) c1.pos {} p.writes) d1 with
        | .ok (b, _, d2) => (match landCells 0 w.dst (lastCells b.cells) s.mem d2 with
          | .ok (_, d3) => ok && (copyAt d3 0).isSome
          | .error (.page _ _) => !ok
          | .error _ => false)
        | .error _ => false)
  | .error _ => false
/-- A copy whose element needs no write, and one between global memory and a page that is filling, either way. -/
def nothing : State := withCopy (fun c => { c with noWrite := true })
def filling (c : Copy → Copy) : State :=
  let t := { setOf copying.dev 0 with pages := [{ store := .s, idx := 0, gen := 1, st := .filling }] }
  let s := withCopy c
  { s with dev := setSet s.dev 0 t }
def intoPage : State := filling (fun c => { c with dst := 0, space := 1, lb := ⟨rowRec 0 + 2 ^ 64, 0⟩ })
def fromPage : State := filling (fun c => { c with la := ⟨rowRec 0 + 2 ^ 64, 0⟩ })
theorem witness_copyWaits : lands intoPage (fun p => p.writes ≠ []) false = true ∧
    (match planElem (copyOf fromPage) fromPage.mem fromPage.dev with | .error (.wait 0 0) => true | _ => false) = true := by decide +kernel
theorem witness_copySteps : (copyAt copying.dev 0).isSome = true ∧ (copyOf copying).tset = none ∧ copyRuns copying.dev 0 (copyOf copying) = true ∧
    targetStale copying.dev (takeTag copying.dev (copyOf copying)) = false ∧ lands copying (fun p => p.writes ≠ []) true = true ∧
    lands nothing (fun p => p.writes == []) true = true ∧
    copyRuns badRead.dev 0 (copyOf badRead) = true ∧ (match planElem (copyOf badRead) badRead.mem badRead.dev with
      | .error (.fault none _) => true
      | _ => false) = true ∧
    (copyOf (withCopy (fun c => { c with pos := 4 }))).pos = copyTotal (copyOf copying) ∧ (copyOf copying).done = false ∧ (copyOf copying).fault = none ∧
    (copyOf copying).posted = [] ∧
    targetStale copying.dev { copyOf copying with tset := some 5 } = true ∧ copyRuns copying.dev 0 { copyOf copying with tset := some 5 } = true := by
  decide +kernel
def foZeroed : State := { zeroed with dev := setMe zeroed.dev { me zeroed.dev with fo := true } }
theorem witness_matrixSteps : headed loading (fun o => !loadDone o) = true ∧ headed swapping (fun o => loadDone o && swaps o && !o.swapped) = true ∧
    headed zeroing (fun o => loadDone o && !swaps o && hasRows o && !matOver o) = true ∧ headed zeroed (fun o => matOver o && !matHeld zeroed.dev o) = true ∧
    headed foZeroed (fun o => matOver o && matHeld foZeroed.dev o) = true ∧ signalled.dev.signals[0]? = some signal ∧ signal.held = none := by
  decide +kernel

/-! Locks, monitors and counters. -/

def parkAt (p : Park) : State := { lockSt with dev := setMySplit { lockSt.dev with cycle := 5000 } { mySplit lockSt.dev with park := p } }
def full1 : Park := .lockFull 0x800 0x20000 1 none
def lock1 (t : Nat) : Park := .lock 0x800 0x20000 (some t)
def cwait1 (t : Nat) (x : Watch) : Park := .cwait 0x10008 9 .dev (some t) 32 x
def lockedBy (p : Park) : State := { parkAt p with dev := setLock (parkAt p).dev 0x800 { locked := true } }
def held5 : State := { lockSt with dev := setMe { lockSt.dev with cycle := 9 } { me lockSt.dev with held := [⟨0x800, 0x20000, 1, some 5⟩] } }
def outSet : State := dv (fun d => setCluster d 0 { clusterOf d 0 with res := .spilled })
def polled (wts : Nat) (p : Park) : State :=
  let x := me lockSt.dev
  { lockSt with dev := setMe lockSt.dev { x with monitor := some ⟨0x800, 32, wts, true, none⟩, splits := x.splits.map (fun q => { q with park := p }) } }
/-- In FO mode, a parked request at a clock beside a split that runs at clock 3. -/
def later (n : Nat) : State := on (fun x => { x with
  fo := true, splits := x.splits.flatMap (fun q => [{ q with park := full1, clock := n }, { q with clock := 3 }]) })
/-- The wave back in its core, a place in a queue kept for it. -/
def reserved : State := { lockSt with dev := setLock lockSt.dev 0x800 { locked := true, reserved := true, owner := some 0, queue := [⟨0, 0, 0x20000, 1, true, 4⟩] } }
/-- R140, R141, R143, R280, R286: a reissued request is granted; timeouts answer 3, 1 and the counter; LOCK_HOLD is posted once; what
was kept for a waiter is granted when it comes back. -/
theorem test_lockReissue : (split0 (after (.lockReissue 0 0) (parkAt full1))).ans = some [(0, 0)] ∧
    (split0 (after (.waiterBack 0) reserved)).ans.isSome = true ∧ holds (wave0 (after (.waiterBack 0) reserved)) 0x800 = true := by decide +kernel
theorem test_timeouts : (split0 (after (.lockWaitTimeout 0 0) (parkAt (lock1 4096)))).ans = some [(0, 3)] ∧
    (split0 (after (.mwaitTimeout 0 0) (parkAt (.mwait (some 4096))))).ans = some [(0, 1)] ∧
    (split0 (after (.cwaitTimeout 0 0) (parkAt (cwait1 4096 .entry)))).park = .running ∧
    ((wave0 (after (.lockHoldTimeout 0 0x800) held5)).atraps.map (·.trap.cause)) = [0x18] ∧ ((wave0 (after (.lockHoldTimeout 0 0x800) held5)).held.map (·.deadline)) = [none] ∧
    (split0 (after (.monitorPoll 0) (polled 5 (.mwait none)))).park = .running ∧ (split0 (after (.monitorPoll 0) (polled 0 (.mwait none)))).park = .mwait none ∧
    (split0 (after (.monitorPoll 0) (polled 0 (cwait1 0 (.due [(0, 9)] 3))))).ans = some [(0, 9)] := by decide +kernel
def asks (s : State) : Bool := match (lockRequest s.mem s.dev 0 0 0x800 0x20000 1 none).2 with | .inl _ => true | .inr _ => false
theorem witness_lockSteps : (split0 (parkAt full1)).park = full1 ∧ arrivesNext (parkAt full1).dev 0 0 (bankOf 0x20000) 0x800 = true ∧ asks (parkAt full1) = true ∧
    asks (lockedBy full1) = false ∧ (split0 (later 7)).park = full1 ∧ (split0 (parkAt (lock1 4096))).park = lock1 4096 ∧
    [4096, 9000].map (fun t => passed (parkAt (lock1 t)).dev (some t)) = [true, false] ∧
    ((wave0 held5).held.find? (fun h => h.line == 0x800 && passed held5.dev h.deadline)).isSome = true ∧ (wave0 base).held = [] ∧
    setResident outSet.dev (wave0 outSet).set = false ∧ setResident base.dev (wave0 base).set = true ∧
    ((lineOf reserved.dev 0x800).lock.any (fun e => (e.queue.find? (fun q => q.wave == 0 && reservedFor e q.wave q.split)).isSome)) = true := by decide +kernel
theorem witness_belowMin : [0, 7].map (fun n => arrivesNext (later n).dev 0 0 (bankOf 0x20000) 0x800) = [true, false] := by decide +kernel
theorem witness_watches : (split0 (parkAt (.mwait (some 4096)))).park = .mwait (some 4096) ∧ (wave0 (parkAt (.mwait (some 4096)))).monitor = none ∧
    (split0 (parkAt (cwait1 4096 .entry))).park = cwait1 4096 .entry ∧ (split0 (parkAt (cwait1 0 (.due [] 3)))).park = cwait1 0 (.due [] 3) ∧
    (wave0 (polled 5 (.mwait none))).monitor.any (fun o => o.polling && decide ((lineOf (polled 5 (.mwait none)).dev o.line).wts ≠ o.wts)) = true ∧
    (mwaiting (wave0 (polled 5 (.mwait none)))).length = 1 ∧ mwaiting (wave0 (polled 5 .bar)) = [] ∧ (wave0 (polled 5 .bar)).splits.length = 1 ∧
    (split0 (polled 5 (.phwait 0x800 1 32 (.due [] 3)))).park = .phwait 0x800 1 32 (.due [] 3) := by decide +kernel

/-! Launches. The record in slot 0 is written out from R182: code 0x10000, one cluster, backing 0x30000, seal 0x20000, SEQ 1. -/

def inSlot (b : List (Nat × Byte)) : State := dv (fun d => { d with regs := { d.regs with stage := 5 }, window := b })
def goodRec : List (Nat × Byte) := [(2, 1), (16, 1), (42, 3), (58, 2), (248, 1)]
def asked : State := inSlot goodRec
def badRec : State := inSlot [(2, 1), (16, 1), (42, 3), (58, 2), (72, 1), (248, 1)]
def askedTwice : State := { asked with dev := { asked.dev with slotSeq := [(0, 1)] } }
/-- A co-resident launch of 25 clusters. -/
def noCores : State := inSlot [(2, 1), (12, 0x20), (16, 25), (42, 3), (58, 2), (248, 1)]
def accepted : State := after (.launchTrigger 0) asked
/-- R180 to R190: an accepted launch queues an entry, and the dispatcher places it; a repeated SEQ and a bad record queue none. -/
theorem test_launches : accepted.dev.launches.length = 2 ∧ (accepted.dev.queues.map List.length).sum = 1 ∧
    (after (.launchTrigger 0) badRec).dev.launches.length = 1 ∧ (after (.launchTrigger 0) askedTwice).dev.launches.length = 1 ∧
    (after (.dispatchSelect 0 0) accepted).dev.waves.length = 2 ∧ ((after (.dispatchSelect 0 0) accepted).dev.queues.map List.length).sum = 0 := by
  decide +kernel
theorem witness_triggers : asked.dev.regs.stage = 5 ∧ (launchFrom asked.dev 0 (slotBits asked.dev 0)).seq = 1 ∧ look 0 asked.dev.slotSeq 0 < 1 ∧
    badLaunch asked.mem asked.dev (slotBits asked.dev 0) = false ∧ noRes asked.dev (launchFrom asked.dev 0 (slotBits asked.dev 0)) = false ∧
    (ctxOf asked.dev 0).broken = false ∧ badLaunch badRec.mem badRec.dev (slotBits badRec.dev 0) = true ∧ 1 ≤ look 0 askedTwice.dev.slotSeq 0 ∧
    (launchFrom base.dev 0 (slotBits base.dev 0)).seq = 0 ∧ badLaunch noCores.mem noCores.dev (slotBits noCores.dev 0) = false ∧
    noRes noCores.dev (launchFrom noCores.dev 0 (slotBits noCores.dev 0)) = true := by decide +kernel
theorem witness_dispatch : select asked.mem asked.dev 0 0 = none ∧ (select accepted.mem accepted.dev 0 0).isSome = true ∧ evictDue accepted.mem accepted.dev 0 0 = none ∧ accepted.dev.regs.stage = 5 := by
  decide +kernel

/-! Switching. Context 0 of `base` has a save area at 0 with free blocks. -/

def saved : State := dv (fun d => setCluster (setSet d 0 { setOf d 0 with block := some 1 }) 0 { clusterOf d 0 with res := .spilled })
/-- A set's block with the tag that R208 asks for. -/
def tagged : Dev := wrBytes saved.dev (blockAt base.mem saved.dev 0 1) (tagOf base.mem saved.dev (blockAt base.mem saved.dev 0 1) 0)
theorem rdBytes_apart {m : Memory} {d : Dev} {k a n : Nat} {bs : List Byte} (h : a + n ≤ k ∨ k + bs.length ≤ a) :
    rdBytes m (wrBytes d k bs) a n = rdBytes m d a n := by
  unfold rdBytes
  refine List.map_congr_left fun i hi => rdByte_wrBytes _ _ _ _ _ ?_
  have := List.mem_range.1 hi
  omega
theorem rdBytes_back (m : Memory) (d : Dev) (a b : W64) :
    rdBytes m (wrBytes d 0x90000 (leBytes 8 a ++ leBytes 8 b)) 0x90000 16 = leBytes 8 a ++ leBytes 8 b := by
  simp [rdBytes, rdByte, wrBytes, leBytes, List.range, List.range.loop]
theorem witness_goodBlock : (clusterOf tagged 0).res = .spilled ∧ blockGood base.mem tagged 0 = true := by
  have hk : blockAt base.mem saved.dev 0 1 = 0x90000 := by decide +kernel
  have ht : ∀ d k, (tagOf base.mem d k 0).length = 16 := fun _ _ => rfl
  have hs : ctxSave base.mem tagged 0 = ctxSave base.mem saved.dev 0 := by
    have h : rdBytes base.mem tagged (ctxDesc saved.dev 0 + 24) 8 = rdBytes base.mem saved.dev (ctxDesc saved.dev 0 + 24) 8 := by
      unfold tagged
      rw [hk]
      exact rdBytes_apart (.inl (show ctxDesc saved.dev 0 + 24 + 8 ≤ 0x90000 by decide +kernel))
    unfold ctxSave rd64
    rw [show ctxDesc tagged 0 = ctxDesc saved.dev 0 from rfl, h]
  have hb : blockAt base.mem tagged 0 1 = 0x90000 := by unfold blockAt; rw [hs]; exact hk
  have h1 : rdBytes base.mem tagged 0x90000 16 = tagOf base.mem saved.dev 0x90000 0 := by
    unfold tagged
    rw [hk]
    exact rdBytes_back _ _ _ _
  have h2 : tagOf base.mem tagged 0x90000 0 = tagOf base.mem saved.dev 0x90000 0 := by
    have h : rdBytes base.mem tagged (0x90000 + 16) (0x80000 - 16) = rdBytes base.mem saved.dev (0x90000 + 16) (0x80000 - 16) := by
      unfold tagged
      rw [hk]
      exact rdBytes_apart (.inr (by rw [ht]))
    unfold tagOf
    rw [h]
  have h3 : rd64 base.mem tagged (0x90000 + 16) = w64 0 := by
    have h : rdBytes base.mem tagged (0x90000 + 16) 8 = rdBytes base.mem saved.dev (0x90000 + 16) 8 := by
      unfold tagged
      rw [hk]
      exact rdBytes_apart (.inr (by rw [ht]))
    unfold rd64
    rw [h]
    decide +kernel
  have e : Machine.setOf tagged 0 = Machine.setOf saved.dev 0 := rfl
  have b : (Machine.setOf saved.dev 0).block = some 1 := by decide +kernel
  have c : (Machine.setOf saved.dev 0).ctx = 0 := by decide +kernel
  have q : (Machine.setOf saved.dev 0).spillSeq = 0 := by decide +kernel
  refine ⟨rfl, ?_⟩
  simp only [blockGood, e, b, c, q, hb, h1, h2, h3]
  simp [show tagged.poison = [] from rfl]

/-- A save area without blocks, and a wave that PREEMPT_AT has stopped; an idle core with a team of priority 1. -/
def noBlocks : State := { sp (fun q => { q with park := .stopped }) with mem := putWord base.mem 0x4018 0x100000 }
def idle : State := { accepted with dev := setCluster { accepted.dev with cycle := 2 ^ 40 } 0 { clusterOf accepted.dev 0 with prio := 1 } }
def shadowed : State := dv (fun d => setCluster d 0 { clusterOf d 0 with res := .shadow })
def over_ : State := dv (fun d => { setWave d 0 { waveOf d 0 with live := false } with clusters := [] })
/-- R193, R205 to R208, R194. -/
theorem test_switching : (clusterOf (after (.contextSwitchOut 0) base).dev 0).res = .shadow ∧
    (split0 (after (.contextSwitchOut 0) noBlocks)).park ≠ .stopped ∧
    (ctxOf (after (.contextSwitchIn 0 false) saved).dev 0).broken = true ∧ (clusterOf (after (.forwardProgressSwap 0) idle).dev 0).res = .shadow ∧
    (after (.forwardProgressSwap 0) idle).dev.waves.length = 2 ∧ (launchOf (after (.launchEnd 0) over_).dev 0).ended = true := by decide +kernel
theorem witness_switching : (match switchOut base.mem base.dev 0 with | (_, .done) => true | _ => false) = true ∧
    (match switchOut noBlocks.mem noBlocks.dev 0 with | (e, .full _) => stoppedIn e 0 | _ => false) = true ∧
    (clusterOf shadowed.dev 0).res = .shadow ∧ (clusterOf saved.dev 0).res = .spilled ∧ coreIdle idle.dev 0 = true ∧
    (match swapEntry idle.dev 0, swapVictim idle.mem idle.dev 0 with
      | some (q, _, e), some v =>
        (match switchOut idle.mem idle.dev v with
          | (e1, .done) => (nth e1.queues q []).length == (nth idle.dev.queues q []).length &&
            (planEntry e1 [] (heldCores e1 (coreDie 0) (q % 12)) (some 0) (coreDie 0) e).isSome
          | _ => false)
      | _, _ => false) = true ∧
    (launchOf over_.dev 0).ended = false ∧ launchIdle over_.dev 0 = true ∧ (launchOf over_.dev 0).donectr = 0 ∧ launchIdle base.dev 0 = false := by
  decide +kernel
/-- A context that is broken; DONECTR with a place, and without. -/
def brokenCtx : State := { asked with dev := setCtx asked.dev 0 { ctxOf asked.dev 0 with broken := true } }
def counted (va : W64) : Launch := { launchOf base.dev 0 with donectr := va }
theorem witness_launchEnds : (ctxOf brokenCtx.dev 0).broken = true ∧ badLaunch brokenCtx.mem brokenCtx.dev (slotBits brokenCtx.dev 0) = false ∧
    (match switchOut saved.mem saved.dev 0 with | (_, .wait) => true | _ => false) = true ∧ (match switchOut noBlocks.mem base.dev 0 with | (e, .full _) => !stoppedIn e 0 | _ => false) = true ∧
    (match doneKey base.mem base.dev (counted 0x20000) with | .ok (some k, _) => k == 0x20000 | _ => false) = true ∧
    (match doneKey base.mem base.dev (counted 0x40000000) with | .error _ => true | _ => false) = true := by decide +kernel

/-! Registers. -/

def xinv (n : Nat) : State := dv (fun d => { d with regs := { d.regs with xinvq := List.replicate n (.context 0) } })
def idOf (s : State) : HeldId := ⟨BitVec.ofNat 16 (wave0 s).ctx, BitVec.ofNat 8 (vcoreOf s.dev (wave0 s)), BitVec.ofNat 4 (wave0 s).widx, BitVec.ofNat 2 (ordOf (wave0 s) 0)⟩
def stuck : State := sp (fun q => { q with park := .held, heldTrap := some { cause := 0x15 } })
def stuckCopy : State :=
  let s := withCopy (fun c => { c with fault := some ⟨{ cause := 0x17, info0 := w64 (c.tag * 128) }, true, false⟩ })
  { s with dev := setMySplit s.dev { mySplit s.dev with park := .held, heldTrap := some { cause := 0x17, info0 := 0 }, heldAsync := true } }
/-- R29, R30, R202, R371. -/
theorem test_registerSteps : (after (.xinvContext 7) (xinv 7)).dev.regs.xinvq.length = 8 ∧ (after (.xinvContext 7) (xinv 8)).dev.regs.xinvOvf = true ∧
    (after .xinvComplete (xinv 1)).dev.regs.xinvq = [] ∧ (after (.resumeAtTpc (idOf stuck)) stuck).dev.regs.trSeq = 1 ∧
    (split0 (after (.resumeAtTpc (idOf stuck)) stuck)).park = .running ∧ (split0 (after (.resumePastTpc (idOf stuck)) stuck)).pc = 0x10010 ∧
    (after (.resumeAtTpc (idOf stuck)) base).dev.regs.trErr = true ∧ (wave0 (after (.abortLaunch (idOf stuck)) stuck)).live = false ∧
    (copyOf (after (.resumePastTpc (idOf stuckCopy)) stuckCopy)).pos = 1 ∧
    (after (.releaseAllEpisodes 0) (after (.pageWalk 0 0 0x40000000 .read) base)).dev.episodes = [] := by decide +kernel
theorem witness_registerSteps : (xinv 7).dev.regs.xinvq.length < 8 ∧ 8 ≤ (xinv 8).dev.regs.xinvq.length ∧ (xinv 1).dev.regs.xinvq = [.context 0] ∧
    heldSplit base.dev (idOf stuck) = none ∧ heldSplit stuck.dev (idOf stuck) = some (0, 0) ∧ heldCopy stuck.dev (0, 0) = none ∧
    (split0 stuck).heldAsync = false ∧ (split0 stuck).entering = false ∧ heldSplit stuckCopy.dev (idOf stuckCopy) = some (0, 0) ∧
    heldCopy stuckCopy.dev (0, 0) = some 0 ∧ (split0 stuckCopy).heldAsync = true := by decide +kernel

/-! Service. -/

def staged (n : BitVec 4) : State := dv (fun d => { d with regs := { d.regs with stage := n } })
def busy : State := dv (fun d => { d with regs := { d.regs with mbBusy := some .logread } })
/-- R367, R372 to R381. -/
theorem test_service : (after (.attest 9 8) (staged 5)).dev.regs.mbBusy = some .attest ∧ (after (.attest 9 8) busy).dev.regs.mbOvr = true ∧
    (after (.attest 9 2049) (staged 5)).dev.regs.mbResult = 0xFFFF ∧ (after .mailboxCompletion busy).dev.regs.mbDone = true ∧
    (after .deviceReset (staged 5)).dev.regs.stage = 0 ∧ (after (.selftest 2) (staged 1)).dev.regs.haltc = 2 ∧
    (after .meminit (staged 3)).mem = [] ∧ (after (.links 1 0) (staged 4)).dev.regs.stage = 5 ∧ portState (after (.links 3 2) (staged 4)).dev 1 = 4 ∧
    (after (.powerAlarm 0 1521) base).dev.regs.palarm = true ∧ (after (.errorDetected (.l2Way 0) false) base).dev.regs.trans = 1 := by decide +kernel
theorem witness_service : busy.dev.regs.mbBusy ≠ none ∧ base.dev.regs.mbBusy = none ∧ busy.dev.regs.stage ≠ 5 ∧ (staged 1).dev.regs.stage = 1 ∧
    (staged 2).dev.regs.stage = 2 ∧ (staged 3).dev.regs.stage = 3 ∧ (staged 4).dev.regs.stage = 4 ∧ memWf base.mem = true ∧ base.dev.wlog = [] ∧
    State.reset.dev.launches = [] ∧ State.reset.dev.copies = [] ∧ State.reset.dev.matops = [] ∧ State.reset.dev.signals = [] ∧ (selfTest base.mem base.dev []).2 = false := by decide +kernel

/-! The outside. -/

def port3 : State := dv (fun d => { d with cycle := 100000, regs := { d.regs with pstate := [(0, 3)] } })
def port2 : State := dv (fun d => { d with regs := { d.regs with pstate := [(0, 2)], routes := [(1, some 0)] } })
def mappedFill : State := dv (fun d => setSet d 0 { setOf d 0 with
  pages := [{ store := .s, idx := 0, gen := 1, st := .filling, mapped := some { va := 0x20000, key := 0x20000, rw := true } }] })
/-- R121 to R125, R363, R368, R371. -/
theorem test_outside : (after (.hostRead 0x10000 8) base).dev.hostResp = [0, 0, 0, 0, 0, 0, 0x70, 0xFC] ∧ memAt (.hostWrite 0x20000 [7]) base 0x20000 = 7 ∧
    look 0 (after (.hostWrite 0xC000000000 [7]) base).dev.window 0 = 7 ∧ memAt (.cxlSnoop 0 [7]) base hostKey = 7 ∧
    memAt (.peerRequestArrival 1 0x20000 (.atomic 0 3 5)) base 0x20000 = 5 ∧ (after (.peerRequestArrival 1 0x20000 (.atomic 0 3 5)) base).dev.hostResp = List.replicate 8 0 ∧
    memAt (.peerWriteArrival 1 0x20000 [9]) base 0x20000 = 9 ∧ portState (after (.linkRetrainStart 0) port2).dev 0 = 3 ∧
    portState (after (.linkRetrainComplete 0 false) { port3 with dev := { port3.dev with cycle := 9 } }).dev 0 = 2 ∧
    portState (after (.portDown 0) port3).dev 0 ≠ 3 ∧ (after (.hostWrite 0x20000 [7]) mappedFill).dev.agenda.length = base.dev.agenda.length + 2 := by decide +kernel
theorem witness_outside : fillingIn base.dev 0x20000 8 = none ∧ 0x20000 + 8 ≤ 0xC000000000 ∧ 0xC000000000 < 0xC000000000 + 1 ∧
    (fillingIn mappedFill.dev 0x20000 1).isSome = true ∧ (peerWork (.read 8)).1 = 8 ∧ (peerWork (.read 8)).2.isNone = true ∧ 0x20000 % 8 = 0 ∧
    mappedAt base.dev 0x20000 = none ∧ base.dev.poison.contains (0x20000 / 64) = false ∧ addsCount (.atomic 0 3 5) = none ∧
    addsCount (.count 5) = some 5 ∧ linkOpen port2.dev 1 = true ∧ linkOpen base.dev 1 = false ∧ portState port2.dev 0 = 2 ∧ portState port3.dev 0 = 3 ∧
    look 0 port3.dev.regs.retrainStart 0 + 72000 < port3.dev.cycle ∧ look 0 port2.dev.regs.retrainStart 0 + 72000 ≥ port2.dev.cycle ∧
    (peerWork (.atomic 0 3 5)).2.isSome = true := by decide +kernel
/-- A write, a copy's write and a request that wait for peer 1. -/
def acked (n : Nat) : State :=
  let s := on (fun x => { x with posted := if n = 0 then [(1, 1)] else [], splits := x.splits.map (fun q => { q with park := if n = 2 then .peer 2 else .running }) })
  { s with dev := { s.dev with regs := port2.dev.regs, copies := if n = 1 then [{ noCopy with posted := [(1, 1)] }] else [], sent := nth [[⟨1, .write 0⟩], [⟨1, .copy 0⟩], [⟨1, .request 0 0⟩], []] n [] } }
theorem witness_acknowledged : [0, 1, 2, 3].map (fun n => (sentHeads (acked n).dev 1).filter (fun x => sentBy (acked n).dev x == 0)) =
      [[⟨1, .write 0⟩], [⟨1, .copy 0⟩], [⟨1, .request 0 0⟩], []] ∧
    linkOpen (acked 0).dev 1 = true ∧ ((awaiting (acked 2).dev [1]).find? (fun p => p.1 == 0)).isSome = true ∧ awaiting (acked 0).dev [1] = [] := by decide +kernel
/-- An answer of a peer reaches the split that waits for it; a peer's addition counts. -/
theorem test_peers : (split0 (after (.peerAcknowledgement 0 1 [7]) (acked 2))).ans.isSome = true ∧ memAt (.peerRequestArrival 1 0x20000 (.count 5)) base 0x20000 = 5 ∧
    memAt (.peerRequestArrival 1 0x20000 (.red 0 1 5)) base 0x20000 = 5 := by decide +kernel

/-! Frames. -/

/-- A context whose trap ring lies at no address: a trap leaves a record nowhere, and the split stands. -/
def noRing : State := { base with mem := putWord base.mem 0x4010 (2 ^ 60) }
theorem ctxRing_same {m : Memory} {d e : Dev} (h1 : d.wlog = e.wlog) (h2 : d.regs = e.regs) : ctxRing m d 0 = ctxRing m e 0 := by
  unfold ctxRing rd64 rdBytes rdByte ctxDesc
  rw [h1, h2]
theorem ring_lost {d : Dev} (rs : List (List W64)) (h1 : d.wlog = base.dev.wlog) (h2 : d.regs = base.dev.regs) :
    ringWrite noRing.mem d 0 rs true = (ringLost d rs.length, .dropped) := by
  have h3 : ctxRing noRing.mem base.dev 0 = 2 ^ 60 := by decide +kernel
  unfold ringWrite
  rw [ctxRing_same h1 h2, h3]
  rfl
/-- A device with the one wave of `base`. -/
def Like (d : Dev) : Prop := d.wlog = base.dev.wlog ∧ d.regs = base.dev.regs ∧ d.cur = (0, 0) ∧ ∃ x, d.waves = [x] ∧ x.ctx = 0 ∧ ∃ q, x.splits = [q]
theorem like_split {d : Dev} (f : Split → Split) (h : Like d) : Like (modSplit d 0 0 f) := by
  obtain ⟨h1, h2, h3, x, h4, h5, q, h6⟩ := h
  exact ⟨h1, h2, h3, by simp [modSplit, waveOf, splitOf, nth, setWave, nthSet, setSplitOf, h4, h5, h6]⟩
theorem like_record {d : Dev} (r : List W64) (p : Park) (h : Like d) :
    (mySplit (finish noRing.mem (waveRecord noRing.mem d 0 0 [r] p)).dev).park = p := by
  obtain ⟨h1, h2, h3, x, h4, h5, q, h6⟩ := h
  have hx : (waveOf d 0).ctx = 0 := by simp [waveOf, nth, h4, h5]
  simp only [waveRecord, hx, ring_lost [r] h1 h2]
  simp [finish, mySplit, me, h3, ringLost, modSplit, waveOf, splitOf, nth, setWave, nthSet, setSplitOf, h4, h6]
theorem like_base : Like base.dev := ⟨rfl, rfl, rfl, _, rfl, rfl, _, rfl⟩
/-- The device as a trap finds it: what a precise trap clears is cleared. -/
def cleared : Dev := modSplit (modSplit base.dev 0 0 (fun s => { s with peerLost := false })) 0 0 (fun s => { s with early := [] })
theorem trap_park (t : Trap) : (mySplit (finish noRing.mem (takeTrap noRing.mem noRing.dev 0 0 t false)).dev).park ≠ .running := by
  have hd : Like cleared := like_split _ (like_split _ like_base)
  have hb : (Machine.setOf cleared (waveOf cleared 0).set).trapbase = 0 := by decide +kernel
  have hn : noRing.dev = base.dev := rfl
  unfold takeTrap joinEpisode
  rw [hn]
  simp only [Bool.false_eq_true, if_false]
  rw [show modSplit (modSplit base.dev 0 0 (fun s => { s with peerLost := false })) 0 0 (fun s => { s with early := [] }) = cleared from rfl]
  generalize cleared = d at hd hb ⊢
  simp only [hb, Bool.not_false, Bool.and_true, ne_eq, not_true_eq_false, decide_false, Bool.and_false, Bool.false_and]
  obtain ⟨h1, h2, h3, h4⟩ := id hd
  split
  · split
    · obtain ⟨x, h4, h5, q, h6⟩ := h4
      simp [finish, mySplit, me, h3, modSplit, waveOf, splitOf, nth, setWave, nthSet, setSplitOf, h4, h6]
    · rw [if_pos rfl, like_record _ _ (by exact ⟨h1, h2, h3, h4⟩)]
      decide
  · rw [if_neg (by simp), like_record _ _ (like_split _ hd)]
    decide
/-- An `add` and an `aadd` inside a block, which trap nothing. -/
theorem witness_registerFrame : (Instr.add h0 x2, [0]) ∈ Claims.laneWords h0 x2 ⟨0, 0, 0, 0⟩ ∧
    (Instr.aadd h0 (ax 3), [0x80]) ∈ Claims.accessWords h0 (ax 3) ⟨0, 0, 0⟩ ∧ atLast (mySplit noRing.dev) = false ∧ noRing.dev.wlog = [] ∧
    (∃ t, exec (.add h0 x2) noRing = .next t) ∧ ∀ t, t.cause ≠ 0 → ¬ Traps (.add h0 x2) noRing t := by
  refine ⟨by decide +kernel, by decide +kernel, by decide +kernel, by decide +kernel, ⟨_, rfl⟩, fun t hc h => trap_park t ?_⟩
  have h1 : (match exec (.add h0 x2) noRing with | .next u => (mySplit u.dev).park | _ => .bar) = .running := by decide +kernel
  rw [h, if_neg hc] at h1
  exact h1

/-! ### Rings that are full, locks held at the end, peeks. -/

/-- The trap ring of context 0, at 0, with 16 slots that are all taken. -/
def ringFull (s : State) : State := { s with mem := putWord (putWord s.mem 0 16) 8 4 }
def endsWith (d : Dev) (m : Memory) : Park := (mySplit (breakHeld m (drainGrants d d.cur.1 .dev))).park
theorem witness_unlocked : (me heldLock.dev).held ≠ [] ∧ (me heldLock.dev).posted = [] ∧ endsWith heldLock.dev heldLock.mem = .running ∧
    endsWith heldLock.dev (ringFull heldLock).mem ≠ .running ∧ (me (acked 0).dev).posted ≠ [] ∧ lastLanes heldLock.dev 0 0 = true := by decide +kernel
/-- R145, R146: `exit` breaks the lock that its wave holds; on a full ring it waits, the lock still held. -/
theorem test_exitBreaks : (me (after (.exit h0 bare) heldLock).dev).live = false ∧ (me (after (.exit h0 bare) (ringFull heldLock)).dev).live = true := by
  decide +kernel
theorem witness_waveRecord : 0 < (wave0 (ringed 5)).splits.length ∧
    (match ringWrite (ringFull base).mem base.dev 0 [[1, 2, 3, 4, 5, 6, 7, 8]] true with | (_, .full 0 _) => true | _ => false) = true := by decide +kernel
/-- A wave of two splits that both wait on the ring. -/
def ringedTwice : State := on (fun x => { x with splits := x.splits.flatMap (fun q =>
  [{ q with park := .ring 0 5, ringRec := [[1, 2, 3, 4, 5, 6, 7, 8]], mask := 1 }, { q with park := .ring 0 5, ringRec := [], mask := 2 }]) })
theorem test_ringRetryTwice : setResident ringedTwice.dev (wave0 ringedTwice).set = true ∧
    ((wave0 (after (.ringRetry 0) ringedTwice)).splits.map (·.park)) = [.running, .running] := by decide +kernel
theorem witness_lost : (match runAct reportLost (ringFull base).mem (on (fun x => { x with lost := [(1, 2)] })).dev with
      | .ok (_, e) => decide ((mySplit e).park ≠ .running)
      | .error _ => false) = true ∧
    (match runAct reportLost base.mem base.dev with | .ok (_, e) => decide ((mySplit e).park = .running) | .error _ => false) = true := by decide +kernel
def peeked5 : State := sp (fun q => { q with peeked := some [(0, 5)] })
theorem witness_peeks : (mySplit peeked5.dev).qd = [] ∧ (mySplit peeked5.dev).peeked = some [(0, 5)] ∧ (mySplit base.dev).peeked = none ∧
    peeks ((encode (.add h0 { x2 with a := 0xC1 })).getD 0) = true ∧ peeks 0 = false := by decide +kernel
/-- R173: a peek of an empty queue waits, with nothing changed; what has been pushed ahead is seen. -/
theorem test_peek : after (.add h0 { x2 with a := 0xC1 }) base = finish base.mem base.dev ∧
    reg (after (.add h0 { x2 with a := 0xC1, b := 0xE1 }) peeked5) 0 0 = 6 := by decide +kernel
/-- An asynchronous trap of lane 1 goes to the split that holds it (R197). -/
theorem test_trapSplit : trapSplit (waveOf halves.dev 0) 2 = some 0 ∧ trapSplit (wave0 meet) 2 = some 1 ∧ trapSplit (wave0 meet) 3 = some 0 ∧
    dueTrap { wave0 meet with atraps := [⟨2, trapBrk⟩] } 1 = some ⟨2, trapBrk⟩ := by decide +kernel

/-! ### Order of issue, footprints, tasks. -/

theorem witness_roundRobin : pairLt (0, 0) (1, 0) = true ∧ pairLt (0, 0) (0, 0) = false ∧
    (waveOf (pair id) 0).stage = (waveOf (pair id) 1).stage ∧ (splitOf (waveOf (pair id) 0) 0).promoted = none ∧ (lastIn (pair id) 0 true).2 = (0, 0) := by
  decide +kernel
theorem witness_promotions : (List.range 16).all (fun p => portState base.dev p ≠ 1 && portState base.dev p ≠ 3) = true ∧
    (0, 0) ∈ allSplits ready.dev ∧ readyNow ready.mem ready.dev 0 0 = true ∧ (splitOf (waveOf ready.dev 0) 0).readySince + 64 ≤ ready.dev.cycle + 0 := by
  decide +kernel
theorem witness_footprint : (Instr.bfx h0 ⟨0, 0x7F, 1, 0⟩, [0]) ∈ Claims.laneWords h0 x2 ⟨0, 0x7F, 1, 0⟩ ∧
    inFootprint { me base.dev with vblk := 6 } [0, 0x70] = false ∧ inFootprint { me base.dev with vblk := 6 } [0, 0x6F] = true := by decide +kernel
def bigCode : State := on (fun x => { x with s := [(0, 2 ^ 57), (1, 0), (2, 0x20000)] })
def oddCode : State := on (fun x => { x with s := [(0, 0x10008), (1, 0), (2, 0x20008)] })
def badTask : State := on (fun x => { x with s := [(0, 0x10000), (1, 0xFFFF), (2, 0x20000)] })
/-- R333, R334: a task word that names no queue, CODE past the address space and off its block, a frame off its line and one too short. -/
theorem test_taskTraps : traps (.spawn h0 spawnW) badTask { cause := 0x01, info0 := encodeD (.spawn h0 spawnW) } = true ∧
    traps (.spawn h0 spawnW) bigCode { cause := 0x06, addr := 0x200000000000000 } = true ∧ traps (.spawn h0 spawnW) oddCode { cause := 0x02, addr := 0x10008 } = true ∧
    traps (.frame h0 frameW) oddCode { cause := 0x02, addr := 0x20008 } = true ∧
    traps (.frame h0 { frameW with md := 7 }) tsk { cause := 0x01, info0 := encodeD (.frame h0 { frameW with md := 7 }) } = true := by decide +kernel
/-- R96: a range that ends past the address space. -/
theorem test_bindPast : traps (.bind h0 bindW) (acc_ 0x20000 (2 ^ 57 - 1)) { cause := 0x06, addr := 2 ^ 57 - 1, info2 := 1 } = true := by decide +kernel

/-! ### Homes and pages. -/

/-- A line of the other die: with no copy; and with one in the die's L2. -/
theorem witness_farReads : remoteLine base.dev 0 0x1000 = true ∧ findCopy base.dev (.l1 0) (0x1000 / 64) 0 = none ∧
    findCopy base.dev (.l2 0) (0x1000 / 64) 0 = none ∧ (findCopy (homeRead base.mem base.dev 0 0x1000 0x1000 8 true).1 (.l2 0) (0x1000 / 64) 0).isSome = true := by
  decide +kernel
/-- A line that another cluster holds returns with one write stamp, and is read. -/
def elsewhere : Dev := setLine base.dev 0x800 { grant := some { cluster := 1, writers := [] }, rts := 9 }
theorem test_grantedElsewhere : clusterIdx elsewhere 0 = 0 ∧ (lineOf (homeRead base.mem elsewhere 0 0x20000 0x20000 8 true).1 0x800).grant = none ∧
    (lineOf (recallLine elsewhere 0x800) 0x800).wts = 10 := by decide +kernel
/-- A page that stands for 0x20000, in its frame or away. -/
def standing (st : PageState) : Dev := setSet base.dev 0 { setOf base.dev 0 with
  pages := [{ store := .s, idx := 0, gen := 1, st := st, mapped := some { va := 0x20000, key := 0x20000, rw := true } }] }
theorem witness_mappedStores : [PageState.pinned, .nonResident].all (fun st =>
    (match perform (writePlace (.mapped 0 0 0 0x20000) .n32 [5, 0, 0, 0]) base.mem (standing st) with | .ok (some _, _) => true | _ => false)) = true ∧
    (pageOf (standing .pinned) 0 0).st = .pinned ∧ (pageOf (standing .nonResident) 0 0).st = .nonResident := by decide +kernel
def want0 : Want := { l := 0, set := 0, pg := 0, off := 16, n := 4 }
theorem witness_emptied : wantReady (setFull paged.dev 0 0 1 0) want0 = true ∧ 0 < (setOf paged.dev 0).pages.length ∧
    (match perform (fillGranules false 0 .s 0 32 0) base.mem paged.dev with | .ok (some (), _) => true | _ => false) = true ∧
    (findPage (setOf paged.dev 0) .s 0).getD 0 = 0 := by decide +kernel
theorem witness_fillTraps : (match fillRange base.dev .m 0x1000000 with | .error t => t.cause ≠ 0 | .ok _ => false) = true ∧ ¬ (0x18 % 16 = 0 ∧ 16 % 16 = 0) := by
  decide +kernel
theorem witness_waitsForPages : (me (setMe pageOut.dev { me pageOut.dev with fo := true })).fo = true ∧ (me pageOut.dev).fo = false ∧
    (pageOf pageOut.dev 0 0).st = .nonResident := by decide +kernel

/-! ### Rows and elements. -/

theorem witness_rows : (∀ st n pi, findPage (Machine.setOf mat.dev 0) st n = some pi → (pageOf mat.dev 0 pi).st = .pinned ∨ (pageOf mat.dev 0 pi).st = .unpinned) := by
  intro st n pi h
  have h1 : pi < (Machine.setOf mat.dev 0).pages.length := by
    obtain ⟨hl, _⟩ := List.findIdx?_eq_some_iff_findIdx_eq.1 h
    exact hl
  have h2 : ((Machine.setOf mat.dev 0).pages.all (fun p => p.st == .pinned)) = true := by decide +kernel
  left
  have := List.all_eq_true.1 h2 _ (List.getElem_mem h1)
  simpa [pageOf, nth, List.getElem?_eq_getElem h1] using this
/-- An operation on `mat` as its word issues it. -/
def noOp : MatOp :=
  { wave := 0, lane := 0, kind := .mdrain, f := bare7, c := 0, a := 0, w := 0, xva := 0, xvw := 0, mgeo := 0, mdesc := 0, mringa := 0,
    mringw := 0, msparse := 0, epochA := 0, epochW := 0, lineA := none, lineW := none, rnd := .rne, cnt := none }
def opOf (i : Instr) : MatOp := ((queue i).head?).getD noOp
def rowsOn (i : Instr) (k : RowOut → Bool) : Bool :=
  let o := opOf i
  match rowOut 0 o (bankDesc o) mat.mem mat.dev with
  | .ok (some q, _) => k q
  | _ => false
theorem witness_rowKinds : isProduct (opOf (.mma h0 mmaW)) = true ∧ (opOf (.mzero h0 mzeroW)).kind = .mzero ∧ (opOf (.mpre h0 mpreW)).kind = .mpre ∧
    isFloatTy (mTy (opOf (.mpre h0 mpreW))) = true ∧ mC (opOf (.mpre h0 mpreW)) = 4 ∧ (opOf (.mpost h0 mpostW)).kind = .mpost ∧
    (opOf (.mpost h0 mpostW)).carry = [] ∧ mCa (opOf (.mma h0 mmaW)) = false ∧
    (match readARow 0 (opOf (.mma h0 mmaW)) 0 mat.mem mat.dev with | .ok (a, _) => a.ready | .error _ => false) = true ∧
    mK (opOf (.mma h0 mmaW)) % 32 = 0 := by decide +kernel
/-- R300, R305 to R307: with A and the bank zero, C stays; a preload of zeros; packed zeros of a conversion. -/
theorem test_rows : rowsOn (.mma h0 mmaW) (fun q => q.cells.map (·.1.toNat) == 1 :: List.replicate 255 0) = true ∧
    rowsOn (.mpre h0 mpreW) (fun q => q.cells.length == 256 && q.cells.all (·.1 == 0)) = true ∧
    rowsOn (.mpost h0 mpostW) (fun q => q.cells.map (·.1.toNat) == 1 :: List.replicate 255 0) = true := by decide +kernel
theorem witness_rowsLand : matHeld (setMe mat.dev { me mat.dev with fo := true }) (opOf (.mzero h0 mzeroW)) = true ∧
    (findPage (Machine.setOf mat.dev 0) .c 0).isSome = true ∧ (findPage (Machine.setOf mat.dev 0) .c 1).isSome = true := by decide +kernel
/-- R89, R91: one product in each of two chunks; the sum of products. -/
def ones (t : Nat) (n : Nat) : Vec := { elems := List.replicate n (ofInt 1), fmts := List.replicate (n / 32) t, stray := false }
theorem test_loops : fpLoop 32 (ones 2 32) (ones 2 32) (List.range 32) 32 0 0 (0, 0) = (0x42000000, 0) ∧
    intLoop (ones 6 64) (ones 6 64) (List.range 64) 5 = 69 ∧ chunkOf 2 2 = 2 ∧ chunkOf 6 6 = 32 ∧ chunkOf 4 5 = 4 ∧ chunkOf 4 9 = 1 := by decide +kernel
/-- R309: with runs that end at 1 and 63, a column whose value is negative takes its run's other columns with it. -/
theorem test_cover : coverMask ((List.range 64).map (fun n => n ≠ 0)) (fun n => n == 1) = 2 ^ 64 - 4 := by decide +kernel
/-- A record of rank 1 with 4 elements of n32 at stride 4, at 0x10000, with a policy. -/
def polRec (p : Nat) : BitVec 512 := BitVec.ofNat 512 (0x10000 + 2 ^ 68 + p * 2 ^ 74 + 4 * 2 ^ 128 + 4 * 2 ^ 256)
def polCopy (p : Nat) : Copy := { copyOf copying with la := ⟨polRec p, 0⟩ }
def fed (p : Nat) (q : Int) : Option (List Byte × Option Place) :=
  match readElem (polCopy p) [q] copying.mem copying.dev with | .ok (r, _) => some r | .error _ => none
theorem witness_policies : (copyOf copying).zeros = 0 ∧ (copyOf copying).kind = .cpy ∧ lRank (polRec 1) = 1 ∧ lExt (polRec 1) 0 = 4 ∧
    outRange (polRec 0) [4] = true ∧ outRange (polRec 0) [3] = false ∧ outRange (polRec 0) [-1] = true ∧ [0, 1, 2].map (fun p => lPol (polRec p)) = [0, 1, 2] ∧
    crd (clampTo (polRec 1) [9]) 0 = 3 := by decide +kernel
/-- R317: zeros with no read; the nearest element; a fault with SUB 6. -/
theorem test_policies : fed 0 4 = some ([0, 0, 0, 0], none) ∧ fed 1 (-1) = fed 1 0 ∧ (fed 1 0).isSome = true ∧ fed 2 4 = none ∧
    (match readElem (polCopy 2) [4] copying.mem copying.dev with | .error (.fault none f) => f.trap.sub == 6 | _ => false) = true := by decide +kernel
/-- R316: the granule of each 128-byte row takes the row's number: 0x1A0 becomes 0x190. -/
def swzRec : BitVec 512 := BitVec.ofNat 512 (2 ^ 68 + 3 * 2 ^ 76 + 4 * 2 ^ 79 + 3 * 2 ^ 83 + 128 * 2 ^ 128 + 4 * 2 ^ 256)
theorem test_swizzle : elemAddr swzRec 0 [0x68] = 0x190 ∧ elemAddr swzRec 0 [8] = 0x20 := by decide +kernel
/-- R321, R322: the third of four elements; a `cpyx` with and without its index, and its landing address. -/
def gather (idx : List (Nat × List Int)) : Copy := { copyOf copying with kind := .cpyx, la := ⟨idxRec, 0⟩, lb := ⟨flatRec, 0⟩, pos := 1, idx := idx }
theorem witness_orders : elemCoords (copyOf copying) 2 = ([2], [2]) ∧ copyTotal (copyOf copying) = 4 ∧ (gather [(0, [0])]).kind = .cpyx ∧
    idxOf (gather [(0, [0])]) ((gather []).pos / max 1 (subTensor (gather []))) = some [0] ∧ idxOf (gather []) 0 = none ∧
    (match readIndex (gather []) (unflat ((lExts idxRec).drop 1) 0) copying.mem copying.dev with | .ok (r, _) => r.length == 1 | .error _ => false) = true ∧
    winExts winRec = some (2, 1, 1, 1) ∧ lRank flatRec = 2 := by decide +kernel

end Sys2Proof.Tests
end

section
/-!
SUPPORT. Bytes of a step's stores: what reads back after them (spec/00_scope.md R8).
-/
namespace Sys2Proof

/-- The bits of a word's low bytes, read back, are the word's (R8). -/
theorem getLsbD_leWord_leBytes (n : Nat) (w : W64) (i : Nat) :
    (leWord (leBytes n w)).getLsbD i = (decide (i < 8 * n) && w.getLsbD i) := by
  induction n generalizing w i with
  | zero => simp [leBytes, leWord]
  | succ n ih =>
    rw [leBytes, leWord, BitVec.getLsbD_or, BitVec.getLsbD_shiftLeft, ih, BitVec.getLsbD_ushiftRight]
    by_cases h8 : i < 8
    · simp [h8, show i < 64 by omega, show i < 8 * (n + 1) by omega]
    · by_cases h64 : i < 64
      · simp [h8, h64, show 8 + (i - 8) = i by omega, show i - 8 < 8 * n ↔ i < 8 * (n + 1) by omega]
      · simp [h64, BitVec.getLsbD_of_ge w i (by omega)]

/-- The eight bytes of a word spell the word (R8). -/
theorem leWord_leBytes (w : W64) : leWord (leBytes 8 w) = w := by
  apply BitVec.eq_of_getLsbD_eq
  intro i hi
  rw [getLsbD_leWord_leBytes, decide_eq_true (by omega), Bool.true_and]

theorem leBytes_length (n : Nat) (w : W64) : (leBytes n w).length = n := by
  induction n generalizing w with
  | zero => rfl
  | succ n ih => rw [leBytes, List.length_cons, ih]

namespace Machine

/-- Stores of bytes are the store of the first, then those of the rest. -/
theorem wrBytes_cons (d : Dev) (k : Nat) (b : Byte) (r : List Byte) :
    wrBytes d k (b :: r) = wrBytes (wrBytes d k [b]) (k + 1) r := rfl

/-- Stored bytes read back (R8). -/
theorem rdByte_wrBytes_stored (m : Memory) (d : Dev) (k a : Nat) (bs : List Byte) (h : k ≤ a ∧ a < k + bs.length) :
    rdByte m (wrBytes d k bs) a = bs[a - k]'(by omega) := by
  induction bs generalizing d k with
  | nil => rw [List.length_nil] at h; omega
  | cons b r ih =>
    rw [List.length_cons] at h
    rw [wrBytes_cons]
    by_cases hk : a = k
    · subst hk
      rw [rdByte_wrBytes _ _ _ _ _ (by omega)]
      simp [rdByte, wrBytes]
    · rw [ih _ (k + 1) (by omega)]
      simp [List.getElem_cons, show a - k ≠ 0 by omega, show a - (k + 1) = a - k - 1 by omega]

theorem rdBytes_wrBytes (m : Memory) (d : Dev) (k : Nat) (bs : List Byte) :
    rdBytes m (wrBytes d k bs) k bs.length = bs := by
  apply List.ext_getElem
  · simp [rdBytes]
  · intro i _ hi
    simp only [rdBytes, List.getElem_map, List.getElem_range]
    rw [rdByte_wrBytes_stored _ _ _ _ _ (by omega)]
    simp

/-- A stored word reads back (R8). -/
theorem rd64_wr64 (m : Memory) (d : Dev) (k : Nat) (w : W64) : rd64 m (wr64 d k w) k = w := by
  have h := rdBytes_wrBytes m d k (leBytes 8 w)
  rw [leBytes_length] at h
  rw [rd64, wr64, h, leWord_leBytes]

/-- Settles O8: stores are read back byte by byte; the commit keeps what a read of the step's stores sees. -/
theorem memoryReadsBack : Obligations.MemoryReadsBack := by
  unfold Obligations.MemoryReadsBack
  intro m d k bs a
  refine ⟨?_, look_commit m d a, memWf_commit d.wlog, rd64_wr64 m d k⟩
  split
  · next h => exact rdByte_wrBytes_stored m d k a bs h
  · next h => exact rdByte_wrBytes m d k a bs h

end Machine
end Sys2Proof
end

section
/-!
SUPPORT. Every instruction: its word decodes to it, and its bytes do (spec/13_encoding.md R209, R211, R213, R230).
-/
namespace Sys2Proof.Laws.RoundTrip

/-- The word of every well-formed instruction decodes to it, one arm per row of the opcode map and a line or more per major;
device steps have no word. -/
theorem statement_of_instr : ∀ i : Instr, Statement i
  | .nop h bits => nop h bits | .hint h f => hint h f | .hintSpace h fn bits => hintSpace h fn bits
  | .unassignedEncoding w => unassignedEncoding w
  | .add h f => add h f | .sub h f => sub h f | .mul h f => mul h f | .mulhi h f => mulhi h f | .mad h f => mad h f
  | .madhi h f => madhi h f | .min h f => min h f | .max h f => max h f | .abs h f => abs h f | .neg h f => neg h f
  | .clamp h f => clamp h f | .sad4 h f => sad4 h f
  | .and h f => and h f | .or h f => or h f | .xor h f => xor h f | .andn h f => andn h f | .not h f => not h f
  | .shl h f => shl h f | .shr h f => shr h f | .sar h f => sar h f | .rotl h f => rotl h f | .bfx h f => bfx h f
  | .bfi h f => bfi h f | .popc h f => popc h f | .clz h f => clz h f | .ctz h f => ctz h f | .brev h f => brev h f
  | .lsel h f => lsel h f
  | .cmp h f => cmp h f | .sel h f => sel h f | .setp h f => setp h f | .getp h f => getp h f | .pand h f => pand h f
  | .por h f => por h f | .pxor h f => pxor h f | .pnot h f => pnot h f
  | .fadd h f => fadd h f | .fsub h f => fsub h f | .fmul h f => fmul h f | .ffma h f => ffma h f
  | .fdiv h f => fdiv h f | .fsqrt h f => fsqrt h f | .frcp h f => frcp h f | .frsq h f => frsq h f
  | .fmin h f => fmin h f | .fmax h f => fmax h f | .fclamp h f => fclamp h f | .fexp2 h f => fexp2 h f
  | .flog2 h f => flog2 h f | .fsinpi h f => fsinpi h f | .fcospi h f => fcospi h f | .ffloor h f => ffloor h f
  | .fceil h f => fceil h f | .ftrunc h f => ftrunc h f | .fround h f => fround h f
  | .fcmp h f => fcmp h f | .fclass h f => fclass h f
  | .cvt h f => cvt h f | .pack2 h f => pack2 h f | .unpack2 h f => unpack2 h f | .quant h f => quant h f
  | .dequant h f => dequant h f | .srnd h f => srnd h f
  | .shfl h f => shfl h f | .vote h f => vote h f | .ballot h f => ballot h f | .wscan h f => wscan h f
  | .wred h f => wred h f | .bcast h f => bcast h f | .lanemask h f => lanemask h f
  | .aadd h f => aadd h f | .asub h f => asub h f | .amul h f => amul h f | .amad h f => amad h f
  | .ashl h f => ashl h f | .ashr h f => ashr h f | .asar h f => asar h f | .aand h f => aand h f
  | .aor h f => aor h f | .axor h f => axor h f | .amin h f => amin h f | .amax h f => amax h f
  | .acmp h f => acmp h f | .asel h f => asel h f | .amov h f => amov h f | .amovk h f => amovk h f
  | .br h f => br h f | .brc h f => brc h f | .brx h f => brx h f | .call h f => call h f | .ret h f => ret h f
  | .exit h f => exit h f | .yield h f => yield h f | .wait h f => wait h f
  | .ld h f => ld h f | .st h f => st h f | .ldfe h f => ldfe h f | .stfe h f => stfe h f | .ldw h f => ldw h f
  | .stw h f => stw h f | .prefetch h f => prefetch h f | .fill h f => fill h f
  | .atom h f => atom h f | .atomcas h f => atomcas h f | .red h f => red h f
  | .lr h f => lr h f | .sc h f => sc h f | .lock h f => lock h f | .trylock h f => trylock h f
  | .unlock h f => unlock h f | .lockq h f => lockq h f | .acq h f => acq h f | .rel h f => rel h f
  | .bind h f => bind h f | .unbind h f => unbind h f | .fence h f => fence h f | .mon h f => mon h f
  | .mwait h f => mwait h f | .bar h f => bar h f | .cbar h f => cbar h f
  | .phinit h f => phinit h f | .phreg h f => phreg h f | .phdrop h f => phdrop h f | .phsig h f => phsig h f
  | .phwait h f => phwait h f | .phsw h f => phsw h f | .phquery h f => phquery h f | .cadd h f => cadd h f
  | .cwait h f => cwait h f | .cread h f => cread h f
  | .mcfg h f => mcfg h f | .mwld h f => mwld h f | .mswap h f => mswap h f | .mma h f => mma h f
  | .mmas h f => mmas h f | .mzero h f => mzero h f | .mpre h f => mpre h f | .mpost h f => mpost h f
  | .mdrain h f => mdrain h f | .mfence h f => mfence h f | .mstat h f => mstat h f
  | .cpld h f => cpld h f | .cpy h f => cpy h f | .cpyx h f => cpyx h f | .cpyw h f => cpyw h f
  | .halo h f => halo h f | .pub h f => pub h f | .subCopy h f => subCopy h f | .cpfix h f => cpfix h f
  | .cpq h f => cpq h f
  | .spawn h f => spawn h f | .join h f => join h f | .done h f => done h f | .frame h f => frame h f
  | .dclk h f => dclk h f | .dsync h f => dsync h f | .stage h f => stage h f
  | .trap h f => trap h f | .brk h f => brk h f | .tret h f => tret h f | .rdsr h f => rdsr h f
  | .wrsr h f => wrsr h f | .carve h f => carve h f | .halt h f => halt h f | .rdtr h f => rdtr h f
  | .splitArrive | .clockEpochStep _ | .issuePromotion _ _ | .waitExpiry _ _ | .minTreeRefresh _ | .pageWalk _ _ _ _ |
    .pageReclaim _ _ | .fillComplete _ _ | .multicastArrival _ | .copyFault _ | .copyComplete _ | .weightLoadStroke _ |
    .swapStroke _ | .rowStroke _ | .matrixOpComplete _ | .phaserEngineSignal _ | .asyncTrapDelivery _ _ | .ringRetry _ |
    .waiterAway _ | .waiterBack _ | .lockReissue _ _ | .lockWaitTimeout _ _ | .lockHoldTimeout _ _ | .mwaitTimeout _ _ |
    .cwaitTimeout _ _ | .monitorPoll _ | .launchTrigger _ | .dispatchSelect _ _ | .forwardProgressSwap _ |
    .preemptAtReached _ | .contextSwitchOut _ | .spillComplete _ | .contextSwitchIn _ _ | .launchEnd _ |
    .registerWrite _ _ _ | .xinvPage _ _ | .xinvContext _ | .xinvAllContexts | .xinvReserved | .xinvComplete |
    .releaseEpisode _ | .releaseAllEpisodes _ | .resumeAtTpc _ | .resumePastTpc _ | .abortLaunch _ | .trcmdInvalid |
    .pdownClear _ | .loadfw _ _ | .attest _ _ | .dieoff _ _ | .dieon _ _ | .relread _ _ | .logread _ _ | .route _ _ |
    .reset _ _ | .mailboxCompletion | .hostRead _ _ | .hostWrite _ _ | .cxlSnoop _ _ | .peerWriteArrival _ _ _ |
    .peerRequestArrival _ _ _ | .flitCrcFail _ | .linkRetrainStart _ | .linkRetrainComplete _ _ | .portDown _ |
    .deviceReset | .selftest _ | .links _ _ | .errorDetected _ _ | .powerAlarm _ _ | .powerAlarmClear _ _ |
    .copyEngineWrite _ | .peerAcknowledgement _ _ _ | .yieldExpiry _ _ | .fwcheck | .meminit |
    .thermalTrip => noWord rfl

end Sys2Proof.Laws.RoundTrip

namespace Sys2Proof

/-- The eight bytes of a word are decoded as the word, and those behind them are left (R8, R209). -/
theorem decodeBytes_leBytes_append (w : W64) (r : List Byte) : decodeBytes (leBytes 8 w ++ r) = some (decode w, r) := by
  show some (decode (leWord (leBytes 8 w)), r) = _
  rw [leWord_leBytes]

/-- Settles O1: by the round trip of each instruction's word, and of a word's bytes. -/
theorem encodeThenDecode : Obligations.EncodeThenDecode := by
  unfold Obligations.EncodeThenDecode
  intro i w r hwf henc
  rw [decodeBytes_leBytes_append, Laws.RoundTrip.statement_of_instr i hwf w henc]

end Sys2Proof
end

section
/-!
SUPPORT. What an instruction and a step can do (spec/95_what_each_step_holds.md): every meaning ends with the stores of
its device performed on memory, and every step but one that names a split that does not exist answers a next state.
-/
namespace Sys2Proof.Machine

/-! ### Meanings. -/

/-- An outcome is a next state in which a device's stores have been performed on the memory of the state. -/
def Finishes (s : State) (o : Out) : Prop := ∃ d, o = .next (finish s.mem d)

theorem runSplit_finishes (x : Act Unit) (s : State) : Finishes s (.next (runSplit x s)) := by
  unfold runSplit
  split
  · exact ⟨_, rfl⟩
  · exact ⟨_, rfl⟩

theorem runX_finishes (i : Instr) (h : Head) (codes : List (BitVec 8)) (body : Act Verdict) (s : State) :
    Finishes s (runX i h codes body s) := runSplit_finishes ..

theorem runA_finishes (i : Instr) (h : Head) (body : Act Verdict) (s : State) : Finishes s (runA i h body s) :=
  runSplit_finishes ..

theorem runJ_finishes (i : Instr) (h : Head) (body : Act Verdict) (s : State) : Finishes s (runJ i h body s) :=
  runSplit_finishes ..

/-- Every instruction word runs in the frame of its streams and every device step as an event, and each ends so. -/
theorem exec_finishes (i : Instr) (s : State) : Finishes s (exec i s) := by
  cases i
  case add | sub | mul | mulhi | mad | madhi | min | max | abs | neg | clamp | sad4 | and | or | xor | andn | not |
    shl | shr | sar | rotl | bfx | bfi | popc | clz | ctz | brev | lsel | cmp | sel | setp | getp | pand | por | pxor |
    pnot | fadd | fsub | fmul | ffma | fdiv | fsqrt | frcp | frsq | fmin | fmax | fclamp | fexp2 | flog2 | fsinpi |
    fcospi | ffloor | fceil | ftrunc | fround | fcmp | fclass | cvt | pack2 | unpack2 | quant | dequant | srnd | shfl |
    vote | ballot | wscan | wred | bcast | lanemask => exact runX_finishes ..
  case aadd | asub | amul | amad | ashl | ashr | asar | aand | aor | axor | amin | amax | acmp | asel | amov | amovk |
    br | brx | call | ret | wait | ld | st | ldfe | stfe | ldw | stw | prefetch | fill | atom | atomcas | red | lr |
    sc | lock | trylock | unlock | lockq | acq | rel | bind | unbind | fence | mon | mwait | phinit | phreg | phdrop |
    phsig | phwait | phsw | phquery | cadd | cwait | cread | mcfg | mwld | mswap | mma | mmas | mzero | mpre | mpost |
    mdrain | mfence | mstat | cpld | cpy | cpyx | cpyw | halo | pub | subCopy | cpfix | cpq | spawn | frame | dclk |
    stage => exact runA_finishes ..
  case nop | hint | hintSpace | unassignedEncoding | exit | yield | bar | cbar | join | done | dsync | trap | brk |
    tret | rdsr | wrsr | carve | halt | rdtr => exact runJ_finishes ..
  case clockEpochStep | issuePromotion | waitExpiry | minTreeRefresh | pageWalk | pageReclaim | fillComplete |
    multicastArrival | copyFault | copyComplete | weightLoadStroke | swapStroke | rowStroke | matrixOpComplete |
    phaserEngineSignal | asyncTrapDelivery | ringRetry | waiterAway | waiterBack | lockReissue | lockWaitTimeout |
    lockHoldTimeout | mwaitTimeout | cwaitTimeout | monitorPoll | launchTrigger | dispatchSelect | forwardProgressSwap |
    preemptAtReached | contextSwitchOut | spillComplete | contextSwitchIn | launchEnd | registerWrite | xinvPage |
    xinvContext | xinvAllContexts | xinvReserved | xinvComplete | releaseEpisode | releaseAllEpisodes | resumeAtTpc |
    resumePastTpc | abortLaunch | trcmdInvalid | pdownClear | loadfw | attest | dieoff | dieon | relread | logread |
    route | reset | mailboxCompletion | hostRead | hostWrite | cxlSnoop | peerWriteArrival | peerRequestArrival |
    flitCrcFail | linkRetrainStart | linkRetrainComplete | portDown | deviceReset | selftest | links | errorDetected |
    powerAlarm | powerAlarmClear | copyEngineWrite | peerAcknowledgement | yieldExpiry | fwcheck | meminit |
    thermalTrip => exact ⟨_, rfl⟩
  case brc | splitArrive => exact runSplit_finishes ..

/-! ### The moves that name a split. -/

/-- A split that may move exists. -/
theorem exists_of_canMove {d : Dev} {w sp : Nat} (h : canMove d w sp = true) :
    w < d.waves.length ∧ sp < (waveOf d w).splits.length := by
  simp only [canMove, Bool.and_eq_true, decide_eq_true_eq] at h
  obtain ⟨⟨⟨⟨hlive, hmask⟩, -⟩, -⟩, -⟩ := h
  constructor
  · by_contra hw
    simp [waveOf, nth, List.getElem?_eq_none (Nat.le_of_not_lt hw), noWave] at hlive
  · by_contra hsp
    simp [splitOf, nth, List.getElem?_eq_none (Nat.le_of_not_lt hsp), noSplit] at hmask

@[simp] theorem mem_when {c : Bool} {u v : Move} : v ∈ when_ c u ↔ c = true ∧ v = u := by
  cases c <;> simp [when_]

/-- Among a split's moves, an issue is its own, and the split may move. -/
theorem canMove_of_issue_mem_splitMoves {m : Memory} {d : Dev} {p : Nat × Nat} {w sp : Nat}
    (h : .issue w sp ∈ splitMoves m d p) : canMove d w sp = true := by
  simp only [splitMoves] at h
  split at h
  · simp at h
  · simp only [List.mem_append, mem_when, List.mem_map, reduceCtorEq, and_false, exists_false, or_false, Bool.and_eq_true,
      Move.issue.injEq] at h
    rcases h with ⟨⟨hmove, -⟩, rfl, rfl⟩ | hwait
    · exact hmove
    · split at hwait <;> simp at hwait

theorem issue_not_mem_waveMoves (d : Dev) (w sp k : Nat) : .issue w sp ∉ waveMoves d k := by
  simp only [waveMoves]
  split <;> simp

theorem issue_not_mem_engineMoves (d : Dev) (w sp : Nat) : .issue w sp ∉ engineMoves d := by
  simp [engineMoves]

theorem issue_not_mem_fillMoves (d : Dev) (w sp : Nat) : .issue w sp ∉ fillMoves d := by
  simp [fillMoves]

theorem issue_not_mem_launchMoves (d : Dev) (w sp : Nat) : .issue w sp ∉ launchMoves d := by
  unfold launchMoves
  split <;> simp

theorem issue_not_mem_peerMoves (d : Dev) (w sp : Nat) : .issue w sp ∉ peerMoves d := by
  simp [peerMoves]

theorem issue_not_mem_serviceMoves (d : Dev) (w sp : Nat) : .issue w sp ∉ serviceMoves d := by
  simp only [serviceMoves, List.mem_append, List.mem_flatMap, mem_when, reduceCtorEq, and_false, or_false, not_or]
  refine ⟨?_, ?_⟩
  · split <;> simp
  · rintro ⟨p, -, hp⟩
    split at hp
    · split at hp <;> simp at hp
    · simp at hp

/-- A move that can happen issues no split but one that may move. -/
theorem canMove_of_issue_mem {m : Memory} {d : Dev} {w sp : Nat} (h : .issue w sp ∈ enabledMoves m d) :
    canMove d w sp = true := by
  simp only [enabledMoves, List.cons_append, List.mem_cons, List.mem_append, List.mem_flatMap, List.mem_map, reduceCtorEq,
    and_false, exists_false, or_false, false_or, issue_not_mem_waveMoves, issue_not_mem_engineMoves, issue_not_mem_fillMoves,
    issue_not_mem_launchMoves, issue_not_mem_peerMoves, issue_not_mem_serviceMoves] at h
  obtain ⟨p, -, hp⟩ := h
  exact canMove_of_issue_mem_splitMoves hp

/-! ### What a step comes to. -/

theorem issueWork_missing {m : Memory} {d : Dev} {w sp : Nat} (h : issueWork m d w sp = .missing) :
    d.waves.length ≤ w ∨ (waveOf d w).splits.length ≤ sp := by
  by_contra hex
  unfold issueWork fetchIssue at h
  simp only [show ¬ (({ d with cur := (w, sp) } : Dev).waves.length ≤ w ∨
    (waveOf { d with cur := (w, sp) } w).splits.length ≤ sp) from hex, if_false] at h
  split_ifs at h
  split at h <;> cases h

theorem moveWork_missing {m : Memory} {d : Dev} {v : Move} (h : moveWork m d v = .missing) :
    ∃ w sp, v = .issue w sp ∧ (d.waves.length ≤ w ∨ (waveOf d w).splits.length ≤ sp) := by
  cases v with
  | issue w sp => exact ⟨w, sp, rfl, issueWork_missing h⟩
  | _ => cases h

theorem stepWork_eq (s : State) : stepWork s = moveWork s.mem (nextMove s.mem s.dev).2 (nextMove s.mem s.dev).1 := rfl

theorem nextMove_of_agenda {m : Memory} {d : Dev} {v : Move} {r : List Move} (h : d.agenda = v :: r) :
    nextMove m d = (v, { d with agenda := r }) := by
  simp only [nextMove, h]

/-- Choosing a move leaves the waves and the stores of the step. -/
theorem nextMove_waves (m : Memory) (d : Dev) : (nextMove m d).2.waves = d.waves := by
  unfold nextMove
  split
  · rfl
  · rfl

theorem waveOf_nextMove (m : Memory) (d : Dev) (w : Nat) : waveOf (nextMove m d).2 w = waveOf d w := by
  rw [waveOf, nextMove_waves, waveOf]

theorem nextMove_wlog (m : Memory) (d : Dev) : (nextMove m d).2.wlog = d.wlog := by
  unfold nextMove
  split
  · rfl
  · rfl

/-- A move of the model's own choice is one that can happen. -/
theorem nextMove_mem {m : Memory} {d : Dev} (h : d.agenda = []) : (nextMove m d).1 ∈ enabledMoves m d := by
  have hlen : Config.freeChoice d.tick % (enabledMoves m d).length < (enabledMoves m d).length :=
    Nat.mod_lt _ (by simp [enabledMoves])
  simp only [nextMove, h, nth, List.getElem?_eq_getElem hlen, Option.getD_some]
  exact List.getElem_mem hlen

/-- A step finds no agent only where the agenda names a split that does not exist (log 11). -/
theorem stepWork_missing {s : State} (h : stepWork s = .missing) : ∃ w sp r, s.dev.agenda = .issue w sp :: r ∧
    (s.dev.waves.length ≤ w ∨ (waveOf s.dev w).splits.length ≤ sp) := by
  rw [stepWork_eq] at h
  obtain ⟨w, sp, hv, hex⟩ := moveWork_missing h
  rw [waveOf_nextMove, nextMove_waves] at hex
  cases ha : s.dev.agenda with
  | nil =>
    have hmem : .issue w sp ∈ enabledMoves s.mem s.dev := hv ▸ nextMove_mem ha
    obtain ⟨hw, hsp⟩ := exists_of_canMove (canMove_of_issue_mem hmem)
    omega
  | cons v r =>
    rw [nextMove_of_agenda ha] at hv
    exact ⟨w, sp, r, by rw [show v = _ from hv], hex⟩

/-! ### The invariant. -/

/-- The end of a step performs its stores and leaves none over. -/
theorem inv_finish {m : Memory} (d : Dev) (h : memWf m = true) : Inv (finish m d) := ⟨memWf_commit d.wlog h, rfl⟩

theorem inv_afterWord {s t : State} (w sp : Nat) (word : W64) (h : Inv t) : Inv (afterWord s w sp word t) := by
  unfold afterWord
  split
  · exact ⟨h.1, h.2⟩
  · exact ⟨h.1, h.2⟩

/-- The state that a piece of work starts from meets the invariant. -/
def Work1.StateInv : Work1 → Prop
  | .run _ t | .word _ _ _ _ t | .still t => Inv t
  | .missing => True

theorem fetchIssue_stateInv {m : Memory} (d : Dev) (w sp : Nat) (h : memWf m = true) : (fetchIssue m d w sp).StateInv := by
  unfold fetchIssue
  split
  · exact inv_finish _ h
  · exact inv_finish _ h

theorem issueWork_stateInv {m : Memory} {d : Dev} (w sp : Nat) (h : Inv ⟨m, d⟩) : (issueWork m d w sp).StateInv := by
  have hcur : Inv ⟨m, { d with cur := (w, sp) }⟩ := h
  simp only [issueWork]
  split_ifs
  · trivial
  · exact h
  · exact hcur
  · exact hcur
  · exact hcur
  · exact hcur
  · exact h
  · exact fetchIssue_stateInv _ w sp h.1

theorem moveWork_stateInv {m : Memory} {d : Dev} (v : Move) (h : Inv ⟨m, d⟩) : (moveWork m d v).StateInv := by
  cases v with
  | issue w sp => exact issueWork_stateInv w sp h
  | event e => exact h
  | _ => exact inv_finish _ h.1

theorem stepWork_stateInv {s : State} (h : Inv s) : (stepWork s).StateInv := by
  obtain ⟨hm, hlog⟩ := h
  exact moveWork_stateInv _ ⟨hm, (nextMove_wlog s.mem s.dev).trans hlog⟩

/-- Everything a step can do: find no agent, or answer a next state, which meets the invariant where the state before did. -/
theorem step_cases (s : State) :
    (step s = .fault .noSuchSplit ∧ stepWork s = .missing) ∨ ∃ t, step s = .next t ∧ (Inv s → Inv t) := by
  have hinv : Inv s → (stepWork s).StateInv := stepWork_stateInv
  unfold step
  cases hwork : stepWork s with
  | run i t =>
    rw [hwork] at hinv
    obtain ⟨d, hd⟩ := exec_finishes i t
    exact .inr ⟨_, hd, fun h => inv_finish d (hinv h).1⟩
  | word i w sp word t =>
    rw [hwork] at hinv
    obtain ⟨d, hd⟩ := exec_finishes i t
    exact .inr ⟨_, by simp only [hd], fun h => inv_afterWord (s := t) w sp word (inv_finish d (hinv h).1)⟩
  | still t =>
    rw [hwork] at hinv
    exact .inr ⟨t, rfl, hinv⟩
  | missing => exact .inl ⟨rfl, rfl⟩

/-- Settles O4: a step that answers a next state has performed its stores, and none is left. -/
theorem stepKeepsInv : Obligations.StepKeepsInv := by
  unfold Obligations.StepKeepsInv
  intro s t hs ht
  rcases step_cases s with ⟨hfault, -⟩ | ⟨u, hu, hinv⟩
  · rw [hfault] at ht
    cases ht
  · rw [hu] at ht
    cases ht
    exact hinv hs

/-- Settles O7: a meaning always ends in a next state, and the moves that the model chooses itself name splits that exist. -/
theorem stepsGoOn : Obligations.StepsGoOn := by
  unfold Obligations.StepsGoOn
  refine ⟨fun i s => ?_, fun s => ?_⟩
  · obtain ⟨d, hd⟩ := exec_finishes i s
    exact ⟨_, hd⟩
  · rcases step_cases s with ⟨hfault, hmissing⟩ | ⟨t, ht, -⟩
    · exact .inr ⟨hfault, stepWork_missing hmissing⟩
    · exact .inl ⟨t, ht⟩

end Sys2Proof.Machine
end

section
/-!
SUPPORT. Device steps of registers: invalidations of translations (spec/02_address_spaces.md R29, R30), trap commands
(spec/12_traps_preemption.md R202) and DOWN bits (spec/24_host_and_fabric.md R371).
-/
namespace Sys2Proof.Machine
open Sys2Proof.Claims

/-! ### What a device step answers. -/

/-- An instruction becomes the device that its meaning computes. -/
theorem becomes_of_exec {i : Instr} {s : State} {d e : Dev} (hx : exec i s = .next (finish s.mem e)) (h : e = d) :
    Becomes i s d := hx.trans (next_finish h)

/-! ### Invalidation of translations. -/

theorem queueXinv_room {d : Dev} (x : Xinv) (h : d.regs.xinvq.length < 8) :
    queueXinv d x = { d with regs := { d.regs with xinvq := d.regs.xinvq ++ [x] } } := if_neg (Nat.not_le.2 h)

theorem queueXinv_full {d : Dev} (x : Xinv) (h : 8 ≤ d.regs.xinvq.length) :
    queueXinv d x = { d with regs := { d.regs with xinvOvf := true } } := if_pos h

/-- Each kind of invalidation but the reserved one queues its request (R29). -/
theorem becomes_queueXinv {s : State} {ctx : BitVec 16} {sz : BitVec 3} {i : Instr} {x : Xinv}
    (h : (i, x) ∈ [(Instr.xinvPage ctx sz, Xinv.page ctx sz s.dev.regs.xinva), (.xinvContext ctx, .context ctx),
      (.xinvAllContexts, .all)]) : Becomes i s (queueXinv s.dev x) := by
  simp only [List.mem_cons, Prod.mk.injEq, List.not_mem_nil, or_false] at h
  rcases h with ⟨rfl, rfl⟩ | ⟨rfl, rfl⟩ | ⟨rfl, rfl⟩
  · exact becomes_of_exec rfl rfl
  · exact becomes_of_exec rfl rfl
  · exact becomes_of_exec rfl rfl

/-- The reserved kind completes at once where the queue has room (R30, log 43). -/
theorem becomes_xinvReserved_room {s : State} (h : s.dev.regs.xinvq.length < 8) : Becomes .xinvReserved s
    { s.dev with regs := { s.dev.regs with xinvErr := true, xinvSeq := s.dev.regs.xinvSeq + 1 } } :=
  becomes_of_exec rfl (if_neg (Nat.not_le.2 h))

theorem becomes_xinvReserved_full {s : State} (h : 8 ≤ s.dev.regs.xinvq.length) : Becomes .xinvReserved s
    { s.dev with regs := { s.dev.regs with xinvOvf := true, xinvErr := true } } :=
  becomes_of_exec rfl (if_pos h)

/-- The oldest request completes (R30). -/
theorem becomes_xinvComplete {s : State} {x : Xinv} {r : List Xinv} (h : s.dev.regs.xinvq = x :: r) :
    Becomes .xinvComplete s { s.dev with
      tlb := s.dev.tlb.filter (fun t => !xinvHits x t), walks := s.dev.walks.filter (fun e => !xinvWalks x e),
      regs := { s.dev.regs with xinvq := r, xinvSeq := s.dev.regs.xinvSeq + 1 } } :=
  becomes_of_exec rfl (by simp only [h])

/-! ### Trap commands. -/

/-- A command that names no held split only counts, and sets ERR (R202). -/
theorem becomes_trDone_of_unheld {s : State} {id : HeldId} {i : Instr}
    (hi : i ∈ [Instr.resumeAtTpc id, .resumePastTpc id, .abortLaunch id]) (h : heldSplit s.dev id = none) :
    Becomes i s (trDone s.dev true) := by
  simp only [List.mem_cons, List.not_mem_nil, or_false] at hi
  rcases hi with rfl | rfl | rfl
  · exact becomes_of_exec rfl (by simp only [h])
  · exact becomes_of_exec rfl (by simp only [h])
  · exact becomes_of_exec rfl (by simp only [h])

section
variable {s : State} {id : HeldId} {p : Nat × Nat} (h : heldSplit s.dev id = some p)
include h

/-- A resume at TPC has the faulted copy, if the trap was of one, try again (R202, R326). -/
theorem becomes_resumeAtTpc : Becomes (.resumeAtTpc id) s
    (trDone (unhold ((heldCopy s.dev p).elim s.dev (retryCopy s.dev)) p) false) :=
  becomes_of_exec rfl (by simp only [h])

/-- A resume past TPC has the faulted copy skip its element, and skips the word of a synchronous trap (R202, R326). -/
theorem becomes_resumePastTpc : Becomes (.resumePastTpc id) s
    (let q := splitOf (waveOf s.dev p.1) p.2
     let d1 := unhold ((heldCopy s.dev p).elim s.dev (skipCopy s.dev)) p
     trDone (if q.heldAsync || q.entering then d1 else skipAt s.mem d1 p) false) :=
  becomes_of_exec rfl (by simp only [h])

theorem becomes_abortLaunch : Becomes (.abortLaunch id) s
    (trDone (failLaunch s.mem s.dev (waveOf s.dev p.1).launch 0x09) false) :=
  becomes_of_exec rfl (by simp only [h])

end

/-- What the commands do to a split that is held, by what it is held for (R202, R326). -/
theorem heldCommands {s : State} {id : HeldId} {p : Nat × Nat} (h : heldSplit s.dev id = some p) :
    let q := splitOf (waveOf s.dev p.1) p.2
    (heldCopy s.dev p = none → Becomes (.resumeAtTpc id) s (trDone (unhold s.dev p) false)) ∧
    (∀ c, heldCopy s.dev p = some c → Becomes (.resumeAtTpc id) s (trDone (unhold (retryCopy s.dev c) p) false)) ∧
    (∀ c, heldCopy s.dev p = some c → q.heldAsync = true →
      Becomes (.resumePastTpc id) s (trDone (unhold (skipCopy s.dev c) p) false)) ∧
    (heldCopy s.dev p = none → q.heldAsync = false → q.entering = false →
      Becomes (.resumePastTpc id) s (trDone (skipAt s.mem (unhold s.dev p) p) false)) := by
  have hat := becomes_resumeAtTpc h
  have hpast := becomes_resumePastTpc h
  refine ⟨fun hc => ?_, fun c hc => ?_, fun c hc ha => ?_, fun hc ha he => ?_⟩
  · simpa [hc] using hat
  · simpa [hc] using hat
  · simpa [hc, ha] using hpast
  · simpa [hc, ha, he] using hpast

/-- Settles O37: each device step answers what its function answers, by the cases that the function tells apart. -/
theorem registerSteps : Obligations.RegisterSteps := by
  unfold Obligations.RegisterSteps
  intro s ctx sz id peer
  refine ⟨fun _ _ _ => becomes_of_exec rfl rfl, fun i x hx => ⟨fun hq => ?_, fun hq => ?_⟩, becomes_xinvReserved_room,
    becomes_xinvReserved_full, fun x r => becomes_xinvComplete, becomes_of_exec rfl rfl, becomes_of_exec rfl rfl,
    fun i => becomes_trDone_of_unheld, fun p hp => ?_, becomes_of_exec rfl rfl, becomes_of_exec rfl rfl⟩
  · exact queueXinv_room x hq ▸ becomes_queueXinv hx
  · exact queueXinv_full x hq ▸ becomes_queueXinv hx
  · obtain ⟨hat, hretry, hskip, hpast⟩ := heldCommands hp
    exact ⟨hat, hretry, hskip, hpast, becomes_abortLaunch hp⟩

end Sys2Proof.Machine
end

section
/-!
SUPPORT. What a step does besides running a word: what is due before it (spec/07_model_far.md R119, spec/10_execution_model.md
R167, spec/12_traps_preemption.md R197, R205), the moves, the order of issue (spec/10_execution_model.md R172, R178, R179).
-/
namespace Sys2Proof.Machine
open Sys2Proof.Claims

/-! ### What a step comes to. -/

theorem stepWork_of_agenda {s : State} {v : Move} {r : List Move} (h : s.dev.agenda = v :: r) :
    stepWork s = moveWork s.mem { s.dev with agenda := r } v := by
  rw [stepWork_eq, nextMove_of_agenda h]

theorem step_of_run {s t : State} {i : Instr} (h : stepWork s = .run i t) : step s = exec i t := by
  unfold step
  rw [h]

theorem step_of_still {s t : State} (h : stepWork s = .still t) : step s = .next t := by
  unfold step
  rw [h]

/-- A move that leaves a state is its step. -/
theorem step_of_agenda_still {s t : State} {v : Move} {r : List Move} (h : s.dev.agenda = v :: r)
    (hw : moveWork s.mem { s.dev with agenda := r } v = .still t) : step s = .next t :=
  step_of_still ((stepWork_of_agenda h).trans hw)

theorem step_congr {s t : State} (h : stepWork s = stepWork t) : step s = step t := by
  unfold step
  rw [h]

/-- With an empty agenda, a step makes one of the moves that can happen (log 1). -/
theorem nextMove_of_nil {m : Memory} {d : Dev} (h : d.agenda = []) :
    nextMove m d = ((nextMove m d).1, { d with tick := d.tick + 1 }) := by
  simp only [nextMove, h]

theorem step_of_nil {s : State} (h : s.dev.agenda = []) : ∃ v ∈ enabledMoves s.mem s.dev,
    step s = step ⟨s.mem, { s.dev with agenda := [v], tick := s.dev.tick + 1 }⟩ := by
  refine ⟨(nextMove s.mem s.dev).1, nextMove_mem h, step_congr ?_⟩
  rw [stepWork_eq s, nextMove_of_nil h, stepWork_of_agenda (v := (nextMove s.mem s.dev).1) (r := []) rfl]
  dsimp only
  rw [← h]

/-! ### What is due at an issue. -/

theorem wordNext_iff {d : Dev} {w sp : Nat} : wordNext d w sp = true ↔
    canMove d w sp = true ∧ (waveOf d w).epochDue = 0 ∧ trapDue (waveOf d w) sp = false ∧
      (waveOf d w).preemptHit = false ∧ (splitOf (waveOf d w) sp).entering = false := by
  simp [wordNext, and_assoc]

section
variable {m : Memory} {d : Dev} {w sp : Nat} (hw : w < d.waves.length) (hsp : sp < (waveOf d w).splits.length)
include hw hsp

theorem issueWork_of_stuck (h : canMove d w sp = false) : issueWork m d w sp = .still ⟨m, d⟩ := by
  show (if d.waves.length ≤ w ∨ (waveOf d w).splits.length ≤ sp then _ else if !canMove d w sp then _ else _) = _
  rw [if_neg (by omega), if_pos (by simp [h])]

/-- What a split that may move does at its issue: what is due, in its order, and then its word. -/
theorem issueWork_of_canMove (h : canMove d w sp = true) : issueWork m d w sp =
    if (waveOf d w).epochDue ≠ 0 then .run (.clockEpochStep w) ⟨m, { d with cur := (w, sp) }⟩
    else if trapDue (waveOf d w) sp = true then .run (.asyncTrapDelivery w sp) ⟨m, { d with cur := (w, sp) }⟩
    else if (waveOf d w).preemptHit = true then .run (.preemptAtReached w) ⟨m, { d with cur := (w, sp) }⟩
    else if (splitOf (waveOf d w) sp).entering = true then .run .splitArrive ⟨m, { d with cur := (w, sp) }⟩
    else if !mayIssue m d w sp then .still ⟨m, d⟩
    else fetchIssue m { d with cur := (w, sp) } w sp := by
  show (if d.waves.length ≤ w ∨ (waveOf d w).splits.length ≤ sp then _ else if !canMove d w sp then _ else _) = _
  rw [if_neg (by omega), if_neg (by simp [h])]
  rfl

/-- A split whose word may not issue is left as it is (R178). -/
theorem issueWork_of_unready (hn : wordNext d w sp = true) (hi : mayIssue m d w sp = false) :
    issueWork m d w sp = .still ⟨m, d⟩ := by
  obtain ⟨hmove, hepoch, htrap, hpreempt, henter⟩ := wordNext_iff.1 hn
  rw [issueWork_of_canMove hw hsp hmove, if_neg (not_not.2 hepoch), if_neg (by simp [htrap]), if_neg (by simp [hpreempt]),
    if_neg (by simp [henter]), if_pos (by simp [hi])]

end

theorem stepDueFirst : Claims.StepDueFirst := by
  intro s w sp r
  dsimp only
  intro ha hw hsp hmove
  have hstep := (stepWork_of_agenda ha).trans (issueWork_of_canMove (m := s.mem) (d := { s.dev with agenda := r }) hw hsp hmove)
  refine ⟨fun he => ?_, fun he ht => ?_, fun he ht hp => ?_, fun he ht hp hq => ?_⟩
  · exact step_of_run (hstep.trans (if_pos he))
  · exact step_of_run (hstep.trans ((if_neg (not_not.2 he)).trans (if_pos ht)))
  · exact step_of_run (hstep.trans ((if_neg (not_not.2 he)).trans ((if_neg (ne_true_of_eq_false ht)).trans (if_pos hp))))
  · exact step_of_run (hstep.trans ((if_neg (not_not.2 he)).trans ((if_neg (ne_true_of_eq_false ht)).trans
      ((if_neg (ne_true_of_eq_false hp)).trans (if_pos hq)))))

theorem stepMovesOfAgenda : Claims.StepMoves := by
  intro s r
  dsimp only
  refine ⟨fun i ha => step_of_run (stepWork_of_agenda ha), fun n ha => step_of_agenda_still ha rfl, fun w sp ha hw hsp hwait => ?_,
    fun c n ha => step_of_agenda_still ha rfl, fun t pi ha => step_of_agenda_still ha rfl,
    fun n ha => step_of_agenda_still ha rfl, fun n ha => step_of_agenda_still ha rfl,
    fun w sp ha => step_of_agenda_still ha rfl, step_of_nil⟩
  refine step_of_agenda_still ha ?_
  rcases hwait with hstuck | ⟨hnext, hnot⟩
  · exact issueWork_of_stuck hw hsp hstuck
  · exact issueWork_of_unready hw hsp hnext hnot

/-! ### The order of issue. -/

theorem slotsFree_iff {d : Dev} {w : Nat} {st : Bool × Bool} : slotsFree d w st = true ↔
    (st.1 = true → (lastIn d w true).1 ≠ d.cycle + 1) ∧ (st.2 = true → (lastIn d w false).1 ≠ d.cycle + 1) := by
  simp [slotsFree, imp_iff_not_or]

theorem not_overtaken_iff {m : Memory} {d : Dev} {w sp : Nat} {st : Bool × Bool} : overtaken m d w sp st = false ↔
    ∀ p ∈ allSplits d, p ≠ (w, sp) → samePipe d p.1 w = true → readyNow m d p.1 p.2 = true →
      ((st.1 = true ∧ (nextStreams m d p.1 p.2).1 = true) ∨ (st.2 = true ∧ (nextStreams m d p.1 p.2).2 = true)) →
      goesBefore d (st.1 && (nextStreams m d p.1 p.2).1) p (w, sp) = false := by
  simp only [overtaken, List.any_eq_false, Bool.and_eq_true, Bool.or_eq_true, decide_eq_true_eq, not_and, and_imp,
    Bool.not_eq_true]

theorem mayIssue_iff {m : Memory} {d : Dev} {w sp : Nat} : mayIssue m d w sp = true ↔
    (wordNext d w sp = true ∧ readyWord m d w sp = true) ∧ slotsFree d w (nextStreams m d w sp) = true ∧
      overtaken m d w sp (nextStreams m d w sp) = false := by
  simp [mayIssue, readyNow, and_assoc]

/-- Between two splits of which one has been promoted, that one goes first (R179). -/
theorem goesBefore_of_promoted {d : Dev} {a b : Nat × Nat} (acc : Bool)
    (ha : (splitOf (waveOf d a.1) a.2).promoted.isSome = true) (hb : (splitOf (waveOf d b.1) b.2).promoted = none) :
    goesBefore d acc a b = true ∧ goesBefore d acc b a = false := by
  obtain ⟨i, hi⟩ := Option.isSome_iff_exists.1 ha
  simp only [goesBefore, hi, hb, and_self]

/-- Between two promoted splits the longest promoted goes first (R179). -/
theorem goesBefore_of_promoted_lt {d : Dev} {a b : Nat × Nat} {i j : Nat} (acc : Bool)
    (ha : (splitOf (waveOf d a.1) a.2).promoted = some i) (hb : (splitOf (waveOf d b.1) b.2).promoted = some j)
    (hij : i < j) : goesBefore d acc a b = true ∧ goesBefore d acc b a = false := by
  have hji : ¬ j < i := by omega
  have hne : (j == i) = false := by simp; omega
  simp [goesBefore, ha, hb, hij, hji, hne]

section
variable {d : Dev} {a b : Nat × Nat} (acc : Bool) (ha : (splitOf (waveOf d a.1) a.2).promoted = none)
  (hb : (splitOf (waveOf d b.1) b.2).promoted = none)
include ha hb

theorem goesBefore_unpromoted : goesBefore d acc a b = (decide ((waveOf d b.1).stage < (waveOf d a.1).stage) ||
    ((waveOf d a.1).stage == (waveOf d b.1).stage && roundBefore (lastIn d b.1 acc).2 a b)) := by
  simp only [goesBefore, ha, hb]

/-- Between two splits of which none has been promoted, that of the higher stage goes first (R172). -/
theorem goesBefore_of_stage_lt (h : (waveOf d b.1).stage < (waveOf d a.1).stage) :
    goesBefore d acc a b = true ∧ goesBefore d acc b a = false := by
  have hlt : ¬ (waveOf d a.1).stage < (waveOf d b.1).stage := by omega
  have hne : ((waveOf d b.1).stage == (waveOf d a.1).stage) = false := by simp; omega
  rw [goesBefore_unpromoted acc ha hb, goesBefore_unpromoted acc hb ha]
  simp [h, hlt, hne]

/-- In one stage the round decides (R179). -/
theorem goesBefore_of_stage_eq (h : (waveOf d a.1).stage = (waveOf d b.1).stage) :
    goesBefore d acc a b = roundBefore (lastIn d b.1 acc).2 a b := by
  rw [goesBefore_unpromoted acc ha hb]
  simp [h]

end

/-- Ports that do not train are left as they are. -/
theorem portsDue_of_untrained {m : Memory} {d : Dev} (h : ∀ p < 16, portState d p ≠ 1 ∧ portState d p ≠ 3) :
    portsDue m d = d := by
  unfold portsDue
  refine List.foldlRecOn (motive := fun e => e = d) _ _ rfl fun e he p hp => ?_
  obtain ⟨h1, h3⟩ := h p (List.mem_range.1 hp)
  have hidle : inTraining d p = false := by simpa [inTraining] using ⟨h1, h3⟩
  rw [he, hidle, Bool.false_and, if_neg Bool.false_ne_true]

/-- As cycles pass, the promotions that fall due go before everything else (R179). -/
theorem passCycles_agenda {m : Memory} {d : Dev} (n : Nat) (h : ∀ p < 16, portState d p ≠ 1 ∧ portState d p ≠ 3) :
    (passCycles m d n).agenda = promotions m d (d.cycle + n) ++ d.agenda := by
  unfold passCycles
  dsimp only
  rw [portsDue_of_untrained]
  · split
    · rfl
    · rfl
  · intro p hp
    split
    · exact h p hp
    · exact h p hp

theorem mem_promotions {m : Memory} {d : Dev} {w sp c : Nat} (hmem : (w, sp) ∈ allSplits d)
    (hready : readyNow m d w sp = true) (hnone : (splitOf (waveOf d w) sp).promoted = none)
    (hc : (splitOf (waveOf d w) sp).readySince + 64 ≤ c) : .event (.issuePromotion w sp) ∈ promotions m d c :=
  List.mem_map.2 ⟨(w, sp), List.mem_filter.2 ⟨hmem, by simp [hready, hnone, hc]⟩, rfl⟩

theorem issueOrder : Claims.IssueOrder := by
  intro m d w sp
  dsimp only
  refine ⟨?_, fun acc a b => ⟨goesBefore_of_promoted acc, fun i j => goesBefore_of_promoted_lt acc,
    goesBefore_of_stage_lt acc, fun ha hb hstage => ?_⟩, fun n hports hmem hready hnone hdue => ?_⟩
  · rw [mayIssue_iff, wordNext_iff, slotsFree_iff, not_overtaken_iff]
    simp only [and_assoc]
  · rw [goesBefore_of_stage_eq acc ha hb hstage]
    refine ⟨fun h1 h2 => ?_, fun h1 h2 => ?_, fun h1 => ?_⟩
    · simp [roundBefore, h1, h2]
    · simp [roundBefore, h1, h2]
    · simp [roundBefore, h1]
  · exact ⟨_, passCycles_agenda n hports, mem_promotions hmem hready hnone hdue⟩

end Sys2Proof.Machine
end

section
/-!
SUPPORT. Loads that run ahead of older words of their split (spec/06_model_near.md R104): what a word leaves to a later load, what
a load finds, and what a split takes when it comes to the word.
-/
namespace Sys2Proof.Machine
open Sys2Proof.Claims

/-! ### Words of the execute stream. -/

theorem wordOpc_toNat (w : W64) : (wordOpc w).toNat = bits w 63 58 := by
  simp [wordOpc, bits]

/-- A word of the execute stream alone, other than a branch, has a major of the lane instructions (R174, R230). -/
theorem major_of_execute {w : W64} (hs : streamsOf w = (false, true)) (hb : bits w 63 58 ≠ 0x1C) :
    0 < bits w 63 58 ∧ bits w 63 58 < 0x18 := by
  unfold streamsOf at hs
  dsimp only at hs
  split_ifs at hs <;> simp at hs
  omega

/-- The lane instructions stand in seven of the majors (R230). -/
theorem decodeFields_lane {opc fn : BitVec 6} {h : Head} {b : BitVec 44} {i : Instr} (hi : decodeFields opc fn h b = some i)
    (h0 : 0 < opc.toNat) (h1 : opc.toNat < 0x18) :
    decode01 fn h b = some i ∨ decode02 fn h b = some i ∨ decode03 fn h b = some i ∨ decode08 fn h b = some i ∨
      decode09 fn h b = some i ∨ decode10 fn h b = some i ∨ decode14 fn h b = some i := by
  unfold decodeFields at hi
  split at hi <;> simp_all

/-- No lane instruction holds back a later load, and none is a branch (R104). -/
theorem lane_not_holdsBack {fn : BitVec 6} {h : Head} {b : BitVec 44} {i : Instr}
    (hi : decode01 fn h b = some i ∨ decode02 fn h b = some i ∨ decode03 fn h b = some i ∨ decode08 fn h b = some i ∨
      decode09 fn h b = some i ∨ decode10 fn h b = some i ∨ decode14 fn h b = some i) :
    ¬ HoldsBack i ∧ ∀ k f, i ≠ .brc k f := by
  rcases hi with hi | hi | hi | hi | hi | hi | hi
  all_goals
    simp only [decode01, decode02, decode03, decode08, decode09, decode10, decode14] at hi
    split at hi
  all_goals cases hi
  all_goals exact ⟨id, nofun⟩

theorem execute_not_holdsBack {w : W64} (hs : streamsOf w = (false, true)) (hb : bits w 63 58 ≠ 0x1C) :
    ¬ HoldsBack (decode w) ∧ ∀ k f, decode w ≠ .brc k f := by
  obtain ⟨h0, h1⟩ := major_of_execute hs hb
  rw [← wordOpc_toNat] at h0 h1
  unfold decode
  cases hi : decodeListed w with
  | none => exact ⟨id, nofun⟩
  | some i => exact lane_not_holdsBack (decodeFields_lane hi h0 h1)

/-! ### What a word leaves to a later load. -/

/-- A word that holds back every later load is no plain access, no access arithmetic, no jump and not idle. -/
theorem holdsBack_forms {i : Instr} (h : HoldsBack i) :
    memForm i = none ∧ (∀ s, (arithOf i s).or (jumpOf i s) = none) ∧ idleWord i = false := by
  unfold HoldsBack at h
  split at h
  case h_29 => exact h.elim
  all_goals exact ⟨rfl, fun _ => rfl, rfl⟩

/-- A branch on a predicate of the execute stream is none of these either (R173). -/
theorem brc_forms {h : Head} {f : FmtB} (hf : bits f.flg 0 0 = 0) :
    memForm (.brc h f) = none ∧ (∀ s, (arithOf (.brc h f) s).or (jumpOf (.brc h f) s) = none) ∧ idleWord (.brc h f) = false :=
  ⟨rfl, fun _ => by simp [arithOf, jumpOf, hf], rfl⟩

/-- A word that the access stream neither performs nor passes holds the load back. -/
theorem passWord_stops {es : List Ahead} {word : W64} {m : Memory} {d : Dev}
    (hforms : memForm (decode word) = none ∧ (∀ s, (arithOf (decode word) s).or (jumpOf (decode word) s) = none) ∧
      idleWord (decode word) = false)
    (hs : ¬ (streamsOf word = (false, true) ∧ bits word 63 58 ≠ 0x1C)) : Runs (passWord es word) m d none d := by
  obtain ⟨hmem, hjump, hidle⟩ := hforms
  unfold Runs passWord
  rw [runAct_bind_ok (runAct_dev m d)]
  simp only [hmem, runAct, hjump, hidle, Option.isSome_none, Bool.false_eq_true, if_false, Bool.false_or]
  rw [if_neg (by simpa using fun _ => not_and.1 hs)]

theorem passWord_holdsBack {es : List Ahead} {word : W64} {m : Memory} {d : Dev} (h : HoldsBack (decode word)) :
    Runs (passWord es word) m d none d :=
  passWord_stops (holdsBack_forms h) fun hs => (execute_not_holdsBack hs.1 hs.2).1 h

theorem passWord_brc {es : List Ahead} {word : W64} {m : Memory} {d : Dev} {h : Head} {f : FmtB}
    (hw : decode word = .brc h f) (hf : bits f.flg 0 0 = 0) : Runs (passWord es word) m d none d :=
  passWord_stops (hw ▸ brc_forms hf) fun hs => (execute_not_holdsBack hs.1 hs.2).2 h f hw

theorem find_isAt_none {es : List Ahead} {q : Split} (h : ∀ e ∈ es, ¬ (e.pc = q.pc ∧ e.clock = q.clock)) :
    es.find? (isAt q) = none := by
  simpa [isAt] using h

/-- A load that has not run ahead itself holds back those behind it (R173, log 10). -/
theorem passWord_load {es : List Ahead} {word : W64} {m : Memory} {d : Dev} {q : MemForm}
    (hq : memForm (decode word) = some q) (hl : q.store = false)
    (h : ∀ e ∈ es, ¬ (e.pc = (mySplit d).pc ∧ e.clock = (mySplit d).clock)) : Runs (passWord es word) m d none d := by
  unfold Runs passWord
  rw [runAct_bind_ok (runAct_dev m d)]
  simp only [hq, hl, Bool.false_eq_true, if_false, find_isAt_none h, ite_self, runAct_pure]

theorem runAct_peekAct {α : Type} {x : Act α} {m : Memory} {d e : Dev} {a : α} (h : runAct x m d = .ok (a, e)) :
    runAct (peekAct x) m d = .ok (a, d) := by
  have h' : x m d = .ok (a, e) := h
  simp only [runAct, peekAct, h']

/-- A store leaves the bytes that it is to write. -/
theorem passWord_store {es : List Ahead} {word : W64} {m : Memory} {d d1 e : Dev} {q : MemForm}
    {r : W32 × (Nat → W64) × List (Nat × Place)} (hq : memForm (decode word) = some q) (hst : q.store = true)
    (hf : fieldsOk (decode word) = true) (ho : offAligned (decode word) = true) (hb : opd q.base ≠ .qv)
    (hp : Runs q.places m d r d1) (hr : Runs (retireWord (bits word 57 54) true false) m d () e) :
    Runs (passWord es word) m d (some (r.2.2.map (fun p => (p.2, q.size)))) e := by
  have hqv : (opd q.base == .qv) = false := by simpa using hb
  unfold Runs passWord
  rw [runAct_bind_ok (runAct_dev m d)]
  simp only [hq, hst, hf, ho, hqv, Bool.not_true, Bool.or_self, Bool.false_eq_true, if_false, if_true]
  rw [runAct_bind_ok (runAct_peekAct hp), runAct_bind_ok hr]
  rfl

/-! ### Loads that may not run ahead. -/

/-- A load does not run ahead of a store that is to write what it reads (R104). -/
theorem loadAhead_blocked {q : MemForm} {ws : List (Place × Nat)} {m : Memory} {d d1 : Dev}
    {r : W32 × (Nat → W64) × List (Nat × Place)} (hp : Runs q.places m d r d1)
    (hmeet : ∃ p ∈ r.2.2, ∃ o ∈ ws, meets (p.2, q.size) o = true) : Runs (loadAhead q ws) m d none d1 := by
  obtain ⟨p, hpr, o, hows, ho⟩ := hmeet
  obtain ⟨lanes, ea, ps⟩ := r
  unfold Runs loadAhead
  rw [runAct_bind_ok hp]
  dsimp only
  rw [if_pos]
  · rfl
  · rw [Bool.or_eq_true]
    exact .inr (List.any_eq_true.2 ⟨p, hpr, Bool.or_eq_true_iff.2 (.inr (List.any_eq_true.2 ⟨o, hows, ho⟩))⟩)

theorem performAhead_blocked {i : Instr} {q : MemForm} {ws : List (Place × Nat)} {m : Memory} {d d1 : Dev}
    {r : W32 × (Nat → W64) × List (Nat × Place)} (hq : memForm i = some q) (hp : Runs q.places m d r d1)
    (hmeet : ∃ p ∈ r.2.2, ∃ o ∈ ws, meets (p.2, q.size) o = true) (v : W32 × Row) (e : Dev) :
    ¬ Runs (performAhead i ws) m d (some v) e := by
  intro h
  unfold Runs performAhead at h
  simp only [hq] at h
  split_ifs at h
  · cases h
  · cases h
  · rw [loadAhead_blocked hp hmeet] at h
    cases h

/-- An `ldfe` that empties its granules does not run ahead (R46, R104). -/
theorem performAhead_ldfe {h : Head} {f : FmtM} {ws : List (Place × Nat)} {m : Memory} {d e : Dev} {v : W32 × Row}
    (hf : f.q ≠ 0) : ¬ Runs (performAhead (.ldfe h f) ws) m d (some v) e := by
  intro hr
  unfold Runs performAhead at hr
  simp only [memForm, hf, decide_false, Bool.false_and, Bool.false_eq_true, if_false, ite_self] at hr
  cases hr

/-! ### What a split takes. -/

section
variable {m : Memory} {d : Dev} {w sp : Nat} {word : W64}

theorem takeAhead_nothing (hq : (splitOf (waveOf d w) sp).early.find? (isAt (splitOf (waveOf d w) sp)) = none)
    (hp : (splitOf (waveOf d w) sp).qd ≠ [] ∨ peeks word = false) : takeAhead m d w sp word = d := by
  have hpeek : ((splitOf (waveOf d w) sp).qd.isEmpty && peeks word) = false := by
    rcases hp with hp | hp <;> simp [hp]
  simp only [takeAhead, hq, hpeek, Bool.false_eq_true, if_false]

/-- The lanes of the load that has run ahead have performed when the split comes to it (R104). -/
theorem takeAhead_load {e : Ahead} {r : List Ahead} (he : (splitOf (waveOf d w) sp).early = e :: r)
    (hpc : e.pc = (splitOf (waveOf d w) sp).pc) (hclock : e.clock = (splitOf (waveOf d w) sp).clock)
    (hserved : (splitOf (waveOf d w) sp).served = 0) (hans : (splitOf (waveOf d w) sp).ans = none) (hp : peeks word = false) :
    takeAhead m d w sp word = modSplit d w sp (fun s =>
      { s with served := e.lanes, servedVals := e.vals, early := s.early.filter (· ≠ e) }) := by
  have hfind : (splitOf (waveOf d w) sp).early.find? (isAt (splitOf (waveOf d w) sp)) = some e := by
    simp [he, isAt, hpc, hclock]
  simp only [takeAhead, hfind, hp, Bool.and_false, Bool.false_eq_true, if_false, hserved, hans, Option.isNone_none, and_self,
    if_true]

/-- A peek of an empty qd sees the entry that the access stream pushes next (R173). -/
theorem takeAhead_peek (hq : (splitOf (waveOf d w) sp).early.find? (isAt (splitOf (waveOf d w) sp)) = none)
    (hqd : (splitOf (waveOf d w) sp).qd = []) (hp : peeks word = true) {r : Option Row} {e : Dev}
    (hr : Runs (nextPush (splitOf (waveOf d w) sp).early aheadReach) m { d with cur := (w, sp) } r e) :
    takeAhead m d w sp word = modSplit d w sp (fun s => { s with peeked := r }) := by
  unfold Runs at hr
  simp only [takeAhead, hq, hqd, hp, List.isEmpty_nil, Bool.and_self, if_true, hr]

/-- The load that runs ahead is kept with its values, and the split stays where it is (R104, R120). -/
theorem runAhead_of_loadPast (hn : wordNext d w sp = true) {lanes : W32} {vals : Row} {e : Dev}
    (hr : Runs (loadPast (splitOf (waveOf d w) sp).early aheadReach []) m { d with cur := (w, sp) } (some (lanes, vals)) e) :
    runAhead m d w sp = setWave e w (setSplitOf { waveOf d w with lmax := (waveOf e w).lmax, leaseSet := (waveOf e w).leaseSet } sp
      { splitOf (waveOf d w) sp with early :=
          { pc := (splitOf (waveOf e w) sp).pc, clock := (splitOf (waveOf e w) sp).clock, lanes := lanes, vals := vals } ::
          (splitOf (waveOf d w) sp).early.filter (fun o => decide ((splitOf (waveOf d w) sp).clock ≤ o.clock)) }) := by
  unfold Runs at hr
  simp only [runAhead, hn, if_true, aheadOf, hr, Option.getD_some]

end

theorem loadsRunAhead : Claims.LoadsRunAhead := by
  refine ⟨fun m d w sp => ⟨fun hn => ?_, fun hn lanes vals e => runAhead_of_loadPast hn⟩,
    fun es word m d => ⟨passWord_holdsBack, fun h f => passWord_brc, fun q => passWord_load, fun q r d1 e => passWord_store⟩,
    fun i q ws m d d1 r hq hp hmeet => performAhead_blocked hq hp hmeet, fun h f ws m d v e => performAhead_ldfe,
    fun m d w sp word => ⟨fun hq => takeAhead_nothing (find_isAt_none hq), fun e r => takeAhead_load,
      fun hq hqd hp r e => takeAhead_peek (find_isAt_none hq) hqd hp⟩⟩
  rw [runAhead, hn, if_neg Bool.false_ne_true]

/-- Settles O41: what is due, the moves, the order of issue and the loads that run ahead, each by the cases of its function. -/
theorem stepMoves : Obligations.StepMoves := ⟨stepDueFirst, stepMovesOfAgenda, issueOrder, loadsRunAhead⟩

end Sys2Proof.Machine
end

section
/-!
SUPPORT. Device steps of waves (spec/07_model_far.md R119, spec/09_engines_determinism.md R161, spec/10_execution_model.md R167,
R179, spec/12_traps_preemption.md R197, R204, R205) and of pages (spec/02_address_spaces.md R25, R28, spec/03_operand_stores.md R40,
spec/04_pending_logs.md R64).
-/
namespace Sys2Proof.Machine
open Sys2Proof.Claims

/-! ### The least key of a launch. -/

/-- Keys are compared field by field, from the left (R159). -/
theorem keyLt_iff {a b : Key} : keyLt a b = true ↔
    a.clock < b.clock ∨ a.clock = b.clock ∧ (a.vidx < b.vidx ∨ a.vidx = b.vidx ∧ a.ord < b.ord) := by
  simp [keyLt]

theorem not_keyLt_iff {a b : Key} : keyLt a b = false ↔
    ¬ (a.clock < b.clock ∨ a.clock = b.clock ∧ (a.vidx < b.vidx ∨ a.vidx = b.vidx ∧ a.ord < b.ord)) := by
  rw [← keyLt_iff, Bool.not_eq_true]

/-- Of two keys one is less, or they are one. -/
theorem key_eq_of_not_lt {a b : Key} (hab : keyLt a b = false) (hba : keyLt b a = false) : a = b := by
  cases a
  cases b
  simp only [not_keyLt_iff] at hab hba
  simp only [Key.mk.injEq]
  omega

theorem keyLt_irrefl (a : Key) : keyLt a a = false := by
  rw [not_keyLt_iff]
  omega

theorem keyLt_asymm {a b : Key} (h : keyLt a b = true) : keyLt b a = false := by
  rw [keyLt_iff] at h
  rw [not_keyLt_iff]
  omega

theorem not_keyLt_trans {a b c : Key} (hab : keyLt a b = false) (hbc : keyLt b c = false) : keyLt a c = false := by
  rw [not_keyLt_iff] at hab hbc ⊢
  omega

theorem leastKey_eq_none {ks : List Key} (h : leastKey ks = none) : ks = [] := by
  cases ks with
  | nil => rfl
  | cons a r =>
    unfold leastKey at h
    split at h <;> cases h

/-- The least key is one of the keys, and none is less (R161). -/
theorem leastKey_spec {ks : List Key} {k : Key} (h : leastKey ks = some k) : k ∈ ks ∧ ∀ j ∈ ks, keyLt j k = false := by
  induction ks generalizing k with
  | nil => cases h
  | cons a r ih =>
    unfold leastKey at h
    split at h
    · next j hj =>
      obtain ⟨hmem, hmin⟩ := ih hj
      cases h
      by_cases hlt : keyLt j a = true
      · rw [if_pos hlt]
        exact ⟨List.mem_cons_of_mem a hmem, List.forall_mem_cons.2 ⟨keyLt_asymm hlt, hmin⟩⟩
      · rw [if_neg hlt]
        rw [Bool.not_eq_true] at hlt
        exact ⟨List.mem_cons_self, List.forall_mem_cons.2 ⟨keyLt_irrefl a, fun i hi => not_keyLt_trans (hmin i hi) hlt⟩⟩
    · next hnone =>
      cases h
      rw [leastKey_eq_none hnone]
      simp [keyLt_irrefl]

theorem leastKey_of_least {ks : List Key} {k : Key} (hk : k ∈ ks) (hmin : ∀ j ∈ ks, keyLt j k = false) :
    leastKey ks = some k := by
  cases hj : leastKey ks with
  | none =>
    rw [leastKey_eq_none hj] at hk
    cases hk
  | some j =>
    obtain ⟨hmem, hleast⟩ := leastKey_spec hj
    rw [key_eq_of_not_lt (hmin j hmem) (hleast k hk)]

/-! ### To which split an asynchronous trap goes. -/

/-- A split's trap that is due is the first of those for it (R197). -/
theorem dueTrap_of_first {x : Wave} {sp : Nat} {a r : List AsyncTrap} {t : AsyncTrap} (h : x.atraps = a ++ t :: r)
    (ht : trapSplit x t.mask = some sp) (ha : ∀ u ∈ a, trapSplit x u.mask ≠ some sp) : dueTrap x sp = some t := by
  have hnone : a.find? (fun u => trapSplit x u.mask == some sp) = none := by simpa using ha
  rw [dueTrap, h, List.find?_append, hnone, Option.none_or, List.find?_cons_of_pos (by simp [ht])]

/-- A range goes through each of its numbers. -/
theorem range_through {n k : Nat} (h : n < k) : ∃ r, List.range k = List.range n ++ n :: r := by
  obtain ⟨c, rfl⟩ := Nat.exists_eq_add_of_lt h
  rw [Nat.add_assoc, List.range_add, List.range_succ_eq_map, List.map_cons, Nat.add_zero]
  exact ⟨_, rfl⟩

/-- Among the lanes of a mask, in order, a search ends at the first that gives an answer. -/
theorem findSome_lanesOf {α : Type} {mask : W32} {n : Nat} {f : Nat → Option α} {b : α} (hn : n < 32)
    (hm : mask.getLsbD n = true) (hlow : ∀ i < n, mask.getLsbD i = true → f i = none) (hf : f n = some b) :
    (lanesOf mask).findSome? f = some b := by
  obtain ⟨r, hr⟩ := range_through hn
  have hnone : ((List.range n).filter mask.getLsbD).findSome? f = none := by
    simpa [List.findSome?_eq_none_iff] using hlow
  rw [lanesOf, hr, List.filter_append, List.filter_cons_of_pos hm, List.findSome?_append, hnone, Option.none_or,
    List.findSome?_cons, hf]

/-- The first split of which something holds. -/
theorem findIdx_of_first {x : Wave} {j : Nat} {p : Split → Bool} (hj : j < x.splits.length) (hp : p (splitOf x j) = true)
    (hlow : ∀ i < j, p (splitOf x i) = false) : x.splits.findIdx? p = some j := by
  rw [List.findIdx?_eq_some_iff_getElem]
  have hat : ∀ i (hi : i < x.splits.length), splitOf x i = x.splits[i] := fun i hi => by simp [splitOf, nth, hi]
  refine ⟨hj, hat j hj ▸ hp, fun i hi => ?_⟩
  rw [← hat i (by omega)]
  simp [hlow i hi]

/-- An asynchronous trap goes to the split that holds the lowest lane of its mask that has not ended (R197); where the lower ones have
ended or lie on no stack, log 14. -/
theorem trapSplit_of_lowest {x : Wave} {mask : W32} {n j : Nat} (hlive : x.live = true) (hn : n < 32)
    (hm : mask.getLsbD n = true) (hj : j < x.splits.length)
    (hlow : ∀ i < n, mask.getLsbD i = true → ∀ p ∈ x.splits, p.mask.getLsbD i = false ∧ (p.mask ≠ 0 → stackHolds p i = false))
    (hat : (splitOf x j).mask.getLsbD n = true) (hfirst : ∀ i < j, (splitOf x i).mask.getLsbD n = false) :
    trapSplit x mask = some j := by
  unfold trapSplit
  dsimp only
  rw [hlive, Bool.not_true, if_neg Bool.false_ne_true, findSome_lanesOf hn hm (b := j)]
  · rfl
  · intro i hi hmi
    have hnone : x.splits.findIdx? (fun s => s.mask.getLsbD i) = none :=
      List.findIdx?_eq_none_iff.2 fun p hp => (hlow i hi hmi p hp).1
    have hstack : x.splits.findIdx? (fun s => s.mask ≠ 0 && stackHolds s i) = none :=
      List.findIdx?_eq_none_iff.2 fun p hp => by
        simpa using (hlow i hi hmi p hp).2
    rw [hnone, hstack]
    rfl
  · rw [findIdx_of_first (p := fun s => s.mask.getLsbD n) hj hat hfirst]
    rfl

/-! ### The device steps of waves. -/

section
variable {s : State} {w sp : Nat}

theorem becomes_clockEpochStep (h : (waveOf s.dev w).epochDue ≠ 0) : Becomes (.clockEpochStep w) s
    (setWave s.dev w { waveOf s.dev w with
      vstamp := max ((waveOf s.dev w).vstamp + 256) ((waveOf s.dev w).lmax + 1), lmax := 0,
      epochDue := (waveOf s.dev w).epochDue - 1, leaseSet := if (waveOf s.dev w).fo then [] else (waveOf s.dev w).leaseSet }) :=
  becomes_of_exec rfl (if_neg h)

theorem becomes_issuePromotion (hr : readyWord s.mem s.dev w sp = true) (hp : (splitOf (waveOf s.dev w) sp).promoted = none)
    (hc : (splitOf (waveOf s.dev w) sp).readySince + 64 ≤ s.dev.cycle) : Becomes (.issuePromotion w sp) s
    (modSplit s.dev w sp (fun q => { q with promoted := some (q.readySince + 64) })) :=
  becomes_of_exec rfl (if_pos (by simp [hr, hp, hc]))

theorem becomes_minTreeRefresh {l : Nat} {k : Option Key} (h : leastKey (activeKeys s.dev l) = k) :
    Becomes (.minTreeRefresh l) s (setLaunch s.dev l { launchOf s.dev l with minKey := k }) :=
  becomes_of_exec rfl (by subst h; rfl)

/-- A split takes the trap that is due, out of what it waits in (R197). -/
theorem becomes_asyncTrapDelivery {t : AsyncTrap} (ht : dueTrap (waveOf s.dev w) sp = some t)
    (hlive : (waveOf s.dev w).live = true) (hmask : (splitOf (waveOf s.dev w) sp).mask ≠ 0)
    (hh : (splitOf (waveOf s.dev w) sp).handler = none) (ha : (splitOf (waveOf s.dev w) sp).ans = none)
    (hd : deliverable (splitOf (waveOf s.dev w) sp).park = true) (hr : setResident s.dev (waveOf s.dev w).set = true) :
    Becomes (.asyncTrapDelivery w sp) s
      (takeTrap s.mem (takenTrap (unpark (unwait s.mem s.dev w sp) w sp) w t) w sp t.trap true) :=
  becomes_of_exec rfl (by
    have hmask' : decide ((splitOf (waveOf s.dev w) sp).mask ≠ 0) = true := decide_eq_true hmask
    simp only [ht, hlive, hmask', hh, ha, hd, hr, Option.isNone_none, Bool.and_self, if_true])

/-- The splits that wait on a full ring try again, one after another (R204). -/
theorem becomes_ringRetry (hr : setResident s.dev (waveOf s.dev w).set = true) : Becomes (.ringRetry w) s
    ((List.range (waveOf s.dev w).splits.length).foldl (fun d i =>
      match (splitOf (waveOf d w) i).park with
      | .ring n wts => if (lineOf d n).wts = wts then d
        else waveRecord s.mem d w i (splitOf (waveOf d w) i).ringRec (splitOf (waveOf d w) i).after
      | _ => d) s.dev) :=
  becomes_of_exec rfl (by
    refine (if_neg (by simp [hr])).trans ?_
    congr
    funext d i
    cases hq : (splitOf (waveOf d w) i).park
    case ring n wts =>
      simp only [hq]
      exact ite_not ..
    all_goals simp only [hq])

theorem waveRecord_nil (m : Memory) (d : Dev) (i : Nat) (after : Park) :
    waveRecord m d w i [] after = modSplit d w i (fun q => { q with park := after, ringRec := [] }) := by
  unfold waveRecord
  rfl

/-- On a full ring the split parks with the records still to write (R204). -/
theorem waveRecord_full {m : Memory} {d d1 : Dev} {i n wts : Nat} {r : List W64} {rest : List (List W64)} (after : Park)
    (h : ringWrite m d (waveOf d w).ctx [r] true = (d1, .full n wts)) : waveRecord m d w i (r :: rest) after =
      modSplit d1 w i (fun q => { q with park := .ring n wts, ringRec := r :: rest, after := after }) := by
  unfold waveRecord
  simp only [h]

/-- At PREEMPT_AT the splits that run stop, and the switch of the cluster begins (R205, log 38). -/
theorem becomes_preemptAtReached (hp : (waveOf s.dev w).preemptHit = true) (hr : setResident s.dev (waveOf s.dev w).set = true) :
    Becomes (.preemptAtReached w) s
      (let stop := fun (q : Split) => if q.mask ≠ 0 && q.park == .running then { q with park := .stopped } else q
       let d1 := setWave s.dev w { waveOf s.dev w with
         preemptAt := 0, preemptHit := false, splits := (waveOf s.dev w).splits.map stop }
       { d1 with agenda := .event (.contextSwitchOut (clusterIdx d1 w)) :: d1.agenda }) :=
  becomes_of_exec rfl (if_neg (by simp [hp, hr]))

/-- A split comes to a header: it goes on into it where it arrives alone (R167). -/
theorem becomes_splitArrive {d1 d2 : Dev} {go : Bool} (ht : Runs (checkTarget (w64 (mySplit s.dev).pc)) s.mem s.dev () d1)
    (ha : Runs (arrive 9) s.mem d1 go d2) {d3 : Dev}
    (he : Runs (if go then enterHeader else pure ()) s.mem d2 () d3) : Becomes .splitArrive s d3 := by
  refine congrArg Host.Outcome.next (runSplit_ok ?_)
  rw [runAct_bind_ok (runAct_dev _ _), runAct_bind_ok ht, runAct_bind_ok ha]
  exact he

theorem traps_splitArrive {t : Trap} (h : runAct (checkTarget (w64 (mySplit s.dev).pc)) s.mem s.dev = .error t) :
    Traps .splitArrive s t := by
  refine congrArg Host.Outcome.next (runSplit_error ?_)
  rw [runAct_bind_ok (runAct_dev _ _), runAct_bind_error h]

end

theorem waveSteps : Claims.WaveSteps := by
  intro s w sp l
  dsimp only
  refine ⟨becomes_clockEpochStep, becomes_issuePromotion, fun k hk hmin => becomes_minTreeRefresh (leastKey_of_least hk hmin),
    fun h => becomes_minTreeRefresh (by rw [h]; rfl), fun t => becomes_asyncTrapDelivery, fun a t r => dueTrap_of_first,
    fun mask n j hlive hn hm hj hlow => trapSplit_of_lowest hlive hn hm hj hlow, becomes_ringRetry,
    fun d i recs after _ _ => ⟨?_, ?_⟩, becomes_preemptAtReached,
    fun d1 ht => ⟨fun d2 d3 ha he => becomes_splitArrive ht ha he, fun d2 ha => becomes_splitArrive ht ha rfl⟩,
    fun t => traps_splitArrive⟩
  · rintro rfl
    exact waveRecord_nil ..
  · rintro r rest d1 n wts rfl h
    exact waveRecord_full after h

/-! ### The device steps of pages. -/

section
variable {s : State}

theorem becomes_pageWalk_ok {core ctx : Nat} {va : BitVec 64} {acc : Access} {d1 : Dev} {r}
    (h : runAct (translate core ctx va.toNat acc) s.mem s.dev = .ok (r, d1)) : Becomes (.pageWalk core ctx va acc) s d1 :=
  becomes_of_exec rfl (by simp only [h])

theorem becomes_pageWalk_lost {core ctx : Nat} {va : BitVec 64} {acc : Access} {e : Trap}
    (h : runAct (translate core ctx va.toNat acc) s.mem s.dev = .error e) (hr : replayable e = false) :
    Becomes (.pageWalk core ctx va acc) s s.dev :=
  becomes_of_exec rfl (by simp [h, hr])

/-- A walk that fails opens or joins an episode; the record of one that it opens names no wave (R28, log 35). -/
theorem becomes_pageWalk_episode {core ctx : Nat} {va : BitVec 64} {acc : Access} {e : Trap}
    (h : runAct (translate core ctx va.toNat acc) s.mem s.dev = .error e) (hr : replayable e = true) :
    Becomes (.pageWalk core ctx va acc) s
      (let r := joinEpisode s.dev (coreDie core) ctx e []
       if r.2 then writeRecord s.mem r.1 ctx (recordWords r.1 ctx none 0 0 e { external := true, replay := true }) else r.1) :=
  becomes_of_exec rfl (by simp only [h, hr, Bool.not_true, Bool.false_eq_true, if_false])

theorem becomes_pageReclaim_free {core : Nat} {st : StoreId} (h : (freeFrame s.dev core st).isSome = true) :
    Becomes (.pageReclaim core st) s s.dev :=
  becomes_of_exec rfl (if_pos h)

theorem becomes_pageReclaim_evict {core : Nat} {st : StoreId} {u i : Nat} (h : freeFrame s.dev core st = none)
    (hv : reclaimable s.dev core st = some (u, i)) : Becomes (.pageReclaim core st) s (evict s.mem s.dev u i) :=
  becomes_of_exec rfl (by
    show reclaim s.mem s.dev core st = _
    simp [reclaim, h, hv])

end

/-! ### Fills. -/

section
variable {m : Memory} {d : Dev} {t pi : Nat}

theorem completeFill_idle (h : (pageOf d t pi).st ≠ .filling) : completeFill m d t pi = d := if_pos h

/-- A fill whose backing cannot be reached has failed (R43). -/
theorem completeFill_data_error (h : (pageOf d t pi).st = .filling) {e : Trap}
    (hk : dataKey m d t (pageOf d t pi) .read = .error e) : completeFill m d t pi = fillFailed m d t pi e := by
  simp [completeFill, h, hk]

theorem completeFill_bits_error (h : (pageOf d t pi).st = .filling) {k : Nat} {d1 : Dev} {e : Trap}
    (hk : dataKey m d t (pageOf d t pi) .read = .ok (k, d1)) (hb : bitsKey m d1 t (pageOf d t pi) .read = .error e) :
    completeFill m d t pi = fillFailed m d1 t pi e := by
  simp [completeFill, h, hk, hb]

/-- A fill brings the page as its backing and its log give it, in the state that R39 gives, and serves the readers of its full
granules (R64); a mapped page's lines are first recalled (R49). -/
theorem completeFill_ok (h : (pageOf d t pi).st = .filling) {k b : Nat} {d1 d2 : Dev}
    (hk : dataKey m d t (pageOf d t pi) .read = .ok (k, d1)) (hb : bitsKey m d1 t (pageOf d t pi) .read = .ok (b, d2)) :
    completeFill m d t pi =
      let d3 := if (pageOf d t pi).mapped = none then d2
        else (List.range 64).foldl (fun d i => recallFrom d (lineNo (k + 64 * i)) (some (setOf d t).cluster)) d2
      let q := { filledPage m d3 (pageOf d t pi) k b (pageOf d t pi).log with
        st := if setResident d3 t = true ∧ setAlive d3 t = true then PageState.pinned else .unpinned }
      (List.range 256).foldl (fun d g => if q.full.getLsbD g then serveGranule d t pi g (look 0 q.fullClock g) else d)
        (setPage d3 t pi q) := by
  cases hmap : (pageOf d t pi).mapped
  · simp only [completeFill, h, hk, hb, hmap, ne_eq, not_true_eq_false, if_false, if_true, Bool.and_eq_true]
  · simp only [completeFill, h, hk, hb, hmap, ne_eq, not_true_eq_false, if_false, reduceCtorEq, Bool.and_eq_true]

end

theorem pageSteps : Claims.PageSteps := by
  intro s core ctx t pi va acc st
  dsimp only
  refine ⟨fun r d1 => becomes_pageWalk_ok, fun e => becomes_pageWalk_lost, fun e h hr => ⟨fun ho => ?_, fun ho => ?_⟩,
    becomes_pageReclaim_free, fun u i => becomes_pageReclaim_evict, fun h => becomes_of_exec rfl (completeFill_idle h),
    fun h e hk => becomes_of_exec rfl (completeFill_data_error h hk),
    fun k d1 e h hk hb => becomes_of_exec rfl (completeFill_bits_error h hk hb), fun h k d1 b d2 hk hb => ?_⟩
  · simpa only [ho, if_true] using becomes_pageWalk_episode h hr
  · simpa only [ho, Bool.false_eq_true, if_false] using becomes_pageWalk_episode h hr
  · exact becomes_of_exec rfl (completeFill_ok h hk hb)

/-- Settles O60: each device step answers what its function answers, by the cases that the function tells apart. -/
theorem wavesAndPages : Obligations.WavesAndPages := ⟨waveSteps, pageSteps⟩

end Sys2Proof.Machine
end

section
/-!
SUPPORT. System words (spec/13_encoding.md R223 to R226, spec/03_operand_stores.md R52, R53, spec/17_isa_copy_task_system.md
R339 to R341).
-/
namespace Sys2Proof.Machine
open Sys2Proof.Claims

/-! ### What a pop leaves of the registers (R219, R229). -/

theorem setMySplit_outside {d : Dev} (s : Split) (h : d.waves.length ≤ d.cur.1) : setMySplit d s = d := by
  simp [setMySplit, setMe, setWave, nthSet, List.set_eq_of_length_le h]

theorem me_setMySplit {d : Dev} (s : Split) (h : d.cur.1 < d.waves.length) :
    me (setMySplit d s) = setSplitOf (me d) d.cur.2 s := me_setMe d _ h

/-- A split that takes another's queues in place of its own reads the same registers. -/
theorem regLane_setMySplit {d : Dev} {s : Split} (hs : s.pend = (mySplit d).pend) (c l : Nat) :
    regLane (me (setMySplit d s)) (mySplit (setMySplit d s)) c l = regLane (me d) (mySplit d) c l := by
  rcases Nat.lt_or_ge d.cur.1 d.waves.length with hw | hw
  · have hfile : fileLane (me (setMySplit d s)) c l = fileLane (me d) c l := by rw [me_setMySplit s hw]; rfl
    have hpend : (mySplit (setMySplit d s)).pend = (mySplit d).pend := by
      show (splitOf (me (setMySplit d s)) d.cur.2).pend = _
      rw [me_setMySplit s hw, splitOf_setSplitOf]
      split
      · exact hs
      · rfl
    rw [regLane, regLane, hfile, hpend]
  · rw [setMySplit_outside s hw]

/-- Taking a source changes no register that an access reads (R219). -/
theorem valA_popped {d e : Dev} (h : Popped d e) (src : Src) (l : Nat) :
    valA (me e) (mySplit e) src l = valA (me d) (mySplit d) src l := by
  have hreg : ∀ c, regLane (me e) (mySplit e) c l = regLane (me d) (mySplit d) c l := by
    intro c
    rcases h with rfl | ⟨r, q, -, rfl⟩ | ⟨r, q, -, rfl⟩
    · rfl
    · exact regLane_setMySplit (s := { mySplit d with qd := q }) rfl c l
    · exact regLane_setMySplit (s := { mySplit d with qv := q }) rfl c l
  cases src with
  | reg c => exact hreg c
  | row | zero | inl => rfl

/-! ### Words without effect (R341). -/

/-- A word whose body does nothing retires (R341). -/
theorem retires_of_idle {i : Instr} {h : Head} {s : State} (hx : exec i s = runJ i h (pure .retire) s) (ha : Admitted i [] s) :
    Retires i h true true s s.dev := retires_of hx ha rfl

section
variable {h : Head} {f : FmtS} {s : State}

/-! ### Special registers (R223 to R226). -/

theorem retires_rdsr {d0 : Dev} (ha : Admitted (.rdsr h f) [] s)
    (hp : Runs (putA 0 (mySplit s.dev).mask f.d (fun l => srWord s.dev f.code.toNat l)) s.mem s.dev () d0) :
    Retires (.rdsr h f) h true true s d0 :=
  retires_of rfl ha (by rw [runAct_bind_ok (runAct_dev _ _), runAct_bind_ok hp, runAct_pure])

theorem retires_wrsr {src : Src} {d0 d1 : Dev} (ha : Admitted (.wrsr h f) [] s)
    (ht : Runs (takeSrc .n64 (mySplit s.dev).mask f.a) s.mem s.dev src d0)
    (hw : Runs (srWrite f.code.toNat (valA (me d0) (mySplit d0) src ((lanesOf (mySplit s.dev).mask).headD 0))
      (illop (.wrsr h f))) s.mem d0 () d1) : Retires (.wrsr h f) h true true s d1 := by
  rw [valA_popped (takeSrc_inv ht)] at hw
  refine retires_of rfl ha ?_
  rw [runAct_bind_ok (runAct_dev _ _), runAct_bind_ok ht, runAct_bind_ok hw, runAct_pure]

/-! ### The carve (R52, R53) and the end of a context (R340). -/

theorem privileged_ok {m : Memory} {d : Dev} (h : (me d).ctx = 0) : runAct (privileged d) m d = .ok ((), d) := by
  rw [privileged, decide_eq_true h, runAct_need_true]

/-- A privileged word outside context 0 is refused (R339). -/
theorem privileged_error {m : Memory} {d : Dev} (h : (me d).ctx ≠ 0) :
    runAct (privileged d) m d = .error { cause := cPERM, sub := 1 } := by
  rw [privileged, decide_eq_false h, runAct_need_false]

theorem traps_carve (ha : Admitted (.carve h f) [] s) (hc : (me s.dev).ctx ≠ 0) :
    Traps (.carve h f) s { cause := 0x09, sub := 1 } :=
  traps_of rfl ha (by
    rw [runAct_bind_ok (runAct_dev _ _), runAct_bind_error (privileged_error hc)]
    rfl)

theorem traps_halt (ha : Admitted (.halt h f) [] s) (hc : (me s.dev).ctx ≠ 0) :
    Traps (.halt h f) s { cause := 0x09, sub := 1 } :=
  traps_of rfl ha (by
    rw [runAct_bind_ok (runAct_dev _ _), runAct_bind_error (privileged_error hc)]
    rfl)

/-- The core on which a device's split issues. -/
def issuingCore (d : Dev) : Nat := pcore d (vcoreOf d (me d))

/-- The frames that a core's S store keeps under a carve (R52). -/
def carvedFrames (f : FmtS) : Nat := 64 - 8 * bits f.code 2 0

/-- Whether a page that a carve takes fills. -/
def carveFills (f : FmtS) (d : Dev) : Bool :=
  (takenPages d (issuingCore d) (carvedFrames f)).any (fun p => (pageOf d p.1 p.2).st == .filling)

/-- A device after the pages that a carve takes have been written back as far as they can be. -/
def carveEvicted (f : FmtS) (m : Memory) (d : Dev) : Dev :=
  (takenPages d (issuingCore d) (carvedFrames f)).foldl (fun d p => evict m d p.1 p.2) d

/-- What a carve that is permitted does: it refuses, waits, or resizes the store (R53). -/
def carveBody (f : FmtS) (d : Dev) : Act Verdict :=
  if carvedFrames f < pinnedS d (issuingCore d) then do
    putA 0 (mySplit d).mask f.d (fun _ => w64 1)
    pure .retire
  else if carveFills f d then pure .stay
  else do
    actU (fun m e => (takenPages e (issuingCore d) (carvedFrames f)).foldl (fun d p => evict m d p.1 p.2) e)
    let e ← dev
    if !(takenPages e (issuingCore d) (carvedFrames f)).isEmpty then pure .stay
    else do
      upd (fun e => setCarve e (issuingCore d) (bits f.code 2 0))
      putA 0 (mySplit d).mask f.d (fun _ => w64 0)
      pure .retire

theorem exec_carve (h : Head) (f : FmtS) (s : State) : exec (.carve h f) s = runJ (.carve h f) h (do
    let d ← dev
    privileged d
    carveBody f d) s := rfl

theorem carve_permitted (hc : (me s.dev).ctx = 0) : runAct (do
    let d ← dev
    privileged d
    carveBody f d) s.mem s.dev = runAct (carveBody f s.dev) s.mem s.dev := by
  rw [runAct_bind_ok (runAct_dev _ _), runAct_bind_ok (privileged_ok hc)]

section
variable {m : Memory} {d d0 : Dev}

/-- A carve whose pinned pages do not fit answers 1 (R53). -/
theorem carveBody_pinned (hn : carvedFrames f < pinnedS d (issuingCore d))
    (hp : Runs (putA 0 (mySplit d).mask f.d (fun _ => w64 1)) m d () d0) : runAct (carveBody f d) m d = .ok (.retire, d0) := by
  rw [carveBody, if_pos hn, runAct_bind_ok hp, runAct_pure]

variable (hn : pinnedS d (issuingCore d) ≤ carvedFrames f)
include hn

/-- A carve waits while a page that it takes fills (R53, log 33). -/
theorem carveBody_fills (hf : carveFills f d = true) : runAct (carveBody f d) m d = .ok (.stay, d) := by
  rw [carveBody, if_neg (Nat.not_lt.2 hn), if_pos hf, runAct_pure]

variable (hf : carveFills f d = false)
include hf

/-- A carve waits while a page that it takes cannot be written back (R53, log 33). -/
theorem carveBody_taken (ht : takenPages (carveEvicted f m d) (issuingCore d) (carvedFrames f) ≠ []) :
    runAct (carveBody f d) m d = .ok (.stay, carveEvicted f m d) := by
  rw [carveBody, if_neg (Nat.not_lt.2 hn), if_neg (ne_true_of_eq_false hf), runAct_bind_ok (runAct_actU _ _ _),
    runAct_bind_ok (runAct_dev _ _), ← carveEvicted, List.isEmpty_eq_false_iff.2 ht, if_pos Bool.not_false, runAct_pure]

/-- Once its pages have left, a carve resizes the store and answers 0 (R53). -/
theorem carveBody_resizes (ht : takenPages (carveEvicted f m d) (issuingCore d) (carvedFrames f) = [])
    (hp : Runs (putA 0 (mySplit d).mask f.d (fun _ => w64 0)) m
      (setCarve (carveEvicted f m d) (issuingCore d) (bits f.code 2 0)) () d0) :
    runAct (carveBody f d) m d = .ok (.retire, d0) := by
  rw [carveBody, if_neg (Nat.not_lt.2 hn), if_neg (ne_true_of_eq_false hf), runAct_bind_ok (runAct_actU _ _ _),
    runAct_bind_ok (runAct_dev _ _), ← carveEvicted, ht, if_neg (by simp), runAct_bind_ok (runAct_upd _ _ _),
    runAct_bind_ok hp, runAct_pure]

end

section
variable {c : W64} {d0 : Dev} (ha : Admitted (.halt h f) [] s) (hc : (me s.dev).ctx = 0)
  (hs : Runs (sReg (mySplit s.dev).mask f.a) s.mem s.dev c d0)
include ha hc hs

/-- A `halt` whose own wave goes on retires (R340). -/
theorem retires_halt (hl : (me (failContext s.mem d0 (c.toNat % 65536) 0x09)).live = true) :
    Retires (.halt h f) h true true s (failContext s.mem d0 (c.toNat % 65536) 0x09) :=
  retires_of rfl ha (by
    rw [runAct_bind_ok (runAct_dev _ _), runAct_bind_ok (privileged_ok hc), runAct_bind_ok hs,
      runAct_bind_ok (runAct_actU _ _ _), runAct_bind_ok (runAct_dev _ _), if_pos hl, runAct_pure])

/-- A `halt` that ends its own wave has no word to go on to (R340). -/
theorem becomes_halt (hl : (me (failContext s.mem d0 (c.toNat % 65536) 0x09)).live = false) :
    Becomes (.halt h f) s (failContext s.mem d0 (c.toNat % 65536) 0x09) :=
  becomes_of rfl ha (by
    rw [runAct_bind_ok (runAct_dev _ _), runAct_bind_ok (privileged_ok hc), runAct_bind_ok hs,
      runAct_bind_ok (runAct_actU _ _ _), runAct_bind_ok (runAct_dev _ _), if_neg (ne_true_of_eq_false hl), runAct_pure])

end

end

/-- Settles O32: each word's body is run to its end, by the cases that the body tells apart. -/
theorem systemInstructions : Obligations.SystemInstructions := by
  unfold Obligations.SystemInstructions
  intro h f fn b s
  dsimp only
  have hx := exec_carve h f s
  refine ⟨retires_of_idle rfl ⟨rfl, rfl, rfl⟩, retires_of_idle rfl ⟨rfl, rfl, rfl⟩, retires_of_idle rfl,
    fun d0 => retires_rdsr, fun src d0 d1 => retires_wrsr, traps_carve, fun d0 ha hc hn hp => retires_of hx ha ?_,
    fun ha hc hn => ⟨fun hf => stays_of hx ha ?_, fun hf ht => stays_of hx ha ?_, fun d0 hf ht hp => retires_of hx ha ?_⟩,
    traps_halt, fun c d0 ha hc hs => ⟨retires_halt ha hc hs, becomes_halt ha hc hs⟩⟩
  · exact (carve_permitted hc).trans (carveBody_pinned hn hp)
  · exact (carve_permitted hc).trans (carveBody_fills hn hf)
  · exact (carve_permitted hc).trans (carveBody_taken hn hf ht)
  · exact (carve_permitted hc).trans (carveBody_resizes hn hf ht hp)

end Sys2Proof.Machine
end

section
/-!
SUPPORT. Accesses that perform whole or not at all, and what a lane reads at its place (spec/03_operand_stores.md R42, R49,
spec/04_pending_logs.md R55, R61, R68, spec/07_model_far.md R117, R121, spec/24_host_and_fabric.md R365).
-/
namespace Sys2Proof.Machine
open Sys2Proof.Claims

/-! ### Sequences of accesses. -/

section
variable {α β : Type} {x : Perf α} {f : α → Perf β} {m : Memory} {d e : Dev} {a : α}

theorem perf_bind_ok (h : x m d = .ok (a, e)) : (x >>= f) m d = f a m e := by
  simp only [bind, ReaderT.bind, StateT.bind, Except.bind, h]

theorem perf_bind_error {s : Stop} (h : x m d = .error s) : (x >>= f) m d = .error s := by
  simp only [bind, ReaderT.bind, StateT.bind, Except.bind, h]

/-- From the success of a sequence, the success of its parts. -/
theorem perf_bind_inv {b : β} (h : (x >>= f) m d = .ok (b, e)) : ∃ a c, x m d = .ok (a, c) ∧ f a m c = .ok (b, e) := by
  cases hx : x m d with
  | ok r => exact ⟨r.1, r.2, rfl, (perf_bind_ok hx).symm.trans h⟩
  | error s =>
    rw [perf_bind_error hx] at h
    cases h

end

@[simp] theorem devP_run (m : Memory) (d : Dev) : devP m d = .ok (d, d) := rfl
@[simp] theorem updP_run (f : Memory → Dev → Dev) (m : Memory) (d : Dev) : updP f m d = .ok ((), f m d) := rfl
@[simp] theorem liftD_run {α : Type} (f : Memory → Dev → α × Dev) (m : Memory) (d : Dev) : liftD f m d = .ok (f m d) := rfl
@[simp] theorem pureP_run {α : Type} (a : α) (m : Memory) (d : Dev) : (pure a : Perf α) m d = .ok (a, d) := rfl

/-! ### What a lane reads of a store page (R42, R55, R61, R68). -/

/-- POISON at a lane's address (R68). -/
def poisonAt (addr : Nat) : Trap := { cause := cPOISON, addr := w64 (addr / 16 * 16) }

/-- Whether some of the granules of a page's bytes are poisoned (R68). -/
def poisonedBytes (p : Page) (off n : Nat) : Bool := (List.range n).any (fun i => p.poison.getLsbD (granOf (off + i)))

/-- A page that is in its frame. -/
def Resident (p : Page) : Prop := p.st = .pinned ∨ p.st = .unpinned

section
variable {m : Memory} {d : Dev} {t pi off k n addr : Nat}

theorem checkPoison_clean (h : poisonedBytes (pageOf d t pi) off n = false) : checkPoison t pi off n addr m d = .ok ((), d) := by
  unfold poisonedBytes at h
  unfold checkPoison
  rw [perf_bind_ok (devP_run m d), if_neg (ne_true_of_eq_false h), pureP_run]

theorem checkPoison_bad (h : poisonedBytes (pageOf d t pi) off n = true) :
    checkPoison t pi off n addr m d = .error (.trap (poisonAt addr)) := by
  unfold poisonedBytes at h
  unfold checkPoison
  rw [perf_bind_ok (devP_run m d), if_pos h]
  rfl

/-- A read of a page in its frame is its check for poison, then its bytes. -/
theorem pageRead_resident {logs : Bool} (hr : Resident (pageOf d t pi)) : pageRead t pi off n addr logs m d =
    (checkPoison t pi off n addr >>= fun _ => pure (pageBytesAt (pageOf d t pi) off n)) m d := by
  unfold pageRead
  rw [perf_bind_ok (devP_run m d)]
  rcases hr with hr | hr
  · simp only [hr]
  · simp only [hr]

theorem pageRead_clean {logs : Bool} (hr : Resident (pageOf d t pi)) (h : poisonedBytes (pageOf d t pi) off n = false) :
    pageRead t pi off n addr logs m d = .ok (pageBytesAt (pageOf d t pi) off n, d) := by
  rw [pageRead_resident hr, perf_bind_ok (checkPoison_clean h), pureP_run]

theorem pageRead_bad {logs : Bool} (hr : Resident (pageOf d t pi)) (h : poisonedBytes (pageOf d t pi) off n = true) :
    pageRead t pi off n addr logs m d = .error (.trap (poisonAt addr)) := by
  rw [pageRead_resident hr, perf_bind_error (checkPoison_bad h)]

theorem pageRead_filling {logs : Bool} (h : (pageOf d t pi).st = .filling) :
    pageRead t pi off n addr logs m d = .error (.page t pi) := by
  unfold pageRead
  rw [perf_bind_ok (devP_run m d)]
  simp only [h]
  rfl

/-- A read that the page's log does not serve waits for the page (R61). -/
theorem pageRead_unlogged (h : (pageOf d t pi).st = .nonResident) (hl : loadFromLog (pageOf d t pi) off n = none) :
    pageRead t pi off n addr true m d = .error (.page t pi) := by
  unfold pageRead
  rw [perf_bind_ok (devP_run m d)]
  simp only [h, if_true, hl]
  rfl

/-- A read that the page's log serves sees the poison that the fill would bring (R61, R68). -/
theorem pageRead_logged {bs : List Byte} (h : (pageOf d t pi).st = .nonResident)
    (hl : loadFromLog (pageOf d t pi) off n = some bs) : pageRead t pi off n addr true m d =
      if fillPoisons m d t pi off n then .error (.trap (poisonAt addr)) else .ok (bs, d) := by
  unfold pageRead
  rw [perf_bind_ok (devP_run m d)]
  simp only [h, if_true, hl]
  rfl

/-! ### What a lane reads of global memory (R49, R117, R121). -/

theorem linePoison_clean (h : d.poison.contains (lineNo k) = false) : linePoison k addr m d = .ok ((), d) := by
  unfold linePoison
  rw [perf_bind_ok (devP_run m d), if_neg (ne_true_of_eq_false h), pureP_run]

theorem linePoison_bad (h : d.poison.contains (lineNo k) = true) : linePoison k addr m d = .error (.trap (poisonAt addr)) := by
  unfold linePoison
  rw [perf_bind_ok (devP_run m d), if_pos h]
  rfl

theorem mappedReady_resident (hr : Resident (pageOf d t pi)) : mappedReady t pi m d = .ok (true, d) := by
  unfold mappedReady
  rw [perf_bind_ok (devP_run m d)]
  rcases hr with hr | hr
  · simp only [hr, pureP_run]
  · simp only [hr, pureP_run]

section
variable {keep konst : Bool}

/-- A read of a mapped page in its frame is its check for poison, then its store's bytes (R49). -/
theorem readPlace_mapped (hr : Resident (pageOf d t pi)) : readPlace (.mapped t pi off k) n addr keep konst m d =
    (checkPoison t pi off n addr >>= fun _ =>
      liftD (fun m d => (pageBytesAt (pageOf d t pi) off n, mappedSeen m d d.cur.1 k))) m d :=
  (perf_bind_ok (mappedReady_resident hr)).trans rfl

theorem readPlace_mapped_clean (hr : Resident (pageOf d t pi)) (h : poisonedBytes (pageOf d t pi) off n = false) :
    readPlace (.mapped t pi off k) n addr keep konst m d =
      .ok (pageBytesAt (pageOf d t pi) off n, mappedSeen m d d.cur.1 k) := by
  rw [readPlace_mapped hr, perf_bind_ok (checkPoison_clean h), liftD_run]

theorem readPlace_mapped_bad (hr : Resident (pageOf d t pi)) (h : poisonedBytes (pageOf d t pi) off n = true) :
    readPlace (.mapped t pi off k) n addr keep konst m d = .error (.trap (poisonAt addr)) := by
  rw [readPlace_mapped hr, perf_bind_error (checkPoison_bad h)]

theorem readPlace_device (h : d.poison.contains (lineNo k) = false) : readPlace (.device k) n addr keep konst m d =
    (let r := if konst then constRead m d d.cur.1 k n else homeRead m d d.cur.1 addr k n keep
     .ok (r.2, r.1)) :=
  (perf_bind_ok (linePoison_clean h)).trans rfl

theorem readPlace_host (h : d.poison.contains (lineNo k) = false) :
    readPlace (.host k) n addr keep konst m d = .ok (rdBytes m d k n, takeHost d k) :=
  (perf_bind_ok (linePoison_clean h)).trans rfl

theorem readPlace_device_bad (h : d.poison.contains (lineNo k) = true) :
    readPlace (.device k) n addr keep konst m d = .error (.trap (poisonAt addr)) :=
  perf_bind_error (linePoison_bad h)

theorem readPlace_host_bad (h : d.poison.contains (lineNo k) = true) :
    readPlace (.host k) n addr keep konst m d = .error (.trap (poisonAt addr)) :=
  perf_bind_error (linePoison_bad h)

/-- The device's registers are read as they stand (R365). -/
theorem readPlace_reg : readPlace (.reg off) n addr keep konst m d = .ok (natBytes n (regRead d off n).toNat, d) :=
  (perf_bind_ok (devP_run m d)).trans rfl

end
end

/-- Settles O19: each place's read is run to its end, by the states of the page or the line at the place. -/
theorem placesRead : Obligations.PlacesRead := by
  unfold Obligations.PlacesRead
  intro m d t pi off k n addr keep konst
  exact ⟨pageRead_clean, pageRead_bad, pageRead_filling, pageRead_unlogged,
    fun bs h hl => ⟨fun hp => (pageRead_logged h hl).trans (if_neg (ne_true_of_eq_false hp)),
      fun hp => (pageRead_logged h hl).trans (if_pos hp)⟩,
    readPlace_mapped_clean, readPlace_mapped_bad, fun h => ⟨readPlace_device h, readPlace_device h, readPlace_host h⟩,
    fun h => ⟨readPlace_device_bad h, readPlace_host_bad h⟩, readPlace_reg⟩

end Sys2Proof.Machine
end

section
/-!
SUPPORT. Device steps that come from the host, from peers and from links (spec/07_model_far.md R121 to R125,
spec/24_host_and_fabric.md R363, R364, R368 to R373).
-/
namespace Sys2Proof.Machine
open Sys2Proof.Claims

section
variable {s : State} {addr n : Nat} {data : List (BitVec 8)}

/-! ### The host reads and writes (R121, R364). -/

/-- An instruction that waits for the fill of a page is taken up again after it (log 39). -/
theorem becomes_hostRead_later {q : Nat × Nat} (ha : addr + n ≤ 0xC000000000) (hf : fillingIn s.dev addr n = some q) :
    Becomes (.hostRead addr n) s (afterFill s.dev q (.hostRead addr n)) :=
  becomes_of_exec rfl ((if_pos ha).trans (by simp only [hf]))

theorem becomes_hostRead (ha : addr + n ≤ 0xC000000000) (hf : fillingIn s.dev addr n = none) :
    Becomes (.hostRead addr n) s
      (let r := readOutside s.mem s.dev true addr n
       { r.1 with hostResp := r.2.1, hostPoison := r.2.2 }) :=
  becomes_of_exec rfl ((if_pos ha).trans (by simp only [hf]))

/-- Past device memory the host reads its window and the journal (R364). -/
theorem becomes_hostRead_range (ha : 0xC000000000 < addr + n) : Becomes (.hostRead addr n) s
    { s.dev with hostResp := (List.range n).map (fun i => rangeByte s.dev (addr + i)), hostPoison := false } :=
  becomes_of_exec rfl (if_neg (Nat.not_le.2 ha))

section
variable {i : Instr} {peer : Nat} (hi : i = .hostWrite addr data ∨ i = .peerWriteArrival peer addr data)
  (ha : addr + data.length ≤ 0xC000000000)
include hi ha

theorem becomes_outsideWrite_later {q : Nat × Nat} (hf : fillingIn s.dev addr data.length = some q) :
    Becomes i s (afterFill s.dev q i) := by
  rcases hi with rfl | rfl
  · exact becomes_of_exec rfl ((if_pos ha).trans (by simp only [hf]))
  · exact becomes_of_exec rfl ((if_pos ha).trans (by simp only [hf]))

theorem becomes_outsideWrite (hf : fillingIn s.dev addr data.length = none) :
    Becomes i s (writeOutside s.mem s.dev addr data) := by
  rcases hi with rfl | rfl
  · exact becomes_of_exec rfl ((if_pos ha).trans (by simp only [hf]))
  · exact becomes_of_exec rfl ((if_pos ha).trans (by simp only [hf]))

end

section
variable (ha : 0xC000000000 < addr + data.length)
include ha

theorem becomes_peerWrite_range {peer : Nat} : Becomes (.peerWriteArrival peer addr data) s s.dev :=
  becomes_of_exec rfl (if_neg (Nat.not_le.2 ha))

theorem becomes_hostWrite_beyond (hw : ¬ (0xC000000000 ≤ addr ∧ addr + data.length ≤ 0xC000400000)) :
    Becomes (.hostWrite addr data) s s.dev :=
  becomes_of_exec rfl ((if_neg (Nat.not_le.2 ha)).trans (if_neg hw))

theorem becomes_hostWrite_window (hlo : 0xC000000000 ≤ addr) (hhi : addr + data.length ≤ 0xC000400000) :
    Becomes (.hostWrite addr data) s (writeWindow s.dev (addr - 0xC000000000) data) :=
  becomes_of_exec rfl ((if_neg (Nat.not_le.2 ha)).trans (if_pos ⟨hlo, hhi⟩))

end

/-- Below stage 5 the launch window only takes the bytes (R373). -/
theorem writeWindow_idle {d : Dev} {off : Nat} (h : d.regs.stage ≠ 5) : writeWindow d off data =
    { d with window := data.zipIdx.foldl (fun t b => put 0 t (off + b.2) b.1) d.window } := if_neg h

/-- At stage 5 the last byte of a slot triggers its record (R180). -/
theorem writeWindow_triggers {d : Dev} {off : Nat} (h : d.regs.stage = 5) : writeWindow d off data =
    { d with
      window := data.zipIdx.foldl (fun t b => put 0 t (off + b.2) b.1) d.window,
      agenda := ((List.range data.length).filter (fun i => (off + i) % 256 = 255)).map
        (fun i => .event (.launchTrigger ((off + i) / 256))) ++ d.agenda } := by
  refine (if_pos h).trans ?_
  unfold first
  rw [List.map_map]
  rfl

/-! ### What an outside agent may write (R49, R126). -/

theorem outsideWrites_unmapped {d : Dev} {p : Nat × Nat} (h : mappedAt d p.1 = none) : outsideWrites d p = true := by
  rw [outsideWrites, h, Option.all_none]

theorem outsideWrites_mapped {d : Dev} {p : Nat × Nat} {t pi : Nat} (h : mappedAt d p.1 = some (t, pi)) :
    outsideWrites d p = ((pageOf d t pi).mapped.any (·.rw) &&
      !inReplica (setOf d t) (pageOf d t pi).store ((pageOf d t pi).idx * 4096 + p.1 % 4096) p.2) := by
  rw [outsideWrites, h, Option.all_some]

theorem writePiece_refused {m : Memory} {d : Dev} {p : Nat × Nat} (h : outsideWrites d p = false) :
    writePiece m data addr d p = d := if_pos (by rw [h]; rfl)

/-! ### Requests of peers (R123, R369). -/

section
variable {peer : Nat} {rq : PeerReq} {k : Nat} {f : Option (W64 → W64)}

/-- The answer of a request, where it has one (R369). -/
def answerTo (rq : PeerReq) (d : Dev) (bs : List Byte) (bad : Bool) : Dev :=
  if answered rq = true then { d with hostResp := bs, hostPoison := bad } else d

/-- The device once a request at the home has been answered with what stood there before. -/
def answeredAt (s : State) (addr k : Nat) (rq : PeerReq) : Dev :=
  let r := readOutside s.mem s.dev false addr k
  answerTo rq r.1 r.2.1 r.2.2

/-- Whether the work of an answered request is left undone: it is not aligned, its bytes are a mapped page's (log 19), or its line
reads with an error (R123). -/
def RequestRefused (d : Dev) (addr k : Nat) : Prop :=
  addr % k ≠ 0 ∨ (mappedAt d addr).isSome = true ∨ d.poison.contains (lineNo addr) = true

theorem requestRefused_iff {d : Dev} : RequestRefused d addr k ↔
    addr % k ≠ 0 ∨ mappedAt d addr ≠ none ∨ d.poison.contains (addr / 64) = true := by
  rw [RequestRefused, Option.isSome_iff_ne_none]
  rfl

variable (hw : peerWork rq = (k, f))
include hw

theorem becomes_peerRequest_range (ha : 0xC000000000 < addr + k) :
    Becomes (.peerRequestArrival peer addr rq) s (answerTo rq s.dev (List.replicate k 0) false) :=
  becomes_of_exec rfl (by
    rw [hw]
    exact if_pos ha)

section
variable (ha : addr + k ≤ 0xC000000000)
include ha

theorem becomes_peerRequest_later {q : Nat × Nat} (hf : fillingIn s.dev addr k = some q) :
    Becomes (.peerRequestArrival peer addr rq) s (afterFill s.dev q (.peerRequestArrival peer addr rq)) :=
  becomes_of_exec rfl (by
    rw [hw]
    refine (if_neg (Nat.not_lt.2 ha)).trans ?_
    rw [hf])

variable (hf : fillingIn s.dev addr k = none)
include hf

theorem becomes_peerRequest_none (hn : f = none) :
    Becomes (.peerRequestArrival peer addr rq) s (answeredAt s addr k rq) :=
  becomes_of_exec rfl (by
    subst hn
    rw [hw]
    refine (if_neg (Nat.not_lt.2 ha)).trans ?_
    rw [hf]
    rfl)

theorem becomes_peerRequest_refused (hr : RequestRefused (answeredAt s addr k rq) addr k) :
    Becomes (.peerRequestArrival peer addr rq) s (answeredAt s addr k rq) := by
  cases f with
  | none => exact becomes_peerRequest_none hw ha hf rfl
  | some g =>
    refine becomes_of_exec rfl ?_
    rw [hw]
    refine (if_neg (Nat.not_lt.2 ha)).trans ?_
    rw [hf]
    exact if_pos hr

section
variable {g : W64 → W64} (hg : f = some g) (hr : ¬ RequestRefused (answeredAt s addr k rq) addr k)
include hg hr

theorem becomes_peerRequest_put (hc : addsCount rq = none) : Becomes (.peerRequestArrival peer addr rq) s
    (externalStamp (homeWrite s.mem (answeredAt s addr k rq) whoEngine addr
      (leBytes k (g (leWord (readOutside s.mem s.dev false addr k).2.1)))) addr) :=
  becomes_of_exec rfl (by
    subst hg
    rw [hw]
    refine (if_neg (Nat.not_lt.2 ha)).trans ?_
    rw [hf]
    refine (if_neg hr).trans ?_
    rw [hc]
    rfl)

theorem becomes_peerRequest_count {v : W64} (hc : addsCount rq = some v) : Becomes (.peerRequestArrival peer addr rq) s
    (let d1 := answeredAt s addr k rq
     let d2 := counterAdd s.mem d1 whoEngine addr v d1.xstamp true
     { d2 with xstamp := max d2.xstamp (lineOf d2 (addr / 64)).wts }) :=
  becomes_of_exec rfl (by
    subst hg
    rw [hw]
    refine (if_neg (Nat.not_lt.2 ha)).trans ?_
    rw [hf]
    refine (if_neg hr).trans ?_
    rw [hc]
    rfl)

end
end
end

/-! ### Acknowledgements and answers of peers (R124, R125, R369, log 45). -/

section
variable {w peer : Nat} {vs : List (BitVec 64)}

/-- Over a link that is not open nothing comes (log 45). -/
theorem becomes_peerAcknowledgement_shut (hl : linkOpen s.dev peer = false) :
    Becomes (.peerAcknowledgement w peer vs) s s.dev :=
  becomes_of_exec rfl (if_pos (by rw [hl]; rfl))

theorem becomes_peerTakes (hl : linkOpen s.dev peer = true) :
    Becomes (.peerAcknowledgement w peer []) s (peerTakes s.mem s.dev w peer) :=
  becomes_of_exec rfl (if_neg (by rw [hl]; exact Bool.false_ne_true))

theorem becomes_peerAnswers {v : BitVec 64} (hl : linkOpen s.dev peer = true) :
    Becomes (.peerAcknowledgement w peer (v :: vs)) s (peerAnswers s.mem s.dev w peer (v :: vs)) :=
  becomes_of_exec rfl (if_neg (by rw [hl]; exact Bool.false_ne_true))

theorem peerTakes_nothing {m : Memory} {d : Dev} (h : (sentHeads d peer).filter (fun x => sentBy d x == w) = []) :
    peerTakes m d w peer = d := by
  unfold peerTakes
  simp only [h, List.getElem?_nil]

/-- Of the heads of a wave's channels one is acknowledged (log 1). -/
theorem peerTakes_head {m : Memory} {d : Dev} (h : (sentHeads d peer).filter (fun x => sentBy d x == w) ≠ []) :
    ∃ x ∈ (sentHeads d peer).filter (fun x => sentBy d x == w), peerTakes m d w peer = acknowledge m d x := by
  have hlt := Nat.mod_lt (Config.freeChoice d.tick / 2 ^ 20) (List.length_pos_iff.2 h)
  refine ⟨_, List.getElem_mem hlt, ?_⟩
  unfold peerTakes
  simp only [List.getElem?_eq_getElem hlt]

/-- The oldest entry to a peer in one of its channels. -/
theorem find_channel {l : List Sent} {x : Sent} {c : Bool} :
    (l.filter (fun y => y.peer == peer)).find? (fun y => isPost y == c) = some x ↔
      isPost x = c ∧ ∃ a r, l = a ++ x :: r ∧ x.peer = peer ∧ ∀ y ∈ a, y.peer = peer → isPost y ≠ c := by
  rw [List.find?_filter, List.find?_eq_some_iff_append]
  simp only [Bool.decide_and, Bool.and_eq_true, beq_iff_eq, Bool.not_eq_true', Bool.and_eq_false_imp, decide_eq_true_eq,
    decide_eq_false_iff_not]
  constructor
  · rintro ⟨⟨hp, hc⟩, a, r, hl, ha⟩
    exact ⟨hc, a, r, hl, hp, ha⟩
  · rintro ⟨hc, a, r, hl, hp, ha⟩
    exact ⟨⟨hp, hc⟩, a, r, hl, ha⟩

theorem sentHeads_eq (d : Dev) (peer : Nat) : sentHeads d peer = [true, false].flatMap (fun c =>
    ((d.sent.filter (fun y => y.peer == peer)).find? (fun y => isPost y == c)).toList) := by
  simp [sentHeads]

/-- The heads of the two channels to a peer: the entries with none of their channel before them (R123, R369). -/
theorem mem_sentHeads {d : Dev} {x : Sent} : x ∈ sentHeads d peer ↔
    ∃ a r, d.sent = a ++ x :: r ∧ x.peer = peer ∧ ∀ y ∈ a, y.peer = peer → isPost y ≠ isPost x := by
  simp only [sentHeads_eq, List.mem_flatMap, Option.mem_toList, find_channel]
  constructor
  · rintro ⟨c, -, rfl, h⟩
    exact h
  · intro h
    exact ⟨isPost x, by cases isPost x <;> simp, rfl, h⟩

section
variable {m : Memory} {d : Dev} {x : Sent}

theorem acknowledge_write {v : Nat} (h : x.who = .write v) : acknowledge m d x =
    let d0 := { d with sent := d.sent.erase x }
    lateBreaks m (setWave d0 v (wakeAck { waveOf d v with
      posted := put 0 (waveOf d v).posted x.peer (look 0 (waveOf d v).posted x.peer - 1) })) v := by
  unfold acknowledge
  rw [h]
  rfl

theorem acknowledge_copy {i : Nat} {c : Copy} (h : x.who = .copy i) (hc : copyAt d i = some c) : acknowledge m d x =
    setCopy { d with sent := d.sent.erase x } i { c with posted := put 0 c.posted x.peer (look 0 c.posted x.peer - 1) } := by
  have hc' : copyAt { d with sent := d.sent.erase x } i = some c := hc
  unfold acknowledge
  rw [h]
  simp only [hc']

/-- A split that waits for an answer sees that its request has been taken (R125). -/
theorem acknowledge_request {v i : Nat} (h : x.who = .request v i) (hp : (splitOf (waveOf d v) i).park = .peer (2 * x.peer)) :
    acknowledge m d x = modSplit { d with sent := d.sent.erase x } v i (fun q => { q with park := .peer (2 * x.peer + 1) }) := by
  unfold acknowledge
  rw [h]
  exact if_pos hp

/-- What a peer's answer finds: the requests of the wave that the peer's link layer is to acknowledge first are acknowledged, and then
a split of the wave whose request has been (R125, R369). -/
def answerTarget (m : Memory) (d : Dev) (w peer : Nat) : Dev × Option (Nat × Nat) :=
  let d1 := ((sentHeads d peer).filter (fun x => !isPost x && sentBy d x == w)).foldl (acknowledge m) d
  (d1, (awaiting d1 [peer]).find? (fun p => p.1 == w && (splitOf (waveOf d1 p.1) p.2).park == .peer (2 * peer + 1)))

theorem peerAnswers_some {p : Nat × Nat} (h : (answerTarget m d w peer).2 = some p) : peerAnswers m d w peer vs =
    modSplit (answerTarget m d w peer).1 w p.2 (fun q => { q with park := .running, ans := some (answerRow peer vs) }) := by
  unfold answerTarget at h
  dsimp only at h
  unfold peerAnswers
  simp only [h]
  rfl

theorem peerAnswers_none (h : (answerTarget m d w peer).2 = none) : peerAnswers m d w peer vs = d := by
  unfold answerTarget at h
  dsimp only at h
  unfold peerAnswers
  simp only [h]

end
end

/-! ### Links (R370, R371). -/

section
variable {port : Nat}

theorem becomes_linkRetrainStart_idle (h : ¬ (portState s.dev port = 2 ∨ portState s.dev port = 4)) :
    Becomes (.linkRetrainStart port) s s.dev :=
  becomes_of_exec rfl (if_neg h)

theorem becomes_linkRetrainStart (h : portState s.dev port = 2 ∨ portState s.dev port = 4) :
    Becomes (.linkRetrainStart port) s (train s.dev port 3) :=
  becomes_of_exec rfl (if_pos h)

theorem inTraining_iff {d : Dev} : inTraining d port = true ↔ portState d port = 1 ∨ portState d port = 3 := by
  simp [inTraining]

theorem retrainLate_iff {d : Dev} : retrainLate d port = true ↔ look 0 d.regs.retrainStart port + 72000 < d.cycle := by
  rw [retrainLate, decide_eq_true_eq]
  rfl

/-- A port's training ends on its lanes, on the spare lane, or, with two lanes gone for good, not at all (R371, R379). -/
theorem trained_eq (d : Dev) (port : Nat) (spare : Bool) : trained d port spare =
    if 2 ≤ look 0 d.lastingAt (faultKey (.linkLane port)) then 0
    else if spare = true ∨ look 0 d.lastingAt (faultKey (.linkLane port)) = 1 then 4 else 2 := by
  simp only [trained, Bool.or_eq_true, decide_eq_true_eq]
  rfl

theorem becomes_linkRetrainComplete {spare : Bool} (ht : inTraining s.dev port = true) (hl : retrainLate s.dev port = false) :
    Becomes (.linkRetrainComplete port spare) s (setPort s.dev port (trained s.dev port spare)) :=
  becomes_of_exec rfl (if_pos (by rw [ht, hl]; rfl))

theorem becomes_linkRetrainComplete_idle {spare : Bool} (h : inTraining s.dev port = false ∨ retrainLate s.dev port = true) :
    Becomes (.linkRetrainComplete port spare) s s.dev :=
  becomes_of_exec rfl (if_neg (by rcases h with h | h <;> simp [h]))

theorem becomes_portDown (ht : inTraining s.dev port = true) (hl : retrainLate s.dev port = true) :
    Becomes (.portDown port) s (portFails s.mem s.dev port) :=
  becomes_of_exec rfl (if_pos (by rw [ht, hl]; rfl))

theorem becomes_portDown_idle (h : inTraining s.dev port = false ∨ retrainLate s.dev port = false) :
    Becomes (.portDown port) s s.dev :=
  becomes_of_exec rfl (if_neg (by rcases h with h | h <;> simp [h]))

end
end

/-- Settles O39: each step answers what its function answers, by the cases that the function tells apart. -/
theorem outsideSteps : Obligations.OutsideSteps := by
  unfold Obligations.OutsideSteps
  intro s addr n port peer w data rq
  refine ⟨fun ha => ⟨becomes_hostRead ha, fun q => becomes_hostRead_later ha⟩, becomes_hostRead_range,
    fun i hi ha => ⟨becomes_outsideWrite hi ha, fun q => becomes_outsideWrite_later hi ha⟩,
    fun ha => ⟨becomes_peerWrite_range ha, becomes_hostWrite_beyond ha, fun hlo hhi => ⟨fun hs => ?_, fun hs => ?_⟩⟩,
    fun p => ⟨outsideWrites_unmapped, fun t pi => outsideWrites_mapped, writePiece_refused⟩, becomes_of_exec rfl rfl,
    fun k f hw => ⟨becomes_peerRequest_range hw, fun q ha => becomes_peerRequest_later hw ha, fun ha hf => ⟨fun hr => ?_,
      fun g hg hk hm hp => ?_⟩⟩, fun t x v c => ⟨rfl, rfl, rfl, rfl, rfl, rfl, rfl, rfl, rfl, rfl, rfl⟩,
    fun vs => becomes_peerAcknowledgement_shut, fun hl => ⟨fun hs => ?_, fun hs => ?_⟩, fun x => mem_sentHeads,
    fun x => ⟨fun v => acknowledge_write, fun i c => acknowledge_copy, fun v i => acknowledge_request⟩,
    fun v vs hl => ⟨fun p hp => ?_, fun hn => ?_⟩, becomes_of_exec rfl rfl,
    ⟨becomes_linkRetrainStart_idle, becomes_linkRetrainStart⟩,
    fun spare => ⟨fun ht => ?_, fun ht hl => ?_, fun ht hl => ?_⟩⟩
  · exact writeWindow_idle hs ▸ becomes_hostWrite_window ha hlo hhi
  · exact writeWindow_triggers hs ▸ becomes_hostWrite_window ha hlo hhi
  · rcases hr with hr | hr
    · exact becomes_peerRequest_none hw ha hf hr
    · exact becomes_peerRequest_refused hw ha hf (requestRefused_iff.2 hr)
  · have hr : ¬ RequestRefused (answeredAt s addr k rq) addr k := by
      rw [requestRefused_iff]
      rintro (h | h | h)
      · exact h hk
      · exact h hm
      · exact ne_true_of_eq_false hp h
    exact ⟨becomes_peerRequest_put hw ha hf hg hr, fun v => becomes_peerRequest_count hw ha hf hg hr⟩
  · exact peerTakes_nothing hs ▸ becomes_peerTakes hl
  · obtain ⟨x, hx, he⟩ := peerTakes_head (m := s.mem) hs
    exact ⟨x, hx, he ▸ becomes_peerTakes hl⟩
  · exact peerAnswers_some hp ▸ becomes_peerAnswers hl
  · exact peerAnswers_none hn ▸ becomes_peerAnswers hl
  · rw [← inTraining_iff, Bool.not_eq_true] at ht
    exact ⟨becomes_linkRetrainComplete_idle (.inl ht), becomes_portDown_idle (.inl ht)⟩
  · rw [← inTraining_iff] at ht
    rw [← retrainLate_iff, Bool.not_eq_true] at hl
    exact ⟨trained_eq s.dev port spare ▸ becomes_linkRetrainComplete ht hl, becomes_portDown_idle (.inr hl)⟩
  · rw [← inTraining_iff] at ht
    rw [← retrainLate_iff] at hl
    exact ⟨becomes_linkRetrainComplete_idle (.inr hl), becomes_portDown ht hl⟩

end Sys2Proof.Machine
end

section
/-!
SUPPORT. Loads and stores, and the parts in which their lanes perform (spec/03_operand_stores.md R42, spec/04_pending_logs.md R65,
R68, spec/07_model_far.md R125, spec/12_traps_preemption.md R198, spec/15_isa_memory.md R262 to R267).
-/
namespace Sys2Proof.Machine
open Sys2Proof.Claims

/-! ### The parts of an instruction (R42, R65, R68, R125, R198). -/

section
variable {m : Memory} {d d1 : Dev} {p : Part} {ps r : List Part}

/-- A search that its first elements do not answer ends at the next one. -/
theorem findSome_append_none {α β : Type} {f : α → Option β} {a b : List α} {x : β} (ha : ∀ q ∈ a, f q = none)
    (hb : b.head?.bind f = some x) : (a ++ b).findSome? f = some x := by
  rw [List.findSome?_append, List.findSome?_eq_none_iff.2 ha, Option.none_or]
  cases b with
  | nil => cases hb
  | cons c b => rw [List.findSome?_cons, show f c = some x from hb]

/-- The first part that would trap decides the cause; INFO2 holds the lanes of all that would with it (R198, R263). -/
theorem needParts_error {t : Trap} (h : ps.findSome? (partTrap m d) = some t) : runAct (needParts ps) m d = .error { t with
    info2 := maskOf ((ps.filter (fun q => (partTrap m d q).any (fun x => x.cause == t.cause))).flatMap (·.lanes)) } := by
  unfold runAct needParts
  simp only [h]

theorem needParts_ok (h : ∀ q ∈ ps, partTrap m d q = none) : runAct (needParts ps) m d = .ok ((), d) := by
  unfold runAct needParts
  simp only [List.findSome?_eq_none_iff.2 h]

/-- A part that this device serves has performed once it runs. -/
theorem performParts_served (hp : p.peer = none) {vals : List (Nat × W64)} (h : p.run m d = .ok (vals, d1)) :
    runAct (performParts (p :: r)) m d = runAct (performParts r) m (servePart d1 p vals) := by
  have hrun : runAct (perform p.run) m d = .ok (some vals, d1) := by
    unfold runAct perform
    simp only [h]
  rw [performParts, hp]
  dsimp only
  rw [runAct_bind_ok hrun, runAct_bind_ok (runAct_upd _ _ _)]

/-- A part that waits for a page ends the issue (R42). -/
theorem performParts_page (hp : p.peer = none) {t pi : Nat} (h : p.run m d = .error (.page t pi))
    (ha : Runs (awaitPage t pi) m d () d1) : Runs (performParts (p :: r)) m d false (forcePage d1 t pi) := by
  have hrun : runAct (perform p.run) m d = .ok (none, forcePage d1 t pi) := by
    unfold runAct perform
    simp only [h]
    refine (runAct_bind_ok ha).trans ?_
    rw [runAct_bind_ok (runAct_upd _ _ _), runAct_pure]
  rw [Runs, performParts, hp]
  dsimp only
  rw [runAct_bind_ok hrun, runAct_pure]

/-- A part for a peer asks it, and parks (R125). -/
theorem performParts_asks {n : Nat} (hp : p.peer = some n) (ha : (mySplit d).ans = none) :
    Runs (performParts (p :: r)) m d false (let e := sendTo d n (.request d.cur.1 d.cur.2)
      setMySplit e { mySplit e with park := .peer (2 * n) }) := by
  rw [Runs, performParts, hp]
  dsimp only
  rw [runAct_bind_ok (runAct_dev _ _), ha]
  rfl

/-- A part for a peer takes the answer that has come (R125). -/
theorem performParts_answered {n : Nat} {a : Row} (hp : p.peer = some n) (ha : (mySplit d).ans = some a) :
    Runs (performParts (p :: r)) m d r.isEmpty (let e := servePart d p (p.answer a)
      setMySplit e { mySplit e with ans := none }) := by
  rw [Runs, performParts, hp]
  dsimp only
  rw [runAct_bind_ok (runAct_dev _ _), ha]
  rfl

theorem partsPerform : Claims.PartsPerform := by
  intro m d p r
  refine ⟨fun t a b he ha hb => ?_, needParts_ok, rfl, fun hp vals d1 => performParts_served hp,
    fun hp t pi d1 => performParts_page hp, fun n => performParts_asks, fun n a => performParts_answered⟩
  exact needParts_error (he ▸ findSome_append_none ha hb)

end

/-! ### Words in parts. -/

/-- A word that ends in its parts: a trap of one is its trap, it retires once all have performed, and else it stays. -/
theorem inParts_of {i : Instr} {h : Head} {s : State} {d : Dev} {body : Act Verdict} {ps : List Part} {done : Row → Act Verdict}
    {goal : Row → Dev → Dev → Prop} (hx : exec i s = runA i h body s) (ha : Admitted i [] s)
    (hb : runAct body s.mem s.dev = runAct (inParts ps done) s.mem d)
    (hd : ∀ r e e1, goal r e e1 → Runs (done r) s.mem e .retire e1) : Claims.InParts i h s d ps goal := by
  refine ⟨fun t ht => traps_of hx ha ?_, fun hn => ⟨fun e e1 hp hg => retires_of hx ha ?_, fun e hp => stays_of hx ha ?_⟩⟩
  · rw [hb, inParts, runAct_bind_error ht]
  · rw [hb, inParts, runAct_bind_ok hn, runAct_bind_ok hp, if_pos rfl, runAct_bind_ok (runAct_dev _ _)]
    exact hd _ _ _ hg
  · rw [hb, inParts, runAct_bind_ok hn, runAct_bind_ok hp, if_neg Bool.false_ne_true, runAct_pure]

/-- An instruction that has room for what it pushes goes on (R173). -/
theorem roomFor_ok {code : BitVec 8} {n : Nat} {m : Memory} {d : Dev} (h : opd code = .qd → (mySplit d).qd.length + n ≤ 16) :
    runAct (roomFor code n) m d = .ok ((), d) := by
  unfold roomFor
  rw [runAct_bind_ok (runAct_dev _ _)]
  split
  · next hq => rw [decide_eq_true (h hq), runAct_need_true]
  · rfl

/-! ### Addresses of lanes (R215, R267). -/

theorem w64_toNat (v : W64) : w64 v.toNat = v := BitVec.ofNat_toNat .. |>.trans (BitVec.setWidth_eq v)

/-- The effective address of a lane: its base and the sign-extended offset (R215). -/
theorem runs_laneAddr {base : BitVec 8} {off : BitVec 16} {lanes : W32} {m : Memory} {d e : Dev} {src : Src}
    (h : Runs (takeSrc .n64 lanes base) m d src e) : ∃ ea, Runs (laneAddr base off lanes) m d ea e ∧
      ∀ l, ea l = valA (me e) (mySplit e) src l + off.signExtend 64 :=
  ⟨_, (runAct_bind_ok h).trans rfl, fun _ => w64_toNat _⟩

/-! ### Loads (R262, R266). -/

section
variable {h : Head} {d : BitVec 8} {t : Ty} {two : Bool} {sp : Space} {keep : Bool} {addrs : W32 → Act (Nat → W64)}

/-- A load's body, once its places have been checked. -/
theorem loadOp_checked {s : State} {m : W32} {ea : Nat → W64} {ps : List (Nat × Place)} {d0 d1 d2 : Dev}
    (hm : Runs (acting h false) s.mem s.dev m d0) (he : Runs (addrs m) s.mem d0 ea d1)
    (hq : opd d = .qd → (mySplit d1).qd.length + (if two then 2 else 1) ≤ 16)
    (hc : Runs (checkLanes (unserved d1 m) (fun l => checkPlace sp
      { acc := .read, size := tyBytes t * (if two then 2 else 1), posted := (mySplit d1).ans.isSome } (ea l).toNat))
      s.mem d1 ps d2) :
    runAct (loadOp h d t two sp keep addrs) s.mem s.dev =
      runAct (inParts (loadParts t two (tyBytes t * (if two then 2 else 1)) keep (sp == .k) ea ps) (fun r => do
        loadDst t m d (lane r)
        if two then loadDst t m (nextCode d) (fun l => lane r (l + 32)) else pure ()
        pure .retire)) s.mem d2 := by
  unfold loadOp
  rw [runAct_bind_ok hm, runAct_bind_ok he, runAct_bind_ok (roomFor_ok hq), runAct_bind_ok (runAct_dev _ _)]
  exact runAct_bind_ok hc

theorem loadResult_of {i : Instr} (hx : ∀ s, exec i s = runA i h (loadOp h d t two sp keep addrs) s) :
    Claims.LoadResult i h d t two sp keep addrs := by
  intro s m ea ps d0 d1 d2
  dsimp only
  intro ha hm he hq hc
  refine inParts_of (hx s) ha (loadOp_checked hm he hq hc) fun r e e1 hg => ?_
  obtain ⟨e2, h2, h1⟩ := hg
  unfold Runs
  rw [runAct_bind_ok h2]
  cases two with
  | true => exact (runAct_bind_ok h1).trans rfl
  | false => exact h1 ▸ rfl

end

theorem loadWords : Claims.Loads := by
  intro h f
  exact ⟨loadResult_of fun _ => rfl, loadResult_of fun _ => rfl, fun m d lanes src e => runs_laneAddr⟩

/-! ### Stores (R160, R266). -/

/-- The second source of a two-element store (R266): the next entry of qv, or the next register. -/
def secondSrc (two : Bool) (lanes : W32) (code : BitVec 8) (s0 : Src) : Act Src :=
  match opd code with
  | .qv => if two then takeSrc .n64 lanes code else pure s0
  | _ => if two then takeSrc .n64 lanes (nextCode code) else pure s0

/-- An action that is run only under a condition. -/
theorem runs_ite {α : Type} {c : Bool} {x : Act α} {m : Memory} {d e : Dev} {a b : α}
    (h : if c then Runs x m d b e else b = a ∧ e = d) : Runs (if c then x else pure a) m d b e := by
  cases c with
  | true => exact h
  | false =>
    obtain ⟨rfl, rfl⟩ := h
    rfl

theorem runs_secondSrc {two : Bool} {lanes : W32} {code : BitVec 8} {s0 s1 : Src} {m : Memory} {d e : Dev}
    (h : if two then Runs (takeSrc .n64 lanes (if opd code = .qv then code else nextCode code)) m d s1 e else s1 = s0 ∧ e = d) :
    Runs (secondSrc two lanes code s0) m d s1 e := by
  unfold secondSrc
  split
  · next hq =>
    rw [if_pos hq] at h
    exact runs_ite h
  · next hq =>
    rw [if_neg hq] at h
    exact runs_ite h

section
variable {h : Head} {d : BitVec 8} {t : Ty} {two : Bool} {sp : Space} {addrs : W32 → Act (Nat → W64)}

/-- The bytes that a lane stores: its element, or two (R266). -/
def laneBytes (dv : Dev) (t : Ty) (two : Bool) (s0 s1 : Src) (l : Nat) : List Byte :=
  let val := fun (src : Src) => storeBytes t (valT (me dv) (mySplit dv) t src l)
  if two then val s0 ++ val s1 else val s0

/-- The parts of a store: each lane by itself (R266). -/
def storeParts (dv : Dev) (t : Ty) (two : Bool) (s0 s1 : Src) (ps : List (Nat × Place)) : List Part :=
  ps.map (fun p => { lanes := [p.1], run := do
    writePlace p.2 t (laneBytes dv t two s0 s1 p.1)
    pure [] })

/-- A store's body, once its places have been checked: an ordering operation where a lane would go to a log in FO mode (R160). -/
theorem storeOp_checked {s : State} {m : W32} {s0 s1 : Src} {ea : Nat → W64} {ps : List (Nat × Place)} {d0 d1 d2 d3 d4 : Dev}
    (hm : Runs (acting h false) s.mem s.dev m d0) (h0 : Runs (takeSrc .n64 m d) s.mem d0 s0 d1)
    (h1 : Runs (secondSrc two m d s0) s.mem d1 s1 d2) (he : Runs (addrs m) s.mem d2 ea d3)
    (hc : Runs (checkLanes (unserved d3 m) (fun l => checkPlace sp
      { acc := .write, size := tyBytes t * (if two then 2 else 1), writes := true, posted := true } (ea l).toNat))
      s.mem d3 ps d4) :
    runAct (storeOp h d t two sp addrs) s.mem s.dev =
      let go := inParts (storeParts d3 t two s0 s1 ps) (fun _ => pure .retire)
      runAct (if (me d3).fo && ps.any (fun p => wouldLog d3 p.2) then ordering go else go) s.mem d4 := by
  have hbytes : ∀ l, storeBytes t (valT (me d3) (mySplit d3) t s0 l) ++
      (if two then storeBytes t (valT (me d3) (mySplit d3) t s1 l) else []) = laneBytes d3 t two s0 s1 l := by
    intro l
    cases two with
    | true => rfl
    | false => exact List.append_nil _
  unfold storeOp
  rw [runAct_bind_ok hm, runAct_bind_ok h0]
  refine (runAct_bind_ok h1).trans ?_
  rw [runAct_bind_ok he, runAct_bind_ok (runAct_dev _ _), runAct_bind_ok hc]
  simp only [hbytes]
  rfl

end

theorem storeResult_of {i : Instr} {h : Head} {f : FmtM} {two : Bool} {sp : Space} {addrs : W32 → Act (Nat → W64)}
    (hx : ∀ s, exec i s = runA i h (storeOp h f.d (ty f.sz) two sp addrs) s) : Claims.StoreResult i h f two sp addrs := by
  intro s m s0 s1 ea ps d0 d1 d2 d3 d4 d5
  dsimp only
  intro ha hm h0 h1 he hc ho
  exact inParts_of (ps := storeParts d3 (ty f.sz) two s0 s1 ps) (hx s) ha
    ((storeOp_checked hm h0 (runs_secondSrc h1) he hc).trans (orderedIf_of ho)) fun r e e1 hg => hg ▸ rfl

theorem storeWords : Claims.Stores := by
  intro h f
  exact ⟨storeResult_of fun _ => rfl, storeResult_of fun _ => rfl⟩

/-- Settles O52: a load or a store runs through its checks to its parts, and the parts perform one after another. -/
theorem loadsAndStores : Obligations.LoadsAndStores := ⟨partsPerform, loadWords, storeWords⟩

end Sys2Proof.Machine
end

section
/-!
SUPPORT. Full/empty accesses (spec/03_operand_stores.md R45 to R47, spec/15_isa_memory.md R268 to R270): from the checked places
of a word to its effects, and what a granule that becomes full or empty leaves of its page.
-/
namespace Sys2Proof.Machine
open Sys2Proof.Claims

/-! ### Words from their checked places on. -/

section
variable {h : Head} {f : FmtM} {s : State} {m : W32} {ea : Nat → W64} {d0 d1 d2 d3 : Dev}

/-- How an `ldfe` that has its values ends: it writes them, and where a lane took one it is an acquire (log 17). -/
def ldfeDone (f : FmtM) (m : W32) (r : Row) : Act Verdict := do
  loadDst (ty f.sz) m f.d (lane r)
  if m = 0 then pure () else upd (fun d => emptyLeases d d.cur.1)
  pure .retire

/-- What an `ldfe` does at its checked places: it serves what it can and waits for the rest (R46). -/
def ldfeServe (f : FmtM) (m : W32) (ea : Nat → W64) (ps : List (Nat × Place)) : Act Verdict := do
  let ws := wantsOf ps (tyBytes (ty f.sz))
  needParts (wantParts ws (fun l => (ea l).toNat))
  let d1 ← dev
  upd (fun d => serveWants d (f.q == 1) ws)
  let d2 ← dev
  match ws.filter (fun w => !wantReady d1 w) with
  | [] => ldfeDone f m (mySplit d2).servedVals
  | rest => waitGranules (f.q == 1) rest

/-- The body of an `ldfe`, from its operands on. -/
def ldfeBody (f : FmtM) (m : W32) (ea : Nat → W64) : Act Verdict := do
  let d ← dev
  match (mySplit d).ans with
  | some r => ldfeDone f m r
  | none =>
    let ps ← checkLanes (unserved d m) (fun l =>
      checkPlace (spaceM f.sp) { acc := .read, size := tyBytes (ty f.sz) } (ea l).toNat)
    if ps.isEmpty then ldfeDone f m (mySplit d).servedVals else ordering (ldfeServe f m ea ps)

theorem exec_ldfe (h : Head) (f : FmtM) (s : State) : exec (.ldfe h f) s = runA (.ldfe h f) h (do
    let m ← acting h false
    let ea ← laneAddr f.base f.off m
    roomFor f.d 1
    ldfeBody f m ea) s := rfl

section
variable {mem : Memory} {d e : Dev} {r : Row} {ps : List (Nat × Place)}

theorem ldfeDone_ok (hl : Runs (loadDst (ty f.sz) m f.d (lane r)) mem d () e) :
    runAct (ldfeDone f m r) mem d = .ok (.retire, if m = 0 then e else emptyLeases e e.cur.1) := by
  rw [ldfeDone, runAct_bind_ok hl]
  by_cases hm : m = 0
  · rw [if_pos hm, if_pos hm]
    rfl
  · rw [if_neg hm, if_neg hm]
    rfl

/-- An `ldfe` that has been woken has its values (R46). -/
theorem ldfeBody_answered (ha : (mySplit d).ans = some r) : runAct (ldfeBody f m ea) mem d = runAct (ldfeDone f m r) mem d := by
  rw [ldfeBody, runAct_bind_ok (runAct_dev _ _), ha]

section
variable (ha : (mySplit d).ans = none) (hc : Runs (checkLanes (unserved d m) (fun l =>
  checkPlace (spaceM f.sp) { acc := .read, size := tyBytes (ty f.sz) } (ea l).toNat)) mem d ps e)
include ha hc

/-- With no lane left to serve an `ldfe` ends. -/
theorem ldfeBody_served (hp : ps = []) :
    runAct (ldfeBody f m ea) mem d = runAct (ldfeDone f m (mySplit d).servedVals) mem e := by
  rw [ldfeBody, runAct_bind_ok (runAct_dev _ _), ha]
  refine (runAct_bind_ok hc).trans ?_
  rw [hp]
  rfl

/-- With lanes left an `ldfe` is an ordering operation (R160). -/
theorem ldfeBody_ordered {d1 : Dev} (hp : ps ≠ []) (ho : Claims.Ordered mem e d1) :
    runAct (ldfeBody f m ea) mem d = runAct (ldfeServe f m ea ps) mem d1 := by
  rw [ldfeBody, runAct_bind_ok (runAct_dev _ _), ha]
  refine (runAct_bind_ok hc).trans ?_
  rw [if_neg (by rwa [List.isEmpty_iff])]
  exact ordered_of ho _

end

section
variable (hn : Runs (needParts (wantParts (wantsOf ps (tyBytes (ty f.sz))) (fun l => (ea l).toNat))) mem d () d)
include hn

/-- With every granule full an `ldfe` takes its values (R46). -/
theorem ldfeServe_full (hr : (wantsOf ps (tyBytes (ty f.sz))).filter (fun w => !wantReady d w) = []) :
    runAct (ldfeServe f m ea ps) mem d =
      let d1 := serveWants d (f.q == 1) (wantsOf ps (tyBytes (ty f.sz)))
      runAct (ldfeDone f m (mySplit d1).servedVals) mem d1 := by
  unfold ldfeServe
  dsimp only
  rw [runAct_bind_ok hn, runAct_bind_ok (runAct_dev _ _), runAct_bind_ok (runAct_upd _ _ _), runAct_bind_ok (runAct_dev _ _), hr]

/-- The lanes whose granules are not full wait (R46). -/
theorem ldfeServe_waits (hr : (wantsOf ps (tyBytes (ty f.sz))).filter (fun w => !wantReady d w) ≠ []) :
    runAct (ldfeServe f m ea ps) mem d =
      runAct (waitGranules (f.q == 1) ((wantsOf ps (tyBytes (ty f.sz))).filter (fun w => !wantReady d w))) mem
        (serveWants d (f.q == 1) (wantsOf ps (tyBytes (ty f.sz)))) := by
  unfold ldfeServe
  dsimp only
  rw [runAct_bind_ok hn, runAct_bind_ok (runAct_dev _ _), runAct_bind_ok (runAct_upd _ _ _), runAct_bind_ok (runAct_dev _ _)]
  split
  · next he => exact absurd he hr
  · rfl

end

section
variable {clr : Bool} {rest : List Want}
  (hg : Runs ((rest.filter (fun w => !wantHere d w)).forM (fun w => awaitPage w.set w.pg)) mem d () e)
include hg

/-- In FO mode an `ldfe` waits in its place for pages that are not there (R161, log 17). -/
theorem waitGranules_stays (hfo : (me d).fo = true) (hgone : rest.filter (fun w => !wantHere d w) ≠ []) :
    runAct (waitGranules clr rest) mem d = .ok (.stay, e) := by
  unfold waitGranules
  rw [runAct_bind_ok (runAct_dev _ _)]
  dsimp only
  rw [runAct_bind_ok hg, if_pos (by rw [hfo, List.isEmpty_eq_false_iff.2 hgone]; rfl), runAct_pure]

/-- Else it parks at its granules, in order of arrival (R46). -/
theorem waitGranules_parks (hfo : (me d).fo = false ∨ rest.filter (fun w => !wantHere d w) = []) :
    runAct (waitGranules clr rest) mem d =
      .ok (.stay, setMySplit { e with seq := e.seq + 1 } { mySplit e with park := .ldfe d.seq clr rest }) := by
  unfold waitGranules
  rw [runAct_bind_ok (runAct_dev _ _)]
  dsimp only
  rw [runAct_bind_ok hg, if_neg (by rcases hfo with hfo | hfo <;> simp [hfo]), runAct_bind_ok (runAct_upd _ _ _)]
  rfl

end
end

/-! ### `ldfe`: how the word ends (R46, R268). -/

section
variable (ha : Admitted (.ldfe h f) [] s) (hm : Runs (acting h false) s.mem s.dev m d0)
  (he : Runs (laneAddr f.base f.off m) s.mem d0 ea d1) (hroom : opd f.d = .qd → (mySplit d1).qd.length + 1 ≤ 16)
include ha hm he hroom

omit ha in
/-- An `ldfe` takes its operands, and goes on to its places. -/
theorem ldfe_runs : runAct (do
    let m ← acting h false
    let ea ← laneAddr f.base f.off m
    roomFor f.d 1
    ldfeBody f m ea) s.mem s.dev = runAct (ldfeBody f m ea) s.mem d1 := by
  rw [runAct_bind_ok hm, runAct_bind_ok he, runAct_bind_ok (roomFor_ok hroom)]

/-- An `ldfe` whose places leave it with values takes them and retires. -/
theorem retires_ldfe {r : Row} {d e : Dev} (hb : runAct (ldfeBody f m ea) s.mem d1 = runAct (ldfeDone f m r) s.mem d)
    (hl : Runs (loadDst (ty f.sz) m f.d (lane r)) s.mem d () e) :
    Retires (.ldfe h f) h true false s (if m = 0 then e else emptyLeases e e.cur.1) :=
  retires_of (exec_ldfe h f s) ha ((ldfe_runs hm he hroom).trans (hb.trans (ldfeDone_ok hl)))

theorem stays_ldfe {d : Dev} (hb : runAct (ldfeBody f m ea) s.mem d1 = .ok (.stay, d)) : Stays (.ldfe h f) s d :=
  stays_of (exec_ldfe h f s) ha ((ldfe_runs hm he hroom).trans hb)

end

/-! ### `stfe` (R45, R268). -/

section
variable {src : Src} {ps : List (Nat × Place)} (ha : Admitted (.stfe h f) [] s) (hm : Runs (acting h false) s.mem s.dev m d0)
  (ht : Runs (takeSrc .n64 m f.d) s.mem d0 src d1) (he : Runs (laneAddr f.base f.off m) s.mem d1 ea d2)
  (hc : Runs (checkLanes (lanesOf m) (fun l =>
    checkPlace (spaceM f.sp) { acc := .write, size := tyBytes (ty f.sz), writes := true } (ea l).toNat)) s.mem d2 ps d3)
include ha hm ht he hc

theorem retires_stfe_none (hp : ps = []) : Retires (.stfe h f) h true false s d3 :=
  retires_of rfl ha (by
    rw [runAct_bind_ok hm, runAct_bind_ok ht, runAct_bind_ok he]
    refine (runAct_bind_ok hc).trans ?_
    rw [runAct_bind_ok (runAct_dev _ _), hp]
    rfl)

/-- With its pages there an `stfe` writes its lanes' bytes and sets their granules full (R45). -/
theorem retires_stfe (hp : ps ≠ []) {d4 d5 : Dev} (ho : Claims.Ordered s.mem d3 d4)
    (hs : Runs (perform (storeFull ps (fun l => storeBytes (ty f.sz) (valT (me d3) (mySplit d3) (ty f.sz) src l))
      (mySplit d3).clock)) s.mem d4 (some ()) d5) : Retires (.stfe h f) h true false s d5 :=
  retires_of rfl ha (by
    rw [runAct_bind_ok hm, runAct_bind_ok ht, runAct_bind_ok he]
    refine (runAct_bind_ok hc).trans ?_
    rw [runAct_bind_ok (runAct_dev _ _)]
    dsimp only
    rw [if_neg (by rwa [List.isEmpty_iff]), ordered_of ho, runAct_bind_ok hs]
    rfl)

end

/-! ### `fill` (R269). -/

/-- What a `fill` does in its lowest lane, from its address and its length on (R269). -/
def fillBody (f : FmtM) (d : Dev) (l ea n : Nat) : Act Verdict := do
  let one := fun (t : Trap) => { t with info2 := maskOf [l] }
  need (decide (ea % 16 = 0) && decide (n % 16 = 0)) (one { cause := cALIGN, addr := w64 ea })
  if n = 0 then pure .retire
  else match fillRange d (spaceM f.sp) ea with
    | .error t => trap (one t)
    | .ok (t, st, off) =>
      need (decide (off + n ≤ 4096 * allocPages (setOf d t) st)) (one { cause := cBOUNDS, addr := w64 ea })
      ordering (do
        match ← perform (fillGranules (f.q == 1) t st off n (mySplit d).clock) with
        | none => pure .stay
        | some _ => pure .retire)

/-- The body of a `fill`. -/
def fillWord (h : Head) (f : FmtM) : Act Verdict := do
  let m ← acting h false
  let src ← takeSrc .n64 m f.d
  let addr ← laneAddr f.base f.off m
  let d ← dev
  match lowLane m with
  | none => pure .retire
  | some l => fillBody f d l (addr l).toNat (valA (me d) (mySplit d) src l).toNat

theorem exec_fill (h : Head) (f : FmtM) (s : State) : exec (.fill h f) s = runA (.fill h f) h (fillWord h f) s := rfl

/-- A `fill` acts in its lowest lane (R269). -/
theorem fillWord_lane {src : Src} {l : Nat} (hm : Runs (acting h false) s.mem s.dev m d0)
    (ht : Runs (takeSrc .n64 m f.d) s.mem d0 src d1) (he : Runs (laneAddr f.base f.off m) s.mem d1 ea d2)
    (hl : lowLane m = some l) : runAct (fillWord h f) s.mem s.dev =
    runAct (fillBody f d2 l (ea l).toNat (valA (me d2) (mySplit d2) src l).toNat) s.mem d2 := by
  rw [fillWord, runAct_bind_ok hm, runAct_bind_ok ht, runAct_bind_ok he, runAct_bind_ok (runAct_dev _ _), hl]

section
variable {mem : Memory} {d : Dev} {l a n : Nat}

theorem fillBody_unaligned (h : ¬ (a % 16 = 0 ∧ n % 16 = 0)) : runAct (fillBody f d l a n) mem d =
    .error { cause := 0x02, addr := w64 a, info2 := maskOf [l] } := by
  unfold fillBody
  dsimp only
  rw [show (decide (a % 16 = 0) && decide (n % 16 = 0)) = false by simpa using h]
  exact runAct_bind_error (runAct_need_false _ _ _)

section
variable (h1 : a % 16 = 0) (h2 : n % 16 = 0)
include h1 h2

theorem fillBody_aligned {body : Act Verdict} {t : Trap} :
    runAct (need (decide (a % 16 = 0) && decide (n % 16 = 0)) t >>= fun _ => body) mem d = runAct body mem d := by
  rw [decide_eq_true h1, decide_eq_true h2]
  exact runAct_bind_ok (runAct_need_true _ _ _)

theorem fillBody_empty (h0 : n = 0) : runAct (fillBody f d l a n) mem d = .ok (.retire, d) := by
  unfold fillBody
  dsimp only
  rw [fillBody_aligned h1 h2, if_pos h0, runAct_pure]

/-- A range that names no store is the trap of its lane (R269). -/
theorem fillBody_range_error (h0 : n ≠ 0) {t : Trap} (hr : fillRange d (spaceM f.sp) a = .error t) :
    runAct (fillBody f d l a n) mem d = .error { t with info2 := maskOf [l] } := by
  unfold fillBody
  dsimp only
  rw [fillBody_aligned h1 h2, if_neg h0, hr]
  rfl

theorem fillBody_fills (h0 : n ≠ 0) {u off : Nat} {st : StoreId} (hr : fillRange d (spaceM f.sp) a = .ok (u, st, off))
    (hb : off + n ≤ 4096 * allocPages (setOf d u) st) {d3 d4 : Dev} (ho : Claims.Ordered mem d d3)
    (hf : Runs (perform (fillGranules (f.q == 1) u st off n (mySplit d).clock)) mem d3 (some ()) d4) :
    runAct (fillBody f d l a n) mem d = .ok (.retire, d4) := by
  unfold fillBody
  dsimp only
  rw [fillBody_aligned h1 h2, if_neg h0, hr]
  dsimp only
  rw [decide_eq_true hb, runAct_bind_ok (runAct_need_true _ _ _), ordered_of ho, runAct_bind_ok hf]
  rfl

end
end

/-! ### `prefetch` (R270). -/

section
variable (ha : Admitted (.prefetch h f) [] s) (hm : Runs (acting h false) s.mem s.dev m d0)
  (he : Runs (laneAddr f.base f.off m) s.mem d0 ea d1)
include ha hm he

/-- A `prefetch` of global memory does nothing (R270). -/
theorem retires_prefetch_global (hs : spaceM f.sp = .g ∨ spaceM f.sp = .k) : Retires (.prefetch h f) h true false s d1 :=
  retires_of rfl ha (by
    rw [runAct_bind_ok hm, runAct_bind_ok he]
    rcases hs with hs | hs
    · rw [hs]
      rfl
    · rw [hs]
      rfl)

theorem retires_prefetch {st : StoreId} {d2 : Dev} (hs : spaceM f.sp = .store st ∨ spaceM f.sp = .m)
    (hp : Runs (prefetchLanes (spaceM f.sp) (lanesOf m) (fun l => (ea l).toNat)) s.mem d1 () d2) :
    Retires (.prefetch h f) h true false s d2 :=
  retires_of rfl ha (by
    rw [runAct_bind_ok hm, runAct_bind_ok he]
    rcases hs with hs | hs
    · rw [hs] at hp ⊢
      exact runAct_bind_ok hp
    · rw [hs] at hp ⊢
      exact runAct_bind_ok hp)

end

end

theorem fullEmpty : Claims.FullEmpty := by
  intro h f s m ea d0 d1 d2 d3
  dsimp only
  refine ⟨fun r ha hm he hroom hans e => retires_ldfe ha hm he hroom (ldfeBody_answered hans), fun ps ha hm he hroom hans hc =>
      ⟨fun hp e => retires_ldfe ha hm he hroom (ldfeBody_served hans hc hp), fun hp ho hn => ?_⟩,
    fun src ps d4 d5 ha hm ht he hc => ⟨retires_stfe_none ha hm ht he hc, fun hp => retires_stfe ha hm ht he hc hp⟩,
    fun src l u st off d4 ha hm ht he hl => ?_,
    fun st ha hm he => ⟨retires_prefetch_global ha hm he, fun hs d2 => retires_prefetch ha hm he hs⟩⟩
  · have hb := ldfeBody_ordered hans hc hp ho
    refine ⟨fun hr e => retires_ldfe ha hm he hroom (hb.trans (ldfeServe_full hn hr)),
      fun hr e hg => ⟨fun hfo hgone => ?_, fun hfo => ?_⟩⟩
    · exact stays_ldfe ha hm he hroom (hb.trans ((ldfeServe_waits hn hr).trans (waitGranules_stays hg hfo hgone)))
    · exact stays_ldfe ha hm he hroom (hb.trans ((ldfeServe_waits hn hr).trans (waitGranules_parks hg hfo)))
  · have hx := exec_fill h f s
    have hb := fillWord_lane hm ht he hl
    refine ⟨fun hal => traps_of hx ha ?_, fun h1 h2 h0 => retires_of hx ha (hb.trans (fillBody_empty h1 h2 h0)), fun h1 h2 h0 =>
      ⟨fun t hr _ => traps_of hx ha (hb.trans (fillBody_range_error h1 h2 h0 hr)),
        fun hr hin ho hf => retires_of hx ha (hb.trans (fillBody_fills h1 h2 h0 hr hin ho hf))⟩⟩
    rw [hb, fillBody_unaligned hal, w64_toNat]

/-! ### Pages that read back. -/

/-- A stage set has a page of a number. -/
abbrev HasPage (d : Dev) (t pi : Nat) : Prop := t < d.sets.length ∧ pi < (setOf d t).pages.length

theorem pageOf_setPage (d : Dev) (t pi u i : Nat) (p : Page) :
    pageOf (setPage d t pi p) u i = if (u = t ∧ i = pi) ∧ HasPage d t pi then p else pageOf d u i := by
  unfold pageOf setPage HasPage
  dsimp only
  rw [setOf_setSet]
  by_cases hu : u = t ∧ t < d.sets.length
  · obtain ⟨rfl, ht⟩ := hu
    rw [if_pos ⟨rfl, ht⟩, nth_nthSet]
    simp only [ht, true_and]
  · rw [if_neg hu, if_neg (fun h => hu ⟨h.1.1, h.2.1⟩)]

theorem pageOf_modPage_same {d : Dev} {t pi : Nat} (f : Page → Page) (h : HasPage d t pi) :
    pageOf (modPage d t pi f) t pi = f (pageOf d t pi) := by
  rw [modPage, pageOf_setPage, if_pos ⟨⟨rfl, rfl⟩, h⟩]

theorem hasPage_setPage {d : Dev} {t pi u i : Nat} {p : Page} (h : HasPage d u i) : HasPage (setPage d t pi p) u i := by
  obtain ⟨hu, hi⟩ := h
  refine ⟨by rwa [setPage, setSet, nthSet_length], ?_⟩
  rw [setPage, setOf_setSet]
  split
  · next h =>
    obtain ⟨rfl, -⟩ := h
    rwa [nthSet_length]
  · exact hi

theorem getLsbD_bit256_same {g : Nat} (hg : g < 256) : (bit256 g).getLsbD g = true := by
  simp [bit256, hg]

theorem getLsbD_bit256_other {g i : Nat} (h : i ≠ g) : (bit256 g).getLsbD i = false := by
  rw [bit256, ← BitVec.twoPow_eq, BitVec.getLsbD_twoPow]
  simp [Ne.symm h]

/-! ### A granule that becomes full (R45, R46). -/

/-- With no reader parked, a granule that becomes full changes its page alone (R46). -/
theorem setFull_unwatched {d : Dev} {t pi g e : Nat} (h : ldfeWaiters d = []) : setFull d t pi g e =
    modPage d t pi (fun p => { p with full := p.full ||| bit256 g, dirty := true, fullClock := put 0 p.fullClock g e }) := by
  have hw : ldfeWaiters (modPage d t pi (fun p =>
      { p with full := p.full ||| bit256 g, dirty := true, fullClock := put 0 p.fullClock g e })) = [] := h
  rw [setFull, serveGranule, hw, List.foldl_nil]

/-! ### Granules that are emptied (R46, R269). -/

/-- A granule, by its stage set, its page and its number in the page, loses its full bit. -/
def emptyGranule (d : Dev) (c : Nat × Nat × Nat) : Dev :=
  modPage d c.1 c.2.1 (fun p => { p with full := p.full &&& ~~~(bit256 c.2.2), dirty := true })

/-- What emptying granules leaves: each page's data; its full bits are fewer, and nothing but pages has changed. -/
structure EmptiesOnly (d e : Dev) : Prop where
  data : ∀ t pi, (pageOf e t pi).data = (pageOf d t pi).data
  full : ∀ t pi g, (pageOf d t pi).full.getLsbD g = false → (pageOf e t pi).full.getLsbD g = false
  dirty : ∀ t pi, (pageOf d t pi).dirty = true → (pageOf e t pi).dirty = true
  hasPage : ∀ t pi, HasPage d t pi → HasPage e t pi
  others : e = { d with sets := e.sets }

theorem EmptiesOnly.refl (d : Dev) : EmptiesOnly d d where
  data _ _ := rfl
  full _ _ _ h := h
  dirty _ _ h := h
  hasPage _ _ h := h
  others := rfl

theorem EmptiesOnly.trans {a b c : Dev} (hab : EmptiesOnly a b) (hbc : EmptiesOnly b c) : EmptiesOnly a c where
  data t pi := (hbc.data t pi).trans (hab.data t pi)
  full t pi g h := hbc.full t pi g (hab.full t pi g h)
  dirty t pi h := hbc.dirty t pi (hab.dirty t pi h)
  hasPage t pi h := hbc.hasPage t pi (hab.hasPage t pi h)
  others := hbc.others.trans (by rw [hab.others])

theorem emptyGranule_emptiesOnly (d : Dev) (c : Nat × Nat × Nat) : EmptiesOnly d (emptyGranule d c) := by
  have hpage : ∀ t pi, pageOf (emptyGranule d c) t pi = pageOf d t pi ∨ pageOf (emptyGranule d c) t pi =
      { pageOf d t pi with full := (pageOf d t pi).full &&& ~~~(bit256 c.2.2), dirty := true } := by
    intro t pi
    rw [emptyGranule, modPage, pageOf_setPage]
    split
    · next h =>
      obtain ⟨⟨rfl, rfl⟩, -⟩ := h
      exact .inr rfl
    · exact .inl rfl
  refine ⟨fun t pi => ?_, fun t pi g h => ?_, fun t pi h => ?_, fun t pi => hasPage_setPage, rfl⟩
  · rcases hpage t pi with hp | hp
    · rw [hp]
    · rw [hp]
  · rcases hpage t pi with hp | hp
    · rwa [hp]
    · rw [hp, BitVec.getLsbD_and, h, Bool.false_and]
  · rcases hpage t pi with hp | hp
    · rwa [hp]
    · rw [hp]

/-- A granule that has been emptied is not full, and its page is dirty. -/
theorem emptyGranule_emptied {d : Dev} {c : Nat × Nat × Nat} (h : HasPage d c.1 c.2.1) (hg : c.2.2 < 256) :
    (pageOf (emptyGranule d c) c.1 c.2.1).full.getLsbD c.2.2 = false ∧ (pageOf (emptyGranule d c) c.1 c.2.1).dirty = true := by
  rw [emptyGranule, pageOf_modPage_same _ h]
  refine ⟨?_, rfl⟩
  rw [BitVec.getLsbD_and, BitVec.getLsbD_not, getLsbD_bit256_same hg, Bool.not_true, Bool.and_false, Bool.and_false]

section
variable {α : Type} (f : α → Nat × Nat × Nat)

theorem foldl_emptyGranule_emptiesOnly (l : List α) (d : Dev) : EmptiesOnly d (l.foldl (fun d a => emptyGranule d (f a)) d) := by
  induction l generalizing d with
  | nil => exact .refl d
  | cons a l ih => exact (emptyGranule_emptiesOnly d (f a)).trans (ih _)

/-- Each of the granules that are emptied stays so while others are. -/
theorem foldl_emptyGranule_emptied {l : List α} {a : α} (ha : a ∈ l) {d : Dev} (h : HasPage d (f a).1 (f a).2.1)
    (hg : (f a).2.2 < 256) :
    let e := l.foldl (fun d a => emptyGranule d (f a)) d
    (pageOf e (f a).1 (f a).2.1).full.getLsbD (f a).2.2 = false ∧ (pageOf e (f a).1 (f a).2.1).dirty = true := by
  induction l generalizing d with
  | nil => cases ha
  | cons b l ih =>
    rcases List.mem_cons.1 ha with rfl | ha
    · obtain ⟨hfull, hdirty⟩ := emptyGranule_emptied h hg
      have hl := foldl_emptyGranule_emptiesOnly f l (emptyGranule d (f a))
      exact ⟨hl.full _ _ _ hfull, hl.dirty _ _ hdirty⟩
    · exact ih ha ((emptyGranule_emptiesOnly d (f b)).hasPage _ _ h)

end

/-! ### What an `ldfe` empties (R46). -/

/-- The granule of a want. -/
def wantGranule (w : Want) : Nat × Nat × Nat := (w.set, w.pg, granOf w.off)

/-- The device once the granules of the wants that are served have been emptied. -/
def clearServed (d : Dev) (ws : List Want) : Dev :=
  (ws.filter (wantReady d)).foldl (fun d w => emptyGranule d (wantGranule w)) d

/-- A split with the lanes of the wants that can be served, and their values (R46, R268). -/
def takeServed (d : Dev) (ws : List Want) (q : Split) : Split :=
  { q with
    served := (ws.filter (wantReady d)).foldl (fun k w => k ||| (1#32 <<< w.l)) (mySplit d).served,
    servedVals := (ws.filter (wantReady d)).foldl (fun r w => put 0 r w.l (wantVal d w)) (mySplit d).servedVals }

theorem serveWants_eq (d : Dev) (clr : Bool) (ws : List Want) : serveWants d clr ws =
    let d1 := if clr then clearServed d ws else d
    setMySplit d1 (takeServed d ws (mySplit d1)) := rfl

/-- The split takes the same values whether the granules are emptied or kept. -/
theorem mySplit_serveWants (d : Dev) (ws : List Want) : mySplit (serveWants d true ws) = mySplit (serveWants d false ws) := by
  have hd : clearServed d ws = { d with sets := (clearServed d ws).sets } :=
    (foldl_emptyGranule_emptiesOnly wantGranule _ d).others
  rw [serveWants_eq, serveWants_eq, if_pos rfl, if_neg Bool.false_ne_true, hd]
  rfl

theorem pageOf_serveWants (d : Dev) (ws : List Want) (t pi : Nat) :
    pageOf (serveWants d true ws) t pi = pageOf (clearServed d ws) t pi := rfl

/-- A granule that can be served lies in its page. -/
theorem granule_lt_of_wantReady {d : Dev} {w : Want} (h : wantReady d w = true) : granOf w.off < 256 := by
  rw [wantReady, Bool.and_eq_true] at h
  by_contra hg
  rw [BitVec.getLsbD_of_ge _ _ (Nat.le_of_not_lt hg)] at h
  exact Bool.false_ne_true h.2

/-- An `ldfe.clr` empties the granules from which it takes values (R46). -/
theorem serveWants_empties {d : Dev} {ws : List Want} {w : Want} (hw : w ∈ ws) (hp : HasPage d w.set w.pg)
    (hr : wantReady d w = true) : (pageOf (serveWants d true ws) w.set w.pg).full.getLsbD (granOf w.off) = false ∧
      (pageOf (serveWants d true ws) w.set w.pg).dirty = true :=
  foldl_emptyGranule_emptied wantGranule (List.mem_filter.2 ⟨hw, hr⟩) hp (granule_lt_of_wantReady hr)

/-! ### What a `fill` empties (R269). -/

theorem perform_inv {α : Type} {x : Perf α} {m : Memory} {d e : Dev} {a : α} (h : Runs (perform x) m d (some a) e) :
    x m d = .ok (a, e) := by
  unfold Runs runAct perform at h
  split at h
  · next hx =>
    cases h
    exact hx
  · cases h
  · obtain ⟨_, _, -, h⟩ := runAct_bind_inv h
    obtain ⟨_, _, -, h⟩ := runAct_bind_inv h
    cases h

theorem forM_updP {α : Type} (f : α → Memory → Dev → Dev) (l : List α) (m : Memory) (d : Dev) :
    (l.forM (fun a => updP (f a))) m d = .ok ((), l.foldl (fun d a => f a m d) d) := by
  induction l generalizing d with
  | nil => rfl
  | cons a l ih =>
    exact (perf_bind_ok (updP_run (f a) m d)).trans (ih (f a m d))

theorem pageReady_inv {t pi : Nat} {m : Memory} {d e : Dev} {u : Unit} (h : pageReady t pi m d = .ok (u, e)) : e = d := by
  unfold pageReady at h
  rw [perf_bind_ok (devP_run m d)] at h
  cases hst : (pageOf d t pi).st with
  | pinned | unpinned =>
    rw [hst] at h
    cases h
    rfl
  | filling | nonResident =>
    rw [hst] at h
    cases h

/-- Waiting for pages changes nothing where they are there. -/
theorem forM_pageReady_inv {α : Type} {t : Nat} {k : α → Nat} {l : List α} {m : Memory} {d e : Dev} {u : Unit}
    (h : (l.forM (fun a => pageReady t (k a))) m d = .ok (u, e)) : e = d := by
  induction l generalizing d with
  | nil =>
    cases h
    rfl
  | cons a l ih =>
    obtain ⟨_, c, h1, h2⟩ := perf_bind_inv (x := pageReady t (k a)) h
    exact (ih h2).trans (pageReady_inv h1)

/-- The granules of a byte range (R269). -/
def granulesIn (off n : Nat) : List Nat := (List.range (n / 16)).map (fun i => off / 16 + i)

theorem mem_granulesIn {off n g : Nat} : g ∈ granulesIn off n ↔ off / 16 ≤ g ∧ g < off / 16 + n / 16 := by
  simp only [granulesIn, List.mem_map, List.mem_range]
  constructor
  · rintro ⟨i, hi, rfl⟩
    omega
  · rintro ⟨h1, h2⟩
    exact ⟨g - off / 16, by omega, by omega⟩

/-- The place of a granule of a store in a device: its stage set, page and number in the page (R45). -/
def granulePlace (d : Dev) (t : Nat) (st : StoreId) (g : Nat) : Nat × Nat × Nat :=
  (t, (findPage (setOf d t) st (g / 256)).getD 0, g % 256)

/-- A `fill` that empties its range empties its granules one by one (R269). -/
theorem fillGranules_empties {m : Memory} {d e : Dev} {t : Nat} {st : StoreId} {off n clock : Nat}
    (h : Runs (perform (fillGranules false t st off n clock)) m d (some ()) e) :
    e = (granulesIn off n).foldl (fun e g => emptyGranule e (granulePlace d t st g)) d := by
  have hrun := perform_inv h
  unfold fillGranules at hrun
  dsimp only at hrun
  rw [perf_bind_ok (devP_run m d)] at hrun
  obtain ⟨_, c, h1, h2⟩ := perf_bind_inv hrun
  rw [forM_pageReady_inv h1] at h2
  simp only [Bool.false_eq_true, if_false] at h2
  have h3 := (forM_updP (fun g _ e => emptyGranule e (granulePlace d t st g)) (granulesIn off n) m d).symm.trans h2
  cases h3
  rfl

theorem granulesFill : Claims.GranulesFill := by
  refine ⟨fun d t pi g e g' ht hp hg hw => ?_, fun d ws w hw hs hp hr => ?_, fun d ws => rfl,
    fun m d e t st off n clock g ht h h1 h2 hp => ?_⟩
  · dsimp only
    rw [setFull_unwatched hw, pageOf_modPage_same _ ⟨ht, hp⟩]
    dsimp only
    refine ⟨?_, fun hne => ?_, rfl, rfl, rfl⟩
    · rw [BitVec.getLsbD_or, getLsbD_bit256_same hg, Bool.or_true]
    · rw [BitVec.getLsbD_or, getLsbD_bit256_other hne, Bool.or_false]
  · obtain ⟨hfull, hdirty⟩ := serveWants_empties hw ⟨hs, hp⟩ hr
    refine ⟨hfull, hdirty, (foldl_emptyGranule_emptiesOnly wantGranule _ d).data _ _, ?_⟩
    rw [mySplit_serveWants]
  · have he := fillGranules_empties h
    have hpage : HasPage d (granulePlace d t st g).1 (granulePlace d t st g).2.1 := ⟨ht, hp⟩
    obtain ⟨hfull, -⟩ := foldl_emptyGranule_emptied (granulePlace d t st) (mem_granulesIn.2 ⟨h1, h2⟩) hpage
      (Nat.mod_lt g (by decide))
    rw [he]
    exact ⟨hfull, (foldl_emptyGranule_emptiesOnly (granulePlace d t st) _ d).data _ _⟩

/-- Settles O54: each word is run from its checked places to its effects; what empties granules clears their bits alone. -/
theorem fullEmptyWords : Obligations.FullEmptyWords := ⟨fullEmpty, granulesFill⟩

end Sys2Proof.Machine
end

section
/-!
SUPPORT. What the home of a line does beside the bytes of a write (spec/07_model_far.md R114 to R117, R128, R129, R152): wakes,
stamps, grants and copies leave the stores of the step and the pages as they stand, so that a write changes its own bytes alone.
-/
namespace Sys2Proof.Machine

/-- The stores of the step and the stage sets, with their pages, stand as before. -/
structure KeepsStores (d e : Dev) : Prop where
  wlog : e.wlog = d.wlog
  sets : e.sets = d.sets

theorem KeepsStores.refl (d : Dev) : KeepsStores d d := ⟨rfl, rfl⟩

theorem KeepsStores.trans {a b c : Dev} (hab : KeepsStores a b) (hbc : KeepsStores b c) : KeepsStores a c :=
  ⟨hbc.wlog.trans hab.wlog, hbc.sets.trans hab.sets⟩

theorem KeepsStores.foldl {α : Type} {f : Dev → α → Dev} (h : ∀ d a, KeepsStores d (f d a)) (l : List α) (d : Dev) :
    KeepsStores d (l.foldl f d) := by
  induction l generalizing d with
  | nil => exact .refl d
  | cons a l ih => exact (h d a).trans (ih _)

theorem KeepsStores.wrBytes {d e : Dev} (h : KeepsStores d e) (k : Nat) (bs : List Byte) :
    KeepsStores (wrBytes d k bs) (wrBytes e k bs) :=
  ⟨by simp only [Machine.wrBytes, h.wlog], h.sets⟩

theorem KeepsStores.rdByte {d e : Dev} (h : KeepsStores d e) (m : Memory) (a : Nat) : rdByte m e a = rdByte m d a := by
  simp only [Machine.rdByte, h.wlog]

/-! ### Wakes (R129, R162). -/

theorem wakeClock_keepsStores (d : Dev) (w sp e : Nat) : KeepsStores d (wakeClock d w sp e) := by
  unfold wakeClock
  split
  · exact ⟨rfl, rfl⟩
  · exact .refl d

theorem modSplit_keepsStores (d : Dev) (w sp : Nat) (f : Split → Split) : KeepsStores d (modSplit d w sp f) := ⟨rfl, rfl⟩

theorem wake_keepsStores (d : Dev) (w sp : Nat) (ans : Row) (e : Nat) : KeepsStores d (wake d w sp ans e) :=
  (modSplit_keepsStores d w sp _).trans (wakeClock_keepsStores _ w sp e)

theorem notify_keepsStores (d : Dev) (w sp : Nat) (watch : Watch) (ans : Row) (e : Nat) :
    KeepsStores d (notify d w sp watch ans e) := by
  cases watch with
  | entry => exact wake_keepsStores d w sp ans e
  | due _ _ => exact .refl d
  | polled => exact (modSplit_keepsStores d w sp _).trans (wakeClock_keepsStores _ w sp e)

theorem setWave_keepsStores (d : Dev) (w : Nat) (x : Wave) : KeepsStores d (setWave d w x) := ⟨rfl, rfl⟩

theorem viewWrite_keepsStores (d : Dev) (w n : Nat) : KeepsStores d (viewWrite d w n) := by
  unfold viewWrite
  split
  · exact setWave_keepsStores d w _
  · exact .refl d

theorem tellMonitor_keepsStores (d : Dev) (w n e : Nat) : KeepsStores d (tellMonitor d w n e) := by
  unfold tellMonitor
  split
  · exact .refl d
  · exact ((setWave_keepsStores d w _).trans (viewWrite_keepsStores _ w n)).trans (.foldl (fun d i => wake_keepsStores d w i [] e) _ _)

theorem wakeMonitors_keepsStores (d : Dev) (n e : Nat) : KeepsStores d (wakeMonitors d n e) := by
  refine KeepsStores.foldl (fun d w => ?_) _ d
  dsimp only
  split
  · split
    · exact .refl d
    · split
      · exact tellMonitor_keepsStores d w n e
      · split
        · exact .refl d
        · exact (setWave_keepsStores d w _).trans (.foldl (fun d i => wakeClock_keepsStores d w i e) _ _)
  · exact .refl d

/-! ### Stamps and grants (R114, R116). -/

theorem modLine_keepsStores (d : Dev) (n : Nat) (f : Line → Line) : KeepsStores d (modLine d n f) := ⟨rfl, rfl⟩

theorem clearReservations_keepsStores (d : Dev) (n : Nat) : KeepsStores d (clearReservations d n) := ⟨rfl, rfl⟩

theorem stampLine_keepsStores (d : Dev) (n vst : Nat) : KeepsStores d (stampLine d n vst).1 := ⟨rfl, rfl⟩

theorem patchLease_keepsStores (d : Dev) (w k : Nat) (bs : List Byte) : KeepsStores d (patchLease d w k bs) := ⟨rfl, rfl⟩

theorem recallLine_keepsStores (d : Dev) (n : Nat) : KeepsStores d (recallLine d n) := by
  unfold recallLine
  split
  · exact .refl d
  · refine .trans ?_ ((clearReservations_keepsStores _ n).trans (wakeMonitors_keepsStores _ n _))
    exact ((modLine_keepsStores d n _).trans (stampLine_keepsStores _ n _)).trans (.foldl (fun d w => setWave_keepsStores d w _) _ _)

theorem recallFrom_keepsStores (d : Dev) (n : Nat) (c : Option Nat) : KeepsStores d (recallFrom d n c) := by
  unfold recallFrom
  split
  · exact .refl d
  · split
    · exact .refl d
    · exact recallLine_keepsStores d n

theorem ownCopies_keepsStores (m : Memory) (d : Dev) (w k t : Nat) (bs : List Byte) : KeepsStores d (ownCopies m d w k t bs) :=
  ⟨rfl, rfl⟩

theorem stampWrite_keepsStores (m : Memory) (d : Dev) (who : Who) (k : Nat) (bs : List Byte) :
    KeepsStores d (stampWrite m d who k bs) := by
  unfold stampWrite
  dsimp only
  refine .trans ?_ ((clearReservations_keepsStores _ _).trans (wakeMonitors_keepsStores _ _ _))
  split
  · exact ((stampLine_keepsStores d _ _).trans (setWave_keepsStores _ _ _)).trans (ownCopies_keepsStores m _ _ k _ bs)
  · exact stampLine_keepsStores d _ _

theorem grantWrite_keepsStores (d : Dev) (who : Who) (k : Nat) (bs : List Byte) (g : Grant) :
    KeepsStores d (grantWrite d who k bs g) := by
  have hline := fun f => (clearReservations_keepsStores d (lineNo k)).trans (modLine_keepsStores _ (lineNo k) f)
  have hrecall : ∀ e, KeepsStores d e → KeepsStores d (if watched e (lineNo k) then recallLine e (lineNo k) else e) := by
    intro e he
    split
    · exact he.trans (recallLine_keepsStores e _)
    · exact he
  apply hrecall
  split
  · exact (hline _).trans (patchLease_keepsStores _ _ k bs)
  · exact hline _

/-! ### Counters (R152, R153). -/

theorem dropOwn_keepsStores (d : Dev) (w n : Nat) : KeepsStores d (dropOwn d w n) := by
  unfold dropOwn
  dsimp only
  split
  · exact .refl d
  · exact ⟨rfl, rfl⟩

theorem sawHome_keepsStores (m : Memory) (d : Dev) (w k n : Nat) : KeepsStores d (sawHome m d w k n) := by
  unfold sawHome
  split
  · exact patchLease_keepsStores d w k _
  · exact dropOwn_keepsStores d w _

theorem counterAcquire_keepsStores (d : Dev) (w k : Nat) (sc : Scope) : KeepsStores d (counterAcquire d w k sc) := by
  unfold counterAcquire
  dsimp only
  split
  · exact setWave_keepsStores d w _
  · exact .refl d

theorem wakeCwaits_keepsStores (m : Memory) (d : Dev) (k e : Nat) : KeepsStores d (wakeCwaits m d k e) := by
  refine KeepsStores.foldl (fun d p => ?_) _ d
  dsimp only
  split
  · exact .refl d
  · split
    · exact ((sawHome_keepsStores m d _ k 8).trans (counterAcquire_keepsStores _ _ k _)).trans (notify_keepsStores ..)
    · exact .refl d
  · exact .refl d

/-! ### Writes at a home (R115). -/

/-- Beside its own bytes, a write at its line's home leaves the stores of the step. -/
theorem homeWrite_keepsStores (m : Memory) (d : Dev) (who : Who) (k : Nat) (bs : List Byte) :
    KeepsStores (wrBytes d k bs) (homeWrite m d who k bs) := by
  have hput := fun f => ((recallFrom_keepsStores d (lineNo k) (who.wave.map (clusterIdx d))).wrBytes k bs).trans
    (modLine_keepsStores _ (lineNo k) f)
  refine .trans ?_ (.foldl (fun d w => wakeCwaits_keepsStores m d w who.clock) _ _)
  split
  · exact (hput _).trans (grantWrite_keepsStores ..)
  · exact (hput _).trans (stampWrite_keepsStores ..)

/-- A byte after a write at its line's home: the written byte, or what stood before. -/
theorem rdByte_homeWrite (m : Memory) (d : Dev) (who : Who) (k : Nat) (bs : List Byte) (a : Nat) :
    rdByte m (homeWrite m d who k bs) a =
      if h : k ≤ a ∧ a < k + bs.length then bs[a - k]'(by omega) else rdByte m d a := by
  rw [(homeWrite_keepsStores m d who k bs).rdByte]
  split
  · next h => exact rdByte_wrBytes_stored m d k a bs h
  · next h => exact rdByte_wrBytes m d k a bs h

end Sys2Proof.Machine
end

section
/-!
SUPPORT. What a lane's store can do (spec/04_pending_logs.md R55, spec/03_operand_stores.md R49, spec/15_isa_memory.md R266): it
stores its bytes at their key in memory, or memory stays as it is. Either way each page stays in or out of its frame.
-/
namespace Sys2Proof.Machine
open Sys2Proof.Claims

/-- Memory stands as before, and so does where each page is. -/
structure KeepsMemory (d e : Dev) : Prop where
  wlog : e.wlog = d.wlog
  states : ∀ t pi, (pageOf e t pi).st = (pageOf d t pi).st

theorem KeepsMemory.trans {a b c : Dev} (hab : KeepsMemory a b) (hbc : KeepsMemory b c) : KeepsMemory a c :=
  ⟨hbc.wlog.trans hab.wlog, fun t pi => (hbc.states t pi).trans (hab.states t pi)⟩

theorem KeepsMemory.rdByte {d e : Dev} (h : KeepsMemory d e) (m : Memory) (a : Nat) : rdByte m e a = rdByte m d a := by
  simp only [Machine.rdByte, h.wlog]

theorem pageOf_of_sets {d e : Dev} (h : e.sets = d.sets) (t pi : Nat) : pageOf e t pi = pageOf d t pi := by
  simp only [pageOf, setOf, h]

theorem KeepsStores.keepsMemory {d e : Dev} (h : KeepsStores d e) : KeepsMemory d e :=
  ⟨h.wlog, fun t pi => by rw [pageOf_of_sets h.sets]⟩

/-! ### Pages that take a store (R55, R57, R62). -/

theorem setPage_keepsMemory {d : Dev} {t pi : Nat} {p : Page} (h : p.st = (pageOf d t pi).st) :
    KeepsMemory d (setPage d t pi p) := by
  refine ⟨rfl, fun u i => ?_⟩
  rw [pageOf_setPage]
  split
  · next hp =>
    obtain ⟨⟨rfl, rfl⟩, -⟩ := hp
    exact h
  · rfl

theorem hostForgets_keepsStores (d : Dev) (t pi off n : Nat) : KeepsStores d (hostForgets d t pi off n) := by
  unfold hostForgets
  split
  · exact .refl d
  · exact .foldl (fun d _ => modLine_keepsStores d _ _) _ d

theorem changePage_keepsMemory {t pi off n : Nat} {f : Page → Page} (d : Dev) (h : ∀ p, (f p).st = p.st) :
    KeepsMemory d (changePage d t pi off n f) :=
  (hostForgets_keepsStores d t pi off n).keepsMemory.trans (setPage_keepsMemory (h _))

theorem registerLine_keepsStores (d : Dev) (n : Nat) : KeepsStores d (registerLine d n) :=
  (recallLine_keepsStores d n).trans ⟨rfl, rfl⟩

theorem registerPage_keepsStores (d : Dev) (p : Page) : KeepsStores d (registerPage d p) := by
  unfold registerPage
  split
  · split
    · exact .foldl (fun d _ => registerLine_keepsStores d _) _ d
    · exact .refl d
  · exact .refl d

/-- An append registers the page's lines, and changes the page's log alone (R57, R62). -/
theorem appendLog_inv {d e : Dev} {t pi : Nat} {fo : Bool} {x : LogEntry} (h : appendLog d t pi fo x = some e) :
    ∃ log segs, e = setPage { registerPage d (pageOf d t pi) with seq := d.seq + 1 } t pi
      { pageOf d t pi with log := log, segs := segs } := by
  unfold appendLog at h
  dsimp only at h
  generalize (if fo = true then _ else (_ : List LogEntry × List LogEntry)) = parts at h
  split at h
  · split at h
    · cases h
    · cases h
      exact ⟨_, _, rfl⟩
  · split at h
    · cases h
    · obtain ⟨segs, -, rfl⟩ := Option.map_eq_some_iff.1 h
      exact ⟨_, segs, rfl⟩

theorem appendLog_keepsMemory {d e : Dev} {t pi : Nat} {fo : Bool} {x : LogEntry} (h : appendLog d t pi fo x = some e) :
    KeepsMemory d e := by
  obtain ⟨log, segs, rfl⟩ := appendLog_inv h
  have hreg : KeepsStores d { registerPage d (pageOf d t pi) with seq := d.seq + 1 } :=
    (registerPage_keepsStores d _).trans ⟨rfl, rfl⟩
  exact hreg.keepsMemory.trans (setPage_keepsMemory (hreg.keepsMemory.states t pi).symm)

/-- A page with the bytes of a store, which clears the poison of a granule that it writes whole (R42, R68). -/
def storedPage (off : Nat) (bs : List Byte) (p : Page) : Page :=
  let q := pagePut p off bs
  if bs.length = 16 then { q with poison := q.poison &&& ~~~(bit256 (granOf off)) } else q

theorem storedPage_st (off : Nat) (bs : List Byte) (p : Page) : (storedPage off bs p).st = p.st := by
  unfold storedPage
  dsimp only
  split
  · rfl
  · rfl

section
variable {m : Memory} {d e : Dev} {t : Ty} {u pi off k : Nat} {bs : List Byte}

theorem logOrWait_inv {x : Dev → LogEntry} (h : logOrWait u pi x m d = .ok ((), e)) : KeepsMemory d e := by
  unfold logOrWait at h
  rw [perf_bind_ok (devP_run m d)] at h
  split at h
  · cases h
  · cases ha : appendLog d u pi (me d).fo (x d) with
    | some d1 =>
      rw [ha] at h
      cases h
      exact appendLog_keepsMemory ha
    | none =>
      rw [ha] at h
      cases h

theorem pageWrite_resident (hr : Resident (pageOf d u pi)) :
    pageWrite u pi off t bs m d = .ok ((), changePage d u pi off bs.length (storedPage off bs)) := by
  unfold pageWrite
  rw [perf_bind_ok (devP_run m d)]
  rcases hr with hr | hr
  · rw [hr]
    rfl
  · rw [hr]
    rfl

theorem pageWrite_filling (hf : (pageOf d u pi).st = .filling) : pageWrite u pi off t bs m d = .error (.page u pi) := by
  unfold pageWrite
  rw [perf_bind_ok (devP_run m d), hf]
  rfl

theorem pageWrite_nonResident (hn : (pageOf d u pi).st = .nonResident) : pageWrite u pi off t bs m d =
    logOrWait u pi (fun d => laneEntry d 0 t off (leWord bs) bs) m d := by
  unfold pageWrite
  rw [perf_bind_ok (devP_run m d), hn]

theorem pageWrite_inv (h : pageWrite u pi off t bs m d = .ok ((), e)) : KeepsMemory d e := by
  have resident : Resident (pageOf d u pi) → KeepsMemory d e := by
    intro hr
    rw [pageWrite_resident hr] at h
    cases h
    exact changePage_keepsMemory d (storedPage_st off bs)
  cases hst : (pageOf d u pi).st with
  | pinned => exact resident (.inl hst)
  | unpinned => exact resident (.inr hst)
  | filling =>
    rw [pageWrite_filling hst] at h
    cases h
  | nonResident =>
    rw [pageWrite_nonResident hst] at h
    exact logOrWait_inv h

/-! ### Pages that stand for global memory (R49). -/

theorem mappedPut_keepsMemory (m : Memory) (d : Dev) (u pi off k : Nat) (bs : List Byte) :
    KeepsMemory d (mappedPut m d u pi off k bs) :=
  (setPage_keepsMemory (storedPage_st off bs _)).trans (stampWrite_keepsStores ..).keepsMemory

theorem writePlace_mapped_resident (hr : Resident (pageOf d u pi)) :
    writePlace (.mapped u pi off k) t bs m d = .ok ((), mappedPut m d u pi off k bs) :=
  (perf_bind_ok (mappedReady_resident hr)).trans rfl

theorem mappedReady_nonResident (hn : (pageOf d u pi).st = .nonResident) :
    mappedReady u pi m d = .ok (false, logToBacking m d u pi true) := by
  unfold mappedReady
  rw [perf_bind_ok (devP_run m d)]
  simp only [hn]
  rfl

/-- A store to a page that is not there is one at the line's home, once the page's log has been applied to its backing (R49). -/
theorem writePlace_mapped_nonResident (hn : (pageOf d u pi).st = .nonResident) :
    writePlace (.mapped u pi off k) t bs m d =
      .ok ((), let d1 := logToBacking m d u pi true; homeWrite m d1 (whoMe d1) k bs) :=
  (perf_bind_ok (mappedReady_nonResident hn)).trans rfl

/-! ### One store, and the stores of a word (R55, R266). -/

theorem postWrite_keepsStores (d : Dev) (n : Nat) : KeepsStores d (postWrite d n) := by
  unfold postWrite
  dsimp only
  split
  · exact ⟨rfl, rfl⟩
  · exact ⟨rfl, rfl⟩

/-- A store of a lane, which at a page of global memory finds the page in its frame, leaves memory, or stores its bytes at the key
of its place. -/
theorem writePlace_inv {p : Place} (hm : ∀ u pi off k, p = .mapped u pi off k → Resident (pageOf d u pi))
    (h : writePlace p t bs m d = .ok ((), e)) :
    KeepsMemory d e ∨ ∃ k, (p = .device k ∨ p = .host k) ∧ KeepsMemory (wrBytes d k bs) e := by
  cases p with
  | page u pi off => exact .inl (pageWrite_inv h)
  | device k =>
    cases h
    exact .inr ⟨k, .inl rfl, (homeWrite_keepsStores ..).keepsMemory⟩
  | mapped u pi off k =>
    rw [writePlace_mapped_resident (hm u pi off k rfl)] at h
    cases h
    exact .inl (mappedPut_keepsMemory ..)
  | host k =>
    cases h
    exact .inr ⟨k, .inr rfl, (modLine_keepsStores ..).keepsMemory⟩
  | peer n pa =>
    cases h
    exact .inl (postWrite_keepsStores d n).keepsMemory
  | reg off =>
    cases h
    exact .inl ⟨rfl, fun _ _ => rfl⟩

/-- A byte that a store of a lane does not store to is the same after it, and each page is where it was. -/
theorem writePlace_frame {p : Place} (hm : ∀ u pi off k, p = .mapped u pi off k → Resident (pageOf d u pi))
    (h : writePlace p t bs m d = .ok ((), e)) :
    (∀ u pi, (pageOf e u pi).st = (pageOf d u pi).st) ∧
      ∀ a, (∀ k, p = .device k ∨ p = .host k → ¬ (k ≤ a ∧ a < k + bs.length)) → rdByte m e a = rdByte m d a := by
  rcases writePlace_inv hm h with hk | ⟨k, hp, hk⟩
  · exact ⟨hk.states, fun a _ => hk.rdByte m a⟩
  · exact ⟨hk.states, fun a ha => (hk.rdByte m a).trans (rdByte_wrBytes m d k a bs (ha k hp))⟩

end

/-- The stores of a word, lane after lane: each finds the pages of global memory in their frames, as the first did. -/
theorem writePlaces_frame {m : Memory} {d e : Dev} {t : Ty} {ps : List (Nat × Place)} {bs : Nat → List Byte} {a : Nat}
    (hm : ∀ p ∈ ps, ∀ u pi off k, p.2 = .mapped u pi off k → Resident (pageOf d u pi))
    (ha : ∀ p ∈ ps, ∀ k, p.2 = .device k ∨ p.2 = .host k → ¬ (k ≤ a ∧ a < k + (bs p.1).length))
    (h : (ps.forM (fun p => writePlace p.2 t (bs p.1))) m d = .ok ((), e)) : rdByte m e a = rdByte m d a := by
  induction ps generalizing d with
  | nil =>
    cases h
    rfl
  | cons p ps ih =>
    obtain ⟨_, c, h1, h2⟩ := perf_bind_inv (x := writePlace p.2 t (bs p.1)) h
    obtain ⟨hst, hbytes⟩ := writePlace_frame (hm p List.mem_cons_self) h1
    have hrest := ih (d := c)
      (fun q hq u pi off k hk => by
        unfold Resident
        rw [hst]
        exact hm q (List.mem_cons_of_mem p hq) u pi off k hk)
      (fun q hq => ha q (List.mem_cons_of_mem p hq)) h2
    exact hrest.trans (hbytes a (ha p List.mem_cons_self))

/-- Settles O20: by induction on the lanes' stores, each of which leaves memory or stores its own bytes; a store to a page of global
memory that is not there is a write at the line's home after the page's log. -/
theorem storeFrame : Obligations.StoreFrame := by
  refine ⟨fun m d e t ps bs a hm h ha => ?_, fun m d e t u pi off k bs a hn h => ?_⟩
  · refine writePlaces_frame hm (fun p hp k hk => ha p hp k ?_) (perform_inv h)
    rcases hk with hk | hk
    · rw [hk]
    · rw [hk]
  · have hrun := perform_inv h
    rw [writePlace_mapped_nonResident hn] at hrun
    cases hrun
    exact rdByte_homeWrite ..

end Sys2Proof.Machine
end

section
/-!
SUPPORT. Special registers: what a write leaves and what a read then gives (spec/13_encoding.md R223 to R226,
spec/05_number_formats.md R85, spec/08_line_locks.md R143).
-/
namespace Sys2Proof.Machine
open Sys2Proof.Claims

/-! ### The fields of MODE (R85, R143, R224). -/

theorem bits_lt {n : Nat} (x : BitVec n) (hi lo : Nat) : bits x hi lo < 2 ^ (hi + 1 - lo) := Nat.mod_lt _ (Nat.two_pow_pos _)

/-- RND 0, 6 and 7 name no rounding mode (R85, R224). -/
theorem rndField_eq_none {n : Nat} (h : n = 0 ∨ 6 ≤ n) : rndField n = none := by
  rcases h with rfl | h
  · rfl
  · obtain ⟨k, rfl⟩ := Nat.exists_eq_add_of_le' h
    rfl

/-- RND 1 to 5 each name the mode of that code (R85, R224). -/
theorem exists_rndField : ∀ {n : Nat}, 1 ≤ n → n ≤ 5 → ∃ r, rndField n = some r ∧ rndCode r = n
  | 1, _, _ => ⟨.rne, rfl, rfl⟩
  | 2, _, _ => ⟨.rtz, rfl, rfl⟩
  | 3, _, _ => ⟨.rdn, rfl, rfl⟩
  | 4, _, _ => ⟨.rup, rfl, rfl⟩
  | 5, _, _ => ⟨.rss, rfl, rfl⟩

/-- LHOLD is 0 or lies from 12 to 47, which its six bits hold (R143). -/
theorem lholdStored_toNat (k : Nat) : (lholdStored k).toNat = if k = 0 then 0 else min 47 (max 12 k) := by
  rw [lholdStored, BitVec.toNat_ofNat, Nat.mod_eq_of_lt]
  split <;> omega

section
variable {m : Memory} {d : Dev} {v : W64} {bad : Trap}

/-- A special register that the wave keeps reads as the write has left it (R223). -/
theorem srWrite_reads_back {n l : Nat} {x : Wave} {k : W64} (hw : d.cur.1 < d.waves.length)
    (hrun : Runs (srWrite n v bad) m d () (setMe d x)) (hread : ∀ e, me e = x → srWord e n l = k) :
    ∃ e, Runs (srWrite n v bad) m d () e ∧ srWord e n l = k := ⟨_, hrun, hread _ (me_setMe d x hw)⟩

/-! ### Writes of MODE (R224). -/

/-- A wave under a MODE word, whose RND names a mode. -/
def modeWave (x : Wave) (r : Rnd) (v : W64) : Wave := { x with rnd := r, chk := bits v 0 0 == 1 }

/-- A stage set under a MODE word. -/
def modeSet (t : StageSet) (v : W64) : StageSet :=
  { t with lhold := lholdStored (bits v 23 18), logcap := BitVec.ofNat 3 (bits v 17 15) }

/-- The device after a write of MODE: RND and CHK are the wave's, LHOLD and LOGCAP its stage set's. -/
def modeWritten (d : Dev) (r : Rnd) (v : W64) : Dev :=
  setSet (setMe d (modeWave (me d) r v)) (me d).set (modeSet (mySet d) v)

theorem srWrite_mode {r : Rnd} (hr : rndField (bits v 10 8) = some r) :
    Runs (srWrite 0x08 v bad) m d () (modeWritten d r v) := by
  unfold Runs srWrite
  rw [runAct_bind_ok (runAct_dev _ _)]
  dsimp only
  rw [hr]
  rfl

theorem srWrite_mode_refused (hr : rndField (bits v 10 8) = none) : runAct (srWrite 0x08 v bad) m d = .error bad := by
  unfold srWrite
  rw [runAct_bind_ok (runAct_dev _ _)]
  dsimp only
  rw [hr]
  rfl

theorem me_modeWritten (hw : d.cur.1 < d.waves.length) (r : Rnd) : me (modeWritten d r v) = modeWave (me d) r v :=
  me_setMe d _ hw

theorem mySet_modeWritten (hw : d.cur.1 < d.waves.length) (hs : (me d).set < d.sets.length) (r : Rnd) :
    mySet (modeWritten d r v) = modeSet (mySet d) v := by
  have hset : (me (modeWritten d r v)).set = (me d).set := by rw [me_modeWritten hw, modeWave]
  rw [mySet, hset, modeWritten, setOf_setSet, if_pos ⟨rfl, hs⟩]

end

/-- Settles O33: a register that the wave keeps is read where its write has put it, and a write of MODE goes through exactly
where its RND names a mode. -/
theorem specialRegisters : Obligations.SpecialRegisters := by
  intro m d v bad l hw
  have hfstat : ∃ e, Runs (srWrite 0x09 v bad) m d () e ∧ srWord e 0x09 l = (v.setWidth 9).setWidth 64 :=
    srWrite_reads_back hw rfl fun _ he => congrArg (fun x : Wave => x.fstat.setWidth 64) he
  have hxva : ∃ e, Runs (srWrite 0x0B v bad) m d () e ∧ srWord e 0x0B l = (v.setWidth 16).setWidth 64 :=
    srWrite_reads_back hw rfl fun _ he => congrArg (fun x : Wave => x.xva.setWidth 64) he
  have hxvw : ∃ e, Runs (srWrite 0x0C v bad) m d () e ∧ srWord e 0x0C l = (v.setWidth 16).setWidth 64 :=
    srWrite_reads_back hw rfl fun _ he => congrArg (fun x : Wave => x.xvw.setWidth 64) he
  have hpreempt : ∃ e, Runs (srWrite 0x0E v bad) m d () e ∧ srWord e 0x0E l = v :=
    srWrite_reads_back hw rfl fun _ he => congrArg Wave.preemptAt he
  refine ⟨rfl, rfl, rfl, rfl, hfstat, hxva, hxvw, hpreempt, fun hr => srWrite_mode_refused (rndField_eq_none hr),
    fun h1 h5 hs => ?_⟩
  obtain ⟨r, hr, hcode⟩ := exists_rndField h1 h5
  refine ⟨_, srWrite_mode hr, ?_⟩
  rw [me_modeWritten hw, mySet_modeWritten hw hs]
  exact ⟨hcode, rfl, rfl, Nat.mod_eq_of_lt (bits_lt v 17 15), lholdStored_toNat _⟩

end Sys2Proof.Machine
end

section
/-!
SUPPORT. Floating-point words (spec/14_isa_compute.md R240 to R243, R245, spec/05_number_formats.md R85 to R88). Each is a lane
instruction of one of three shapes: an exact result rounded once, an operand that is returned, an integral value.
-/
namespace Sys2Proof.Machine
open Sys2Proof.Claims

section
variable {i : Instr} {h : Head} {f : FmtX}

/-- A word of the shared floating shape rounds its exact result once and joins the flags (R240, R88). -/
theorem floatResult_of {n lat : Nat} {fn : Rnd → Fp → Fp → Fp → Pre}
    (hx : ∀ s, exec i s = runX i h (codesX f) (fltOp h f n lat (fun env => fn env.rnd)) s) : FloatResult i h f n lat fn :=
  laneResult_of hx

/-- A word that returns one of its operands sets no flag and steps no RSS state (R243). -/
theorem pickResult_of {n : Nat} {fn : Fp → Fp → Fp → Fp} (hx : ∀ s, exec i s = runX i h (codesX f) (pickOp h f n fn) s) :
    LaneResult i h f (codesX f) (some (ty f.ty)) (some (ty f.ty)) (if 3 ≤ n then some (ty f.ty) else none) (ty f.ty) 6
      (fun env a b c => { val := exactCode (ty f.ty) (fn (opA f a) (opB f b) (opC f c)), rss := env.rss }) :=
  laneResult_of hx

/-- A word that rounds to an integral value in a mode of its own sets no flag and steps no RSS state (R241). -/
theorem integralResult_of {r : Rnd} (hx : ∀ s, exec i s = runX i h (codesX f) (roundOp h f (some r)) s) :
    LaneResult i h f (codesX f) (some (ty f.ty)) none none (ty f.ty) 6
      (fun env a _ _ => { val := exactCode (ty f.ty) (integral r 0 (opA f a)), rss := env.rss }) :=
  laneResult_of hx

end

/-- `fround` rounds to an integral value in the word's mode, with the RSS state after its step (R241, R86). -/
theorem fround_result (h : Head) (f : FmtX) :
    LaneResult (.fround h f) h f (codesX f) (some (ty f.ty)) none none (ty f.ty) 6 (fun env a _ _ =>
      { val := exactCode (ty f.ty) (integral env.rnd (stepRss env.rnd env.rss) (opA f a)), rss := stepRss env.rnd env.rss }) :=
  laneResult_of fun _ => rfl

/-- `fclass` gives the bit of its operand's class (R245). -/
theorem fclass_result (h : Head) (f : FmtX) :
    LaneResult (.fclass h f) h f (codesX f) (some (ty f.ty)) none none .n32 6
      (fun env a _ _ => { val := w64 (2 ^ classBit (ty f.ty) a.toNat), rss := env.rss }) :=
  laneResult_of fun _ => rfl

/-- Each word of floating arithmetic is of the shared shape, with the exact function that R242 gives it. -/
theorem floatArithmetic : FloatArithmetic := by
  intro h f
  refine ⟨?fadd, ?fsub, ?fmul, ?ffma, ?fdiv, ?fsqrt, ?frcp, ?frsq, ?fexp2, ?flog2, ?fsinpi, ?fcospi⟩
  all_goals exact floatResult_of fun _ => rfl

/-- The words that set no flag return an operand, an integral value or a class. -/
theorem floatChoices : FloatChoices := by
  intro h f
  exact ⟨pickResult_of (n := 2) (fn := fun a b _ => fpMin a b) fun _ => rfl,
    pickResult_of (n := 2) (fn := fun a b _ => fpMax a b) fun _ => rfl,
    pickResult_of (n := 3) (fn := fun a lo hi => fpMin (fpMax a lo) hi) fun _ => rfl,
    integralResult_of fun _ => rfl, integralResult_of fun _ => rfl, integralResult_of fun _ => rfl,
    fround_result h f, fclass_result h f⟩

/-- Settles O48: each word is a lane instruction of its shape, whose lanes compute what the statement gives. -/
theorem floatWords : Obligations.FloatWords := ⟨floatArithmetic, floatChoices⟩

end Sys2Proof.Machine
end

section
/-!
SUPPORT. Conversions (spec/14_isa_compute.md R246 to R250, spec/13_encoding.md R219, R228).
-/
namespace Sys2Proof.Machine
open Sys2Proof.Claims

/-! ### Conversions lane by lane (R246, R247, R250). -/

/-- The latency of a result with two types: two more where one of them takes a pair (R228). -/
theorem latX_pair (n : Nat) (t u : Ty) :
    latX n [t, u] = if t = .i64 ∨ t = .n64 ∨ u = .i64 ∨ u = .n64 then n + 2 else n := by simp [latX, or_assoc]

theorem noInline_iff (t : Ty) : noInline t = true ↔ t = .e4m3 ∨ t = .e5m2 ∨ t = .e2m1 ∨ t = .i4x := by
  cases t <;> simp [noInline]

/-- The source of a conversion is an inline integer under a narrow source type (R219, log 20). -/
def InlineNarrow (f : FmtX) : Prop :=
  match opd f.a with
  | .inl _ => srcTy f.md = .e4m3 ∨ srcTy f.md = .e5m2 ∨ srcTy f.md = .e2m1 ∨ srcTy f.md = .i4x
  | _ => False

theorem cvtSrc_narrow {f : FmtX} (hn : InlineNarrow f) : cvtSrc f = .i32 := by
  unfold InlineNarrow at hn
  unfold cvtSrc
  generalize opd f.a = o at hn ⊢
  cases o with
  | inl z => exact if_pos ((noInline_iff _).2 hn)
  | _ => exact hn.elim

theorem cvtSrc_other {f : FmtX} (hn : ¬ InlineNarrow f) : cvtSrc f = srcTy f.md := by
  unfold InlineNarrow at hn
  unfold cvtSrc
  generalize opd f.a = o at hn ⊢
  cases o with
  | inl z => exact if_neg fun hi => hn ((noInline_iff _).1 hi)
  | _ => rfl

/-- `cvt` converts each lane's value from the type in which it takes its source (R246). -/
theorem cvt_result {h : Head} {f : FmtX} {src : Ty} (hs : cvtSrc f = src) :
    LaneResult (.cvt h f) h f (codesX f) (some src) none none (ty f.ty) (latX 6 [ty f.ty, srcTy f.md])
      (fun env a _ _ => convert env (ty f.ty) src (bits f.md 4 4 == 1) a) := by
  subst hs
  exact laneResult_of fun _ => rfl

theorem pack2_result (h : Head) (f : FmtX) :
    LaneResult (.pack2 h f) h f (codesX f) (some (srcTy f.md)) (some (srcTy f.md)) none .n32 (latX 6 [ty f.ty, srcTy f.md])
      (fun env a b _ => pack2Of env (ty f.ty) (srcTy f.md) (bits f.md 4 4 == 1) a b) := laneResult_of fun _ => rfl

/-- `srnd` names no destination (R250). -/
theorem srnd_noDestination {h : Head} {f : FmtX} (hf : fieldsOk (.srnd h f) = true) : opd f.d = .zero := by
  simp only [fieldsOk, none8, Bool.and_eq_true, beq_iff_eq] at hf
  obtain ⟨⟨⟨-, hd⟩, -⟩, -⟩ := hf
  rw [hd]
  rfl

/-- Each word is a lane instruction; `cvt` takes an inline integer under a narrow type as `i32`. -/
theorem conversions : Conversions := by
  intro h f
  dsimp only
  rw [← latX_pair 6 (ty f.ty) (srcTy f.md)]
  exact ⟨fun hn => cvt_result (cvtSrc_other hn), fun hn => cvt_result (cvtSrc_narrow hn), pack2_result h f,
    laneResult_of fun _ => rfl, laneResult_of fun _ => rfl, srnd_noDestination⟩

/-! ### Groups (R248, R249). -/

section
variable {h : Head} {f : FmtX} {s : State} {m : W32}

/-- What a lane of `quant` writes: its four bytes of the data, and the descriptor above them (R248). -/
def quantWord (d : Dev) (f : FmtX) (m : W32) (a : Src) (l : Nat) : W64 :=
  leWord (((quantBytes (ty f.ty) m (quantLane d f m a)).drop (4 * l)).take 4) |||
    w64 ((quantSc d (ty f.ty) m a * 256 + tyFmt (ty f.ty)) * 2 ^ 32)

theorem retires_quant {a x y : Src} {d0 d1 : Dev} (ha : Admitted (.quant h f) (codesX f) s)
    (ht : Runs (takeX h f (some .f32) none none) s.mem s.dev (m, a, x, y) d0)
    (hp : Runs (putX .n64 10 m f.d (quantWord d0 f m a)) s.mem (keepRes d0 m (quantLane d0 f m a)) () d1) :
    Retires (.quant h f) h false true s d1 :=
  retires_of rfl ha (by
    rw [runAct_bind_ok ht, runAct_bind_ok (runAct_dev _ _), runAct_bind_ok (runAct_upd _ _ _)]
    exact runAct_bind_ok hp)

/-- The descriptor that `dequant` reads in the lowest active lane (R249). -/
def dequantDesc (f : FmtX) (d : Dev) (l0 : Nat) : BitVec 16 := (regLane (me d) (mySplit d) (f.a.toNat + 1) l0).setWidth 16

/-- `dequant` in some lanes, of which `l0` is the lowest (R249). -/
def dequantBody (f : FmtX) (m : W32) (l0 : Nat) : Act Verdict := do
  checkShort f.a.toNat 0xFFFFFFFF#32
  checkShort (f.a.toNat + 1) m
  let d ← dev
  need (descOk (dequantDesc f d l0)) { cause := cFORMAT }
  upd (fun e => keepRes e m (dequantLane d f (dequantGroup d f (dequantDesc f d l0))))
  putX .f32 10 m f.d (fun l => (dequantLane d f (dequantGroup d f (dequantDesc f d l0)) l).val)
  pure .retire

theorem exec_dequant (h : Head) (f : FmtX) (s : State) : exec (.dequant h f) s = runX (.dequant h f) h (codesX f) (do
    let m ← acting h true
    match lowLane m with
    | none => do
      putX .f32 10 m f.d (fun _ => 0)
      pure .retire
    | some l0 => dequantBody f m l0) s := rfl

section
variable {d d1 : Dev} {mem : Memory} {l0 : Nat} (hc : (me d).chk = false)
include hc

theorem dequantBody_format (hd : descOk (dequantDesc f d l0) = false) :
    runAct (dequantBody f m l0) mem d = .error { cause := cFORMAT } := by
  unfold dequantBody
  rw [runAct_bind_ok (checkShort_free hc), runAct_bind_ok (checkShort_free hc), runAct_bind_ok (runAct_dev _ _), hd,
    runAct_bind_error (runAct_need_false _ _ _)]

theorem dequantBody_retires (hd : descOk (dequantDesc f d l0) = true)
    (hp : Runs (putX .f32 10 m f.d (fun l => (dequantLane d f (dequantGroup d f (dequantDesc f d l0)) l).val)) mem
      (keepRes d m (dequantLane d f (dequantGroup d f (dequantDesc f d l0)))) () d1) :
    runAct (dequantBody f m l0) mem d = .ok (.retire, d1) := by
  unfold dequantBody
  rw [runAct_bind_ok (checkShort_free hc), runAct_bind_ok (checkShort_free hc), runAct_bind_ok (runAct_dev _ _), hd,
    runAct_bind_ok (runAct_need_true _ _ _), runAct_bind_ok (runAct_upd _ _ _), runAct_bind_ok hp, runAct_pure]

end

end

/-- `quant` runs to its end; `dequant` by whether a lane acts and whether the descriptor is well-formed. -/
theorem groupConversions : GroupConversions := by
  intro h f s m
  refine ⟨fun a x y d0 d1 ha ht => retires_quant ha ht, fun l0 d1 hc ha hm => ?_⟩
  have hx := exec_dequant h f s
  refine ⟨fun hl hp => retires_of hx ha ?_, fun hl => ⟨fun hd => traps_of hx ha ?_, fun hd hp => retires_of hx ha ?_⟩⟩
  all_goals rw [runAct_bind_ok hm, hl]
  · exact runAct_bind_ok hp
  · exact dequantBody_format hc hd
  · exact dequantBody_retires hc hd hp

/-- Settles O49: the conversions of single lanes are lane instructions; those of groups run to their ends. -/
theorem conversionWords : Obligations.ConversionWords := ⟨conversions, groupConversions⟩

end Sys2Proof.Machine
end

section
/-!
SUPPORT. The lanes of an atomic that name one place (spec/06_model_near.md R111, spec/15_isa_memory.md R272, R273): their fold into
one operand leaves what they would leave in turn, because each operation at an integer type is associative.
-/
namespace Sys2Proof.Machine

/-! ### Integers and their containers (R79). -/

/-- The four integer types (R235). -/
theorem isInt_iff {t : Ty} : isInt t = true ↔ t = .i32 ∨ t = .n32 ∨ t = .i64 ∨ t = .n64 := by
  cases t <;> decide

theorem isFlt_of_isInt {t : Ty} (ht : isInt t = true) : isFlt t = false := by
  obtain rfl | rfl | rfl | rfl := isInt_iff.1 ht <;> rfl

section
variable {t : Ty} (ht : isInt t = true)
include ht

/-- A container that is read as an integer keeps the low bits of its type's width. -/
theorem intCode_intOf (x : W64) : intCode t (intOf t x) = readTy t x := by
  obtain rfl | rfl | rfl | rfl := isInt_iff.1 ht
  · exact congrArg (BitVec.setWidth 64) BitVec.ofInt_toInt
  · exact congrArg (BitVec.setWidth 64) ((BitVec.ofInt_natCast ..).trans (BitVec.ofNat_toNat ..) |>.trans (BitVec.setWidth_eq _))
  · exact BitVec.ofInt_toInt
  · exact (BitVec.ofInt_natCast ..).trans (BitVec.ofNat_toNat ..) |>.trans (BitVec.setWidth_eq _)

theorem intOf_readTy (x : W64) : intOf t (readTy t x) = intOf t x := by
  obtain rfl | rfl | rfl | rfl := isInt_iff.1 ht <;> simp [intOf, readTy, tyBits]

theorem readTy_intCode (z : Int) : readTy t (intCode t z) = intCode t z := by
  obtain rfl | rfl | rfl | rfl := isInt_iff.1 ht <;> simp [intCode, readTy, tyBits]

/-- The container of a sum is the sum of the containers (R235). -/
theorem intCode_add (x y : Int) : intCode t (x + y) = readTy t (intCode t x + intCode t y) := by
  obtain rfl | rfl | rfl | rfl := isInt_iff.1 ht <;> simp [intCode, readTy, tyBits, BitVec.ofInt_add, BitVec.setWidth_add]

/-! ### The operations are associative (R272, R273). -/

/-- A sum wraps alike whether its parts have wrapped before or not. -/
theorem onInts_add_assoc (a b c : W64) :
    onInts (fun x y _ => x + y) t (onInts (fun x y _ => x + y) t a b 0) c 0 =
      onInts (fun x y _ => x + y) t a (onInts (fun x y _ => x + y) t b c 0) 0 := by
  have hwrap : ∀ z : Int, intCode t (intOf t (intCode t z)) = intCode t z :=
    fun z => (intCode_intOf ht _).trans (readTy_intCode ht z)
  calc intCode t (intOf t (intCode t (intOf t a + intOf t b)) + intOf t c)
      = intCode t (intOf t a + intOf t b + intOf t c) := by rw [intCode_add ht, hwrap, ← intCode_add ht]
    _ = intCode t (intOf t a + (intOf t b + intOf t c)) := by rw [Int.add_assoc]
    _ = intCode t (intOf t a + intOf t (intCode t (intOf t b + intOf t c))) := by
      rw [intCode_add ht, intCode_add ht (intOf t a) (intOf t (intCode t _)), hwrap]

/-- An operation that answers one of its operands answers a value of the type, and so is read back as it is. -/
theorem onInts_choice_assoc {fn : Int → Int → Int} (hpick : ∀ x y, fn x y = x ∨ fn x y = y)
    (hassoc : ∀ x y z, fn (fn x y) z = fn x (fn y z)) (a b c : W64) :
    onInts (fun x y _ => fn x y) t (onInts (fun x y _ => fn x y) t a b 0) c 0 =
      onInts (fun x y _ => fn x y) t a (onInts (fun x y _ => fn x y) t b c 0) 0 := by
  have hback : ∀ x y : W64, intOf t (intCode t (fn (intOf t x) (intOf t y))) = fn (intOf t x) (intOf t y) := by
    intro x y
    rcases hpick (intOf t x) (intOf t y) with h | h <;> rw [h, intCode_intOf ht, intOf_readTy ht]
  simp only [onInts, hback, hassoc]

theorem atomVal_exchange (m v : W64) : atomVal 6 t m v = v := by
  unfold atomVal
  exact if_neg (ne_true_of_eq_false (isFlt_of_isInt ht))

theorem atomVal_assoc {op : Nat} (hop : op ≤ 6) (a b c : W64) :
    atomVal op t (atomVal op t a b) c = atomVal op t a (atomVal op t b c) := by
  have hcodes : op = 6 ∨ op = 0 ∨ op = 1 ∨ op = 2 ∨ op = 3 ∨ op = 4 ∨ op = 5 := by omega
  obtain rfl | rfl | rfl | rfl | rfl | rfl | rfl := hcodes
  · simp only [atomVal_exchange ht]
  all_goals
    unfold atomVal
    simp only [isFlt_of_isInt ht, Bool.false_eq_true, if_false]
  · exact onInts_add_assoc ht a b c
  · exact onInts_choice_assoc ht (fn := fun x y => if x ≤ y then x else y) (by grind) (by grind) a b c
  · exact onInts_choice_assoc ht (fn := fun x y => if x ≤ y then y else x) (by grind) (by grind) a b c
  · exact BitVec.and_assoc a b c
  · exact BitVec.or_assoc a b c
  · exact BitVec.xor_assoc a b c

end

/-! ### Lanes in turn (R111). -/

/-- The lanes of one place perform one after another: what stands there last, and what each lane read. -/
def lanesInTurn (op : Nat) (t : Ty) (vs : List W64) (p : W64 × List W64) : W64 × List W64 :=
  vs.foldl (fun p v => (atomVal op t p.1 v, p.2 ++ [p.1])) p

/-- An exchange leaves each operand to the next lane. -/
theorem lanesInTurn_exchange {op : Nat} {t : Ty} (hop : ∀ m v, atomVal op t m v = v) (vs : List W64) (o : W64) (l : List W64) :
    lanesInTurn op t vs (o, l) = (vs.getLastD o, l ++ (o :: vs).take vs.length) := by
  induction vs generalizing o l with
  | nil => simp [lanesInTurn]
  | cons v r ih =>
    show lanesInTurn op t r (atomVal op t o v, l ++ [o]) = _
    rw [hop, ih, List.getLastD_cons]
    simp

/-- The walk of `foldLanes` over the lanes behind the first: the fold of the operands, and the old value `o` under each fold. -/
def foldFrom (op : Nat) (t : Ty) (o : W64) (vs : List W64) (p : W64 × List W64) : W64 × List W64 :=
  vs.foldl (fun p x => (atomVal op t p.1 x, p.2 ++ [atomVal op t o p.1])) p

/-- While the fold stands at `v`, the lanes in turn stand at `o` op `v`. -/
theorem lanesInTurn_fold {op : Nat} {t : Ty}
    (hassoc : ∀ a b c, atomVal op t (atomVal op t a b) c = atomVal op t a (atomVal op t b c)) (o : W64) (vs : List W64) (v : W64)
    (l : List W64) : lanesInTurn op t vs (atomVal op t o v, l) =
      (atomVal op t o (foldFrom op t o vs (v, l)).1, (foldFrom op t o vs (v, l)).2) := by
  induction vs generalizing v l with
  | nil => rfl
  | cons x r ih =>
    show lanesInTurn op t r (atomVal op t (atomVal op t o v) x, l ++ [atomVal op t o v]) = _
    rw [hassoc, ih]
    rfl

/-- Settles O21: an exchange by the operand before each lane's own, every other operation by its associativity. -/
theorem atomicsFoldAsSequence : Obligations.AtomicsFoldAsSequence := by
  unfold Obligations.AtomicsFoldAsSequence
  intro op t o vs ht hop
  show foldLanes op t o vs = lanesInTurn op t vs (o, [])
  unfold foldLanes
  by_cases h6 : op = 6
  · subst h6
    rw [if_pos rfl, lanesInTurn_exchange (atomVal_exchange ht), List.nil_append]
  · rw [if_neg h6]
    cases vs with
    | nil => rfl
    | cons v r => exact (lanesInTurn_fold (atomVal_assoc ht hop) o r v [o]).symm

end Sys2Proof.Machine
end

section
/-!
SUPPORT. A split that may issue runs the word at its PC (spec/13_encoding.md R209 to R211, spec/12_traps_preemption.md R196, log 12).
-/
namespace Sys2Proof.Machine
open Sys2Proof.Claims

section
variable {m : Memory} {d : Dev} {w sp : Nat}

/-- Nothing is due before the word of a split that may issue (R178): it fetches. -/
theorem issueWork_of_mayIssue (hw : w < d.waves.length) (hsp : sp < (waveOf d w).splits.length) (h : mayIssue m d w sp = true) :
    issueWork m d w sp = fetchIssue m { d with cur := (w, sp) } w sp := by
  obtain ⟨⟨hnext, -⟩, -⟩ := mayIssue_iff.1 h
  obtain ⟨hmove, hepoch, htrap, hpreempt, henter⟩ := wordNext_iff.1 hnext
  rw [issueWork_of_canMove hw hsp hmove, if_neg (not_not.2 hepoch), if_neg (by simp [htrap]), if_neg (by simp [hpreempt]),
    if_neg (by simp [henter]), if_neg (by simp [h])]

/-- A word that has been fetched is decoded (R211), with what its load has loaded ahead (R104). -/
theorem fetchIssue_word {word : W64} {d1 : Dev} (h : Runs (fetchWord (splitOf (waveOf d w) sp).pc) m d word d1) :
    fetchIssue m d w sp = .word (decode word) w sp word (finish m (takeAhead m d1 w sp word)) := by
  unfold fetchIssue
  rw [show runAct _ m d = _ from h]

/-- A fetch that fails is a trap of the split; one that waits for a link is tried again in the next cycle (R196, R371). -/
theorem fetchIssue_error {t : Trap} (h : runAct (fetchWord (splitOf (waveOf d w) sp).pc) m d = .error t) :
    fetchIssue m d w sp = .still (finish m (if t.cause = 0 then modSplit d w sp (fun q => hold q (true, true) (d.cycle + 1))
      else takeTrap m d w sp t false)) := by
  unfold fetchIssue
  rw [h]
  dsimp only [takeOrWait]
  by_cases hc : t.cause = 0
  · simp only [if_pos hc]
  · simp only [if_neg hc]

end

/-- A step that gives a word to its meaning notes what the issue leaves behind (R178, R193). -/
theorem step_of_word {s s' t : State} {i : Instr} {w sp : Nat} {word : W64} (h : stepWork s = .word i w sp word s')
    (hx : exec i s' = .next t) : step s = .next (afterWord s' w sp word t) := by
  unfold step
  rw [h]
  dsimp only
  rw [hx]

/-- Settles O6: past what is due a step fetches, and what was fetched runs or is the split's trap. -/
theorem stepRunsWord : Obligations.StepRunsWord := by
  unfold Obligations.StepRunsWord
  intro s w sp r
  dsimp only
  intro ha hw hsp hmay
  have hwork : stepWork s = fetchIssue s.mem { s.dev with agenda := r, cur := (w, sp) } w sp :=
    (stepWork_of_agenda ha).trans (issueWork_of_mayIssue (d := { s.dev with agenda := r }) hw hsp hmay)
  refine ⟨fun word d1 hf e i t he hi hx => ?_, fun t hf => step_of_still (hwork.trans (fetchIssue_error hf))⟩
  subst he hi
  rw [step_of_word (hwork.trans (fetchIssue_word hf)) hx]
  unfold afterWord
  split <;> rfl

end Sys2Proof.Machine
end

section
/-!
SUPPORT. An atomic as one action at its place (spec/06_model_near.md R110, spec/15_isa_memory.md R275): what it reads, and that it
writes the bytes of its place and no others.
-/
namespace Sys2Proof.Machine

/-! ### Where an atomic performs (R114). -/

theorem grantLine_keepsStores (d : Dev) (n c : Nat) : KeepsStores d (grantLine d n c) := by
  unfold grantLine
  split
  · exact .refl d
  · exact (recallLine_keepsStores d n).trans ⟨rfl, rfl⟩

theorem atomicPlace_keepsStores (d : Dev) (n : Nat) (clu : Bool) : KeepsStores d (atomicPlace d n clu) := by
  unfold atomicPlace
  split
  · exact grantLine_keepsStores d n _
  · exact recallLine_keepsStores d n

theorem KeepsStores.rdBytes {d e : Dev} (h : KeepsStores d e) (m : Memory) (k n : Nat) : rdBytes m e k n = rdBytes m d k n := by
  simp only [Machine.rdBytes, h.rdByte]

/-! ### Read, compute and write (R110, R275). -/

section
variable {α : Type} {m : Memory} {d : Dev} {t : Ty} {t0 pi off k addr : Nat} {clu : Bool} {fn : W64 → W64 × α}

theorem pageReady_resident (hr : Resident (pageOf d t0 pi)) : pageReady t0 pi m d = .ok ((), d) := by
  unfold pageReady
  rw [perf_bind_ok (devP_run m d)]
  rcases hr with hr | hr
  · simp only [hr, pureP_run]
  · simp only [hr, pureP_run]

theorem readModify_page (hr : Resident (pageOf d t0 pi)) (hp : poisonedBytes (pageOf d t0 pi) off (tyBytes t) = false) :
    readModify (.page t0 pi off) t addr clu fn m d =
      let r := fn (leWord (pageBytesAt (pageOf d t0 pi) off (tyBytes t)))
      .ok (r.2, changePage d t0 pi off (tyBytes t) (fun g => pagePut g off (leBytes (tyBytes t) r.1))) :=
  (perf_bind_ok (pageReady_resident hr)).trans ((perf_bind_ok (checkPoison_clean hp)).trans rfl)

theorem readModify_device (h : d.poison.contains (lineNo k) = false) : readModify (.device k) t addr clu fn m d =
    let r := fn (leWord (rdBytes m d k (tyBytes t)))
    .ok (r.2, homeWrite m (atomicPlace d (lineNo k) clu) (whoMe d) k (leBytes (tyBytes t) r.1)) := by
  refine (perf_bind_ok (linePoison_clean h)).trans ?_
  rw [liftD_run]
  dsimp only
  rw [(atomicPlace_keepsStores d (lineNo k) clu).rdBytes]

end

/-- Settles O22: at a resident page the change is the page's; in device memory the write at the line's home stores its bytes alone. -/
theorem readModifyWrite : Obligations.ReadModifyWrite := by
  unfold Obligations.ReadModifyWrite
  intro m d e t t0 pi off k addr clu fn r
  refine ⟨fun hr hp => readModify_page hr hp, fun hp he => ?_⟩
  rw [readModify_device hp] at he
  cases he
  refine ⟨rfl, fun a => ?_⟩
  rw [rdByte_homeWrite, (atomicPlace_keepsStores d (lineNo k) clu).rdByte]
  simp only [leBytes_length]

end Sys2Proof.Machine
end

section
/-!
SUPPORT. Barriers (spec/06_model_near.md R108, R113, spec/15_isa_memory.md R281): how `bar` and `cbar` end, and what the release of an
episode leaves, wave by wave: it wakes splits, moves stamps up, and takes nothing of this back at the later waves.
-/
namespace Sys2Proof.Machine
open Sys2Proof.Claims

/-! ### Arrival (R281). -/

theorem atBar_iff {clu : Bool} {q : Split} : atBar clu q = true ↔ q.park = if clu then .cbar else .bar := by
  unfold atBar
  cases clu <;> cases q.park <;> simp

theorem arrivedBar_iff {clu : Bool} {x : Wave} :
    arrivedBar clu x = true ↔ ∀ q ∈ x.splits, q.mask ≠ 0 → q.park = if clu then .cbar else .bar := by
  simp only [arrivedBar, liveSplits, List.all_eq_true, List.mem_filter, decide_eq_true_eq, and_imp, atBar_iff]

/-! ### `bar` and `cbar` (R108, R113, R281). -/

/-- The other splits of the wave that hold lanes. -/
def otherSplits (d : Dev) : List (Split × Nat) :=
  (me d).splits.zipIdx.filter (fun p => p.2 ≠ d.cur.2 && p.1.mask ≠ 0)

/-- Whether all other splits of the wave are at a barrier, and one of them is at a barrier of the other kind. -/
def mixedBarriers (clu : Bool) (d : Dev) : Bool :=
  ((otherSplits d).map (·.1)).all (fun s => atBar clu s || atBar (!clu) s) && ((otherSplits d).map (·.1)).any (atBar (!clu))

theorem mixedBarriers_iff {clu : Bool} {d : Dev} : mixedBarriers clu d = true ↔
    (∀ p ∈ otherSplits d, p.1.park = .bar ∨ p.1.park = .cbar) ∧
      ∃ p ∈ otherSplits d, p.1.park = if clu then .bar else .cbar := by
  cases clu <;> simp [mixedBarriers, atBar_iff, or_comm]

/-- A split arrives: a release, after which the barriers are judged. -/
def barArrive (clu : Bool) : Act Verdict :=
  releasing (if clu then .clu else .team) (do
    upd (fun d =>
      let d1 := setMySplit d { mySplit d with park := if clu then .cbar else .bar }
      settleBars d1 (me d1).set)
    pure .stay)

section
variable {i : Instr} {clu : Bool} {m : Memory} {d : Dev}

/-- A split that has been woken goes on. -/
theorem barOp_answered (h : (mySplit d).ans.isSome = true) : runAct (barOp i clu) m d = .ok (.retire, d) := by
  obtain ⟨r, hr⟩ := Option.isSome_iff_exists.1 h
  unfold barOp
  rw [runAct_bind_ok (runAct_dev _ _), hr]
  rfl

section
variable (h : (mySplit d).ans = none)
include h

theorem barOp_first : runAct (barOp i clu) m d =
    runAct (need (!mixedBarriers clu d) (illop i) >>= fun _ => barArrive clu) m d := by
  unfold barOp
  rw [runAct_bind_ok (runAct_dev _ _), h]
  rfl

theorem barOp_mixed (hm : mixedBarriers clu d = true) : runAct (barOp i clu) m d = .error (illop i) := by
  rw [barOp_first h, hm]
  exact runAct_bind_error (runAct_need_false _ _ _)

theorem barOp_arrives (hm : ¬ mixedBarriers clu d = true) {e : Dev}
    (hr : Claims.Released (if clu then .clu else .team) d e) : runAct (barOp i clu) m d = .ok (.stay,
      let e1 := setMySplit e { mySplit e with park := if clu then .cbar else .bar }
      settleBars e1 (me e1).set) := by
  rw [barOp_first h, Bool.eq_false_iff.2 hm]
  exact (runAct_bind_ok (runAct_need_true _ _ _)).trans ((released_of hr _).trans rfl)

end

end

/-! ### What a release leaves of a wave (R281). -/

/-- A split that has been woken by a barrier. -/
def Woken (q : Split) : Prop := q.park = .running ∧ q.ans = some []

/-- Splits keep their lanes and stay woken, and the wave's stamp does not fall. -/
structure WaveGoesOn (x y : Wave) : Prop where
  count : y.splits.length = x.splits.length
  mask : ∀ j, (splitOf y j).mask = (splitOf x j).mask
  woken : ∀ j, Woken (splitOf x j) → Woken (splitOf y j)
  vstamp : x.vstamp ≤ y.vstamp

theorem WaveGoesOn.refl (x : Wave) : WaveGoesOn x x := ⟨rfl, fun _ => rfl, fun _ h => h, Nat.le_refl _⟩

theorem WaveGoesOn.trans {x y z : Wave} (hxy : WaveGoesOn x y) (hyz : WaveGoesOn y z) : WaveGoesOn x z :=
  ⟨hyz.count.trans hxy.count, fun j => (hyz.mask j).trans (hxy.mask j), fun j h => hyz.woken j (hxy.woken j h),
    hxy.vstamp.trans hyz.vstamp⟩

/-- A change beside the splits. -/
theorem WaveGoesOn.of_splits {x y : Wave} (hs : y.splits = x.splits) (hv : x.vstamp ≤ y.vstamp) : WaveGoesOn x y := by
  refine ⟨by rw [hs], fun j => ?_, fun j h => ?_, hv⟩
  · simp only [splitOf, hs]
  · simpa only [splitOf, hs] using h

theorem WaveGoesOn.setSplitOf {x : Wave} {j : Nat} {q : Split} (hm : q.mask = (splitOf x j).mask)
    (hw : Woken (splitOf x j) → Woken q) : WaveGoesOn x (setSplitOf x j q) := by
  refine ⟨nthSet_length .., fun k => ?_, fun k h => ?_, Nat.le_refl _⟩
  · rw [splitOf_setSplitOf]
    split
    · next hk => rw [hk.1, hm]
    · rfl
  · rw [splitOf_setSplitOf]
    split
    · next hk => exact hw (hk.1 ▸ h)
    · exact h

/-- Every wave goes on. -/
structure GoesOn (d e : Dev) : Prop where
  waves : e.waves.length = d.waves.length
  wave : ∀ w, WaveGoesOn (waveOf d w) (waveOf e w)

theorem GoesOn.refl (d : Dev) : GoesOn d d := ⟨rfl, fun _ => .refl _⟩

theorem GoesOn.trans {a b c : Dev} (hab : GoesOn a b) (hbc : GoesOn b c) : GoesOn a c :=
  ⟨hbc.waves.trans hab.waves, fun w => (hab.wave w).trans (hbc.wave w)⟩

theorem GoesOn.of_waves {d e : Dev} (h : e.waves = d.waves) : GoesOn d e :=
  ⟨by rw [h], fun w => by simpa only [waveOf, h] using WaveGoesOn.refl _⟩

theorem GoesOn.setWave {d : Dev} {w : Nat} {x : Wave} (h : WaveGoesOn (waveOf d w) x) : GoesOn d (setWave d w x) := by
  refine ⟨nthSet_length .., fun v => ?_⟩
  rw [waveOf_setWave]
  split
  · next hv => rwa [hv.1]
  · exact .refl _

theorem GoesOn.modSplit {d : Dev} {w sp : Nat} {f : Split → Split} (hm : ∀ q, (f q).mask = q.mask)
    (hw : ∀ q, Woken q → Woken (f q)) : GoesOn d (modSplit d w sp f) := .setWave (.setSplitOf (hm _) (hw _))

section
variable {α : Type} {f : Dev → α → Dev} (h : ∀ d a, GoesOn d (f d a))
include h

theorem GoesOn.foldl (l : List α) (d : Dev) : GoesOn d (l.foldl f d) := by
  induction l generalizing d with
  | nil => exact .refl d
  | cons a l ih => exact (h d a).trans (ih _)

/-- What one step of a fold brings about, and every step keeps, stands at its end. -/
theorem GoesOn.foldl_mem {p : Dev → Prop} (hp : ∀ d e, GoesOn d e → p d → p e) {l : List α} {a : α} (ha : a ∈ l) {d : Dev}
    (hf : ∀ e, GoesOn d e → p (f e a)) : p (l.foldl f d) := by
  induction l generalizing d with
  | nil => cases ha
  | cons b l ih =>
    obtain rfl | hl := List.mem_cons.1 ha
    · exact hp _ _ (foldl h l _) (hf d (.refl d))
    · exact ih hl fun e he => hf e ((h d b).trans he)

end

/-! ### Wakes and views (R108, R113, R162). -/

theorem wakeClock_goesOn (d : Dev) (w sp e : Nat) : GoesOn d (wakeClock d w sp e) := by
  unfold wakeClock
  split
  · have hclock : ∀ c, GoesOn d (moveClock d w sp c) := fun c =>
      .setWave ((WaveGoesOn.setSplitOf (q := { splitOf (waveOf d w) sp with clock := c }) rfl id).trans
        (.of_splits rfl (Nat.le_refl _)))
    exact (hclock _).trans (.of_waves rfl)
  · exact .refl d

theorem wake_goesOn (d : Dev) (w sp e : Nat) : GoesOn d (wake d w sp [] e) :=
  (GoesOn.modSplit (f := fun q => { q with park := .running, ans := some [] }) (fun _ => rfl)
    fun _ _ => ⟨rfl, rfl⟩).trans (wakeClock_goesOn _ w sp e)

/-- A split that is woken is woken. -/
theorem woken_wake {d : Dev} {w sp : Nat} (e : Nat) (hw : w < d.waves.length) (hsp : sp < (waveOf d w).splits.length) :
    Woken (splitOf (waveOf (wake d w sp [] e) w) sp) := by
  refine ((wakeClock_goesOn _ w sp e).wave w).woken sp ?_
  unfold modSplit
  dsimp only
  rw [waveOf_setWave, if_pos ⟨rfl, hw⟩, splitOf_setSplitOf, if_pos ⟨rfl, hsp⟩]
  exact ⟨rfl, rfl⟩

theorem raiseV_goesOn (d : Dev) (w v : Nat) : GoesOn d (raiseV d w v) := .setWave (.of_splits rfl (Nat.le_max_left ..))

theorem acquireView_goesOn (d : Dev) (w v : Nat) : GoesOn d (acquireView d w v) := by
  unfold acquireView
  dsimp only
  split
  · exact .setWave (.of_splits rfl (Nat.le_refl _))
  · exact .of_waves rfl

theorem barView_goesOn (d : Dev) (clu : Bool) (w v : Nat) : GoesOn d (barView d clu w v) := by
  unfold barView
  split
  · exact (raiseV_goesOn d w v).trans (acquireView_goesOn ..)
  · exact acquireView_goesOn ..

/-- A wave that leaves a `cbar` has seen what the entries had (R113). -/
theorem barView_saw {d : Dev} {w : Nat} (v : Nat) (hw : w < d.waves.length) : v ≤ (waveOf (barView d true w v) w).vstamp := by
  refine Nat.le_trans ?_ ((acquireView_goesOn (raiseV d w v) w v).wave w).vstamp
  unfold raiseV
  dsimp only
  rw [waveOf_setWave, if_pos ⟨rfl, hw⟩]
  exact Nat.le_max_right ..

/-! ### The end of an episode (R281). -/

/-- A wave leaves its barrier: its view, then the wakes of its splits with lanes. -/
def leaveBar (clu : Bool) (v e : Nat) (d : Dev) (w : Nat) : Dev :=
  (List.range (waveOf d w).splits.length).foldl (fun d i =>
    if (splitOf (waveOf d w) i).mask ≠ 0 then wake d w i [] e else d) (barView d clu w v)

/-- The waves that take part in an episode. -/
def liveWaves (d : Dev) (ws : List Nat) : List Nat := ws.filter (fun w => (waveOf d w).live)

theorem mem_liveWaves {d : Dev} {ws : List Nat} {w : Nat} : w ∈ liveWaves d ws ↔ w ∈ ws ∧ (waveOf d w).live = true :=
  List.mem_filter

/-- The largest stamp of the waves that take part. -/
def entryStamp (d : Dev) (ws : List Nat) : Nat := (liveWaves d ws).foldl (fun v w => max v (waveOf d w).vstamp) 0

/-- The largest clock of their splits with lanes. -/
def entryClock (d : Dev) (ws : List Nat) : Nat :=
  (liveWaves d ws).foldl (fun c w => (liveSplits (waveOf d w)).foldl (fun c s => max c s.clock) c) 0

section
variable {d : Dev} {clu : Bool} {ws : List Nat}

theorem settleBar_waits {w : Nat} (hw : w ∈ liveWaves d ws) (ha : arrivedBar clu (waveOf d w) = false) :
    settleBar d clu ws = d := by
  refine if_pos ?_
  have hall : (liveWaves d ws).all (fun w => arrivedBar clu (waveOf d w)) = false := by
    rw [List.all_eq_false]
    exact ⟨w, hw, by simp [ha]⟩
  show ((liveWaves d ws).isEmpty || !(liveWaves d ws).all _) = true
  rw [hall, Bool.not_false, Bool.or_true]

theorem settleBar_releases {w : Nat} (hw : w ∈ liveWaves d ws) (ha : ∀ v ∈ liveWaves d ws, arrivedBar clu (waveOf d v) = true) :
    settleBar d clu ws = (liveWaves d ws).foldl (leaveBar clu (entryStamp d ws) (entryClock d ws)) d := by
  refine if_neg ?_
  show ¬ ((liveWaves d ws).isEmpty || !(liveWaves d ws).all _) = true
  rw [List.all_eq_true.2 ha, Bool.not_true, Bool.or_false, List.isEmpty_iff]
  exact List.ne_nil_of_mem hw

end

theorem le_foldl_max {f : Nat → Nat} {l : List Nat} {a : Nat} (ha : a ∈ l) (b : Nat) : f a ≤ l.foldl (fun v a => max v (f a)) b := by
  have hinit : ∀ (l : List Nat) (b : Nat), b ≤ l.foldl (fun v a => max v (f a)) b := by
    intro l
    induction l with
    | nil => exact fun b => Nat.le_refl b
    | cons c l ih => exact fun b => (Nat.le_max_left b (f c)).trans (ih _)
  induction l generalizing b with
  | nil => cases ha
  | cons c l ih =>
    obtain rfl | hl := List.mem_cons.1 ha
    · exact (Nat.le_max_right b (f a)).trans (hinit l _)
    · exact ih hl _

section
variable {d : Dev} {clu : Bool} {v e w : Nat}

theorem wakeLanes_goesOn (d : Dev) (w i e : Nat) :
    GoesOn d (if (splitOf (waveOf d w) i).mask ≠ 0 then wake d w i [] e else d) := by
  split
  · exact wake_goesOn d w i e
  · exact .refl d

theorem leaveBar_goesOn (d : Dev) (w : Nat) : GoesOn d (leaveBar clu v e d w) :=
  (barView_goesOn d clu w v).trans (.foldl (fun d i => wakeLanes_goesOn d w i e) _ _)

/-- A wave that leaves its barrier has woken its splits with lanes. -/
theorem leaveBar_wakes {j : Nat} (hw : w < d.waves.length) (hj : (splitOf (waveOf d w) j).mask ≠ 0) :
    Woken (splitOf (waveOf (leaveBar clu v e d w) w) j) := by
  have hlen : j < (waveOf d w).splits.length := by
    by_contra hge
    exact hj (by rw [splitOf, nth, List.getElem?_eq_none (Nat.le_of_not_lt hge)]; rfl)
  refine GoesOn.foldl_mem (fun d i => wakeLanes_goesOn d w i e) (p := fun d => Woken (splitOf (waveOf d w) j))
    (fun _ _ h => (h.wave w).woken j) (List.mem_range.2 hlen) fun d1 h1 => ?_
  have hon := (barView_goesOn d clu w v).trans h1
  rw [if_pos (by rwa [(hon.wave w).mask])]
  exact woken_wake e (by rwa [hon.waves]) (by rwa [(hon.wave w).count])

end

/-- When every wave has arrived, each has woken its splits, and from a `cbar` each has seen what every entry had. -/
theorem settleBar_ends {d : Dev} {clu : Bool} {ws : List Nat} (ha : ∀ v ∈ liveWaves d ws, arrivedBar clu (waveOf d v) = true) {w : Nat}
    (hw : w ∈ liveWaves d ws) :
    (∀ j, (splitOf (waveOf d w) j).mask ≠ 0 → Woken (splitOf (waveOf (settleBar d clu ws) w) j)) ∧
      (clu = true → entryStamp d ws ≤ (waveOf (settleBar d clu ws) w).vstamp) := by
  have hlen : w < d.waves.length := by
    by_contra hge
    have hlive := (mem_liveWaves.1 hw).2
    rw [waveOf, nth, List.getElem?_eq_none (Nat.le_of_not_lt hge)] at hlive
    cases hlive
  rw [settleBar_releases hw ha]
  refine ⟨fun j hj => ?_, ?_⟩
  · refine GoesOn.foldl_mem leaveBar_goesOn (p := fun d => Woken (splitOf (waveOf d w) j)) (fun _ _ h => (h.wave w).woken j) hw
      fun d1 h1 => leaveBar_wakes (by rwa [h1.waves]) (by rwa [(h1.wave w).mask])
  · rintro rfl
    refine GoesOn.foldl_mem leaveBar_goesOn (p := fun e => entryStamp d ws ≤ (waveOf e w).vstamp)
      (fun _ _ h hle => hle.trans (h.wave w).vstamp) hw fun d1 h1 => ?_
    exact (barView_saw _ (by rwa [h1.waves])).trans ((GoesOn.foldl (fun d i => wakeLanes_goesOn d w i _) _ _).wave w).vstamp

/-- Settles O28: a split arrives, or has been woken, or is of the wrong kind; an episode ends when all have arrived. -/
theorem barriers : Obligations.Barriers := by
  unfold Obligations.Barriers
  intro h f s
  refine ⟨fun i clu hi ha => ?_, fun d clu ws => ⟨fun w hw hlive hnot => ?_, fun harr w hw hlive => ?_⟩⟩
  · have hx : exec i s = runJ i h (barOp i clu) s := by
      rcases hi with ⟨rfl, rfl⟩ | ⟨rfl, rfl⟩ <;> rfl
    exact ⟨fun hans => retires_of hx ha (barOp_answered hans),
      fun hans hm => traps_of hx ha (barOp_mixed hans (mixedBarriers_iff.2 hm)),
      fun d hans hm hr => stays_of hx ha (barOp_arrives hans (mt mixedBarriers_iff.1 hm) hr)⟩
  · exact settleBar_waits (mem_liveWaves.2 ⟨hw, hlive⟩) (Bool.eq_false_iff.2 (mt arrivedBar_iff.1 hnot))
  · have hall : ∀ v ∈ liveWaves d ws, arrivedBar clu (waveOf d v) = true := fun v hv =>
      arrivedBar_iff.2 (harr v (mem_liveWaves.1 hv).1 (mem_liveWaves.1 hv).2)
    obtain ⟨hwakes, hsaw⟩ := settleBar_ends hall (mem_liveWaves.2 ⟨hw, hlive⟩)
    exact ⟨hwakes, fun hclu v hv hvl => (le_foldl_max (mem_liveWaves.2 ⟨hv, hvl⟩) 0).trans (hsaw hclu)⟩

end Sys2Proof.Machine
end

section
/-!
SUPPORT. Atomics and reservations (spec/06_model_near.md R110, R111, spec/07_model_far.md R128, spec/15_isa_memory.md R271 to R276):
from the operands of a word and its checked places to the groups or lanes that perform.
-/
namespace Sys2Proof.Machine
open Sys2Proof.Claims

/-! ### Atomics (R110, R111, R271 to R275). -/

/-- An atomic's body, once its places have been checked: an ordering operation beyond `.team` (R160). -/
theorem atomResult_of {i : Instr} {h : Head} {f : FmtX} {fn : (Nat → W64) → (Nat → W64) → GroupFn}
    (hx : ∀ s, exec i s = runA i h (atomOp h f fn) s) : Claims.AtomResult i h f fn := by
  intro s m a b c ps d0 d1 d2 d3 d4 d5
  dsimp only
  intro ha hm hsa hsb hsc hq hc ho
  refine inParts_of (hx s) ha ?_ (done := fun r => do
    loadDst (ty f.ty) m f.d (lane r)
    pure .retire) fun r e e1 hg => runAct_bind_ok hg
  unfold atomOp
  rw [runAct_bind_ok hm, runAct_bind_ok hsa, runAct_bind_ok hsb, runAct_bind_ok hsc, runAct_bind_ok (runAct_dev _ _),
    runAct_bind_ok (roomFor_ok hq)]
  refine (runAct_bind_ok hc).trans (Eq.trans ?_ (orderedIf_of ho))
  simp only [Bool.and_eq_true, decide_eq_true_eq]
  rfl

theorem atomics : Claims.Atomics := by
  intro h f
  refine ⟨atomResult_of fun _ => rfl, atomResult_of fun _ => rfl, ?_⟩
  intro s m a b ps d0 d1 d2 d3 d4
  dsimp only
  intro ha hm hsa hsb hc ho
  refine inParts_of (body := _) rfl ha ?_ (done := fun _ => pure .retire) fun r e e1 hg => hg ▸ rfl
  rw [runAct_bind_ok hm, runAct_bind_ok hsa, runAct_bind_ok hsb, runAct_bind_ok (runAct_dev _ _)]
  refine (runAct_bind_ok hc).trans (Eq.trans ?_ (orderedIf_of ho))
  simp only [Bool.and_eq_true, Bool.or_eq_true, decide_eq_true_eq]
  rfl

/-! ### Reservations (R128, R276). -/

section
variable {h : Head} {s : State} {m : W32} {d0 d1 d2 d3 : Dev}

section
variable {g : FmtM} {ea : Nat → W64} {ps : List (Nat × Place)} (ha : Admitted (.lr h g) [] s)
  (hm : Runs (acting h false) s.mem s.dev m d0) (he : Runs (laneAddr g.base g.off m) s.mem d0 ea d1)
  (hq : opd g.d = .qd → (mySplit d1).qd.length + 1 ≤ 16)
  (hc : Runs (checkLanes (lanesOf m) (fun l => devicePlace (resUse (ty g.sz) false) (ea l).toNat)) s.mem d1 ps d2)
include ha hm he hq hc

/-- With no active lane an `lr` only pops and pushes (R212). -/
theorem retires_lr_none (hp : ps = []) {e : Dev} (hl : Runs (loadDst (ty g.sz) m g.d (fun _ => 0)) s.mem d2 () e) :
    Retires (.lr h g) h true false s e := by
  refine retires_of rfl ha ?_
  rw [runAct_bind_ok hm, runAct_bind_ok he, runAct_bind_ok (roomFor_ok hq)]
  refine (runAct_bind_ok hc).trans ?_
  subst hp
  exact runAct_bind_ok hl

/-- An `lr` reads its lanes, then takes the reservation of its lowest lane's line (R276). -/
theorem inParts_lr {l k : Nat} {r : List (Nat × Place)} (hp : ps = (l, .device k) :: r) (ho : Claims.Ordered s.mem d2 d3) :
    Claims.InParts (.lr h g) h s d3 (ps.map (fun p => { lanes := [p.1], run := lrRead p.2 (ty g.sz) (ea p.1).toNat p.1 }))
      (fun r e e1 => Runs (loadDst (ty g.sz) m g.d (lane r)) s.mem (setMe e { me e with reservation := some (k / 64) }) () e1) := by
  refine inParts_of rfl ha ?_ (done := fun r => do
    upd (fun d => setMe d { me d with reservation := some (lineNo k) })
    loadDst (ty g.sz) m g.d (lane r)
    pure .retire) fun r e e1 hg => (runAct_bind_ok (runAct_upd _ _ _)).trans (runAct_bind_ok hg)
  rw [runAct_bind_ok hm, runAct_bind_ok he, runAct_bind_ok (roomFor_ok hq)]
  refine (runAct_bind_ok hc).trans ?_
  subst hp
  exact ordered_of ho _

end

/-- What an `sc` does at its checked places: its lanes take their turn, and no reservation is left (R276). -/
def scBody (f : FmtX) (m : W32) (v : Nat → W64) (ps : List (Nat × Place)) : Act Verdict :=
  if m = 0 then do
    loadDst .n64 m f.d (fun _ => 0)
    pure .retire
  else ordering (do
    let ok ← act (fun m d => let r := scLanes m (ty f.ty) v ps d 0; (r.2, r.1))
    upd (fun d => setMe d { me d with reservation := none })
    loadDst .n64 m f.d (fun l => if ok.getLsbD l then 0 else 1)
    pure .retire)

section
variable {f : FmtX} {mem : Memory} {v : Nat → W64} {ps : List (Nat × Place)} {d e : Dev}

/-- With no active lane an `sc` only pops and pushes (R212). -/
theorem scBody_none (hz : m = 0) (hl : Runs (loadDst .n64 m f.d (fun _ => 0)) mem d () e) :
    runAct (scBody f m v ps) mem d = .ok (.retire, e) := by
  rw [scBody, if_pos hz]
  exact runAct_bind_ok hl

theorem scBody_lanes (hz : m ≠ 0) (ho : Claims.Ordered mem d d0) (hl : let out := scLanes mem (ty f.ty) v ps d0 0
      Runs (loadDst .n64 m f.d (fun l => if out.2.getLsbD l then 0 else 1)) mem
        (setMe out.1 { me out.1 with reservation := none }) () e) :
    runAct (scBody f m v ps) mem d = .ok (.retire, e) := by
  rw [scBody, if_neg hz, ordered_of ho, runAct_act_bind, runAct_bind_ok (runAct_upd _ _ _)]
  exact runAct_bind_ok hl

end

theorem retires_sc {f : FmtX} {a b : Src} {ps : List (Nat × Place)} {e : Dev} (ha : Admitted (.sc h f) [] s)
    (hm : Runs (acting h false) s.mem s.dev m d0) (hsa : Runs (takeSrc .n64 m f.a) s.mem d0 a d1)
    (hsb : Runs (takeSrc .n64 m f.b) s.mem d1 b d2) (hq : opd f.d = .qd → (mySplit d2).qd.length + 1 ≤ 16)
    (hc : Runs (checkLanes (lanesOf m) (fun l => devicePlace (resUse (ty f.ty) true) (valA (me d2) (mySplit d2) a l).toNat))
      s.mem d2 ps d3)
    (hb : runAct (scBody f m (valA (me d2) (mySplit d2) b) ps) s.mem d3 = .ok (.retire, e)) :
    Retires (.sc h f) h true false s e := by
  refine retires_of rfl ha ?_
  rw [runAct_bind_ok hm, runAct_bind_ok hsa, runAct_bind_ok hsb, runAct_bind_ok (runAct_dev _ _), runAct_bind_ok (roomFor_ok hq)]
  exact (runAct_bind_ok hc).trans hb

end

section
variable {m : Memory} {t : Ty} {v : Nat → W64} {l k : Nat} {r : List (Nat × Place)} {d : Dev} {ok : W32}

/-- A lane stores only while the reservation on its line stands (R276). -/
theorem scLanes_unreserved (h : (me d).reservation ≠ some (lineNo k)) :
    scLanes m t v ((l, .device k) :: r) d ok = scLanes m t v r d ok := by
  rw [scLanes]
  exact if_neg h

theorem scLanes_reserved (h : (me d).reservation = some (lineNo k)) :
    scLanes m t v ((l, .device k) :: r) d ok =
      scLanes m t v r (homeWrite m (recallLine (setMe d { me d with reservation := none }) (lineNo k)) (whoMe d) k
        (leBytes (tyBytes t) (v l))) (ok ||| (1#32 <<< l)) := by
  rw [scLanes]
  exact if_pos h

end

theorem reservations : Claims.Reservations := by
  intro h g f s m d0 d1 d2 d3 d4
  refine ⟨fun ea ps ha hm he hq hc => ⟨fun hp e => retires_lr_none ha hm he hq hc hp, fun l k r hp => inParts_lr ha hm he hq hc hp⟩,
    fun a b ps d5 d6 ha hm hsa hsb hq hc => ⟨fun hz hl => ?_, fun hz ho => ?_⟩,
    fun m t v l k r d ok => ⟨scLanes_unreserved, scLanes_reserved⟩⟩
  · exact retires_sc ha hm hsa hsb hq hc (scBody_none hz hl)
  · dsimp only
    rintro rfl hl
    exact retires_sc ha hm hsa hsb hq hc (scBody_lanes hz ho hl)

/-- Settles O55: each word runs through its checks to its parts, or to its lanes in turn. -/
theorem atomicsAndReservations : Obligations.AtomicsAndReservations := ⟨atomics, reservations⟩

end Sys2Proof.Machine
end

section
/-!
SUPPORT. Seals, bindings and fences (spec/06_model_near.md R95 to R101, spec/07_model_far.md R115, R118, R123, R124,
spec/15_isa_memory.md R277 to R279): each word from its operands to its seal's place, and from there to how it ends.
-/
namespace Sys2Proof.Machine
open Sys2Proof.Claims

/-- What is done only under a condition, before the rest of a body. -/
theorem runAct_when {α : Type} {p : Prop} [Decidable p] {x : Act Unit} {k : Unit → Act α} {m : Memory} {d e : Dev}
    (h : if p then Runs x m d () e else e = d) : runAct (if p then x >>= k else k ()) m d = runAct (k ()) m e := by
  split at h
  · rw [if_pos ‹_›, runAct_bind_ok h]
  · rw [if_neg ‹_›, h]

/-! ### Acquires (R95, R99, R118, R123, R277). -/

/-- What an `acq` does at the place of its seal, with the answer of a peer where one has come. -/
def acqAt (f : FmtM) (m : W32) (va : Nat) (p : Place) (ans : Option Row) : Act Verdict :=
  match p, ans with
  | .peer n _, none => ordering (askPeer n)
  | .peer _ _, some r => do
    upd (fun d => acquireAway d p d.cur.1 (scope f.sc.toNat))
    waveDst (ty f.sz) m f.d (lane r 0)
    pure .retire
  | .device k, _ => do
    lineGood k va
    ordering (do
      let v ← act (fun m d =>
        let d1 := recallFrom d (lineNo k) (some (clusterIdx d d.cur.1))
        (rd64 m d1 k, acquireStamps d1 (lineNo k) d1.cur.1 (scope f.sc.toNat)))
      waveDst (ty f.sz) m f.d v
      pure .retire)
  | p, _ => ordering (do
      match ← perform (readPlace p 8 va false false) with
      | none => pure .stay
      | some bs => do
        upd (fun d => acquireAway d p d.cur.1 (scope f.sc.toNat))
        waveDst (ty f.sz) m f.d (leWord bs)
        pure .retire)

/-- The body of an `acq` at its lowest lane. -/
def acqBody (f : FmtM) (ea : Nat → Nat) (m : W32) (l : Nat) : Act Verdict := do
  roomFor f.d 1
  let d ← dev
  let p ← sealPlace .read (mySplit d).ans.isSome (ea l)
  acqAt f m (ea l) p (mySplit d).ans

/-- The whole of an `acq`. -/
def acqWord (h : Head) (f : FmtM) : Act Verdict :=
  waveOp h (fun m => do
    let ea ← sealAddr f m
    pure (acqBody f ea)) (fun m => loadDst (ty f.sz) m f.d (fun _ => 0))

theorem exec_acq (h : Head) (f : FmtM) (s : State) : exec (.acq h f) s = runA (.acq h f) h (acqWord h f) s := rfl

section
variable {f : FmtM} {m : W32} {va k n pa : Nat} {ans : Option Row} {r : Row} {mem : Memory} {d d1 e : Dev}

/-- In device memory the value is read, and the stamp of the scope taken, at the line's home (R118). -/
theorem acqAt_device (hp : d.poison.contains (lineNo k) = false) (ho : Claims.Ordered mem d d1)
    (hl : let d2 := recallFrom d1 (lineNo k) (some (clusterIdx d1 d1.cur.1))
      Runs (loadDst (ty f.sz) m f.d (fun _ => rd64 mem d2 k)) mem
        (acquireStamps d2 (lineNo k) d2.cur.1 (scope f.sc.toNat)) () e) :
    runAct (acqAt f m va (.device k) ans) mem d = .ok (.retire, e) := by
  have hgood : runAct (lineGood k va) mem d = .ok ((), d) := by
    unfold lineGood
    rw [runAct_bind_ok (runAct_dev _ _), hp]
    rfl
  unfold acqAt
  rw [runAct_bind_ok hgood, ordered_of ho, runAct_act_bind]
  exact runAct_bind_ok hl

/-- In host memory it sees what the releases that it synchronises with cover (log 53). -/
theorem acqAt_host {bs : List Byte} {d2 : Dev} (ho : Claims.Ordered mem d d1)
    (hr : Runs (perform (readPlace (.host k) 8 va false false)) mem d1 (some bs) d2)
    (hl : Runs (loadDst (ty f.sz) m f.d (fun _ => leWord bs)) mem
      (acquireAway d2 (.host k) d2.cur.1 (scope f.sc.toNat)) () e) :
    runAct (acqAt f m va (.host k) ans) mem d = .ok (.retire, e) := by
  unfold acqAt
  rw [ordered_of ho, runAct_bind_ok hr]
  exact (runAct_bind_ok (runAct_upd _ _ _)).trans (runAct_bind_ok hl)

/-- A peer is asked, and the split waits for its answer (R123, R125). -/
theorem acqAt_asks (ho : Claims.Ordered mem d d1) : runAct (acqAt f m va (.peer n pa) none) mem d = .ok (.stay,
    let e := sendTo d1 n (.request d1.cur.1 d1.cur.2)
    setMySplit e { mySplit e with park := .peer (2 * n) }) :=
  (ordered_of ho _).trans rfl

theorem acqAt_answered (hl : Runs (loadDst (ty f.sz) m f.d (fun _ => lane r 0)) mem
    (acquireAway d (.peer n pa) d.cur.1 (scope f.sc.toNat)) () e) :
    runAct (acqAt f m va (.peer n pa) (some r)) mem d = .ok (.retire, e) :=
  (runAct_bind_ok (runAct_upd _ _ _)).trans (runAct_bind_ok hl)

end

section
variable {h : Head} {f : FmtM} {s : State} {m : W32} {ea : Nat → Nat} {d0 d1 : Dev}
  (hm : Runs (acting h false) s.mem s.dev m d0) (he : Runs (sealAddr f m) s.mem d0 ea d1)
include hm he

theorem retires_acq_none (ha : Admitted (.acq h f) [] s) (hl : lowLane m = none) {e : Dev}
    (hd : Runs (loadDst (ty f.sz) m f.d (fun _ => 0)) s.mem d1 () e) :
    Retires (.acq h f) h true false s e :=
  retires_of (exec_acq h f s) ha (waveOp_none hm ((runAct_bind_ok he).trans rfl) hl hd)

section
variable {l : Nat} {p : Place} {d2 e : Dev} (hl : lowLane m = some l) (hq : Claims.Room f.d d1)
  (hp : Runs (sealPlace .read (mySplit d1).ans.isSome (ea l)) s.mem d1 p d2)
include hl hq hp

theorem acq_runs {v : Verdict} (hb : runAct (acqAt f m (ea l) p (mySplit d1).ans) s.mem d2 = .ok (v, e)) :
    runAct (acqWord h f) s.mem s.dev = .ok (v, e) := by
  rw [acqWord, waveOp_of hm ((runAct_bind_ok he).trans rfl) hl]
  refine asLane_ok ?_
  unfold acqBody
  rw [runAct_bind_ok (room_of hq), runAct_bind_ok (runAct_dev _ _)]
  exact (runAct_bind_ok hp).trans hb

section
variable (ha : Admitted (.acq h f) [] s)
include ha

theorem retires_acq (hb : runAct (acqAt f m (ea l) p (mySplit d1).ans) s.mem d2 = .ok (.retire, e)) :
    Retires (.acq h f) h true false s e := retires_of (exec_acq h f s) ha (acq_runs hm he hl hq hp hb)

theorem stays_acq (hb : runAct (acqAt f m (ea l) p (mySplit d1).ans) s.mem d2 = .ok (.stay, e)) : Stays (.acq h f) s e :=
  stays_of (exec_acq h f s) ha (acq_runs hm he hl hq hp hb)

end

end

end

/-! ### Releases (R97, R99, R118, R124, R126). -/

/-- What a `rel` does once it may release: its report of lost writes, and then its seal write (R124). -/
def relPerform (f : FmtM) (m : W32) (p : Place) (v : W64) : Act Verdict := do
  if scope f.sc.toNat = .sys then reportLost else pure ()
  let e ← dev
  if (mySplit e).park ≠ .running then pure .stay
  else do
    relWrite m p (scope f.sc.toNat) v
    pure .retire

/-- The body of a `rel` at its lowest lane. -/
def relBody (f : FmtM) (src : Src) (ea : Nat → Nat) (m : W32) (l : Nat) : Act Verdict := do
  let p ← sealPlace .write true (ea l)
  let d ← dev
  ordering (releasing (scope f.sc.toNat) (relPerform f m p (extLoad (ty f.sz) (valA (me d) (mySplit d) src l))))

/-- The whole of a `rel`. -/
def relWord (h : Head) (f : FmtM) : Act Verdict :=
  waveOp h (fun m => do
    let src ← takeSrc .n64 m f.d
    let ea ← sealAddr f m
    pure (relBody f src ea)) (fun _ => pure ())

theorem exec_rel (h : Head) (f : FmtM) (s : State) : exec (.rel h f) s = runA (.rel h f) h (relWord h f) s := rfl

section
variable {m : W32} {k : Nat} {p : Place} {sc : Scope} {v : W64} {mem : Memory} {d d1 e : Dev}

theorem relWrite_device (hs : let d1 := recallLine d (lineNo k)
    Runs (startPushes m (lineNo k)) mem (homeWrite mem (releaseStamps d1 (lineNo k) sc (some d.cur.1) (me d1).vstamp) (whoMe d) k
      (leBytes 8 v)) () e) : Runs (relWrite m (.device k) sc v) mem d () e :=
  (runAct_bind_ok (runAct_actU _ _ _)).trans hs

/-- A seal outside device memory remembers the release (log 53). -/
theorem relWrite_away (hp : ∀ k, p ≠ .device k) (hw : Runs (perform (writePlace p .n64 (leBytes 8 v))) mem d (some ()) d1)
    (hs : Runs (startPushes m (sealLine p)) mem (releaseAway d1 p d1.cur.1 sc) () e) : Runs (relWrite m p sc v) mem d () e := by
  cases p with
  | device k => exact absurd rfl (hp k)
  | _ => exact (runAct_bind_ok hw).trans ((runAct_bind_ok (runAct_upd _ _ _)).trans hs)

section
variable {f : FmtM} (hr : if scope f.sc.toNat = .sys then Runs reportLost mem d () d1 else d1 = d)
include hr

/-- A record that meets a full ring holds the seal write back (R124). -/
theorem relPerform_held (hk : (mySplit d1).park ≠ .running) : runAct (relPerform f m p v) mem d = .ok (.stay, d1) := by
  unfold relPerform
  refine (runAct_when hr).trans ?_
  rw [runAct_bind_ok (runAct_dev _ _), if_pos hk, runAct_pure]

theorem relPerform_writes (hk : (mySplit d1).park = .running) (hw : Runs (relWrite m p (scope f.sc.toNat) v) mem d1 () e) :
    runAct (relPerform f m p v) mem d = .ok (.retire, e) := by
  unfold relPerform
  refine (runAct_when hr).trans ?_
  rw [runAct_bind_ok (runAct_dev _ _), if_neg (not_not.2 hk), runAct_bind_ok hw, runAct_pure]

end

end

section
variable {h : Head} {f : FmtM} {s : State} {m : W32} {src : Src} {ea : Nat → Nat} {d0 d1 d2 : Dev}
  (hm : Runs (acting h false) s.mem s.dev m d0) (hs : Runs (takeSrc .n64 m f.d) s.mem d0 src d1)
  (he : Runs (sealAddr f m) s.mem d1 ea d2)
include hm hs he

theorem retires_rel_none (ha : Admitted (.rel h f) [] s) (hl : lowLane m = none) : Retires (.rel h f) h true false s d2 :=
  retires_of (exec_rel h f s) ha (waveOp_none hm ((runAct_bind_ok hs).trans ((runAct_bind_ok he).trans rfl)) hl rfl)

section
variable {l : Nat} {p : Place} {d3 d4 d5 e : Dev} (hl : lowLane m = some l) (hp : Runs (sealPlace .write true (ea l)) s.mem d2 p d3)
  (ho : Claims.Ordered s.mem d3 d4) (hr : Claims.Released (scope f.sc.toNat) d4 d5)
include hl hp ho hr

theorem rel_runs {v : Verdict}
    (hb : runAct (relPerform f m p (extLoad (ty f.sz) (valA (me d3) (mySplit d3) src l))) s.mem d5 = .ok (v, e)) :
    runAct (relWord h f) s.mem s.dev = .ok (v, e) := by
  rw [relWord, waveOp_of hm ((runAct_bind_ok hs).trans ((runAct_bind_ok he).trans rfl)) hl]
  refine asLane_ok ?_
  unfold relBody
  rw [runAct_bind_ok hp, runAct_bind_ok (runAct_dev _ _), ordered_of ho, released_of hr]
  exact hb

section
variable (ha : Admitted (.rel h f) [] s)
include ha

theorem stays_rel (hb : runAct (relPerform f m p (extLoad (ty f.sz) (valA (me d3) (mySplit d3) src l))) s.mem d5 = .ok (.stay, e)) :
    Stays (.rel h f) s e := stays_of (exec_rel h f s) ha (rel_runs hm hs he hl hp ho hr hb)

theorem retires_rel
    (hb : runAct (relPerform f m p (extLoad (ty f.sz) (valA (me d3) (mySplit d3) src l))) s.mem d5 = .ok (.retire, e)) :
    Retires (.rel h f) h true false s e := retires_of (exec_rel h f s) ha (rel_runs hm hs he hl hp ho hr hb)

end

end

end

theorem seals : Claims.Seals := by
  intro h f s m ea p d0 d1 d2 d3
  dsimp only
  refine ⟨fun ha hm he => ⟨fun hl e => retires_acq_none hm he ha hl, fun l hl hq hp => ⟨?_, ?_, ?_, ?_⟩⟩,
    fun src ha hm hs he => ⟨retires_rel_none hm hs he ha, fun l d4 d5 d6 hl hp ho hr hrep => ⟨fun hk => ?_, ?_, ?_⟩⟩⟩
  · rintro k rfl hgood ho e hd
    exact retires_acq hm he hl hq hp ha (acqAt_device hgood ho hd)
  · rintro k bs d4 rfl ho hread e hd
    exact retires_acq hm he hl hq hp ha (acqAt_host ho hread hd)
  · rintro n pa rfl - - hans ho
    exact stays_acq hm he hl hq hp ha (hans ▸ acqAt_asks ho)
  · rintro n pa r rfl hans e hd
    exact retires_acq hm he hl hq hp ha (hans ▸ acqAt_answered hd)
  · exact stays_rel hm hs he hl hp ho hr ha (relPerform_held hrep hk)
  · rintro k d8 hk rfl hpush
    exact retires_rel hm hs he hl hp ho hr ha (relPerform_writes hrep hk (relWrite_device hpush))
  · intro d7 d8 hk hp' hw hpush
    exact retires_rel hm hs he hl hp ho hr ha (relPerform_writes hrep hk (relWrite_away hp' hw hpush))

/-! ### Bindings (R96, R278). -/

/-- A seal's range goes to the end of the table, which holds 1,024. -/
def appendBinding (bs : List Binding) (b : Binding) : Act (List Binding) := do
  need (decide (bs.length < 1024)) { cause := cBINDFULL }
  pure (bs ++ [b])

/-- Every equal range leaves the table. -/
def removeBinding (bs : List Binding) (b : Binding) : Act (List Binding) := pure (bs.filter (· ≠ b))

/-- The lines of a range under its seal. -/
def bindingOf (a : Nat × Nat × Nat) : Binding := ⟨a.1, a.2.1 / 64, (a.2.1 + a.2.2 - 1) / 64⟩

/-- The body of `bind` and `unbind` at the operands of the lowest lane. -/
def bindBody (change : List Binding → Binding → Act (List Binding)) (a : Nat × Nat × Nat) : Act Verdict := do
  let _ ← sealPlace .read true a.1
  if a.2.2 = 0 then pure .retire
  else
    need (decide (a.2.1 + a.2.2 ≤ 2 ^ 57)) { cause := cBADADDR, addr := w64 a.2.1 }
    let d ← dev
    let bs ← change (ctxOf d (me d).ctx).bindings (bindingOf a)
    actU (fun m e => putBindings m e (me d).ctx bs)
    pure .retire

section
variable {change : List Binding → Binding → Act (List Binding)} {a : Nat × Nat × Nat} {p : Place} {mem : Memory} {d d1 : Dev}
  (hp : Runs (sealPlace .read true a.1) mem d p d1)
include hp

theorem bindBody_empty (hn : a.2.2 = 0) : runAct (bindBody change a) mem d = .ok (.retire, d1) := by
  unfold bindBody
  rw [runAct_bind_ok hp, if_pos hn, runAct_pure]

section
variable (hn : a.2.2 ≠ 0)
include hn

theorem bindBody_past (hpast : 2 ^ 57 < a.2.1 + a.2.2) :
    runAct (bindBody change a) mem d = .error { cause := cBADADDR, addr := w64 a.2.1 } := by
  unfold bindBody
  rw [runAct_bind_ok hp, if_neg hn, decide_eq_false (Nat.not_le_of_gt hpast)]
  exact runAct_bind_error (runAct_need_false _ _ _)

section
variable (hin : a.2.1 + a.2.2 ≤ 2 ^ 57)
include hin

/-- A range inside the space changes the context's table. -/
theorem bindBody_changes : runAct (bindBody change a) mem d = runAct (do
    let bs ← change (ctxOf d1 (me d1).ctx).bindings (bindingOf a)
    actU (fun m e => putBindings m e (me d1).ctx bs)
    pure Verdict.retire) mem d1 := by
  unfold bindBody
  rw [runAct_bind_ok hp, if_neg hn, decide_eq_true hin, runAct_bind_ok (runAct_need_true _ _ _), runAct_bind_ok (runAct_dev _ _)]

theorem bindBody_appends (hroom : (ctxOf d1 (me d1).ctx).bindings.length < 1024) : runAct (bindBody appendBinding a) mem d =
    .ok (.retire, putBindings mem d1 (me d1).ctx ((ctxOf d1 (me d1).ctx).bindings ++ [bindingOf a])) := by
  rw [bindBody_changes hp hn hin, runAct_bind_ok (a := _ ++ [bindingOf a]) (e := d1)]
  · rfl
  · rw [appendBinding, decide_eq_true hroom]
    rfl

theorem bindBody_full (hfull : 1024 ≤ (ctxOf d1 (me d1).ctx).bindings.length) :
    runAct (bindBody appendBinding a) mem d = .error { cause := cBINDFULL } := by
  rw [bindBody_changes hp hn hin]
  refine runAct_bind_error ?_
  rw [appendBinding, decide_eq_false (Nat.not_lt_of_ge hfull)]
  exact runAct_bind_error (runAct_need_false _ _ _)

theorem bindBody_removes : runAct (bindBody removeBinding a) mem d =
    .ok (.retire, putBindings mem d1 (me d1).ctx ((ctxOf d1 (me d1).ctx).bindings.filter (· ≠ bindingOf a))) := by
  rw [bindBody_changes hp hn hin]
  rfl

end

end

end

section
variable {h : Head} {f : FmtX} {change : List Binding → Binding → Act (List Binding)} {i : Instr} {s : State} {m : W32}
  {args : Nat → Nat × Nat × Nat} {d0 d1 : Dev} (hx : exec i s = runA i h (bindOp h f change) s) (ha : Admitted i [] s)
  (hm : Runs (acting h false) s.mem s.dev m d0) (hargs : Runs (bindArgs f m) s.mem d0 args d1)
include hx ha hm hargs

theorem retires_bind_none (hl : lowLane m = none) : Retires i h true false s d1 :=
  retires_of hx ha (waveOp_none hm ((runAct_bind_ok hargs).trans rfl) hl rfl)

section
variable {l : Nat} (hl : lowLane m = some l)
include hl

theorem retires_bind {e : Dev} (hb : runAct (bindBody change (args l)) s.mem d1 = .ok (.retire, e)) :
    Retires i h true false s e :=
  retires_of hx ha ((waveOp_of hm ((runAct_bind_ok hargs).trans rfl) hl).trans (asLane_ok hb))

theorem traps_bind {t : Trap} (hb : runAct (asLane l (bindBody change (args l))) s.mem d1 = .error t) : Traps i s t :=
  traps_of hx ha ((waveOp_of hm ((runAct_bind_ok hargs).trans rfl) hl).trans hb)

end

end

/-! ### Fences (R106, R124, R279). -/

/-- The body of a `fence`: a release that reports, at `.sys`, the writes that were lost (log 24). -/
def fenceBody (f : FmtM) (m : W32) : Act Verdict :=
  if m = 0 then pure .retire
  else releasing (scope f.sc.toNat) (do
    if scope f.sc.toNat = .sys then reportLost else pure ()
    pure .retire)

theorem exec_fence (h : Head) (f : FmtM) (s : State) : exec (.fence h f) s = runA (.fence h f) h (do
    let m ← acting h false
    fenceBody f m) s := rfl

section
variable {f : FmtM} {m : W32} {mem : Memory} {d d1 d2 : Dev}

theorem fenceBody_none (hz : m = 0) : runAct (fenceBody f m) mem d = .ok (.retire, d) := by
  rw [fenceBody, if_pos hz, runAct_pure]

theorem fenceBody_waits (hz : m ≠ 0) (hp : (me d).posted ≠ []) :
    runAct (fenceBody f m) mem d = .ok (.stay, setMySplit d { mySplit d with park := .ack }) := by
  rw [fenceBody, if_neg hz, unreleased_of hp]

theorem fenceBody_releases (hz : m ≠ 0) (hr : Claims.Released (scope f.sc.toNat) d d1)
    (hrep : if scope f.sc.toNat = .sys then Runs reportLost mem d1 () d2 else d2 = d1) :
    runAct (fenceBody f m) mem d = .ok (.retire, d2) := by
  rw [fenceBody, if_neg hz, released_of hr]
  exact runAct_when hrep

end

theorem bindingsAndFences : Claims.BindingsAndFences := by
  intro h f g s m args p d0 d1 d2
  dsimp only
  refine ⟨fun i hi ha hm hargs => ?_, fun ha hm => ⟨fun hz => ?_, fun hz hp => ?_, fun hz hr hrep => ?_⟩⟩
  · have hchange : ∃ change, exec i s = runA i h (bindOp h f change) s := by
      rcases hi with rfl | rfl
      · exact ⟨appendBinding, rfl⟩
      · exact ⟨removeBinding, rfl⟩
    obtain ⟨change, hx⟩ := hchange
    refine ⟨retires_bind_none hx ha hm hargs, fun l hl hp => ⟨fun hn => retires_bind hx ha hm hargs hl (bindBody_empty hp hn),
      fun hn hpast => traps_bind hx ha hm hargs hl ?_, fun hn hin => ⟨?_, ?_, ?_⟩⟩⟩
    · rw [asLane_error (bindBody_past hp hn hpast)]
      rfl
    · rintro rfl hroom
      exact retires_bind rfl ha hm hargs hl (bindBody_appends hp hn hin hroom)
    · rintro rfl hfull
      exact traps_bind rfl ha hm hargs hl (asLane_other (bindBody_full hp hn hin hfull) rfl)
    · rintro rfl
      exact retires_bind rfl ha hm hargs hl (bindBody_removes hp hn hin)
  · exact retires_of (exec_fence h g s) ha ((runAct_bind_ok hm).trans (fenceBody_none hz))
  · exact stays_of (exec_fence h g s) ha ((runAct_bind_ok hm).trans (fenceBody_waits hz hp))
  · exact retires_of (exec_fence h g s) ha ((runAct_bind_ok hm).trans (fenceBody_releases hz hr hrep))

/-- Settles O56: each word ends as its body ends at the place of its seal. -/
theorem sealsAndFences : Obligations.SealsAndFences := ⟨seals, bindingsAndFences⟩

end Sys2Proof.Machine
end

section
/-!
SUPPORT. Stamps, views and copies at the home of a line (spec/07_model_far.md R114 to R120, R129, R152): what the home tells the
waves moves no line and lowers no view; a recall, a write and a read by what each leaves of its line's stamps.
-/
namespace Sys2Proof.Machine

/-! ### Views rise (R100, R116, R129). -/

/-- The waves stand, their lease ends as before and their views no lower. -/
structure ViewsRise (d e : Dev) : Prop where
  count : e.waves.length = d.waves.length
  lmax : ∀ w, (waveOf e w).lmax = (waveOf d w).lmax
  vstamp : ∀ w, (waveOf d w).vstamp ≤ (waveOf e w).vstamp

theorem ViewsRise.trans {a b c : Dev} (hab : ViewsRise a b) (hbc : ViewsRise b c) : ViewsRise a c :=
  ⟨hbc.count.trans hab.count, fun w => (hbc.lmax w).trans (hab.lmax w), fun w => (hab.vstamp w).trans (hbc.vstamp w)⟩

theorem ViewsRise.of_waves {d e : Dev} (h : e.waves = d.waves) : ViewsRise d e :=
  ⟨by rw [h], fun w => by simp only [waveOf, h], fun w => by simp only [waveOf, h, Nat.le_refl]⟩

theorem ViewsRise.refl (d : Dev) : ViewsRise d d := .of_waves rfl

theorem ViewsRise.setWave {d : Dev} {w : Nat} {x : Wave} (hl : x.lmax = (waveOf d w).lmax) (hv : (waveOf d w).vstamp ≤ x.vstamp) :
    ViewsRise d (setWave d w x) := by
  refine ⟨nthSet_length .., fun v => ?_, fun v => ?_⟩
  · rw [waveOf_setWave]
    split
    · next h => rw [h.1, hl]
    · rfl
  · rw [waveOf_setWave]
    split
    · next h => rwa [h.1]
    · exact Nat.le_refl _

/-- The home tells waves of an event: no line changes, and views rise. -/
structure Tells (d e : Dev) : Prop extends ViewsRise d e where
  lines : e.lines = d.lines

theorem Tells.trans {a b c : Dev} (hab : Tells a b) (hbc : Tells b c) : Tells a c :=
  ⟨hab.toViewsRise.trans hbc.toViewsRise, hbc.lines.trans hab.lines⟩

theorem Tells.of_waves {d e : Dev} (hw : e.waves = d.waves) (hl : e.lines = d.lines) : Tells d e := ⟨.of_waves hw, hl⟩

theorem Tells.refl (d : Dev) : Tells d d := ⟨.refl d, rfl⟩

theorem Tells.setWave {d : Dev} {w : Nat} {x : Wave} (hl : x.lmax = (waveOf d w).lmax) (hv : (waveOf d w).vstamp ≤ x.vstamp) :
    Tells d (setWave d w x) := ⟨.setWave hl hv, rfl⟩

theorem Tells.foldl {α : Type} {f : Dev → α → Dev} (h : ∀ d a, Tells d (f d a)) (l : List α) (d : Dev) :
    Tells d (l.foldl f d) := by
  induction l generalizing d with
  | nil => exact .refl d
  | cons a l ih => exact (h d a).trans (ih _)

theorem Tells.lineOf {d e : Dev} (h : Tells d e) (n : Nat) : lineOf e n = lineOf d n := by simp only [Machine.lineOf, h.lines]

theorem modSplit_tells (d : Dev) (w sp : Nat) (f : Split → Split) : Tells d (modSplit d w sp f) := .setWave rfl (Nat.le_refl _)

theorem wakeClock_tells (d : Dev) (w sp e : Nat) : Tells d (wakeClock d w sp e) := by
  unfold wakeClock
  split
  · have hclock : ∀ c, Tells d (moveClock d w sp c) := fun c => .setWave rfl (Nat.le_refl _)
    exact (hclock _).trans (.of_waves rfl rfl)
  · exact .refl d

theorem wake_tells (d : Dev) (w sp : Nat) (ans : Row) (e : Nat) : Tells d (wake d w sp ans e) :=
  (modSplit_tells d w sp _).trans (wakeClock_tells _ w sp e)

theorem notify_tells (d : Dev) (w sp : Nat) (watch : Watch) (ans : Row) (e : Nat) : Tells d (notify d w sp watch ans e) := by
  cases watch with
  | entry => exact wake_tells d w sp ans e
  | due _ _ => exact .refl d
  | polled => exact (modSplit_tells d w sp _).trans (wakeClock_tells _ w sp e)

theorem raiseV_tells (d : Dev) (w v : Nat) : Tells d (raiseV d w v) := .setWave rfl (Nat.le_max_left ..)

theorem vstamp_raiseV {d : Dev} {w : Nat} (v : Nat) (hw : w < d.waves.length) :
    (waveOf (raiseV d w v) w).vstamp = max (waveOf d w).vstamp v := by
  unfold raiseV
  dsimp only
  rw [waveOf_setWave, if_pos ⟨rfl, hw⟩]

theorem viewWrite_tells (d : Dev) (w n : Nat) : Tells d (viewWrite d w n) := by
  unfold viewWrite
  split
  · exact raiseV_tells d w _
  · exact .refl d

theorem tellMonitor_tells (d : Dev) (w n e : Nat) : Tells d (tellMonitor d w n e) := by
  unfold tellMonitor
  split
  · exact .refl d
  · have hdisarm : Tells d (setWave d w { waveOf d w with monitor := none }) := .setWave rfl (Nat.le_refl _)
    exact (hdisarm.trans (viewWrite_tells _ w n)).trans (.foldl (fun d i => wake_tells d w i [] e) _ _)

theorem wakeMonitors_tells (d : Dev) (n e : Nat) : Tells d (wakeMonitors d n e) := by
  refine Tells.foldl (fun d w => ?_) _ d
  dsimp only
  split
  · split
    · exact .refl d
    · split
      · exact tellMonitor_tells d w n e
      · split
        · exact .refl d
        · refine .trans (.setWave ?_ ?_) (.foldl (fun d i => wakeClock_tells d w i e) _ _)
          · rfl
          · exact Nat.le_refl _
  · exact .refl d

/-- An element of a list whose elements are changed, with the element that does not exist standing for itself. -/
theorem nth_map {α : Type} {f : α → α} {e : α} (h : f e = e) (l : List α) (n : Nat) : nth (l.map f) n e = f (nth l n e) := by
  unfold nth
  rw [List.getElem?_map]
  conv_lhs => rw [← h]
  exact Option.getD_map ..

theorem waveOf_clearReservations (d : Dev) (n w : Nat) : waveOf (clearReservations d n) w =
    if (waveOf d w).reservation = some n then { waveOf d w with reservation := none } else waveOf d w :=
  nth_map (f := fun x : Wave => if x.reservation = some n then { x with reservation := none } else x) (e := noWave) rfl d.waves w

theorem clearReservations_tells (d : Dev) (n : Nat) : Tells d (clearReservations d n) := by
  refine ⟨⟨List.length_map .., fun w => ?_, fun w => ?_⟩, rfl⟩
  · rw [waveOf_clearReservations]
    split <;> rfl
  · rw [waveOf_clearReservations]
    split <;> exact Nat.le_refl _

theorem patchLease_tells (d : Dev) (w k : Nat) (bs : List Byte) : Tells d (patchLease d w k bs) := .setWave rfl (Nat.le_refl _)

theorem dropOwn_tells (d : Dev) (w n : Nat) : Tells d (dropOwn d w n) := by
  unfold dropOwn
  dsimp only
  split
  · exact .refl d
  · exact .of_waves rfl rfl

theorem sawHome_tells (m : Memory) (d : Dev) (w k n : Nat) : Tells d (sawHome m d w k n) := by
  unfold sawHome
  split
  · exact patchLease_tells d w k _
  · exact dropOwn_tells d w _

theorem counterAcquire_tells (d : Dev) (w k : Nat) (sc : Scope) : Tells d (counterAcquire d w k sc) := by
  unfold counterAcquire
  dsimp only
  split
  · exact .setWave rfl (Nat.le_max_left ..)
  · exact .refl d

theorem wakeCwaits_tells (m : Memory) (d : Dev) (k e : Nat) : Tells d (wakeCwaits m d k e) := by
  refine Tells.foldl (fun d p => ?_) _ d
  dsimp only
  split
  · exact .refl d
  · split
    · exact ((sawHome_tells m d _ k 8).trans (counterAcquire_tells _ _ k _)).trans (notify_tells ..)
    · exact .refl d
  · exact .refl d

/-! ### Lines (R114, R116). -/

theorem lineOf_modLine (d : Dev) (n k : Nat) (f : Line → Line) :
    lineOf (modLine d n f) k = if k = n then f (lineOf d n) else lineOf d k := lineOf_setLine ..

theorem modLine_viewsRise (d : Dev) (n : Nat) (f : Line → Line) : ViewsRise d (modLine d n f) := .of_waves rfl

theorem stampLine_viewsRise (d : Dev) (n vst : Nat) : ViewsRise d (stampLine d n vst).1 := .of_waves rfl

/-- The stamp that a write at the home gives its line (R116). -/
theorem lineOf_stampLine (d : Dev) (n vst : Nat) : lineOf (stampLine d n vst).1 n =
    let t := max ((lineOf d n).rts + 1) (vst + 1)
    { lineOf d n with wts := t, rts := t, hostCopy := false } := by
  show lineOf (setLine d n _) n = _
  rw [lineOf_setLine, if_pos rfl]

theorem recallLine_ungranted {d : Dev} {n : Nat} (h : (lineOf d n).grant = none) : recallLine d n = d := by
  simp only [recallLine, h]

/-- A recall sends the line home with one write stamp (R114). -/
theorem lineOf_recallLine {d : Dev} {n : Nat} {g : Grant} (h : (lineOf d n).grant = some g) : lineOf (recallLine d n) n =
    let t := max ((lineOf d n).rts + 1) (g.writers.foldl (fun v w => max v (waveOf d w).vstamp) 0 + 1)
    { lineOf d n with grant := none, wts := t, rts := t, hostCopy := false } := by
  simp only [recallLine, h]
  rw [(wakeMonitors_tells ..).lineOf, (clearReservations_tells ..).lineOf, (Tells.foldl (fun d w => raiseV_tells d w _) _ _).lineOf,
    lineOf_stampLine, lineOf_modLine, if_pos rfl]

theorem grant_recallLine (d : Dev) (n : Nat) : (lineOf (recallLine d n) n).grant = none := by
  cases h : (lineOf d n).grant with
  | none => rw [recallLine_ungranted h, h]
  | some g => rw [lineOf_recallLine h]

theorem recallLine_viewsRise (d : Dev) (n : Nat) : ViewsRise d (recallLine d n) := by
  unfold recallLine
  split
  · exact .refl d
  · refine .trans ?_ ((clearReservations_tells _ n).trans (wakeMonitors_tells _ n _)).toViewsRise
    exact ((modLine_viewsRise d n _).trans (stampLine_viewsRise _ n _)).trans (Tells.foldl (fun d w => raiseV_tells d w _) _ _).toViewsRise

theorem recallFrom_viewsRise (d : Dev) (n : Nat) (c : Option Nat) : ViewsRise d (recallFrom d n c) := by
  unfold recallFrom
  split
  · exact .refl d
  · split
    · exact .refl d
    · exact recallLine_viewsRise d n

/-! ### Writes at the home (R115, R116). -/

theorem ownCopies_tells (m : Memory) (d : Dev) (w k t : Nat) (bs : List Byte) : Tells d (ownCopies m d w k t bs) :=
  (patchLease_tells d w k bs).trans (.of_waves rfl rfl)

/-- What a wave's write leaves at its home, up to what it tells the waves: the stamp of its line, and the writer's view raised to it. -/
theorem stampWrite_tells (m : Memory) (d : Dev) (w clock k : Nat) (bs : List Byte) :
    Tells (raiseV (stampLine d (lineNo k) (waveOf d w).vstamp).1 w (stampLine d (lineNo k) (waveOf d w).vstamp).2)
      (stampWrite m d ⟨some w, clock⟩ k bs) :=
  (ownCopies_tells m _ w k _ bs).trans ((clearReservations_tells _ _).trans (wakeMonitors_tells _ _ _))

/-- The stamp of a wave's write, in the line and in the wave's view (R116). -/
theorem stampWrite_stamps (m : Memory) (d : Dev) (w clock k : Nat) (bs : List Byte) :
    let t := max ((lineOf d (lineNo k)).rts + 1) ((waveOf d w).vstamp + 1)
    let e := stampWrite m d ⟨some w, clock⟩ k bs
    (lineOf e (lineNo k)).wts = t ∧ (lineOf e (lineNo k)).rts = t ∧
      (w < d.waves.length → max (waveOf d w).vstamp t ≤ (waveOf e w).vstamp) := by
  have htold := stampWrite_tells m d w clock k bs
  have hline := htold.lineOf (lineNo k)
  rw [(raiseV_tells ..).lineOf, lineOf_stampLine] at hline
  refine ⟨by rw [hline], by rw [hline], fun hw => ?_⟩
  exact (vstamp_raiseV (d := (stampLine d (lineNo k) (waveOf d w).vstamp).1) _ hw).ge.trans (htold.vstamp w)

/-- A line after an ordinary write of some words, which are then no counters (R152). -/
def uncounted (ws : List Nat) (l : Line) : Line :=
  { l with added := ws.foldl (fun a w => a &&& ~~~(1#8 <<< wordIdx w)) l.added,
           addedSys := ws.foldl (fun a w => a &&& ~~~(1#8 <<< wordIdx w)) l.addedSys }

/-- The device with some bytes written at the home of their line, before the write's stamp. -/
def wordsWritten (d : Dev) (k : Nat) (bs : List Byte) : Dev := modLine (wrBytes d k bs) (lineNo k) (uncounted (wordsOf k bs.length))

theorem lineOf_wordsWritten (d : Dev) (k : Nat) (bs : List Byte) :
    lineOf (wordsWritten d k bs) (lineNo k) = uncounted (wordsOf k bs.length) (lineOf d (lineNo k)) :=
  (lineOf_modLine ..).trans (if_pos rfl)

section
variable {m : Memory} {d : Dev} {w clock k : Nat} {bs : List Byte} (h : (lineOf d (lineNo k)).grant = none)
include h

/-- A write at a line that no cluster holds stamps the line and tells the waits for its words (R115, R116, R152). -/
theorem homeWrite_ungranted (who : Who) : homeWrite m d who k bs = (wordsOf k bs.length).foldl (fun d w => wakeCwaits m d w who.clock)
    (stampWrite m (wordsWritten d k bs) who k bs) := by
  have hfrom : ∀ c, recallFrom d (lineNo k) c = d := fun c => by simp only [recallFrom, h]
  have hline : (lineOf (wordsWritten d k bs) (lineNo k)).grant = none := by
    rw [lineOf_wordsWritten]
    exact h
  unfold homeWrite
  unfold wordsWritten uncounted at hline ⊢
  dsimp only
  rw [hfrom, hline]

/-- At a line that no cluster holds the stamps are those of a write that stamps its line (R116). -/
theorem homeWrite_stamps :
    let t := max ((lineOf d (lineNo k)).rts + 1) ((waveOf d w).vstamp + 1)
    let e := homeWrite m d ⟨some w, clock⟩ k bs
    (lineOf e (lineNo k)).wts = t ∧ (lineOf e (lineNo k)).rts = t ∧
      (w < d.waves.length → max (waveOf d w).vstamp t ≤ (waveOf e w).vstamp) := by
  obtain ⟨hwts, hrts, hview⟩ := stampWrite_stamps m (wordsWritten d k bs) w clock k bs
  rw [lineOf_wordsWritten] at hwts hrts hview
  have htold := Tells.foldl (fun d w => wakeCwaits_tells m d w clock) (wordsOf k bs.length)
    (stampWrite m (wordsWritten d k bs) ⟨some w, clock⟩ k bs)
  dsimp only
  rw [homeWrite_ungranted h, htold.lineOf]
  exact ⟨hwts, hrts, fun hw => (hview hw).trans (htold.vstamp w)⟩

end

theorem homeWrites : Claims.HomeWrites := by
  intro m d w k clock bs
  dsimp only
  refine ⟨fun a => rdByte_homeWrite m d ⟨some w, clock⟩ k bs a, fun hw hg => ?_⟩
  obtain ⟨hwts, hrts, hview⟩ := homeWrite_stamps (m := m) (w := w) (clock := clock) (bs := bs) hg
  exact ⟨hwts, hrts, hview hw⟩

/-! ### Copies (R117, R119, R120). -/

/-- A copy that a cache keeps under a condition. -/
def keepIf (b : Bool) (d : Dev) (c : Cache) (l : Lease) : Dev := if b then keepCopy d c l else d

theorem keepCopy_tells (d : Dev) (c : Cache) (l : Lease) : Tells d (keepCopy d c l) := by
  cases c with
  | l1 _ =>
    unfold keepCopy
    dsimp only
    split
    · exact .refl d
    · exact .of_waves rfl rfl
  | _ => exact .of_waves rfl rfl

theorem keepIf_tells (b : Bool) (d : Dev) (c : Cache) (l : Lease) : Tells d (keepIf b d c l) := by
  unfold keepIf
  split
  · exact keepCopy_tells d c l
  · exact .refl d

theorem keepCopy_keepsStores (d : Dev) (c : Cache) (l : Lease) : KeepsStores d (keepCopy d c l) := by
  cases c with
  | l1 _ =>
    unfold keepCopy
    dsimp only
    split
    · exact .refl d
    · exact ⟨rfl, rfl⟩
  | _ => exact ⟨rfl, rfl⟩

theorem keepIf_keepsStores (b : Bool) (d : Dev) (c : Cache) (l : Lease) : KeepsStores d (keepIf b d c l) := by
  unfold keepIf
  split
  · exact keepCopy_keepsStores d c l
  · exact .refl d

/-- A copy that a die's L2 has taken is found there. -/
theorem findCopy_keepCopy_l2 {d : Dev} {die vst : Nat} {c : Lease} (h : vst ≤ c.leaseEnd) :
    findCopy (keepCopy d (.l2 die) c) (.l2 die) c.line vst = some c := by
  simp [findCopy, keepCopy, h]

/-- What an L1 takes leaves the copies of an L2. -/
theorem findCopy_keepCopy_l1 (d : Dev) (core die n vst : Nat) (c : Lease) :
    findCopy (keepCopy d (.l1 core) c) (.l2 die) n vst = findCopy d (.l2 die) n vst := by
  unfold keepCopy
  dsimp only
  split
  · rfl
  · unfold findCopy
    dsimp only
    rw [List.find?_cons_of_neg (by simp), List.find?_filter]
    congr 2
    funext p
    cases hp : p.1 == Cache.l2 die with
    | false => simp
    | true => simp [eq_of_beq hp, Bool.beq_eq_decide_eq]

theorem findCopy_keepIf_l1 (b : Bool) (d : Dev) (core die n vst : Nat) (c : Lease) :
    findCopy (keepIf b d (.l1 core) c) (.l2 die) n vst = findCopy d (.l2 die) n vst := by
  unfold keepIf
  split
  · exact findCopy_keepCopy_l1 ..
  · rfl

/-- The copies that a read at the home leaves: the core's L1 keeps one, and for a line of the other die its L2. -/
def keptCopies (keep far : Bool) (core die : Nat) (r : Dev × Lease) : Dev := keepIf keep (keepIf far r.1 (.l2 die) r.2) (.l1 core) r.2

theorem keptCopies_tells (keep far : Bool) (core die : Nat) (r : Dev × Lease) : Tells r.1 (keptCopies keep far core die r) :=
  (keepIf_tells far r.1 _ r.2).trans (keepIf_tells keep _ _ r.2)

theorem keptCopies_keepsStores (keep far : Bool) (core die : Nat) (r : Dev × Lease) :
    KeepsStores r.1 (keptCopies keep far core die r) := (keepIf_keepsStores far r.1 _ r.2).trans (keepIf_keepsStores keep _ _ r.2)

theorem findCopy_keptCopies (keep : Bool) (core die : Nat) {vst : Nat} {r : Dev × Lease} (h : vst ≤ r.2.leaseEnd) :
    findCopy (keptCopies keep true core die r) (.l2 die) r.2.line vst = some r.2 :=
  (findCopy_keepIf_l1 ..).trans (findCopy_keepCopy_l2 h)

/-! ### Leases (R117, R119, R120). -/

theorem noteLease_keepsStores (d : Dev) (w e : Nat) : KeepsStores d (noteLease d w e) := ⟨rfl, rfl⟩

theorem enterLease_keepsStores (d : Dev) (w : Nat) (c : Lease) : KeepsStores d (enterLease d w c) := ⟨rfl, rfl⟩

theorem homeLease_keepsStores (m : Memory) (d : Dev) (n vst : Nat) : KeepsStores d (homeLease m d n vst).1 := ⟨rfl, rfl⟩

theorem homeLease_viewsRise (m : Memory) (d : Dev) (n vst : Nat) : ViewsRise d (homeLease m d n vst).1 := .of_waves rfl

/-- LMAX takes the lease end of the copy that served the read, whatever else the read has told the waves (R119). -/
theorem ViewsRise.lmax_noteLease {d d1 : Dev} (h : ViewsRise d d1) {w : Nat} (e : Nat) (hw : w < d.waves.length) :
    (waveOf (noteLease d1 w e) w).lmax = max (waveOf d w).lmax e := by
  unfold noteLease
  dsimp only
  rw [waveOf_setWave, if_pos ⟨rfl, h.count.symm ▸ hw⟩, h.lmax]

theorem lmax_noteLease {d : Dev} {w : Nat} (e : Nat) (hw : w < d.waves.length) :
    (waveOf (noteLease d w e) w).lmax = max (waveOf d w).lmax e := (ViewsRise.refl d).lmax_noteLease e hw

theorem leaseSet_noteLease {d : Dev} {w : Nat} (e : Nat) : (waveOf (noteLease d w e) w).leaseSet = (waveOf d w).leaseSet := by
  unfold noteLease
  dsimp only
  rw [waveOf_setWave]
  split <;> rfl

/-- A line that a wave's lease set takes is in it (R120). -/
theorem mem_enterLease {d : Dev} {w : Nat} {c : Lease} (hw : w < d.waves.length) : c ∈ (waveOf (enterLease d w c) w).leaseSet := by
  unfold enterLease
  dsimp only
  rw [waveOf_setWave, if_pos ⟨rfl, hw⟩, List.drop_append_of_le_length (by omega)]
  exact List.mem_append_right _ (List.mem_singleton.2 rfl)

/-- A read at the home stamps its line with the end of the lease (R117). -/
theorem lineOf_homeLease (m : Memory) (d : Dev) (n vst : Nat) : lineOf (homeLease m d n vst).1 n =
    { lineOf d n with rts := max (lineOf d n).rts (max (lineOf d n).wts vst + 255) } := by
  show lineOf (setLine d n _) n = _
  rw [lineOf_setLine, if_pos rfl]

/-- The bytes that a read cuts from its line's copy are those of the memory. -/
theorem cutLease_homeLease {m : Memory} {d : Dev} {k n vst : Nat} (h : k % 64 + n ≤ 64) :
    cutLease k n (homeLease m d (lineNo k) vst).2 = rdBytes m d k n := by
  show ((rdBytes m d (k / 64 * 64) 64).drop (k % 64)).take n = _
  apply List.ext_getElem
  · simp [rdBytes]
    omega
  · intro i hi _
    simp only [rdBytes, List.getElem_take, List.getElem_drop, List.getElem_map, List.getElem_range]
    congr 1
    omega

/-! ### Reads (R114, R117, R120). -/

/-- The physical core of a wave, whose L1 serves its reads. -/
def waveCore (d : Dev) (w : Nat) : Nat := pcore d (vcoreOf d (waveOf d w))

/-- What the home answers a read once the line is back from a cluster that held it. -/
def recalledLease (m : Memory) (d : Dev) (w n : Nat) : Dev × Lease :=
  homeLease m (recallLine d n) n (waveOf (recallLine d n) w).vstamp

section
variable (m : Memory) (d : Dev) (w n : Nat)

theorem recalledLease_viewsRise : ViewsRise d (recalledLease m d w n).1 :=
  (recallLine_viewsRise d n).trans (homeLease_viewsRise m _ n _)

theorem grant_recalledLease : (lineOf (recalledLease m d w n).1 n).grant = none := by
  unfold recalledLease
  rw [lineOf_homeLease]
  exact grant_recallLine d n

theorem rts_recalledLease : (lineOf (recalledLease m d w n).1 n).rts = (recalledLease m d w n).2.leaseEnd := by
  unfold recalledLease
  rw [lineOf_homeLease]
  rfl

/-- A lease covers the view of the wave that reads (R117). -/
theorem vstamp_le_recalledLease : (waveOf d w).vstamp ≤ (recalledLease m d w n).2.leaseEnd := by
  have hview := (recallLine_viewsRise d n).vstamp w
  show _ ≤ max _ (max _ (waveOf (recallLine d n) w).vstamp + 255)
  omega

theorem data_recalledLease : (recalledLease m d w n).2.data = rdBytes m d (n * 64) 64 :=
  (recallLine_keepsStores d n).rdBytes m _ _

end

section
variable {m : Memory} {d : Dev} {w va k n : Nat} {keep : Bool}

theorem cutLease_recalledLease (h : k % 64 + n ≤ 64) : cutLease k n (recalledLease m d w (lineNo k)).2 = rdBytes m d k n :=
  (cutLease_homeLease h).trans ((recallLine_keepsStores d _).rdBytes m _ _)

theorem leaseRead_keepsStores : KeepsStores d (leaseRead m d w k n).1 := by
  unfold leaseRead
  dsimp only
  split
  · exact noteLease_keepsStores ..
  · exact ((recallFrom_keepsStores ..).trans (homeLease_keepsStores ..)).trans
      ((enterLease_keepsStores ..).trans (noteLease_keepsStores ..))

theorem copyRead_keepsStores : KeepsStores d (copyRead m d w va k n keep).1 := by
  unfold copyRead
  dsimp only
  split
  · exact noteLease_keepsStores ..
  · split
    · exact (keepIf_keepsStores keep d _ _).trans (noteLease_keepsStores ..)
    · exact ((recallLine_keepsStores ..).trans (homeLease_keepsStores ..)).trans
        ((keptCopies_keepsStores keep (remoteLine d w va) _ _ _).trans (noteLease_keepsStores ..))

theorem homeRead_keepsStores : KeepsStores d (homeRead m d w va k n keep).1 := by
  unfold homeRead
  split
  · exact leaseRead_keepsStores
  · split
    · exact .refl d
    · exact copyRead_keepsStores

/-- A line that the wave's own cluster holds is read at its unit (R114). -/
theorem homeRead_granted (hfo : (waveOf d w).fo = false) {g : Grant} (hg : (lineOf d (lineNo k)).grant = some g)
    (hc : g.cluster = clusterIdx d w) : homeRead m d w va k n keep = (d, rdBytes m d k n) := by
  unfold homeRead granted
  simp [hfo, hg, hc]

section
variable (hfo : (waveOf d w).fo = true)
include hfo

/-- In FO mode the wave's lease set answers (R120). -/
theorem homeRead_inSet {c : Lease} (hc : (waveOf d w).leaseSet.find? (fun c => c.line == lineNo k) = some c) :
    homeRead m d w va k n keep = (noteLease d w c.leaseEnd, cutLease k n c) := by
  simp only [homeRead, hfo, if_true, leaseRead, hc]

/-- A line that is not in the set is read and enters it (R120). -/
theorem homeRead_enters (hc : (waveOf d w).leaseSet.find? (fun c => c.line == lineNo k) = none) :
    homeRead m d w va k n keep =
      let h := homeLease m (recallFrom d (lineNo k) (some (clusterIdx d w))) (lineNo k) (waveOf d w).vstamp
      (noteLease (enterLease h.1 w h.2) w h.2.leaseEnd, cutLease k n h.2) := by
  simp only [homeRead, hfo, if_true, leaseRead, hc]

end

section
variable (hfo : (waveOf d w).fo = false) (hg : ∀ g, (lineOf d (lineNo k)).grant = some g → g.cluster ≠ clusterIdx d w)
include hfo hg

theorem homeRead_copyRead : homeRead m d w va k n keep = copyRead m d w va k n keep := by
  have hungranted : granted d (lineNo k) (clusterIdx d w) = false := by
    rw [granted, Option.any_eq_false]
    exact fun g h => beq_false_of_ne (hg g h)
  simp [homeRead, hfo, hungranted]

/-- A copy of the core's L1 serves the read (R117). -/
theorem homeRead_l1 {c : Lease}
    (hc : findCopy d (.l1 (waveCore d w)) (lineNo k) (waveOf d w).vstamp = some c) :
    homeRead m d w va k n keep = (noteLease d w c.leaseEnd, cutLease k n c) := by
  rw [homeRead_copyRead hfo hg]
  unfold waveCore at hc
  simp only [copyRead, hc]

section
variable (hl1 : findCopy d (.l1 (waveCore d w)) (lineNo k) (waveOf d w).vstamp = none)
include hl1

/-- A copy of the die's L2 serves the read of a line of the other die (R117). -/
theorem homeRead_l2 {c : Lease} (hfar : remoteLine d w va = true)
    (hc : findCopy d (.l2 (waveDie d w)) (lineNo k) (waveOf d w).vstamp = some c) :
    homeRead m d w va k n keep =
      (noteLease (keepIf keep d (.l1 (waveCore d w)) c) w c.leaseEnd, cutLease k n c) := by
  rw [homeRead_copyRead hfo hg]
  unfold waveCore at hl1
  unfold waveDie at hc
  simp only [copyRead, hl1, hfar, if_true, hc]
  rfl

/-- With no copy the home serves the read (R117). -/
theorem homeRead_home (hl2 : remoteLine d w va = true →
      findCopy d (.l2 (waveDie d w)) (lineNo k) (waveOf d w).vstamp = none) :
    homeRead m d w va k n keep =
      let h := recalledLease m d w (lineNo k)
      (noteLease (keptCopies keep (remoteLine d w va) (waveCore d w) (waveDie d w) h) w h.2.leaseEnd, cutLease k n h.2) := by
  have hnone : (if remoteLine d w va = true then
      findCopy d (.l2 (waveDie d w)) (lineNo k) (waveOf d w).vstamp else none) = none := by
    split
    · exact hl2 ‹_›
    · rfl
  rw [homeRead_copyRead hfo hg]
  unfold waveCore at hl1
  unfold waveDie at hnone
  simp only [copyRead, hl1, hnone]
  rfl

end

end

end

theorem readsTakeLeases : Claims.ReadsTakeLeases := by
  intro m d w va k n keep
  dsimp only
  intro hw hin
  refine ⟨fun g hg => ?_, recallLine_ungranted, fun g hfo hg hc => homeRead_granted hfo hg hc,
    fun hfo hg => ⟨fun c hc => ?_, fun c hl1 hfar hc => ?_, fun hl1 hl2 => ?_⟩, fun c hfo hc => ?_, fun hfo hc => ?_,
    homeRead_keepsStores.rdByte m⟩
  · have hline := lineOf_recallLine hg
    exact ⟨by rw [hline], by rw [hline]⟩
  · rw [homeRead_l1 hfo hg hc]
    exact ⟨rfl, lmax_noteLease _ hw⟩
  · rw [homeRead_l2 hfo hg hl1 hfar hc]
    exact ⟨rfl, (keepIf_tells ..).toViewsRise.lmax_noteLease _ hw⟩
  · rw [homeRead_home hfo hg hl1 hl2]
    dsimp only
    have hkept := keptCopies_tells keep (remoteLine d w va) (waveCore d w) (waveDie d w)
      (recalledLease m d w (lineNo k))
    have hline := hkept.lineOf (lineNo k)
    refine ⟨cutLease_recalledLease hin, ?_, ?_, ?_, fun hfar => ⟨_, ?_, rfl, data_recalledLease ..⟩⟩
    · exact (congrArg Line.grant hline).trans (grant_recalledLease ..)
    · exact (congrArg Line.rts hline).trans (rts_recalledLease ..)
    · exact ((recalledLease_viewsRise ..).trans hkept.toViewsRise).lmax_noteLease _ hw
    · rw [hfar]
      exact findCopy_keptCopies keep _ _ (vstamp_le_recalledLease m d w (lineNo k))
  · rw [homeRead_inSet hfo hc]
    exact ⟨rfl, lmax_noteLease _ hw⟩
  · rw [homeRead_enters hfo hc]
    dsimp only
    refine ⟨(cutLease_homeLease hin).trans ((recallFrom_keepsStores ..).rdBytes m _ _), ?_⟩
    have hcount := ((recallFrom_viewsRise d (lineNo k) (some (clusterIdx d w))).trans
      (homeLease_viewsRise m _ (lineNo k) (waveOf d w).vstamp)).count
    rw [leaseSet_noteLease, List.any_eq_true]
    exact ⟨_, mem_enterLease (hcount ▸ hw), beq_self_eq_true _⟩

/-- Settles O53: a read by the copy, set or home that serves it; a write by the stamp that it gives its line. -/
theorem homeReadsAndWrites : Obligations.HomeReadsAndWrites := ⟨readsTakeLeases, homeWrites⟩

end Sys2Proof.Machine
end

section
/-!
SUPPORT. Releases and acquires at the home of a seal (spec/07_model_far.md R118, spec/06_model_near.md R99): the stamps that each
moves, and the releases that the line remembers.
-/
namespace Sys2Proof.Machine

/-! ### What a line remembers (R99, log 53). -/

/-- Whether a release is of the wave and scope of another, in whose place it then stands. -/
def sameRel (r o : Rel) : Bool := o.scope == r.scope && o.wave == r.wave

theorem sameRel_iff {r o : Rel} : sameRel r o = true ↔ o.scope = r.scope ∧ o.wave = r.wave := by
  simp [sameRel]

/-- What a release that covers a view stands for, with those of some releases whose place it takes. -/
def coverFrom (r : Rel) (rs : List Rel) (v : Nat) : Nat := rs.foldl (fun v o => if sameRel r o then max v o.vst else v) v

theorem noteRel_eq (rs : List Rel) (r : Rel) :
    noteRel rs r = { r with vst := coverFrom r rs r.vst } :: rs.filter (fun o => !sameRel r o) := rfl

theorem le_coverFrom (r : Rel) (rs : List Rel) (v : Nat) : v ≤ coverFrom r rs v := by
  induction rs generalizing v with
  | nil => exact Nat.le_refl v
  | cons p rs ih =>
    refine Nat.le_trans ?_ (ih (if sameRel r p then max v p.vst else v))
    split
    · exact Nat.le_max_left ..
    · exact Nat.le_refl v

theorem vst_le_coverFrom {r o : Rel} {rs : List Rel} (ho : o ∈ rs) (hs : sameRel r o = true) (v : Nat) : o.vst ≤ coverFrom r rs v := by
  induction rs generalizing v with
  | nil => cases ho
  | cons p rs ih =>
    obtain rfl | ho := List.mem_cons.1 ho
    · refine Nat.le_trans ?_ (le_coverFrom r rs (if sameRel r o then max v o.vst else v))
      rw [if_pos hs]
      exact Nat.le_max_right ..
    · exact ih ho _

theorem mem_noteRel_other {rs : List Rel} {r o : Rel} (ho : o ∈ rs) (h : ¬ (o.scope = r.scope ∧ o.wave = r.wave)) :
    o ∈ noteRel rs r := by
  rw [noteRel_eq]
  exact List.mem_cons_of_mem _ (List.mem_filter.2 ⟨ho, by simpa using mt sameRel_iff.1 h⟩)

/-! ### The stamps of a seal (R118). -/

theorem rels_releaseStamps (d : Dev) (n : Nat) (sc : Scope) (w : Option Nat) (vst : Nat) :
    (lineOf (releaseStamps d n sc w vst) n).rels = noteRel (lineOf d n).rels ⟨sc, w, vst⟩ := by
  unfold releaseStamps modLine
  rw [lineOf_setLine, if_pos rfl]
  cases sc <;> rfl

/-- A release raises the stamps that its scope names to the view that it covers, and no other. -/
theorem stamps_releaseStamps (d : Dev) (n : Nat) (sc : Scope) (w : Option Nat) (vst : Nat) :
    let l := lineOf d n
    let r := lineOf (releaseStamps d n sc w vst) n
    (match sc with
      | .dev | .sys => r.dst = max l.dst vst ∧ r.cst = max l.cst (max l.dst vst)
      | .clu => r.dst = l.dst ∧ r.cst = max l.cst vst
      | .team => r.dst = l.dst ∧ r.cst = l.cst) ∧
    r.wts = l.wts ∧ r.rts = l.rts := by
  unfold releaseStamps modLine
  dsimp only
  rw [lineOf_setLine, if_pos rfl]
  cases sc with
  | team => exact ⟨⟨rfl, rfl⟩, rfl, rfl⟩
  | clu => exact ⟨⟨rfl, rfl⟩, rfl, rfl⟩
  | dev => exact ⟨⟨rfl, rfl⟩, rfl, rfl⟩
  | sys => exact ⟨⟨rfl, rfl⟩, rfl, rfl⟩

/-- What an acquire drops leaves every view. -/
theorem vstamp_acquireView (d : Dev) (w v : Nat) : (waveOf (acquireView d w v) w).vstamp = (waveOf d w).vstamp := by
  unfold acquireView
  dsimp only
  split
  · rw [waveOf_setWave]
    split <;> rfl
  · rfl

theorem waveOf_dropOwn (d : Dev) (w n v : Nat) : waveOf (dropOwn d w n) v = waveOf d v := by
  unfold dropOwn
  dsimp only
  split <;> rfl

/-- An acquire raises the wave's view to the stamp of its scope. -/
theorem vstamp_acquireStamps {d : Dev} {w : Nat} (n : Nat) (sc : Scope) (hw : w < d.waves.length) :
    (waveOf (acquireStamps d n w sc) w).vstamp =
      (match sc with
      | .dev | .sys => max (waveOf d w).vstamp (lineOf d n).dst
      | .clu => max (waveOf d w).vstamp (lineOf d n).cst
      | .team => (waveOf d w).vstamp) := by
  have hset : ∀ x, (waveOf (dropOwn (setWave d w x) w n) w).vstamp = x.vstamp := fun x =>
    congrArg Wave.vstamp ((waveOf_dropOwn ..).trans ((waveOf_setWave ..).trans (if_pos ⟨rfl, hw⟩)))
  unfold acquireStamps
  dsimp only
  split
  · exact hset _
  · exact (vstamp_acquireView ..).trans (hset _)

/-- Settles O23: an acquire moves the view, a release the stamps, each by its scope, and the line keeps what its releases cover. -/
theorem stampsRise : Obligations.StampsRise := by
  unfold Obligations.StampsRise
  intro d n w vst sc hw
  dsimp only
  obtain ⟨hstamps, hwts, hrts⟩ := stamps_releaseStamps d n sc (some w) vst
  refine ⟨vstamp_acquireStamps n sc hw, hstamps, hwts, hrts, ?_, fun o ho h => ?_⟩
  · rw [rels_releaseStamps, noteRel_eq]
    exact ⟨_, List.mem_cons_self, rfl, rfl, le_coverFrom ..,
      fun o ho hsc hwave => vst_le_coverFrom ho (sameRel_iff.2 ⟨hsc, hwave⟩) _⟩
  · rw [rels_releaseStamps]
    exact mem_noteRel_other ho h

end Sys2Proof.Machine
end

section
/-!
SUPPORT. `mon` and `mwait` (spec/07_model_far.md R129, spec/15_isa_memory.md R279, R280): each word from its operands to what it
does at its line, and from there to how it ends.
-/
namespace Sys2Proof.Machine
open Sys2Proof.Claims

/-! ### `mon` (R129, R280). -/

/-- A wave arms its monitor on the line of a key, in place of one that it has. -/
def armMonitor (va k : Nat) (d : Dev) : Dev :=
  let d1 := recallLine d (lineNo k)
  let x := { me d1 with monitor := none }
  let d2 := setMe d1 x
  let mo : Monitor :=
    { line := lineNo k, bank := bankOf va, wts := (lineOf d2 (lineNo k)).wts, polling := newWatch d2 (bankOf va) == .polled }
  setMe d2 { x with monitor := some mo }

/-- What a `mon` does at the place of its address: only device and host memory can be watched. -/
def monAt (va : Nat) (p : Place) : Act Verdict :=
  let go := fun (k : Nat) => (do
    upd (armMonitor va k)
    pure .retire : Act Verdict)
  match p with
  | .device k => go k
  | .host k => go k
  | _ => trap (permRule va)

/-- The body of a `mon` at its lowest lane. -/
def monBody (ea : Nat → W64) (l : Nat) : Act Verdict := do
  let p ← checkPlace .g { acc := .read, size := 1, posted := true } (ea l).toNat
  monAt (ea l).toNat p

/-- The whole of a `mon`. -/
def monWord (h : Head) (f : FmtM) : Act Verdict :=
  waveOp h (fun m => do
    let ea ← laneAddr f.base f.off m
    pure (fun _ => monBody ea)) (fun _ => pure ())

theorem exec_mon (h : Head) (f : FmtM) (s : State) : exec (.mon h f) s = runA (.mon h f) h (monWord h f) s := rfl

theorem monAt_arms {p : Place} {k : Nat} (hp : p = .device k ∨ p = .host k) (va : Nat) (m : Memory) (d : Dev) :
    runAct (monAt va p) m d = .ok (.retire, armMonitor va k d) := by
  rcases hp with rfl | rfl
  · rfl
  · rfl

theorem monAt_traps {p : Place} (hp : ∀ k, p ≠ .device k ∧ p ≠ .host k) (va : Nat) (m : Memory) (d : Dev) :
    runAct (monAt va p) m d = .error (permRule va) := by
  cases p with
  | device k => exact absurd rfl (hp k).1
  | host k => exact absurd rfl (hp k).2
  | _ => rfl

/-- A new watch polls when the bank's entries are taken (R129). -/
theorem newWatch_polled (d : Dev) (bank : Nat) : (newWatch d bank == .polled) = decide (8192 ≤ bankWatches d bank) := by
  unfold newWatch
  split
  · next h => exact (decide_eq_false (Nat.not_le_of_lt h)).symm
  · next h => exact (decide_eq_true (Nat.le_of_not_lt h)).symm

section
variable {h : Head} {f : FmtM} {s : State} {m : W32} {ea : Nat → W64} {d0 d1 : Dev} (ha : Admitted (.mon h f) [] s)
  (hm : Runs (acting h false) s.mem s.dev m d0) (he : Runs (laneAddr f.base f.off m) s.mem d0 ea d1)
include ha hm he

theorem retires_mon_none (hl : lowLane m = none) : Retires (.mon h f) h true false s d1 :=
  retires_of (exec_mon h f s) ha (waveOp_none hm ((runAct_bind_ok he).trans rfl) hl rfl)

section
variable {l : Nat} {p : Place} {d2 : Dev} (hl : lowLane m = some l)
  (hp : Runs (checkPlace .g { acc := .read, size := 1, posted := true } (ea l).toNat) s.mem d1 p d2)
include hl hp

theorem retires_mon {k : Nat} (hk : p = .device k ∨ p = .host k) :
    Retires (.mon h f) h true false s (armMonitor (ea l).toNat k d2) :=
  retires_of (exec_mon h f s) ha ((waveOp_of hm ((runAct_bind_ok he).trans rfl) hl).trans
    (asLane_ok ((runAct_bind_ok hp).trans (monAt_arms hk ..))))

theorem traps_mon (hk : ∀ k, p ≠ .device k ∧ p ≠ .host k) :
    Traps (.mon h f) s { permRule (ea l).toNat with info2 := 1#32 <<< l } :=
  traps_of (exec_mon h f s) ha ((waveOp_of hm ((runAct_bind_ok he).trans rfl) hl).trans
    (asLane_error ((runAct_bind_ok hp).trans (monAt_traps hk ..))))

end

end

/-! ### `mwait` (R129, R280). -/

/-- The answer of an `mwait`. -/
def mwaitOut (f : FmtI) (m : W32) (v : W64) : Act Verdict := do
  waveDst .n64 m f.d v
  pure .retire

/-- What an `mwait` that has not been woken finds of its monitor. -/
def mwaitAsk (f : FmtI) (m : W32) : Act Verdict := do
  let d ← dev
  match (me d).monitor with
  | none => mwaitOut f m 2
  | some mo =>
    if (lineOf d mo.line).wts ≠ mo.wts then do
      upd (fun d => viewWrite (setMe d { me d with monitor := none }) d.cur.1 mo.line)
      mwaitOut f m 0
    else park (.mwait (if f.imm = 0 then none else after d (64 * f.imm.toNat)))

/-- The body of an `mwait`. -/
def mwaitBody (f : FmtI) (m : W32) : Act Verdict := do
  let d ← dev
  roomFor f.d 1
  match (mySplit d).ans with
  | some r => mwaitOut f m (lane r 0)
  | none => ordering (mwaitAsk f m)

/-- The whole of an `mwait`. -/
def mwaitWord (h : Head) (f : FmtI) : Act Verdict :=
  waveOp h (fun _ => pure (fun m _ => mwaitBody f m)) (fun m => loadDst .n64 m f.d (fun _ => 0))

theorem exec_mwait (h : Head) (f : FmtI) (s : State) : exec (.mwait h f) s = runA (.mwait h f) h (mwaitWord h f) s := rfl

section
variable {f : FmtI} {m : W32} {mem : Memory} {d e : Dev}

theorem mwaitOut_retires {v : W64} (hd : Runs (loadDst .n64 m f.d (fun _ => v)) mem d () e) :
    runAct (mwaitOut f m v) mem d = .ok (.retire, e) := runAct_bind_ok hd

/-- A woken one answers what woke it. -/
theorem mwaitBody_woken (hr : Claims.Room f.d d) {r : Row} (ha : (mySplit d).ans = some r) :
    runAct (mwaitBody f m) mem d = runAct (mwaitOut f m (lane r 0)) mem d := by
  unfold mwaitBody
  rw [runAct_bind_ok (runAct_dev _ _), runAct_bind_ok (room_of hr), ha]

/-- Another one performs in its order (R160). -/
theorem mwaitBody_asks (hr : Claims.Room f.d d) (ha : (mySplit d).ans = none) (ho : Claims.Ordered mem d e) :
    runAct (mwaitBody f m) mem d = runAct (mwaitAsk f m) mem e := by
  unfold mwaitBody
  rw [runAct_bind_ok (runAct_dev _ _), runAct_bind_ok (room_of hr), ha]
  exact ordered_of ho _

theorem mwaitAsk_unarmed (h : (me d).monitor = none) : runAct (mwaitAsk f m) mem d = runAct (mwaitOut f m 2) mem d := by
  unfold mwaitAsk
  rw [runAct_bind_ok (runAct_dev _ _), h]

section
variable {mo : Monitor} (h : (me d).monitor = some mo)
include h

/-- A line that has been written since: the monitor is disarmed, and the view takes the write. -/
theorem mwaitAsk_written (hw : (lineOf d mo.line).wts ≠ mo.wts) : runAct (mwaitAsk f m) mem d =
    runAct (mwaitOut f m 0) mem (viewWrite (setMe d { me d with monitor := none }) d.cur.1 mo.line) := by
  unfold mwaitAsk
  rw [runAct_bind_ok (runAct_dev _ _), h]
  dsimp only
  rw [if_pos hw, runAct_bind_ok (runAct_upd _ _ _)]

theorem mwaitAsk_parks (hw : (lineOf d mo.line).wts = mo.wts) : runAct (mwaitAsk f m) mem d = .ok (.stay,
    setMySplit d { mySplit d with park := .mwait (if f.imm = 0 then none else some (d.cycle + 64 * f.imm.toNat)) }) := by
  unfold mwaitAsk
  rw [runAct_bind_ok (runAct_dev _ _), h]
  dsimp only
  rw [if_neg (not_not.2 hw)]
  rfl

end

end

section
variable {h : Head} {f : FmtI} {s : State} {m : W32} {d0 : Dev} (hm : Runs (acting h false) s.mem s.dev m d0)
include hm

theorem mwait_none (hl : lowLane m = none) {e : Dev} (hd : Runs (loadDst .n64 m f.d (fun _ => 0)) s.mem d0 () e) :
    runAct (mwaitWord h f) s.mem s.dev = .ok (.retire, e) := waveOp_none hm rfl hl hd

theorem mwait_lane {l : Nat} (hl : lowLane m = some l) {v : Verdict} {e : Dev} (hb : runAct (mwaitBody f m) s.mem d0 = .ok (v, e)) :
    runAct (mwaitWord h f) s.mem s.dev = .ok (v, e) := (waveOp_of hm rfl hl).trans (asLane_ok hb)

end

/-- Settles O27: each word ends as its body ends at its line. -/
theorem monitors : Obligations.Monitors := by
  unfold Obligations.Monitors
  intro h f g s m d0 d1 hm
  dsimp only
  refine ⟨fun ea ha he => ⟨retires_mon_none ha hm he, fun l p d2 hl hp => ⟨fun k hk => ?_, traps_mon ha hm he hl hp⟩⟩,
    fun ha => ⟨fun hl e hd => ?_, fun l hl hr => ⟨fun r hans e hd => ?_, fun hans ho => ⟨fun hmo e hd => ?_,
      fun mo hmo => ⟨fun hw e hd => ?_, fun hw => ?_⟩⟩⟩⟩⟩
  · have harm := retires_mon ha hm he hl hp hk
    unfold armMonitor at harm
    dsimp only at harm
    rw [newWatch_polled] at harm
    exact harm
  · exact retires_of (exec_mwait h g s) ha (mwait_none hm hl hd)
  · exact retires_of (exec_mwait h g s) ha (mwait_lane hm hl ((mwaitBody_woken hr hans).trans (mwaitOut_retires hd)))
  · exact retires_of (exec_mwait h g s) ha
      (mwait_lane hm hl ((mwaitBody_asks hr hans ho).trans ((mwaitAsk_unarmed hmo).trans (mwaitOut_retires hd))))
  · exact retires_of (exec_mwait h g s) ha
      (mwait_lane hm hl ((mwaitBody_asks hr hans ho).trans ((mwaitAsk_written hmo hw).trans (mwaitOut_retires hd))))
  · exact stays_of (exec_mwait h g s) ha (mwait_lane hm hl ((mwaitBody_asks hr hans ho).trans (mwaitAsk_parks hmo hw)))

end Sys2Proof.Machine
end

section
/-!
SUPPORT. The device steps of locks, monitors and counters (spec/08_line_locks.md R140 to R149, spec/07_model_far.md R129,
spec/15_isa_memory.md R280, R286): what each answers, by the cases that its function tells apart.
-/
namespace Sys2Proof.Machine
open Sys2Proof.Claims

theorem passed_iff {d : Dev} {t : Option Nat} : passed d t = true ↔ ∃ n, t = some n ∧ n ≤ d.cycle := by
  simp [passed, Option.any_eq_true]

theorem not_passed {d : Dev} {t : Option Nat} (h : ¬ ∃ n, t = some n ∧ n ≤ d.cycle) : passed d t = false :=
  Bool.eq_false_iff.2 (mt passed_iff.1 h)

/-! ### Parked requests (R140, R149, R161). -/

theorem arrivesNext_free {d : Dev} {w : Nat} (sp bank n : Nat) (h : (waveOf d w).fo = false) : arrivesNext d w sp bank n = true := by
  simp [arrivesNext, h]

theorem arrivesNext_ordered {d : Dev} {w : Nat} (sp bank n : Nat) (h : (waveOf d w).fo = true) : arrivesNext d w sp bank n =
    (leastKey (activeKeys d (waveOf d w).launch ++ fullKeys d w sp bank n)).all (fun k => keyLt (keyOf (waveOf d w) sp) k) := by
  simp [arrivesNext, h]

section
variable {s : State} {w sp n va : Nat} {mask : W32} {t : Option Nat}
  (hp : (splitOf (waveOf s.dev w) sp).park = .lockFull n va mask t)
include hp

theorem becomes_lockReissue_waits (h : arrivesNext s.dev w sp (bankOf va) n = false) : Becomes (.lockReissue w sp) s s.dev :=
  becomes_of_exec rfl (by simp only [hp, h, Bool.not_false, if_true])

section
variable (h : arrivesNext s.dev w sp (bankOf va) n = true)
include h

theorem becomes_lockReissue_answered {st : W64} (hr : (lockRequest s.mem s.dev w sp n va mask t).2 = .inl st) :
    Becomes (.lockReissue w sp) s (modSplit (unpark (lockRequest s.mem s.dev w sp n va mask t).1 w sp) w sp
      (fun q => { q with ans := some [(0, st)] })) := by
  have hreq : lockRequest s.mem s.dev w sp n va mask t = ((lockRequest s.mem s.dev w sp n va mask t).1, .inl st) := Prod.ext rfl hr
  refine becomes_of_exec rfl ?_
  simp only [hp, h, Bool.not_true, Bool.false_eq_true, if_false]
  rw [hreq]

theorem becomes_lockReissue_parked {p : Park} (hr : (lockRequest s.mem s.dev w sp n va mask t).2 = .inr p) :
    Becomes (.lockReissue w sp) s (modSplit (lockRequest s.mem s.dev w sp n va mask t).1 w sp (fun q => { q with park := p })) := by
  have hreq : lockRequest s.mem s.dev w sp n va mask t = ((lockRequest s.mem s.dev w sp n va mask t).1, .inr p) := Prod.ext rfl hr
  refine becomes_of_exec rfl ?_
  simp only [hp, h, Bool.not_true, Bool.false_eq_true, if_false]
  rw [hreq]

end

end

/-! ### Timeouts of locks (R143, R144, R148). -/

section
variable {s : State} {w sp n va : Nat} {mask : W32} {t : Option Nat}
  (hp : (splitOf (waveOf s.dev w) sp).park = .lock n va t ∨ (splitOf (waveOf s.dev w) sp).park = .lockFull n va mask t)
include hp

theorem becomes_lockWaitTimeout (h : passed s.dev t = true) : Becomes (.lockWaitTimeout w sp) s
    (let d1 := dropWaiter s.mem s.dev w sp
     ringWrite s.mem (wake d1 w sp [(0, 3)] (splitOf (waveOf s.dev w) sp).clock) (waveOf d1 w).ctx
      (lockWaitRecords s.dev w sp n va) false).1 := by
  refine becomes_of_exec rfl ?_
  rcases hp with hp | hp
  · simp only [hp, h, if_true]
  · simp only [hp, h, if_true]

theorem becomes_lockWaitTimeout_early (h : passed s.dev t = false) : Becomes (.lockWaitTimeout w sp) s s.dev := by
  refine becomes_of_exec rfl ?_
  rcases hp with hp | hp
  · simp only [hp, h, Bool.false_eq_true, if_false]
  · simp only [hp, h, Bool.false_eq_true, if_false]

end

section
variable {s : State} {w line : Nat}

theorem becomes_lockHoldTimeout {h : HeldLock}
    (hf : (waveOf s.dev w).held.find? (fun h => h.line == line && passed s.dev h.deadline) = some h) :
    Becomes (.lockHoldTimeout w line) s
      (postAsync s.mem (setWave s.dev w { waveOf s.dev w with
        held := (waveOf s.dev w).held.map (fun g => if g = h then { g with deadline := none } else g) }) w h.mask
        { cause := 0x18, addr := w64 h.va }).1 :=
  becomes_of_exec rfl (by simp only [hf]; rfl)

theorem becomes_lockHoldTimeout_early (hf : ∀ h ∈ (waveOf s.dev w).held, h.line = line → passed s.dev h.deadline = false) :
    Becomes (.lockHoldTimeout w line) s s.dev := by
  have hnone : (waveOf s.dev w).held.find? (fun h => h.line == line && passed s.dev h.deadline) = none := by
    rw [List.find?_eq_none]
    intro h hh
    simpa using hf h hh
  exact becomes_of_exec rfl (by simp only [hnone])

end

/-! ### Waves that are away (R141, R149). -/

section
variable {d : Dev} {w n : Nat} {e : Lock} (he : (lineOf d n).lock = some e)
include he

theorem grantReserved_grants (m : Memory) {y : Waiter}
    (hy : e.queue.find? (fun q => q.wave == w && reservedFor e q.wave q.split) = some y) :
    grantReserved m w d n = grantWaiter m d n { e with queue := e.queue.filter (· ≠ y) } y e.clock := by
  simp only [grantReserved, he, hy]

theorem grantReserved_other (m : Memory) (h : ∀ y ∈ e.queue, y.wave = w → reservedFor e y.wave y.split = false) :
    grantReserved m w d n = d := by
  have hnone : e.queue.find? (fun q => q.wave == w && reservedFor e q.wave q.split) = none := by
    rw [List.find?_eq_none]
    intro y hy
    simpa using h y hy
  simp only [grantReserved, he, hnone]

end

/-! ### Timeouts of `mwait` and `cwait` (R280, R286). -/

section
variable {s : State} {w sp : Nat} {t : Option Nat} (hp : (splitOf (waveOf s.dev w) sp).park = .mwait t)
include hp

theorem becomes_mwaitTimeout (ht : passed s.dev t = true) (hm : (waveOf s.dev w).monitor.all (fun mo => mo.due.isNone) = true) :
    Becomes (.mwaitTimeout w sp) s (wake (setWave s.dev w { waveOf s.dev w with
      monitor := if (mwaiting (waveOf s.dev w)).any (· ≠ sp) then (waveOf s.dev w).monitor else none }) w sp [(0, 1)]
      (splitOf (waveOf s.dev w) sp).clock) :=
  becomes_of_exec rfl (by simp only [hp, ht, hm, Bool.and_true, if_true])

theorem becomes_mwaitTimeout_early
    (h : (passed s.dev t && (waveOf s.dev w).monitor.all (fun mo => mo.due.isNone)) = false) : Becomes (.mwaitTimeout w sp) s s.dev :=
  becomes_of_exec rfl (by simp only [hp, h, Bool.false_eq_true, if_false])

end

/-- Whether another split of a wave waits by its monitor (log 72). -/
theorem mwaiting_any_ne {x : Wave} {sp : Nat} :
    (mwaiting x).any (· ≠ sp) = true ↔ ∃ i, i ≠ sp ∧ i < x.splits.length ∧ inMwait (splitOf x i) = true := by
  rw [mwaiting, List.any_eq_true]
  simp only [List.mem_filter, List.mem_range, decide_eq_true_eq]
  exact ⟨fun ⟨i, ⟨hi, hw⟩, hne⟩ => ⟨i, hne, hi, hw⟩, fun ⟨i, hne, hi, hw⟩ => ⟨i, ⟨hi, hw⟩, hne⟩⟩

/-- A write that a polled watch has still to tell of (R129). -/
theorem monitor_untold {o : Option Monitor} :
    o.all (fun mo => mo.due.isNone) = true ↔ ¬ ∃ mo, o = some mo ∧ mo.due.isSome = true := by
  cases o <;> simp

section
variable {s : State} {w sp k bank : Nat} {v : W64} {sc : Scope} {t : Option Nat} {watch : Watch}
  (hp : (splitOf (waveOf s.dev w) sp).park = .cwait k v sc t bank watch)
include hp

theorem becomes_cwaitTimeout (ht : passed s.dev t = true) (hw : ¬ ∃ r e, watch = .due r e) : Becomes (.cwaitTimeout w sp) s
    (let d1 := recallLine s.dev (lineNo k)
     wake (sawHome s.mem d1 w k 8) w sp [(0, rd64 s.mem d1 k)] (splitOf (waveOf s.dev w) sp).clock) := by
  refine becomes_of_exec rfl ?_
  cases watch with
  | due r e => exact absurd ⟨r, e, rfl⟩ hw
  | _ => simp only [hp, ht, if_true]

theorem becomes_cwaitTimeout_early (h : passed s.dev t = false ∨ ∃ r e, watch = .due r e) : Becomes (.cwaitTimeout w sp) s s.dev := by
  refine becomes_of_exec rfl ?_
  rcases h with h | ⟨r, e, rfl⟩
  · cases watch with
    | due r e => simp only [hp]
    | _ => simp only [hp, h, Bool.false_eq_true, if_false]
  · simp only [hp]

end

/-! ### Watches that are compared (R129). -/

theorem monitor_polling {o : Option Monitor} : o.any (·.polling) = true ↔ ∃ mo, o = some mo ∧ mo.polling = true :=
  Option.any_eq_true ..

theorem becomes_monitorPoll {s : State} {w : Nat} {d1 : Dev}
    (hpoll : (∃ mo, (waveOf s.dev w).monitor = some mo ∧ mo.polling = true) → d1 = pollMonitor s.dev w)
    (hnot : (¬ ∃ mo, (waveOf s.dev w).monitor = some mo ∧ mo.polling = true) → d1 = s.dev) :
    Becomes (.monitorPoll w) s ((List.range (waveOf d1 w).splits.length).foldl (fun d sp => pollWaiter d w sp) d1) := by
  have hd1 : (if (waveOf s.dev w).monitor.any (·.polling) then pollMonitor s.dev w else s.dev) = d1 := by
    split
    · exact (hpoll (monitor_polling.1 ‹_›)).symm
    · exact (hnot (mt monitor_polling.2 ‹_›)).symm
  refine becomes_of_exec rfl ?_
  dsimp only
  rw [hd1]

section
variable {d : Dev} {w : Nat} {mo : Monitor} (h : (waveOf d w).monitor = some mo)
include h

theorem pollMonitor_unwritten (hw : (lineOf d mo.line).wts = mo.wts) : pollMonitor d w = d := by
  simp only [pollMonitor, h, hw, ne_eq, not_true_eq_false, if_false]

/-- A write is told to the splits that wait for it; with none the monitor stays armed (R280). -/
theorem pollMonitor_written (hw : (lineOf d mo.line).wts ≠ mo.wts) : pollMonitor d w =
    if mwaiting (waveOf d w) = [] then d
    else (mwaiting (waveOf d w)).foldl (fun d i => wake d w i [] (mo.due.getD 0))
      (viewWrite (setWave d w { waveOf d w with monitor := none }) w mo.line) := by
  simp only [pollMonitor, h, if_pos hw]
  unfold tellMonitor
  cases hs : mwaiting (waveOf d w) with
  | nil => rfl
  | cons i r => rfl

end

theorem pollWaiter_cwait {d : Dev} {w sp k bank e : Nat} {v : W64} {sc : Scope} {t : Option Nat} {r : Row}
    (h : (splitOf (waveOf d w) sp).park = .cwait k v sc t bank (.due r e)) : pollWaiter d w sp = wake d w sp r e := by
  simp only [pollWaiter, h]

theorem pollWaiter_phwait {d : Dev} {w sp n bank e : Nat} {k : BitVec 32} {r : Row}
    (h : (splitOf (waveOf d w) sp).park = .phwait n k bank (.due r e)) : pollWaiter d w sp = wake d w sp r e := by
  simp only [pollWaiter, h]

/-- Settles O35: each device step answers what its function answers, by the cases that the function tells apart. -/
theorem syncSteps : Obligations.SyncSteps := by
  unfold Obligations.SyncSteps
  intro s w sp line
  dsimp only
  refine ⟨fun n va mask t hp => ⟨arrivesNext_free sp _ n, arrivesNext_ordered sp _ n, becomes_lockReissue_waits hp,
      fun st h => becomes_lockReissue_answered hp h, fun p h => becomes_lockReissue_parked hp h⟩,
    fun n va mask t hp => ⟨fun hd => becomes_lockWaitTimeout hp (passed_iff.2 hd),
      fun hd => becomes_lockWaitTimeout_early hp (not_passed hd)⟩,
    fun h => becomes_lockHoldTimeout, fun hd => becomes_lockHoldTimeout_early fun h hh hl => not_passed (hd h hh hl),
    becomes_of_exec rfl rfl, becomes_of_exec rfl rfl,
    fun d n e he => ⟨fun y => grantReserved_grants he s.mem, grantReserved_other he s.mem⟩,
    fun t hp => ⟨fun ho hd hm => ?_, fun ho hd hm => ?_, fun hd => ?_⟩,
    fun k v sc t bank watch hp => ⟨fun hd => becomes_cwaitTimeout hp (passed_iff.2 hd),
      fun hd => becomes_cwaitTimeout_early hp (hd.imp_left not_passed)⟩,
    fun d1 => becomes_monitorPoll, fun mo hm => ⟨pollMonitor_unwritten hm, pollMonitor_written hm⟩,
    fun k v sc t bank r e => pollWaiter_cwait, fun n k bank r e => pollWaiter_phwait⟩
  · have hnone : ¬ (mwaiting (waveOf s.dev w)).any (· ≠ sp) = true := by
      rw [mwaiting_any_ne]
      rintro ⟨i, hne, hi, hin⟩
      rw [ho i hne hi] at hin
      cases hin
    have hstep := becomes_mwaitTimeout hp (passed_iff.2 hd) (monitor_untold.2 hm)
    rwa [if_neg hnone] at hstep
  · have hstep := becomes_mwaitTimeout hp (passed_iff.2 hd) (monitor_untold.2 hm)
    rwa [if_pos (mwaiting_any_ne.2 ho)] at hstep
  · refine becomes_mwaitTimeout_early hp (Bool.and_eq_false_iff.2 (hd.imp not_passed fun h => ?_))
    exact Bool.eq_false_iff.2 fun hall => monitor_untold.1 hall h

end Sys2Proof.Machine
end

section
/-!
SUPPORT. Line locks (spec/08_line_locks.md R130 to R140): the choice of who gets a lock that is handed on, what a request comes to
at the home slice, and each word from its body at its line to how it ends.
-/
namespace Sys2Proof.Machine
open Sys2Proof.Claims

/-! ### Who gets a lock that is handed on (R137). -/

/-- The choice goes past waiters that are away and may still be passed over, and remembers them. -/
theorem nextWaiter_passes {ahead : List Waiter} (h : ∀ p ∈ ahead, p.away = true ∧ p.passes ≠ 4) (seen rest : List Waiter) :
    nextWaiter seen (ahead ++ rest) = nextWaiter (ahead.reverse ++ seen) rest := by
  induction ahead generalizing seen with
  | nil => rfl
  | cons p ahead ih =>
    obtain ⟨hp, hahead⟩ := List.forall_mem_cons.1 h
    rw [List.cons_append, nextWaiter, hp.1, Bool.not_true, if_neg Bool.false_ne_true, if_neg hp.2, ih hahead,
      List.reverse_cons, List.append_assoc, List.singleton_append]

section
variable {q : Waiter}

theorem nextWaiter_present (h : q.away = false) (seen r : List Waiter) : nextWaiter seen (q :: r) =
    some (q, seen.reverse.map (fun p => { p with passes := p.passes + 1 }) ++ r, true) := by
  rw [nextWaiter, h, Bool.not_false, if_pos rfl]

/-- A waiter that has been passed over four times is not passed over again. -/
theorem nextWaiter_kept (h : q.away = true) (h4 : q.passes = 4) (seen r : List Waiter) : nextWaiter seen (q :: r) =
    some (q, seen.reverse ++ q :: r, false) := by
  rw [nextWaiter, h, Bool.not_true, if_neg Bool.false_ne_true, if_pos h4]

end

/-- Settles O26: the choice comes to the first waiter that it may not pass, with those ahead of it in their order. -/
theorem locksHandOn : Obligations.LocksHandOn := by
  unfold Obligations.LocksHandOn
  intro ahead r q h
  refine ⟨fun hq => ?_, fun hq h4 => ?_, ?_⟩
  · rw [nextWaiter_passes h, nextWaiter_present hq, List.append_nil, List.reverse_reverse]
  · rw [nextWaiter_passes h, nextWaiter_kept hq h4, List.append_nil, List.reverse_reverse]
  · have hpass := nextWaiter_passes h [] []
    rwa [List.append_nil] at hpass

/-! ### Requests at the home slice (R134, R135, R140). -/

/-- A lock is free for a request when nobody holds it and nobody waits for it. -/
theorem lockFree_true {e : Lock} (hl : e.locked = false) (hq : e.queue = []) : (!e.locked && e.queue.isEmpty) = true := by
  rw [hl, hq]
  rfl

theorem lockFree_false {e : Lock} (h : e.locked = true ∨ e.queue ≠ []) : (!e.locked && e.queue.isEmpty) = false := by
  rcases h with hl | hq
  · rw [hl]
    rfl
  · rw [List.isEmpty_eq_false_iff.2 hq, Bool.and_false]

section
variable {m : Memory} {d : Dev} {n va : Nat} (w sp : Nat) (mask : W32) (t : Option Nat)

/-- A bank with no room for the line's entry takes no request. -/
theorem lockRequest_noEntry (h : lockEntry m d n (bankOf va) = none) :
    lockRequest m d w sp n va mask t = (d, .inr (.lockFull n va mask t)) := by
  rw [lockRequest, h]

section
variable {e : Lock} (h : lockEntry m d n (bankOf va) = some e)
include h

theorem lockRequest_granted (hl : e.locked = false) (hq : e.queue = []) : lockRequest m d w sp n va mask t =
    let g := grantLock m d n e w va mask (splitOf (waveOf d w) sp).clock
    (g.1, .inl g.2) := by
  rw [lockRequest, h]
  dsimp only
  rw [if_pos (lockFree_true hl hq)]

section
variable (hb : e.locked = true ∨ e.queue ≠ [])
include hb

theorem lockRequest_queued (hroom : bankWaiters d e.bank < 16384) : lockRequest m d w sp n va mask t =
    (setLock d n { e with queue := e.queue ++ [{ wave := w, split := sp, va := va, mask := mask }] }, .inr (.lock n va t)) := by
  rw [lockRequest, h]
  dsimp only
  rw [if_neg (Bool.eq_false_iff.1 (lockFree_false hb)), if_neg (Nat.not_le_of_lt hroom)]

theorem lockRequest_noRoom (hfull : 16384 ≤ bankWaiters d e.bank) :
    lockRequest m d w sp n va mask t = (d, .inr (.lockFull n va mask t)) := by
  rw [lockRequest, h]
  dsimp only
  rw [if_neg (Bool.eq_false_iff.1 (lockFree_false hb)), if_pos hfull]

end

end

end

/-- Settles O25: the four things that a request can come to. -/
theorem lockRequests : Obligations.LockRequests := by
  unfold Obligations.LockRequests
  intro m d w sp n va mask t e
  exact ⟨lockRequest_noEntry w sp mask t, lockRequest_granted w sp mask t, lockRequest_queued w sp mask t,
    lockRequest_noRoom w sp mask t⟩

/-! ### The bodies of the lock words at their line (R133 to R139). -/

/-- The answer of a lock word. -/
def lockOut (f : FmtM) (m : W32) (v : W64) : Act Verdict := do
  putA 0 m f.d (fun _ => v)
  pure .retire

/-- What a `lock` does with what its request comes to. -/
def lockAnswer (f : FmtM) (m : W32) : W64 ⊕ Park → Act Verdict
  | .inl st => lockOut f m st
  | .inr p => park p

/-- A `lock` past its checks. -/
def lockAsk (f : FmtM) (m : W32) (va n : Nat) : Act Verdict := ordering (do
  let r ← act (fun m0 d =>
    let r := lockRequest m0 d d.cur.1 d.cur.2 n va m (waitDeadline d f.sz)
    (r.2, r.1))
  lockAnswer f m r)

/-- What a `trylock` finds: its status and what it leaves. -/
def tryRequest (m0 : Memory) (m : W32) (va n : Nat) (d : Dev) : W64 × Dev :=
  match lockEntry m0 d n (bankOf va) with
  | none => (2, d)
  | some e =>
    if !e.locked && e.queue.isEmpty then
      let r := grantLock m0 d n e d.cur.1 va m (mySplit d).clock
      (r.2, r.1)
    else (1, d)

/-- A `trylock` past its checks. -/
def trylockAsk (f : FmtM) (m : W32) (va n : Nat) : Act Verdict := ordering (do
  let st ← act (fun m0 d => tryRequest m0 m va n d)
  lockOut f m st)

/-- The body of a word that asks for a lock: its checks of the held list, then what it asks. -/
def takeBody (ask : W32 → Nat → Nat → Act Verdict) (m : W32) (va n : Nat) : Act Verdict := do
  holdChecks n va
  ask m va n

/-- What an `unlock` of a held line performs. -/
def unlockPerform (m : W32) (n : Nat) : Act Verdict := do
  actU (fun m d => unlockLine m d d.cur.1 n (mySplit d).clock)
  startPushes m n
  pure .retire

/-- The body of an `unlock`. -/
def unlockBody (m : W32) (va n : Nat) : Act Verdict := do
  let d ← dev
  need (holds (me d) n) { cause := cLOCKNOTHELD, addr := w64 va }
  ordering (releasing .dev (unlockPerform m n))

/-- The body of a `lockq`. -/
def lockqBody (f : FmtM) (m : W32) (_va n : Nat) : Act Verdict := ordering (do
  let d ← dev
  lockOut f m (lockWord d d.cur.1 n))

section
variable {f : FmtM} {m : W32} {va n : Nat} {mem : Memory} {d d1 d2 e : Dev}

theorem lockOut_retires {v : W64} (hd : Runs (putA 0 m f.d (fun _ => v)) mem d () e) :
    runAct (lockOut f m v) mem d = .ok (.retire, e) := runAct_bind_ok hd

section
variable {ask : W32 → Nat → Nat → Act Verdict}

/-- A line that the wave holds is not asked for again (R134). -/
theorem takeBody_self (h : holds (me d) n = true) :
    runAct (takeBody ask m va n) mem d = .error { cause := cLOCKSELF, addr := w64 va } := by
  refine runAct_bind_error ?_
  unfold holdChecks
  rw [runAct_bind_ok (runAct_dev _ _), h]
  exact runAct_bind_error (runAct_need_false _ _ _)

section
variable (h : holds (me d) n = false)
include h

/-- No wave asks for a fifth line (R134). -/
theorem takeBody_limit (h4 : 4 ≤ (me d).held.length) :
    runAct (takeBody ask m va n) mem d = .error { cause := cLOCKLIMIT, addr := w64 va } := by
  refine runAct_bind_error ?_
  unfold holdChecks
  rw [runAct_bind_ok (runAct_dev _ _), h, decide_eq_false (Nat.not_lt_of_ge h4)]
  exact (runAct_bind_ok (runAct_need_true _ _ _)).trans (runAct_need_false _ _ _)

theorem takeBody_asks (h4 : (me d).held.length < 4) : runAct (takeBody ask m va n) mem d = runAct (ask m va n) mem d := by
  refine runAct_bind_ok (a := ()) ?_
  unfold holdChecks
  rw [runAct_bind_ok (runAct_dev _ _), h, decide_eq_true h4]
  exact runAct_bind_ok (runAct_need_true _ _ _)

/-- Only the holder unlocks (R136). -/
theorem unlockBody_notHeld : runAct (unlockBody m va n) mem d = .error { cause := cLOCKNOTHELD, addr := w64 va } := by
  unfold unlockBody
  rw [runAct_bind_ok (runAct_dev _ _), h]
  exact runAct_bind_error (runAct_need_false _ _ _)

end

end

theorem unlockBody_releases (h : holds (me d) n = true) (ho : Claims.Ordered mem d d1) (hr : Claims.Released .dev d1 d2)
    (hs : Runs (startPushes m n) mem (unlockLine mem d2 d2.cur.1 n (mySplit d2).clock) () e) :
    runAct (unlockBody m va n) mem d = .ok (.retire, e) := by
  unfold unlockBody
  rw [runAct_bind_ok (runAct_dev _ _), h, runAct_bind_ok (runAct_need_true _ _ _), ordered_of ho, released_of hr]
  exact (runAct_bind_ok (runAct_actU _ _ _)).trans (runAct_bind_ok hs)

theorem lockqBody_answers (ho : Claims.Ordered mem d d1)
    (hd : Runs (putA 0 m f.d (fun _ => lockWord d1 d1.cur.1 n)) mem d1 () e) :
    runAct (lockqBody f m va n) mem d = .ok (.retire, e) :=
  (ordered_of ho _).trans ((runAct_bind_ok (runAct_dev _ _)).trans (lockOut_retires hd))

section
variable (h : holds (me d) n = false) (h4 : (me d).held.length < 4) (ho : Claims.Ordered mem d d1)
include h h4 ho

/-- Past its checks, and in its order, a `lock` does what its request comes to (R135, R160). -/
theorem lockBody_requests {a : W64 ⊕ Park}
    (hr : (lockRequest mem d1 d1.cur.1 d1.cur.2 n va m (waitDeadline d1 f.sz)).2 = a) :
    runAct (takeBody (lockAsk f) m va n) mem d =
      runAct (lockAnswer f m a) mem (lockRequest mem d1 d1.cur.1 d1.cur.2 n va m (waitDeadline d1 f.sz)).1 := by
  subst hr
  exact (takeBody_asks h h4).trans ((ordered_of ho _).trans (runAct_act_bind ..))

theorem trylockBody_answers {v : W64} (hreq : tryRequest mem m va n d1 = (v, d2))
    (hd : Runs (putA 0 m f.d (fun _ => v)) mem d2 () e) :
    runAct (takeBody (trylockAsk f) m va n) mem d = .ok (.retire, e) := by
  rw [takeBody_asks h h4, trylockAsk, ordered_of ho, runAct_act_bind, hreq]
  exact lockOut_retires hd

end

theorem tryRequest_noEntry (h : lockEntry mem d n (bankOf va) = none) : tryRequest mem m va n d = (2, d) := by
  rw [tryRequest, h]

section
variable {x : Lock} (h : lockEntry mem d n (bankOf va) = some x)
include h

theorem tryRequest_granted (hl : x.locked = false) (hq : x.queue = []) : tryRequest mem m va n d =
    let r := grantLock mem d n x d.cur.1 va m (mySplit d).clock
    (r.2, r.1) := by
  rw [tryRequest, h]
  dsimp only
  rw [if_pos (lockFree_true hl hq)]

theorem tryRequest_busy (hb : x.locked = true ∨ x.queue ≠ []) : tryRequest mem m va n d = (1, d) := by
  rw [tryRequest, h]
  dsimp only
  rw [if_neg (Bool.eq_false_iff.1 (lockFree_false hb))]

end

end

/-! ### From a body to how its word ends (R130, R134, R196). -/

/-- The whole of a `lock`: a woken one answers its grant. -/
def lockAll (h : Head) (f : FmtM) : Act Verdict := do
  let d ← dev
  match (mySplit d).ans with
  | some r => do
    let m ← acting h false
    lockOut f m (lane r 0)
  | none => lockOp h f (takeBody (lockAsk f))

theorem exec_lock (h : Head) (f : FmtM) (s : State) : exec (.lock h f) s = runA (.lock h f) h (lockAll h f) s := rfl

/-- In this state the word does what a body does at the line of its lowest lane. -/
def ActsAtLine (i : Instr) (h : Head) (f : FmtM) (s : State) (body : W32 → Nat → Nat → Act Verdict) : Prop :=
  ∃ x, exec i s = runA i h x s ∧ runAct x s.mem s.dev = runAct (lockOp h f body) s.mem s.dev

section
variable {h : Head} {f : FmtM} {s : State}

theorem lockAll_woken {r : Row} (hans : (mySplit s.dev).ans = some r) {m : W32} {d0 : Dev}
    (hm : Runs (acting h false) s.mem s.dev m d0) :
    runAct (lockAll h f) s.mem s.dev = runAct (lockOut f m (lane r 0)) s.mem d0 := by
  unfold lockAll
  rw [runAct_bind_ok (runAct_dev _ _), hans]
  exact runAct_bind_ok hm

theorem lock_actsAtLine (hans : (mySplit s.dev).ans = none) : ActsAtLine (.lock h f) h f s (takeBody (lockAsk f)) := by
  refine ⟨lockAll h f, exec_lock h f s, ?_⟩
  unfold lockAll
  rw [runAct_bind_ok (runAct_dev _ _), hans]

theorem trylock_actsAtLine : ActsAtLine (.trylock h f) h f s (takeBody (trylockAsk f)) := ⟨_, rfl, rfl⟩

theorem unlock_actsAtLine : ActsAtLine (.unlock h f) h f s unlockBody := ⟨_, rfl, rfl⟩

theorem lockq_actsAtLine : ActsAtLine (.lockq h f) h f s (lockqBody f) := ⟨_, rfl, rfl⟩

section
variable {i : Instr} {body : W32 → Nat → Nat → Act Verdict} {m : W32} {ea : Nat → W64} {d0 d1 : Dev}
  (hx : ActsAtLine i h f s body) (ha : Admitted i [] s) (hm : Runs (acting h false) s.mem s.dev m d0)
  (he : Runs (laneAddr f.base f.off m) s.mem d0 ea d1)
include hx ha hm he

theorem retires_atLine_none (hl : lowLane m = none) : Retires i h true false s d1 := by
  obtain ⟨x, hexec, hrun⟩ := hx
  exact retires_of hexec ha (hrun.trans (waveOp_none hm ((runAct_bind_ok he).trans rfl) hl rfl))

section
variable {l k : Nat} {d2 : Dev} (hl : lowLane m = some l) (hk : Runs (lockAddr (ea l).toNat) s.mem d1 k d2)
include hl hk

theorem retires_atLine {e : Dev} (hb : runAct (body m (ea l).toNat (k / 64)) s.mem d2 = .ok (.retire, e)) :
    Retires i h true false s e := by
  obtain ⟨x, hexec, hrun⟩ := hx
  exact retires_of hexec ha (hrun.trans ((lockOp_of hm he hl hk).trans (asLane_ok hb)))

theorem stays_atLine {e : Dev} (hb : runAct (body m (ea l).toNat (k / 64)) s.mem d2 = .ok (.stay, e)) : Stays i s e := by
  obtain ⟨x, hexec, hrun⟩ := hx
  exact stays_of hexec ha (hrun.trans ((lockOp_of hm he hl hk).trans (asLane_ok hb)))

theorem traps_atLine {t : Trap} (hb : runAct (body m (ea l).toNat (k / 64)) s.mem d2 = .error t)
    (hc : laneCauses.contains t.cause = false) : Traps i s t := by
  obtain ⟨x, hexec, hrun⟩ := hx
  exact traps_of hexec ha (hrun.trans ((lockOp_of hm he hl hk).trans (asLane_other hb hc)))

end

end

/-! ### The lock words (R130 to R139, R160). -/

section
variable {i : Instr}
  (hi : (i = .lock h f ∧ (mySplit s.dev).ans = none) ∨ i = .trylock h f ∨ i = .unlock h f ∨ i = .lockq h f)
include hi

/-- Each lock word acts at its line, a `lock` unless it has been woken. -/
theorem lockWords_actAtLine : ∃ body, ActsAtLine i h f s body := by
  rcases hi with ⟨rfl, hans⟩ | rfl | rfl | rfl
  · exact ⟨_, lock_actsAtLine hans⟩
  · exact ⟨_, trylock_actsAtLine⟩
  · exact ⟨_, unlock_actsAtLine⟩
  · exact ⟨_, lockq_actsAtLine⟩

theorem lockWords_unanswered (hlock : i = .lock h f) : (mySplit s.dev).ans = none := by
  subst hlock
  simpa using hi

/-- The words that ask for a lock check the wave's held list first. -/
theorem takingWords_actAtLine (ht : i = .lock h f ∨ i = .trylock h f) : ∃ ask, ActsAtLine i h f s (takeBody ask) := by
  rcases ht with hlock | rfl
  · exact ⟨_, hlock ▸ lock_actsAtLine (lockWords_unanswered hi hlock)⟩
  · exact ⟨_, trylock_actsAtLine⟩

end

end

/-- Settles O24: each word ends as its body ends at its line. -/
theorem locks : Obligations.Locks := by
  unfold Obligations.Locks
  intro h f s m ea d0 d1 hm
  dsimp only
  refine ⟨fun r d2 ha hans hd => retires_of (exec_lock h f s) ha ((lockAll_woken hans hm).trans (lockOut_retires hd)),
    fun i hi ha he => ⟨fun hl => ?_, fun l k d2 hl hk => ⟨fun ht hself => ?_, fun ht hfree h4 => ?_, ?_, fun d3 ho =>
      ⟨?_, ?_, ?_, ?_⟩⟩⟩⟩
  · obtain ⟨body, hx⟩ := lockWords_actAtLine hi
    exact retires_atLine_none hx ha hm he hl
  · obtain ⟨ask, hx⟩ := takingWords_actAtLine hi ht
    exact traps_atLine hx ha hm he hl hk (takeBody_self hself) rfl
  · obtain ⟨ask, hx⟩ := takingWords_actAtLine hi ht
    exact traps_atLine hx ha hm he hl hk (takeBody_limit hfree h4) rfl
  · rintro rfl hnot
    exact traps_atLine unlock_actsAtLine ha hm he hl hk (unlockBody_notHeld hnot) rfl
  · rintro rfl hfree h4
    have hx := lock_actsAtLine (h := h) (f := f) (lockWords_unanswered hi rfl)
    exact ⟨fun st hst e hd =>
        retires_atLine hx ha hm he hl hk ((lockBody_requests hfree h4 ho hst).trans (lockOut_retires hd)),
      fun p hp => stays_atLine hx ha hm he hl hk ((lockBody_requests hfree h4 ho hp).trans (runAct_park ..))⟩
  · rintro rfl hfree h4
    have hends {v d e} (hreq : tryRequest s.mem m (ea l).toNat (k / 64) d3 = (v, d))
        (hd : Runs (putA 0 m f.d (fun _ => v)) s.mem d () e) : Retires (.trylock h f) h true false s e :=
      retires_atLine trylock_actsAtLine ha hm he hl hk (trylockBody_answers hfree h4 ho hreq hd)
    exact ⟨fun hnone e => hends (tryRequest_noEntry hnone), fun x hsome =>
      ⟨fun ⟨hunlocked, hempty⟩ e => hends (tryRequest_granted hsome hunlocked hempty),
        fun hbusy e => hends (tryRequest_busy hsome hbusy)⟩⟩
  · rintro rfl hheld d4 d5 hr hpush
    exact retires_atLine unlock_actsAtLine ha hm he hl hk (unlockBody_releases hheld ho hr hpush)
  · rintro rfl e hd
    exact retires_atLine lockq_actsAtLine ha hm he hl hk (lockqBody_answers ho hd)

end Sys2Proof.Machine
end

section
/-!
SUPPORT. The retirement of a word (spec/09_engines_determinism.md R158, spec/13_encoding.md R210, R227): what it changes of the split
that issues, and that it leaves the registers and the rest of the device.
-/
namespace Sys2Proof.Machine
open Sys2Proof.Claims

/-! ### Changes of the split that issues. -/

/-- The registers of a wave are as they were. -/
structure KeepsRegisters (x y : Wave) : Prop where
  v : y.v = x.v
  a : y.a = x.a
  s : y.s = x.s
  p : y.p = x.p
  g : y.g = x.g

/-- Of the device only the wave that issues has changed, and of that neither its registers nor the number of its splits. -/
structure MovesSplit (d e : Dev) : Prop where
  cur : e.cur = d.cur
  waves : e.waves.length = d.waves.length
  splits : (me e).splits.length = (me d).splits.length
  regs : KeepsRegisters (me d) (me e)
  rest : { e with waves := [] } = { d with waves := [] }

theorem KeepsRegisters.trans {x y z : Wave} (hxy : KeepsRegisters x y) (hyz : KeepsRegisters y z) : KeepsRegisters x z :=
  ⟨hyz.v.trans hxy.v, hyz.a.trans hxy.a, hyz.s.trans hxy.s, hyz.p.trans hxy.p, hyz.g.trans hxy.g⟩

theorem MovesSplit.trans {a b c : Dev} (hab : MovesSplit a b) (hbc : MovesSplit b c) : MovesSplit a c :=
  ⟨hbc.cur.trans hab.cur, hbc.waves.trans hab.waves, hbc.splits.trans hab.splits, hab.regs.trans hbc.regs, hbc.rest.trans hab.rest⟩

section
variable {d : Dev} (hw : d.cur.1 < d.waves.length)
include hw

theorem setMe_movesSplit {x : Wave} (hs : x.splits.length = (me d).splits.length) (hr : KeepsRegisters (me d) x) :
    MovesSplit d (setMe d x) where
  cur := rfl
  waves := nthSet_length ..
  splits := by rw [me_setMe d x hw, hs]
  regs := by rwa [me_setMe d x hw]
  rest := rfl

theorem setMySplit_movesSplit (q : Split) : MovesSplit d (setMySplit d q) :=
  setMe_movesSplit hw (nthSet_length ..) ⟨rfl, rfl, rfl, rfl, rfl⟩

theorem moveClock_movesSplit (c : Nat) : MovesSplit d (moveClock d d.cur.1 d.cur.2 c) :=
  setMe_movesSplit hw (nthSet_length ..) ⟨rfl, rfl, rfl, rfl, rfl⟩

variable (hsp : d.cur.2 < (me d).splits.length)
include hsp

theorem mySplit_moveClock (c : Nat) : mySplit (moveClock d d.cur.1 d.cur.2 c) = { mySplit d with clock := c } := by
  show splitOf (me (setMe d _)) d.cur.2 = _
  rw [me_setMe d _ hw]
  exact (splitOf_setSplitOf ..).trans (if_pos ⟨rfl, hsp⟩)

end

/-! ### What a word counts (R158, R227). -/

/-- A split once a word of it has been counted. -/
def countedSplit (q : Split) (stl : Nat) (acc exe : Bool) : Split :=
  { q with pend := prune (addDist q.pend stl acc exe), ans := none, served := 0, servedVals := [], forced := [], peeked := none,
           peerLost := false, clock := q.clock + 1 }

section
variable {d : Dev} {stl : Nat} {acc exe : Bool} (hw : d.cur.1 < d.waves.length)
include hw

theorem countWord_movesSplit : MovesSplit d (countWord d stl acc exe) := by
  have hset := setMySplit_movesSplit hw { mySplit d with
    pend := prune (addDist (mySplit d).pend stl acc exe), ans := none, served := 0, servedVals := [], forced := [], peeked := none,
    peerLost := false }
  exact hset.trans (moveClock_movesSplit (by rw [hset.waves]; exact hw) _)

theorem setMySplit_countWord_movesSplit (q : Split) : MovesSplit d (setMySplit (countWord d stl acc exe) q) :=
  have hcount := countWord_movesSplit (stl := stl) (acc := acc) (exe := exe) hw
  hcount.trans (setMySplit_movesSplit (by rwa [hcount.cur, hcount.waves]) q)

variable (hsp : d.cur.2 < (me d).splits.length)
include hsp

theorem mySplit_countWord : mySplit (countWord d stl acc exe) = countedSplit (mySplit d) stl acc exe := by
  unfold countWord
  have hset := setMySplit_movesSplit hw { mySplit d with
    pend := prune (addDist (mySplit d).pend stl acc exe), ans := none, served := 0, servedVals := [], forced := [], peeked := none,
    peerLost := false }
  exact (mySplit_moveClock (by rw [hset.waves]; exact hw) (by rw [hset.splits]; exact hsp) _).trans
    (by rw [mySplit_setMySplit d _ hw hsp]; rfl)

theorem mySplit_setMySplit_countWord (q : Split) : mySplit (setMySplit (countWord d stl acc exe) q) = q :=
  have hcount := countWord_movesSplit (stl := stl) (acc := acc) (exe := exe) hw
  mySplit_setMySplit _ q (by rwa [hcount.cur, hcount.waves]) (by rwa [hcount.cur, hcount.splits])

theorem mySplit_goHeader_countWord (va : Nat) : mySplit (goHeader (countWord d stl acc exe) va) =
    { countedSplit (mySplit d) stl acc exe with pc := va, entering := true } := by
  unfold goHeader
  rw [mySplit_setMySplit_countWord hw hsp, mySplit_countWord hw hsp]

end

/-! ### The last word of a block (R210). -/

section
variable {m : Memory} {d : Dev} {stl : Nat} {acc exe : Bool} (hl : atLast (mySplit d) = true)
include hl

/-- A word whose fall-through was checked at its first issue goes on to it. -/
theorem retireWord_checked (h : (mySplit d).ans.isSome = true ∨ (mySplit d).served ≠ 0) :
    runAct (retireWord stl acc exe) m d = .ok ((), goHeader (countWord d stl acc exe) (boundary (mySplit d))) := by
  have hno : ¬ ((mySplit d).ans.isNone && decide ((mySplit d).served = 0)) = true := by
    rcases h with h | h
    · cases ha : (mySplit d).ans with
      | none => rw [ha] at h; cases h
      | some r => simp
    · simpa using fun _ => h
  unfold retireWord
  rw [runAct_bind_ok (runAct_dev m d)]
  dsimp only
  rw [if_pos hl, if_neg hno]
  rfl

/-- Any other word checks its fall-through first. -/
theorem retireWord_checks (ha : (mySplit d).ans = none) (hs : (mySplit d).served = 0) : runAct (retireWord stl acc exe) m d =
    runAct (checkTarget (w64 (boundary (mySplit d))) >>= fun _ =>
      upd (fun e => goHeader (countWord e stl acc exe) (boundary (mySplit d)))) m d := by
  unfold retireWord
  rw [runAct_bind_ok (runAct_dev m d)]
  dsimp only
  rw [if_pos hl, if_pos (by simp [ha, hs])]

end

/-- Settles O12: a word's retirement by its place in its block, each from what the word counts. -/
theorem wordsRetire : Obligations.WordsRetire := by
  unfold Obligations.WordsRetire
  intro m d stl acc exe hw hsp
  dsimp only
  refine ⟨fun hl => ⟨_, retireWord_next hl, ?_⟩, fun hl hc => ⟨_, retireWord_checked hl hc, ?_⟩,
    fun hl ha hs d1 ht hcur hwaves => ⟨_, (retireWord_checks hl ha hs).trans (runAct_bind_ok ht), ?_⟩,
    fun hl ha hs t ht => (retireWord_checks hl ha hs).trans (runAct_bind_error ht)⟩
  · obtain ⟨-, -, -, hregs, hrest⟩ := setMySplit_countWord_movesSplit (stl := stl) (acc := acc) (exe := exe) hw
      { mySplit (countWord d stl acc exe) with pc := (mySplit d).pc + 8 }
    dsimp only
    rw [mySplit_setMySplit_countWord hw hsp]
    rw [mySplit_countWord hw hsp] at hregs hrest ⊢
    exact ⟨rfl, rfl, rfl, rfl, rfl, rfl, rfl, hregs.v, hregs.a, hregs.s, hregs.p, hregs.g, hrest⟩
  · rw [mySplit_goHeader_countWord hw hsp]
    exact ⟨rfl, rfl, rfl⟩
  · have hme : me d1 = me d := by unfold me waveOf; rw [hcur, hwaves]
    have hmine : mySplit d1 = mySplit d := by unfold mySplit; rw [hme, hcur]
    rw [mySplit_goHeader_countWord (by rwa [hcur, hwaves]) (by rwa [hcur, hme]), hmine]
    exact ⟨rfl, rfl, rfl⟩

end Sys2Proof.Machine
end

section
/-!
SUPPORT. The completion counters (spec/15_isa_memory.md R286, spec/09_engines_determinism.md R152, R153): each word from its operands
to its counter, and from there to what it answers.
-/
namespace Sys2Proof.Machine
open Sys2Proof.Claims

/-! ### What a word that acts for its wave answers (R134, R262). -/

/-- The result of a per-wave word. -/
def answer (code : BitVec 8) (m : W32) (v : W64) : Act Verdict := do
  loadDst .n64 m code (fun _ => v)
  pure .retire

section
variable {i : Instr} {h : Head} {s : State} {word : Act Verdict} {f : W32 → Act (W32 → Nat → Act Verdict)} {g : W32 → Act Unit}
  {m : W32} {d0 d1 : Dev} {b : W32 → Nat → Act Verdict} {code : BitVec 8}
  (hx : exec i s = runA i h word s) (ha : Admitted i [] s)
  (hw : runAct word s.mem s.dev = runAct (waveOp h f g) s.mem s.dev) (hm : Runs (acting h false) s.mem s.dev m d0)
  (hf : runAct (f m) s.mem d0 = .ok (b, d1))
include hx ha hw hm hf

theorem answers_none (hl : lowLane m = none) (hg : g m = loadDst .n64 m code (fun _ => 0)) : Answers i h code s m 0 d1 :=
  fun _ he => retires_of hx ha (hw.trans (waveOp_none hm hf hl (by rwa [hg])))

section
variable {l : Nat} (hl : lowLane m = some l)
include hl

theorem answers_lane {v : W64} {d : Dev} (hb : runAct (b m l) s.mem d1 = runAct (answer code m v) s.mem d) :
    Answers i h code s m v d :=
  fun _ he => retires_of hx ha (hw.trans ((waveOp_of hm hf hl).trans (asLane_ok (hb.trans (runAct_bind_ok he)))))

theorem stays_lane {d : Dev} (hb : runAct (b m l) s.mem d1 = .ok (.stay, d)) : Stays i s d :=
  stays_of hx ha (hw.trans ((waveOp_of hm hf hl).trans (asLane_ok hb)))

end

end

/-! ### Words at their counter (R151, R153, R286). -/

/-- A word reaches its counter, once it has room for its result. -/
def counterAt (code : BitVec 8) (u : Use) (va : Nat) (body : Nat → Act Verdict) : Act Verdict := do
  roomFor code 1
  let k ← counterKey u va
  body k

/-- The device once the wave has seen a counter at its home. -/
def sawCounter (m : Memory) (d : Dev) (k : Nat) : Dev :=
  let e := recallLine d (lineNo k)
  sawHome m e e.cur.1 k 8

theorem counterAt_reached {code : BitVec 8} {u : Use} {va k : Nat} {body : Nat → Act Verdict} {m : Memory} {d d1 e : Dev}
    (hr : Claims.Room code d) (hk : Runs (counterKey u va) m d k d1) (ho : Claims.Ordered m d1 e) :
    runAct (counterAt code u va (fun k => ordering (body k))) m d = runAct (body k) m e := by
  unfold counterAt
  rw [runAct_bind_ok (room_of hr), runAct_bind_ok hk, ordered_of ho]

theorem counterValue_saw {k : Nat} {m : Memory} {d : Dev} :
    runAct (counterValue k) m d = .ok (rd64 m (sawCounter m d k) k, sawCounter m d k) := by
  have hrd : rd64 m (sawCounter m d k) k = rd64 m (recallLine d (lineNo k)) k := by
    unfold rd64 sawCounter
    rw [(sawHome_keepsStores m _ _ k 8).rdBytes]
  rw [hrd]
  rfl

/-- `cadd` at its counter: a release, then the addition. -/
def caddPerform (f : FmtX) (v : W64) (m : W32) (k : Nat) : Act Verdict :=
  releasing (scopeX f.md) (do
    let old ← act (fun m d =>
      let d1 := recallLine d (lineNo k)
      (rd64 m d1 k, counterAdd m d1 (whoMe d1) k v (me d1).vstamp false))
    answer f.d m old)

theorem caddPerform_adds {f : FmtX} {v : W64} {m : W32} {k : Nat} {mem : Memory} {d e : Dev}
    (hr : Claims.Released (scopeX f.md) d e) : runAct (caddPerform f v m k) mem d =
      (let e1 := recallLine e (lineNo k)
       runAct (answer f.d m (rd64 mem e1 k)) mem (counterAdd mem e1 (whoMe e1) k v (me e1).vstamp false)) := by
  unfold caddPerform
  rw [released_of hr, runAct_act_bind]

/-- `cread` at its counter: an acquire of the value. -/
def creadPerform (f : FmtM) (m : W32) (k : Nat) : Act Verdict := do
  let v ← counterValue k
  upd (fun d => counterAcquire d d.cur.1 k (scope f.sc.toNat))
  answer f.d m v

theorem creadPerform_answers {f : FmtM} {m : W32} {k : Nat} {mem : Memory} {d : Dev} : runAct (creadPerform f m k) mem d =
    (let e := sawCounter mem d k
     runAct (answer f.d m (rd64 mem e k)) mem (counterAcquire e e.cur.1 k (scope f.sc.toNat))) := by
  unfold creadPerform
  rw [runAct_bind_ok counterValue_saw]
  exact runAct_bind_ok (runAct_upd _ _ _)

/-- `cwait` at its counter: an acquire once the target has been reached, and else a wait for it. -/
def cwaitPerform (f : FmtX) (va : Nat) (target time : W64) (m : W32) (k : Nat) : Act Verdict := do
  let v ← counterValue k
  if target ≤ v then do
    upd (fun d => counterAcquire d d.cur.1 k (scopeX f.md))
    answer f.d m v
  else do
    let d ← dev
    let bank := bankOf va
    park (.cwait k target (scopeX f.md) (if time = 0 then none else after d time.toNat) bank (newWatch d bank))

section
variable {f : FmtX} {va : Nat} {target time : W64} {m : W32} {k : Nat} {mem : Memory} {d : Dev}

theorem cwaitPerform_reached (h : target ≤ rd64 mem (sawCounter mem d k) k) : runAct (cwaitPerform f va target time m k) mem d =
    (let e := sawCounter mem d k
     runAct (answer f.d m (rd64 mem e k)) mem (counterAcquire e e.cur.1 k (scopeX f.md))) := by
  unfold cwaitPerform
  rw [runAct_bind_ok counterValue_saw, if_pos h]
  exact runAct_bind_ok (runAct_upd _ _ _)

theorem cwaitPerform_parks (h : rd64 mem (sawCounter mem d k) k < target) : runAct (cwaitPerform f va target time m k) mem d =
    (let e := sawCounter mem d k
     .ok (.stay, setMySplit e { mySplit e with
       park := .cwait k target (scopeX f.md) (if time = 0 then none else some (e.cycle + time.toNat)) (bankOf va)
        (newWatch e (bankOf va)) })) := by
  unfold cwaitPerform
  rw [runAct_bind_ok counterValue_saw, if_neg (BitVec.not_le.2 h)]
  rfl

end

/-! ### The words (R286). -/

/-- What a `cadd` does at its lowest lane, with the values of its operands. -/
def caddBody (f : FmtX) (a b : Nat → W64) (m : W32) (l : Nat) : Act Verdict :=
  counterAt f.d { acc := .readWrite, size := 8, writes := true } (a l).toNat (fun k => ordering (caddPerform f (b l) m k))

/-- What a `cwait` that has not been woken does at its lowest lane. -/
def cwaitBody (f : FmtX) (a b c : Nat → W64) (m : W32) (l : Nat) : Act Verdict :=
  counterAt f.d { acc := .read, size := 8 } (a l).toNat (fun k => ordering (cwaitPerform f (a l).toNat (b l) (c l) m k))

/-- What a `cread` does at its lowest lane. -/
def creadBody (f : FmtM) (ea : Nat → W64) (m : W32) (l : Nat) : Act Verdict :=
  counterAt f.d { acc := .read, size := 8 } (ea l).toNat (fun k => ordering (creadPerform f m k))

/-- The operands of a `cadd`. -/
def caddTakes (f : FmtX) (m : W32) : Act (W32 → Nat → Act Verdict) := do
  let a ← takeSrc .n64 m f.a
  let b ← takeSrc .n64 m f.b
  let d ← dev
  pure (caddBody f (valA (me d) (mySplit d) a) (valA (me d) (mySplit d) b))

/-- The operands of a `cwait`. -/
def cwaitTakes (f : FmtX) (m : W32) : Act (W32 → Nat → Act Verdict) := do
  let a ← takeSrc .n64 m f.a
  let b ← takeSrc .n64 m f.b
  let c ← takeSrc .n64 m f.c
  let d ← dev
  pure (cwaitBody f (valA (me d) (mySplit d) a) (valA (me d) (mySplit d) b) (valA (me d) (mySplit d) c))

/-- The address of a `cread`. -/
def creadTakes (f : FmtM) (m : W32) : Act (W32 → Nat → Act Verdict) := do
  let ea ← laneAddr f.base f.off m
  pure (creadBody f ea)

/-- The operands of a word that has been woken. -/
def wokenTakes (f : FmtX) (r : Row) (m : W32) : Act (W32 → Nat → Act Verdict) := do
  let _ ← takeSrc .n64 m f.a
  let _ ← takeSrc .n64 m f.b
  let _ ← takeSrc .n64 m f.c
  pure (fun m _ => answer f.d m (lane r 0))

/-- A `cwait` that has not been woken. -/
def cwaitFresh (h : Head) (f : FmtX) : Act Verdict := waveOp h (cwaitTakes f) (fun m => loadDst .n64 m f.d (fun _ => 0))

theorem exec_cadd (h : Head) (f : FmtX) (s : State) : exec (.cadd h f) s =
    runA (.cadd h f) h (waveOp h (caddTakes f) (fun m => loadDst .n64 m f.d (fun _ => 0))) s := rfl

theorem exec_cread (h : Head) (f : FmtM) (s : State) : exec (.cread h f) s =
    runA (.cread h f) h (waveOp h (creadTakes f) (fun m => loadDst .n64 m f.d (fun _ => 0))) s := rfl

theorem exec_cwait (h : Head) (f : FmtX) (s : State) : exec (.cwait h f) s =
    runA (.cwait h f) h (wokenOr h f (cwaitFresh h f)) s := rfl

section
variable {h : Head} {f : FmtX} {body : Act Verdict} {m : Memory} {d : Dev}

theorem wokenOr_fresh (ha : (mySplit d).ans = none) : runAct (wokenOr h f body) m d = runAct body m d := by
  unfold wokenOr
  rw [runAct_bind_ok (runAct_dev _ _), ha]

theorem wokenOr_woken {r : Row} (ha : (mySplit d).ans = some r) :
    runAct (wokenOr h f body) m d = runAct (waveOp h (wokenTakes f r) (fun _ => pure ())) m d := by
  unfold wokenOr
  rw [runAct_bind_ok (runAct_dev _ _), ha]
  rfl

end

section
variable {f : FmtX} {m : W32} {a b : Src} {mem : Memory} {d0 d1 d2 : Dev} (ha : Runs (takeSrc .n64 m f.a) mem d0 a d1)
  (hb : Runs (takeSrc .n64 m f.b) mem d1 b d2)
include ha hb

theorem runs_caddTakes : runAct (caddTakes f m) mem d0 =
    .ok (caddBody f (valA (me d2) (mySplit d2) a) (valA (me d2) (mySplit d2) b), d2) :=
  (runAct_bind_ok ha).trans ((runAct_bind_ok hb).trans rfl)

section
variable {c : Src} {d3 : Dev} (hc : Runs (takeSrc .n64 m f.c) mem d2 c d3)
include hc

theorem runs_cwaitTakes : runAct (cwaitTakes f m) mem d0 =
    .ok (cwaitBody f (valA (me d3) (mySplit d3) a) (valA (me d3) (mySplit d3) b) (valA (me d3) (mySplit d3) c), d3) :=
  (runAct_bind_ok ha).trans ((runAct_bind_ok hb).trans ((runAct_bind_ok hc).trans rfl))

theorem runs_wokenTakes (r : Row) : runAct (wokenTakes f r m) mem d0 = .ok (fun m _ => answer f.d m (lane r 0), d3) :=
  (runAct_bind_ok ha).trans ((runAct_bind_ok hb).trans ((runAct_bind_ok hc).trans rfl))

end

end

theorem runs_creadTakes {f : FmtM} {m : W32} {ea : Nat → W64} {mem : Memory} {d0 d1 : Dev}
    (he : Runs (laneAddr f.base f.off m) mem d0 ea d1) : runAct (creadTakes f m) mem d0 = .ok (creadBody f ea, d1) :=
  (runAct_bind_ok he).trans rfl

/-- Settles O30: each word answers, or parks, as its body does at its counter. -/
theorem counters : Obligations.Counters := by
  unfold Obligations.Counters
  intro h f g s m d0
  dsimp only
  intro hm
  refine ⟨fun a b d1 d2 ha hta htb => ⟨fun hl => ?_, fun l k d3 d4 d5 hl hr hk ho hrel => ?_⟩,
    fun a b c d1 d2 d3 ha hta htb htc => ⟨fun hans hl => ?_, fun l hl => ⟨fun r hans => ?_, fun k d4 d5 hans hr hk ho =>
      ⟨fun hv => ?_, fun hv => ?_⟩⟩⟩,
    fun ea d1 ha he => ⟨fun hl => ?_, fun l k d2 d3 hl hr hk ho => ?_⟩⟩
  · exact answers_none (exec_cadd h f s) ha rfl hm (runs_caddTakes hta htb) hl rfl
  · exact answers_lane (exec_cadd h f s) ha rfl hm (runs_caddTakes hta htb) hl
      ((counterAt_reached hr hk ho).trans (caddPerform_adds hrel))
  · exact answers_none (exec_cwait h f s) ha (wokenOr_fresh hans) hm (runs_cwaitTakes hta htb htc) hl rfl
  · exact answers_lane (exec_cwait h f s) ha (wokenOr_woken hans) hm (runs_wokenTakes hta htb htc r) hl rfl
  · exact answers_lane (exec_cwait h f s) ha (wokenOr_fresh hans) hm (runs_cwaitTakes hta htb htc) hl
      ((counterAt_reached hr hk ho).trans (cwaitPerform_reached hv))
  · exact stays_lane (exec_cwait h f s) ha (wokenOr_fresh hans) hm (runs_cwaitTakes hta htb htc) hl
      ((counterAt_reached hr hk ho).trans (cwaitPerform_parks hv))
  · exact answers_none (exec_cread h g s) ha rfl hm (runs_creadTakes he) hl rfl
  · exact answers_lane (exec_cread h g s) ha rfl hm (runs_creadTakes he) hl
      ((counterAt_reached hr hk ho).trans creadPerform_answers)

end Sys2Proof.Machine
end

section
/-!
SUPPORT. The device steps of the copy and matrix engines (spec/17_isa_copy_task_system.md R324, R325, R331,
spec/09_engines_determinism.md R151, R152, spec/16_isa_matrix.md R293, R313): what each answers, by the cases that its function tells
apart.
-/
namespace Sys2Proof.Machine
open Sys2Proof.Claims

/-! ### The next granule of a copy (R54, R126, R151, R324; log 65). -/

/-- A copy that runs, with its tag taken. -/
def withTag (d : Dev) (i : Nat) (c : Copy) : Dev := setCopy d i (takeTag d c)

/-- What lands in the granule of a copy's first write, with the element that the copy has reached. -/
def granuleBatch (m : Memory) (c : Copy) (w : ElemWrite) (p : Plan) (d : Dev) : Except ElemErr (Batch × List (Nat × List Int) × Dev) :=
  let land := (elemWhere c).2
  let last := lastMate c (if w.desc then descAddr c.lb.raw c.dst land else landVa c land)
  collect m (granuleOf w.dst) last (last - c.pos) (advance c) (takeWrites (granuleOf w.dst) c.pos {} p.writes) d

/-- What has been collected lands, or waits whole; the copy then stands past it. -/
def landGranule (m : Memory) (d0 : Dev) (i : Nat) (c : Copy) (w : ElemWrite) :
    Except ElemErr (Batch × List (Nat × List Int) × Dev) → Dev
  | .error e => startWait m d0 e
  | .ok (b, idx, d2) =>
    match landCells i w.dst (lastCells b.cells) m d2 with
    | .error (.page t pi) => startFill m d0 t pi
    | .error (.trap _) => d0
    | .ok (_, d3) =>
      match copyAt d3 i with
      | some e => setCopy d3 i (landed { e with idx := c.idx.filter (fun q => !idx.contains q) ++ idx } b)
      | none => d3

section
variable {m : Memory} {d0 d2 : Dev} {i : Nat} {c : Copy} {w : ElemWrite} {b : Batch} {idx : List (Nat × List Int)}

theorem landGranule_lands {d3 : Dev} {e : Copy} (hl : landCells i w.dst (lastCells b.cells) m d2 = .ok ((), d3))
    (he : copyAt d3 i = some e) : landGranule m d0 i c w (.ok (b, idx, d2)) =
      setCopy d3 i (landed { e with idx := c.idx.filter (fun q => !idx.contains q) ++ idx } b) := by
  simp only [landGranule, hl, he]

theorem landGranule_waits {t pi : Nat} (hl : landCells i w.dst (lastCells b.cells) m d2 = .error (.page t pi)) :
    landGranule m d0 i c w (.ok (b, idx, d2)) = startFill m d0 t pi := by
  simp only [landGranule, hl]

end

section
variable {m : Memory} {d : Dev} {i : Nat} {c0 : Copy} (hc : copyAt d i = some c0) (hr : copyRuns d i c0 = true)
include hc hr

theorem copyStep_stale (hs : targetStale (withTag d i c0) (takeTag d c0) = true) :
    copyStep m d i = dropStale m (withTag d i c0) i (takeTag d c0) := by
  unfold withTag at hs ⊢
  simp only [copyStep, hc, hr, hs, Bool.not_true, Bool.false_eq_true, if_false, if_true]

section
variable (hs : targetStale (withTag d i c0) (takeTag d c0) = false)
include hs

theorem copyStep_stopped {e : ElemErr} (hp : planNext (takeTag d c0) m (withTag d i c0) = .error e) :
    copyStep m d i = startWait m (withTag d i c0) e := by
  unfold withTag at hs hp ⊢
  simp only [copyStep, hc, hr, hs, hp, Bool.not_true, Bool.false_eq_true, if_false]

section
variable {c : Copy} {p : Plan} {d1 : Dev} (hp : planNext (takeTag d c0) m (withTag d i c0) = .ok ((c, p), d1))
include hp

theorem copyStep_reads (hw : p.writes = []) : copyStep m d i = setCopy d1 i (landed c {}) := by
  unfold withTag at hs hp
  simp only [copyStep, hc, hr, hs, hp, hw, Bool.not_true, Bool.false_eq_true, if_false]

section
variable {w : ElemWrite} {r : List ElemWrite} (hw : p.writes = w :: r)
include hw

theorem copyStep_granule :
    copyStep m d i = landGranule m (withTag d i c0) i c w (granuleBatch m c w p d1) := by
  unfold withTag at hs hp
  simp only [copyStep, hc, hr, hs, hp, hw, Bool.not_true, Bool.false_eq_true, if_false]
  unfold granuleBatch
  rw [hw]
  rfl

end

end

end

end

/-- Both engines' steps of a copy are its next granule: of a multicast at a set, where it arrives. -/
theorem becomes_copyStep {s : State} {i : Nat} {e : Instr} {c0 : Copy}
    (he : (e = .copyEngineWrite i ∧ c0.tset = none) ∨ (e = .multicastArrival i ∧ c0.tset ≠ none)) (hc : copyAt s.dev i = some c0)
    {d : Dev} (h : copyStep s.mem s.dev i = d) : Becomes e s d := by
  rcases he with ⟨rfl, ht⟩ | ⟨rfl, ht⟩
  · exact becomes_of_exec rfl (by simp only [hc, ht, h]; rfl)
  · exact becomes_of_exec rfl (by simp only [hc, Option.isSome_iff_ne_none.2 ht, h, if_true])

/-! ### A copy that fails, and one that has ended (R152, R325; log 27). -/

theorem faultCopy_fails {m : Memory} {d : Dev} {i : Nat} {c0 : Copy} {raw : Option Trap} {cf : CopyFault} (hc : copyAt d i = some c0)
    (hr : copyRuns d i c0 = true) (hs : targetStale d (keepIndex m d (takeTag d c0)).1 = false)
    (hp : planNext (keepIndex m d (takeTag d c0)).1 m (keepIndex m d (takeTag d c0)).2 = .error (.fault raw cf)) :
    faultCopy m d i = (let r := keepIndex m d (takeTag d c0)
      let d1 := raw.elim r.2 (engineEpisode m r.2 r.1.wave)
      let o := postAsync m (setCopy d1 i { r.1 with fault := some cf }) r.1.wave r.1.lane cf.trap
      if o.2 then abortCopy m o.1 i else o.1) := by
  simp only [faultCopy, hc, hr, hs, hp, Bool.not_true, Bool.false_eq_true, if_false]

section
variable {s : State} {i core n : Nat}

theorem becomes_copyComplete {c : Copy} (hc : copyAt s.dev i = some c) (hd : c.done = false) (hf : c.fault = none)
    (hp : c.posted = []) (h : c.aborted = true ∨ (c.unread = false ∧ copyTotal c ≤ c.pos)) :
    Becomes (.copyComplete i) s (finishCopy s.mem s.dev i) := by
  have hends : (c.aborted || (!c.unread && decide (copyTotal c ≤ c.pos))) = true := by
    rcases h with h | ⟨hu, hpos⟩
    · simp [h]
    · simp [hu, hpos]
  exact becomes_of_exec rfl (by simp only [hc, hd, hf, hp, hends]; rfl)

theorem planNext_read {c : Copy} (h : c.unread = false) : planNext c = planElem c :=
  if_neg (by rw [h]; exact Bool.false_ne_true)

/-! ### The strokes of Quill (R88, R293, R313; log 67). -/

section
variable {j : Nat} {o : MatOp} (hn : nextMat s.dev core = some (j, o))
include hn

theorem becomes_weightLoadStroke (hl : loadDone o = false) : Becomes (.weightLoadStroke core) s (loadBeat s.mem s.dev j o) :=
  becomes_of_exec rfl (by simp only [hn, hl, Bool.false_eq_true, if_false])

theorem becomes_swapStroke (hl : loadDone o = true) (hs : swaps o = true) (hb : o.swapped = false) :
    Becomes (.swapStroke core) s (swapBanks (setMat s.dev j { o with swapped := true }) o.wave) :=
  becomes_of_exec rfl (by simp only [hn, hl, hs, hb]; rfl)

theorem becomes_rowStroke (hl : loadDone o = true) (hs : swaps o = true → o.swapped = true) (hr : hasRows o = true)
    (ho : matOver o = false) : Becomes (.rowStroke core) s (strokeRow s.mem s.dev j o) := by
  have hswapped : (!swaps o || o.swapped) = true := by
    cases hsw : swaps o with
    | false => rfl
    | true => exact hs hsw
  exact becomes_of_exec rfl (by simp only [hn, hl, hswapped, hr, ho]; rfl)

theorem becomes_matrixOpComplete (ho : matOver o = true) : Becomes (.matrixOpComplete core) s
    (let o1 := { o with done := true, published := !matHeld s.dev o }
     let d1 := orFlags (setMat s.dev j o1) o.wave o.flags
     let d2 := wakeFences (if matHeld s.dev o = true then d1 else matEffects s.mem d1 o1 0) o.wave
     settleCluster s.mem d2 (clusterIdx d2 o.wave)) :=
  becomes_of_exec rfl (by simp only [hn, ho, Bool.not_true, Bool.false_eq_true, if_false])

end

theorem becomes_phaserEngineSignal {g : EngSignal} (hg : s.dev.signals[n]? = some g) (hh : g.held = none) :
    Becomes (.phaserEngineSignal n) s (engineSignal s.mem { s.dev with signals := s.dev.signals.eraseIdx n } g 0) :=
  becomes_of_exec rfl (by simp only [hg, hh]; rfl)

end

/-- Settles O34: each device step answers what its function answers, by the cases that the function tells apart. -/
theorem engineSteps : Obligations.EngineSteps := by
  unfold Obligations.EngineSteps
  intro s i core n
  dsimp only
  refine ⟨fun e c0 he hc hr => ⟨fun hs => becomes_copyStep he hc (copyStep_stale hc hr hs),
      fun t pi hs hp => becomes_copyStep he hc (copyStep_stopped hc hr hs hp),
      fun hs hp => becomes_copyStep he hc (copyStep_stopped hc hr hs hp),
      fun c1 p d1 hs hp => ⟨fun hw => becomes_copyStep he hc (copyStep_reads hc hr hs hp hw), fun w r hw => ?_⟩⟩,
    fun c0 raw cf hc hr hs hp => becomes_of_exec rfl (faultCopy_fails hc hr hs hp), fun c => becomes_copyComplete,
    fun c => planNext_read,
    fun j o hn => ⟨becomes_weightLoadStroke hn, becomes_swapStroke hn, becomes_rowStroke hn, becomes_matrixOpComplete hn⟩,
    fun g => becomes_phaserEngineSignal⟩
  have hlands {r d} (hb : granuleBatch s.mem c1 w p d1 = r)
      (h : landGranule s.mem (withTag s.dev i c0) i c1 w r = d) : Becomes e s d :=
    becomes_copyStep he hc ((copyStep_granule hc hr hs hp hw).trans (by rwa [hb]))
  exact ⟨fun t pi hb => hlands hb rfl, fun hb => hlands hb rfl,
    fun b idx d2 hb => ⟨fun d3 c3 hl h3 => hlands hb (landGranule_lands hl h3), fun t pi hl => hlands hb (landGranule_waits hl)⟩⟩

end Sys2Proof.Machine
end

section
/-!
SUPPORT. The ends of lanes, `yield` and `wait` (spec/14_isa_compute.md R259 to R261, spec/17_isa_copy_task_system.md R335,
spec/10_execution_model.md R177): each word by the cases that its body tells apart.
-/
namespace Sys2Proof.Machine
open Sys2Proof.Claims

/-! ### The subtraction from a frame's counter (R177). -/

section
variable {m : Memory} {d : Dev} {w sp joff : Nat} {frame : W64}

theorem subtractJoin_unreached {c : BitVec 8} (h : joinKey m d w (frame.toNat + joff) = .error c) :
    subtractJoin m d w sp frame joff = .error { cause := cJOINFAULT, sub := c, addr := frame } := by
  simp only [subtractJoin, h]

/-- The counter of a frame takes one less. -/
def takeOne (m : Memory) (w clock k : Nat) (v : W64) (d : Dev) : Dev :=
  homeWrite m (recallLine d (lineNo k)) ⟨some w, clock⟩ k (leBytes 8 (v - 1))

section
variable {k : Nat} {d1 : Dev} (h : joinKey m d w (frame.toNat + joff) = .ok (k, d1))
include h

theorem subtractJoin_zero (hv : rd64 m d1 k = 0) :
    subtractJoin m d w sp frame joff = .error { cause := cJOINUNDERFLOW, addr := frame } := by
  simp only [subtractJoin, h, hv, if_true]

theorem subtractJoin_takes (hv : 2 ≤ (rd64 m d1 k).toNat) : subtractJoin m d w sp frame joff =
    .ok (takeOne m w (splitOf (waveOf d w) sp).clock k (rd64 m d1 k) d1) := by
  have h0 : rd64 m d1 k ≠ 0 := by rintro h0; simp [h0] at hv
  have h1 : rd64 m d1 k ≠ 1 := by rintro h1; simp [h1] at hv
  simp only [subtractJoin, h, if_neg h0, if_pos h1]
  rfl

section
variable (hv : rd64 m d1 k = 1)
include hv

theorem subtractJoin_unread {c : BitVec 8} (hr : frameRecord m d1 w frame.toNat = .error c) :
    subtractJoin m d w sp frame joff = .error { cause := cJOINFAULT, sub := c, addr := frame } := by
  simp only [subtractJoin, h, hv, hr]
  rfl

theorem subtractJoin_last {r : BitVec 512} {d2 : Dev} (hr : frameRecord m d1 w frame.toNat = .ok (r, d2)) :
    subtractJoin m d w sp frame joff = (let e := takeOne m w (splitOf (waveOf d w) sp).clock k (rd64 m d1 k) d2
      .ok (pushCont e w r (lineOf e (lineNo k)).wts (if (waveOf d w).fo then (splitOf (waveOf d w) sp).clock + 1 else 0))) := by
  simp only [subtractJoin, h, hv, hr]
  rfl

end

end

end

theorem counterSubtracts : Claims.CounterSubtracts := by
  intro m d w sp joff frame
  dsimp only
  exact ⟨fun c => subtractJoin_unreached, fun k d1 hk => ⟨subtractJoin_zero hk, subtractJoin_takes hk,
    fun hv c => subtractJoin_unread hk hv, fun hv r d2 => subtractJoin_last hk hv⟩⟩

/-! ### The end of a wave's last lanes (R145, R146, R163, R259, R335). -/

/-- What the wave's last lanes do once their wave's operations are published and its locks are broken: end, or subtract first. -/
def lastEnd : Option (W64 × Nat) → Act Verdict
  | none => do
    actU (fun m d => endSplit m d)
    pure .moved
  | some (frame, joff) => releasing .dev (do
    actU (fun m d => endJoin m d frame joff)
    pure .moved)

section
variable {sub : Wave → Option (W64 × Nat)} {m : Memory} {d d0 d1 : Dev}

/-- Lanes that are not the wave's last end, and a split that takes up others counts the word. -/
theorem endBody_goesOn (h : lastLanes d d.cur.1 d.cur.2 = false) : runAct (endBody sub) m d = .ok (.moved,
    let e := endSplit m d
    if (mySplit e).mask = 0 then e else moveClock e e.cur.1 e.cur.2 ((mySplit e).clock + 1)) := by
  unfold endBody
  rw [runAct_bind_ok (runAct_dev _ _), h]
  rfl

theorem endBody_last (h : lastLanes d d.cur.1 d.cur.2 = true) (ho : Claims.Ordered m d d0) :
    runAct (endBody sub) m d = runAct (unlocked (lastEnd (sub (me d)))) m d0 := by
  unfold endBody
  rw [runAct_bind_ok (runAct_dev _ _), h]
  exact ordered_of ho _

end

section
variable {body : Act Verdict} {m : Memory} {d : Dev}

theorem unlocked_none (hh : (me d).held = []) : runAct (unlocked body) m d = runAct body m d := by
  unfold unlocked
  rw [runAct_bind_ok (runAct_dev _ _), hh]
  rfl

section
variable (hh : (me d).held ≠ [])
include hh

theorem unlocked_waits (hp : (me d).posted ≠ []) :
    runAct (unlocked body) m d = .ok (.stay, setMySplit d { mySplit d with park := .ack }) := by
  unfold unlocked
  rw [runAct_bind_ok (runAct_dev _ _), if_neg (by simpa using hh)]
  exact unreleased_of hp _

theorem unlocked_breaks (hp : (me d).posted = []) : runAct (unlocked body) m d =
    (let e := breakHeld m (drainGrants d d.cur.1 .dev)
     if (mySplit e).park = .running then runAct body m e else .ok (.moved, e)) := by
  unfold unlocked
  rw [runAct_bind_ok (runAct_dev _ _), if_neg (by simpa using hh), released_of ⟨hp, rfl⟩, runAct_bind_ok (runAct_actU _ _ _),
    runAct_bind_ok (runAct_dev _ _)]
  dsimp only
  split
  · rfl
  · rfl

end

theorem unlocked_of {e : Dev} (h : Claims.Unlocked m d e) : runAct (unlocked body) m d = runAct body m e := by
  rcases h with ⟨hh, rfl⟩ | ⟨hh, hp, rfl, hrun⟩
  · exact unlocked_none hh
  · rw [unlocked_breaks hh hp]
    exact if_pos hrun

end

theorem lastEnd_subtracts {p : W64 × Nat} {m : Memory} {d e : Dev} (hr : Claims.Released .dev d e) :
    runAct (lastEnd (some p)) m d = .ok (.moved, endJoin m e p.1 p.2) :=
  (released_of hr _).trans rfl

/-! ### A subtraction that faults, and one that does not (R177, R204). -/

section
variable {m : Memory} {d : Dev} {frame : W64} {joff : Nat}

theorem endJoin_frameless (h : frame = 0) : endJoin m d frame joff = endSplit m d := if_pos h

theorem endJoin_ok (h : frame ≠ 0) {e : Dev} (hs : subtractJoin m (drainGrants d d.cur.1 .dev) d.cur.1 d.cur.2 frame joff = .ok e) :
    endJoin m d frame joff = endSplit m e := by
  simp only [endJoin, if_neg h, hs]

/-- The record of a subtraction that faults. -/
def joinRecord (m : Memory) (d : Dev) (t : Trap) : Dev × RingRes :=
  ringWrite m d (me d).ctx [recordWords d (me d).ctx (some d.cur) (mySplit d).pc (mySplit d).clock t {}] true

section
variable (h : frame ≠ 0) {t : Trap}
  (hs : subtractJoin m (drainGrants d d.cur.1 .dev) d.cur.1 d.cur.2 frame joff = .error t)
include h hs

theorem endJoin_full {n wts : Nat} (hr : (joinRecord m d t).2 = .full n wts) : endJoin m d frame joff =
    modSplit (joinRecord m d t).1 d.cur.1 d.cur.2 (fun q => { q with park := .ring n wts, ringRec := [], after := .running }) := by
  have hring : joinRecord m d t = ((joinRecord m d t).1, .full n wts) := Prod.ext rfl hr
  simp only [endJoin, if_neg h, hs]
  unfold joinRecord at hring ⊢
  rw [hring]

theorem endJoin_recorded (hr : ∀ n wts, (joinRecord m d t).2 ≠ .full n wts) :
    endJoin m d frame joff = endSplit m (joinRecord m d t).1 := by
  obtain ⟨e, r, hring⟩ : ∃ e r, joinRecord m d t = (e, r) := ⟨_, _, rfl⟩
  rw [hring] at hr ⊢
  simp only [endJoin, if_neg h, hs]
  unfold joinRecord at hring
  rw [hring]
  cases r with
  | full n wts => exact absurd rfl (hr n wts)
  | _ => rfl

end

end

/-! ### The three words (R259, R335). -/

/-- The word runs the common body: `exit` without a subtraction, `join` and `done` with one from the frame that `sub` names. -/
def Ends (i : Instr) (h : Head) (f : FmtX) (sub : Wave → W64 × Nat) (r : Wave → Option (W64 × Nat)) : Prop :=
  (∀ s, exec i s = runJ i h (endBody r) s) ∧ (i = .exit h f → r = fun _ => none) ∧ (i ≠ .exit h f → r = fun x => some (sub x))

theorem ends_of {i : Instr} {h : Head} {f : FmtX} {sub : Wave → W64 × Nat}
    (hi : (i = .exit h f) ∨ (i = .join h f ∧ sub = fun x => (x.cframe, x.cjoff)) ∨
      (i = .done h f ∧ sub = fun x => (x.rframe, x.rjoff))) :
    ∃ r, Ends i h f sub r := by
  rcases hi with rfl | ⟨rfl, rfl⟩ | ⟨rfl, rfl⟩
  · exact ⟨fun _ => none, fun _ => rfl, fun _ => rfl, fun hne => absurd rfl hne⟩
  · exact ⟨fun x => some (x.cframe, x.cjoff), fun _ => rfl, nofun, fun _ => rfl⟩
  · exact ⟨fun x => some (x.rframe, x.rjoff), fun _ => rfl, nofun, fun _ => rfl⟩

theorem lanesEnd : Claims.LanesEnd := by
  intro h f s i sub
  dsimp only
  intro hi ha
  obtain ⟨r, hx, hexit, hsub⟩ := ends_of hi
  refine ⟨fun hl => becomes_of (hx s) ha (endBody_goesOn hl),
    fun hl d0 ho hh => ⟨fun hp => ?_, fun hp hpark => ?_⟩, fun hl he d0 d1 ho hu => ?_,
    fun hl he d0 d1 d2 ho hu hr => ?_⟩
  · exact stays_of (hx s) ha ((endBody_last hl ho).trans (unlocked_waits hh hp))
  · exact becomes_of (hx s) ha ((endBody_last hl ho).trans ((unlocked_breaks hh hp).trans (if_neg hpark)))
  · refine becomes_of (hx s) ha ((endBody_last hl ho).trans ((unlocked_of hu).trans ?_))
    rw [hexit he]
    rfl
  · have hends : Becomes i s (endJoin s.mem d2 (sub (me s.dev)).1 (sub (me s.dev)).2) := by
      refine becomes_of (hx s) ha ((endBody_last hl ho).trans ((unlocked_of hu).trans ?_))
      rw [hsub he]
      exact lastEnd_subtracts hr
    refine ⟨fun hf => ?_, fun hf d4 hs => ?_, fun hf t hs => ⟨fun n wts hring => ?_, fun hring => ?_⟩⟩
    · rwa [endJoin_frameless hf] at hends
    · rwa [endJoin_ok hf hs] at hends
    · rwa [endJoin_full hf hs hring] at hends
    · rwa [endJoin_recorded hf hs hring] at hends

/-! ### `yield` (R260). -/

section
variable {h : Head} {f : FmtX} {s : State} {w sp : Nat}

theorem becomes_yield (ha : Admitted (.yield h f) [] s) {e : Dev} (hr : Runs (retireWord h.stl.toNat true true) s.mem s.dev () e) :
    Becomes (.yield h f) s (if otherReady s.mem s.dev = [] then e
      else setMySplit e { mySplit e with park := .yielded e.cycle (otherReady s.mem s.dev) }) := by
  refine becomes_of rfl ha ((runAct_act_bind ..).trans ((runAct_bind_ok hr).trans ?_))
  cases otherReady s.mem s.dev with
  | nil => rfl
  | cons p r => rfl

theorem becomes_yieldExpiry {t : Nat} {l : List (Nat × Nat)} (hp : (splitOf (waveOf s.dev w) sp).park = .yielded t l)
    (ht : t + 64 ≤ s.dev.cycle) : Becomes (.yieldExpiry w sp) s (modSplit s.dev w sp (fun q => { q with park := .running })) :=
  becomes_of_exec rfl (by simp only [modSplit, hp, if_pos ht])

end

/-! ### `wait` (R261). -/

section
variable {h : Head} {g : FmtI} {s : State} {w sp : Nat}

theorem becomes_wait {m : W32} {e : Dev} (ha : Admitted (.wait h g) [] s) (hm : Runs (acting h false) s.mem s.dev m s.dev)
    (hr : Runs (retireWord (g.imm.toNat + h.stl.toNat) true false) s.mem s.dev () e) : Becomes (.wait h g) s (setMySplit e { mySplit e with
      waitUntil := some (e.cycle + max (g.imm.toNat + h.stl.toNat) (if m = 0 then 0 else writesLeft (mySplit s.dev))) }) :=
  becomes_of rfl ha ((runAct_bind_ok hm).trans ((runAct_bind_ok (runAct_dev _ _)).trans (runAct_bind_ok hr)))

theorem becomes_waitExpiry {t : Nat} (hq : (splitOf (waveOf s.dev w) sp).waitUntil = some t) (ht : t ≤ s.dev.cycle) :
    Becomes (.waitExpiry w sp) s (modSplit s.dev w sp (fun q => { q with waitUntil := none })) :=
  becomes_of_exec rfl (by simp [modSplit, hq, ht])

end

/-- The largest of some numbers is one of them, or the number begun with. -/
theorem foldl_max_attained {α : Type} (f : α → Nat) (l : List α) (b : Nat) :
    l.foldl (fun n a => max n (f a)) b = b ∨ ∃ a ∈ l, l.foldl (fun n a => max n (f a)) b = f a := by
  induction l generalizing b with
  | nil => exact .inl rfl
  | cons a l ih =>
    rw [List.foldl_cons]
    rcases ih (max b (f a)) with h | ⟨c, hc, h⟩
    · rcases Nat.le_total (f a) b with hle | hle
      · exact .inl (h.trans (Nat.max_eq_left hle))
      · exact .inr ⟨a, List.mem_cons_self, h.trans (Nat.max_eq_right hle)⟩
    · exact .inr ⟨c, List.mem_cons_of_mem a hc, h⟩

theorem le_writesLeft {q : Split} {p : Pend} (hp : p ∈ q.pend) (ha : p.acc = true) : p.lat - p.dist ≤ writesLeft q :=
  calc p.lat - p.dist
      ≤ ((q.pend.filter (·.acc)).map (fun p => p.lat - p.dist)).foldl max 0 :=
        le_foldl_max (f := fun n => n) (List.mem_map_of_mem (f := fun p : Pend => p.lat - p.dist) (List.mem_filter.2 ⟨hp, ha⟩)) 0
    _ = writesLeft q := List.foldl_map

theorem writesLeft_attained (q : Split) : writesLeft q = 0 ∨ ∃ p ∈ q.pend, p.acc = true ∧ writesLeft q = p.lat - p.dist := by
  rcases foldl_max_attained (fun p : Pend => p.lat - p.dist) (q.pend.filter (·.acc)) 0 with h | ⟨p, hp, h⟩
  · exact .inl h
  · obtain ⟨hmem, hacc⟩ := List.mem_filter.1 hp
    exact .inr ⟨p, hmem, hacc, h⟩

theorem pauses : Claims.Pauses := by
  intro h f g s w sp
  dsimp only
  exact ⟨fun ha e => becomes_yield ha, fun m e => becomes_wait, fun p => le_writesLeft, writesLeft_attained _,
    fun t => becomes_waitExpiry, fun t l => becomes_yieldExpiry⟩

/-- Settles O51: an end of lanes runs through its gates to the end of its split; a pause retires, and holds its stream. -/
theorem endsAndPauses : Obligations.EndsAndPauses := ⟨lanesEnd, counterSubtracts, pauses⟩

end Sys2Proof.Machine
end

section
/-!
SUPPORT. Register files (spec/10_execution_model.md R165, spec/13_encoding.md R220, R222): what a write to a file leaves in each lane of
each register.
-/
namespace Sys2Proof.Machine

/-! ### Lanes of a mask. -/

theorem mem_lanesOf {mask : W32} {l : Nat} : l ∈ lanesOf mask ↔ l < 32 ∧ mask.getLsbD l = true := by
  simp [lanesOf]

/-- Writes of a register's lanes read back in those lanes; every other key of the table reads as before (R222). -/
theorem look_putLanes {α : Type} [DecidableEq α] {d : α} {r c l : Nat} (ls : List Nat) (hls : ∀ i ∈ ls, i < 32) (hl : l < 32)
    (g : Nat → α) (t : Sparse α) : look d (ls.foldl (fun t i => put d t (r * 32 + i) (g i)) t) (c * 32 + l) =
      if c = r ∧ l ∈ ls then g l else look d t (c * 32 + l) := by
  induction ls generalizing t with
  | nil => simp
  | cons i ls ih =>
    obtain ⟨hi, hrest⟩ := List.forall_mem_cons.1 hls
    have hkey : c * 32 + l = r * 32 + i ↔ c = r ∧ l = i := by omega
    rw [List.foldl_cons, ih hrest, look_put]
    simp only [hkey, List.mem_cons]
    by_cases hli : l = i
    · subst hli
      by_cases hc : c = r <;> simp [hc]
    · simp [hli]

theorem look_putLanesOf {α : Type} [DecidableEq α] {d : α} {r c l : Nat} (hl : l < 32) (mask : W32) (g : Nat → α) (t : Sparse α) :
    look d ((lanesOf mask).foldl (fun t i => put d t (r * 32 + i) (g i)) t) (c * 32 + l) =
      if c = r ∧ mask.getLsbD l = true then g l else look d t (c * 32 + l) := by
  rw [look_putLanes _ (fun i hi => (mem_lanesOf.1 hi).1) hl]
  simp only [mem_lanesOf, hl, true_and]

theorem getLsbD_bit {w i l : Nat} (hl : l < w) : (1#w <<< i).getLsbD l = decide (l = i) := by
  rw [← BitVec.twoPow_eq, BitVec.getLsbD_twoPow, ← Bool.decide_and]
  exact decide_eq_decide.2 (by omega)

/-- Clearing or setting one bit of a word. -/
theorem getLsbD_putBit {w i l : Nat} (hl : l < w) (x : BitVec w) (p : Prop) [Decidable p] :
    (if p then x &&& ~~~(1#w <<< i) else x ||| 1#w <<< i).getLsbD l = if l = i then !decide p else x.getLsbD l := by
  by_cases hp : p
  · rw [if_pos hp, BitVec.getLsbD_and, BitVec.getLsbD_not, getLsbD_bit hl]
    by_cases hi : l = i <;> simp [hp, hi, hl]
  · rw [if_neg hp, BitVec.getLsbD_or, getLsbD_bit hl]
    by_cases hi : l = i <;> simp [hp, hi]

/-- The mask of a list of lanes holds those lanes. -/
theorem getLsbD_maskOf (ls : List Nat) {l : Nat} (hl : l < 32) : (maskOf ls).getLsbD l = decide (l ∈ ls) := by
  have gen : ∀ m : W32, (ls.foldl (fun m i => m ||| (1#32 <<< i)) m).getLsbD l = (m.getLsbD l || decide (l ∈ ls)) := by
    induction ls with
    | nil => simp
    | cons i ls ih => simp [ih, getLsbD_bit hl, Bool.or_assoc]
  simpa [maskOf] using gen 0

/-! ### The files. -/

section
variable (x : Wave) {c l : Nat}

theorem fileLane_v (h : c < 0x80) : fileLane x c l = (look 0 x.v (c * 32 + l)).setWidth 64 := by
  rw [fileLane, if_pos h]

theorem fileLane_a (hlo : 0x80 ≤ c) (hhi : c < 0xA0) : fileLane x c l = look 0 x.a ((c - 0x80) * 32 + l) := by
  rw [fileLane, if_neg (by omega), if_pos hhi]

theorem fileLane_s (hlo : 0xA0 ≤ c) (hhi : c < 0xC0) : fileLane x c l = look 0 x.s (c - 0xA0) := by
  rw [fileLane, if_neg (by omega), if_neg (by omega), if_pos hhi]

theorem fileLane_p (hlo : 0x100 < c) (hhi : c < 0x108) :
    fileLane x c l = if (look 0 x.p (c - 0x100)).getLsbD l then 1 else 0 := by
  rw [fileLane, if_neg (by omega), if_neg (by omega), if_neg (by omega), if_neg (by omega), if_pos hhi, if_neg (by omega)]

theorem fileLane_g (h : 0x108 < c) : fileLane x c l = if x.g.getLsbD (c - 0x108) then 1 else 0 := by
  rw [fileLane, if_neg (by omega), if_neg (by omega), if_neg (by omega), if_neg (by omega), if_neg (by omega), if_neg (by omega)]

@[simp] theorem fileLane_p0 : fileLane x 0x100 l = 1 := rfl
@[simp] theorem fileLane_g0 : fileLane x 0x108 l = 1 := rfl

end

/-- A register reads its own file alone. -/
theorem fileLane_congr {x y : Wave} {c : Nat} (l : Nat) (hv : c < 0x80 → y.v = x.v) (ha : 0x80 ≤ c → c < 0xA0 → y.a = x.a)
    (hs : 0xA0 ≤ c → c < 0xC0 → y.s = x.s) (hp : 0x100 < c → c < 0x108 → y.p = x.p) (hg : 0x108 < c → y.g = x.g) :
    fileLane y c l = fileLane x c l := by
  unfold fileLane
  refine ite_congr rfl (fun h => by rw [hv h]) fun hnv => ite_congr rfl (fun h => by rw [ha (by omega) h]) fun hna =>
    ite_congr rfl (fun h => by rw [hs (by omega) h]) fun hns => ite_congr rfl (fun _ => rfl) fun hnone =>
    ite_congr rfl (fun h => ite_congr rfl (fun _ => rfl) fun h0 => by rw [hp (by omega) h]) fun hnp =>
    ite_congr rfl (fun _ => rfl) fun h0 => by rw [hg (by omega)]

/-! ### Writes, one file at a time. -/

section
variable (x : Wave) {code c l : Nat} {mask : W32} (f : Nat → W64)

/-- A write in no lane, to p0 or g0, or to a code of no register changes nothing (R220). -/
theorem fileSet_discards (h : mask = 0 ∨ code = 0x100 ∨ code = 0x108 ∨ (0xC0 ≤ code ∧ code < 0x100)) :
    fileSet x code mask f = x := by
  unfold fileSet
  by_cases hm : mask = 0
  · rw [if_pos hm]
  rw [if_neg hm]
  rcases h.resolve_left hm with rfl | rfl | ⟨hlo, hhi⟩
  · rfl
  · rfl
  · rw [if_neg (by omega), if_neg (by omega), if_neg (by omega), if_pos hhi]

variable (hm : mask ≠ 0)
include hm

/-- A v register holds 32 bits in each lane (R165). -/
theorem fileLane_fileSet_v (hv : code < 0x80) (hl : l < 32) : fileLane (fileSet x code mask f) c l =
    if c = code ∧ mask.getLsbD l = true then ((f l).setWidth 32).setWidth 64 else fileLane x c l := by
  rw [fileSet, if_neg hm, if_pos hv]
  by_cases hc : c < 0x80
  · simp only [fileLane_v _ hc, look_putLanesOf hl, apply_ite (BitVec.setWidth 64)]
  · rw [if_neg (by omega)]
    exact fileLane_congr l (fun h => absurd h hc) (fun _ _ => rfl) (fun _ _ => rfl) (fun _ _ => rfl) (fun _ => rfl)

/-- An a register holds 64 bits in each lane (R165). -/
theorem fileLane_fileSet_a (hlo : 0x80 ≤ code) (hhi : code < 0xA0) (hl : l < 32) : fileLane (fileSet x code mask f) c l =
    if c = code ∧ mask.getLsbD l = true then f l else fileLane x c l := by
  rw [fileSet, if_neg hm, if_neg (by omega), if_pos hhi]
  by_cases hc : 0x80 ≤ c ∧ c < 0xA0
  · have hcode : c - 0x80 = code - 0x80 ↔ c = code := by omega
    simp only [fileLane_a _ hc.1 hc.2, look_putLanesOf hl, hcode]
  · rw [if_neg (by omega)]
    exact fileLane_congr l (fun _ => rfl) (fun h1 h2 => absurd ⟨h1, h2⟩ hc) (fun _ _ => rfl) (fun _ _ => rfl) (fun _ => rfl)

/-- An s register holds 64 bits for the wave (R165, R222). -/
theorem fileLane_fileSet_s (hlo : 0xA0 ≤ code) (hhi : code < 0xC0) : fileLane (fileSet x code mask f) c l =
    if c = code then f 0 else fileLane x c l := by
  rw [fileSet, if_neg hm, if_neg (by omega), if_neg (by omega), if_pos hhi]
  by_cases hc : 0xA0 ≤ c ∧ c < 0xC0
  · have hcode : c - 0xA0 = code - 0xA0 ↔ c = code := by omega
    simp only [fileLane_s _ hc.1 hc.2, look_put, hcode]
  · rw [if_neg (by omega)]
    exact fileLane_congr l (fun _ => rfl) (fun _ _ => rfl) (fun h1 h2 => absurd ⟨h1, h2⟩ hc) (fun _ _ => rfl) (fun _ => rfl)

/-- A predicate holds a bit in each lane (R220). -/
theorem fileLane_fileSet_p (hlo : 0x100 < code) (hhi : code < 0x108) (hl : l < 32) : fileLane (fileSet x code mask f) c l =
    if c = code ∧ mask.getLsbD l = true then (if f l = 0 then 0 else 1) else fileLane x c l := by
  rw [fileSet, if_neg hm, if_neg (by omega), if_neg (by omega), if_neg (by omega), if_neg (by omega), if_pos hhi, if_neg (by omega)]
  by_cases hc : c = code
  · subst hc
    simp only [fileLane_p _ hlo hhi, look_put_same, BitVec.getLsbD_or, BitVec.getLsbD_and, BitVec.getLsbD_not, getLsbD_maskOf _ hl,
      List.mem_filter, mem_lanesOf]
    cases hml : mask.getLsbD l with
    | false => simp [hl]
    | true => by_cases hf : f l = 0 <;> simp [hf, hl]
  · rw [if_neg (fun h => hc h.1)]
    by_cases hp : 0x100 < c ∧ c < 0x108
    · simp only [fileLane_p _ hp.1 hp.2, look_put_other _ _ (show c - 0x100 ≠ code - 0x100 by omega)]
    · exact fileLane_congr l (fun _ => rfl) (fun _ _ => rfl) (fun _ _ => rfl) (fun h1 h2 => absurd ⟨h1, h2⟩ hp) (fun _ => rfl)

/-- A guard holds one bit for the wave (R220). -/
theorem fileLane_fileSet_g (hlo : 0x108 < code) (hhi : code < 0x110) (hc : c < 0x110) : fileLane (fileSet x code mask f) c l =
    if c = code then (if f 0 = 0 then 0 else 1) else fileLane x c l := by
  rw [fileSet, if_neg hm, if_neg (by omega), if_neg (by omega), if_neg (by omega), if_neg (by omega), if_neg (by omega),
    if_neg hlo.ne']
  by_cases hg : 0x108 < c
  · have hcode : c - 0x108 = code - 0x108 ↔ c = code := by omega
    simp only [fileLane_g _ hg, getLsbD_putBit (show c - 0x108 < 8 by omega), hcode]
    by_cases hcc : c = code
    · by_cases hf : f 0 = 0 <;> simp [hf, hcc]
    · simp only [if_neg hcc]
  · rw [if_neg (by omega)]
    exact fileLane_congr l (fun _ => rfl) (fun _ _ => rfl) (fun _ _ => rfl) (fun _ _ => rfl) (fun h => absurd h hg)

end

theorem perWave_iff {code : Nat} : perWave code = true ↔ (0xA0 ≤ code ∧ code < 0xC0) ∨ 0x108 ≤ code := by
  simp [perWave]

/-- Settles O9: a write changes the lanes of its mask in its own file, one file at a time; the other writes are discarded. -/
theorem registersReadBack : Obligations.RegistersReadBack := by
  unfold Obligations.RegistersReadBack
  intro x code c l mask f hcode hc hl
  refine ⟨?_, rfl, rfl⟩
  by_cases hd : mask = 0 ∨ code = 0x100 ∨ code = 0x108 ∨ (0xC0 ≤ code ∧ code < 0x100)
  · rw [fileSet_discards x f hd, if_neg (by tauto)]
  · obtain ⟨hm, hp0, hg0, hreg⟩ : mask ≠ 0 ∧ code ≠ 0x100 ∧ code ≠ 0x108 ∧ ¬ (0xC0 ≤ code ∧ code < 0x100) := by tauto
    simp only [ne_eq, hm, hp0, hg0, hreg, not_false_eq_true, true_and, and_true, perWave_iff]
    rcases Nat.lt_or_ge code 0x80 with hv | hv
    · rw [fileLane_fileSet_v x f hm hv hl]
      simp only [if_pos hv, show ¬ ((0xA0 ≤ code ∧ code < 0xC0) ∨ 0x108 ≤ code) by omega, false_or]
    rw [if_neg (Nat.not_lt.2 hv)]
    rcases Nat.lt_or_ge code 0xA0 with ha | ha
    · rw [fileLane_fileSet_a x f hm hv ha hl]
      simp only [if_pos ha, show ¬ ((0xA0 ≤ code ∧ code < 0xC0) ∨ 0x108 ≤ code) by omega, false_or]
    rw [if_neg (Nat.not_lt.2 ha)]
    rcases Nat.lt_or_ge code 0xC0 with hs | hs
    · rw [fileLane_fileSet_s x f hm ha hs]
      simp only [if_pos hs, show (0xA0 ≤ code ∧ code < 0xC0) ∨ 0x108 ≤ code by omega, true_or, and_true]
    rw [if_neg (Nat.not_lt.2 hs)]
    rcases Nat.lt_or_ge code 0x108 with hp | hp
    · rw [fileLane_fileSet_p x f hm (by omega) hp hl]
      simp only [if_pos hp, show ¬ ((0xA0 ≤ code ∧ code < 0xC0) ∨ 0x108 ≤ code) by omega, false_or]
    · rw [fileLane_fileSet_g x f hm (by omega) hcode hc]
      simp only [if_neg (Nat.not_lt.2 hp), show (0xA0 ≤ code ∧ code < 0xC0) ∨ 0x108 ≤ code by omega, true_or, and_true]

end Sys2Proof.Machine
end

section
/-!
SUPPORT. Words that fail their checks (spec/13_encoding.md R212, R215, R231, spec/10_execution_model.md R165): every instruction word runs
in a frame of its own, which makes the checks before anything else.
-/
namespace Sys2Proof.Machine
open Sys2Proof.Claims

/-! ### Frames. -/

/-- An outcome is that of an instruction's frame. -/
def InFrame (i : Instr) (s : State) (o : Out) : Prop :=
  ∃ h acc exe codes body, o = .next (runSplit (framed i h acc exe codes body) s)

theorem runX_inFrame (i : Instr) (h : Head) (codes : List (BitVec 8)) (body : Act Verdict) (s : State) :
    InFrame i s (runX i h codes body s) := ⟨h, false, true, codes, body, rfl⟩

theorem runA_inFrame (i : Instr) (h : Head) (body : Act Verdict) (s : State) : InFrame i s (runA i h body s) :=
  ⟨h, true, false, [], body, rfl⟩

theorem runJ_inFrame (i : Instr) (h : Head) (body : Act Verdict) (s : State) : InFrame i s (runJ i h body s) :=
  ⟨h, true, true, [], body, rfl⟩

/-- Every instruction that has a word runs in its own frame. -/
theorem exec_inFrame {i : Instr} {w : W64} (hw : encode i = some w) (s : State) : InFrame i s (exec i s) := by
  cases i
  case add | sub | mul | mulhi | mad | madhi | min | max | abs | neg | clamp | sad4 | and | or | xor | andn | not |
    shl | shr | sar | rotl | bfx | bfi | popc | clz | ctz | brev | lsel | cmp | sel | setp | getp | pand | por | pxor |
    pnot | fadd | fsub | fmul | ffma | fdiv | fsqrt | frcp | frsq | fmin | fmax | fclamp | fexp2 | flog2 | fsinpi |
    fcospi | ffloor | fceil | ftrunc | fround | fcmp | fclass | cvt | pack2 | unpack2 | quant | dequant | srnd | shfl |
    vote | ballot | wscan | wred | bcast | lanemask => exact runX_inFrame ..
  case aadd | asub | amul | amad | ashl | ashr | asar | aand | aor | axor | amin | amax | acmp | asel | amov | amovk |
    br | brx | call | ret | wait | ld | st | ldfe | stfe | ldw | stw | prefetch | fill | atom | atomcas | red | lr |
    sc | lock | trylock | unlock | lockq | acq | rel | bind | unbind | fence | mon | mwait | phinit | phreg | phdrop |
    phsig | phwait | phsw | phquery | cadd | cwait | cread | mcfg | mwld | mswap | mma | mmas | mzero | mpre | mpost |
    mdrain | mfence | mstat | cpld | cpy | cpyx | cpyw | halo | pub | subCopy | cpfix | cpq | spawn | frame | dclk |
    stage => exact runA_inFrame ..
  case nop | hint | hintSpace | unassignedEncoding | exit | yield | bar | cbar | join | done | dsync | trap | brk |
    tret | rdsr | wrsr | carve | halt | rdtr => exact runJ_inFrame ..
  case brc h f => exact ⟨h, _, _, [], _, rfl⟩
  all_goals cases hw

section
variable {i : Instr} {h : Head} {acc exe : Bool} {codes : List (BitVec 8)} {body : Act Verdict} {s : State}

/-- A word whose offset is no multiple of its access size traps where some lane acts (R212, R215). -/
theorem framed_misaligned {m : Memory} {d e : Dev} {lanes : W32} (hf : (fieldsOk i && inFootprint (me d) codes) = true)
    (ho : offAligned i = false) (hm : Runs (acting h exe) m d lanes e) (hl : lanes ≠ 0) :
    runAct (framed i h acc exe codes body) m d = .error { cause := cALIGN, addr := (off16 i).signExtend 64 } := by
  unfold framed
  rw [runAct_bind_ok (runAct_dev m d), hf, runAct_bind_ok (runAct_need_true _ _ _), if_neg (ne_true_of_eq_false ho)]
  refine (runAct_bind_ok hm).trans (runAct_bind_error ?_)
  rw [decide_eq_false hl, runAct_need_false]

theorem traps_of_frame {t : Trap} (hx : exec i s = .next (runSplit (framed i h acc exe codes body) s))
    (hr : runAct (framed i h acc exe codes body) s.mem s.dev = .error t) : Traps i s t :=
  hx.trans (congrArg _ (runSplit_error hr))

/-- A word whose fields fail their checks raises ILLOP with the word in INFO0 (R231). -/
theorem traps_illegal {w : W64} (hw : encode i = some w) (hf : fieldsOk i = false) : Traps i s { cause := 0x01, info0 := w } := by
  obtain ⟨h, acc, exe, codes, body, hx⟩ := exec_inFrame hw s
  have hinfo : illop i = { cause := 0x01, info0 := w } := by rw [illop, encodeD, hw]; rfl
  exact hinfo ▸ illegal_of hx (by rw [hf, Bool.false_and])

/-- A misaligned word of the access stream raises ALIGN at its offset (R215). -/
theorem traps_misaligned {d : Dev} {lanes : W32} (hx : exec i s = runA i h body s) (hf : fieldsOk i = true)
    (ho : offAligned i = false) (hm : Runs (acting h false) s.mem s.dev lanes d) (hl : lanes ≠ 0) :
    Traps i s { cause := 0x02, addr := (off16 i).signExtend 64 } :=
  traps_of_frame hx (framed_misaligned (by rw [hf]; rfl) ho hm hl)

end

/-- The words of format M are words of the access stream, with OFF16 their offset. -/
theorem formatM_runs (h : Head) (f : FmtM) (s : State) :
    ∀ i ∈ [Instr.ld h f, .st h f, .ldfe h f, .stfe h f, .ldw h f, .stw h f, .prefetch h f, .fill h f, .lr h f, .lock h f,
      .trylock h f, .unlock h f, .lockq h f, .acq h f, .rel h f, .fence h f, .mon h f, .cread h f],
    ∃ body, off16 i = f.off ∧ exec i s = runA i h body s := by
  simp only [List.forall_mem_cons, List.not_mem_nil, false_implies, implies_true, and_true]
  and_intros
  all_goals exact ⟨_, rfl, rfl⟩

theorem wordsFailChecks : Claims.IllegalWordsTrap := by
  intro s
  refine ⟨fun i w => traps_illegal, fun h f m d hm hl i hi hf ho => ?_⟩
  obtain ⟨body, hoff, hx⟩ := formatM_runs h f s i hi
  exact hoff ▸ traps_misaligned hx hf ho hm hl

/-! ### Footprints (R165). -/

/-- A word of the execute stream whose frame looks at the registers of some fields. -/
def Names (i : Instr) (h : Head) (codes : List (BitVec 8)) : Prop := ∃ body, ∀ s, exec i s = runX i h codes body s

/-- The frame of a word of the execute stream looks at every field that may name a v register. -/
theorem laneWords_names (h : Head) (f : FmtX) (g : FmtI) : ∀ p ∈ laneWords h f g,
    Names p.1 h (if p.1 = .bfx h g ∨ p.1 = .bfi h g then [g.d, g.a] else [f.d, f.a, f.b, f.c]) := by
  simp only [laneWords, List.forall_mem_append, List.forall_mem_map, List.forall_mem_cons, List.not_mem_nil, false_implies,
    implies_true, and_true, reduceCtorEq, or_self, or_false, false_or, if_false, if_true]
  and_intros
  all_goals exact ⟨_, fun _ => rfl⟩

theorem footprintIsKept : Claims.FootprintIsKept := by
  intro h f g s i ds hi hfoot
  obtain ⟨body, hx⟩ := laneWords_names h f g _ hi
  exact illegal_of (hx s) (by rw [hfoot, Bool.and_false])

/-- Settles O44: the frame of a word checks its fields, its footprint and its offset before the word does anything. -/
theorem illegalWordsTrap : Obligations.IllegalWordsTrap := ⟨wordsFailChecks, footprintIsKept⟩

end Sys2Proof.Machine
end

section
/-!
SUPPORT. The operand queues (spec/10_execution_model.md R173, spec/13_encoding.md R219): what a pop, a peek and a push come to.
-/
namespace Sys2Proof.Machine
open Sys2Proof.Claims

section
variable {m : Memory} {d : Dev} {r : Row} {q : List Row}

/-! ### Pops and peeks. -/

theorem popQd_empty (h : (mySplit d).qd = []) : runAct popQd m d = .error { cause := 0x0A, sub := 0 } := by
  rw [popQd, runAct_bind_ok (runAct_dev m d), h]
  rfl

theorem popQd_oldest (h : (mySplit d).qd = r :: q) : Runs popQd m d r (setMySplit d { mySplit d with qd := q }) := by
  rw [Runs, popQd, runAct_bind_ok (runAct_dev m d), h]
  rfl

theorem popQv_empty (h : (mySplit d).qv = []) : runAct popQv m d = .error { cause := 0x0A, sub := 1 } := by
  rw [popQv, runAct_bind_ok (runAct_dev m d), h]
  rfl

theorem popQv_oldest (h : (mySplit d).qv = r :: q) : Runs popQv m d r (setMySplit d { mySplit d with qv := q }) := by
  rw [Runs, popQv, runAct_bind_ok (runAct_dev m d), h]
  rfl

/-- A peek answers the head that it sees and changes nothing. -/
theorem peekQd_head (h : headQd (mySplit d) = some r) : Runs peekQd m d r d := by
  rw [Runs, peekQd, runAct_bind_ok (runAct_dev m d), h]
  rfl

/-- A peek that sees no head makes its word wait. -/
theorem peekQd_waits (h : headQd (mySplit d) = none) : runAct peekQd m d = .error { cause := 0 } := by
  rw [peekQd, runAct_bind_ok (runAct_dev m d), h]
  rfl

theorem headQd_oldest {s : Split} (h : s.qd = r :: q) : headQd s = some r := by
  rw [headQd, h]

theorem headQd_empty {s : Split} (h : s.qd = []) : headQd s = s.peeked := by
  rw [headQd, h]

/-- A word that waits in place changes nothing. -/
theorem runSplit_waits {x : Act Unit} {s : State} (h : runAct x s.mem s.dev = .error { cause := 0 }) :
    runSplit x s = finish s.mem s.dev :=
  runSplit_error h

/-! ### Pushes. -/

theorem pushQd_full (h : 16 ≤ (mySplit d).qd.length) : runAct (pushQd r) m d = .error { cause := 0x0A, sub := 0 } := by
  rw [pushQd, runAct_bind_ok (runAct_dev m d), decide_eq_false (Nat.not_lt.2 h)]
  exact runAct_bind_error (runAct_need_false ..)

theorem pushQd_appends (h : (mySplit d).qd.length < 16) :
    Runs (pushQd r) m d () (setMySplit d { mySplit d with qd := (mySplit d).qd ++ [r] }) := by
  rw [Runs, pushQd, runAct_bind_ok (runAct_dev m d), decide_eq_true h, runAct_bind_ok (runAct_need_true ..), runAct_upd]

theorem pushQv_full (h : 16 ≤ (mySplit d).qv.length) : runAct (pushQv r) m d = .error { cause := 0x0A, sub := 1 } := by
  rw [pushQv, runAct_bind_ok (runAct_dev m d), decide_eq_false (Nat.not_lt.2 h)]
  exact runAct_bind_error (runAct_need_false ..)

theorem pushQv_appends (h : (mySplit d).qv.length < 16) :
    Runs (pushQv r) m d () (setMySplit d { mySplit d with qv := (mySplit d).qv ++ [r] }) := by
  rw [Runs, pushQv, runAct_bind_ok (runAct_dev m d), decide_eq_true h, runAct_bind_ok (runAct_need_true ..), runAct_upd]

end

/-- Settles O11: what each of the five operations comes to, by the entries of its queue. -/
theorem queuesKeepOrder : Obligations.QueuesKeepOrder := by
  unfold Obligations.QueuesKeepOrder
  intro m d r
  exact ⟨popQd_empty, fun a hq hp => peekQd_head ((headQd_empty hq).trans hp),
    fun hq hp => ⟨peekQd_waits ((headQd_empty hq).trans hp), fun x t => runSplit_waits⟩, popQv_empty,
    fun a q hq => ⟨popQd_oldest hq, peekQd_head (headQd_oldest hq)⟩, fun a q => popQv_oldest,
    pushQd_full, pushQd_appends, pushQv_full, pushQv_appends⟩

end Sys2Proof.Machine
end

section
/-!
SUPPORT. Tasks (spec/17_isa_copy_task_system.md R332 to R338, spec/10_execution_model.md R177): each word from its operands, through its
checks, to its effect.
-/
namespace Sys2Proof.Machine
open Sys2Proof.Claims

/-! ### `spawn` (R332, R333). -/

/-- What a `spawn` does once its frame's counter has been found. -/
def queueTask (k : Option Nat) (r : BitVec 512) : Act Verdict := do
  let d ← dev
  if queueCap ≤ (nth d.queues (contQueue d d.cur.1 r) []).length then park .queueFull
  else do
    actU (fun m d => spawnEffect m d k r)
    pure .retire

/-- What a `spawn` does with its operands. -/
def spawnTask (h : Head) (f : FmtX) (d : Dev) (code word hint : W64) : Act Verdict := do
  need (taskOk d word) (illop (.spawn h f))
  need (decide (code.toNat < 2 ^ 57)) { cause := cBADADDR, addr := code }
  need (decide (code.toNat % 64 = 0)) { cause := cALIGN, addr := code }
  let k ← spawnCounter (me d)
  ordering (releasing .dev (queueTask k (recBits code (me d).cframe hint word ((me d).depth + 1) (me d).cjoff)))

/-- The body of `spawn`. -/
def spawnBody (h : Head) (f : FmtX) : Act Verdict := do
  let d ← dev
  need (decide ((me d).depth < 8)) { cause := cSPAWNDEPTH }
  let code ← sReg (mySplit d).mask f.a
  let word ← sReg (mySplit d).mask f.b
  let hint ← (if none8 f.c then pure 0 else sReg (mySplit d).mask f.c)
  spawnTask h f d code word hint

theorem exec_spawn (h : Head) (f : FmtX) (s : State) : exec (.spawn h f) s = runA (.spawn h f) h (spawnBody h f) s := rfl

section
variable {h : Head} {f : FmtX} {m : Memory} {d : Dev} {code word hint : W64}

theorem spawnBody_deep (hd : 8 ≤ (me d).depth) : runAct (spawnBody h f) m d = .error { cause := 0x11 } := by
  rw [spawnBody, runAct_bind_ok (runAct_dev m d), decide_eq_false (Nat.not_lt.2 hd)]
  exact runAct_bind_error (runAct_need_false ..)

theorem spawnBody_operands {d0 d1 d2 : Dev} (hd : (me d).depth < 8) (hcode : Runs (sReg (mySplit d).mask f.a) m d code d0)
    (hword : Runs (sReg (mySplit d).mask f.b) m d0 word d1)
    (hhint : if none8 f.c then hint = 0 ∧ d2 = d1 else Runs (sReg (mySplit d).mask f.c) m d1 hint d2) :
    runAct (spawnBody h f) m d = runAct (spawnTask h f d code word hint) m d2 := by
  have hhint' : Runs (if none8 f.c then pure 0 else sReg (mySplit d).mask f.c) m d1 hint d2 := by
    split at hhint
    · obtain ⟨rfl, rfl⟩ := hhint
      rw [if_pos ‹_›]
      rfl
    · rwa [if_neg ‹_›]
  rw [spawnBody, runAct_bind_ok (runAct_dev m d), decide_eq_true hd, runAct_bind_ok (runAct_need_true ..), runAct_bind_ok hcode,
    runAct_bind_ok hword, runAct_bind_ok hhint']

/-- A task word that is not good is refused first. -/
theorem spawnTask_word {e : Dev} (hw : taskOk d word = false) :
    runAct (spawnTask h f d code word hint) m e = .error (illop (.spawn h f)) := by
  rw [spawnTask, hw]
  exact runAct_bind_error (runAct_need_false ..)

variable (hw : taskOk d word = true)
include hw

/-- Then a code address beyond the address space. -/
theorem spawnTask_address {e : Dev} (hc : 2 ^ 57 ≤ code.toNat) :
    runAct (spawnTask h f d code word hint) m e = .error { cause := 0x06, addr := code } := by
  rw [spawnTask, hw, runAct_bind_ok (runAct_need_true ..), decide_eq_false (Nat.not_lt.2 hc)]
  exact runAct_bind_error (runAct_need_false ..)

variable (hc : code.toNat < 2 ^ 57)
include hc

/-- Then one that starts no line. -/
theorem spawnTask_misaligned {e : Dev} (ha : code.toNat % 64 ≠ 0) :
    runAct (spawnTask h f d code word hint) m e = .error { cause := 0x02, addr := code } := by
  rw [spawnTask, hw, runAct_bind_ok (runAct_need_true ..), decide_eq_true hc, runAct_bind_ok (runAct_need_true ..),
    decide_eq_false ha]
  exact runAct_bind_error (runAct_need_false ..)

/-- A task that passes the checks is queued where its queue has room (R188, R333). -/
theorem spawnTask_queues {d2 d3 d4 d5 : Dev} {k : Option Nat} (ha : code.toNat % 64 = 0)
    (hk : Runs (spawnCounter (me d)) m d2 k d3) (ho : Claims.Ordered m d3 d4) (hr : Claims.Released .dev d4 d5)
    (hq : (nth d5.queues (contQueue d5 d5.cur.1 (recBits code (me d).cframe hint word ((me d).depth + 1) (me d).cjoff)) []).length
      < queueCap) :
    runAct (spawnTask h f d code word hint) m d2 =
      .ok (.retire, spawnEffect m d5 k (recBits code (me d).cframe hint word ((me d).depth + 1) (me d).cjoff)) := by
  rw [spawnTask, hw, runAct_bind_ok (runAct_need_true ..), decide_eq_true hc, runAct_bind_ok (runAct_need_true ..),
    decide_eq_true ha, runAct_bind_ok (runAct_need_true ..), runAct_bind_ok hk, ordered_of ho, released_of hr, queueTask,
    runAct_bind_ok (runAct_dev ..), if_neg (Nat.not_le.2 hq), runAct_bind_ok (runAct_actU ..), runAct_pure]

end

/-! ### `frame` (R334). -/

/-- Where the counter of a `frame` stands in its frame. -/
def frameOffset (f : FmtX) : Nat := 8 * (f.ty.toNat * 256 + f.md.toNat)

/-- The words that a `frame` stores: its continuation record's, and its counter. -/
def framePlaces (f : FmtX) (fr : W64) : Act (List Place) :=
  ((List.range 8).map (8 * ·) ++ [frameOffset f]).mapM (fun o =>
    checkPlace .g { acc := .write, size := 8, writes := true, posted := true } (fr.toNat + o))

/-- What a `frame` does with its operands. -/
def frameTask (h : Head) (f : FmtX) (d : Dev) (fr code word : W64) : Act Verdict := do
  need (decide (fr.toNat % 64 = 0)) { cause := cALIGN, addr := fr }
  need (decide (64 ≤ frameOffset f) && taskOk d word) (illop (.frame h f))
  let ps ← framePlaces f fr
  match ← perform (frameStores ps (natBytes 64 (recBits code (me d).cframe fr word (me d).depth (me d).cjoff).toNat)) with
  | none => pure .stay
  | some _ => do
    upd (fun d => setMe d { me d with cframe := fr, cjoff := frameOffset f })
    pure .retire

/-- The body of `frame`. -/
def frameBody (h : Head) (f : FmtX) : Act Verdict := do
  let d ← dev
  let fr ← sReg (mySplit d).mask f.a
  let code ← sReg (mySplit d).mask f.b
  let word ← sReg (mySplit d).mask f.c
  frameTask h f d fr code word

theorem exec_frame (h : Head) (f : FmtX) (s : State) : exec (.frame h f) s = runA (.frame h f) h (frameBody h f) s := rfl

section
variable {h : Head} {f : FmtX} {m : Memory} {d : Dev} {fr code word : W64}

theorem frameBody_operands {d0 d1 d2 : Dev} (hfr : Runs (sReg (mySplit d).mask f.a) m d fr d0)
    (hcode : Runs (sReg (mySplit d).mask f.b) m d0 code d1) (hword : Runs (sReg (mySplit d).mask f.c) m d1 word d2) :
    runAct (frameBody h f) m d = runAct (frameTask h f d fr code word) m d2 := by
  rw [frameBody, runAct_bind_ok (runAct_dev m d), runAct_bind_ok hfr, runAct_bind_ok hcode, runAct_bind_ok hword]

/-- A frame that starts no line is refused first (log 23). -/
theorem frameTask_misaligned {e : Dev} (ha : fr.toNat % 64 ≠ 0) :
    runAct (frameTask h f d fr code word) m e = .error { cause := 0x02, addr := fr } := by
  rw [frameTask, decide_eq_false ha]
  exact runAct_bind_error (runAct_need_false ..)

variable (ha : fr.toNat % 64 = 0)
include ha

/-- Then a counter that lies in the record, and a task word that is not good. -/
theorem frameTask_word {e : Dev} (hw : frameOffset f < 64 ∨ taskOk d word = false) :
    runAct (frameTask h f d fr code word) m e = .error (illop (.frame h f)) := by
  have hbad : (decide (64 ≤ frameOffset f) && taskOk d word) = false := by
    rcases hw with hoff | hword
    · rw [decide_eq_false (Nat.not_le.2 hoff), Bool.false_and]
    · rw [hword, Bool.and_false]
  rw [frameTask, decide_eq_true ha, runAct_bind_ok (runAct_need_true ..), hbad]
  exact runAct_bind_error (runAct_need_false ..)

/-- A frame whose words can be stored becomes the wave's. -/
theorem frameTask_stores {d2 d3 d4 : Dev} {ps : List Place} (hoff : 64 ≤ frameOffset f) (hw : taskOk d word = true)
    (hp : Runs (framePlaces f fr) m d2 ps d3)
    (hs : Runs (perform (frameStores ps (natBytes 64 (recBits code (me d).cframe fr word (me d).depth (me d).cjoff).toNat))) m d3
      (some ()) d4) :
    runAct (frameTask h f d fr code word) m d2 =
      .ok (.retire, setMe d4 { me d4 with cframe := fr, cjoff := frameOffset f }) := by
  rw [frameTask, decide_eq_true ha, runAct_bind_ok (runAct_need_true ..), decide_eq_true hoff, hw, Bool.true_and,
    runAct_bind_ok (runAct_need_true ..), runAct_bind_ok hp, runAct_bind_ok hs]
  rfl

end

/-! ### `dclk`, `dsync` and `stage` (R336 to R338). -/

section
variable {h : Head} {f : FmtX} {s : State}

/-- `dclk` retires, and then moves the split's clock forward (R336). -/
theorem becomes_dclk {src : Src} {d0 e : Dev} (ha : Admitted (.dclk h f) [] s)
    (ht : Runs (takeSrc .n64 (mySplit s.dev).mask f.a) s.mem s.dev src d0)
    (hr : Runs (retireWord h.stl.toNat true false) s.mem d0 () e) : Becomes (.dclk h f) s (moveClock e e.cur.1 e.cur.2
      (max (mySplit e).clock (valA (me d0) (mySplit d0) src ((lanesOf (mySplit s.dev).mask).headD 0)).toNat)) := by
  rw [valA_popped (takeSrc_inv ht)]
  exact becomes_of rfl ha (by
    rw [runAct_bind_ok (runAct_dev ..), runAct_bind_ok ht, runAct_bind_ok hr, runAct_bind_ok (runAct_upd ..), runAct_pure])

/-- How many of the copies a `dsync` waits for: those issued before its first issue (R337, log 17). -/
def copiesBefore (d : Dev) : Nat :=
  if (mySplit d).served = 0 then d.copies.length else (lane (mySplit d).servedVals 0).toNat

/-- How many of the matrix operations a `dsync` waits for (R337, log 17). -/
def matopsBefore (d : Dev) : Nat :=
  if (mySplit d).served = 0 then d.matops.length else (lane (mySplit d).servedVals 1).toNat

/-- Whether a `dsync` has nothing left to wait for (R337). -/
def drained (d : Dev) : Bool :=
  (d.copies.take (copiesBefore d)).all (fun c => c.wave ≠ d.cur.1 || c.done) &&
    (d.matops.take (matopsBefore d)).all (fun o => o.wave ≠ d.cur.1 || o.done) &&
    !postsOpen d && !(me d).atraps.any (fun t => fromEngine t.trap)

/-- The body of `dsync`. -/
def dsyncBody : Act Verdict := do
  let d ← dev
  if drained d then pure .retire
  else do
    upd (fun e => setMySplit e { mySplit e with
      served := 1, servedVals := put 0 (put 0 [] 0 (w64 (copiesBefore d))) 1 (w64 (matopsBefore d)) })
    pure .stay

theorem exec_dsync (h : Head) (f : FmtX) (s : State) : exec (.dsync h f) s = runJ (.dsync h f) h dsyncBody s := rfl

theorem drained_of {d : Dev} (hc : ∀ c ∈ d.copies.take (copiesBefore d), c.wave = d.cur.1 → c.done = true)
    (ho : ∀ o ∈ d.matops.take (matopsBefore d), o.wave = d.cur.1 → o.done = true) (hp : (me d).posted = [])
    (ht : ∀ t ∈ (me d).atraps, fromEngine t.trap = false) : drained d = true := by
  simp only [drained, postsOpen, hp, Bool.and_eq_true, List.all_eq_true, Bool.not_eq_true', List.any_eq_false, Bool.or_eq_true,
    decide_eq_true_eq, ne_eq, Bool.not_eq_true]
  exact ⟨⟨⟨fun c hmem => not_or_of_imp (hc c hmem), fun o hmem => not_or_of_imp (ho o hmem)⟩, rfl⟩, ht⟩

theorem retires_dsync (ha : Admitted (.dsync h f) [] s) (hd : drained s.dev = true) : Retires (.dsync h f) h true true s s.dev :=
  retires_of (exec_dsync h f s) ha (by rw [dsyncBody, runAct_bind_ok (runAct_dev ..), if_pos hd, runAct_pure])

theorem retires_stage {d0 : Dev} (ha : Admitted (.stage h f) [] s)
    (hl : Runs (loadDst .n64 (mySplit s.dev).mask f.d (fun _ => stageWord s.dev)) s.mem s.dev () d0) :
    Retires (.stage h f) h true false s d0 :=
  retires_of rfl ha (by rw [runAct_bind_ok (runAct_dev ..), runAct_bind_ok hl, runAct_pure])

end

/-- Settles O31: each word's body is run from its operands through its checks, in their order. -/
theorem tasks : Obligations.Tasks := by
  unfold Obligations.Tasks
  intro h f s
  refine ⟨fun code word hint k d0 d1 d2 d3 d4 d5 ha hd hcode hword hhint hw hc hal hk ho hr hq => ?_, fun ha hd => ?_,
    fun code word hint d0 d1 d2 ha hd hcode hword hhint => ?_, fun fr code word d0 d1 d2 ha hfr hcode hword => ?_,
    fun fr code word ps d0 d1 d2 d3 d4 ha hfr hcode hword hal hoff hw hp hs => ?_, fun src d0 e => becomes_dclk,
    fun ha hc ho hp ht => retires_dsync ha (drained_of hc ho hp ht), fun d0 => retires_stage⟩
  · exact retires_of (exec_spawn h f s) ha
      ((spawnBody_operands hd hcode hword hhint).trans (spawnTask_queues hw hc hal hk ho hr hq))
  · exact traps_of (exec_spawn h f s) ha (spawnBody_deep hd)
  · have hops := spawnBody_operands (h := h) hd hcode hword hhint
    exact ⟨fun hw => traps_of (exec_spawn h f s) ha (hops.trans (spawnTask_word hw)),
      fun hw hc => traps_of (exec_spawn h f s) ha (hops.trans (spawnTask_address hw hc)),
      fun hw hc hal => traps_of (exec_spawn h f s) ha (hops.trans (spawnTask_misaligned hw hc hal))⟩
  · have hops := frameBody_operands (h := h) hfr hcode hword
    exact ⟨fun hal => traps_of (exec_frame h f s) ha (hops.trans (frameTask_misaligned hal)),
      fun hal hw => traps_of (exec_frame h f s) ha (hops.trans (frameTask_word hal hw))⟩
  · exact retires_of (exec_frame h f s) ha ((frameBody_operands hfr hcode hword).trans (frameTask_stores hal hoff hw hp hs))

end Sys2Proof.Machine
end

section
/-!
SUPPORT. The device steps of launches, dispatchers and context switches (spec/11_launch_scheduling.md R180 to R195,
spec/12_traps_preemption.md R205 to R208): what each answers, by the cases that its function tells apart.
-/
namespace Sys2Proof.Machine
open Sys2Proof.Claims

/-! ### Triggers (R180, R181, R183, R188, R208). -/

/-- The launch that the record in a slot describes. -/
def slotLaunch (d : Dev) (slot : Nat) : Launch := launchFrom d slot (slotBits d slot)

/-- The device once the sequence number of a slot's record has been taken. -/
def seqTaken (d : Dev) (slot : Nat) : Dev := { d with slotSeq := put 0 d.slotSeq slot (slotLaunch d slot).seq }

/-- A trigger's answer in the journal. -/
def answerTrigger (d : Dev) (slot : Nat) (x : Launch) (status : BitVec 8) : Dev := writeJournal d slot x.seq x.ctx status false

section
variable {s : State} {slot : Nat}

theorem becomes_launchTrigger_empty (h : (slotLaunch s.dev slot).seq = 0) : Becomes (.launchTrigger slot) s s.dev :=
  becomes_of_exec rfl (if_pos (.inr h))

section
variable (hstage : s.dev.regs.stage = 5) (hseq : (slotLaunch s.dev slot).seq ≠ 0)
include hstage hseq

theorem becomes_launchTrigger_seen (h : (slotLaunch s.dev slot).seq ≤ look 0 s.dev.slotSeq slot) :
    Becomes (.launchTrigger slot) s (answerTrigger s.dev slot (slotLaunch s.dev slot) 0x04) :=
  becomes_of_exec rfl ((if_neg (not_or.2 ⟨not_not.2 hstage, hseq⟩)).trans (if_pos h))

section
variable (hnew : look 0 s.dev.slotSeq slot < (slotLaunch s.dev slot).seq)
include hnew

/-- A record not seen before is checked for itself, then for the room that it asks for. -/
theorem becomes_launchTrigger_fresh : Becomes (.launchTrigger slot) s
    (let d1 := seqTaken s.dev slot
     let x := slotLaunch s.dev slot
     if badLaunch s.mem d1 (slotBits s.dev slot) then answerTrigger d1 slot x 0x03
     else if noRes d1 x then answerTrigger d1 slot x 0x02
     else accept s.mem (answerTrigger d1 slot x 0x00) x) :=
  becomes_of_exec rfl ((if_neg (not_or.2 ⟨not_not.2 hstage, hseq⟩)).trans (if_neg (BitVec.not_le.2 hnew)))

theorem becomes_launchTrigger_bad (hb : badLaunch s.mem (seqTaken s.dev slot) (slotBits s.dev slot) = true) :
    Becomes (.launchTrigger slot) s (answerTrigger (seqTaken s.dev slot) slot (slotLaunch s.dev slot) 0x03) := by
  simpa only [hb, if_true] using becomes_launchTrigger_fresh hstage hseq hnew

section
variable (hb : badLaunch s.mem (seqTaken s.dev slot) (slotBits s.dev slot) = false)
include hb

theorem becomes_launchTrigger_noRes (hn : noRes (seqTaken s.dev slot) (slotLaunch s.dev slot) = true) :
    Becomes (.launchTrigger slot) s (answerTrigger (seqTaken s.dev slot) slot (slotLaunch s.dev slot) 0x02) := by
  simpa only [hb, hn, Bool.false_eq_true, if_false, if_true] using becomes_launchTrigger_fresh hstage hseq hnew

theorem becomes_launchTrigger_accept (hn : noRes (seqTaken s.dev slot) (slotLaunch s.dev slot) = false) :
    Becomes (.launchTrigger slot) s
      (accept s.mem (answerTrigger (seqTaken s.dev slot) slot (slotLaunch s.dev slot) 0x00) (slotLaunch s.dev slot)) := by
  simpa only [hb, hn, Bool.false_eq_true, if_false] using becomes_launchTrigger_fresh hstage hseq hnew

end

end

end

end

/-- The device with one launch more. -/
def withLaunch (d : Dev) (x : Launch) : Dev := { d with launches := d.launches ++ [x] }

theorem accept_pushes (m : Memory) {d : Dev} {x : Launch} (h : (ctxOf (withLaunch d x) x.ctx).broken = false) :
    accept m d x = (launchEntries (withLaunch d x) d.launches.length).foldl (fun d q => pushEntry d q.1 q.2) (withLaunch d x) :=
  if_neg (Bool.eq_false_iff.1 h)

theorem accept_broken (m : Memory) {d : Dev} {x : Launch} (h : (ctxOf (withLaunch d x) x.ctx).broken = true) :
    accept m d x = failLaunch m (withLaunch d x) d.launches.length 0x08 :=
  if_pos h

/-! ### The entries of a level that fit (R190). -/

/-- Where an entry of a level goes, if it fits. -/
def entryFits (d : Dev) (die p : Nat) (e : Entry) : Option Placing := planEntry d [] (heldCores d die p) none die e

/-- The places among a level's eight oldest entries whose entry fits, with where it goes. -/
def fitting (d : Dev) (die p : Nat) : List (Nat × Entry × Placing) :=
  (oldest8 d die p).zipIdx.filterMap (fun q => (entryFits d die p q.1).map (fun pl => (q.2, q.1, pl)))

theorem mem_fitting {d : Dev} {die p k : Nat} {e : Entry} {pl : Placing} :
    (k, e, pl) ∈ fitting d die p ↔ (oldest8 d die p)[k]? = some e ∧ entryFits d die p e = some pl := by
  simp only [fitting, List.mem_filterMap, List.mem_zipIdx_iff_getElem?, Option.map_eq_some_iff, Prod.exists, Prod.mk.injEq]
  exact ⟨fun ⟨_, _, he, _, hp, hk, hee, hpl⟩ => hk ▸ hee ▸ hpl ▸ ⟨he, hp⟩, fun ⟨he, hp⟩ => ⟨e, k, he, pl, hp, rfl, rfl, rfl⟩⟩

theorem fitting_ascends (d : Dev) (die p : Nat) : (fitting d die p).Pairwise (fun q r => q.1 < r.1) := by
  have hplaces : (oldest8 d die p).zipIdx.Pairwise (fun q r => q.2 < r.2) := by
    rw [← List.pairwise_map (f := Prod.snd), List.zipIdx_map_snd]
    exact List.pairwise_lt_range' 1
  refine hplaces.filterMap _ fun a b hab q hq r hr => ?_
  obtain ⟨_, _, rfl⟩ := Option.map_eq_some_iff.1 hq
  obtain ⟨_, _, rfl⟩ := Option.map_eq_some_iff.1 hr
  exact hab

/-- No entry older than the first that fits does. -/
theorem entryFits_before_head {d : Dev} {die p j : Nat} {q : Nat × Entry × Placing} {e : Entry}
    (hq : (fitting d die p).head? = some q) (he : (oldest8 d die p)[j]? = some e) (hj : j < q.1) : entryFits d die p e = none := by
  obtain ⟨r, hr⟩ := List.head?_eq_some_iff.1 hq
  refine Option.eq_none_iff_forall_ne_some.2 fun pl hpl => ?_
  have hmem : (j, e, pl) ∈ fitting d die p := mem_fitting.2 ⟨he, hpl⟩
  have hasc := fitting_ascends d die p
  rw [hr] at hmem hasc
  rcases List.mem_cons.1 hmem with rfl | hmem
  · exact lt_irrefl _ hj
  · exact lt_asymm hj (List.rel_of_pairwise_cons hasc hmem)

/-- Whether an L2 holds the line of an entry's HINT; HINT 0 hits. -/
def hintHits (m : Memory) (d : Dev) (die : Nat) (hits : BitVec 8) (q : Nat × Entry × Placing) : Bool :=
  q.2.1.hint = 0 || (hits.getLsbD q.1 && mayHit m d die q.2.1)

theorem hitOf_eq_find? (m : Memory) (d : Dev) (die : Nat) (hits : BitVec 8) (l : List (Nat × Entry × Placing)) :
    hitOf m d die hits l = l.find? (hintHits m d die hits) := by
  induction l with
  | nil => rfl
  | cons q r ih =>
    cases h : hintHits m d die hits q with
    | true => rw [List.find?_cons_of_pos h]; exact if_pos h
    | false => rw [List.find?_cons_of_neg (Bool.eq_false_iff.1 h), ← ih]; exact if_neg (Bool.eq_false_iff.1 h)

/-! ### What a dispatcher selects (R190). -/

/-- The selection of an entry by its place in a level's queue. -/
def choiceAt (die p : Nat) (q : Nat × Entry × Placing) : Choice := ⟨queueIdx die p, q.1, q.2.2, q.2.1.bypass⟩

section
variable {m : Memory} {d : Dev} {die p : Nat} {hits : BitVec 8}

theorem selectAt_empty (h : oldest8 d die p = []) : selectAt m d die hits p = none := by
  simp only [selectAt, h]

section
variable {e0 : Entry} (h0 : (oldest8 d die p)[0]? = some e0)
include h0

/-- The oldest entry alone is selected once it has been passed over often enough. -/
theorem selectAt_bypassed (hb : d.regs.bypass.toNat ≤ e0.bypass) :
    selectAt m d die hits p = (entryFits d die p e0).map (fun pl => choiceAt die p (0, e0, pl)) := by
  cases hes : oldest8 d die p with
  | nil => simp [hes] at h0
  | cons e r =>
    obtain rfl : e = e0 := by simpa [hes] using h0
    simp only [selectAt, hes, hb, if_true]
    rfl

/-- Else the first entry that fits and whose HINT hits, or else the first that fits. -/
theorem selectAt_first (hb : e0.bypass < d.regs.bypass.toNat) : selectAt m d die hits p =
    (((fitting d die p).find? (hintHits m d die hits)).or (fitting d die p).head?).map (choiceAt die p) := by
  rw [← hitOf_eq_find?]
  cases hes : oldest8 d die p with
  | nil => simp [hes] at h0
  | cons e r =>
    obtain rfl : e = e0 := by simpa [hes] using h0
    simp only [selectAt, fitting, hes, Nat.not_le.2 hb, if_false, Option.orElse_eq_or]
    rfl

end

/-- What is selected at a level: an entry that fits, the oldest where it has been passed over often enough, and one whose HINT
may hit or the first that fits. -/
theorem selectAt_some {c : Choice} (h : selectAt m d die hits p = some c) : c.q = queueIdx die p ∧
    ∃ e, (oldest8 d die p)[c.k]? = some e ∧ entryFits d die p e = some c.p ∧ c.bypass = e.bypass ∧
      (∀ e0, (oldest8 d die p)[0]? = some e0 → d.regs.bypass.toNat ≤ e0.bypass → c.k = 0) ∧
      (e.hint = 0 ∨ hits.getLsbD c.k = true ∨
        ∀ j e', (oldest8 d die p)[j]? = some e' → j < c.k → entryFits d die p e' = none) := by
  cases h0 : (oldest8 d die p)[0]? with
  | none => rw [selectAt_empty (by simpa using h0)] at h; cases h
  | some e0 =>
    rcases Nat.lt_or_ge e0.bypass d.regs.bypass.toNat with hb | hb
    · rw [selectAt_first h0 hb] at h
      obtain ⟨q, hq, rfl⟩ := Option.map_eq_some_iff.1 h
      have hchosen : q ∈ fitting d die p ∧ (hintHits m d die hits q = true ∨ (fitting d die p).head? = some q) := by
        rcases Option.or_eq_some_iff.1 hq with hf | ⟨-, hh⟩
        · exact ⟨List.mem_of_find?_eq_some hf, .inl (List.find?_some hf)⟩
        · exact ⟨List.mem_of_head? hh, .inr hh⟩
      obtain ⟨hmem, hwhy⟩ := hchosen
      obtain ⟨he, hfit⟩ := mem_fitting.1 hmem
      refine ⟨rfl, q.2.1, he, hfit, rfl, fun e hee hbe => ?_, ?_⟩
      · obtain rfl : e0 = e := Option.some.inj hee
        exact absurd hbe (Nat.not_le.2 hb)
      · rcases hwhy with hhit | hh
        · simp only [hintHits, Bool.or_eq_true, decide_eq_true_eq, Bool.and_eq_true] at hhit
          exact hhit.imp_right fun hin => .inl hin.1
        · exact .inr (.inr fun j e' => entryFits_before_head hh)
    · rw [selectAt_bypassed h0 hb] at h
      obtain ⟨pl, hpl, rfl⟩ := Option.map_eq_some_iff.1 h
      exact ⟨rfl, e0, h0, hpl, rfl, fun _ _ _ => rfl, .inr (.inr fun j _ _ hj => absurd hj (Nat.not_lt_zero j))⟩

/-- Where nothing is selected, the oldest entry does not fit, and none does that may pass it over. -/
theorem selectAt_none (h : selectAt m d die hits p = none) {e0 : Entry} (h0 : (oldest8 d die p)[0]? = some e0) :
    entryFits d die p e0 = none ∧ (e0.bypass < d.regs.bypass.toNat → ∀ e ∈ oldest8 d die p, entryFits d die p e = none) := by
  rcases Nat.lt_or_ge e0.bypass d.regs.bypass.toNat with hb | hb
  · rw [selectAt_first h0 hb, Option.map_eq_none_iff, Option.or_eq_none_iff, List.head?_eq_none_iff] at h
    have hall : ∀ e ∈ oldest8 d die p, entryFits d die p e = none := fun e he => by
      obtain ⟨k, hk⟩ := List.mem_iff_getElem?.1 he
      refine Option.eq_none_iff_forall_ne_some.2 fun pl hpl => ?_
      have hmem : (k, e, pl) ∈ fitting d die p := mem_fitting.2 ⟨hk, hpl⟩
      rw [h.2] at hmem
      cases hmem
    exact ⟨hall e0 (List.mem_of_getElem? h0), fun _ => hall⟩
  · rw [selectAt_bypassed h0 hb, Option.map_eq_none_iff] at h
    exact ⟨h, fun hlt => absurd hb (Nat.not_le.2 hlt)⟩

/-- The highest level that has an entry to select decides. -/
theorem select_highest {c : Choice} (hp : p ≤ 11) (hc : selectAt m d die hits p = some c)
    (hn : ∀ q, p < q → q ≤ 11 → selectAt m d die hits q = none) : select m d die hits = some c := by
  have hlevels : List.range 12 = List.range (11 - p) ++ (List.range (p + 1)).map (11 - p + ·) := by
    rw [← List.range_add]; congr 1; omega
  have hhigher : (List.range (11 - p)).findSome? (fun i => selectAt m d die hits (11 - i)) = none :=
    List.findSome?_eq_none_iff.2 fun i hi => by
      have hlt := List.mem_range.1 hi
      exact hn _ (by omega) (by omega)
  have hthis : 11 - (11 - p + 0) = p := by omega
  rw [select, hlevels, List.findSome?_append, hhigher, Option.none_or, List.range_succ_eq_map, List.map_cons,
    List.findSome?_cons, hthis, hc]

end

theorem takeEntry_queue {d : Dev} {p : Nat} (k : Nat) (h : p < d.queues.length) : nth (takeEntry d p k).queues p [] =
    ((nth d.queues p []).take k).map (fun e => { e with bypass := e.bypass + 1 }) ++ (nth d.queues p []).drop (k + 1) := by
  rw [takeEntry, nth_nthSet, if_pos ⟨rfl, h⟩]

/-! ### Placing (R40, R190, R191, R205). -/

/-- The frames that a plan asks for: none where it fails its check. -/
def needsOf (m : Memory) (d : Dev) (p : Placing) : List (Nat × Footprint) := if badMaps m d p = true then [] else planNeeds d p

section
variable {m : Memory} {d : Dev} {p : Placing} (take : Dev → Dev) (b : Nat)

theorem placeFrom_waits (h : planWaits m d p = true) : placeFrom m d p take b = d := if_pos h

theorem placeFrom_places (h : planWaits m d p = false) : placeFrom m d p take b =
    if roomMade (makeRoom m d (needsOf m d p)) (needsOf m d p) = true
    then place m (wakeSpawns (take (makeRoom m d (needsOf m d p)))) p b else makeRoom m d (needsOf m d p) :=
  if_neg (Bool.eq_false_iff.1 h)

end

/-- The device once the dispatcher of a die has placed what it selects. -/
def selectedPlaced (m : Memory) (d : Dev) (die : Nat) (hits : BitVec 8) : Dev :=
  (select m d die hits).elim d (fun c => placeFrom m d c.p (takeEntry · c.q c.k) c.bypass)

section
variable {s : State} {die : Nat} {hits : BitVec 8} (hstage : s.dev.regs.stage = 5)
include hstage

theorem becomes_dispatchSelect : Becomes (.dispatchSelect die hits) s
    (let d1 := selectedPlaced s.mem s.dev die hits
     (evictDue s.mem s.dev die hits).elim d1 (fun v => { d1 with agenda := d1.agenda ++ [.event (.contextSwitchOut v)] })) := by
  refine becomes_of_exec rfl ((if_neg (not_not.2 hstage)).trans ?_)
  unfold selectedPlaced
  cases select s.mem s.dev die hits <;> cases evictDue s.mem s.dev die hits <;> rfl

theorem becomes_dispatchSelect_places (h : evictDue s.mem s.dev die hits = none) :
    Becomes (.dispatchSelect die hits) s (selectedPlaced s.mem s.dev die hits) := by
  have hstep := becomes_dispatchSelect (die := die) (hits := hits) hstage
  rwa [h] at hstep

theorem becomes_dispatchSelect_evicts {v : Nat} (h : evictDue s.mem s.dev die hits = some v) :
    Becomes (.dispatchSelect die hits) s
      (let d1 := selectedPlaced s.mem s.dev die hits
       { d1 with agenda := d1.agenda ++ [.event (.contextSwitchOut v)] }) := by
  have hstep := becomes_dispatchSelect (die := die) (hits := hits) hstage
  rwa [h] at hstep

end

/-! ### Switching out and back (R193, R206 to R208; log 38). -/

/-- The clusters that a placement brings back. -/
def clustersBack : Placing → List Nat
  | .back cs _ => cs
  | _ => []

/-- An entry leaves the place in its queue that it has once a swap has left, which may have pushed an older one onto it. -/
def takeSwapped (before after : Dev) (q n : Nat) (d : Dev) : Dev :=
  let n1 := if (nth after.queues q []).length = (nth before.queues q []).length then n else n + 1
  { d with queues := nthSet d.queues q ((nth d.queues q []).eraseIdx n1) }

/-- An idle core's swap leaves and places in one step. -/
theorem becomes_forwardProgressSwap {s : State} {core q n v : Nat} {e : Entry} {e1 : Dev} {p : Placing}
    (hi : coreIdle s.dev core = true) (he : swapEntry s.dev core = some (q, n, e)) (hv : swapVictim s.mem s.dev core = some v)
    (ho : switchOut s.mem s.dev v = (e1, .done))
    (hp : planEntry e1 [] (heldCores e1 (coreDie core) (q % 12)) (some core) (coreDie core) e = some p) :
    Becomes (.forwardProgressSwap core) s
      (shieldFrom (placeFrom s.mem e1 p (takeSwapped s.dev e1 q n) e.bypass) e1.clusters.length (clustersBack p)) := by
  refine becomes_of_exec rfl ?_
  simp only [hi, he, hv, ho, hp, Bool.not_true, Bool.false_eq_true, if_false]
  rfl

section
variable {s : State} {cl : Nat} {e1 : Dev}

theorem becomes_contextSwitchOut {r : SwitchRes} (ho : switchOut s.mem s.dev cl = (e1, r))
    (h : r = .done ∨ r = .wait ∨ ((∃ ts, r = .full ts) ∧ stoppedIn e1 cl = false)) : Becomes (.contextSwitchOut cl) s e1 := by
  rcases h with rfl | rfl | ⟨⟨ts, rfl⟩, hs⟩
  · exact becomes_of_exec rfl (by simp only [ho])
  · exact becomes_of_exec rfl (by simp only [ho])
  · exact becomes_of_exec rfl (by simp only [ho, hs, Bool.false_eq_true, if_false])

/-- A cluster that stopped at PREEMPT_AT and finds no block writes a record for each team, and goes on. -/
theorem becomes_contextSwitchOut_full {ts : List Nat} (ho : switchOut s.mem s.dev cl = (e1, .full ts))
    (hs : stoppedIn e1 cl = true) : Becomes (.contextSwitchOut cl) s
      (let ctx := (launchOf e1 (clusterOf e1 cl).launch).ctx
       ts.foldl (fun d t => writeRecord s.mem d ctx (recordWords d ctx none 0 0 { cause := 0x28, info0 := w64 t } {}))
        (resumeStopped e1 cl)) :=
  becomes_of_exec rfl (by simp only [ho, hs, if_true]; rfl)

theorem becomes_spillComplete (h : (clusterOf s.dev cl).res = .shadow) : Becomes (.spillComplete cl) s
    (let e1 := (clusterOf s.dev cl).sets.foldl (spillSet s.mem) s.dev
     { setCluster e1 cl { clusterOf e1 cl with res := .spilled } with shadow := e1.shadow.filter (· ≠ cl) }) :=
  becomes_of_exec rfl (if_neg (not_not.2 h))

section
variable {ok : Bool} (h : (clusterOf s.dev cl).res = .spilled)
include h

theorem becomes_contextSwitchIn_restores (hok : ok = true)
    (hg : (clusterOf s.dev cl).sets.all (blockGood s.mem s.dev) = true) : Becomes (.contextSwitchIn cl ok) s
      ((clusterOf s.dev cl).sets.foldl (setBack s.mem)
        (setCluster s.dev cl { clusterOf s.dev cl with res := .resident, lastIssue := s.dev.cycle })) :=
  becomes_of_exec rfl ((if_neg (not_not.2 h)).trans (if_pos (Bool.and_eq_true_iff.2 ⟨hok, hg⟩)))

/-- One whose restore failed breaks its context. -/
theorem becomes_contextSwitchIn_breaks (hb : ok = false ∨ (clusterOf s.dev cl).sets.all (blockGood s.mem s.dev) = false) :
    Becomes (.contextSwitchIn cl ok) s
      (let c := (launchOf s.dev (clusterOf s.dev cl).launch).ctx
       failContext s.mem (setCtx s.dev c { ctxOf s.dev c with broken := true }) c 0x08) :=
  becomes_of_exec rfl ((if_neg (not_not.2 h)).trans (if_neg (Bool.eq_false_iff.1 (Bool.and_eq_false_iff.2 hb))))

end

end

/-! ### The end of a launch (R115, R194). -/

section
variable {s : State} {l : Nat}

theorem becomes_launchEnd (he : (launchOf s.dev l).ended = false) (hi : launchIdle s.dev l = true) : Becomes (.launchEnd l) s
    (let y := launchOf s.dev l
     let e := ((List.range s.dev.clusters.length).filter (fun k => (clusterOf s.dev k).launch == l)).foldl (settleCluster s.mem) s.dev
     addDone s.mem (writeJournal (setLaunch e l { y with ended := true }) y.slot y.seq y.ctx (y.status.getD 0x01) true) l y) :=
  becomes_of_exec rfl (if_neg (by simp [he, hi]))

theorem becomes_launchEnd_early (h : (launchOf s.dev l).ended = true ∨ launchIdle s.dev l = false) :
    Becomes (.launchEnd l) s s.dev :=
  becomes_of_exec rfl (if_pos (by simpa using h))

end

/-- A launch's writes drain before its counter is added to. -/
def launchDrained (d : Dev) (l : Nat) : Dev := (launchWaves d l).foldl (drainGrants · · .sys) d

section
variable (m : Memory) {d : Dev} {l : Nat} {y : Launch}

theorem addDone_uncounted (h : y.donectr = 0) : addDone m d l y = launchDrained d l := if_pos h

theorem addDone_adds {k : Nat} {e1 : Dev} (hn : y.donectr ≠ 0) (hk : doneKey m (launchDrained d l) y = .ok (some k, e1)) :
    addDone m d l y = addOne m e1 0 k e1.maxWts := by
  refine (if_neg hn).trans ?_
  unfold launchDrained at hk
  rw [hk]

theorem addDone_reports {c : BitVec 8} (hn : y.donectr ≠ 0) (hk : doneKey m (launchDrained d l) y = .error c) :
    addDone m d l y = writeRecord m (launchDrained d l) y.ctx
      (recordWords (launchDrained d l) y.ctx none 0 0 { cause := 0x2A, sub := c, addr := y.donectr } {}) := by
  refine (if_neg hn).trans ?_
  unfold launchDrained at hk ⊢
  rw [hk]
  rfl

end

/-- Settles O36: each device step answers what its function answers, by the cases that the function tells apart; what a level
selects is read off the list of its entries that fit. -/
theorem launchSteps : Obligations.LaunchSteps := by
  unfold Obligations.LaunchSteps
  intro s slot die cl core l hits
  dsimp only
  refine ⟨becomes_launchTrigger_empty, becomes_launchTrigger_seen,
    fun ⟨hs, hq, hn⟩ => becomes_launchTrigger_bad hs hq hn, fun ⟨hs, hq, hn⟩ => becomes_launchTrigger_noRes hs hq hn,
    fun ⟨hs, hq, hn⟩ hb hr => ?_, fun hs => ⟨becomes_dispatchSelect_places hs, fun v => becomes_dispatchSelect_evicts hs⟩,
    fun m d p take b => ⟨placeFrom_waits take b, placeFrom_places take b⟩, fun m d p hp => ?_,
    fun q n e v e1 p => becomes_forwardProgressSwap, fun e1 r => becomes_contextSwitchOut,
    fun e1 ts => becomes_contextSwitchOut_full, becomes_spillComplete,
    fun ok h => ⟨becomes_contextSwitchIn_restores h, becomes_contextSwitchIn_breaks h⟩, becomes_launchEnd, becomes_launchEnd_early,
    fun d0 y => ⟨addDone_uncounted s.mem, fun k e1 => addDone_adds s.mem, fun c => addDone_reports s.mem⟩⟩
  · have haccept := becomes_launchTrigger_accept hs hq hn hb hr
    exact ⟨fun hc => accept_pushes s.mem hc ▸ haccept, fun hc => accept_broken s.mem hc ▸ haccept⟩
  · have hqueue : queueIdx die p = 12 * die + p := by rw [queueIdx, Nat.min_eq_left hp]
    simp only [← hqueue]
    exact ⟨fun c => selectAt_some, fun hn e0 => selectAt_none hn, fun c hc hn => select_highest hp hc hn,
      fun k hk => takeEntry_queue k hk⟩

end Sys2Proof.Machine
end

section
/-!
SUPPORT. Every word is the word of the instruction that it decodes to (spec/13_encoding.md R211, R213, R230, R231): its fields put
back together are the word, and each major of the opcode map keeps them all.
-/
namespace Sys2Proof

/-! ### Fields put back together (R211, R213). -/

@[simp] theorem FmtX.toBits_ofBits (b : BitVec 44) : (FmtX.ofBits b).toBits = b := by
  apply BitVec.eq_of_getLsbD_eq
  intro i hi
  simp only [FmtX.toBits, FmtX.ofBits, BitVec.getLsbD_cast, BitVec.getLsbD_append, BitVec.getLsbD_extractLsb']
  grind

@[simp] theorem FmtI.toBits_ofBits (b : BitVec 44) : (FmtI.ofBits b).toBits = b := by
  apply BitVec.eq_of_getLsbD_eq
  intro i hi
  simp only [FmtI.toBits, FmtI.ofBits, BitVec.getLsbD_cast, BitVec.getLsbD_append, BitVec.getLsbD_extractLsb']
  grind

@[simp] theorem FmtK.toBits_ofBits (b : BitVec 44) : (FmtK.ofBits b).toBits = b := by
  apply BitVec.eq_of_getLsbD_eq
  intro i hi
  simp only [FmtK.toBits, FmtK.ofBits, BitVec.getLsbD_cast, BitVec.getLsbD_append, BitVec.getLsbD_extractLsb']
  grind

@[simp] theorem FmtM.toBits_ofBits (b : BitVec 44) : (FmtM.ofBits b).toBits = b := by
  apply BitVec.eq_of_getLsbD_eq
  intro i hi
  simp only [FmtM.toBits, FmtM.ofBits, BitVec.getLsbD_cast, BitVec.getLsbD_append, BitVec.getLsbD_extractLsb']
  grind

@[simp] theorem FmtB.toBits_ofBits (b : BitVec 44) : (FmtB.ofBits b).toBits = b := by
  apply BitVec.eq_of_getLsbD_eq
  intro i hi
  simp only [FmtB.toBits, FmtB.ofBits, BitVec.getLsbD_cast, BitVec.getLsbD_append, BitVec.getLsbD_extractLsb']
  grind

@[simp] theorem FmtT.toBits_ofBits (b : BitVec 44) : (FmtT.ofBits b).toBits = b := by
  apply BitVec.eq_of_getLsbD_eq
  intro i hi
  simp only [FmtT.toBits, FmtT.ofBits, BitVec.getLsbD_cast, BitVec.getLsbD_append, BitVec.getLsbD_extractLsb']
  grind

@[simp] theorem FmtE.toBits_ofBits (b : BitVec 44) : (FmtE.ofBits b).toBits = b := by
  apply BitVec.eq_of_getLsbD_eq
  intro i hi
  simp only [FmtE.toBits, FmtE.ofBits, BitVec.getLsbD_cast, BitVec.getLsbD_append, BitVec.getLsbD_extractLsb']
  grind

@[simp] theorem FmtS.toBits_ofBits (b : BitVec 44) : (FmtS.ofBits b).toBits = b := by
  apply BitVec.eq_of_getLsbD_eq
  intro i hi
  simp only [FmtS.toBits, FmtS.ofBits, BitVec.getLsbD_cast, BitVec.getLsbD_append, BitVec.getLsbD_extractLsb']
  grind

theorem packWord_fields (w : W64) : packWord (wordOpc w) (wordFn w) (wordHead w) (wordBody w) = w := by
  apply BitVec.eq_of_getLsbD_eq
  intro i hi
  simp only [packWord, wordOpc, wordFn, wordHead, wordBody, BitVec.getLsbD_cast, BitVec.getLsbD_append,
    BitVec.getLsbD_extractLsb']
  grind

/-! ### The majors of the opcode map (R230). -/

/-- The minors 32 to 63 of major 0x00 are built from their low five bits. -/
theorem hintFn_eq {fn : BitVec 6} (h : fn.msb = true) :
    BitVec.cast (n := 1 + 5) (m := 6) rfl (1#1 ++ fn.extractLsb' 0 5) = fn := by
  revert fn
  decide

section
variable {fn : BitVec 6} {h : Head} {b : BitVec 44} {i : Instr}

/-- A number that a field is found to hold is the field. -/
theorem eq_ofNat_of_toNat {n : Nat} {x : BitVec n} {k : Nat} (hk : x.toNat = k) : x = BitVec.ofNat n k := by
  rw [← hk, BitVec.ofNat_toNat, BitVec.setWidth_eq]

theorem encode_decode00 (hd : decode00 fn h b = some i) : encode i = some (packWord 0x00 fn h b) := by
  unfold decode00 at hd
  split at hd
  · next hn =>
    cases hd
    rw [eq_ofNat_of_toNat hn]
    rfl
  · next hn =>
    cases hd
    rw [eq_ofNat_of_toNat hn]
    simp [encode]
  · split at hd
    · next hm =>
      cases hd
      simp only [encode, hintFn_eq hm]
    · cases hd

theorem encode_decode01 (hd : decode01 fn h b = some i) : encode i = some (packWord 0x01 fn h b) := by
  unfold decode01 at hd
  split at hd <;> cases hd
  all_goals
    obtain rfl := eq_ofNat_of_toNat (x := fn) ‹_›
    simp [encode]

theorem encode_decode02 (hd : decode02 fn h b = some i) : encode i = some (packWord 0x02 fn h b) := by
  unfold decode02 at hd
  split at hd <;> cases hd
  all_goals
    obtain rfl := eq_ofNat_of_toNat (x := fn) ‹_›
    simp [encode]

theorem encode_decode03 (hd : decode03 fn h b = some i) : encode i = some (packWord 0x03 fn h b) := by
  unfold decode03 at hd
  split at hd <;> cases hd
  all_goals
    obtain rfl := eq_ofNat_of_toNat (x := fn) ‹_›
    simp [encode]

theorem encode_decode08 (hd : decode08 fn h b = some i) : encode i = some (packWord 0x08 fn h b) := by
  unfold decode08 at hd
  split at hd <;> cases hd
  all_goals
    obtain rfl := eq_ofNat_of_toNat (x := fn) ‹_›
    simp [encode]

theorem encode_decode09 (hd : decode09 fn h b = some i) : encode i = some (packWord 0x09 fn h b) := by
  unfold decode09 at hd
  split at hd <;> cases hd
  all_goals
    obtain rfl := eq_ofNat_of_toNat (x := fn) ‹_›
    simp [encode]

theorem encode_decode10 (hd : decode10 fn h b = some i) : encode i = some (packWord 0x10 fn h b) := by
  unfold decode10 at hd
  split at hd <;> cases hd
  all_goals
    obtain rfl := eq_ofNat_of_toNat (x := fn) ‹_›
    simp [encode]

theorem encode_decode14 (hd : decode14 fn h b = some i) : encode i = some (packWord 0x14 fn h b) := by
  unfold decode14 at hd
  split at hd <;> cases hd
  all_goals
    obtain rfl := eq_ofNat_of_toNat (x := fn) ‹_›
    simp [encode]

theorem encode_decode18 (hd : decode18 fn h b = some i) : encode i = some (packWord 0x18 fn h b) := by
  unfold decode18 at hd
  split at hd <;> cases hd
  all_goals
    obtain rfl := eq_ofNat_of_toNat (x := fn) ‹_›
    simp [encode]

theorem encode_decode1C (hd : decode1C fn h b = some i) : encode i = some (packWord 0x1C fn h b) := by
  unfold decode1C at hd
  split at hd <;> cases hd
  all_goals
    obtain rfl := eq_ofNat_of_toNat (x := fn) ‹_›
    simp [encode]

theorem encode_decode20 (hd : decode20 fn h b = some i) : encode i = some (packWord 0x20 fn h b) := by
  unfold decode20 at hd
  split at hd <;> cases hd
  all_goals
    obtain rfl := eq_ofNat_of_toNat (x := fn) ‹_›
    simp [encode]

theorem encode_decode28 (hd : decode28 fn h b = some i) : encode i = some (packWord 0x28 fn h b) := by
  unfold decode28 at hd
  split at hd <;> cases hd
  all_goals
    obtain rfl := eq_ofNat_of_toNat (x := fn) ‹_›
    simp [encode]

theorem encode_decode2C (hd : decode2C fn h b = some i) : encode i = some (packWord 0x2C fn h b) := by
  unfold decode2C at hd
  split at hd <;> cases hd
  all_goals
    obtain rfl := eq_ofNat_of_toNat (x := fn) ‹_›
    simp [encode]

theorem encode_decode2D (hd : decode2D fn h b = some i) : encode i = some (packWord 0x2D fn h b) := by
  unfold decode2D at hd
  split at hd <;> cases hd
  all_goals
    obtain rfl := eq_ofNat_of_toNat (x := fn) ‹_›
    simp [encode]

theorem encode_decode30 (hd : decode30 fn h b = some i) : encode i = some (packWord 0x30 fn h b) := by
  unfold decode30 at hd
  split at hd <;> cases hd
  all_goals
    obtain rfl := eq_ofNat_of_toNat (x := fn) ‹_›
    simp [encode]

theorem encode_decode36 (hd : decode36 fn h b = some i) : encode i = some (packWord 0x36 fn h b) := by
  unfold decode36 at hd
  split at hd <;> cases hd
  all_goals
    obtain rfl := eq_ofNat_of_toNat (x := fn) ‹_›
    simp [encode]

theorem encode_decode3A (hd : decode3A fn h b = some i) : encode i = some (packWord 0x3A fn h b) := by
  unfold decode3A at hd
  split at hd <;> cases hd
  all_goals
    obtain rfl := eq_ofNat_of_toNat (x := fn) ‹_›
    simp [encode]

theorem encode_decode3C (hd : decode3C fn h b = some i) : encode i = some (packWord 0x3C fn h b) := by
  unfold decode3C at hd
  split at hd <;> cases hd
  all_goals
    obtain rfl := eq_ofNat_of_toNat (x := fn) ‹_›
    simp [encode]

end

/-- The instruction that the map gives the fields of a word has the word of these fields. -/
theorem encode_decodeFields {opc fn : BitVec 6} {h : Head} {b : BitVec 44} {i : Instr}
    (hd : decodeFields opc fn h b = some i) : encode i = some (packWord opc fn h b) := by
  unfold decodeFields at hd
  split at hd
  · obtain rfl := eq_ofNat_of_toNat (x := opc) ‹_›
    exact encode_decode00 hd
  · obtain rfl := eq_ofNat_of_toNat (x := opc) ‹_›
    exact encode_decode01 hd
  · obtain rfl := eq_ofNat_of_toNat (x := opc) ‹_›
    exact encode_decode02 hd
  · obtain rfl := eq_ofNat_of_toNat (x := opc) ‹_›
    exact encode_decode03 hd
  · obtain rfl := eq_ofNat_of_toNat (x := opc) ‹_›
    exact encode_decode08 hd
  · obtain rfl := eq_ofNat_of_toNat (x := opc) ‹_›
    exact encode_decode09 hd
  · obtain rfl := eq_ofNat_of_toNat (x := opc) ‹_›
    exact encode_decode10 hd
  · obtain rfl := eq_ofNat_of_toNat (x := opc) ‹_›
    exact encode_decode14 hd
  · obtain rfl := eq_ofNat_of_toNat (x := opc) ‹_›
    exact encode_decode18 hd
  · obtain rfl := eq_ofNat_of_toNat (x := opc) ‹_›
    exact encode_decode1C hd
  · obtain rfl := eq_ofNat_of_toNat (x := opc) ‹_›
    exact encode_decode20 hd
  · obtain rfl := eq_ofNat_of_toNat (x := opc) ‹_›
    exact encode_decode28 hd
  · obtain rfl := eq_ofNat_of_toNat (x := opc) ‹_›
    exact encode_decode2C hd
  · obtain rfl := eq_ofNat_of_toNat (x := opc) ‹_›
    exact encode_decode2D hd
  · obtain rfl := eq_ofNat_of_toNat (x := opc) ‹_›
    exact encode_decode30 hd
  · obtain rfl := eq_ofNat_of_toNat (x := opc) ‹_›
    exact encode_decode36 hd
  · obtain rfl := eq_ofNat_of_toNat (x := opc) ‹_›
    exact encode_decode3A hd
  · obtain rfl := eq_ofNat_of_toNat (x := opc) ‹_›
    exact encode_decode3C hd
  · cases hd

/-- Settles O2: a listed word is packed from the fields that it is decoded by, and an unlisted one is kept whole. -/
theorem decodeThenEncode : Obligations.DecodeThenEncode := by
  intro w
  unfold decode
  cases hd : decodeListed w with
  | none => rfl
  | some i =>
    have he := encode_decodeFields hd
    rw [packWord_fields] at he
    exact he

/-- Settles O3: the decoder on each word. -/
theorem decodeSamples : Obligations.DecodeSamples := by
  unfold Obligations.DecodeSamples
  refine ⟨?ffma, ?ld, ?brc, ?mma, ?tret, ?unlisted⟩
  all_goals rfl

end Sys2Proof
end

section
/-!
SUPPORT. Integer words (spec/14_isa_compute.md R235 to R237, spec/13_encoding.md R228, R232): each is a lane instruction without
rounding or flags, whose function is the one that the manual gives.
-/
namespace Sys2Proof.Machine
open Sys2Proof.Claims

/-! ### Arithmetic (R235). -/

/-- Byte `i` of a word as a number. -/
theorem byteOf_toNat (x : W64) (i : Nat) : ((x >>> (8 * i)).setWidth 8).toNat = x.toNat / 256 ^ i % 256 := by
  rw [BitVec.toNat_setWidth, BitVec.toNat_ushiftRight, Nat.shiftRight_eq_div_pow, Nat.pow_mul]

/-- The absolute differences of four bytes, summed (R235). -/
theorem sad4Of_eq (a b c : W64) : sad4Of a b c =
    let byte := fun (x : W64) (i : Nat) => ((x.toNat / 256 ^ i % 256 : Nat) : Int)
    intCode .n32 (c.toNat + ((byte a 0 - byte b 0).natAbs + (byte a 1 - byte b 1).natAbs +
      (byte a 2 - byte b 2).natAbs + (byte a 3 - byte b 3).natAbs) : Nat) := by
  simp only [sad4Of, byteOf_toNat]
  rw [show List.range 4 = [0, 1, 2, 3] from rfl]
  simp only [List.foldl_cons, List.foldl_nil, Nat.zero_add]

theorem ite_neg_eq_natAbs (a : Int) : (if a < 0 then -a else a) = a.natAbs := by
  split <;> omega

/-- Each word of integer arithmetic computes its function of integers, wrapped to the type. -/
theorem integerArithmetic : IntegerArithmetic := by
  intro h f
  refine ⟨?add, ?sub, ?mul, ?mulhi, ?mad, ?madhi, ?min, ?max, ?abs, ?neg, ?clamp, ?sad4⟩
  case min => exact plainResult_of (fun _ => rfl) (by funext a b c; simp only [onInts, Int.min_def])
  case max => exact plainResult_of (fun _ => rfl) (by funext a b c; simp only [onInts, Int.max_def])
  case abs => exact plainResult_of (fun _ => rfl) (by funext a b c; simp only [onInts, ite_neg_eq_natAbs])
  case clamp => exact plainResult_of (fun _ => rfl) (by funext a b c; simp only [onInts, Int.min_def, Int.max_def])
  case sad4 => exact plainResult_of (fun _ => rfl) (by simp only [sad4Of_eq])
  all_goals exact plainResult_of (fun _ => rfl) rfl

/-! ### Logic (R236). -/

/-- The place of two bits in a table, as a number. -/
theorem tableBit_eq (n : Nat) (a b : Bool) : tableBit n a b = (n / 2 ^ (2 * a.toNat + b.toNat) % 2 == 1) := by
  cases a <;> cases b <;> simp [tableBit, Nat.shiftRight_eq_div_pow]

/-- Each logic word computes its function of the bits at the width of the type. -/
theorem integerLogic : IntegerLogic := by
  intro h f
  refine ⟨?and, ?or, ?xor, ?andn, ?not, ?shl, ?shr, ?sar, ?rotl, ?popc, ?clz, ?ctz, ?brev, ?lsel⟩
  case lsel =>
    refine plainResult_of (fun _ => rfl) ?_
    funext a b c
    simp only [lselOf, tableBit_eq, wid]
    congr
    funext r j
    split <;> rfl
  all_goals exact plainResult_of (fun _ => rfl) rfl

/-- Settles O46: each word is a lane instruction without rounding or flags, of the function that R235 or R236 gives. -/
theorem integerWords : Obligations.IntegerWords := ⟨integerArithmetic, integerLogic⟩

/-! ### Bit fields (R237). -/

/-- What the fields of a bit-field word are found to hold. -/
theorem okBf_fields {f : FmtI} {dv : Bool} (hok : okBf f dv = true) :
    isInt (ty f.ty) = true ∧ bits f.imm 23 15 = 0 ∧ bits f.imm 7 7 = 0 ∧ bits f.imm 6 0 ≤ 63 ∧ bits f.imm 14 8 ≤ 64 ∧
      bits f.imm 6 0 + bits f.imm 14 8 ≤ tyBits (ty f.ty) := by
  simp only [okBf, Bool.and_eq_true, beq_iff_eq, decide_eq_true_eq] at hok
  tauto

/-- IMM24 from its fields, where the others are zero. -/
theorem imm_of_fields {x : BitVec 24} (h1 : bits x 23 15 = 0) (h2 : bits x 7 7 = 0) :
    x.toNat = bits x 6 0 + 256 * bits x 14 8 := by
  simp only [bits, Nat.shiftRight_eq_div_pow] at *
  omega

/-- The D of a `bfi` whose fields are right names a v register, or an even pair. -/
theorem bfi_dst {h : Head} {f : FmtI} (hf : fieldsOk (.bfi h f) = true) :
    ∃ n, opd f.d = .v n ∧ (tyBits (ty f.ty) = 64 → n % 2 = 0) := by
  simp only [fieldsOk, okBf, Bool.and_eq_true] at hf
  obtain ⟨_, hd⟩ := hf
  rw [if_pos trivial] at hd
  split at hd
  · next n hn =>
    refine ⟨n, hn, fun hw => ?_⟩
    simpa [hw] using hd
  · cases hd

/-- A lane instruction needs its meaning only where its fields are right. -/
theorem laneResult_of_fieldsOk {i : Instr} {h : Head} {f : FmtX} {codes : List (BitVec 8)} {ta tb tc : Option Ty} {td : Ty}
    {lat : Nat} {fn : LaneEnv → W64 → W64 → W64 → LaneRes}
    (hr : fieldsOk i = true → LaneResult i h f codes ta tb tc td lat fn) : LaneResult i h f codes ta tb tc td lat fn :=
  fun s q d0 d1 ha => hr ha.1 s q d0 d1 ha

/-- Of the integer types two are signed (R235). -/
theorem isSigned_of_isInt {t : Ty} (ht : isInt t = true) : isSigned t = decide (t = .i32 ∨ t = .i64) := by
  revert ht
  cases t <;> decide

theorem latX_one (n : Nat) (t : Ty) : latX n [t] = if t = .i64 ∨ t = .n64 then n + 2 else n := by
  simp [latX]

theorem bfxOf_eq {t : Ty} (ht : isInt t = true) (pos len : Nat) (a : W64) : bfxOf t pos len a =
    let x := (a >>> pos) &&& w64 (2 ^ len - 1)
    if (t = .i32 ∨ t = .i64) ∧ 0 < len ∧ x.getLsbD (len - 1) = true then readTy t (x ||| ~~~(w64 (2 ^ len - 1))) else x := by
  simp only [bfxOf, isSigned_of_isInt ht, ones, lowBits, Bool.and_eq_true, decide_eq_true_eq, and_assoc]

theorem bfx_result (h : Head) (f : FmtI) : LaneResult (.bfx h f) h (asX f 0xC8#8) [f.d, f.a] (some (ty f.ty)) none none (ty f.ty)
    (if ty f.ty = .i64 ∨ ty f.ty = .n64 then 6 else 4) (fun env a _ _ =>
      let x := (a >>> bits f.imm 6 0) &&& w64 (2 ^ bits f.imm 14 8 - 1)
      { val := if (ty f.ty = .i32 ∨ ty f.ty = .i64) ∧ 0 < bits f.imm 14 8 ∧ x.getLsbD (bits f.imm 14 8 - 1) = true
          then readTy (ty f.ty) (x ||| ~~~(w64 (2 ^ bits f.imm 14 8 - 1))) else x,
        rss := env.rss }) := by
  refine laneResult_of_fieldsOk fun hf => ?_
  obtain ⟨ht, _⟩ := okBf_fields hf
  have hr : LaneResult (.bfx h f) h (asX f 0xC8#8) [f.d, f.a] (some (ty f.ty)) none none (ty f.ty) (latX 4 [ty f.ty])
      (fun env a _ _ => plain env (bfxOf (ty f.ty) (bits f.imm 6 0) (bits f.imm 14 8) a)) := laneResult_of fun _ => rfl
  simpa only [latX_one, plain, bfxOf_eq ht] using hr

theorem bfi_result (h : Head) (f : FmtI) : LaneResult (.bfi h f) h (asX f f.d) [f.d, f.a] (some (ty f.ty)) (some (ty f.ty)) none
    (ty f.ty) (if ty f.ty = .i64 ∨ ty f.ty = .n64 then 6 else 4) (fun env a d _ =>
      let m := w64 (2 ^ bits f.imm 14 8 - 1) <<< bits f.imm 6 0
      { val := readTy (ty f.ty) ((d &&& ~~~m) ||| ((a <<< bits f.imm 6 0) &&& m)), rss := env.rss }) := by
  rw [← latX_one 4]
  exact laneResult_of fun _ => rfl

/-- Settles O15: the checks of the fields say the ranges; a word that fails them is illegal; each result is the lane function. -/
theorem bitFields : Obligations.BitFields := by
  intro h f
  refine ⟨fun hf => ?ranges, bfi_dst, fun s i hi hf => ?illegal, bfx_result h f, bfi_result h f⟩
  case ranges =>
    obtain ⟨dv, hok⟩ : ∃ dv, okBf f dv = true := hf.elim (fun hx => ⟨false, hx⟩) (fun hi => ⟨true, hi⟩)
    obtain ⟨ht, hhi, hmid, hpos, hlen, hsum⟩ := okBf_fields hok
    exact ⟨hpos, hlen, hsum, imm_of_fields hhi hmid, ht⟩
  case illegal =>
    rcases hi with rfl | rfl <;> exact illegal_of (codes := [f.d, f.a]) rfl (by rw [hf]; rfl)

end Sys2Proof.Machine
end

section
/-!
SUPPORT. Words that move values and predicates between lanes, compare, select and combine predicates (spec/14_isa_compute.md R238,
R239, R244, R251 to R253, spec/13_encoding.md R228): each takes its operands, writes one destination and retires.
-/
namespace Sys2Proof.Machine
open Sys2Proof.Claims

/-! ### The shapes of these words. -/

section
variable {α : Type} {i : Instr} {h : Head} {acc exe : Bool} {codes : List (BitVec 8)} {s : State} {q : α} {d0 d1 : Dev}
  {take : Act α}

/-- A word that takes its operands, writes a destination and retires. -/
theorem retires_put {put : α → Act Unit}
    (hx : exec i s = .next (runSplit (framed i h acc exe codes (take >>= fun q => put q >>= fun _ => pure .retire)) s))
    (ha : Admitted i codes s) (ht : Runs take s.mem s.dev q d0) (hp : Runs (put q) s.mem d0 () d1) : Retires i h acc exe s d1 :=
  retires_of hx ha ((runAct_bind_ok ht).trans (runAct_bind_ok hp))

/-- The same where what is written depends on the device after the operands. -/
theorem retires_putAt {put : α → Dev → Act Unit}
    (hx : exec i s = .next (runSplit (framed i h acc exe codes
      (take >>= fun q => dev >>= fun d => put q d >>= fun _ => pure .retire)) s))
    (ha : Admitted i codes s) (ht : Runs take s.mem s.dev q d0) (hp : Runs (put q d0) s.mem d0 () d1) : Retires i h acc exe s d1 :=
  retires_of hx ha ((runAct_bind_ok ht).trans ((runAct_bind_ok (runAct_dev _ _)).trans (runAct_bind_ok hp)))

/-- The same where the flags or RSS states of the lanes are kept before the destination is written. -/
theorem retires_keepPut {keep : α → Dev → Dev → Dev} {put : α → Dev → Act Unit}
    (hx : exec i s = .next (runSplit (framed i h acc exe codes
      (take >>= fun q => dev >>= fun d => upd (keep q d) >>= fun _ => put q d >>= fun _ => pure .retire)) s))
    (ha : Admitted i codes s) (ht : Runs take s.mem s.dev q d0) (hp : Runs (put q d0) s.mem (keep q d0 d0) () d1) :
    Retires i h acc exe s d1 :=
  retires_of hx ha ((runAct_bind_ok ht).trans ((runAct_bind_ok (runAct_dev _ _)).trans
    ((runAct_bind_ok (runAct_upd _ _ _)).trans (runAct_bind_ok hp))))

end

/-! ### Lane movement (R251 to R253). -/

theorem shflLane_eq (mode n l k : Nat) : shflLane mode n l k =
    if mode = 0 then l - l % 2 ^ n + k % 2 ^ n else if mode = 1 then l - l % 2 ^ n + (l % 2 ^ n + k % 2 ^ n) % 2 ^ n
    else if mode = 2 then l - l % 2 ^ n + (l % 2 ^ n ^^^ k % 2 ^ n) else l - l % 2 ^ n + (2 ^ n - 1 - l % 2 ^ n) := by
  match mode with
  | 0 | 1 | 2 | _ + 3 => rfl

theorem voteOf_eq (mode : Nat) (m p : W32) : voteOf mode m p =
    let n := (lanesOf m).length
    let k := (lanesOf (m &&& p)).length
    if mode = 0 then k == n else if mode = 1 then k ≠ 0 else if mode = 2 then k % 2 == 1 else decide (n < 2 * k) := by
  match mode with
  | 0 | 1 | 2 | _ + 3 => rfl

/-- Settles O16: each word takes its operands, writes what the lanes of the mask give it, and retires. -/
theorem laneMovement : Obligations.LaneMovement := by
  intro h f s m
  simp only [← latX_one]
  refine ⟨fun a b d0 d1 ha ht hp => ?shfl, fun a b d0 d1 ha ht hp => retires_putAt rfl ha ht hp,
    fun p y d0 d1 ha ht hp => ?vote, fun p y d0 d1 ha ht hp => retires_put rfl ha ht hp,
    fun d0 d1 ha ht hp => retires_put rfl ha ht hp, fun a heads d0 d1 ha ht hp => retires_keepPut rfl ha ht hp,
    fun a heads d0 d1 ha ht hp => retires_keepPut rfl ha ht hp⟩
  case shfl =>
    simp only [← shflLane_eq] at hp
    exact retires_putAt rfl ha ht hp
  case vote =>
    simp only [← voteOf_eq] at hp
    exact retires_put rfl ha ht hp

/-- Settles O17: one step of the fold, by whether its lane is a head and whether it is active. -/
theorem foldsInLaneOrder : Obligations.FoldsInLaneOrder := by
  intro op t excl m heads envs a l r p
  refine ⟨rfl, fun hm => ?inactive, fun hm => ?active, rfl, rfl, rfl, rfl, rfl, rfl, rfl⟩
  case inactive => simp only [scanGo, hm, if_false, Bool.false_eq_true]
  case active => simp only [scanGo, hm, if_true]

/-! ### Compares (R238, R239, R244). -/

theorem latX_add (n : Nat) (t : Ty) : latX n [t] = n + (if t = .i64 ∨ t = .n64 then 2 else 0) := by
  rw [latX_one]
  split <;> rfl

theorem combine_eq (md : BitVec 8) (r c : Bool) : combine md r c = Claims.Combined md r c := by
  unfold combine Claims.Combined
  match bits md 5 4 with
  | 0 | 1 | 2 | _ + 3 => rfl

theorem condHolds_eq (code : Nat) (un : Bool) (z : Int) : condHolds (cond code) un z = Claims.Holds code un z := by
  match code with
  | 0 | 1 | 2 | 3 | 4 | 5 | 6 | 7 | 8 | 9 | 10 | 11 | 12 | _ + 13 => rfl

/-- A word of the shared shape of compares, from what a lane compares to its result and its flags. -/
theorem compareResult_of {i : Instr} {h : Head} {f : FmtX} {lat : Nat} {fn : W64 → W64 → Bool × BitVec 9} {r : W64 → W64 → Bool}
    {fl : W64 → W64 → BitVec 9} (hx : ∀ s, exec i s = runX i h (codesX f) (cmpOp h f lat fn) s)
    (hfn : ∀ a b, fn a b = (r a b, fl a b)) : CompareResult i h f lat r fl := by
  intro s q d0 d1
  dsimp only
  intro ha ht hp
  have hlane : ∀ l, cmpLane d0 (ty f.ty) q fn l = _ := fun l => hfn _ _
  refine retires_keepPut (hx s) ha ht ?_
  simp only [hlane, combine_eq]
  exact hp

/-- The flags of a floating compare: INV where the conditions 2 to 5 meet an unordered pair (R244). -/
theorem fcmpFlags_eq (un : Bool) (c : Nat) :
    (if (un && decide (2 ≤ c) && decide (c ≤ 5)) = true then fINV else 0) = if un = true ∧ 2 ≤ c ∧ c ≤ 5 then (1 : BitVec 9) else 0 := by
  simp only [Bool.and_eq_true, decide_eq_true_eq, and_assoc]
  rfl

theorem compares : Compares := by
  intro h f
  simp only [← latX_add]
  refine ⟨compareResult_of (fun _ => rfl) fun a b => ?cmp, compareResult_of (fun _ => rfl) fun a b => ?fcmp⟩
  case cmp => rw [condHolds_eq]; rfl
  case fcmp =>
    simp only [condHolds_eq, Bool.decide_or, ← Bool.beq_eq_decide_eq, fcmpFlags_eq]

/-! ### Selects and predicates (R239). -/

theorem selects : Selects := by
  intro h f s m
  simp only [← latX_one 4]
  refine ⟨fun a b p d0 d1 ha ht hp => retires_putAt rfl ha ht hp, fun a x y d0 d1 ha ht hp => retires_putAt rfl ha ht hp,
    fun p y d0 d1 ha ht hp => retires_put rfl ha ht hp, fun p y d0 d1 ha ht hp => retires_put rfl ha ht hp,
    fun i op hi p q d0 d1 ha ht hp => ?logic⟩
  case logic =>
    simp only [List.mem_cons, Prod.mk.injEq, List.not_mem_nil, or_false] at hi
    obtain ⟨rfl, rfl⟩ | ⟨rfl, rfl⟩ | ⟨rfl, rfl⟩ := hi
    all_goals exact retires_put rfl ha ht hp

/-- Settles O47: compares are of one shape, and every other word writes what its lanes give it. -/
theorem comparesAndSelects : Obligations.ComparesAndSelects := ⟨compares, selects⟩

end Sys2Proof.Machine
end

section
/-!
SUPPORT. Access arithmetic, and how operands are taken, where results go and in which lanes (spec/14_isa_compute.md R254 to R256,
spec/13_encoding.md R212, R217, R219, R220, R228, R232).
-/
namespace Sys2Proof.Machine
open Sys2Proof.Claims

/-! ### Access arithmetic (R254 to R256). -/

/-- A word of the shared shape of access arithmetic. -/
theorem accessResult_of {i : Instr} {h : Head} {d a b c gc : BitVec 8} {t : Ty} {lat : Nat} {fn fn' : Bool → W64 → W64 → W64 → W64}
    (hx : ∀ s, exec i s = runA i h (accOp h d a b c t lat gc fn) s) (he : fn = fn') : AccessResult i h d a b c gc t lat fn' := by
  subst he
  intro s q d0 d1
  dsimp only
  intro ha ht hp
  exact retires_putAt (hx s) ha ht hp

theorem immK_eq (t : Ty) (imm : BitVec 32) :
    immK t imm = if t = .i32 ∨ t = .i64 then imm.signExtend 64 else imm.setWidth 64 := by
  cases t <;> rfl

theorem acmpReduce_eq (mode : Nat) (m : W32) (r : Nat → Bool) : acmpReduce mode m r =
    if mode = 0 then r ((lowLane m).getD 0) else if mode = 1 then (lanesOf m).all r else (lanesOf m).any r := by
  match mode with
  | 0 | 1 | _ + 2 => rfl

/-- Settles O18: every word but `acmp` is of one shape, with the function that the manual gives it. -/
theorem accessArithmetic : Obligations.AccessArithmetic := by
  intro h f g
  refine ⟨?aadd, ?asub, ?amul, ?amad, ?ashl, ?ashr, ?asar, ?aand, ?aor, ?axor, ?amin, ?amax, ?amov, ?asel, ?amovk, ?acmp⟩
  case amin => exact accessResult_of (fun _ => rfl) (by funext _ a b c; simp only [onInts, Int.min_def])
  case amax => exact accessResult_of (fun _ => rfl) (by funext _ a b c; simp only [onInts, Int.max_def])
  case amovk => exact accessResult_of (fun _ => rfl) (by simp only [immK_eq])
  case acmp =>
    intro s q d0 d1
    dsimp only
    intro ha ht hp
    refine retires_putAt rfl ha ht ?_
    simp only [acmpReduce_eq, condHolds_eq, combine_eq, intCmp]
    exact hp
  all_goals exact accessResult_of (fun _ => rfl) rfl

/-! ### Sources (R219, R232, R254). -/

section
variable {m : Memory} {d : Dev} {t : Ty} {lanes : W32} {code : BitVec 8}

theorem takeSrc_inl {z : Int} (hc : opd code = .inl z) : Runs (takeSrc t lanes code) m d (.inl z) d := by
  unfold takeSrc Runs
  rw [hc]
  rfl

theorem takeSrc_zero (hc : opd code = .zero) : Runs (takeSrc t lanes code) m d .zero d := by
  unfold takeSrc Runs
  rw [hc]
  rfl

theorem checkShorts_free {rs : List Nat} (hk : (me d).chk = false) :
    ∃ u, runAct (rs.mapM (fun r => checkShort r lanes)) m d = .ok (u, d) := by
  induction rs with
  | nil => exact ⟨[], rfl⟩
  | cons r rs ih =>
    obtain ⟨u, hu⟩ := ih
    refine ⟨() :: u, ?_⟩
    rw [List.mapM_cons, runAct_bind_ok (checkShort_free hk), runAct_bind_ok hu]
    rfl

/-- A register is taken as it is named, where pending writes are not checked (R229). -/
theorem takeSrc_reg (hc : (∃ n, opd code = .v n) ∨ (∃ n, opd code = .a n) ∨ ∃ n, opd code = .s n) (hk : (me d).chk = false) :
    Runs (takeSrc t lanes code) m d (.reg code.toNat) d := by
  obtain ⟨u, hu⟩ := checkShorts_free (rs := srcRegs t code) (m := m) (lanes := lanes) hk
  unfold takeSrc Runs
  obtain ⟨n, hn⟩ | ⟨n, hn⟩ | ⟨n, hn⟩ := hc
  all_goals
    rw [hn]
    exact (runAct_bind_ok hu).trans rfl

theorem takeSrc_qd {r : Row} {q : List Row} (hc : opd code = .qd) (hq : (mySplit d).qd = r :: q) :
    Runs (takeSrc t lanes code) m d (.row r) (setMySplit d { mySplit d with qd := q }) := by
  unfold takeSrc Runs
  rw [hc]
  exact runAct_bind_ok (popQd_oldest hq)

theorem takeSrc_qv {r : Row} {q : List Row} (hc : opd code = .qv) (hq : (mySplit d).qv = r :: q) :
    Runs (takeSrc t lanes code) m d (.row r) (setMySplit d { mySplit d with qv := q }) := by
  unfold takeSrc Runs
  rw [hc]
  exact runAct_bind_ok (popQv_oldest hq)

theorem takeSrc_peek {r : Row} {q : List Row} (hc : opd code = .qdPeek) (hq : (mySplit d).qd = r :: q) :
    Runs (takeSrc t lanes code) m d (.row r) d := by
  unfold takeSrc Runs
  rw [hc]
  exact runAct_bind_ok (peekQd_head (headQd_oldest hq))

end

/-- What an a or s register code names (R219). -/
theorem regAS_cases {code : BitVec 8} (hc : regAS code = true) : (∃ n, opd code = .a n) ∨ ∃ n, opd code = .s n := by
  rw [regAS, regA, regS] at hc
  cases ho : opd code with
  | a n => exact .inl ⟨n, rfl⟩
  | s n => exact .inr ⟨n, rfl⟩
  | _ => simp [ho] at hc

theorem sourceForms : SourceForms := by
  intro m d x s t lanes code l
  exact ⟨fun z hc => ⟨takeSrc_inl hc, rfl, rfl⟩, fun hc => ⟨takeSrc_zero hc, rfl, rfl⟩,
    fun r q hc hq => ⟨takeSrc_qd hc hq, rfl, rfl⟩, fun r q hc hq => takeSrc_qv hc hq, fun r q hc hq => takeSrc_peek hc hq,
    fun hc hk => takeSrc_reg (.inr (regAS_cases hc)) hk, fun n hc hk => takeSrc_reg (.inl ⟨n, hc⟩) hk, fun c => ⟨rfl, rfl⟩⟩

/-! ### Destinations (R219, R228, R232). -/

section
variable {m : Memory} {d : Dev} {t : Ty} {lat n : Nat} {mask : W32} {code : BitVec 8} {f : Nat → W64}

theorem putX_pair (hc : opd code = .v n) (ht : tyBits t = 64) : Runs (putX t lat mask code f) m d ()
    (setReg (setReg d n lat false mask (fun l => ((f l).setWidth 32).setWidth 64)) (n + 1) lat false mask (fun l => f l >>> 32)) := by
  unfold putX Runs
  rw [hc]
  dsimp only
  rw [if_pos ht]
  rfl

theorem putX_v (hc : opd code = .v n) (ht : tyBits t ≠ 64) :
    Runs (putX t lat mask code f) m d () (setReg d n lat false mask (fun l => writeTy t (f l))) := by
  unfold putX Runs
  rw [hc]
  dsimp only
  rw [if_neg ht]
  rfl

theorem putX_qv (hc : opd code = .qv) (hq : (mySplit d).qv.length < 16) : Runs (putX t lat mask code f) m d ()
    (setMySplit d { mySplit d with qv := (mySplit d).qv ++ [rowOf mask (fun l => if tyBits t = 64 then f l else writeTy t (f l))] }) := by
  unfold putX Runs
  rw [hc]
  exact pushQv_appends hq

theorem putX_zero (hc : opd code = .zero) : Runs (putX t lat mask code f) m d () d := by
  unfold putX Runs
  rw [hc]
  rfl

theorem putA_a (hc : opd code = .a n) : Runs (putA lat mask code f) m d () (setReg d code.toNat lat true mask f) := by
  unfold putA Runs
  rw [hc]
  rfl

theorem putA_s (hc : opd code = .s n) : Runs (putA lat mask code f) m d ()
    (setReg d code.toNat lat true mask (fun _ => f ((lowLane mask).getD 0))) := by
  unfold putA Runs
  rw [hc]
  rfl

theorem putA_qd (hc : opd code = .qd) (hq : (mySplit d).qd.length < 16) : Runs (putA lat mask code f) m d ()
    (setMySplit d { mySplit d with qd := (mySplit d).qd ++ [rowOf mask f] }) := by
  unfold putA Runs
  rw [hc]
  exact pushQd_appends hq

theorem putA_zero (hc : opd code = .zero) : Runs (putA lat mask code f) m d () d := by
  unfold putA Runs
  rw [hc]
  rfl

end

theorem destinationForms : DestinationForms := by
  intro m d t lat mask code f b
  exact ⟨fun n => putX_pair, fun n => putX_v, putX_qv, fun hc => ⟨putX_zero hc, putA_zero hc⟩, fun n => putA_a, fun n => putA_s,
    putA_qd, rfl, rfl⟩

/-! ### Predicates (R212, R220). -/

theorem getLsbD_trueLanes (x : Wave) (s : Split) (code : Nat) {l : Nat} (hl : l < 32) :
    (trueLanes x s code).getLsbD l = decide (regLane x s code l ≠ 0) := by
  rw [trueLanes, getLsbD_maskOf _ hl]
  simp [hl]

section
variable {m : Memory} {d : Dev} {h : Head} {exe : Bool}

/-- Under predicate 0 a word acts in every active lane, or inverted in none. -/
theorem acting_always (hn : h.ps.toNat = 0) :
    Runs (acting h exe) m d (if h.pn = 1 then 0 else (mySplit d).mask) d := by
  unfold acting Runs
  rw [runAct_bind_ok (runAct_dev m d)]
  dsimp only
  rw [if_pos hn]
  rfl

theorem acting_pred (hn : h.ps.toNat ≠ 0) (hk : (me d).chk = false) :
    let t := trueLanes (me d) (mySplit d) (if exe then 0x100 + h.ps.toNat else 0x108 + h.ps.toNat)
    Runs (acting h exe) m d ((mySplit d).mask &&& (if h.pn = 1 then ~~~t else t)) d := by
  dsimp only
  unfold acting Runs
  rw [runAct_bind_ok (runAct_dev m d)]
  dsimp only
  rw [if_neg hn]
  exact runAct_bind_ok (checkShort_free hk)

end

theorem predicatesChooseLanes : PredicatesChooseLanes := by
  intro m d h exe hk
  dsimp only
  by_cases hn : h.ps.toNat = 0
  · refine ⟨_, acting_always hn, fun l hl => ?_⟩
    by_cases hp : h.pn = 1
    · rw [if_pos hp, hp]
      simp [hn]
    · rw [if_neg hp, beq_false_of_ne hp]
      simp [hn]
  · refine ⟨_, acting_pred hn hk, fun l hl => ?_⟩
    by_cases hp : h.pn = 1
    · rw [if_pos hp, hp, BitVec.getLsbD_and, BitVec.getLsbD_not, getLsbD_trueLanes _ _ _ hl]
      simp [hn, hl]
    · rw [if_neg hp, beq_false_of_ne hp, BitVec.getLsbD_and, getLsbD_trueLanes _ _ _ hl]
      simp [hn]

/-- Settles O43: each form of a source, of a destination and of a predicate, by the code that names it. -/
theorem operandForms : Obligations.OperandForms := ⟨sourceForms, destinationForms, predicatesChooseLanes⟩

end Sys2Proof.Machine
end

section
/-!
SUPPORT. Traps (spec/12_traps_preemption.md R196 to R201, spec/13_encoding.md R229, R231, spec/17_isa_copy_task_system.md R340): who
takes one, the record of it, the words that raise one and the return from a handler; and what an early read sees.
-/
namespace Sys2Proof.Machine
open Sys2Proof.Claims

/-! ### Early reads (R229). -/

section
variable {file : W64} {k : Nat} {p : Pend} {r : List Pend}

/-- With every pending write short, the youngest value that a read sees is the one before the oldest write. -/
theorem seen_short (h : ∀ q ∈ p :: r, ¬ q.lat ≤ q.dist) : seen file k (p :: r) = lane p.old k := by
  obtain ⟨hp, hr⟩ := List.forall_mem_cons.1 h
  unfold seen
  rw [if_neg (by simpa using hr), if_neg hp]

/-- A satisfied write with only short ones after it decides: the value before the next one, or the file's. -/
theorem seen_satisfied (hp : p.lat ≤ p.dist) (hr : ∀ q ∈ r, ¬ q.lat ≤ q.dist) :
    seen file k (p :: r) = (r.head?.map (fun q => lane q.old k)).getD file := by
  unfold seen
  rw [if_neg (by simpa using hr), if_pos hp]
  cases r <;> rfl

/-- Writes before a satisfied one do not matter. -/
theorem seen_append (hp : p.lat ≤ p.dist) (a : List Pend) : seen file k (a ++ p :: r) = seen file k (p :: r) := by
  induction a with
  | nil => rfl
  | cons b a ih =>
    rw [List.cons_append, seen.eq_def]
    dsimp only
    rw [if_pos (by simp [hp]), ih]

end

/-- Settles O10: by the pending writes before and after the youngest satisfied one. -/
theorem earlyReadsSeeOldValues : Obligations.EarlyReadsSeeOldValues := by
  intro x s code l
  refine ⟨fun h => ?none, fun p r h hs => ?short, fun a p r h hp hr => ?satisfied⟩
  all_goals
    unfold regLane
    rw [h]
  case none => rfl
  case short => exact seen_short (h ▸ hs)
  case satisfied =>
    rw [seen_append hp, seen_satisfied hp hr]
    cases r <;> rfl

/-! ### Taking a trap (R199 to R201). -/

section
variable {t : Trap}

theorem isLocal_of (hr : replayable t = false) (hb : t.cause ≠ 0x16) : isLocal t = true := by
  unfold isLocal
  rw [hr]
  exact decide_eq_true hb

theorem isLocal_brk (hb : t.cause = 0x16) : isLocal t = false := by
  unfold isLocal
  rw [hb]
  exact Bool.and_false _

/-- A trap that is not replayable goes on to the question who handles it. -/
theorem not_replays (hr : replayable t = false) : ¬ (replayable t && !false) = true := by
  rw [hr]
  exact Bool.false_ne_true

end

/-- Settles O13: by the branches in which a precise trap is taken. -/
theorem trapsAreTaken : Obligations.TrapsAreTaken := by
  intro m d0 w sp t
  refine ⟨fun hr hj => ?opens, fun hr hj => ?joins, fun hr hb hbase hh => ?handled, fun hr ho => ?held⟩
  case opens => exact (if_pos (by rw [hr]; rfl)).trans (if_pos hj)
  case joins => exact (if_pos (by rw [hr]; rfl)).trans (if_neg (ne_true_of_eq_false hj))
  case handled =>
    have hin := Option.isSome_eq_false_iff.2 (Option.isNone_iff_eq_none.2 hh)
    refine (if_neg (not_replays hr)).trans (if_pos ?_)
    exact Bool.and_eq_true_iff.2 ⟨Bool.and_eq_true_iff.2 ⟨isLocal_of hr hb, decide_eq_true hbase⟩, congrArg Bool.not hin⟩
  case held =>
    refine (if_neg (not_replays hr)).trans (if_neg fun hc => ?_)
    obtain ⟨hlb, hin⟩ := Bool.and_eq_true_iff.1 hc
    obtain ⟨hl, hb⟩ := Bool.and_eq_true_iff.1 hlb
    rcases ho with hbrk | hbase | hh
    · exact ne_true_of_eq_false (isLocal_brk hbrk) hl
    · exact of_decide_eq_true hb hbase
    · exact Bool.false_ne_true ((congrArg Bool.not hh).symm.trans hin)

/-! ### The record of a trap (R198). -/

/-- A field of `w` bits at bit `k`. -/
def recField (n w k : Nat) : W64 := w64 (n % 2 ^ w) <<< k

theorem bitAt_eq_recField (b : Bool) (k : Nat) : bitAt b k = recField b.toNat 1 k := by
  cases b
  · simp [bitAt, recField, w64]
  · rfl

theorem setWidth_shift_eq_recField (x : BitVec 8) (k : Nat) : x.setWidth 64 <<< k = recField x.toNat 8 k := by
  unfold recField w64
  congr 1
  apply BitVec.eq_of_toNat_eq
  have := x.isLt
  simp only [BitVec.toNat_setWidth, BitVec.toNat_ofNat]
  omega

theorem bits_or {n : Nat} (x y : BitVec n) (hi lo : Nat) : bits (x ||| y) hi lo = bits x hi lo ||| bits y hi lo := by
  simp only [bits, BitVec.toNat_or, Nat.shiftRight_or_distrib, Nat.or_mod_two_pow]

section
variable {n w k hi lo : Nat}

theorem toNat_recField (h : k + w ≤ 64) : (recField n w k).toNat = n % 2 ^ w * 2 ^ k := by
  have hlt : n % 2 ^ w * 2 ^ k < 2 ^ (w + k) := by
    rw [Nat.pow_add]
    exact Nat.mul_lt_mul_of_pos_right (Nat.mod_lt _ (Nat.two_pow_pos w)) (Nat.two_pow_pos k)
  have h64 : 2 ^ (w + k) ≤ 2 ^ 64 := Nat.pow_le_pow_right (by decide) (by omega)
  have hn : n % 2 ^ w < 2 ^ 64 := Nat.lt_of_lt_of_le (Nat.mod_lt _ (Nat.two_pow_pos w)) (Nat.pow_le_pow_right (by decide) (by omega))
  rw [recField, w64, BitVec.toNat_shiftLeft, BitVec.toNat_ofNat, Nat.mod_eq_of_lt hn, Nat.shiftLeft_eq,
    Nat.mod_eq_of_lt (Nat.lt_of_lt_of_le hlt h64)]

/-- A field read at its own bits. -/
theorem bits_recField_at (h : k + w ≤ 64) (hw : hi + 1 = k + w) : bits (recField n w k) hi k = n % 2 ^ w := by
  rw [bits, toNat_recField h, Nat.shiftRight_eq_div_pow, Nat.mul_div_cancel _ (Nat.two_pow_pos k), hw, Nat.add_sub_cancel_left,
    Nat.mod_mod]

/-- A field read below its bits. -/
theorem bits_recField_below (h : k + w ≤ 64) (hl : lo ≤ hi) (hk : hi < k) : bits (recField n w k) hi lo = 0 := by
  obtain ⟨j, rfl⟩ : ∃ j, k = lo + (hi + 1 - lo) + j := ⟨k - (hi + 1), by omega⟩
  rw [bits, toNat_recField h, Nat.shiftRight_eq_div_pow, Nat.pow_add, Nat.pow_add, ← Nat.mul_assoc, ← Nat.mul_assoc,
    Nat.mul_right_comm _ (2 ^ lo), Nat.mul_right_comm _ (2 ^ lo), Nat.mul_div_cancel _ (Nat.two_pow_pos lo),
    Nat.mul_right_comm]
  exact Nat.mul_mod_left _ _

/-- A field read above its bits. -/
theorem bits_recField_above (h : k + w ≤ 64) (hl : k + w ≤ lo) : bits (recField n w k) hi lo = 0 := by
  have hlt : n % 2 ^ w * 2 ^ k < 2 ^ lo := by
    refine Nat.lt_of_lt_of_le ?_ (Nat.pow_le_pow_right (by decide) (show w + k ≤ lo by omega))
    rw [Nat.pow_add]
    exact Nat.mul_lt_mul_of_pos_right (Nat.mod_lt _ (Nat.two_pow_pos w)) (Nat.two_pow_pos k)
  rw [bits, toNat_recField h, Nat.shiftRight_eq_div_pow, Nat.div_eq_of_lt hlt, Nat.zero_mod]

end

/-- Word 0 of a record, by its fields. -/
theorem recordWords_word0 (d : Dev) (ctx w sp pc clock : Nat) (t : Trap) (f : RecFlags) :
    nth (recordWords d ctx (some (w, sp)) pc clock t f) 0 0 =
      recField ctx 16 48 ||| (recField (vcoreOf d (waveOf d w)) 8 40 ||| recField (waveOf d w).widx 4 36 |||
        recField (ordOf (waveOf d w) sp) 2 34 ||| recField (waveOf d w).stage 2 32) ||| recField f.cont.toNat 1 30 |||
        recField f.handler.toNat 1 29 ||| recField f.orphan.toNat 1 28 ||| recField f.external.toNat 1 27 |||
        recField f.replay.toNat 1 26 ||| recField f.async.toNat 1 25 ||| recField t.sub.toNat 8 16 |||
        recField t.cause.toNat 8 0 := by
  simp only [← bitAt_eq_recField, ← setWidth_shift_eq_recField, BitVec.shiftLeft_zero]
  rfl

/-- Settles O14: word 0 is an OR of fields that do not meet, each read at its own bits; the other words are as they stand. -/
theorem recordLayout : Obligations.RecordLayout := by
  intro d ctx w sp pc clock t f
  dsimp only
  rw [recordWords_word0]
  have hcause : t.cause.toNat % 256 = t.cause.toNat := Nat.mod_eq_of_lt t.cause.isLt
  have hsub : t.sub.toNat % 256 = t.sub.toNat := Nat.mod_eq_of_lt t.sub.isLt
  have hbool : ∀ b : Bool, b.toNat % 2 = b.toNat := by decide
  refine ⟨rfl, ?_, ?_, ?_, ?_, ?_, ?_, ?_, ?_, ?_, ?_, ?_, ?_, ?_, ?_, ?_, ?_, rfl, rfl, rfl, rfl, rfl, rfl, rfl⟩
  all_goals
    simp only [bits_or]
    simp (disch := omega) only [bits_recField_at, bits_recField_below, bits_recField_above, Nat.zero_or, Nat.or_zero,
      Nat.reducePow, hcause, hsub, hbool]

/-! ### The words that trap, and the return from a handler (R200, R231, R340). -/

theorem trapInstructions : TrapInstructions := by
  intro h f s w
  refine ⟨fun ha => traps_of rfl ha rfl, fun ha => traps_of rfl ha rfl, illegal_of (codes := []) rfl rfl, fun hn => ?_⟩
  constructor
  all_goals
    intro ha
    refine traps_of rfl ha ?_
    rw [runAct_bind_ok (runAct_dev _ _), hn]
    rfl

theorem handlersReturn : HandlersReturn := by
  intro h f s k hk
  refine ⟨fun ha hn => ?plain, fun ha h1 h2 h3 word e hw => ?skip, rfl, rfl, rfl, rfl, rfl, rfl,
    fun d2 ha hd => ?rdtr⟩
  case plain =>
    refine becomes_of rfl ha ?_
    rw [runAct_bind_ok (runAct_dev _ _), hk]
    refine (runAct_bind_ok (runAct_upd _ _ _)).trans ?_
    dsimp only
    rw [if_neg (by simpa using hn)]
    rfl
  case skip =>
    refine becomes_of rfl ha ?_
    rw [runAct_bind_ok (runAct_dev _ _), hk]
    refine (runAct_bind_ok (runAct_upd _ _ _)).trans ?_
    dsimp only
    rw [if_pos (by simp [h1, h2, h3])]
    exact (runAct_bind_ok hw).trans rfl
  case rdtr =>
    refine retires_of rfl ha ?_
    rw [runAct_bind_ok (runAct_dev _ _), hk]
    exact runAct_bind_ok hd

/-- Settles O45: the words that trap by their bodies, the return by the branches of `tret`. -/
theorem trapsAndReturns : Obligations.TrapsAndReturns := ⟨trapInstructions, handlersReturn⟩

end Sys2Proof.Machine
end

section
/-!
SUPPORT. Little-endian numbers and words of stored bytes (spec/00_scope.md R8), and the state of a phaser
(spec/15_isa_memory.md R282, R284).
-/
namespace Sys2Proof.Machine
open Sys2Proof.Claims

/-! ### Bytes as numbers (R8). -/

@[simp] theorem natBytes_length (n x : Nat) : (natBytes n x).length = n := by
  induction n generalizing x with
  | zero => rfl
  | succ n ih => rw [natBytes, List.length_cons, ih]

/-- The low bytes of a number spell it modulo their range. -/
theorem leNat_natBytes (n x : Nat) : leNat (natBytes n x) = x % 256 ^ n := by
  induction n generalizing x with
  | zero => simp [natBytes, leNat, Nat.mod_one]
  | succ n ih =>
    rw [natBytes, leNat, ih, BitVec.toNat_ofNat, show 256 ^ (n + 1) = 256 * 256 ^ n from Nat.pow_succ']
    exact Nat.mod_mul.symm

theorem drop_natBytes (n k x : Nat) : (natBytes n x).drop k = natBytes (n - k) (x / 256 ^ k) := by
  induction k generalizing n x with
  | zero => simp
  | succ k ih =>
    cases n with
    | zero => simp [natBytes]
    | succ n => rw [natBytes, List.drop_succ_cons, ih, Nat.add_sub_add_right, Nat.div_div_eq_div_mul, Nat.pow_succ']

theorem take_natBytes {n k : Nat} (h : k ≤ n) (x : Nat) : (natBytes n x).take k = natBytes k x := by
  induction k generalizing n x with
  | zero => simp [natBytes]
  | succ k ih =>
    obtain ⟨n, rfl⟩ : ∃ j, n = j + 1 := ⟨n - 1, by omega⟩
    rw [natBytes, natBytes, List.take_succ_cons, ih (by omega)]

/-- The word that bytes spell is their number. -/
theorem leWord_eq_leNat (bs : List Byte) : leWord bs = BitVec.ofNat 64 (leNat bs) := by
  induction bs with
  | nil => rfl
  | cons b r ih =>
    have hb := b.isLt
    rw [leWord, leNat, ih, ← BitVec.add_eq_or_of_and_eq_zero]
    · apply BitVec.eq_of_toNat_eq
      simp only [BitVec.toNat_add, BitVec.toNat_shiftLeft, BitVec.toNat_setWidth, BitVec.toNat_ofNat, Nat.shiftLeft_eq]
      omega
    · apply BitVec.eq_of_getLsbD_eq
      intro i hi
      rw [BitVec.getLsbD_and, BitVec.getLsbD_shiftLeft, BitVec.getLsbD_setWidth]
      by_cases h8 : i < 8
      · simp [h8]
      · simp [BitVec.getLsbD_of_ge b i (by omega)]

/-- A part of the bytes that a step has stored reads back. -/
theorem rdBytes_wrBytes_part (m : Memory) (d : Dev) (k : Nat) {j n : Nat} {bs : List Byte} (h : j + n ≤ bs.length) :
    rdBytes m (wrBytes d k bs) (k + j) n = (bs.drop j).take n := by
  apply List.ext_getElem
  · simp [rdBytes]
    omega
  · intro i hi _
    have hin : i < n := by simpa [rdBytes] using hi
    simp only [rdBytes, List.getElem_map, List.getElem_range]
    rw [rdByte_wrBytes_stored _ _ _ _ _ (by omega)]
    simp [Nat.add_assoc]

/-- A word among the stored bytes of a number. -/
theorem rd64_wrBytes_natBytes (m : Memory) (d : Dev) (k x : Nat) {i n : Nat} (h : 8 * i + 8 ≤ n) :
    rd64 m (wrBytes d k (natBytes n x)) (k + 8 * i) = BitVec.ofNat 64 (x / 256 ^ (8 * i)) := by
  rw [rd64, rdBytes_wrBytes_part _ _ _ (by rw [natBytes_length]; exact h), drop_natBytes, take_natBytes (by omega),
    leWord_eq_leNat, leNat_natBytes]
  apply BitVec.eq_of_toNat_eq
  simp only [BitVec.toNat_ofNat]
  omega

/-! ### The arithmetic of a phaser (R284). -/

theorem phReached_iff (p : Phaser) (k : BitVec 32) : phReached p k = true ↔ (p.phase - k).toNat < 2 ^ 31 := by
  rw [phReached, BitVec.msb_eq_decide]
  simp

theorem phaserArithmetic : PhaserArithmetic := by
  intro p k
  dsimp only
  by_cases h : p.any = true ∨ p.parties = 0
  · have hq : phAdvance p = p := if_pos (by simpa using h)
    rw [hq]
    refine ⟨fun ha hn => ?_, fun _ => rfl, rfl, rfl, rfl, phReached_iff p k⟩
    exact (h.elim (ne_true_of_eq_false ha) hn).elim
  · have hq : phAdvance p = { p with
        arrived := p.arrived % p.parties, phase := p.phase + BitVec.ofNat 32 (p.arrived / p.parties) } := if_neg (by simpa using h)
    rw [hq]
    exact ⟨fun _ hn => ⟨Nat.mod_lt _ (Nat.pos_of_ne_zero hn), Nat.mod_add_div _ _, rfl⟩, fun hc => absurd hc h, rfl, rfl, rfl,
      phReached_iff p k⟩

/-! ### The layout of a phaser (R282). -/

/-- QSTATE of a phaser as a number. -/
def phaserNat (p : Phaser) : Nat :=
  2 ^ 255 + (if p.any then 2 ^ 144 else 0) + p.parties % 2 ^ 16 * 2 ^ 128 + p.arrived % 2 ^ 16 * 2 ^ 112 +
    p.waiters % 2 ^ 16 * 2 ^ 96 + p.epoch.toNat * 2 ^ 64 + p.phase.toNat * 2 ^ 32

theorem phaserBytes_eq (p : Phaser) : phaserBytes p = natBytes 32 (phaserNat p) := rfl

section
variable (m : Memory) (d : Dev) (n : Nat) (p : Phaser)

theorem phaserNat_lt : phaserNat p < 2 ^ 256 := by
  have h1 := p.epoch.isLt
  have h2 := p.phase.isLt
  unfold phaserNat
  split <;> omega

theorem qstateNat_countWaiters : qstateNat m (countWaiters d n p) n = phaserNat p := by
  have h := rdBytes_wrBytes m (forgetHost d n) (n * 64 + 32) (phaserBytes p)
  rw [phaserBytes_eq, natBytes_length] at h
  rw [qstateNat, countWaiters, phaserBytes_eq, h, leNat_natBytes]
  exact Nat.mod_eq_of_lt (phaserNat_lt p)

theorem phaserOf_countWaiters (h1 : p.parties < 2 ^ 16) (h2 : p.arrived < 2 ^ 16) (h3 : p.waiters < 2 ^ 16) :
    phaserOf m (countWaiters d n p) n = p := by
  have he := p.epoch.isLt
  have hp := p.phase.isLt
  have hepoch : BitVec.ofNat 32 (phaserNat p / 2 ^ 64) = p.epoch := by
    apply BitVec.eq_of_toNat_eq
    rw [BitVec.toNat_ofNat]
    unfold phaserNat
    split <;> omega
  have hphase : BitVec.ofNat 32 (phaserNat p / 2 ^ 32) = p.phase := by
    apply BitVec.eq_of_toNat_eq
    rw [BitVec.toNat_ofNat]
    unfold phaserNat
    split <;> omega
  have hany : (phaserNat p / 2 ^ 144 % 2 = 1) = (p.any = true) := by
    unfold phaserNat
    cases p.any
    · simp only [Bool.false_eq_true, if_false, eq_iff_iff, iff_false]
      omega
    · simp only [if_true, eq_iff_iff, iff_true]
      omega
  unfold phaserOf
  rw [qstateNat_countWaiters]
  simp only [hepoch, hphase, hany]
  rw [show phaserNat p / 2 ^ 128 % 2 ^ 16 = p.parties by unfold phaserNat; split <;> omega,
    show phaserNat p / 2 ^ 112 % 2 ^ 16 = p.arrived by unfold phaserNat; split <;> omega,
    show phaserNat p / 2 ^ 96 % 2 ^ 16 = p.waiters by unfold phaserNat; split <;> omega]
  simp

theorem rd64_countWaiters {i : Nat} (hi : i < 4) :
    rd64 m (countWaiters d n p) (n * 64 + 32 + 8 * i) = BitVec.ofNat 64 (phaserNat p / 256 ^ (8 * i)) :=
  rd64_wrBytes_natBytes m _ _ _ (by omega)

end

theorem phaserLayout : PhaserLayout := by
  intro m d n p h1 h2 h3
  have he := p.epoch.isLt
  have hp := p.phase.isLt
  refine ⟨phaserOf_countWaiters m d n p h1 h2 h3, ⟨?_, ?_, ?_, ?_⟩, fun i hi => ?half⟩
  case half =>
    rw [countWaiters, rdByte_wrBytes _ _ _ _ _ (by omega)]
    rfl
  all_goals
    dsimp only
    rw [rd64_countWaiters _ _ _ _ (by decide)]
    apply BitVec.eq_of_toNat_eq
    simp only [BitVec.toNat_ofNat, BitVec.toNat_shiftLeft, BitVec.toNat_setWidth, Nat.shiftLeft_eq, w64, phaserNat]
    split <;> omega

/-- Settles O57: the advance by whether it takes rounds; the layout by the number that the stored bytes spell. -/
theorem phaserState : Obligations.PhaserState := ⟨phaserArithmetic, phaserLayout⟩

end Sys2Proof.Machine
end

section
/-!
SUPPORT. The state after reset, and waves at their start (spec/23_software_controller.md R191, spec/24_host_and_fabric.md R374).
-/
namespace Sys2Proof.Machine
open Sys2Proof.Claims

/-- Settles O5: after reset memory is empty and no store is left over. -/
theorem resetInv : Obligations.ResetInv := ⟨rfl, rfl⟩

/-! ### Reset. -/

/-- Every core is as a fresh one after reset. -/
theorem coreOf_reset (c : Nat) : coreOf State.reset.dev c = {} := by
  change ((List.replicate 216 ({} : Core))[c]?).getD {} = {}
  rw [List.getElem?_replicate]
  split <;> rfl

/-- Below stage 5 only the identity and status block answers (R373). -/
theorem regRead_early {d : Dev} (h : d.regs.stage ≠ 5) (off : Nat) : regRead d (0x1000 + off) 8 = 0 := by
  have hw : regWord d (0x1000 + off) = 0 := by
    rw [regWord, if_neg (by omega), if_pos h]
  rw [regRead, hw]
  split
  · rfl
  · rw [if_neg (by omega)]

/-- The values after reset (R374). -/
theorem resetValues : ResetValues :=
  ⟨rfl, rfl, rfl, rfl, rfl, rfl, rfl, rfl, rfl, rfl, rfl, fun c _ => by rw [coreOf_reset], fun _ => rfl, rfl, rfl, rfl,
    fun _ _ => rfl, fun _ _ => rfl, fun off _ => regRead_early (by decide) off, rfl⟩

/-! ### The start of a wave. -/

/-- A table filled from a list of keys holds its value at each of them. -/
theorem look_foldl_put {α : Type} [DecidableEq α] {d : α} (f : Nat → α) (ks : List Nat) (t : Sparse α) (k : Nat) :
    look d (ks.foldl (fun r i => put d r i (f i)) t) k = if k ∈ ks then f k else look d t k := by
  induction ks generalizing t with
  | nil => simp
  | cons i ks ih =>
    rw [List.foldl_cons, ih, look_put]
    by_cases hk : k ∈ ks
    · simp [hk]
    · by_cases hi : k = i <;> simp [hk, hi]

/-- The s registers of a wave start with its arguments, and zero past them (R191). -/
theorem look_arguments (args : List W64) (i : Nat) :
    look 0 ((List.range args.length).foldl (fun r i => put 0 r i (nth args i 0)) []) i = nth args i 0 := by
  rw [look_foldl_put]
  by_cases hi : i < args.length
  · rw [if_pos (List.mem_range.2 hi)]
  · rw [if_neg (fun h => hi (List.mem_range.1 h)), nth, List.getElem?_eq_none (by omega)]
    rfl

/-- Lane l of the random state starts at l + 1 (R85). -/
theorem freshRss : ∀ l < 32, nth ((List.range 32).map (fun l => BitVec.ofNat 32 (l + 1))) l 0 = BitVec.ofNat 32 (l + 1) := by
  intro l hl
  simp [nth, hl]

/-- The registers of a wave whose files are fresh but for its arguments. -/
theorem startsFresh_of {x : Wave} {args : List W64} (hs : ∀ i, look 0 x.s i = nth args i 0)
    (hx : x = { ({} : Wave) with
      ctx := x.ctx, launch := x.launch, set := x.set, widx := x.widx, stage := x.stage, vidx := x.vidx, vblk := x.vblk, fo := x.fo,
      vstamp := x.vstamp, s := x.s, splits := x.splits, rframe := x.rframe, rjoff := x.rjoff, cframe := x.cframe, cjoff := x.cjoff,
      depth := x.depth }) : StartsFresh x args := by
  have hv : x.v = [] := by rw [hx]
  have ha : x.a = [] := by rw [hx]
  have hp : x.p = [] := by rw [hx]
  have hg : x.g = 1 := by rw [hx]
  have hrss : x.rss = (List.range 32).map (fun l => BitVec.ofNat 32 (l + 1)) := by rw [hx]
  refine ⟨fun code l hc => ?_, fun i hi => ?_, fun code l hlo hhi => ?_, fun l => rfl, rfl, fun code hlo hhi => ?_, ?_, ?_⟩
  · by_cases h : code < 0x80
    · rw [fileLane_v _ h, hv]; rfl
    · rw [fileLane_a _ (by omega) hc, ha]; rfl
  · rw [fileLane_s _ (by omega) (by omega), Nat.add_sub_cancel_left, hs]
  · rw [fileLane_p _ (by omega) hhi, hp]
    simp [look]
  · rw [fileLane_g _ (by omega), hg]
    exact if_neg (by simp [BitVec.getLsbD_one, show code - 0x108 ≠ 0 by omega])
  · rw [hrss]; exact freshRss
  · rw [hx]
    exact ⟨rfl, rfl, rfl, rfl, rfl, rfl, rfl, rfl, rfl, rfl, rfl, rfl, rfl, rfl, rfl, rfl⟩

/-- A wave at its start (R191). -/
theorem newWave_fresh (x : Launch) (l t widx stage vidx vblk : Nat) (args : List W64) (code : W64) (vstamp clock : Nat) :
    StartsFresh (newWave x l t widx stage vidx vblk args code vstamp clock) args :=
  startsFresh_of (look_arguments args) rfl

/-- A number of 64 bits as a word. -/
theorem toNat_w64_low {n : Nat} (x : BitVec n) : (w64 (bits x 63 0)).toNat = bits x 63 0 := by
  rw [w64, BitVec.toNat_ofNat]
  exact Nat.mod_eq_of_lt (bits_lt ..)

/-- The waves of a team, and of a continuation record (R191, R177, R333). -/
theorem waveStartValues : WaveStartValues := by
  refine ⟨fun x l t widx stage vidx vblk args code vstamp clock => ?_, fun m l i lcl k d j => ⟨_, rfl⟩, fun m d r vcore bypass => ?_⟩
  · exact ⟨newWave_fresh .., rfl, rfl, rfl, rfl, rfl, rfl, rfl, rfl, rfl, rfl, rfl⟩
  · refine ⟨_, _, rfl, startsFresh_of (look_arguments _) rfl, rfl, rfl, rfl, ?_, rfl, rfl, rfl⟩
    exact congrArg (fun pc => [({ pc := pc, entering := true, mask := 0xFFFFFFFF#32, clock := r.clock } : Split)])
      (toNat_w64_low r.bits)

/-- Settles O42: the values after reset and at the start of a wave. -/
theorem startValues : Obligations.StartValues := ⟨resetValues, waveStartValues⟩

end Sys2Proof.Machine
end

section
/-!
SUPPORT. Control (spec/14_isa_compute.md R257, R258, spec/10_execution_model.md R166, spec/13_encoding.md R210): what a fetch leaves of
the splits, and the branches, the transfers to targets of lanes and the calls.
-/
namespace Sys2Proof.Machine
open Sys2Proof.Claims

/-! ### What translation leaves of the splits: a walk may wake what waits at its entry, but lanes and stacks stay. -/

/-- The lanes and stacks of a wave's splits. -/
def lanesAndStacks (x : Wave) : List (W32 × List StackEntry) := x.splits.map (fun s => (s.mask, s.stack))

/-- The split that issues, and the lanes and stacks of every wave. -/
def formOf (d : Dev) : (Nat × Nat) × List (List (W32 × List StackEntry)) := (d.cur, d.waves.map lanesAndStacks)

/-- An element that is replaced by one of the same image leaves the images. -/
theorem map_nthSet_same {α β : Type} {f : α → β} {l : List α} {n : Nat} {x e : α} (h : f x = f (nth l n e)) :
    (nthSet l n x).map f = l.map f := by
  by_cases hn : n < l.length
  · rw [nth, List.getElem?_eq_getElem hn, Option.getD_some] at h
    rw [nthSet, List.map_set, h, ← List.getElem_map f (h := by simpa using hn), List.set_getElem_self]
  · rw [nthSet, List.set_eq_of_length_le (Nat.le_of_not_lt hn)]

/-- What each step of a fold keeps, the fold keeps. -/
theorem foldl_keeps {α β : Type} {g : Dev → β} {f : Dev → α → Dev} (h : ∀ d a, g (f d a) = g d) (l : List α) (d : Dev) :
    g (l.foldl f d) = g d := by
  induction l generalizing d with
  | nil => rfl
  | cons a l ih => exact (ih _).trans (h d a)

section
variable (m : Memory) (d : Dev)

theorem formOf_setWave {w : Nat} {x : Wave} (h : lanesAndStacks x = lanesAndStacks (waveOf d w)) :
    formOf (setWave d w x) = formOf d :=
  congrArg (Prod.mk d.cur) (map_nthSet_same h)

theorem lanesAndStacks_setSplitOf {x : Wave} {j : Nat} {q : Split}
    (h : (q.mask, q.stack) = ((splitOf x j).mask, (splitOf x j).stack)) : lanesAndStacks (setSplitOf x j q) = lanesAndStacks x :=
  map_nthSet_same (f := fun s : Split => (s.mask, s.stack)) h

theorem formOf_modSplit {w sp : Nat} {f : Split → Split} (h : ∀ q, ((f q).mask, (f q).stack) = (q.mask, q.stack)) :
    formOf (modSplit d w sp f) = formOf d := formOf_setWave d (lanesAndStacks_setSplitOf (h _))

theorem formOf_moveClock (w sp c : Nat) : formOf (moveClock d w sp c) = formOf d :=
  formOf_setWave d (lanesAndStacks_setSplitOf (q := { splitOf (waveOf d w) sp with clock := c }) rfl)

theorem formOf_wakeClock (w sp e : Nat) : formOf (wakeClock d w sp e) = formOf d := by
  unfold wakeClock
  split
  · exact formOf_moveClock d w sp _
  · rfl

theorem formOf_wake (w sp : Nat) (ans : Row) (e : Nat) : formOf (wake d w sp ans e) = formOf d :=
  (formOf_wakeClock _ w sp e).trans (formOf_modSplit d fun _ => rfl)

theorem formOf_notify (w sp : Nat) (watch : Watch) (ans : Row) (e : Nat) : formOf (notify d w sp watch ans e) = formOf d := by
  cases watch with
  | entry => exact formOf_wake d w sp ans e
  | due _ _ => rfl
  | polled => exact (formOf_wakeClock _ w sp e).trans (formOf_modSplit d fun _ => rfl)

theorem formOf_raiseV (w v : Nat) : formOf (raiseV d w v) = formOf d := formOf_setWave d rfl

theorem formOf_viewWrite (w n : Nat) : formOf (viewWrite d w n) = formOf d := by
  unfold viewWrite
  split
  · exact formOf_raiseV d w _
  · rfl

theorem formOf_tellMonitor (w n e : Nat) : formOf (tellMonitor d w n e) = formOf d := by
  unfold tellMonitor
  split
  · rfl
  · exact (foldl_keeps (fun d i => formOf_wake d w i [] e) _ _).trans ((formOf_viewWrite _ w n).trans (formOf_setWave d rfl))

theorem formOf_wakeMonitors (n e : Nat) : formOf (wakeMonitors d n e) = formOf d := by
  refine foldl_keeps (fun d w => ?_) _ d
  dsimp only
  split
  · split
    · rfl
    · split
      · exact formOf_tellMonitor d w n e
      · split
        · rfl
        · exact (foldl_keeps (fun d i => formOf_wakeClock d w i e) _ _).trans (formOf_setWave d rfl)
  · rfl

theorem formOf_clearReservations (n : Nat) : formOf (clearReservations d n) = formOf d := by
  refine congrArg (Prod.mk d.cur) ?_
  rw [clearReservations, List.map_map]
  refine List.map_congr_left fun x _ => ?_
  rw [Function.comp_apply]
  split <;> rfl

theorem formOf_recallLine (n : Nat) : formOf (recallLine d n) = formOf d := by
  unfold recallLine
  split
  · rfl
  · exact (formOf_wakeMonitors ..).trans ((formOf_clearReservations ..).trans (foldl_keeps (fun d w => formOf_raiseV d w _) _ _))

theorem formOf_recallFrom (n : Nat) (c : Option Nat) : formOf (recallFrom d n c) = formOf d := by
  unfold recallFrom
  split
  · rfl
  · split
    · rfl
    · exact formOf_recallLine d n

theorem formOf_patchLease (w k : Nat) (bs : List Byte) : formOf (patchLease d w k bs) = formOf d := formOf_setWave d rfl

theorem formOf_sawHome (w k n : Nat) : formOf (sawHome m d w k n) = formOf d := by
  unfold sawHome
  split
  · exact formOf_patchLease d w k _
  · unfold dropOwn
    dsimp only
    split <;> rfl

theorem formOf_counterAcquire (w k : Nat) (sc : Scope) : formOf (counterAcquire d w k sc) = formOf d := by
  unfold counterAcquire
  dsimp only
  split
  · exact formOf_setWave d rfl
  · rfl

theorem formOf_wakeCwaits (k e : Nat) : formOf (wakeCwaits m d k e) = formOf d := by
  refine foldl_keeps (fun d p => ?_) _ d
  dsimp only
  split
  · rfl
  · split
    · exact (formOf_notify ..).trans ((formOf_counterAcquire ..).trans (formOf_sawHome m d ..))
    · rfl
  · rfl

theorem formOf_ownCopies (w k t : Nat) (bs : List Byte) : formOf (ownCopies m d w k t bs) = formOf d := formOf_patchLease d w k bs

theorem formOf_stampWrite (who : Who) (k : Nat) (bs : List Byte) : formOf (stampWrite m d who k bs) = formOf d := by
  unfold stampWrite
  dsimp only
  rw [formOf_wakeMonitors, formOf_clearReservations]
  split
  · exact (formOf_ownCopies ..).trans (formOf_raiseV ..)
  · rfl

theorem formOf_grantWrite (who : Who) (k : Nat) (bs : List Byte) (g : Grant) : formOf (grantWrite d who k bs g) = formOf d := by
  have hline : ∀ f, formOf (modLine (clearReservations d (lineNo k)) (lineNo k) f) = formOf d := fun f =>
    formOf_clearReservations d (lineNo k)
  have hlease : ∀ f, formOf (match who.wave with
      | some w => patchLease (modLine (clearReservations d (lineNo k)) (lineNo k) f) w k bs
      | none => modLine (clearReservations d (lineNo k)) (lineNo k) f) = formOf d := fun f => by
    split
    · exact (formOf_patchLease ..).trans (hline f)
    · exact hline f
  have hback : ∀ e, formOf e = formOf d → formOf (if watched e (lineNo k) then recallLine e (lineNo k) else e) = formOf d :=
    fun e he => by
      split
      · exact (formOf_recallLine ..).trans he
      · exact he
  exact hback _ (hlease _)

theorem formOf_homeWrite (who : Who) (k : Nat) (bs : List Byte) : formOf (homeWrite m d who k bs) = formOf d := by
  have hwords : ∀ c f, formOf (modLine (wrBytes (recallFrom d (lineNo k) c) k bs) (lineNo k) f) = formOf d := fun c f =>
    formOf_recallFrom d (lineNo k) c
  unfold homeWrite
  dsimp only
  rw [foldl_keeps (fun d w => formOf_wakeCwaits m d w _)]
  split
  · exact (formOf_grantWrite ..).trans (hwords _ _)
  · exact (formOf_stampWrite ..).trans (hwords _ _)

theorem formOf_markEntry (l : Leaf) : formOf (markEntry m d l) = formOf d := by
  unfold markEntry
  split
  · rfl
  · exact formOf_homeWrite m d ..

end

section
variable {m : Memory} {d e : Dev}

/-- A walk reads tables and changes nothing (R21 to R25). -/
theorem walkFrom_inv {ctx va : Nat} {acc : Access} {lvl table : Nat} {l : Leaf}
    (h : walkFrom ctx va acc lvl table m d = .ok (l, e)) : e = d := by
  induction lvl generalizing table with
  | zero =>
    unfold walkFrom at h
    dsimp only at h
    split at h
    · cases h
    split at h
    · cases h
    split at h
    · cases h
    split at h
    · cases h
    split at h
    · cases h
    split at h
    · cases h
    cases h
    rfl
  | succ lvl ih =>
    unfold walkFrom at h
    dsimp only at h
    split at h
    · cases h
    split at h
    · cases h
    split at h
    · split at h
      · cases h
      · exact ih h
    split at h
    · cases h
    split at h
    · cases h
    split at h
    · cases h
    cases h
    rfl

theorem formOf_walkFor {die ctx va : Nat} {acc : Access} {l : Leaf} (h : walkFor die ctx va acc m d = .ok (l, e)) :
    formOf e = formOf d := by
  unfold walkFor at h
  split at h
  · cases h
  · dsimp only at h
    split at h
    · cases h
    · next hwalk =>
      cases h
      rw [walkFrom_inv hwalk]
      exact formOf_markEntry m _ _

/-- What a translation leaves of the splits (R20 to R26). -/
theorem formOf_translate {core ctx va : Nat} {acc : Access} {l : Leaf} (h : runAct (translate core ctx va acc) m d = .ok (l, e)) :
    formOf e = formOf d := by
  change translate core ctx va acc m d = _ at h
  unfold translate at h
  dsimp only at h
  split at h
  · cases h
  split at h
  · cases h
  split at h
  · split at h
    · cases h; rfl
    · cases h
  · split at h
    · cases h; rfl
    · cases h
  · split at h
    · cases h
    · next hwalk =>
      cases h
      exact (formOf_walkFor hwalk :)

theorem formOf_fetchWord {va : Nat} {w : W64} (h : runAct (fetchWord va) m d = .ok (w, e)) : formOf e = formOf d := by
  unfold fetchWord at h
  obtain ⟨_, _, hdev, h⟩ := runAct_bind_inv h
  cases hdev
  obtain ⟨l, d1, htr, h⟩ := runAct_bind_inv h
  rw [← formOf_translate htr]
  have hread : ∀ {d2 : Dev}, runAct (do pure (leWord (← readKey (leafKey l) 8))) m d1 = .ok (w, d2) → d2 = d1 := by
    intro d2 h
    obtain ⟨_, _, hr, h⟩ := runAct_bind_inv h
    cases hr
    exact (runAct_pure_inv h).2.symm
  split at h
  · rw [hread h]
  · rw [hread h]
  · obtain ⟨_, _, hneed, h⟩ := runAct_bind_inv h
    obtain ⟨-, rfl⟩ := need_inv hneed
    split at h
    · exact congrArg formOf (runAct_pure_inv h).2.symm
    · cases h
  · exact congrArg formOf (runAct_pure_inv h).2.symm

theorem formOf_checkTarget {va : W64} {u : Unit} (h : runAct (checkTarget va) m d = .ok (u, e)) : formOf e = formOf d := by
  unfold checkTarget at h
  obtain ⟨_, _, hneed, h⟩ := runAct_bind_inv h
  obtain ⟨-, rfl⟩ := need_inv hneed
  obtain ⟨_, _, hneed, h⟩ := runAct_bind_inv h
  obtain ⟨-, rfl⟩ := need_inv hneed
  obtain ⟨_, _, hf, h⟩ := runAct_bind_inv h
  obtain ⟨-, rfl⟩ := need_inv h
  exact formOf_fetchWord hf

theorem formOf_fallThrough {next : Option Nat} (h : runAct fallThrough m d = .ok (next, e)) : formOf e = formOf d := by
  unfold fallThrough at h
  obtain ⟨_, _, hdev, h⟩ := runAct_bind_inv h
  cases hdev
  dsimp only at h
  split at h
  · obtain ⟨_, _, hc, h⟩ := runAct_bind_inv h
    cases h
    exact formOf_checkTarget hc
  · cases h
    rfl

end

theorem formOf_countWord (d : Dev) (stl : Nat) (acc exe : Bool) : formOf (countWord d stl acc exe) = formOf d :=
  (formOf_moveClock ..).trans (formOf_setWave d (lanesAndStacks_setSplitOf rfl))

/-! ### Room for a divergence (R166). -/

section
variable {d e : Dev} (h : formOf e = formOf d)
include h

theorem lanesAndStacks_me : lanesAndStacks (me e) = lanesAndStacks (me d) := by
  obtain ⟨hcur, hwaves⟩ := Prod.mk.inj h
  have himage : ∀ (l : List Wave) n, lanesAndStacks (nth l n noWave) = ((l.map lanesAndStacks)[n]?).getD (lanesAndStacks noWave) :=
    fun l n => by rw [nth, List.getElem?_map, Option.getD_map]
  unfold me waveOf
  rw [himage, himage, hwaves, hcur]

theorem runningSplits_me : runningSplits (me e) = runningSplits (me d) := by
  have hcount : ∀ x, runningSplits x = ((lanesAndStacks x).filter (fun p => p.1 ≠ 0)).length := fun x => by
    rw [lanesAndStacks, List.filter_map, List.length_map]
    rfl
  rw [hcount, hcount, lanesAndStacks_me h]

theorem stack_mySplit : (mySplit e).stack = (mySplit d).stack := by
  have hcur : e.cur = d.cur := (Prod.mk.inj h).1
  have himage : ∀ (x : Wave) n, (splitOf x n).stack = (((lanesAndStacks x)[n]?).getD (noSplit.mask, noSplit.stack)).2 := fun x n => by
    rw [splitOf, nth, lanesAndStacks, List.getElem?_map,
      Option.getD_map (fun s : Split => (s.mask, s.stack)) noSplit]
  unfold mySplit
  rw [himage, himage, lanesAndStacks_me h, hcur]

/-- Whether a divergence has room rests on lanes and stacks. -/
theorem roomToDiverge_of_form {m : Memory} {p : Nat} (hr : runAct (roomToDiverge p) m e = .ok ((), e)) :
    runAct (roomToDiverge p) m d = .ok ((), d) := by
  unfold roomToDiverge at hr ⊢
  rw [runAct_bind_ok (runAct_dev _ _), runningSplits_me h, stack_mySplit h] at hr
  rw [runAct_bind_ok (runAct_dev _ _)]
  dsimp only
  rw [(need_inv hr).1]
  rfl

end

/-- A divergence that goes through had room. -/
theorem room_of_diverge {t n : W32} {tpc p : Nat} {m : Memory} {d e : Dev} (h : runAct (diverge t n tpc p) m d = .ok ((), e)) :
    runAct (roomToDiverge p) m d = .ok ((), d) := by
  unfold diverge at h
  obtain ⟨_, _, hr, -⟩ := runAct_bind_inv h
  unfold roomToDiverge at hr ⊢
  obtain ⟨_, _, hdev, hr⟩ := runAct_bind_inv hr
  cases hdev
  rw [runAct_bind_ok (runAct_dev _ _)]
  dsimp only
  rw [(need_inv hr).1]
  rfl

/-! ### Branches (R216, R257, R258). -/

section
variable {h : Head} {acc exe : Bool} {off : BitVec 24} {t : W32} {m : Memory} {d d1 : Dev}

theorem branchOn_none (h0 : t = 0) : runAct (branchOn h acc exe off t) m d = .ok (.retire, d) := by
  unfold branchOn
  rw [runAct_bind_ok (runAct_dev _ _)]
  exact congrArg (runAct · m d) (if_pos h0)

variable (h0 : t ≠ 0) (hc : Runs (checkTarget (targetB (mySplit d) off)) m d () d1)
include h0 hc

theorem branchOn_all (ht : t = (mySplit d).mask) : runAct (branchOn h acc exe off t) m d =
    .ok (.moved, goHeader (countWord d1 h.stl.toNat acc exe) (targetB (mySplit d) off).toNat) := by
  unfold branchOn
  rw [runAct_bind_ok (runAct_dev _ _)]
  dsimp only
  rw [if_neg h0, runAct_bind_ok hc, if_pos ht]
  rfl

/-- The room that the divergence finds after the count stood before it too. -/
theorem branchOn_some (ht : t ≠ (mySplit d).mask) {p : Nat} {d2 d3 d4 : Dev} {next : Option Nat} (hp : Runs reconvOf m d1 p d2)
    (hn : Runs fallThrough m d2 next d3)
    (hd : Runs (diverge t ((mySplit d).mask &&& ~~~t) (targetB (mySplit d) off).toNat p) m (countWord d3 h.stl.toNat acc exe) () d4) :
    runAct (branchOn h acc exe off t) m d = .ok (.moved, match (generalizing := false) next with
      | some b => goHeader d4 b
      | none => setMySplit d4 { mySplit d4 with pc := (mySplit d).pc + 8 }) := by
  have hroom := roomToDiverge_of_form ((formOf_countWord ..).trans (formOf_fallThrough hn)) (room_of_diverge hd)
  unfold branchOn
  rw [runAct_bind_ok (runAct_dev _ _)]
  dsimp only
  rw [if_neg h0, runAct_bind_ok hc, if_neg ht, runAct_bind_ok hp, runAct_bind_ok hroom, runAct_bind_ok hn,
    runAct_bind_ok (runAct_upd _ _ _), runAct_bind_ok hd]
  cases next <;> rfl

end

theorem branches : Branches := by
  intro h f s
  dsimp only
  refine ⟨fun m ha hm => ⟨fun h0 => ?_, fun h0 d1 ht => ?_, fun h0 t ht => ?_⟩, fun c ha hc => ⟨fun h0 => ?_, fun h0 hall d1 ht => ?_,
    fun h0 hsome d1 p d2 next d3 d4 ht hp hn hd => ?_⟩⟩
  · refine retires_of rfl ha ?_
    rw [runAct_bind_ok hm, runAct_bind_ok (runAct_dev _ _), if_pos h0]
    rfl
  · refine becomes_of rfl ha ?_
    rw [runAct_bind_ok hm, runAct_bind_ok (runAct_dev _ _), if_neg h0]
    exact runAct_bind_ok ht
  · refine traps_of rfl ha ?_
    rw [runAct_bind_ok hm, runAct_bind_ok (runAct_dev _ _), if_neg h0]
    exact runAct_bind_error ht
  · refine retires_of rfl ha ?_
    rw [runAct_bind_ok (runAct_dev _ _), runAct_bind_ok hc]
    exact branchOn_none h0
  · refine becomes_of rfl ha ?_
    rw [runAct_bind_ok (runAct_dev _ _), runAct_bind_ok hc]
    exact branchOn_all h0 ht hall
  · refine becomes_of rfl ha ?_
    rw [runAct_bind_ok (runAct_dev _ _), runAct_bind_ok hc]
    refine (branchOn_some h0 ht hsome hp hn hd).trans ?_
    cases next <;> rfl

/-! ### Targets of lanes (R257, R258). -/

/-- The lanes whose targets fail, with their traps. -/
def badLanes (rs : List (Nat × Except Trap Unit)) : List (Nat × Trap) :=
  rs.filterMap (fun r => match r.2 with | .error t => some (r.1, t) | .ok _ => none)

/-- The lanes go to targets that have been checked. -/
def goApart (h : Head) (gs : List (Nat × W32)) : Act Verdict := do
  let p ← (if gs.length ≤ 1 then pure 0 else reconvOf)
  upd (fun d => countWord d h.stl.toNat true false)
  divergeAll p gs
  pure .moved

section
variable {h : Head} {gs : List (Nat × W32)} {m : Memory} {d e : Dev}

theorem goApart_together (hg : gs.length ≤ 1) (hd : Runs (divergeAll 0 gs) m (countWord d h.stl.toNat true false) () e) :
    runAct (goApart h gs) m d = .ok (.moved, e) := by
  unfold goApart
  rw [if_pos hg, runAct_bind_ok (runAct_pure _ _ _), runAct_bind_ok (runAct_upd _ _ _)]
  exact runAct_bind_ok hd

theorem goApart_several (hg : 1 < gs.length) {p : Nat} {d1 : Dev} (hp : Runs reconvOf m d p d1)
    (hd : Runs (divergeAll p gs) m (countWord d1 h.stl.toNat true false) () e) : runAct (goApart h gs) m d = .ok (.moved, e) := by
  unfold goApart
  rw [if_neg (by omega), runAct_bind_ok hp, runAct_bind_ok (runAct_upd _ _ _)]
  exact runAct_bind_ok hd

end

section
variable {h : Head} {a : BitVec 8} {s : State} {m : W32} {src : Src} {d0 d1 d2 : Dev} {rs : List (Nat × Except Trap Unit)}
  (hm : Runs (acting h false) s.mem s.dev m d0) (hs : Runs (takeSrc .n64 m a) s.mem d0 src d1)
include hm hs

theorem branchLanes_none (h0 : m = 0) : runAct (branchLanes h a) s.mem s.dev = .ok (.retire, d1) := by
  unfold branchLanes
  rw [runAct_bind_ok hm, runAct_bind_ok hs, runAct_bind_ok (runAct_dev _ _)]
  exact congrArg (runAct · s.mem d1) (if_pos h0)

variable (h0 : m ≠ 0)
  (hr : Runs ((lanesOf m).mapM (fun l => do pure (l, ← tryAct (checkTarget (valA (me d1) (mySplit d1) src l))))) s.mem d1 rs d2)
include h0 hr

/-- Past the checks of its targets the word traps, waits or sends its lanes. -/
theorem branchLanes_checked : runAct (branchLanes h a) s.mem s.dev = runAct (match badLanes rs with
    | (_, t) :: _ =>
      if (badLanes rs).any (fun r => r.2.cause = 0) then again else trap { t with info2 := maskOf ((badLanes rs).map (·.1)) }
    | [] => goApart h (groupTargets (lanesOf m) (valA (me d1) (mySplit d1) src)) : Act Verdict) s.mem d2 := by
  unfold branchLanes
  rw [runAct_bind_ok hm, runAct_bind_ok hs, runAct_bind_ok (runAct_dev _ _)]
  dsimp only
  rw [if_neg h0, runAct_bind_ok hr]
  rfl

theorem branchLanes_bad {l : Nat} {t : Trap} {b : List (Nat × Trap)} (hb : badLanes rs = (l, t) :: b)
    (hc : ∀ r ∈ badLanes rs, r.2.cause ≠ 0) :
    runAct (branchLanes h a) s.mem s.dev = .error { t with info2 := maskOf ((badLanes rs).map (·.1)) } := by
  have hnone : (badLanes rs).any (fun r => r.2.cause = 0) = false := List.any_eq_false.2 fun r hr => by simpa using hc r hr
  rw [branchLanes_checked hm hs h0 hr]
  rw [hb] at hnone ⊢
  dsimp only
  rw [hnone]
  rfl

theorem branchLanes_waits (hc : ∃ r ∈ badLanes rs, r.2.cause = 0) :
    runAct (branchLanes h a) s.mem s.dev = .error { cause := 0 } := by
  have hsome : (badLanes rs).any (fun r => r.2.cause = 0) = true := List.any_eq_true.2 (by simpa using hc)
  rw [branchLanes_checked hm hs h0 hr]
  cases hb : badLanes rs with
  | nil => rw [hb] at hsome; cases hsome
  | cons r b =>
    rw [hb] at hsome
    dsimp only
    rw [hsome]
    rfl

theorem branchLanes_goes (hb : badLanes rs = []) : runAct (branchLanes h a) s.mem s.dev =
    runAct (goApart h (groupTargets (lanesOf m) (valA (me d1) (mySplit d1) src))) s.mem d2 := by
  rw [branchLanes_checked hm hs h0 hr, hb]

end

theorem indirectBranches : IndirectBranches := by
  intro h f s i hi ha m src d0 d1 hm hs
  have hx : exec i s = runA i h (branchLanes h f.a) s := by
    obtain rfl | rfl := hi <;> rfl
  refine ⟨fun h0 => retires_of hx ha (branchLanes_none hm hs h0), fun h0 rs d2 hr => ⟨fun l t b hb hc => ?_, fun hc => ?_,
    fun hb hg d3 hd => ?_, fun hb hg p d3 d4 hp hd => ?_⟩⟩
  · exact traps_of hx ha (branchLanes_bad hm hs h0 hr hb hc)
  · exact traps_of hx ha (branchLanes_waits hm hs h0 hr hc)
  · exact becomes_of hx ha ((branchLanes_goes hm hs h0 hr hb).trans (goApart_together hg hd))
  · exact becomes_of hx ha ((branchLanes_goes hm hs h0 hr hb).trans (goApart_several hg hp hd))

/-! ### Calls (R258). -/

theorem calls : Calls := by
  intro h f s ha
  dsimp only
  refine ⟨fun hl => ?_, fun m hl hm => ⟨fun h0 => ?_, fun h0 d1 d2 ht hp => ?_⟩⟩
  · refine traps_of rfl ha ?_
    rw [runAct_bind_ok (runAct_dev _ _)]
    dsimp only
    rw [hl]
    rfl
  · refine retires_of rfl ha ?_
    rw [runAct_bind_ok (runAct_dev _ _)]
    dsimp only
    rw [hl, runAct_bind_ok (runAct_need_true _ _ _), runAct_bind_ok hm, if_pos h0]
    rfl
  · refine becomes_of rfl ha ?_
    rw [runAct_bind_ok (runAct_dev _ _)]
    dsimp only
    rw [hl, runAct_bind_ok (runAct_need_true _ _ _), runAct_bind_ok hm, if_neg h0]
    exact (runAct_bind_ok ht).trans ((runAct_bind_ok hp).trans rfl)

/-- Settles O50: branches, transfers to targets of lanes, calls. -/
theorem branchWords : Obligations.BranchWords := ⟨branches, indirectBranches, calls⟩

end Sys2Proof.Machine
end

section
/-!
SUPPORT. The phaser instructions (spec/15_isa_memory.md R282 to R284): each word from its operands to its line, and from there to what
it answers.
-/
namespace Sys2Proof.Machine
open Sys2Proof.Claims

/-! ### A word at its line (R283). -/

/-- The operands of a phaser instruction. -/
def phaserTakes (f : FmtX) (acc : Access) (body : W32 → Nat → BitVec 32 → Nat → Act Verdict) (m : W32) :
    Act (W32 → Nat → Act Verdict) := do
  let a ← takeSrc .n64 m f.a
  let b ← takeSrc .n64 m f.b
  let d ← dev
  pure (fun m l => do
    roomFor f.d 1
    let n ← phaserLine acc (valA (me d) (mySplit d) a l).toNat
    ordering (body m n ((valA (me d) (mySplit d) b l).setWidth 32) (bankOf (valA (me d) (mySplit d) a l).toNat)))

theorem phaserOp_eq (h : Head) (f : FmtX) (acc : Access) (body : W32 → Nat → BitVec 32 → Nat → Act Verdict) :
    phaserOp h f acc body = waveOp h (phaserTakes f acc body) (fun m => loadDst .n64 m f.d (fun _ => 0)) := rfl

section
variable {i : Instr} {h : Head} {f : FmtX} {acc : Access} {s : State} {m : W32} {n : Nat} {v : BitVec 32} {bank : Nat} {d : Dev}
  {word : Act Verdict} {body : W32 → Nat → BitVec 32 → Nat → Act Verdict} (hx : exec i s = runA i h word s)
  (hw : runAct word s.mem s.dev = runAct (phaserOp h f acc body) s.mem s.dev)
include hx hw

theorem phaser_noLane {a b : Src} {d0 d1 d2 : Dev} (ha : Admitted i [] s) (hm : Runs (acting h false) s.mem s.dev m d0)
    (hl : lowLane m = none) (hta : Runs (takeSrc .n64 m f.a) s.mem d0 a d1) (htb : Runs (takeSrc .n64 m f.b) s.mem d1 b d2) :
    Answers i h f.d s m 0 d2 :=
  answers_none hx ha hw hm ((runAct_bind_ok hta).trans (runAct_bind_ok htb)) hl rfl

variable (hp : PhaserAt i h f acc s m n v bank d)
include hp

/-- At its line the word's body runs past the fixed-order gate. -/
theorem phaser_answers {w : W64} {e : Dev} (hb : runAct (body m n v bank) s.mem d = runAct (answer f.d m w) s.mem e) :
    Answers i h f.d s m w e := by
  obtain ⟨l, a, b, d0, d1, d2, d3, ha, hm, hl, hta, htb, hr, hk, rfl, rfl, ho⟩ := hp
  refine answers_lane hx ha hw hm ((runAct_bind_ok hta).trans (runAct_bind_ok htb)) hl ?_
  rw [runAct_bind_ok (room_of hr), runAct_bind_ok hk, ordered_of ho, hb]

theorem phaser_stays {e : Dev} (hb : runAct (body m n v bank) s.mem d = .ok (.stay, e)) : Stays i s e := by
  obtain ⟨l, a, b, d0, d1, d2, d3, ha, hm, hl, hta, htb, hr, hk, rfl, rfl, ho⟩ := hp
  refine stays_lane hx ha hw hm ((runAct_bind_ok hta).trans (runAct_bind_ok htb)) hl ?_
  rw [runAct_bind_ok (room_of hr), runAct_bind_ok hk, ordered_of ho, hb]

/-- A word that comes to wait for a phase (R284). -/
theorem phaser_waits {k : BitVec 32} {e : Dev} (hb : runAct (body m n v bank) s.mem d = runAct (phaserWait f m n k bank) s.mem e) :
    WaitsForPhase i h f.d s m n k bank e := by
  unfold phaserWait at hb
  rw [runAct_act_bind] at hb
  dsimp only at hb
  refine ⟨fun hk => phaser_answers hx hw hp ?_, fun hk => phaser_stays hx hw hp ?_⟩
  · rw [hb, hk]
    exact runAct_bind_ok (runAct_upd _ _ _)
  · rw [hb, hk]
    rfl

end

/-! ### Words that need a phaser (R283). -/

section
variable {f : FmtX} {m : W32} {n : Nat} {body : Act Verdict} {mem : Memory} {d : Dev}

theorem needPhaser_none (h : (lineOf d n).ph = false) : runAct (needPhaser f m n body) mem d = runAct (answer f.d m 3) mem d := by
  unfold needPhaser
  rw [runAct_bind_ok (runAct_dev _ _), h]
  rfl

theorem needPhaser_some (h : (lineOf d n).ph = true) : runAct (needPhaser f m n body) mem d = runAct body mem d := by
  unfold needPhaser
  rw [runAct_bind_ok (runAct_dev _ _), h]
  rfl

theorem statusNow_answers {code : Nat} : runAct (do phaserDone f m (← statusNow n code)) mem d =
    runAct (answer f.d m (phStatus (phaserOf mem d n).phase code)) mem d := runAct_act_bind ..

end

/-- The words that answer NOPH where no phaser stands, a wait of them only before it has been woken. -/
theorem exec_needPhaser {i : Instr} {h : Head} {f : FmtX} {s : State} (hi : i = .phreg h f ∨ i = .phdrop h f ∨ i = .phsig h f ∨
      ((i = .phwait h f ∨ i = .phsw h f) ∧ (mySplit s.dev).ans = none)) : 
    ∃ (word : Act Verdict) (body : W32 → Nat → BitVec 32 → Nat → Act Verdict), exec i s = runA i h word s ∧ runAct word s.mem s.dev =
      runAct (phaserOp h f .readWrite (fun m n v bank => needPhaser f m n (body m n v bank))) s.mem s.dev := by
  obtain rfl | rfl | rfl | ⟨rfl | rfl, hans⟩ := hi
  · exact ⟨_, _, rfl, rfl⟩
  · exact ⟨_, _, rfl, rfl⟩
  · exact ⟨_, _, rfl, rfl⟩
  · exact ⟨_, fun m n v bank => phaserWait f m n v bank, rfl, wokenOr_fresh hans⟩
  · exact ⟨_, _, rfl, wokenOr_fresh hans⟩

/-- Every phaser instruction that has not been woken. -/
theorem exec_phaser {i : Instr} {h : Head} {f : FmtX} {s : State} (hi : i = .phinit h f ∨ i = .phreg h f ∨ i = .phdrop h f ∨
      i = .phsig h f ∨ i = .phquery h f ∨ ((i = .phwait h f ∨ i = .phsw h f) ∧ (mySplit s.dev).ans = none)) :
    ∃ (word : Act Verdict) (acc : Access) (body : W32 → Nat → BitVec 32 → Nat → Act Verdict), exec i s = runA i h word s ∧ runAct word s.mem s.dev = runAct (phaserOp h f acc body) s.mem s.dev := by
  have hneed : ∀ {i}, (i = .phreg h f ∨ i = .phdrop h f ∨ i = .phsig h f ∨
      ((i = .phwait h f ∨ i = .phsw h f) ∧ (mySplit s.dev).ans = none)) →
      ∃ (word : Act Verdict) (acc : Access) (body : W32 → Nat → BitVec 32 → Nat → Act Verdict), exec i s = runA i h word s ∧ runAct word s.mem s.dev = runAct (phaserOp h f acc body) s.mem s.dev := fun hi => by
    obtain ⟨word, body, hx, hw⟩ := exec_needPhaser hi
    exact ⟨word, _, _, hx, hw⟩
  obtain hi | hi | hi | hi | hi | hi := hi
  · subst hi
    exact ⟨_, _, _, rfl, rfl⟩
  · exact hneed (.inl hi)
  · exact hneed (.inr (.inl hi))
  · exact hneed (.inr (.inr (.inl hi)))
  · subst hi
    exact ⟨_, _, _, rfl, rfl⟩
  · exact hneed (.inr (.inr (.inr hi)))

/-- Settles O29: each word answers, waits or parks as its body does at its line. -/
theorem phasers : Obligations.Phasers := by
  unfold Obligations.Phasers
  intro h f s m n v bank d
  dsimp only
  refine ⟨fun i hi hp hph => ?_, fun i a b d0 d1 d2 hi ha hm hl hta htb => ?_,
    fun i r l a b c d0 d1 d2 d3 hi hans ha hm hl hta htb htc => ?_, fun hp => ?_, fun hp => ⟨fun hbusy => ?_, fun hfree hv => ?_,
      fun hfree hv => ?_⟩, fun hp hph => ⟨fun hv => ?_, fun hv => ?_⟩, fun d1 hp hph hr => ⟨fun hv => ?_, fun hv d2 hs => ?_⟩,
    fun d1 code d2 hp hph hr hs => ?_, fun hp hans hph => ?_, fun d1 code d2 hp hans hph h0 hr hs => ?_, fun hp hans hph h0 => ?_⟩
  · obtain ⟨word, body, hx, hw⟩ := exec_needPhaser hi
    exact phaser_answers hx hw hp (needPhaser_none hph)
  · obtain ⟨word, acc, body, hx, hw⟩ := exec_phaser hi
    exact phaser_noLane hx hw ha hm hl hta htb
  · obtain rfl | rfl := hi
    · exact answers_lane rfl ha (wokenOr_woken hans) hm (runs_wokenTakes hta htb htc r) hl rfl
    · exact answers_lane rfl ha (wokenOr_woken hans) hm (runs_wokenTakes hta htb htc r) hl rfl
  · refine phaser_answers rfl rfl hp ?_
    rw [runAct_bind_ok (runAct_dev _ _), runAct_act_bind]
    rfl
  · refine phaser_answers rfl rfl hp ?_
    obtain ⟨hph, hw, hmd⟩ := hbusy
    rw [hph] at hw
    rw [runAct_bind_ok (runAct_dev _ _), runAct_act_bind]
    dsimp only
    rw [hph, if_pos (by simpa using ⟨hw, hmd⟩)]
    rfl
  · refine phaser_answers rfl rfl hp ?_
    rw [runAct_bind_ok (runAct_dev _ _), runAct_act_bind]
    dsimp only
    rw [if_neg (by simpa [and_assoc] using hfree), if_pos hv]
    rfl
  · refine phaser_answers rfl rfl hp ?_
    rw [runAct_bind_ok (runAct_dev _ _), runAct_act_bind]
    dsimp only
    rw [if_neg (by simpa [and_assoc] using hfree), if_neg (by omega)]
    exact runAct_bind_ok (runAct_actU _ _ _)
  · refine phaser_answers rfl rfl hp ((needPhaser_some hph).trans ?_)
    rw [runAct_act_bind]
    dsimp only
    rw [if_pos hv]
    rfl
  · refine phaser_answers rfl rfl hp ((needPhaser_some hph).trans ?_)
    rw [runAct_act_bind]
    dsimp only
    rw [if_neg (by omega), runAct_bind_ok (runAct_actU _ _ _)]
    exact statusNow_answers
  · refine phaser_answers rfl rfl hp ((needPhaser_some hph).trans ((released_of hr _).trans ?_))
    rw [runAct_act_bind]
    dsimp only
    rw [if_pos hv]
    rfl
  · refine phaser_answers rfl rfl hp ((needPhaser_some hph).trans ((released_of hr _).trans ?_))
    rw [runAct_act_bind]
    dsimp only
    rw [if_neg (by omega), runAct_bind_ok hs]
    exact statusNow_answers
  · refine phaser_answers rfl rfl hp ((needPhaser_some hph).trans ((released_of hr _).trans ?_))
    rw [runAct_bind_ok hs]
    exact statusNow_answers
  · exact phaser_waits rfl (wokenOr_fresh hans) hp (needPhaser_some hph)
  · refine phaser_waits rfl (wokenOr_fresh hans) hp ((needPhaser_some hph).trans ?_)
    rw [runAct_bind_ok (runAct_dev _ _)]
    dsimp only
    rw [if_neg (by simpa using h0)]
    refine (released_of hr _).trans ?_
    rw [runAct_act_bind, runAct_bind_ok hs]
    exact runAct_bind_ok (runAct_upd _ _ _)
  · refine phaser_waits rfl (wokenOr_fresh hans) hp ((needPhaser_some hph).trans ?_)
    rw [runAct_bind_ok (runAct_dev _ _)]
    dsimp only
    rw [if_pos h0]

end Sys2Proof.Machine
end

section
/-!
SUPPORT. The frame of the words that only compute (spec/13_encoding.md R219, R220, R222): what their operations may change, one operation
at a time, and that every such word is made of these.
-/
namespace Sys2Proof.Machine
open Sys2Proof.Claims

/-! ### What may change of a wave. -/

/-- Of a split, what a word that computes leaves until it retires. -/
def keptSplit (q : Split) : Split := { restOfSplit q with pc := q.pc }

/-- A wave has changed at most in the registers `ds`, in the rest of its splits' split `sp` beside `part`, and beside `keep` in its flags
and RSS states. -/
structure WaveFrame (part : Split → Split) (ds : List Nat) (keep : Prop) (sp : Nat) (x y : Wave) : Prop where
  rest : restOfWave y = restOfWave x
  regs : ∀ code < 0x110, code ∉ ds → ∀ l < 32, fileLane y code l = fileLane x code l
  others : ∀ j, j ≠ sp → splitOf y j = splitOf x j
  mine : part (splitOf y sp) = part (splitOf x sp)
  flags : keep → y.rss = x.rss ∧ y.fstat = x.fstat

/-- Of the device only the wave that issues has changed, in its frame. -/
def Frames (part : Split → Split) (ds : List Nat) (keep : Prop) (d e : Dev) : Prop :=
  ∃ y, e = setMe d y ∧ WaveFrame part ds keep d.cur.2 (me d) y

section
variable {part : Split → Split} {ds : List Nat} {keep : Prop} {sp : Nat}

theorem WaveFrame.refl (x : Wave) : WaveFrame part ds keep sp x x :=
  ⟨rfl, fun _ _ _ _ _ => rfl, fun _ _ => rfl, rfl, fun _ => ⟨rfl, rfl⟩⟩

theorem WaveFrame.trans {x y z : Wave} (hxy : WaveFrame part ds keep sp x y) (hyz : WaveFrame part ds keep sp y z) :
    WaveFrame part ds keep sp x z :=
  ⟨hyz.rest.trans hxy.rest, fun c hc hd l hl => (hyz.regs c hc hd l hl).trans (hxy.regs c hc hd l hl),
    fun j hj => (hyz.others j hj).trans (hxy.others j hj), hyz.mine.trans hxy.mine,
    fun hk => ⟨(hyz.flags hk).1.trans (hxy.flags hk).1, (hyz.flags hk).2.trans (hxy.flags hk).2⟩⟩

/-- A change of the split that issues. -/
theorem WaveFrame.setSplitOf {x : Wave} {q : Split} (h : part q = part (splitOf x sp)) :
    WaveFrame part ds keep sp x (setSplitOf x sp q) := by
  refine ⟨rfl, fun _ _ _ _ _ => rfl, fun j hj => ?_, ?_, fun _ => ⟨rfl, rfl⟩⟩
  · rw [splitOf_setSplitOf, if_neg (fun h => hj h.1)]
  · rw [splitOf_setSplitOf]
    split
    · exact h
    · rfl

theorem WaveFrame.mono {part' : Split → Split} (hp : ∀ q r, part q = part r → part' q = part' r) {x y : Wave}
    (h : WaveFrame part ds keep sp x y) : WaveFrame part' ds keep sp x y :=
  ⟨h.rest, h.regs, h.others, hp _ _ h.mine, h.flags⟩

/-- Writing the wave that issues back changes nothing. -/
theorem setMe_me (d : Dev) : setMe d (me d) = d := by
  have hset : nthSet d.waves d.cur.1 (me d) = d.waves := by
    have hmap := map_nthSet_same (f := id) (l := d.waves) (n := d.cur.1) (e := noWave) (x := me d) rfl
    rwa [List.map_id, List.map_id] at hmap
  show { d with waves := nthSet d.waves d.cur.1 (me d) } = d
  rw [hset]

theorem setMe_setMe (d : Dev) (x y : Wave) : setMe (setMe d x) y = setMe d y := by
  show ({ d with waves := (d.waves.set d.cur.1 x).set d.cur.1 y } : Dev) = { d with waves := d.waves.set d.cur.1 y }
  rw [List.set_set]

/-- A wave that is written back to the place of no wave is not there. -/
theorem setMe_out {d : Dev} (h : ¬ d.cur.1 < d.waves.length) (x : Wave) : setMe d x = d := by
  show ({ d with waves := nthSet d.waves d.cur.1 x } : Dev) = d
  rw [nthSet, List.set_eq_of_length_le (Nat.le_of_not_lt h)]

theorem Frames.refl (d : Dev) : Frames part ds keep d d := ⟨me d, (setMe_me d).symm, .refl _⟩

theorem Frames.trans {a b c : Dev} (hab : Frames part ds keep a b) (hbc : Frames part ds keep b c) : Frames part ds keep a c := by
  obtain ⟨y, rfl, hy⟩ := hab
  obtain ⟨z, rfl, hz⟩ := hbc
  refine ⟨z, setMe_setMe a y z, ?_⟩
  by_cases h : a.cur.1 < a.waves.length
  · rw [me_setMe a y h] at hz
    exact hy.trans hz
  · rw [setMe_out h] at hz
    exact hz

theorem Frames.mono {part' : Split → Split} (hp : ∀ q r, part q = part r → part' q = part' r) {d e : Dev}
    (h : Frames part ds keep d e) : Frames part' ds keep d e := by
  obtain ⟨y, he, hy⟩ := h
  exact ⟨y, he, hy.mono hp⟩

theorem Frames.setMySplit {d : Dev} {q : Split} (h : part q = part (mySplit d)) : Frames part ds keep d (setMySplit d q) :=
  ⟨_, rfl, .setSplitOf h⟩

/-- What stands of a device in the frame of another. -/
theorem Frames.wave {d e : Dev} (h : Frames part ds keep d e) : WaveFrame part ds keep d.cur.2 (me d) (me e) := by
  obtain ⟨y, rfl, hy⟩ := h
  by_cases hw : d.cur.1 < d.waves.length
  · rwa [me_setMe d y hw]
  · rw [setMe_out hw]
    exact .refl _

theorem Frames.rest {d e : Dev} (h : Frames part ds keep d e) : { e with waves := [] } = { d with waves := [] } := by
  obtain ⟨y, rfl, -⟩ := h
  rfl

theorem Frames.cur {d e : Dev} (h : Frames part ds keep d e) : e.cur = d.cur := by
  obtain ⟨y, rfl, -⟩ := h
  rfl

theorem Frames.wlog {d e : Dev} (h : Frames part ds keep d e) : e.wlog = d.wlog := by
  obtain ⟨y, rfl, -⟩ := h
  rfl

theorem Frames.otherWaves {d e : Dev} (h : Frames part ds keep d e) {w : Nat} (hw : w ≠ d.cur.1) : waveOf e w = waveOf d w := by
  obtain ⟨y, rfl, -⟩ := h
  exact (waveOf_setWave d d.cur.1 w y).trans (if_neg fun heq => hw heq.1)

end

/-! ### Writes (R219, R220, R228). -/

section
variable {x : Wave} {code : Nat} {mask : W32} {f : Nat → W64}

/-- A wave differs in its register files alone. -/
def FilesOnly (x y : Wave) : Prop := ∃ v a s p g, y = { x with v := v, a := a, s := s, p := p, g := g }

theorem FilesOnly.refl (x : Wave) : FilesOnly x x := ⟨x.v, x.a, x.s, x.p, x.g, rfl⟩

theorem FilesOnly.ite {c : Prop} [Decidable c] {y z : Wave} (hy : FilesOnly x y) (hz : FilesOnly x z) :
    FilesOnly x (if c then y else z) := by
  split
  · exact hy
  · exact hz

theorem fileSet_files : FilesOnly x (fileSet x code mask f) :=
  .ite (.refl x) <| .ite ⟨_, x.a, x.s, x.p, x.g, rfl⟩ <| .ite ⟨x.v, _, x.s, x.p, x.g, rfl⟩ <|
    .ite ⟨x.v, x.a, _, x.p, x.g, rfl⟩ <| .ite (.refl x) <| .ite (.ite (.refl x) ⟨x.v, x.a, x.s, _, x.g, rfl⟩) <|
    .ite (.refl x) ⟨x.v, x.a, x.s, x.p, _, rfl⟩

/-- Past the guards a code names no register (R229). -/
theorem fileSet_beyond (h : 0x110 ≤ code) : fileSet x code mask f = x := by
  have hbit : (1#8 <<< (code - 0x108)) = 0#8 := by
    apply BitVec.eq_of_getLsbD_eq
    intro i hi
    rw [getLsbD_bit hi]
    simp
    omega
  by_cases hm : mask = 0
  · exact fileSet_discards x f (.inl hm)
  · unfold fileSet
    rw [if_neg hm, if_neg (by omega), if_neg (by omega), if_neg (by omega), if_neg (by omega), if_neg (by omega), if_neg (by omega)]
    dsimp only
    rw [hbit, BitVec.or_zero, BitVec.not_zero, BitVec.and_allOnes]
    split <;> rfl

theorem fileLane_fileSet_other {c l : Nat} (hc : c < 0x110) (hne : c ≠ code) (hl : l < 32) :
    fileLane (fileSet x code mask f) c l = fileLane x c l := by
  by_cases h : code < 0x110
  · rw [(registersReadBack x code c l mask f h hc hl).1, if_neg (fun h => hne h.1)]
  · rw [fileSet_beyond (Nat.le_of_not_lt h)]

end

section
variable {ds : List Nat} {keep : Prop} {d : Dev}

theorem WaveFrame.fileSet {part : Split → Split} {sp : Nat} {x : Wave} {code : Nat} (hd : code ∈ ds) (mask : W32) (f : Nat → W64) :
    WaveFrame part ds keep sp x (fileSet x code mask f) := by
  refine ⟨?_, fun c hc hn l hl => fileLane_fileSet_other hc (fun h => hn (h ▸ hd)) hl, ?_, ?_, ?_⟩
  all_goals obtain ⟨v, a, s, p, g, h⟩ := fileSet_files (x := x) (code := code) (mask := mask) (f := f)
  · rw [h]; rfl
  · intro j _; rw [h]; rfl
  · rw [h]; rfl
  · intro _; rw [h]; exact ⟨rfl, rfl⟩

theorem setReg_frames {code : Nat} (hd : code ∈ ds) (lat : Nat) (acc : Bool) (mask : W32) (f : Nat → W64) :
    Frames keptSplit ds keep d (setReg d code lat acc mask f) := by
  unfold setReg
  dsimp only
  split
  · exact .refl d
  · refine ⟨_, rfl, (WaveFrame.fileSet hd mask f).trans (.setSplitOf ?_)⟩
    have hsame : splitOf (fileSet (me d) code mask f) d.cur.2 = mySplit d := by
      obtain ⟨v, a, s, p, g, h⟩ := fileSet_files (x := me d) (code := code) (mask := mask) (f := f)
      rw [h]
      rfl
    rw [hsame]
    split <;> rfl

theorem moveClock_frames (c : Nat) : Frames keptSplit ds keep d (moveClock d d.cur.1 d.cur.2 c) := by
  refine ⟨_, rfl, (WaveFrame.setSplitOf (q := { mySplit d with clock := c }) rfl).trans ?_⟩
  exact ⟨rfl, fun _ _ _ _ _ => rfl, fun _ _ => rfl, rfl, fun _ => ⟨rfl, rfl⟩⟩

theorem countWord_frames (stl : Nat) (acc exe : Bool) : Frames keptSplit ds keep d (countWord d stl acc exe) :=
  (Frames.setMySplit (q := { mySplit d with
    pend := prune (addDist (mySplit d).pend stl acc exe), ans := none, served := 0, servedVals := [], forced := [], peeked := none,
    peerLost := false }) rfl).trans (moveClock_frames _)

theorem keepRes_frames (mask : W32) (f : Nat → LaneRes) : Frames keptSplit ds False d (keepRes d mask f) :=
  ⟨_, rfl, rfl, fun _ _ _ _ _ => rfl, fun _ _ => rfl, rfl, False.elim⟩

theorem orFlags_frames (fl : BitVec 9) : Frames keptSplit ds False d (orFlags d d.cur.1 fl) :=
  ⟨_, rfl, rfl, fun _ _ _ _ _ => rfl, fun _ _ => rfl, rfl, False.elim⟩

end

/-! ### Actions that stay in the frame. -/

/-- What an action changes lies in the frame. -/
def Keeps {α : Type} (ds : List Nat) (keep : Prop) (x : Act α) : Prop :=
  ∀ m d a e, runAct x m d = .ok (a, e) → Frames keptSplit ds keep d e

/-- A word that retires, with its changes in the frame. -/
def Computes (ds : List Nat) (keep : Prop) (x : Act Verdict) : Prop :=
  ∀ m d v e, runAct x m d = .ok (v, e) → v = .retire ∧ Frames keptSplit ds keep d e

section
variable {ds : List Nat} {keep : Prop} {α β : Type}

theorem Keeps.of_same {x : Act α} (h : ∀ m d a e, runAct x m d = .ok (a, e) → d = e) : Keeps ds keep x :=
  fun m d a e hr => h m d a e hr ▸ .refl d

theorem Keeps.pure (a : α) : Keeps ds keep (pure a : Act α) := .of_same fun _ _ _ _ h => (runAct_pure_inv h).2

theorem Keeps.bind {x : Act α} {f : α → Act β} (hx : Keeps ds keep x) (hf : ∀ a, Keeps ds keep (f a)) : Keeps ds keep (x >>= f) := by
  intro m d b e h
  obtain ⟨a, c, ha, hb⟩ := runAct_bind_inv h
  exact (hx m d a c ha).trans (hf a m c b e hb)

theorem Keeps.upd {g : Dev → Dev} (h : ∀ d, Frames keptSplit ds keep d (g d)) : Keeps ds keep (upd g) := by
  intro m d a e hr
  cases hr
  exact h d

theorem Keeps.need {c : Bool} {t : Trap} : Keeps ds keep (need c t) := .of_same fun _ _ _ _ h => (need_inv h).2

theorem Keeps.dev : Keeps ds keep dev := .of_same fun _ _ _ _ h => by cases h; rfl

theorem Computes.retire : Computes ds keep (Pure.pure .retire) := by
  intro m d v e h
  cases h
  exact ⟨rfl, .refl _⟩

theorem Computes.bind {x : Act α} {f : α → Act Verdict} (hx : Keeps ds keep x) (hf : ∀ a, Computes ds keep (f a)) :
    Computes ds keep (x >>= f) := by
  intro m d v e h
  obtain ⟨a, c, ha, hv⟩ := runAct_bind_inv h
  obtain ⟨hret, hframe⟩ := hf a m c v e hv
  exact ⟨hret, (hx m d a c ha).trans hframe⟩

theorem keeps_acting {h : Head} {exe : Bool} : Keeps ds keep (acting h exe) := .of_same fun _ _ _ _ => acting_inv

theorem keeps_checkShort {code : Nat} {lanes : W32} : Keeps ds keep (checkShort code lanes) := .of_same fun _ _ _ _ => checkShort_inv

theorem keeps_takePred {exe : Bool} {lanes : W32} {code : BitVec 8} : Keeps ds keep (takePred exe lanes code) :=
  .of_same fun _ _ _ _ => takePred_inv

theorem keeps_takeSrc {t : Ty} {lanes : W32} {code : BitVec 8} : Keeps ds keep (takeSrc t lanes code) := by
  intro m d a e h
  obtain rfl | ⟨r, q, -, rfl⟩ | ⟨r, q, -, rfl⟩ := takeSrc_inv h
  · exact .refl _
  · exact .setMySplit rfl
  · exact .setMySplit rfl

theorem keeps_takeSrcOf {t : Option Ty} {lanes : W32} {code : BitVec 8} :
    Keeps ds keep (match t with | some t => takeSrc t lanes code | none => Pure.pure .zero) := by
  cases t with
  | none => exact .pure _
  | some t => exact keeps_takeSrc

/-! ### Operands (R219, R232). -/

theorem keeps_takeX {h : Head} {f : FmtX} {ta tb tc : Option Ty} : Keeps ds keep (takeX h f ta tb tc) :=
  keeps_acting.bind fun _ => keeps_takeSrcOf.bind fun _ => keeps_takeSrcOf.bind fun _ =>
    keeps_takeSrcOf.bind fun _ => .pure _

theorem keeps_takeA {h : Head} {a b c gc : BitVec 8} : Keeps ds keep (takeA h a b c gc) :=
  keeps_acting.bind fun _ => keeps_takeSrc.bind fun _ => keeps_takeSrc.bind fun _ =>
    keeps_takeSrc.bind fun _ => keeps_takePred.bind fun _ => .pure _

theorem keeps_takeC {h : Head} {f : FmtX} : Keeps ds keep (takeC h f) :=
  keeps_acting.bind fun _ => keeps_takeSrc.bind fun _ => keeps_takeSrc.bind fun _ =>
    keeps_takePred.bind fun _ => .pure _

theorem keeps_takeP {h : Head} {f : FmtX} : Keeps ds keep (takeP h f) :=
  keeps_acting.bind fun _ => keeps_takePred.bind fun _ => keeps_takePred.bind fun _ => .pure _

theorem keeps_takeS {h : Head} {f : FmtX} : Keeps ds keep (takeS h f) :=
  keeps_acting.bind fun _ => keeps_takeSrc.bind fun _ => keeps_takeSrc.bind fun _ => .pure _

end

/-! ### Destinations (R219, R220). -/

/-- The registers of an execute destination. -/
def destX (t : Ty) (code : BitVec 8) : List Nat := if tyBits t = 64 then [code.toNat, code.toNat + 1] else [code.toNat]

theorem opd_v {code : BitVec 8} {n : Nat} (h : opd code = .v n) : n = code.toNat := by
  unfold opd at h
  dsimp only at h
  split at h
  · cases h; rfl
  · repeat' split at h
    all_goals cases h

section
variable {keep : Prop} {lat : Nat} {mask : W32} {code : BitVec 8}

theorem keeps_pushQv {ds : List Nat} (r : Row) : Keeps ds keep (pushQv r) :=
  Keeps.dev.bind fun _ => Keeps.need.bind fun _ => .upd fun _ => .setMySplit rfl

theorem keeps_putX {t : Ty} {f : Nat → W64} : Keeps (destX t code) keep (putX t lat mask code f) := by
  unfold putX
  split
  · next n hn =>
    obtain rfl := opd_v hn
    split
    · next ht =>
      rw [destX, if_pos ht]
      exact .upd fun d => (setReg_frames (by simp) ..).trans (setReg_frames (by simp) ..)
    · next ht =>
      rw [destX, if_neg ht]
      exact .upd fun d => setReg_frames (by simp) ..
  · exact keeps_pushQv _
  · exact .pure _

theorem keeps_putA {f : Nat → W64} : Keeps [code.toNat] keep (putA lat mask code f) := by
  intro m d a e h
  obtain rfl | ⟨g, rfl⟩ | rfl := putA_cases h
  · exact .refl _
  · exact setReg_frames (by simp) ..
  · exact .setMySplit rfl

theorem keeps_putP {f : Nat → Bool} : Keeps [0x100 + code.toNat] keep (putPred true lat mask code f) :=
  .upd fun _ => setReg_frames (by simp [pCode]) ..

theorem keeps_putG {f : Nat → Bool} : Keeps [0x108 + code.toNat] keep (putPred false lat mask code f) :=
  .upd fun _ => setReg_frames (by simp [gCode]) ..

end

/-! ### The shapes of the words. -/

/-- A word in its frame, with a body that computes. -/
def InItsFrame (i : Instr) (ds : List Nat) (keep : Prop) : Prop :=
  ∃ h acc exe codes body, (∀ s, exec i s = .next (runSplit (framed i h acc exe codes body) s)) ∧ Computes ds keep body

theorem inItsFrame_x {i : Instr} {ds : List Nat} {keep : Prop} {h : Head} {codes : List (BitVec 8)} {body : Act Verdict}
    (hx : ∀ s, exec i s = runX i h codes body s) (hb : Computes ds keep body) : InItsFrame i ds keep := ⟨h, _, _, codes, body, hx, hb⟩

theorem inItsFrame_a {i : Instr} {ds : List Nat} {keep : Prop} {h : Head} {body : Act Verdict}
    (hx : ∀ s, exec i s = runA i h body s) (hb : Computes ds keep body) : InItsFrame i ds keep := ⟨h, _, _, [], body, hx, hb⟩

section
variable {h : Head} {f : FmtX}

theorem computes_laneOp {ta tb tc : Option Ty} {td : Ty} {lat : Nat} {fn : LaneEnv → W64 → W64 → W64 → LaneRes} :
    Computes (destX td f.d) False (laneOp h f ta tb tc td lat fn) :=
  .bind keeps_takeX fun _ => .bind .dev fun _ => .bind (.upd fun _ => keepRes_frames ..) fun _ =>
    .bind keeps_putX fun _ => .retire

theorem computes_scanOp {red : Bool} : Computes (destX (ty f.ty) f.d) False (scanOp h f red) :=
  .bind (keeps_acting.bind fun _ => keeps_takeSrc.bind fun _ => keeps_takePred.bind fun _ => .pure _) fun _ =>
    .bind .dev fun _ => .bind (.upd fun _ => keepRes_frames ..) fun _ => .bind keeps_putX fun _ => .retire

theorem computes_cmpOp {lat : Nat} {fn : W64 → W64 → Bool × BitVec 9} : Computes [0x100 + f.d.toNat] False (cmpOp h f lat fn) :=
  .bind keeps_takeC fun _ => .bind .dev fun _ => .bind (.upd fun _ => orFlags_frames _) fun _ =>
    .bind keeps_putP fun _ => .retire

theorem computes_predOp {fn : Bool → Bool → Bool} : Computes [0x100 + f.d.toNat] False (predOp h f fn) :=
  .bind keeps_takeP fun _ => .bind keeps_putP fun _ => .retire

theorem computes_accOp {d a b c gc : BitVec 8} {t : Ty} {lat : Nat} {fn : Bool → W64 → W64 → W64 → W64} :
    Computes [d.toNat] True (accOp h d a b c t lat gc fn) :=
  .bind keeps_takeA fun _ => .bind .dev fun _ => .bind keeps_putA fun _ => .retire

end

/-- The words whose result has their type. -/
theorem typedWords_inFrame (h : Head) (f : FmtX) :
    ∀ i ∈ [Instr.add h f, .sub h f, .mul h f, .mulhi h f, .mad h f, .madhi h f, .min h f, .max h f, .abs h f, .neg h f,
      .clamp h f, .and h f, .or h f, .xor h f, .andn h f, .not h f, .shl h f, .shr h f, .sar h f, .rotl h f, .popc h f, .clz h f,
      .ctz h f, .brev h f, .lsel h f, .sad4 h f, .fadd h f, .fsub h f, .fmul h f, .ffma h f, .fdiv h f, .fsqrt h f, .frcp h f,
      .frsq h f, .fexp2 h f, .flog2 h f, .fsinpi h f, .fcospi h f, .fmin h f, .fmax h f, .fclamp h f, .ffloor h f, .fceil h f,
      .ftrunc h f, .fround h f, .cvt h f], InItsFrame i (destX (ty f.ty) f.d) False := by
  simp only [List.forall_mem_cons, List.not_mem_nil, false_implies, implies_true, and_true]
  and_intros
  all_goals exact inItsFrame_x (fun _ => rfl) computes_laneOp

section
variable (h : Head) (f : FmtX)

theorem sel_inFrame : InItsFrame (.sel h f) (destX (ty f.ty) f.d) False := by
  have hdest : destX (ty f.ty) f.d = destX (if tyBits (ty f.ty) = 64 then ty f.ty else .n32) f.d := by
    by_cases ht : tyBits (ty f.ty) = 64
    · rw [if_pos ht]
    · rw [if_neg ht, destX, if_neg ht]
      rfl
  rw [hdest]
  exact inItsFrame_x (fun _ => rfl) (.bind keeps_takeC fun _ => .bind .dev fun _ => .bind keeps_putX fun _ => .retire)

/-- Words that move values of their type between lanes. -/
theorem laneWords_inFrame : ∀ i ∈ [Instr.shfl h f, .bcast h f, .wscan h f, .wred h f],
    InItsFrame i (destX (ty f.ty) f.d) False := by
  simp only [List.forall_mem_cons, List.not_mem_nil, false_implies, implies_true, and_true]
  refine ⟨inItsFrame_x (fun _ => rfl) ?_, inItsFrame_x (fun _ => rfl) ?_, inItsFrame_x (fun _ => rfl) computes_scanOp,
    inItsFrame_x (fun _ => rfl) computes_scanOp⟩
  · exact .bind keeps_takeS fun _ => .bind .dev fun _ => .bind keeps_putX fun _ => .retire
  · exact .bind keeps_takeS fun _ => .bind .dev fun _ => .bind keeps_putX fun _ => .retire

theorem dequant_inFrame : InItsFrame (.dequant h f) [f.d.toNat] False := by
  refine inItsFrame_x (fun _ => rfl) (.bind keeps_acting fun m => ?_)
  dsimp only
  split
  · exact .bind (keeps_putX (t := .f32)) fun _ => .retire
  · exact .bind keeps_checkShort fun _ => .bind keeps_checkShort fun _ => .bind .dev fun _ => .bind .need fun _ =>
      .bind (.upd fun _ => keepRes_frames ..) fun _ => .bind (keeps_putX (t := .f32)) fun _ => .retire

/-- Words with a result of 32 bits. -/
theorem singleWords_inFrame : ∀ i ∈ [Instr.fclass h f, .getp h f, .srnd h f, .pack2 h f, .dequant h f, .ballot h f, .lanemask h f],
    InItsFrame i [f.d.toNat] False := by
  simp only [List.forall_mem_cons, List.not_mem_nil, false_implies, implies_true, and_true]
  refine ⟨inItsFrame_x (fun _ => rfl) (computes_laneOp (td := .n32)), inItsFrame_x (fun _ => rfl) ?_,
    inItsFrame_x (fun _ => rfl) (computes_laneOp (td := .n32)), inItsFrame_x (fun _ => rfl) (computes_laneOp (td := .n32)),
    dequant_inFrame h f, inItsFrame_x (fun _ => rfl) ?_, inItsFrame_x (fun _ => rfl) ?_⟩
  · exact .bind keeps_takeP fun _ => .bind (keeps_putX (t := .n32)) fun _ => .retire
  · exact .bind keeps_takeP fun _ => .bind (keeps_putX (t := .n32)) fun _ => .retire
  · exact .bind keeps_acting fun _ => .bind (keeps_putX (t := .n32)) fun _ => .retire

/-- Words with a predicate for a result. -/
theorem predWords_inFrame : ∀ i ∈ [Instr.cmp h f, .fcmp h f, .setp h f, .pnot h f, .pand h f, .por h f, .pxor h f, .vote h f],
    InItsFrame i [0x100 + f.d.toNat] False := by
  simp only [List.forall_mem_cons, List.not_mem_nil, false_implies, implies_true, and_true]
  refine ⟨inItsFrame_x (fun _ => rfl) computes_cmpOp, inItsFrame_x (fun _ => rfl) computes_cmpOp, inItsFrame_x (fun _ => rfl) ?_,
    inItsFrame_x (fun _ => rfl) ?_, inItsFrame_x (fun _ => rfl) computes_predOp, inItsFrame_x (fun _ => rfl) computes_predOp,
    inItsFrame_x (fun _ => rfl) computes_predOp, inItsFrame_x (fun _ => rfl) ?_⟩
  · exact .bind keeps_takeX fun _ => .bind .dev fun _ => .bind keeps_putP fun _ => .retire
  · exact .bind keeps_takeP fun _ => .bind keeps_putP fun _ => .retire
  · exact .bind keeps_takeP fun _ => .bind keeps_putP fun _ => .retire

/-- Words with a result of 64 bits. -/
theorem pairWords_inFrame : ∀ i ∈ [Instr.quant h f, .unpack2 h f], InItsFrame i [f.d.toNat, f.d.toNat + 1] False := by
  simp only [List.forall_mem_cons, List.not_mem_nil, false_implies, implies_true, and_true]
  refine ⟨inItsFrame_x (fun _ => rfl) ?_, inItsFrame_x (fun _ => rfl) (computes_laneOp (td := .n64))⟩
  exact .bind keeps_takeX fun _ => .bind .dev fun _ => .bind (.upd fun _ => keepRes_frames ..) fun _ =>
    .bind (keeps_putX (t := .n64)) fun _ => .retire

theorem fieldWords_inFrame (g : FmtI) : ∀ i ∈ [Instr.bfx h g, .bfi h g], InItsFrame i (destX (ty g.ty) g.d) False := by
  simp only [List.forall_mem_cons, List.not_mem_nil, false_implies, implies_true, and_true]
  exact ⟨inItsFrame_x (fun _ => rfl) (computes_laneOp (f := asX g 0xC8#8)),
    inItsFrame_x (fun _ => rfl) (computes_laneOp (f := asX g g.d))⟩

/-- Every word of the execute stream that computes does so in its frame. -/
theorem laneWords_frame (g : FmtI) : ∀ p ∈ laneWords h f g, InItsFrame p.1 p.2 False := by
  have htyped := typedWords_inFrame h f
  have hlane := laneWords_inFrame h f
  have hsingle := singleWords_inFrame h f
  have hpred := predWords_inFrame h f
  have hpair := pairWords_inFrame h f
  have hfield := fieldWords_inFrame h g
  simp only [List.forall_mem_cons, List.not_mem_nil, false_implies, implies_true, and_true, destX] at htyped hlane hsingle hpred hpair hfield
  have hsel := sel_inFrame h f
  simp only [laneWords, List.forall_mem_append, List.forall_mem_map, List.forall_mem_cons, List.not_mem_nil, false_implies,
    implies_true, and_true]
  rw [destX] at hsel
  simp only [htyped, hlane, hsingle, hpred, hpair, hfield, hsel, and_self]

/-- Words of access arithmetic. -/
theorem plainAccess_inFrame : ∀ i ∈ [Instr.aadd h f, .asub h f, .amul h f, .amad h f, .ashl h f, .ashr h f, .asar h f, .aand h f,
    .aor h f, .axor h f, .amin h f, .amax h f, .asel h f, .amov h f], InItsFrame i [f.d.toNat] True := by
  simp only [List.forall_mem_cons, List.not_mem_nil, false_implies, implies_true, and_true]
  and_intros
  all_goals exact inItsFrame_a (fun _ => rfl) computes_accOp

theorem accessWords_frame (k : FmtK) : ∀ p ∈ accessWords h f k, InItsFrame p.1 p.2 True := by
  have hplain := plainAccess_inFrame h f
  simp only [accessWords, List.forall_mem_append, List.forall_mem_map, List.forall_mem_cons, List.not_mem_nil, false_implies,
    implies_true, and_true] at hplain ⊢
  refine ⟨hplain, inItsFrame_a (fun _ => rfl) ?_, inItsFrame_a (fun _ => rfl) computes_accOp⟩
  exact .bind keeps_takeA fun _ => .bind .dev fun _ => .bind keeps_putG fun _ => .retire

end

/-! ### From the body to the step. -/

/-- A word that retires in the middle of its block keeps its frame. -/
theorem retires_frame {ds : List Nat} {keep : Prop} {d e : Dev} (h : Frames keptSplit ds keep d e) (stl : Nat) (acc exe : Bool) :
    Frames restOfSplit ds keep d (setMySplit (countWord e stl acc exe)
      { mySplit (countWord e stl acc exe) with pc := (mySplit e).pc + 8 }) := by
  have hkept : ∀ q r, keptSplit q = keptSplit r → restOfSplit q = restOfSplit r := fun q r h =>
    congrArg (fun q => ({ q with pc := 0 } : Split)) h
  exact ((h.trans (countWord_frames stl acc exe)).mono hkept).trans (.setMySplit rfl)

theorem atLast_of_frame {ds : List Nat} {keep : Prop} {d e : Dev} (h : Frames keptSplit ds keep d e) :
    atLast (mySplit e) = atLast (mySplit d) := by
  have hmine := h.wave.mine
  have hsame : keptSplit (mySplit e) = keptSplit (mySplit d) := by
    unfold mySplit
    rw [h.cur]
    exact hmine
  have hlast : ∀ q, atLast q = atLast (keptSplit q) := fun _ => rfl
  rw [hlast, hsame, ← hlast]

/-- A word that computes, and does not trap, leaves the device as it was or in its frame. -/
theorem frame_of_exec {i : Instr} {ds : List Nat} {keep : Prop} (hi : InItsFrame i ds keep) {s t : State}
    (hl : atLast (mySplit s.dev) = false) (hx : exec i s = .next t) (hn : ∀ tr, tr.cause ≠ 0 → ¬ Traps i s tr) :
    ∃ e, t = finish s.mem e ∧ Frames restOfSplit ds keep s.dev e := by
  obtain ⟨h, acc, exe, codes, body, hexec, hbody⟩ := hi
  cases hr : runAct (framed i h acc exe codes body) s.mem s.dev with
  | error tr =>
    have htraps := traps_of_frame (hexec s) hr
    have hc : tr.cause = 0 := by
      by_contra hc
      exact hn tr hc htraps
    refine ⟨s.dev, ?_, .refl _⟩
    have heq := hx.symm.trans htraps
    rw [if_pos hc] at heq
    cases heq
    rfl
  | ok r =>
    obtain ⟨⟨⟩, e⟩ := r
    have heq := hx.symm.trans ((hexec s).trans (congrArg Host.Outcome.next (runSplit_ok hr)))
    cases heq
    refine ⟨e, rfl, ?_⟩
    unfold framed at hr
    obtain ⟨_, _, hdev, hr⟩ := runAct_bind_inv hr
    cases hdev
    obtain ⟨_, _, hneed, hr⟩ := runAct_bind_inv hr
    obtain ⟨-, rfl⟩ := need_inv hneed
    have hend : ∀ {d1}, Frames keptSplit ds keep s.dev d1 →
        runAct (do checkBegun s.dev; retireWord h.stl.toNat acc exe) s.mem d1 = .ok ((), e) →
        Frames restOfSplit ds keep s.dev e := by
      intro d1 h1 hr
      rw [runAct_bind_ok (checkBegun_unbegun (.inl hl)), retireWord_next ((atLast_of_frame h1).trans hl)] at hr
      cases hr
      exact retires_frame h1 _ acc exe
    dsimp only at hr
    split at hr
    · obtain ⟨v, d1, hb, hr⟩ := runAct_bind_inv hr
      obtain ⟨rfl, h1⟩ := hbody _ _ _ _ hb
      exact hend h1 hr
    · obtain ⟨_, _, hm, hr⟩ := runAct_bind_inv hr
      obtain rfl := acting_inv hm
      obtain ⟨_, _, hneed, hr⟩ := runAct_bind_inv hr
      obtain ⟨-, rfl⟩ := need_inv hneed
      obtain ⟨v, d1, hb, hr⟩ := runAct_bind_inv hr
      obtain ⟨rfl, h1⟩ := hbody _ _ _ _ hb
      exact hend h1 hr

/-- What the statement says of a step that stays in its frame. -/
theorem finish_frame {ds : List Nat} {keep : Prop} {s : State} {e : Dev} (hl : s.dev.wlog = [])
    (h : Frames restOfSplit ds keep s.dev e) : finish s.mem e = ⟨s.mem, e⟩ := by
  have hlog : e.wlog = [] := h.wlog.trans hl
  have hdev : { e with wlog := [] } = e := by rw [← hlog]
  unfold finish
  rw [hdev, hlog]
  rfl

/-- Settles O40: each word computes in its frame, and so does the step. -/
theorem registerFrame : Obligations.RegisterFrame := by
  unfold Obligations.RegisterFrame
  intro h f g k s t i ds hi hl hw hx hn
  have hframe : ∀ keep, InItsFrame i ds keep → t.mem = s.mem ∧ Frames restOfSplit ds keep s.dev t.dev := fun keep hin => by
    obtain ⟨e, rfl, he⟩ := frame_of_exec hin hl hx hn
    rw [finish_frame hw he]
    exact ⟨rfl, he⟩
  have hsome : t.mem = s.mem ∧ Frames restOfSplit ds False s.dev t.dev := by
    obtain hi | hi := List.mem_append.1 hi
    · exact hframe _ (laneWords_frame h f g _ hi)
    · obtain ⟨hm, y, hy, hwave⟩ := hframe _ (accessWords_frame h f k _ hi)
      exact ⟨hm, y, hy, hwave.rest, hwave.regs, hwave.others, hwave.mine, False.elim⟩
  obtain ⟨hm, hd⟩ := hsome
  obtain ⟨hrest, hregs, hothers, hmine, -⟩ := hd.wave
  refine ⟨hm, hd.rest, fun w => hd.otherWaves, hrest, hregs, hothers, ?_, fun hacc => ?_⟩
  · unfold mySplit
    rw [hd.cur]
    exact hmine
  · exact (hframe _ (accessWords_frame h f k _ hacc)).2.wave.flags trivial

end Sys2Proof.Machine
end

section
/-!
SUPPORT. The device steps of the service processor (spec/25_service.md R372 to R381, spec/24_host_and_fabric.md R367 to R373): each is
its function of the device, and what that function does in each case.
-/
namespace Sys2Proof.Machine
open Sys2Proof.Claims

/-! ### The mailbox (R367, R373, R376). -/

section
variable {d : Dev} {c : MailCmd} {tag : BitVec 32} {len : BitVec 16}

theorem doorbell_overrun (h : d.regs.mbBusy ≠ none) : doorbell c tag len d = { d with regs := { d.regs with mbOvr := true } } :=
  if_pos (Option.isSome_iff_ne_none.2 h)

theorem doorbell_taken (h : d.regs.mbBusy = none) (hl : len.toNat ≤ 2048) : doorbell c tag len d =
    { d with regs := { d.regs with mbBusy := some c, mbTag := tag, mbDone := false, mbLen := len } } := by
  rw [doorbell, h, if_neg (by simp), if_neg (by omega)]

theorem doorbell_tooLong (h : d.regs.mbBusy = none) (hl : 2048 < len.toNat) : doorbell c tag len d =
    { d with regs := { d.regs with mbTag := tag, mbResult := 0xFFFF, mbDone := true } } := by
  rw [doorbell, h, if_neg (by simp), if_pos hl]
  rfl

end

/-- Every doorbell is taken in one way. -/
theorem exec_doorbell {tag : BitVec 32} {len : BitVec 16} (s : State) : ∀ p ∈ [(Instr.loadfw tag len, MailCmd.loadfw),
    (.attest tag len, .attest), (.dieoff tag len, .dieoff), (.dieon tag len, .dieon), (.relread tag len, .relread),
    (.logread tag len, .logread), (.route tag len, .route), (.reset tag len, .reset)],
    exec p.1 s = runEvent (fun _ d => doorbell p.2 tag len d) s := by
  simp only [List.forall_mem_cons, List.not_mem_nil, false_implies, implies_true, and_true]
  and_intros
  all_goals rfl

section
variable {s : State} {c : MailCmd} (hb : s.dev.regs.mbBusy = some c)
include hb

theorem becomes_completes {res : BitVec 16} (h : (mailEffect s.mem s.dev c).1 = some res) :
    let r := mailEffect s.mem s.dev c
    Becomes .mailboxCompletion s { r.2.1 with regs := { r.2.1.regs with
      mbData := r.2.2.zipIdx.foldl (fun t b => put 0 t b.2 b.1) r.2.1.regs.mbData, mbResult := res, mbDone := true, mbBusy := none } } := by
  refine becomes_of_exec rfl ?_
  dsimp only
  rw [hb, Option.map_some]
  generalize mailEffect s.mem s.dev c = r at h ⊢
  obtain ⟨_, d1, bs⟩ := r
  cases h
  rfl

theorem becomes_underWay (h : (mailEffect s.mem s.dev c).1 = none) :
    Becomes .mailboxCompletion s (mailEffect s.mem s.dev c).2.1 := by
  refine becomes_of_exec rfl ?_
  dsimp only
  rw [hb, Option.map_some]
  generalize mailEffect s.mem s.dev c = r at h ⊢
  obtain ⟨_, d1, bs⟩ := r
  cases h
  rfl

end

theorem becomes_leaves {s : State} (hb : s.dev.regs.mbBusy = none) : Becomes .mailboxCompletion s (goLeaving s.mem s.dev) := by
  refine becomes_of_exec rfl ?_
  dsimp only
  rw [hb]
  rfl

/-- Below stage 5 few commands are admitted (R373). -/
theorem mailEffect_early {m : Memory} {d : Dev} {c : MailCmd} (hs : d.regs.stage ≠ 5) (hl : c ≠ .loadfw) (ha : c ≠ .attest)
    (hr : c ≠ .reset) : mailEffect m d c = (some 6, d, []) :=
  if_pos (by
    unfold admitted
    rw [beq_false_of_ne hs, beq_false_of_ne hl, beq_false_of_ne ha, beq_false_of_ne hr]
    rfl)

/-! ### A die that goes offline (R380). -/

section
variable {m : Memory} {d : Dev} {die : Nat}

theorem dieOff_refused (hl : d.leaving = none) (h : mayLeave d die ≠ 0) : dieOff m d die = (some (mayLeave d die), d) := by
  rw [dieOff, hl]
  exact if_neg h

theorem dieOff_starts (hl : d.leaving = none) (h : mayLeave d die = 0) :
    let e := goLeaving m (abortWide m { d with leaving := some die, hotPlugs := d.hotPlugs + 1 })
    dieOff m d die = (if e.leaving = none then some 0 else none, e) := by
  rw [dieOff, hl]
  exact if_pos h

theorem goLeaving_waits (hl : d.leaving = some die) (h : moveV1 m d (if die = 0 then 2 else 1) = none) : goLeaving m d = d := by
  unfold goLeaving
  rw [hl]
  dsimp only
  rw [h]

theorem goLeaving_leaves {d1 : Dev} (hl : d.leaving = some die) (h : moveV1 m d (if die = 0 then 2 else 1) = some d1) :
    goLeaving m d = { ((List.range 8).map (8 * die + ·)).foldl (portFails m) (dropDie d1 die) with leaving := none } := by
  unfold goLeaving
  rw [hl]
  dsimp only
  rw [h]
  rfl

end

/-! ### Lasting faults (R379). -/

section
variable {m : Memory} {d : Dev}

theorem remap_core {core : Nat} (h : 0 < look 0 d.lastingAt (faultKey (.core core))) : remap m d (.core core) =
    ({ d with lastingAt := put 0 d.lastingAt (faultKey (.core core)) (look 0 d.lastingAt (faultKey (.core core)) + 1) }, true) := by
  unfold remap coreFault countFault
  dsimp only
  rw [if_pos (decide_eq_true h)]

theorem remap_linkLane {port : Nat} : remap m d (.linkLane port) =
    (let k := faultKey (.linkLane port)
     let d1 := { d with lastingAt := put 0 d.lastingAt k (look 0 d.lastingAt k + 1) }
     (if 0 < look 0 d.lastingAt k then portFails m d1 port else startRetrain d1 port, false)) := by
  simp only [remap, countFault, decide_eq_true_eq]

theorem remap_hbmRow {line : Nat} : remap m d (.hbmRow line) =
    (let k := faultKey (.hbmRow line)
     let d1 := { d with lastingAt := put 0 d.lastingAt k (look 0 d.lastingAt k + 1) }
     (if 0 < look 0 d.lastingAt k then { d1 with poison :=
       ((List.range (Config.hbmRegion line).2).map ((Config.hbmRegion line).1 + ·) ++ d1.poison).eraseDups } else d1, false)) := by
  simp only [remap, countFault, decide_eq_true_eq]

end

/-! ### Ports (R370, R372). -/

theorem portState_setPort (d : Dev) (p k : Nat) (x : BitVec 4) :
    portState (setPort d p x) k = if k = p then x else portState d k := look_put ..

/-- Ports that are set one after the other, each by its own dead lanes. -/
theorem portState_foldl {g : Dev → Nat → Dev} {f : Sparse Nat → Nat → BitVec 4}
    (hp : ∀ d p k, portState (g d p) k = if k = p then f d.lastingAt p else portState d k)
    (hl : ∀ d p, (g d p).lastingAt = d.lastingAt) (ps : List Nat) (d : Dev) (k : Nat) :
    portState (ps.foldl g d) k = if k ∈ ps then f d.lastingAt k else portState d k := by
  induction ps generalizing d with
  | nil => simp
  | cons p ps ih =>
    rw [List.foldl_cons, ih, hl, hp]
    by_cases hk : k ∈ ps
    · simp [hk]
    · by_cases he : k = p <;> simp [hk, he]

/-! ### Device memory is cleared (R372). -/

/-- The stores that clear device memory. -/
def clearing (m : Memory) : List Host.Cell := (m.filter (fun c => c.1 < hostKey)).map (fun c => (c.1, blankByte))

theorem look_of_not_mem {α : Type} {d : α} {t : Sparse α} {k : Nat} (h : ∀ c ∈ t, c.1 ≠ k) : look d t k = d := by
  induction t with
  | nil => rfl
  | cons c t ih =>
    rw [look, if_neg (h c (by simp))]
    exact ih fun c hc => h c (by simp [hc])

/-- What memory holds once it has been cleared: nothing in the device, and the host's as before. -/
theorem look_cleared (m : Memory) (a : Nat) :
    look blankByte (commit m (clearing m)) a = if a < hostKey then blankByte else look blankByte m a := by
  have hread := look_commit m { ({} : Dev) with wlog := clearing m } a
  rw [hread]
  unfold rdByte
  dsimp only
  cases hf : (clearing m).find? (fun c => c.1 == a) with
  | some c =>
    have hmem := List.mem_of_find?_eq_some hf
    have hkey := List.find?_some hf
    simp only [clearing, List.mem_map, List.mem_filter] at hmem
    obtain ⟨b, ⟨-, hb⟩, rfl⟩ := hmem
    rw [if_pos (by simpa [← show b.1 = a from beq_iff_eq.1 hkey] using hb)]
  | none =>
    dsimp only
    by_cases ha : a < hostKey
    · rw [if_pos ha]
      refine look_of_not_mem fun c hc heq => ?_
      have hnot := List.find?_eq_none.1 hf (c.1, blankByte)
        (List.mem_map.2 ⟨c, List.mem_filter.2 ⟨hc, by simpa [heq] using ha⟩, rfl⟩)
      exact hnot (by simpa using heq)
    · rw [if_neg ha]

/-! ### Bring-up (R372 to R375). -/

/-- What a reset leaves (R372). -/
theorem becomes_restart (s : State) : ∃ e, Becomes .deviceReset s e ∧ e.regs.stage = 0 ∧ e.regs.dies = 3 ∧ e.waves = [] ∧
    e.launches = [] ∧ e.tlb = [] ∧ e.image = s.dev.image ∧ e.stored = s.dev.stored ∧ e.window = s.dev.window ∧
    e.reliability = s.dev.reliability ∧ e.regs.lasting = s.dev.regs.lasting ∧ e.lastingAt = s.dev.lastingAt ∧
    e.spared = s.dev.spared ∧ e.poison = s.dev.poison :=
  ⟨restart s.mem s.dev, event_of rfl rfl, rfl, rfl, rfl, rfl, rfl, rfl, rfl, rfl, rfl, rfl, rfl, rfl, rfl⟩

/-- A self-test goes on where both dies work and no fault is left without a spare, and halts otherwise. -/
theorem becomes_selftest {s : State} {good : BitVec 2} (hs : s.dev.regs.stage = 1) :
    let r := selfTest s.mem { s.dev with tick := s.dev.tick + 1 } (freeFaults (Config.freeChoice s.dev.tick))
    Becomes (.selftest good) s (if good = 3 && !r.2 then toStage r.1 2 else haltWith r.1 2) := by
  refine becomes_of_exec rfl ?_
  dsimp only
  rw [if_neg (not_not.2 hs)]

/-- Whether an image may run (R375). -/
theorem imageResult_ok {image : List Byte} :
    imageResult image = 0 ↔ Config.imageSigned image = true ∧ ¬ Config.imageVersion image < Config.fusedMinimum := by
  unfold imageResult
  cases Config.imageSigned image
  · simp
  · by_cases hv : Config.imageVersion image < Config.fusedMinimum <;> simp [hv]

/-- An image that may not run, or whose writing was cut short, halts the device. -/
theorem imageBad_iff {d : Dev} : (d.imageCut || imageResult (heldImage d) ≠ 0) = true ↔
    ¬ (Config.imageSigned (heldImage d) = true ∧ ¬ Config.imageVersion (heldImage d) < Config.fusedMinimum ∧ d.imageCut = false) := by
  rw [Bool.or_eq_true, decide_eq_true_eq, ne_eq, imageResult_ok]
  cases d.imageCut <;> simp

theorem becomes_fwcheck {s : State} (hs : s.dev.regs.stage = 2) : Becomes .fwcheck s
    (if s.dev.imageCut || imageResult (heldImage s.dev) ≠ 0 then haltWith s.dev 1
     else toStage { s.dev with regs := { s.dev.regs with fwver := Config.imageVersion (heldImage s.dev) } } 3) := by
  refine becomes_of_exec rfl ?_
  dsimp only
  rw [if_neg (not_not.2 hs)]

/-- The device once its memory is cleared, and its ports train. -/
def cleared (m : Memory) (d : Dev) : Dev :=
  toStage ((List.range 16).foldl (fun d p => train d p 1) { d with
    wlog := clearing m ++ d.wlog, poison := d.poison.filter (fun n => hostKey / 64 ≤ n || deadLine d n) }) 4

theorem becomes_meminit {s : State} (hs : s.dev.regs.stage = 3) : Becomes .meminit s (cleared s.mem s.dev) := by
  refine becomes_of_exec rfl ?_
  dsimp only
  rw [if_neg (not_not.2 hs)]
  rfl

/-- The stage and the stores of a device say nothing of its ports. -/
theorem portState_toStage (d : Dev) (n : BitVec 4) (p : Nat) : portState (toStage d n) p = portState d p := rfl
theorem portState_unstamped (d : Dev) (p : Nat) : portState { d with lines := [], maxWts := 0, xstamp := 0 } p = portState d p := rfl
theorem portState_finish (m : Memory) (d : Dev) (p : Nat) : portState (finish m d).dev p = portState d p := rfl

theorem portState_cleared (m : Memory) (d : Dev) {p : Nat} (hp : p < 16) : portState (cleared m d) p = 1 := by
  rw [cleared, portState_toStage, portState_foldl (g := fun d p => train d p 1) (f := fun _ _ => 1)
    (fun d p k => portState_setPort d p k 1) (fun _ _ => rfl), if_pos (List.mem_range.2 hp)]

/-- Training ports changes neither stores nor poison. -/
theorem wlog_train (ps : List Nat) (d : Dev) : (ps.foldl (fun d p => train d p 1) d).wlog = d.wlog :=
  foldl_keeps (g := Dev.wlog) (f := fun d p => train d p 1) (fun _ _ => rfl) ps d
theorem poison_train (ps : List Nat) (d : Dev) : (ps.foldl (fun d p => train d p 1) d).poison = d.poison :=
  foldl_keeps (g := Dev.poison) (f := fun d p => train d p 1) (fun _ _ => rfl) ps d

theorem wlog_toStage (d : Dev) (n : BitVec 4) : (toStage d n).wlog = d.wlog := rfl
theorem poison_toStage (d : Dev) (n : BitVec 4) : (toStage d n).poison = d.poison := rfl

theorem wlog_cleared (m : Memory) (d : Dev) : (cleared m d).wlog = clearing m ++ d.wlog := by
  rw [cleared, wlog_toStage, wlog_train]

theorem poison_cleared (m : Memory) (d : Dev) :
    (cleared m d).poison = d.poison.filter (fun n => hostKey / 64 ≤ n || deadLine d n) := by
  rw [cleared, poison_toStage, poison_train]

/-- The device once its ports have trained. -/
def linked (d : Dev) (up spare : BitVec 16) : Dev :=
  toStage { (List.range 16).foldl (fun d p => setPort d p (if up.getLsbD p then trained d p (spare.getLsbD p) else 0)) d with
    lines := [], maxWts := 0, xstamp := 0 } 5

theorem becomes_links {s : State} (hs : s.dev.regs.stage = 4) (up spare : BitVec 16) :
    Becomes (.links up spare) s (linked s.dev up spare) := by
  refine becomes_of_exec rfl ?_
  dsimp only
  rw [if_neg (not_not.2 hs)]
  rfl

theorem portState_linked (d : Dev) (up spare : BitVec 16) {p : Nat} (hp : p < 16) : portState (linked d up spare) p =
    if up.getLsbD p = false ∨ 2 ≤ deadLanes d p then 0
    else if spare.getLsbD p = true ∨ deadLanes d p = 1 then 4 else 2 := by
  rw [linked, portState_toStage, portState_unstamped, portState_foldl
    (g := fun d p => setPort d p (if up.getLsbD p then trained d p (spare.getLsbD p) else 0))
    (f := fun la p => if up.getLsbD p then trained { ({} : Dev) with lastingAt := la } p (spare.getLsbD p) else 0)
    (fun d p k => portState_setPort d p k _) (fun _ _ => rfl), if_pos (List.mem_range.2 hp)]
  cases hup : up.getLsbD p
  · simp
  · rw [if_pos rfl, trained_eq]
    simp only [Bool.true_eq_false, false_or, deadLanes]
    rfl

/-! ### Power (R381). -/

/-- POWER and TEMP as measured, with what they say of PALARM. -/
def judged (d : Dev) (power temp : BitVec 16) : Dev := judgePower { d with regs := { d.regs with power := power, temp := temp } }

theorem measured_cool {m : Memory} {d : Dev} {power temp : BitVec 16} (h : temp.toNat < 1760) :
    measured m d power temp = judged d power temp := if_neg (by omega)

theorem measured_hot {m : Memory} {d : Dev} {power temp : BitVec 16} (h : 1760 ≤ temp.toNat) :
    measured m d power temp = tripHalt m (judged d power temp) := if_pos (by omega)

/-- Since when both have been low. -/
def coolFrom (d : Dev) (power temp : BitVec 16) : Option Nat :=
  if 100 * power.toNat < 95 * d.regs.plimit.toNat ∧ temp.toNat < 1440 then some (d.regs.coolSince.getD d.cycle) else none

theorem judged_eq (d : Dev) (power temp : BitVec 16) : judged d power temp = { d with regs := { d.regs with
    power := power, temp := temp, coolSince := coolFrom d power temp,
    palarm := d.regs.palarm || decide (d.regs.plimit < power) || decide (1520 < temp.toNat) } } := by
  unfold judged judgePower coolFrom
  simp only [Bool.and_eq_true, decide_eq_true_eq]

theorem any_since {o : Option Nat} {n c : Nat} :
    o.any (fun t => decide (t + n ≤ c)) = true ↔ ∃ t, o = some t ∧ t + n ≤ c := by
  cases o <;> simp

/-- PALARM clears once both have been low for 10 ms. -/
theorem becomes_alarmClear {s : State} {power temp : BitVec 16} (h : temp.toNat < 1760) : Becomes (.powerAlarmClear power temp) s
    (let e := judged s.dev power temp
     if e.regs.coolSince.any (fun t => decide (t + 22500000 ≤ e.cycle)) then { e with regs := { e.regs with palarm := false } }
     else e) := by
  refine becomes_of_exec rfl ?_
  dsimp only
  rw [measured_cool h, coolCycles]

section
variable {s : State} {power temp : BitVec 16} (h : temp.toNat < 1760)
include h

theorem becomes_alarmClear_long (hc : ∃ t, coolFrom s.dev power temp = some t ∧ t + 22500000 ≤ s.dev.cycle) :
    Becomes (.powerAlarmClear power temp) s { s.dev with regs := { s.dev.regs with
      power := power, temp := temp, coolSince := coolFrom s.dev power temp, palarm := false } } := by
  have hgo := becomes_alarmClear (s := s) (power := power) h
  rw [judged_eq] at hgo
  dsimp only at hgo
  rwa [if_pos (any_since.2 hc)] at hgo

theorem becomes_alarmClear_short (hc : ¬ ∃ t, coolFrom s.dev power temp = some t ∧ t + 22500000 ≤ s.dev.cycle) :
    Becomes (.powerAlarmClear power temp) s { s.dev with regs := { s.dev.regs with
      power := power, temp := temp, coolSince := coolFrom s.dev power temp,
      palarm := s.dev.regs.palarm || decide (s.dev.regs.plimit < power) || decide (1520 < temp.toNat) } } := by
  have hgo := becomes_alarmClear (s := s) (power := power) h
  rw [judged_eq] at hgo
  dsimp only at hgo
  rwa [if_neg (fun hany => hc (any_since.1 hany))] at hgo

end

/-- At 110 °C the device halts, with TEMP at least there. -/
theorem becomes_thermalTrip (s : State) : Becomes .thermalTrip s (tripHalt s.mem (judgePower { s.dev with regs := { s.dev.regs with
    temp := if s.dev.regs.temp.toNat < 1760 then 1760 else s.dev.regs.temp } })) := by
  refine becomes_of_exec rfl (measured_hot ?_)
  split
  · decide
  · next h => exact Nat.not_lt.1 h

theorem finish_mem (m : Memory) (d : Dev) : (finish m d).mem = commit m d.wlog := rfl

/-- Settles O38: each step is its function of the device, case by case. -/
theorem serviceSteps : Obligations.ServiceSteps := by
  unfold Obligations.ServiceSteps
  intro s tag len d g halt
  refine ⟨fun i c hi => ⟨fun hb => ?_, fun hb hl => ?_, fun hb hl => ?_⟩, fun c hb => ⟨fun res h => becomes_completes hb h,
    fun h => becomes_underWay hb h, mailEffect_early⟩, becomes_leaves, fun die => ⟨dieOff_refused, dieOff_starts, goLeaving_waits,
    fun d1 => goLeaving_leaves⟩, becomes_restart s, fun hs good => ⟨freeFaults (Config.freeChoice s.dev.tick), fun h => ?_, fun h => ?_, rfl⟩, fun x => ⟨?_, ?_, ?_, ?_⟩,
    fun hs => ⟨fun h => ?_, fun h => ?_⟩, fun hs => ⟨_, becomes_meminit hs, ?_, fun p hp => ?_, fun n hn hp => ?_,
    fun hm hw => ⟨fun a ha => ?_, fun a ha => ?_⟩⟩, fun hs up spare => ⟨_, becomes_links hs up spare, ?_, ?_,
    fun p hp => portState_linked _ _ _ hp⟩, fun e => becomes_of_exec rfl rfl,
    fun e => becomes_of_exec rfl rfl,
    fun power temp => ⟨fun h => ?_, fun h => ?_, fun h hc => ?_, fun h hc => ?_⟩, ?_⟩
  · exact becomes_of_exec (exec_doorbell s _ hi) (doorbell_overrun hb)
  · exact becomes_of_exec (exec_doorbell s _ hi) (doorbell_taken hb hl)
  · exact becomes_of_exec (exec_doorbell s _ hi) (doorbell_tooLong hb hl)
  · have hgo := becomes_selftest (good := good) hs
    dsimp only at hgo
    rwa [if_pos (by simpa using h)] at hgo
  · have hgo := becomes_selftest (good := good) hs
    dsimp only at hgo
    rwa [if_neg (by simpa using h)] at hgo
  · rintro core rfl h
    exact remap_core h
  · rintro port rfl
    exact remap_linkLane
  · rintro line rfl h
    rw [remap_hbmRow]
    dsimp only
    rw [if_neg h]
  · rintro line rfl h n hn
    rw [remap_hbmRow]
    dsimp only
    rw [if_pos h]
    exact List.mem_eraseDups.2 (List.mem_append_left _ (List.mem_map.2 ⟨n, List.mem_range.2 hn, rfl⟩))
  · have hgo := becomes_fwcheck hs
    rwa [if_neg (fun hbad => imageBad_iff.1 hbad h)] at hgo
  · have hgo := becomes_fwcheck hs
    rwa [if_pos (imageBad_iff.2 h)] at hgo
  · rfl
  · exact (portState_finish ..).trans (portState_cleared _ _ hp)
  · have hpoison : n ∈ (cleared s.mem s.dev).poison := hp
    rw [poison_cleared, List.mem_filter] at hpoison
    simpa [Nat.not_le.2 hn] using hpoison.2
  · rw [finish_mem, wlog_cleared, hw, List.append_nil, look_cleared, if_pos ha]
  · rw [finish_mem, wlog_cleared, hw, List.append_nil, look_cleared, if_neg (Nat.not_lt.2 ha)]
  · rfl
  · rfl
  · exact becomes_of_exec rfl ((measured_cool h).trans (judged_eq ..))
  · exact becomes_of_exec rfl ((measured_hot h).trans (congrArg _ (judged_eq ..)))
  · exact becomes_alarmClear_long h hc
  · exact becomes_alarmClear_short h hc
  · intro d1 d2 d3
    change Becomes .thermalTrip s (haltWith d3 3)
    exact becomes_thermalTrip s

end Sys2Proof.Machine
end

section
/-!
SUPPORT. The elements of a copy (spec/17_isa_copy_task_system.md R316 to R318, R321 to R323): addresses, ranges, and the order in which
they are taken.
-/
namespace Sys2Proof.Machine
open Sys2Proof.Claims

/-! ### Fields of a record. -/

theorem lRank_le (r : BitVec 512) : lRank r ≤ 4 := by
  have h := bits_lt r 73 72
  unfold lRank
  omega

/-- A coordinate list's entries past its end are 0. -/
theorem crd_of_length_le {q : List Int} {i : Nat} (h : q.length ≤ i) : crd q i = 0 := by
  simp [crd, h]

/-! ### Addresses (R316, R318). -/

theorem elemAddr_sub_base (r : BitVec 512) (base : W64) (c : List Int) : elemAddr r base c - base = elemOff r c := by
  unfold elemAddr
  bv_omega

/-- Bit `j` of the run of `k` bits from `l + h` on, brought down to `l`. -/
theorem getLsbD_swizzle (x : W64) (l h k j : Nat) (hj : j < 64) :
    (((x >>> (l + h)) &&& w64 (2 ^ k - 1)) <<< l).getLsbD j =
      (decide (l ≤ j) && decide (j < l + k) && x.getLsbD (j + h)) := by
  simp only [BitVec.getLsbD_shiftLeft, BitVec.getLsbD_and, BitVec.getLsbD_ushiftRight, w64, BitVec.getLsbD_ofNat,
    Nat.testBit_two_pow_sub_one]
  by_cases hl : l ≤ j
  · have hs : l + h + (j - l) = j + h := by omega
    have hk : j - l < k ↔ j < l + k := by omega
    have h64 : j - l < 64 := by omega
    simp [hl, hj, hs, hk, h64, Nat.not_lt.mpr hl, Bool.and_comm]
  · simp [hl, Nat.not_le.mp hl]

theorem elementAddresses : ElementAddresses := by
  refine ⟨fun r base c j hj => ?_, fun r base c h => ?_, fun r base c => ?_⟩
  · rw [elemAddr_sub_base]
    simp only [elemOff, BitVec.getLsbD_xor, getLsbD_swizzle _ _ _ _ _ hj]
  · simp [elemAddr, elemOff, h, w64]
  · simp [descAddr]

/-! ### Range and policy (R317). -/

theorem outRange_iff (r : BitVec 512) (c : List Int) : outRange r c = true ↔
    (∃ i, i < lRank r ∧ (crd c i < 0 ∨ (lExt r i : Int) ≤ crd c i)) ∨ (∃ i, lRank r ≤ i ∧ i < 4 ∧ crd c i ≠ 0) := by
  have hr := lRank_le r
  simp only [outRange, List.any_eq_true, List.mem_range]
  constructor
  · rintro ⟨i, hi, h⟩
    by_cases hir : i < lRank r
    · exact .inl ⟨i, hir, by simpa [hir] using h⟩
    · exact .inr ⟨i, by omega, hi, by simpa [hir] using h⟩
  · rintro (⟨i, hir, h⟩ | ⟨i, hir, hi, h⟩)
    · exact ⟨i, by omega, by simpa [hir] using h⟩
    · exact ⟨i, hi, by simpa [Nat.not_lt.mpr hir] using h⟩

/-- A coordinate of the clamped list. -/
theorem crd_clampTo (r : BitVec 512) (c : List Int) {i : Nat} (hi : i < 4) :
    crd (clampTo r c) i = if i < lRank r then max 0 (min (crd c i) ((lExt r i : Int) - 1)) else 0 := by
  simp [crd, clampTo, hi]

theorem outRange_clampTo {r : BitVec 512} (c : List Int) (h : ∀ i, i < lRank r → 0 < lExt r i) : outRange r (clampTo r c) = false := by
  rw [Bool.eq_false_iff, ne_eq, outRange_iff]
  rintro (⟨i, hir, hb⟩ | ⟨i, hir, hi, hb⟩)
  · have := h i hir
    have := lRank_le r
    rw [crd_clampTo r c (by omega), if_pos hir] at hb
    omega
  · rw [crd_clampTo r c hi, if_neg (by omega)] at hb
    exact hb rfl

theorem crd_clampTo_cases {r : BitVec 512} (c : List Int) (h : ∀ i, i < lRank r → 0 < lExt r i) {i : Nat} (hi : i < 4) :
    crd (clampTo r c) i = if lRank r ≤ i then 0 else if crd c i < 0 then 0
      else if (lExt r i : Int) ≤ crd c i then (lExt r i : Int) - 1 else crd c i := by
  rw [crd_clampTo r c hi]
  by_cases hir : i < lRank r
  · have := h i hir
    rw [if_pos hir, if_neg (by omega)]
    split_ifs <;> omega
  · rw [if_neg hir, if_pos (by omega)]

/-- An engine action after another that has run. -/
theorem eng_bind_ok {α β : Type} {x : Eng α} {f : α → Eng β} {m : Memory} {d e : Dev} {a : α} (h : x m d = .ok (a, e)) :
    (x >>= f) m d = f a m e := by
  show (StateT.bind (x m) (fun a => f a m)) d = _
  simp only [StateT.bind, bind, Except.bind, h]

/-- The record that a copy reads its elements by. -/
def readRaw (c : Copy) : BitVec 512 := (if readsSecond c then c.lb else c.la).raw

section
variable {c : Copy} {q : List Int} {m : Memory} {d : Dev} (hz : c.zeros = 0)
include hz

theorem readElem_zero (ho : outRange (readRaw c) q = true) (hp : lPol (readRaw c) = 0) :
    readElem c q m d = .ok ((List.replicate (lSize (readRaw c)) 0, none), d) := by
  unfold readRaw at ho hp ⊢
  unfold readElem
  dsimp only
  rw [hz, ho, hp]
  rfl

theorem readElem_fault (ho : outRange (readRaw c) q = true) (hp : lPol (readRaw c) = 2) :
    readElem c q m d = .error (.fault none { trap := copyTrap c (readsSecond c) 6 0 q, onWrite := false }) := by
  unfold readRaw at ho hp
  unfold readElem
  dsimp only
  rw [hz, ho, hp]
  rfl

/-- An element with an address of its own is read there: at its coordinates, or at those that the clamp policy gives it. -/
theorem readElem_read {out : Bool} {a : W64} {p : Place} {bs : List Byte} {d1 d2 : Dev} (ho : outRange (readRaw c) q = out)
    (hp : out = true → lPol (readRaw c) = 1)
    (ha : elemAddr (readRaw c) (lBase (readRaw c)) (if out then clampTo (readRaw c) q else q) = a)
    (hal : a.toNat % lSize (readRaw c) = 0)
    (hpl : eng c (readsSecond c) q false (engPlace (lSpace (readRaw c)) (lSize (readRaw c)) a.toNat false) m d = .ok (p, d1))
    (hrd : eng c (readsSecond c) q false (engRead p (lSize (readRaw c)) a.toNat) m d1 = .ok (bs, d2)) :
    readElem c q m d = .ok ((bs, some p), d2) := by
  have hn : ∀ k, k ≠ 1 → (out && lPol (readRaw c) == k) = false := by
    intro k hk
    cases out
    · rfl
    · simp [hp rfl, Ne.symm hk]
  unfold readRaw at ho ha hal hpl hrd hn
  unfold readElem
  dsimp only
  rw [hz, ho, hn 0 (by decide), hn 2 (by decide), if_neg (by simp), if_neg (by simp), ha, if_neg (by simpa using hal)]
  exact (eng_bind_ok hpl).trans (eng_bind_ok hrd)

end

theorem outOfRange : OutOfRange := by
  refine ⟨outRange_iff, fun r c h => ⟨outRange_clampTo c h, fun i hi => crd_clampTo_cases c h hi⟩, fun c q m d hz => ?_⟩
  refine ⟨readElem_zero hz, readElem_fault hz, ?_⟩
  rintro a p bs d1 d2 (⟨ho, rfl⟩ | ⟨ho, hp, rfl⟩) hal hpl hrd
  · exact readElem_read hz (out := false) ho (by simp) rfl hal hpl hrd
  · exact readElem_read hz (out := true) ho (fun _ => hp) rfl hal hpl hrd

/-! ### The order of elements (R321 to R323). -/

/-- The product of a list's elements does not depend on where it begins. -/
theorem foldl_mul_eq (es : List Nat) (k : Nat) : es.foldl (· * ·) k = k * es.foldl (· * ·) 1 := by
  simpa using List.foldl_assoc (op := (· * · : Nat → Nat → Nat)) (l := es) (a₁ := k) (a₂ := 1)

theorem foldl_mul_cons (e : Nat) (es : List Nat) : (e :: es).foldl (· * ·) 1 = e * es.foldl (· * ·) 1 := by
  rw [List.foldl_cons, Nat.one_mul, foldl_mul_eq]

@[simp] theorem length_unflat (es : List Nat) (n : Nat) : (unflat es n).length = es.length := by
  induction es generalizing n with
  | nil => rfl
  | cons e es ih => simp [unflat, ih]

/-- Coordinate `i` of the n-th coordinate list: `n` over the extents below `i`, within extent `i`. -/
theorem getElem_unflat (es : List Nat) (n : Nat) {i : Nat} (hi : i < es.length) :
    (unflat es n)[i]? = some (n / (es.take i).foldl (· * ·) 1 % es[i]) := by
  induction es generalizing n i with
  | nil => exact absurd hi (Nat.not_lt_zero i)
  | cons e es ih =>
    cases i with
    | zero => simp [unflat]
    | succ i =>
      rw [List.take_succ_cons, foldl_mul_cons, ← Nat.div_div_eq_div_mul]
      exact ih (n / e) (Nat.lt_of_succ_lt_succ hi)

theorem crd_ints (q : List Nat) (i : Nat) : crd (ints q) i = ((q[i]?).getD 0 : Nat) := by
  simp only [crd, ints, List.getElem?_map]
  cases q[i]? <;> rfl

theorem crd_unflat {es : List Nat} (n : Nat) {i : Nat} (hi : i < es.length) :
    crd (ints (unflat es n)) i = ((n / (es.take i).foldl (· * ·) 1 % es[i] : Nat) : Int) := by
  rw [crd_ints, getElem_unflat es n hi]
  rfl

@[simp] theorem length_lExts (r : BitVec 512) : (lExts r).length = lRank r := by simp [lExts]

theorem getElem_lExts {r : BitVec 512} {i : Nat} (hi : i < (lExts r).length) : (lExts r)[i] = lExt r i := by
  simp [lExts]

theorem pos_of_foldl_mul_pos {es : List Nat} (h : 0 < es.foldl (· * ·) 1) : ∀ e ∈ es, 0 < e := by
  induction es with
  | nil => simp
  | cons e es ih =>
    rw [foldl_mul_cons] at h
    have := ih (Nat.pos_of_mul_pos_left h)
    simpa [Nat.pos_of_mul_pos_right h] using this

/-- The coordinates of a record's domain are in its range. -/
theorem outRange_unflat {r : BitVec 512} (n : Nat) (h : 0 < (lExts r).foldl (· * ·) 1) : outRange r (ints (unflat (lExts r) n)) = false := by
  rw [Bool.eq_false_iff, ne_eq, outRange_iff]
  rintro (⟨i, hi, hb⟩ | ⟨i, hi, -, hb⟩)
  · have hl : i < (lExts r).length := by simpa using hi
    have hp : 0 < lExt r i := getElem_lExts hl ▸ pos_of_foldl_mul_pos h _ (List.getElem_mem hl)
    rw [crd_unflat n hl, getElem_lExts hl] at hb
    have := Nat.mod_lt (n / ((lExts r).take i).foldl (· * ·) 1) hp
    omega
  · exact hb (crd_of_length_le (by simpa [ints] using hi))

/-- The elements of a `cpy` are those of LB's domain (R321). -/
theorem cpy_order {c : Copy} (pos : Nat) (hk : c.kind = .cpy) :
    elemCoords c pos = (ints (unflat (lExts c.lb.raw) pos), ints (unflat (lExts c.lb.raw) pos)) ∧
    copyTotal c = (lExts c.lb.raw).foldl (· * ·) 1 := by
  simp [elemCoords, copyTotal, hk]

/-- What `winExts` answers: the extents that LB needs, and OX and OY (R323). -/
theorem winExts_inv {r : BitVec 512} {n0 n1 ox oy : Nat} (h : winExts r = some (n0, n1, ox, oy)) :
    n0 = (winOf r).kx * (winOf r).ky * lExt r 0 ∧ n1 = ox * oy * winN r ∧
    (ox : Int) = winOut (lExt r 1) (winOf r).px (winOf r).dx (winOf r).kx (winOf r).sx ∧
    (oy : Int) = winOut (lExt r 2) (winOf r).py (winOf r).dy (winOf r).ky (winOf r).sy := by
  simp only [winExts] at h
  split at h
  · cases h
  · next hn =>
    simp only [Option.some.injEq, Prod.mk.injEq] at h
    obtain ⟨h0, h1, hx, hy⟩ := h
    exact ⟨h0.symm, by rw [← h1, hx, hy], by omega, by omega⟩

theorem lExts_of_rank_two {r : BitVec 512} (h : lRank r = 2) : lExts r = [lExt r 0, lExt r 1] := by
  simp [lExts, h, List.range_succ]

theorem winSrc_eq {r : BitVec 512} {n0 n1 ox oy : Nat} (h : winExts r = some (n0, n1, ox, oy)) (e q : Nat) :
    winSrc r e q = [((e % lExt r 0 : Nat) : Int),
      ((q % ox * (winOf r).sx : Nat) : Int) - (winOf r).px + (e / lExt r 0 % (winOf r).kx * (winOf r).dx : Nat),
      ((q / ox % oy * (winOf r).sy : Nat) : Int) - (winOf r).py + (e / (lExt r 0 * (winOf r).kx) * (winOf r).dy : Nat),
      ((q / (ox * oy) : Nat) : Int)] := by
  simp only [winSrc, h]

theorem cpyw_coords {c : Copy} (pos : Nat) (hk : c.kind = .cpyw) (hr : lRank c.lb.raw = 2) :
    elemCoords c pos = (winSrc c.la.raw (pos % lExt c.lb.raw 0) (pos / lExt c.lb.raw 0 % lExt c.lb.raw 1),
      [((pos % lExt c.lb.raw 0 : Nat) : Int), ((pos / lExt c.lb.raw 0 % lExt c.lb.raw 1 : Nat) : Int)]) := by
  simp [elemCoords, hk, lExts_of_rank_two hr, unflat, ints, nth]

/-- The index entries of the sub-tensor at hand stay while the next element lies in it (R322). -/
theorem idxOf_advance {c : Copy} (h : subNo c (c.pos + 1) = subNo c c.pos) :
    idxOf (advance c) (subNo c c.pos) = idxOf c (subNo c c.pos) := by
  have hne : ¬ c.pos + 1 = c.pos := by omega
  have hkeep : ∀ x : Nat × List Int, (decide (subNo c c.pos ≤ x.1) = true ∧ (x.1 == subNo c c.pos) = true) ↔
      (x.1 == subNo c c.pos) = true := by
    intro x
    simp only [decide_eq_true_eq, beq_iff_eq, and_iff_right_iff_imp]
    exact fun hx => hx.ge
  simp only [idxOf, advance, atPos, if_neg hne, h, List.find?_filter, hkeep, Bool.decide_eq_true]

/-- The index entries of a sub-tensor that has none yet are read, and kept with the copy (R322). -/
theorem withIndex_reads {c : Copy} {m : Memory} {d e : Dev} {r : List (Int × Place)} (hk : c.kind = .cpyx) (hz : c.zeros = 0)
    (hi : idxOf c (subNo c c.pos) = none) (hr : readIndex c (unflat ((lExts c.la.raw).drop 1) (subNo c c.pos)) m d = .ok (r, e)) :
    withIndex c m d = .ok (({ c with idx := (subNo c c.pos, r.map (·.1)) :: c.idx }, r.map (·.2)), e) := by
  unfold withIndex
  rw [if_pos (by simp [hk, hi, hz]), eng_bind_ok hr]
  rfl

theorem elementOrder : ElementOrder := by
  refine ⟨fun c pos hk => ?_, fun c pos n0 n1 ox oy hk hw hr => ?_, fun c q hk hi => ?_, fun c m d d1 r hk hz hi hrd => ?_,
    fun c land hk => ?_⟩
  · obtain ⟨hq, ht⟩ := cpy_order pos hk
    rw [hq, ht]
    refine ⟨rfl, rfl, fun i hi => ?_, fun hp => outRange_unflat pos (Nat.zero_lt_of_lt hp)⟩
    have hl : i < (lExts c.lb.raw).length := by simpa using hi
    rw [crd_unflat pos hl, getElem_lExts hl]
  · obtain ⟨h0, h1, hx, hy⟩ := winExts_inv hw
    refine ⟨h0, h1, hx, hy, ?_⟩
    rw [cpyw_coords pos hk hr, winSrc_eq hw]
  · refine ⟨?_, fun land => ?_, fun m d => ?_, fun h => ?_⟩
    · simp only [elemWhere, hk, subNo, hi, Option.getD_some]
    · simp only [landVa, hk]
    · simp only [withIndex, subNo, hi, Option.isNone_some, Bool.and_false, Bool.false_and]
      rfl
    · exact (idxOf_advance h).trans hi
  · exact ⟨_, withIndex_reads hk hz hi hrd, by simp [idxOf, subNo]⟩
  · cases hkk : c.kind with
    | cpyx => exact absurd hkk hk
    | cpy => simp only [landVa, hkk]
    | cpyw => simp only [landVa, hkk]
    | push desc k h => simp only [landVa, hkk]

theorem copyElements : CopyElements := ⟨elementAddresses, outOfRange, elementOrder⟩

end Sys2Proof.Machine
end

section
/-!
SUPPORT. The copy instructions and the declarations (spec/17_isa_copy_task_system.md R319, R320, R326 to R330): each word from its operands
to what it leaves.
-/
namespace Sys2Proof.Machine
open Sys2Proof.Claims

/-- A check that holds is passed. -/
theorem runAct_need_bind {α : Type} {c : Bool} {t : Trap} {m : Memory} {d : Dev} (h : c = true) (f : Unit → Act α) :
    runAct (need c t >>= f) m d = runAct (f ()) m d := by
  rw [h]
  exact runAct_bind_ok (runAct_need_true t m d)

/-! ### Copies (R320). -/

theorem copyIssues_of {i : Instr} {h : Head} {f : FmtE} {kind : CopyKind} (hx : ∀ s, exec i s = runA i h (issueCopy i h f kind) s) :
    CopyIssues i h f kind := by
  intro s la lb m dst c tag d0 d1 d2 ha hla hlb
  have hslots : ∀ g : Slot → Slot → Act Verdict,
      runAct (slotArg i f.la >>= fun la => slotArg i f.lb >>= fun lb => g la lb) s.mem s.dev = runAct (g la lb) s.mem s.dev := fun g => (runAct_bind_ok hla).trans (runAct_bind_ok hlb)
  refine ⟨fun hs => traps_of (hx s) ha ?_, fun hs hm => ⟨fun h0 => retires_of (hx s) ha ?_,
    fun h0 hdst hal hc ht => retires_of (hx s) ha ?_⟩⟩
  · refine (hslots _).trans (runAct_bind_error ?_)
    rw [hs]
    rfl
  · refine (hslots _).trans ?_
    rw [runAct_need_bind hs, runAct_bind_ok hm, if_pos h0]
    rfl
  · refine (hslots _).trans ?_
    rw [runAct_need_bind hs, runAct_bind_ok hm, if_neg h0, runAct_bind_ok hdst, runAct_need_bind (by simpa using hal),
      runAct_bind_ok hc, runAct_bind_ok (runAct_dev _ _), ht]
    exact runAct_bind_ok (runAct_upd _ _ _)

/-! ### `cpld` (R319). -/

/-- A place in device memory does not depend on whether the access is posted: only a peer's does (R125). -/
theorem leafPlace_posted {d : Dev} {u : Use} {l : Leaf} {va k : Nat} (h : leafPlace d u l va = .ok (.device k)) (b : Bool) :
    leafPlace d { u with posted := b } l va = .ok (.device k) := by
  by_cases ht : l.tgt = 2
  · simp only [leafPlace, ht] at h
    split at h <;> cases h
  · rw [← h]
    unfold leafPlace
    split
    · rfl
    · rfl
    · exact absurd ‹_› ht
    · rfl

theorem checkPlace_posted {u : Use} {va k : Nat} {m : Memory} {d e : Dev} (h : Runs (checkPlace .g u va) m d (.device k) e)
    (b : Bool) :
    Runs (checkPlace .g { u with posted := b } va) m d (.device k) e := by
  unfold Runs checkPlace at h ⊢
  rw [runAct_bind_ok (runAct_dev _ _)] at h ⊢
  obtain ⟨_, _, h1, h⟩ := runAct_bind_inv h
  obtain ⟨_, _, h2, h⟩ := runAct_bind_inv h
  obtain ⟨l, d3, h3, h⟩ := runAct_bind_inv h
  refine (runAct_bind_ok h1).trans ((runAct_bind_ok h2).trans ((runAct_bind_ok h3).trans ?_))
  cases hl : leafPlace d u l va with
  | error t => simp [hl] at h
  | ok p =>
    simp only [hl, runAct_pure, Except.ok.injEq, Prod.mk.injEq] at h
    obtain ⟨rfl, rfl⟩ := h
    rw [leafPlace_posted hl]
    rfl

/-- A record that passes its checks goes into its slot. -/
theorem keepSlot_ok {i : Instr} {slot va : Nat} {bs : List Byte} {m : Memory} {d : Dev} (h : layoutOk (BitVec.ofNat 512 (leNat bs)) = true) :
    runAct (keepSlot i slot va bs) m d =
      .ok ((), setMe d { me d with slots := put none (me d).slots slot (some ⟨BitVec.ofNat 512 (leNat bs), va⟩) }) := by
  unfold keepSlot
  dsimp only
  rw [runAct_need_bind h]
  exact runAct_upd _ _ _

theorem cpld_device {h : Head} {g : FmtS} {s : State} {m : W32} {d0 d1 d2 d3 : Dev} {va : W64} {k : Nat} {bs : List Byte}
    (hm : Runs (acting h false) s.mem s.dev m d0) (h0 : m ≠ 0) (ha : Admitted (.cpld h g) [] s) (hva : Runs (sReg m g.a) s.mem d0 va d1)
    (hp : Runs (checkPlace .g { acc := .read, size := 64 } va.toNat) s.mem d1 (.device k) d2)
    (hr : Runs (perform (readPlace (.device k) 64 va.toNat true false)) s.mem d2 (some bs) d3)
    (hl : layoutOk (BitVec.ofNat 512 (leNat bs)) = true) :
    Retires (.cpld h g) h true false s (setMe d3 { me d3 with
      slots := put none (me d3).slots (bits g.code 3 0) (some ⟨BitVec.ofNat 512 (leNat bs), va.toNat⟩) }) := by
  refine retires_of rfl ha ?_
  rw [runAct_bind_ok hm, if_neg h0, runAct_bind_ok hva, runAct_bind_ok (runAct_dev _ _), runAct_bind_ok (checkPlace_posted hp _)]
  dsimp only
  rw [runAct_bind_ok hr]
  dsimp only
  rw [runAct_bind_ok (keepSlot_ok hl)]
  rfl

/-! ### `cpfix` and `cpq` (R326, R327). -/

/-- What `cpfix` does to the device, and the status it answers: 1 where the wave has no faulted copy of the tag. -/
def fixResult (m : Memory) (d : Dev) (tag act : Nat) (reload : Bool) : Dev × Nat :=
  match faultedCopy d d.cur.1 tag with
  | none => (d, 1)
  | some i => fixCopy m d i act reload

theorem cpfix_retires {h : Head} {g : FmtS} {s : State} {m : W32} {d0 d1 d3 : Dev} {tag : W64}
    (hm : Runs (acting h false) s.mem s.dev m d0) (h0 : m ≠ 0) (ha : Admitted (.cpfix h g) [] s) (ht : Runs (sReg m g.a) s.mem d0 tag d1)
    (hp : Runs (putA 0 m g.d (fun _ => w64 (fixResult s.mem d1 (tag.toNat % 64) (bits g.code 1 0) (bits g.code 2 2 == 1)).2)) s.mem
      (fixResult s.mem d1 (tag.toNat % 64) (bits g.code 1 0) (bits g.code 2 2 == 1)).1 () d3) :
    Retires (.cpfix h g) h true false s d3 := by
  refine retires_of rfl ha ?_
  rw [runAct_bind_ok hm, if_neg h0, runAct_bind_ok ht, runAct_bind_ok (runAct_dev _ _)]
  unfold fixResult at hp
  dsimp only
  cases hf : faultedCopy d1 d1.cur.1 (tag.toNat % 64) with
  | none =>
    rw [hf] at hp
    rw [runAct_bind_ok (runAct_pure _ _ _), runAct_bind_ok hp]
    rfl
  | some i =>
    rw [hf] at hp
    rw [runAct_act_bind, runAct_bind_ok hp]
    rfl

theorem cpq_retires {h : Head} {g : FmtS} {s : State} {m : W32} {d0 d1 : Dev} (hm : Runs (acting h false) s.mem s.dev m d0)
    (ha : Admitted (.cpq h g) [] s) (hp : Runs (putA 0 m g.d (fun _ => copyWord d0 (bits g.code 1 0))) s.mem d0 () d1) :
    Retires (.cpq h g) h true false s d1 := by
  refine retires_of rfl ha ?_
  rw [runAct_bind_ok hm, runAct_bind_ok (runAct_dev _ _), runAct_bind_ok hp]
  rfl

theorem copyInstructions : CopyInstructions := by
  refine fun h f g => ⟨copyIssues_of (fun _ => rfl), copyIssues_of (fun _ => rfl), copyIssues_of (fun _ => rfl),
    fun s m d0 d1 d2 hm => ⟨fun va k bs d3 d4 h0 ha hva hp hr => ?_, fun tag d3 h0 ha ht => ?_, fun ha hp => cpq_retires hm ha hp⟩⟩
  · rintro r hl rfl
    exact cpld_device hm h0 ha hva hp hr hl
  · intro r hp
    exact cpfix_retires hm h0 ha ht hp

/-! ### Declarations and subscriptions (R329, R330). -/

section
variable {h : Head} {f : FmtE} {s : State} {m : W32} {d0 d1 d2 : Dev}

theorem declares_of {i : Instr} {halo : Bool} {la lb : Slot} {a : DeclArgs} (hx : exec i s = runA i h (declareOp i h f halo) s)
    (ha : Admitted i [] s) (hla : Runs (slotArg i f.la) s.mem s.dev la s.dev) (hlb : Runs (slotArg i f.lb) s.mem s.dev lb s.dev)
    (hm : Runs (acting h false) s.mem s.dev m d0) :
    (m = 0 → Retires i h true false s d0) ∧
    (m ≠ 0 → Runs (takeDecl f la lb m) s.mem d0 a d1 → Runs (declApply halo f a) s.mem d1 () d2 → Retires i h true false s d2) := by
  have hbody : runAct (declareOp i h f halo) s.mem s.dev = runAct (if m = 0 then pure .retire else do
      let a ← takeDecl f la lb m
      declApply halo f a
      pure .retire) s.mem d0 := (runAct_bind_ok hla).trans ((runAct_bind_ok hlb).trans (runAct_bind_ok hm))
  refine ⟨fun h0 => retires_of hx ha ?_, fun h0 ht hd => retires_of hx ha ?_⟩
  · rw [hbody, if_pos h0]
    rfl
  · rw [hbody, if_neg h0, runAct_bind_ok ht, runAct_bind_ok hd]
    rfl

theorem sub_retires {a : SubArgs} (ha : Admitted (.subCopy h f) [] s) (hm : Runs (acting h false) s.mem s.dev m d0) :
    (m = 0 → Retires (.subCopy h f) h true false s d0) ∧
    (m ≠ 0 → Runs (takeSub f m) s.mem d0 a d1 → Runs (subApply f m a) s.mem d1 () d2 → Retires (.subCopy h f) h true false s d2) := by
  refine ⟨fun h0 => retires_of rfl ha ?_, fun h0 ht hd => retires_of rfl ha ?_⟩
  · rw [runAct_bind_ok hm, if_pos h0]
    rfl
  · rw [runAct_bind_ok hm, if_neg h0, runAct_bind_ok ht, runAct_bind_ok hd]
    rfl

end

/-- The status of a withdrawal (R329). -/
theorem declStatus_off {d : Dev} {halo : Bool} {f : FmtE} {a : DeclArgs} (h : bits f.mode 11 11 = 1) :
    declStatus d halo f a = if (lineOf d a.n).decl.any (fun e => e.desc == placeKey a.p) then 0 else 3 := if_pos h

/-- A seal that already carries a declaration takes no second one (R329). -/
theorem declStatus_taken {d : Dev} {halo : Bool} {f : FmtE} {a : DeclArgs} (h : bits f.mode 11 11 = 0)
    (hc : (lineOf d a.n).decl.isSome = true) : declStatus d halo f a = 2 := by
  unfold declStatus
  dsimp only
  rw [if_neg (by omega), if_pos hc]

/-- Shapes that fit are declared while the bank has room (R329). -/
theorem declStatus_fits {d : Dev} {halo : Bool} {f : FmtE} {a : DeclArgs} (h : bits f.mode 11 11 = 0)
    (hc : (lineOf d a.n).decl = none)
    (hs : (if halo then haloOk a.la.raw a.lb.raw (bits a.hd 79 72) (bits f.mode 3 0) else pubOk a.la.raw a.lb.raw (bits a.hd 79 72)) = true) :
    declStatus d halo f a = if 256 ≤ bankDecls d (bankOf (bits a.hd 56 0)) then 1 else 0 := by
  unfold declStatus
  dsimp only
  rw [if_neg (by omega), hc, if_neg (by simp), hs, if_neg (by simp)]

theorem declarations : Declarations := by
  intro h f s m d0 d1 d2
  refine ⟨?_, fun a ha hm => sub_retires ha hm, fun d halo a => ⟨declStatus_off, declStatus_taken, declStatus_fits⟩⟩
  rintro i halo la lb a (⟨rfl, rfl⟩ | ⟨rfl, rfl⟩) ha hla hlb hm
  · exact declares_of rfl ha hla hlb hm
  · exact declares_of rfl ha hla hlb hm

/-- Settles O59: the copy instructions and declarations as their bodies run, and the elements of a copy from the algebra of their
coordinates. -/
theorem copiesAndDeclarations : Obligations.CopiesAndDeclarations := ⟨copyInstructions, declarations, copyElements⟩

end Sys2Proof.Machine
end

section
/-!
SUPPORT. Bytes, codes and the elements of a group (spec/05_number_formats.md R78, R83).
-/
namespace Sys2Proof.Machine
open Sys2Proof.Claims

/-! ### Lists of pieces of one length. -/

section
variable {α β : Type} {l : List α} {f : α → List β} {c : Nat}

/-- Past the first `n` pieces, of one length, the rest stand. -/
theorem drop_flatMap {n : Nat} (hf : ∀ x ∈ l.take n, (f x).length = c) : (l.flatMap f).drop (c * n) = (l.drop n).flatMap f := by
  induction l generalizing n with
  | nil => simp
  | cons x l ih =>
    cases n with
    | zero => simp
    | succ n =>
      have hx : (f x).length = c := hf x (by simp)
      rw [List.flatMap_cons, Nat.mul_succ, Nat.add_comm, ← List.drop_drop, ← hx, List.drop_left, hx]
      exact ih (fun y hy => hf y (by simp [hy]))

/-- A part of piece `n` of a list of pieces, those before it of one length. -/
theorem part_flatMap {n a b : Nat} (hf : ∀ x ∈ l.take n, (f x).length = c) (hn : n < l.length) (hab : a + b ≤ (f l[n]).length) :
    ((l.flatMap f).drop (c * n + a)).take b = ((f l[n]).drop a).take b := by
  rw [← List.drop_drop, drop_flatMap hf, List.drop_eq_getElem_cons hn, List.flatMap_cons, List.drop_append_of_le_length (by omega),
    List.take_append_of_le_length (by rw [List.length_drop]; omega)]

/-- Piece `n` of a list of pieces. -/
theorem piece_flatMap (hf : ∀ x ∈ l, (f x).length = c) {n : Nat} (hn : n < l.length) :
    ((l.flatMap f).drop (c * n)).take c = f l[n] := by
  have hl := hf _ (List.getElem_mem hn)
  have := part_flatMap (a := 0) (b := c) (fun x hx => hf x (List.mem_of_mem_take hx)) hn (by omega)
  rwa [Nat.add_zero, List.drop_zero, List.take_of_length_le hl.le] at this

theorem length_flatMap_const (hf : ∀ x ∈ l, (f x).length = c) : (l.flatMap f).length = c * l.length := by
  induction l with
  | nil => simp
  | cons x l ih =>
    rw [List.flatMap_cons, List.length_append, hf x (by simp), ih (fun y hy => hf y (by simp [hy])), List.length_cons, Nat.mul_succ,
      Nat.add_comm]

/-- An element of a list of pieces stands in the piece that its place names. -/
theorem nth_flatMap (hf : ∀ x ∈ l, (f x).length = c) {k : Nat} (hk : k < c * l.length) (e : β) :
    ∃ h : k / c < l.length, nth (l.flatMap f) k e = nth (f l[k / c]) (k % c) e := by
  have hc : 0 < c := Nat.pos_of_mul_pos_right (Nat.zero_lt_of_lt hk)
  have h : k / c < l.length := Nat.div_lt_of_lt_mul hk
  refine ⟨h, ?_⟩
  rw [← piece_flatMap hf h]
  simp only [nth, List.getElem?_take_of_lt (Nat.mod_lt k hc), List.getElem?_drop, Nat.div_add_mod]

end

/-! ### Numbers that bytes spell. -/

theorem leNat_lt (bs : List Byte) : leNat bs < 256 ^ bs.length := by
  induction bs with
  | nil => simp [leNat]
  | cons b bs ih =>
    have := b.isLt
    rw [leNat, List.length_cons, Nat.pow_succ]
    omega

theorem leNat_drop (bs : List Byte) (k : Nat) : leNat (bs.drop k) = leNat bs / 256 ^ k := by
  induction k generalizing bs with
  | zero => simp
  | succ k ih =>
    cases bs with
    | nil => simp [leNat]
    | cons b bs =>
      have := b.isLt
      rw [List.drop_succ_cons, ih, leNat, Nat.pow_succ', ← Nat.div_div_eq_div_mul]
      congr 1
      omega

theorem leNat_take (bs : List Byte) (k : Nat) : leNat (bs.take k) = leNat bs % 256 ^ k := by
  induction k generalizing bs with
  | zero => simp [leNat, Nat.mod_one]
  | succ k ih =>
    cases bs with
    | nil => simp [leNat]
    | cons b bs =>
      have := b.isLt
      rw [List.take_succ_cons, leNat, ih, leNat, Nat.pow_succ', Nat.mod_mul, show (b.toNat + 256 * leNat bs) % 256 = b.toNat by omega,
        show (b.toNat + 256 * leNat bs) / 256 = leNat bs by omega]

/-- The word of at most eight bytes is their number. -/
theorem toNat_leWord {bs : List Byte} (h : bs.length ≤ 8) : (leWord bs).toNat = leNat bs := by
  have h1 := leNat_lt bs
  have h2 : 256 ^ bs.length ≤ 256 ^ 8 := Nat.pow_le_pow_right (by decide) h
  rw [leWord_eq_leNat, BitVec.toNat_ofNat, Nat.mod_eq_of_lt]
  omega

/-! ### Element codes (R78). -/

theorem getElem_pair (bs : List Byte) {j : Nat} (h : 2 * j + 2 ≤ bs.length) :
    (slots.pair bs)[j]? = some (leNat ((bs.drop (2 * j)).take 2)) := by
  induction j generalizing bs with
  | zero => match bs, h with | a :: b :: r, _ => rfl
  | succ j ih =>
    match bs, h with
    | a :: b :: r, h => exact ih r (by simp only [List.length_cons] at h; omega)

theorem getElem_quad (bs : List Byte) {j : Nat} (h : 4 * j + 4 ≤ bs.length) :
    (slots.quad bs)[j]? = some (leNat ((bs.drop (4 * j)).take 4)) := by
  induction j generalizing bs with
  | zero => match bs, h with | a :: b :: c :: d :: r, _ => rfl
  | succ j ih =>
    match bs, h with
    | a :: b :: c :: d :: r, h => exact ih r (by simp only [List.length_cons] at h; omega)

/-- The number of the `c` bytes from byte `c * j` on. -/
theorem leNat_bytes (bs : List Byte) (c j : Nat) : leNat ((bs.drop (c * j)).take c) = leNat bs / 2 ^ (8 * c * j) % 2 ^ (8 * c) := by
  rw [leNat_take, leNat_drop, show 256 = 2 ^ 8 by rfl, ← Nat.pow_mul, ← Nat.pow_mul, Nat.mul_assoc]

theorem leNat_byte {bs : List Byte} {j : Nat} (h : j < bs.length) : leNat bs / 2 ^ (8 * j) % 2 ^ 8 = (bs[j]).toNat := by
  have hb := leNat_bytes bs 1 j
  simp only [Nat.mul_one, Nat.one_mul] at hb
  rw [← hb, List.drop_eq_getElem_cons h]
  rfl

/-- The nibble at place `j` of a byte's number. -/
theorem getElem_nibbles (bs : List Byte) {j : Nat} (h : j < 2 * bs.length) :
    (bs.flatMap (fun b => [b.toNat % 16, b.toNat / 16]))[j]? = some (leNat bs / 2 ^ (4 * j) % 2 ^ 4) := by
  have hj : j / 2 < bs.length := by omega
  have hb := (bs[j / 2]).isLt
  have hbyte := leNat_byte hj
  have hpiece := piece_flatMap (l := bs) (f := fun b => [b.toNat % 16, b.toNat / 16]) (c := 2) (fun _ _ => rfl) hj
  have hget : (bs.flatMap (fun b => [b.toNat % 16, b.toNat / 16]))[j]? = [(bs[j / 2]).toNat % 16, (bs[j / 2]).toNat / 16][j % 2]? := by
    rw [← hpiece, List.getElem?_take_of_lt (Nat.mod_lt j (by decide)), List.getElem?_drop, Nat.div_add_mod]
  have hsplit : leNat bs / 2 ^ (4 * j) % 2 ^ 4 = leNat bs / 2 ^ (8 * (j / 2)) / 16 ^ (j % 2) % 16 := by
    rw [Nat.div_div_eq_div_mul, show 16 = 2 ^ 4 by rfl, ← Nat.pow_mul, ← Nat.pow_add, show 8 * (j / 2) + 4 * (j % 2) = 4 * j by omega]
  rw [hget, hsplit]
  rcases Nat.mod_two_eq_zero_or_one j with h0 | h1
  · rw [h0]
    simp only [List.getElem?_cons_zero, Nat.pow_zero, Nat.div_one]
    congr 1
    omega
  · rw [h1]
    simp only [List.getElem?_cons_succ, List.getElem?_cons_zero, Nat.pow_one]
    congr 1
    omega

/-- The code of element `j` is the j-th run of bits of the bytes' number (R78). -/
theorem getElem_slots {w : Nat} (hw : w = 4 ∨ w = 8 ∨ w = 16 ∨ w = 32) (bs : List Byte) {j : Nat} (h : w * (j + 1) ≤ 8 * bs.length) :
    (slots w bs)[j]? = some (leNat bs / 2 ^ (w * j) % 2 ^ w) := by
  rcases hw with rfl | rfl | rfl | rfl
  · exact getElem_nibbles bs (by omega)
  · have hj : j < bs.length := by omega
    rw [leNat_byte hj]
    simp [slots, hj]
  · exact (getElem_pair bs (by omega)).trans (congrArg some (leNat_bytes bs 2 j))
  · exact (getElem_quad bs (by omega)).trans (congrArg some (leNat_bytes bs 4 j))

/-! ### The elements of a group (R78, R83). -/

theorem fmtBits_cases {c : Nat} (h : c ≤ 9) : fmtBits c = 4 ∨ fmtBits c = 8 ∨ fmtBits c = 16 ∨ fmtBits c = 32 := by
  interval_cases c <;> decide

theorem fmtTy_eq_i4x_iff {c : Nat} (h : c ≤ 9) : fmtTy c = .i4x ↔ c = 5 := by
  interval_cases c <;> decide

theorem length_i4xDecode (l : List Nat) (i : Nat) : (i4xDecode l i).1.length = l.length := by
  fun_induction i4xDecode l i with
  | case1 => rfl
  | case2 i x y z r hx t ih => simp [t, ih]
  | case3 i x y z r hx t ih => simp [t, ih]
  | case4 i x r hr hx t ih => simp [t, ih]
  | case5 => simp

/-- The codes of a group are 32 where its bytes hold as many. -/
theorem length_codes {c : Nat} {bs : List Byte} (h : c ≤ 9) (hl : 4 * fmtBits c ≤ bs.length) :
    ((slots (fmtBits c) bs).take 32).length = 32 := by
  have hlast := getElem_slots (fmtBits_cases h) bs (j := 31) (by omega)
  have := (List.getElem?_eq_some_iff.mp hlast).1
  rw [List.length_take]
  omega

theorem length_groupElems {g : Desc} (x : Fp) {bs : List Byte} (h : g.fmtc ≤ 9) (hl : 4 * fmtBits g.fmtc ≤ bs.length) :
    (groupElems g x bs).1.length = 32 := by
  have hc := length_codes h hl
  unfold groupElems
  dsimp only
  split_ifs <;> simp only [List.length_map, length_i4xDecode, hc]

/-- An element of a group without its scale. -/
def elemValue (c : Nat) (x : Fp) (code : Nat) : Fp :=
  if fmtInt c then ofInt (intOf (fmtTy c) (w64 code)) else decodeF (fmt (fmtTy c)) x code

theorem groupElems_eq {g : Desc} {x : Fp} {bs : List Byte} (h : g.fmtc ≤ 9) (h5 : g.fmtc ≠ 5) :
    (groupElems g x bs).1 = ((slots (fmtBits g.fmtc) bs).take 32).map (fun code =>
      if g.scale = 0xFF then .nan else fpScale (elemValue g.fmtc x code) ((g.scale : Int) - 127)) := by
  unfold groupElems elemValue
  dsimp only
  have ht : ¬ fmtTy g.fmtc = .i4x := by rwa [fmtTy_eq_i4x_iff h]
  by_cases hs : g.scale = 0xFF
  · simp only [hs, if_neg ht, if_true]
    split_ifs <;> simp only [List.map_map, Function.comp_def]
  · simp only [if_neg hs, if_neg ht]
    split_ifs <;> simp only [List.map_map, Function.comp_def]

theorem groupPlaces : GroupPlaces := by
  intro g x bs j h h5 hl hj
  have hcode := getElem_slots (fmtBits_cases h) bs (j := j) (by nlinarith)
  rw [groupElems_eq h h5]
  simp only [nth, List.getElem?_map, List.getElem?_take_of_lt hj, hcode]
  rfl

end Sys2Proof.Machine
end

section
/-!
SUPPORT. Reads of stores whose pages are in their frames, and the operands of a matrix operation as they lie there
(spec/16_isa_matrix.md R289, R290, R301).
-/
namespace Sys2Proof.Machine
open Sys2Proof.Claims

/-! ### Sequences of reads that change nothing. -/

section
variable {α β : Type} {m : Memory} {d : Dev}

theorem forM_perf_ok {l : List α} {f : α → Perf Unit} (h : ∀ x ∈ l, f x m d = .ok ((), d)) : l.forM f m d = .ok ((), d) := by
  induction l with
  | nil => rfl
  | cons x l ih =>
    exact (perf_bind_ok (h x (by simp))).trans (ih (fun y hy => h y (by simp [hy])))

theorem mapM_perf_ok {l : List α} {f : α → Perf β} {g : α → β} (h : ∀ x ∈ l, f x m d = .ok (g x, d)) :
    l.mapM f m d = .ok (l.map g, d) := by
  induction l with
  | nil => rfl
  | cons x l ih =>
    rw [List.mapM_cons]
    exact (perf_bind_ok (h x (by simp))).trans (perf_bind_ok (ih (fun y hy => h y (by simp [hy]))))

end

/-! ### Cells of a store. -/

/-- The cells of `n` bytes from an offset on. -/
def cellsFrom (d : Dev) (t : Nat) (st : StoreId) (off n : Nat) : List (Byte × Bool) :=
  (List.range n).map (fun i => cellAt d t st (off + i))

section
variable {m : Memory} {d : Dev} {t : Nat} {st : StoreId}

@[simp] theorem length_cellsFrom (off n : Nat) : (cellsFrom d t st off n).length = n := by simp [cellsFrom]

@[simp] theorem bytesOf_cellsFrom (off n : Nat) : bytesOf (cellsFrom d t st off n) = bytesAt d t st off n := by
  simp [bytesOf, cellsFrom, bytesAt]

@[simp] theorem badIn_cellsFrom (off n : Nat) : badIn (cellsFrom d t st off n) = badAt d t st off n := by
  simp [badIn, cellsFrom, badAt, List.any_map, Function.comp_def]

/-- A part of a run of cells. -/
theorem part_cellsFrom {off n a b : Nat} (h : a + b ≤ n) : ((cellsFrom d t st off n).drop a).take b = cellsFrom d t st (off + a) b := by
  apply List.ext_getElem
  · simp only [List.length_take, List.length_drop, length_cellsFrom]
    omega
  · intro i h1 h2
    simp [cellsFrom, Nat.add_assoc]

theorem part_bytesAt {off n a b : Nat} (h : a + b ≤ n) : ((bytesAt d t st off n).drop a).take b = bytesAt d t st (off + a) b := by
  rw [← bytesOf_cellsFrom off n, ← bytesOf_cellsFrom, ← part_cellsFrom h]
  simp [bytesOf, List.map_take, List.map_drop]

@[simp] theorem length_bytesAt (off n : Nat) : (bytesAt d t st off n).length = n := by simp [bytesAt]

variable (hin : AllIn d t)
include hin

theorem needPages_in (off n : Nat) : needPages t st off n m d = .ok ((), d) := by
  unfold needPages
  rw [perf_bind_ok (devP_run m d)]
  refine forM_perf_ok (fun j _ => ?_)
  cases hp : findPage (setOf d t) st (off / 4096 + j) with
  | none => rfl
  | some pi => exact pageReady_resident (hin _ _ _ hp)

/-- Bytes of pages that are in their frames are read at once (R42). -/
theorem readCells_in (off n : Nat) : readCells t st off n m d = .ok (cellsFrom d t st off n, d) := by
  unfold readCells
  rw [perf_bind_ok (needPages_in hin off n), perf_bind_ok (devP_run m d)]
  rfl

end

/-! ### Containers and descriptors (R82, R290). -/

theorem vecBytes_group (t : Ty) : vecBytes t 32 = 4 * tyBits t := by
  unfold vecBytes
  omega

/-- Whole groups of a container. -/
theorem vecBytes_groups (t : Ty) {n : Nat} (h : n % 32 = 0) : vecBytes t n = vecBytes t 32 * (n / 32) := by
  obtain ⟨q, rfl⟩ := Nat.dvd_of_mod_eq_zero h
  rw [vecBytes_group, vecBytes, Nat.mul_div_cancel_left q (by decide), show 32 * q * tyBits t = 8 * (4 * tyBits t * q) by ring,
    Nat.mul_div_cancel_left _ (by decide)]

theorem descsIn_eq (bs : List Byte) : descsIn bs = (slots.pair bs).map (BitVec.ofNat 16) := by
  fun_induction descsIn bs with
  | case1 a b r ih => simp [slots.pair, ih]
  | case2 bs h =>
    match bs with
    | [] => rfl
    | [a] => rfl
    | a :: b :: r => exact absurd rfl (h a b r)

theorem length_pair (bs : List Byte) : (slots.pair bs).length = bs.length / 2 := by
  fun_induction slots.pair bs with
  | case1 a b r ih =>
    simp only [List.length_cons, ih]
    omega
  | case2 bs h =>
    match bs with
    | [] => rfl
    | [a] => simp
    | a :: b :: r => exact absurd rfl (h a b r)

@[simp] theorem length_descsIn (bs : List Byte) : (descsIn bs).length = bs.length / 2 := by
  rw [descsIn_eq, List.length_map, length_pair]

theorem getElem_descsIn (bs : List Byte) {j : Nat} (h : 2 * j + 2 ≤ bs.length) :
    (descsIn bs)[j]? = some (BitVec.ofNat 16 (leNat ((bs.drop (2 * j)).take 2))) := by
  rw [descsIn_eq, List.getElem?_map, getElem_pair bs h]
  rfl

/-! ### Vectors of groups (R83). -/

theorem nth_decodeVec {t : Ty} {x : Fp} {ds : List Desc} {bs : List Byte} (hlen : vecBytes t 32 * ds.length ≤ bs.length)
    (hfit : ∀ g ∈ ds, g.fmtc ≤ 9 ∧ 4 * fmtBits g.fmtc ≤ vecBytes t 32) {k : Nat} (hk : k < 32 * ds.length) {g : Desc}
    (hg : ds[k / 32]? = some g) :
    nth (decodeVec t x ds bs).elems k .nan =
      nth (groupElems g x ((bs.drop (vecBytes t 32 * (k / 32))).take (vecBytes t 32))).1 (k % 32) .nan := by
  have hpiece : ∀ p ∈ ds.zipIdx, (groupElems p.1 x ((bs.drop (vecBytes t 32 * p.2)).take (vecBytes t 32))).1.length = 32 := by
    intro p hp
    obtain ⟨hj, hgj⟩ := List.mk_mem_zipIdx_iff_getElem?.mp hp |> List.getElem?_eq_some_iff.mp
    obtain ⟨h9, hb⟩ := hfit p.1 (hgj ▸ List.getElem_mem hj)
    have hroom : vecBytes t 32 * (p.2 + 1) ≤ vecBytes t 32 * ds.length := Nat.mul_le_mul_left _ hj
    refine length_groupElems x h9 ?_
    rw [List.length_take, List.length_drop]
    rw [Nat.mul_succ] at hroom
    omega
  obtain ⟨h, hn⟩ := nth_flatMap hpiece (by simpa using hk) .nan
  have hgd : ds[k / 32]'(by simpa using h) = g := Option.some_injective _ ((List.getElem?_eq_getElem _).symm.trans hg)
  unfold decodeVec
  dsimp only
  rw [List.flatMap_map]
  refine hn.trans ?_
  simp [hgd]

end Sys2Proof.Machine
end

section
/-!
SUPPORT. Where the elements of A and of a bank lie, and what `mzero` and `mpre` put into a row (spec/16_isa_matrix.md R289, R290, R301,
R305, R306).
-/
namespace Sys2Proof.Machine
open Sys2Proof.Claims

/-! ### Geometry (R292, R303). -/

theorem mN_cases (o : MatOp) : mN o = 0 ∨ mN o = 16 ∨ mN o = 32 ∨ mN o = 64 := by
  unfold mN
  split
  · split <;> simp
  · split <;> simp
  · simp

/-- A dense K is a number of whole groups. -/
theorem mKd_mod (o : MatOp) : mKd o % 32 = 0 := by
  unfold mKd denseK mK
  rcases mN_cases o with h | h | h | h <;> simp only [h, reduceIte, OfNat.ofNat_ne_zero] <;> omega

/-! ### The A operand (R289, R290, R301). -/

section
variable {m : Memory} {d : Dev} {t : Nat} {o : MatOp} {r : Nat}

/-- The cells of the A operand of a row, piece after piece. -/
def aCells (d : Dev) (t : Nat) (o : MatOp) (r : Nat) : List (Byte × Bool) :=
  (aPieces o r).2.flatMap (fun p => cellsFrom d t (aPieces o r).1 p.1 p.2)

/-- The descriptors of the groups of an A row: those of the side area, or the container's own. -/
def aDescs (d : Dev) (t : Nat) (o : MatOp) (r : Nat) : List Desc :=
  if mG o then (descsIn (bytesAt d t .a (mAdesc o + 2 * r * (mKd o / 32)) (2 * (mKd o / 32)))).map descOf
  else plainDescs (mTy o) (mKd o / 32)

/-- The elements of an A row. -/
def aVec (d : Dev) (t : Nat) (o : MatOp) (r : Nat) : Vec :=
  if mCa o then ⟨((slots 32 (bytesOf (aCells d t o r))).map (caElem (mTy o))).map (·.1),
    List.replicate (mKd o / 32) (tyFmt (mTy o)), false⟩
  else decodeVec (mTy o) (extraOf o.xva) (aDescs d t o r) (bytesOf (aCells d t o r))

theorem readARow_in (hin : AllIn d t) : ∃ a, readARow t o r m d = .ok (a, d) ∧ a.vec = aVec d t o r := by
  have hparts : ((aPieces o r).2.mapM (fun p => do pure (p.1, ← readCells t (aPieces o r).1 p.1 p.2)) : Perf _) m d =
      .ok ((aPieces o r).2.map (fun p => (p.1, cellsFrom d t (aPieces o r).1 p.1 p.2)), d) :=
    mapM_perf_ok (fun p _ => perf_bind_ok (readCells_in hin p.1 p.2))
  unfold readARow
  dsimp only
  rw [perf_bind_ok hparts, perf_bind_ok (devP_run m d)]
  unfold aVec aDescs aCells
  rw [List.flatMap_map]
  by_cases hca : mCa o = true
  · rw [if_pos hca, if_pos hca]
    exact ⟨_, rfl, rfl⟩
  · rw [if_neg hca, if_neg hca]
    by_cases hg : mG o = true
    · rw [if_pos hg, if_pos hg, perf_bind_ok (readCells_in hin _ _)]
      exact ⟨_, rfl, by rw [bytesOf_cellsFrom]⟩
    · rw [if_neg hg, if_neg hg]
      exact ⟨_, rfl, rfl⟩

theorem aPieces_ca (h : mCa o = true) : aPieces o r = (.c, (List.range ((mKd o + 63) / 64)).map (fun j =>
    (offOf o.a + (j * mRows o + r) * mCstr o, 4 * min 64 (mKd o - 64 * j)))) := if_pos h

theorem aCells_plain (h : mCa o = false) : aCells d t o r = cellsFrom d t .a (offOf o.a + r * mAstr o) (mArow o) := by
  simp [aCells, aPieces, h]

/-- Under `.ca` element `k` of row `r` lies in strip `k / 64` of the C-store operand. -/
theorem part_aCells_ca (h : mCa o = true) {k : Nat} (hk : k < mKd o) :
    ((aCells d t o r).drop (4 * k)).take 4 =
      cellsFrom d t .c (offOf o.a + (k / 64 * mRows o + r) * mCstr o + 4 * (k % 64)) 4 := by
  have hn : k / 64 < (List.range ((mKd o + 63) / 64)).length := by
    rw [List.length_range]
    omega
  have hfull : ∀ j ∈ (List.range ((mKd o + 63) / 64)).take (k / 64),
      (cellsFrom d t .c (offOf o.a + (j * mRows o + r) * mCstr o) (4 * min 64 (mKd o - 64 * j))).length = 256 := by
    intro j hj
    rw [List.take_range, List.mem_range] at hj
    rw [length_cellsFrom]
    omega
  unfold aCells
  rw [aPieces_ca h, List.flatMap_map, show 4 * k = 256 * (k / 64) + 4 * (k % 64) by omega,
    part_flatMap hfull hn (by simp only [List.getElem_range, length_cellsFrom]; omega), List.getElem_range,
    part_cellsFrom (by omega)]

theorem nth_aVec_ca (h : mCa o = true) {k : Nat} (hk : k < mKd o) : nth (aVec d t o r).elems k .nan =
    (caElem (mTy o) (codeAt d t .c (offOf o.a + (k / 64 * mRows o + r) * mCstr o + 4 * (k % 64)) 4).toNat).1 := by
  have hpart := part_aCells_ca (d := d) (t := t) (r := r) h hk
  have hroom : 4 * k + 4 ≤ (aCells d t o r).length := by
    have := congrArg List.length hpart
    rw [List.length_take, List.length_drop, length_cellsFrom] at this
    omega
  have hget := getElem_quad (bytesOf (aCells d t o r)) (j := k) (by simpa [bytesOf] using hroom)
  have hbytes : ((bytesOf (aCells d t o r)).drop (4 * k)).take 4 =
      bytesAt d t .c (offOf o.a + (k / 64 * mRows o + r) * mCstr o + 4 * (k % 64)) 4 := by
    rw [← bytesOf_cellsFrom, ← hpart]
    simp [bytesOf, List.map_take, List.map_drop]
  rw [hbytes] at hget
  rw [codeAt, toNat_leWord (by simp), aVec, if_pos h]
  simp only [nth, List.map_map, List.getElem?_map]
  rw [show slots 32 (bytesOf (aCells d t o r)) = slots.quad (bytesOf (aCells d t o r)) from rfl, hget]
  rfl

/-- The descriptor of group `j` of an A row (R290). -/
def aDesc (d : Dev) (t : Nat) (o : MatOp) (r j : Nat) : Desc :=
  if mG o then descOf ((codeAt d t .a (mAdesc o + 2 * (r * (mKd o / 32) + j)) 2).setWidth 16) else ⟨tyFmt (mTy o), 0x7F⟩

@[simp] theorem length_aDescs : (aDescs d t o r).length = mKd o / 32 := by
  unfold aDescs
  split <;> simp [plainDescs]

/-- The half word of two bytes. -/
theorem setWidth_leWord (bs : List Byte) : (leWord bs).setWidth 16 = BitVec.ofNat 16 (leNat bs) := by
  rw [leWord_eq_leNat, BitVec.setWidth_ofNat_of_le (by decide)]

theorem getElem_aDescs {j : Nat} (hj : j < mKd o / 32) : (aDescs d t o r)[j]? = some (aDesc d t o r j) := by
  unfold aDescs aDesc
  split
  · rw [List.getElem?_map, getElem_descsIn _ (by rw [length_bytesAt]; omega), part_bytesAt (by omega), codeAt, setWidth_leWord,
      show mAdesc o + 2 * r * (mKd o / 32) + 2 * j = mAdesc o + 2 * (r * (mKd o / 32) + j) by ring]
    rfl
  · simp [plainDescs, hj]

theorem nth_aVec_plain (h : mCa o = false)
    (hfit : ∀ j, j < mKd o / 32 → (aDesc d t o r j).fmtc ≤ 9 ∧ 4 * fmtBits (aDesc d t o r j).fmtc ≤ vecBytes (mTy o) 32)
    {k : Nat} (hk : k < mKd o) : nth (aVec d t o r).elems k .nan = nth (groupElems (aDesc d t o r (k / 32)) (extraOf o.xva)
      (bytesAt d t .a (offOf o.a + r * mAstr o + vecBytes (mTy o) 32 * (k / 32)) (vecBytes (mTy o) 32))).1 (k % 32) .nan := by
  have hmod := mKd_mod o
  have hj : k / 32 < mKd o / 32 := by omega
  have hrow : mArow o = vecBytes (mTy o) 32 * (mKd o / 32) := vecBytes_groups _ hmod
  have hroom : vecBytes (mTy o) 32 * (k / 32) + vecBytes (mTy o) 32 ≤ mArow o := by
    rw [hrow, ← Nat.mul_succ]
    exact Nat.mul_le_mul_left _ hj
  have hall : ∀ g ∈ aDescs d t o r, g.fmtc ≤ 9 ∧ 4 * fmtBits g.fmtc ≤ vecBytes (mTy o) 32 := by
    intro g hg
    obtain ⟨j, hjl, rfl⟩ := List.mem_iff_getElem.mp hg
    rw [length_aDescs] at hjl
    have := (List.getElem?_eq_getElem (by simpa using hjl)).symm.trans (getElem_aDescs (d := d) (t := t) (r := r) hjl)
    rw [Option.some_injective _ this]
    exact hfit j hjl
  rw [aVec, if_neg (by simp [h]), nth_decodeVec (by simp [aCells_plain h, hrow]) hall (by rw [length_aDescs]; omega) (getElem_aDescs hj),
    aCells_plain h, bytesOf_cellsFrom, part_bytesAt hroom]

theorem rowsOfA : RowsOfA := by
  intro m d t o r hin
  obtain ⟨a, hr, hv⟩ := readARow_in (m := m) (o := o) (r := r) hin
  refine ⟨a, hr, fun h k hk => ?_, fun h hfit k hk => ?_⟩
  · rw [hv]
    exact nth_aVec_ca h hk
  · rw [hv]
    exact nth_aVec_plain h hfit hk

end

/-! ### The columns of a bank (R289, R290). -/

theorem part_bankBytes (b : Bank) {off n x y : Nat} (h : x + y ≤ n) : ((bankBytes b off n).drop x).take y = bankBytes b (off + x) y := by
  apply List.ext_getElem
  · simp only [bankBytes, List.length_take, List.length_drop, List.length_map, List.length_range]
    omega
  · intro i h1 h2
    simp [bankBytes, Nat.add_assoc]

@[simp] theorem length_bankBytes (b : Bank) (off n : Nat) : (bankBytes b off n).length = n := by simp [bankBytes]

/-- The descriptors of a column of a bank. -/
def bankColDescs (b : Bank) (n : Nat) : List Desc :=
  if b.g then (descsIn (bankBytes b (b.wdesc + 2 * n * (b.k / 32)) (2 * (b.k / 32)))).map descOf else plainDescs b.ty (b.k / 32)

theorem bankCol_vec (b : Bank) (n : Nat) : (bankCol b n).1 =
    decodeVec b.ty (extraOf b.xvw) (bankColDescs b n) (bankBytes b (offOf b.word + n * colBytes b) (colBytes b)) := rfl

/-- The descriptor of group `j` of column `n` (R290). -/
def bankColDesc (b : Bank) (n j : Nat) : Desc :=
  if b.g then descOf (BitVec.ofNat 16 (leNat (bankBytes b (b.wdesc + 2 * (n * (b.k / 32) + j)) 2))) else ⟨tyFmt b.ty, 0x7F⟩

@[simp] theorem length_bankColDescs (b : Bank) (n : Nat) : (bankColDescs b n).length = b.k / 32 := by
  unfold bankColDescs
  split <;> simp [plainDescs]

theorem getElem_bankColDescs {b : Bank} (n : Nat) {j : Nat} (hj : j < b.k / 32) : (bankColDescs b n)[j]? = some (bankColDesc b n j) := by
  unfold bankColDescs bankColDesc
  split
  · rw [List.getElem?_map, getElem_descsIn _ (by rw [length_bankBytes]; omega), part_bankBytes b (by omega),
      show b.wdesc + 2 * n * (b.k / 32) + 2 * j = b.wdesc + 2 * (n * (b.k / 32) + j) by ring]
    rfl
  · simp [plainDescs, hj]

theorem columnsOfW : ColumnsOfW := by
  intro b n k
  dsimp only
  intro hmod hfit hk
  have hj : k / 32 < b.k / 32 := by omega
  have hcol : colBytes b = vecBytes b.ty 32 * (b.k / 32) := vecBytes_groups _ hmod
  have hroom : vecBytes b.ty 32 * (k / 32) + vecBytes b.ty 32 ≤ colBytes b := by
    rw [hcol, ← Nat.mul_succ]
    exact Nat.mul_le_mul_left _ hj
  have hall : ∀ g ∈ bankColDescs b n, g.fmtc ≤ 9 ∧ 4 * fmtBits g.fmtc ≤ vecBytes b.ty 32 := by
    intro g hg
    obtain ⟨j, hjl, rfl⟩ := List.mem_iff_getElem.mp hg
    rw [length_bankColDescs] at hjl
    have := (List.getElem?_eq_getElem (by simpa using hjl)).symm.trans (getElem_bankColDescs n hjl)
    rw [Option.some_injective _ this]
    exact hfit j hjl
  rw [bankCol_vec, nth_decodeVec (by simp [hcol]) hall (by rw [length_bankColDescs]; omega) (getElem_bankColDescs n hj),
    part_bankBytes b hroom]
  rfl

/-! ### Rows of `mzero` and `mpre` (R305, R306). -/

section
variable {m : Memory} {d : Dev} {t : Nat} {o : MatOp} {b : Bank}

theorem rowOut_mzero (hk : o.kind = .mzero) (hin : AllIn d t) :
    rowOut t o b m d = .ok (some ⟨offOf o.c + o.row * mCstr o, List.replicate (64 * mC o) (0, false), 0, none⟩, d) := by
  unfold rowOut zeroRow
  rw [hk]
  exact perf_bind_ok (readCells_in hin _ _)

/-- A run of cells, cut into elements. -/
theorem cellGroups_cellsFrom {st : StoreId} (off n k : Nat) :
    cellGroups n k (cellsFrom d t st off (k * n)) = (List.range k).map (fun i => cellsFrom d t st (off + n * i) n) := by
  unfold cellGroups
  refine List.map_congr_left (fun i hi => part_cellsFrom ?_)
  have := Nat.mul_le_mul_left n (List.mem_range.mp hi)
  rw [Nat.mul_succ] at this
  rwa [Nat.mul_comm k n]

/-- The offset of the source row of `mpre`. -/
def preSrc (o : MatOp) : Nat := offOf o.a + (if bits o.f.acc 0 0 = 1 then o.row * 64 * tyBytes (mTy o) else 0)

/-- The cells that `mpre` makes of element `n`. -/
def preCells (d : Dev) (t : Nat) (o : MatOp) (n : Nat) : List (Byte × Bool) :=
  marked (badAt d t .a (preSrc o + tyBytes (mTy o) * n) (tyBytes (mTy o)))
    (preElem (mTy o) (codeAt d t .a (preSrc o + tyBytes (mTy o) * n) (tyBytes (mTy o))))

theorem rowOut_mpre (hk : o.kind = .mpre) (hin : AllIn d t) : ∃ q, rowOut t o b m d = .ok (some q, d) ∧
    q.off = offOf o.c + o.row * mCstr o ∧ q.cells = (List.range 64).flatMap (preCells d t o) ∧ q.flags = 0 := by
  unfold rowOut preRow
  rw [hk]
  dsimp only
  rw [perf_bind_ok (readCells_in hin _ _), perf_bind_ok (readCells_in hin _ _)]
  refine ⟨_, rfl, rfl, ?_, rfl⟩
  rw [cellGroups_cellsFrom, List.flatMap_map]
  simp only [bytesOf_cellsFrom, badIn_cellsFrom]
  rfl

theorem length_preCells (h : (isFloatTy (mTy o) = true ∧ mC o = 4) ∨ (isFloatTy (mTy o) = false ∧ mC o = 8)) (n : Nat) :
    (preCells d t o n).length = mC o := by
  rcases h with ⟨hf, hc⟩ | ⟨hf, hc⟩ <;> simp [preCells, marked, preElem, hf, hc, leBytes_length]

theorem rowsOfPreloads : RowsOfPreloads := by
  refine ⟨fun m d t o b hk hin => rowOut_mzero hk hin, fun m d t o b hk hin h => ?_⟩
  obtain ⟨q, hr, hoff, hcells, hflags⟩ := rowOut_mpre (m := m) (b := b) hk hin
  refine ⟨q, hr, hoff, ?_, hflags, fun n hn => ?_⟩
  · rw [hcells, length_flatMap_const (fun n _ => length_preCells h n), List.length_range, Nat.mul_comm]
  · rw [cellsOfElem, hcells, piece_flatMap (fun n _ => length_preCells h n) (by simpa using hn), List.getElem_range]
    rfl

end

end Sys2Proof.Machine
end

section
/-!
SUPPORT. The loops of a product and the rows of `mma` and `mmas` (spec/05_number_formats.md R89 to R92, spec/16_isa_matrix.md R289, R300,
R303).
-/
namespace Sys2Proof.Machine
open Sys2Proof.Claims

/-! ### Chunks of a floating loop (R89, R90). -/

theorem chunkOf_cases (fa fw : Nat) : chunkOf fa fw = 1 ∨ chunkOf fa fw = 2 ∨ chunkOf fa fw = 4 ∨ chunkOf fa fw = 32 := by
  unfold chunkOf
  dsimp only
  split_ifs <;> simp

theorem chunkOf_dvd (fa fw : Nat) : chunkOf fa fw ∣ 32 := by
  rcases chunkOf_cases fa fw with h | h | h | h <;> rw [h] <;> decide

theorem chunkOf_pos (fa fw : Nat) : 0 < chunkOf fa fw := Nat.pos_of_dvd_of_pos (chunkOf_dvd fa fw) (by decide)

/-- What a chunk of size `p.2` at position `p.1` makes of an accumulator: one rounding of its sum (R90). -/
def chunkStep (a w : Vec) (x : Nat × BitVec 9) (p : Nat × Nat) : Nat × BitVec 9 :=
  let s := chunkSum (p.2 == 32) ((List.range p.2).map (fun i => (nth a.elems (p.1 + i) .nan, nth w.elems (p.1 + i) .nan)))
  let r := accRound x.1 s.1
  (r.1, x.2 ||| s.2 ||| r.2)

/-- The chunk at a position, with `i` present positions below it. -/
def chunkAt (a w : Vec) (k i : Nat) : Nat := chunkOf (nth a.fmts (k / 32) 0) (nth w.fmts (min i (w.elems.length - 1) / 32) 0)

section
variable {kd : Nat} {a w : Vec} {pos : List Nat} {fuel k i : Nat} {acc : Nat × BitVec 9}

theorem fpLoop_end (h : kd ≤ k) : fpLoop kd a w pos fuel k i acc = acc := by
  cases fuel with
  | zero => rfl
  | succ fuel => exact if_pos h

/-- A chunk with no position present leaves the accumulator (R92). -/
theorem fpLoop_absent (hk : k < kd) (h : ∀ p ∈ pos.drop i, min kd (k / chunkAt a w k i * chunkAt a w k i + chunkAt a w k i) ≤ p) :
    fpLoop kd a w pos (fuel + 1) k i acc =
      fpLoop kd a w pos fuel (min kd (k / chunkAt a w k i * chunkAt a w k i + chunkAt a w k i)) i acc := by
  unfold chunkAt at h ⊢
  rw [fpLoop, if_neg (by omega)]
  dsimp only
  rw [List.takeWhile_eq_nil_iff.mpr (fun hl => by
    rw [decide_eq_true_eq, Nat.not_lt]
    exact h _ (List.getElem_mem hl))]
  rfl

/-- The positions of a chunk of a dense loop. -/
theorem takeWhile_range {c : Nat} (h : k + c ≤ kd) :
    ((List.range kd).drop k).takeWhile (fun p => decide (p < k + c)) = List.range' k c := by
  rw [List.range_eq_range', List.drop_range', Nat.zero_add, show kd - k = c + (kd - k - c) by omega, ← List.range'_append_1,
    List.takeWhile_append_of_pos (by simp)]
  cases kd - k - c with
  | zero => simp
  | succ n => simp [List.range'_succ]

theorem zipIdx_range' {α : Type} (k c : Nat) (f : Nat × Nat → α) :
    (List.range' k c).zipIdx.map f = (List.range c).map (fun i => f (k + i, i)) := by
  apply List.ext_getElem <;> simp

/-- One chunk of a dense loop (R90). -/
theorem fpLoop_chunk {c : Nat} (hc : c = chunkOf (nth a.fmts (k / 32) 0) (nth w.fmts (k / 32) 0)) (hd : c ∣ k) (hkd : kd % 32 = 0)
    (hw : w.elems.length = kd) (hk : k < kd) :
    fpLoop kd a w (List.range kd) (fuel + 1) k k acc =
      fpLoop kd a w (List.range kd) fuel (k + c) (k + c) (chunkStep a w acc (k, c)) := by
  have h32 : c ∣ 32 := hc ▸ chunkOf_dvd _ _
  have hpos : 0 < c := hc ▸ chunkOf_pos _ _
  have hfit : k + c ≤ kd := by
    obtain ⟨x, rfl⟩ := hd
    obtain ⟨y, rfl⟩ := h32.trans (Nat.dvd_of_mod_eq_zero hkd)
    rw [← Nat.mul_succ]
    exact Nat.mul_le_mul_left c (Nat.lt_of_mul_lt_mul_left hk)
  rw [fpLoop, if_neg (by omega)]
  dsimp only
  rw [hw, show min k (kd - 1) = k by omega, ← hc, Nat.div_mul_cancel hd, Nat.min_eq_right hfit, takeWhile_range hfit, zipIdx_range',
    List.length_range', if_neg (by simp; omega)]
  rfl

/-- The chunks of one group of 32 in a row. -/
theorem fpLoop_group {g c : Nat} (hc : c = chunkOf (nth a.fmts g 0) (nth w.fmts g 0)) (hkd : kd % 32 = 0) (hw : w.elems.length = kd)
    (hg : g < kd / 32) {n : Nat} (hn : n * c ≤ 32) :
    fpLoop kd a w (List.range kd) (fuel + n) (32 * g) (32 * g) acc =
      fpLoop kd a w (List.range kd) fuel (32 * g + n * c) (32 * g + n * c)
        (((List.range n).map (fun j => (32 * g + j * c, c))).foldl (chunkStep a w) acc) := by
  induction n generalizing fuel with
  | zero => simp
  | succ n ih =>
    have hpos : 0 < c := hc ▸ chunkOf_pos _ _
    rw [Nat.succ_mul] at hn
    have hgk : (32 * g + n * c) / 32 = g := by omega
    have hd : c ∣ 32 * g + n * c := (Dvd.dvd.mul_right (hc ▸ chunkOf_dvd _ _) g).add (Dvd.intro_left n rfl)
    rw [show fuel + (n + 1) = fuel + 1 + n by omega, ih (by omega), fpLoop_chunk (by rw [hgk]; exact hc) hd hkd hw (by omega),
      List.range_succ, List.map_append,
      List.foldl_append, Nat.add_assoc (32 * g), ← Nat.succ_mul]
    rfl

theorem chunks_succ (fa fw : List Nat) (n : Nat) : chunks (32 * (n + 1)) fa fw = chunks (32 * n) fa fw ++
    (List.range (32 / chunkOf (nth fa n 0) (nth fw n 0))).map (fun j =>
      (32 * n + j * chunkOf (nth fa n 0) (nth fw n 0), chunkOf (nth fa n 0) (nth fw n 0))) := by
  simp [chunks, List.range_succ]

theorem length_chunks_le (fa fw : List Nat) (n : Nat) : (chunks (32 * n) fa fw).length ≤ 32 * n := by
  induction n with
  | zero => simp [chunks]
  | succ n ih =>
    rw [chunks_succ, List.length_append, List.length_map, List.length_range]
    have := Nat.div_le_self 32 (chunkOf (nth fa n 0) (nth fw n 0))
    omega

theorem fpLoop_groups (hkd : kd % 32 = 0) (hw : w.elems.length = kd) {n : Nat} (hn : n ≤ kd / 32) :
    fpLoop kd a w (List.range kd) (fuel + (chunks (32 * n) a.fmts w.fmts).length) 0 0 acc =
      fpLoop kd a w (List.range kd) fuel (32 * n) (32 * n) ((chunks (32 * n) a.fmts w.fmts).foldl (chunkStep a w) acc) := by
  induction n generalizing fuel with
  | zero => simp [chunks]
  | succ n ih =>
    have hfull := Nat.div_mul_cancel (chunkOf_dvd (nth a.fmts n 0) (nth w.fmts n 0))
    rw [chunks_succ, List.length_append, List.length_map, List.length_range, Nat.add_comm (chunks _ _ _).length, ← Nat.add_assoc,
      ih (by omega), fpLoop_group rfl hkd hw (by omega) hfull.le, hfull, List.foldl_append,
      Nat.mul_succ]

theorem fpLoop_dense (hkd : kd % 32 = 0) (hw : w.elems.length = kd) :
    fpLoop kd a w (List.range kd) kd 0 0 acc = (chunks kd a.fmts w.fmts).foldl (chunkStep a w) acc := by
  have hn : 32 * (kd / 32) = kd := by omega
  have hlen := length_chunks_le a.fmts w.fmts (kd / 32)
  have hall := fpLoop_groups (a := a) (acc := acc) (fuel := kd - (chunks (32 * (kd / 32)) a.fmts w.fmts).length) hkd hw le_rfl
  rw [hn] at hlen hall
  rw [Nat.sub_add_cancel hlen] at hall
  rw [hall, fpLoop_end le_rfl]

end

/-! ### The sum of R91 and the positions of R303. -/

theorem intLoop_dense (k : Nat) (a w : Vec) (acc : W64) : intLoop a w (List.range k) acc =
    acc + BitVec.ofInt 64 (((List.range k).map (fun i =>
      intElem (nth a.elems i (fzero false)) * intElem (nth w.elems i (fzero false)))).sum) := by
  rw [intLoop, List.range_eq_range', zipIdx_range', ← List.range_eq_range', BitVec.ofInt_add, BitVec.ofInt_toInt]
  simp only [Nat.zero_add]

/-- The numbers below a multiple of `c` that pass a test, block by block. -/
theorem filter_range_mul (c n : Nat) (p : Nat → Bool) : (List.range (c * n)).filter p =
    (List.range n).flatMap (fun i => ((List.range c).filter (fun j => p (c * i + j))).map (c * i + ·)) := by
  induction n with
  | zero => simp
  | succ n ih =>
    rw [Nat.mul_succ, List.range_add, List.filter_append, ih, List.range_succ, List.flatMap_append, List.filter_map]
    simp [Function.comp_def]

/-- A bit of the number that bytes spell is a bit of one of them. -/
theorem testBit_leNat {bs : List Byte} {j : Nat} (h : j / 8 < bs.length) : (leNat bs).testBit j = (bs[j / 8]).getLsbD (j % 8) := by
  have hlt : j % 8 < 8 := Nat.mod_lt j (by decide)
  rw [BitVec.getLsbD, ← leNat_byte h, Nat.testBit_mod_two_pow, Nat.testBit_div_two_pow, decide_eq_true hlt, Bool.true_and,
    show j % 8 + 8 * (j / 8) = j by omega]

theorem zipIdx_map_range {α : Type} (f : Nat → α) (n : Nat) : ((List.range n).map f).zipIdx = (List.range n).map (fun i => (f i, i)) := by
  apply List.ext_getElem <;> simp

/-- Bit `j` of the mask in block `i` of a sparse bank. -/
theorem testBit_mask (b : Bank) (i : Nat) {j : Nat} (h : j < 128) : (leNat (bankBytes b (b.moff + 16 * i) 16)).testBit j =
    (look 0 b.bytes (b.moff + (128 * i + j) / 8)).getLsbD ((128 * i + j) % 8) := by
  rw [testBit_leNat (by rw [length_bankBytes]; omega), show (128 * i + j) / 8 = 16 * i + j / 8 by omega,
    show (128 * i + j) % 8 = j % 8 by omega]
  simp [bankBytes, Nat.add_assoc]

theorem presentPos_eq (b : Bank) : presentPos b = if b.sparse = 0 then List.range b.k
    else (List.range (128 * (maskBytes b / 16))).filter (fun k => (look 0 b.bytes (b.moff + k / 8)).getLsbD (k % 8)) := by
  unfold presentPos
  refine if_congr Iff.rfl rfl ?_
  rw [filter_range_mul, bankMasks, zipIdx_map_range, List.flatMap_map]
  refine List.flatMap_congr (fun i _ => congrArg _ (List.filter_congr (fun j hj => ?_)))
  exact testBit_mask b i (List.mem_range.mp hj)

theorem productLoops : ProductLoops :=
  ⟨fun _ _ _ _ hkd hw => fpLoop_dense hkd hw, intLoop_dense, presentPos_eq, fun _ _ _ _ _ _ _ _ hk h => fpLoop_absent hk h⟩

/-! ### Rows of products (R289, R300, R303). -/

section
variable {m : Memory} {d : Dev} {t : Nat} {o : MatOp} {b : Bank} {a : ARow}

/-- The cells that a product adds to: zeros under `.z`, or the row of C. -/
def oldCells (d : Dev) (t : Nat) (o : MatOp) : List (Byte × Bool) :=
  if mZ o then List.replicate (64 * mC o) (0, false) else cellsFrom d t .c (offOf o.c + o.row * mCstr o) (64 * mC o)

theorem mC_product (h : isProduct o = true) : mC o = 4 ∨ mC o = 8 := by
  have hk : o.kind = .mma ∨ o.kind = .mmas := by simpa [isProduct] using h
  unfold mC
  rcases hk with hk | hk
  · rw [hk]
    dsimp only
    split <;> simp
  · rw [hk]
    dsimp only
    split <;> simp

theorem rowOut_product (h : isProduct o = true) (hin : AllIn d t) (ha : readARow t o o.row m d = .ok (a, d)) (hr : a.ready = true) :
    ∃ q, rowOut t o b m d = .ok (some q, d) ∧ q.off = offOf o.c + o.row * mCstr o ∧
      q.cells = (List.range 64).flatMap (fun n => (productElem o b (presentPos b) a (oldCells d t o) n).1) := by
  have hrow : rowOut t o b = productRow t o b o.row := by
    have hk : o.kind = .mma ∨ o.kind = .mmas := by simpa [isProduct] using h
    unfold rowOut
    rcases hk with hk | hk <;> rw [hk]
  have hold : (if mZ o then pure (List.replicate (64 * mC o) (0, false)) else readCells t .c (offOf o.c + o.row * mCstr o) (64 * mC o) :
      Perf (List (Byte × Bool))) m d = .ok (oldCells d t o, d) := by
    unfold oldCells
    split
    · rfl
    · exact readCells_in hin _ _
  rw [hrow]
  unfold productRow
  rw [perf_bind_ok ha]
  dsimp only
  rw [perf_bind_ok hold, perf_bind_ok (readCells_in hin _ _), hr, if_neg (by decide)]
  exact ⟨_, rfl, rfl, by rw [List.flatMap_map]⟩

/-- The cell of element `n` that a product adds to. -/
theorem part_oldCells {n : Nat} (hn : n < 64) : ((oldCells d t o).drop (mC o * n)).take (mC o) =
    if mZ o then List.replicate (mC o) (0, false) else cellsFrom d t .c (offOf o.c + o.row * mCstr o + mC o * n) (mC o) := by
  have hroom : mC o * n + mC o ≤ 64 * mC o := by
    have := Nat.mul_le_mul_left (mC o) hn
    rw [Nat.mul_succ] at this
    rwa [Nat.mul_comm 64]
  unfold oldCells
  split
  · rw [List.drop_replicate, List.take_replicate, Nat.min_eq_left (by omega)]
  · exact part_cellsFrom hroom

/-- What element `n` of a row of a product adds to, as a code. -/
def oldCode (d : Dev) (t : Nat) (o : MatOp) (n : Nat) : W64 :=
  if mZ o then 0 else codeAt d t .c (offOf o.c + o.row * mCstr o + mC o * n) (mC o)

theorem leWord_zeros (n : Nat) : leWord (List.replicate n 0#8) = 0 := by
  induction n with
  | zero => rfl
  | succ n ih =>
    rw [List.replicate_succ, leWord, ih]
    rfl

theorem leWord_oldCells {n : Nat} (hn : n < 64) : leWord (bytesOf (((oldCells d t o).drop (mC o * n)).take (mC o))) = oldCode d t o n := by
  rw [part_oldCells hn, oldCode]
  split
  · rw [bytesOf, List.map_replicate]
    exact leWord_zeros (mC o)
  · rw [bytesOf_cellsFrom]
    rfl

theorem badIn_oldCells {n : Nat} (hn : n < 64) : badIn (((oldCells d t o).drop (mC o * n)).take (mC o)) =
    (!mZ o && badAt d t .c (offOf o.c + o.row * mCstr o + mC o * n) (mC o)) := by
  rw [part_oldCells hn]
  split
  · next h => simp [badIn, h]
  · next h => simp [h]

/-- The value of element `n` of a row of a product. -/
def productVal (d : Dev) (t : Nat) (o : MatOp) (b : Bank) (a : ARow) (n : Nat) : W64 :=
  if mC o = 8 then intLoop a.vec (bankCol b n).1 (presentPos b) (oldCode d t o n)
  else w64 (fpLoop (mKd o) a.vec (bankCol b n).1 (presentPos b) (mKd o) 0 0 ((oldCode d t o n).toNat, 0)).1

theorem productElem_cells (h : mC o = 4 ∨ mC o = 8) {n : Nat} (hn : n < 64) :
    (productElem o b (presentPos b) a (oldCells d t o) n).1 =
      marked ((bankCol b n).2 || a.bad || (!mZ o && badAt d t .c (offOf o.c + o.row * mCstr o + mC o * n) (mC o)))
        (leBytes (mC o) (productVal d t o b a n)) := by
  unfold productElem productVal
  dsimp only
  rw [leWord_oldCells hn, badIn_oldCells hn]
  rcases h with h | h
  · simp only [h, if_neg (by decide : ¬ (4 : Nat) = 8)]
    rfl
  · simp only [h, if_true]
    rfl

theorem rowsOfProducts : RowsOfProducts := by
  intro m d t o b a h hin ha hr
  obtain ⟨q, hrow, hoff, hcells⟩ := rowOut_product (b := b) h hin ha hr
  have hC := mC_product h
  have hlen : ∀ n ∈ List.range 64, (productElem o b (presentPos b) a (oldCells d t o) n).1.length = mC o := by
    intro n hn
    rw [productElem_cells hC (List.mem_range.mp hn)]
    simp [marked, leBytes_length]
  refine ⟨q, hrow, hoff, ?_, fun n hn => ?_⟩
  · rw [hcells, length_flatMap_const hlen, List.length_range, Nat.mul_comm]
  · dsimp only
    rw [hoff, cellsOfElem, hcells, piece_flatMap hlen (by simpa using hn), List.getElem_range, productElem_cells hC hn]
    rfl

end

end Sys2Proof.Machine
end

section
/-!
SUPPORT. Rows of `mpost` and the arithmetic of its elements (spec/16_isa_matrix.md R307 to R309).
-/
namespace Sys2Proof.Machine
open Sys2Proof.Claims

/-! ### Masks made bit by bit. -/

/-- The number whose bits below `n` pass a test. -/
def maskNat (n : Nat) (f : Nat → Bool) : Nat := (List.range n).foldl (fun x i => if f i then x + 2 ^ i else x) 0

theorem maskNat_succ (n : Nat) (f : Nat → Bool) : maskNat (n + 1) f = if f n then maskNat n f + 2 ^ n else maskNat n f := by
  rw [maskNat, List.range_succ, List.foldl_append]
  rfl

theorem maskNat_lt (n : Nat) (f : Nat → Bool) : maskNat n f < 2 ^ n := by
  induction n with
  | zero => simp [maskNat]
  | succ n ih =>
    rw [maskNat_succ, Nat.pow_succ]
    split <;> omega

theorem testBit_maskNat (n : Nat) (f : Nat → Bool) (j : Nat) : (maskNat n f).testBit j = (decide (j < n) && f j) := by
  induction n with
  | zero => simp [maskNat]
  | succ n ih =>
    have hlt := maskNat_lt n f
    have hbit : (maskNat (n + 1) f).testBit j = if j = n then f n else (maskNat n f).testBit j := by
      rw [maskNat_succ]
      cases hf : f n with
      | false =>
        rw [if_neg (by decide)]
        split
        · next h => rw [h, Nat.testBit_lt_two_pow hlt]
        · rfl
      | true =>
        rw [if_pos rfl, Nat.add_comm]
        split
        · next h => rw [h, Nat.testBit_two_pow_add_eq, Nat.testBit_lt_two_pow hlt, Bool.not_false]
        · next h =>
          rcases Nat.lt_or_gt_of_ne h with hj | hj
          · exact Nat.testBit_two_pow_add_gt hj _
          · have hle : 2 ^ (n + 1) ≤ 2 ^ j := Nat.pow_le_pow_right (by decide) hj
            rw [Nat.pow_succ] at hle
            rw [Nat.testBit_lt_two_pow (by omega), Nat.testBit_lt_two_pow (by omega)]
    rw [hbit, ih]
    split
    · next h => simp [h]
    · next h => simp [show j < n + 1 ↔ j < n by omega]

theorem getLsbD_maskNat (f : Nat → Bool) {j : Nat} (h : j < 64) : (w64 (maskNat 64 f)).getLsbD j = f j := by
  rw [w64, BitVec.getLsbD_ofNat, testBit_maskNat]
  simp [h]

/-! ### The runs of `cover` (R309). -/

/-- How many runs end before a column. -/
def runsBefore (ends : Nat → Bool) (n : Nat) : Nat := ((List.range n).filter ends).length

theorem runsBefore_eq_iff_of_le (ends : Nat → Bool) {a b : Nat} (h : a ≤ b) :
    runsBefore ends b = runsBefore ends a ↔ ∀ j, a ≤ j → j < b → ends j = false := by
  obtain ⟨e, rfl⟩ := Nat.exists_eq_add_of_le h
  rw [runsBefore, List.range_add, List.filter_append, List.length_append, ← runsBefore, Nat.add_eq_left, List.length_eq_zero_iff,
    List.filter_eq_nil_iff]
  simp only [List.mem_map, List.mem_range, Bool.not_eq_true, forall_exists_index, and_imp]
  constructor
  · intro hall j ha hb
    exact hall j (j - a) (by omega) (by omega)
  · rintro hall _ i hi rfl
    exact hall _ (by omega) (by omega)

/-- Two columns are in one run where no run ends between them. -/
theorem runsBefore_eq_iff (ends : Nat → Bool) (n k : Nat) :
    runsBefore ends k = runsBefore ends n ↔ ∀ j, min n k ≤ j → j < max n k → ends j = false := by
  rcases Nat.le_total n k with h | h
  · rw [Nat.min_eq_left h, Nat.max_eq_right h]
    exact runsBefore_eq_iff_of_le ends h
  · rw [Nat.min_eq_right h, Nat.max_eq_left h, eq_comm]
    exact runsBefore_eq_iff_of_le ends h

theorem coverMask_eq (bs : List Bool) (ends : Nat → Bool) : coverMask bs ends = maskNat 64 (fun n =>
    (List.range 64).all (fun k => runsBefore ends k ≠ runsBefore ends n || nth bs k false)) := rfl

/-- A bit of a cover mask: every element of its run passes. -/
theorem getLsbD_coverMask (bs : List Bool) (ends : Nat → Bool) {n : Nat} (hn : n < 64) : (w64 (coverMask bs ends)).getLsbD n = true ↔
    ∀ k, k < 64 → (∀ j, min n k ≤ j → j < max n k → ends j = false) → nth bs k false = true := by
  rw [coverMask_eq, getLsbD_maskNat _ hn]
  simp only [List.all_eq_true, List.mem_range, Bool.or_eq_true, decide_eq_true_eq, ← runsBefore_eq_iff]
  exact forall₂_congr (fun k _ => by tauto)

/-! ### Rows of `mpost` (R307 to R309). -/

section
variable {m : Memory} {d : Dev} {t : Nat} {o : MatOp} {b : Bank}

theorem overlay_nil (at_ off : Nat) (cells : List (Byte × Bool)) : overlay at_ [] off cells = cells := by
  apply List.ext_getElem <;> simp [overlay, nth]

/-- The offset, the code and the poison of element `n` of the source row of `mpost`. -/
def postAt (o : MatOp) (n : Nat) : Nat := offOf o.a + o.row * mCstr o + mC o * n
def postCode (d : Dev) (t : Nat) (o : MatOp) (n : Nat) : W64 := codeAt d t .c (postAt o n) (mC o)
def postBad (d : Dev) (t : Nat) (o : MatOp) (n : Nat) : Bool := badAt d t .c (postAt o n) (mC o)

/-- What a row of `mpost` puts out, from the cells of its source row. -/
def postCells (d : Dev) (t : Nat) (o : MatOp) : List (Byte × Bool) :=
  if bits o.f.acc 2 0 = 2 then
    marked (badAt d t .c (postAt o 0) (64 * mC o)) (leBytes 8 (w64 (maskNat 64 (fun n => (postBit o (postCode d t o n)).1))))
  else if bits o.f.acc 2 0 = 3 then
    marked (badAt d t .c (postAt o 0) (64 * mC o)) (leBytes 8 (w64 (coverMask ((List.range 64).map (fun n =>
      decide (0 ≤ (postCode d t o n).toInt))) (fun n => none8 o.f.w || o.w.getLsbD n))))
  else if tyBits (mTy o) = 4 then
    (List.range 32).map (fun j => (BitVec.ofNat 8 ((postElem o (postCode d t o (2 * j))).val.toNat % 16 +
      16 * ((postElem o (postCode d t o (2 * j + 1))).val.toNat % 16)), postBad d t o (2 * j) || postBad d t o (2 * j + 1)))
  else (List.range 64).flatMap (fun n =>
    marked (postBad d t o n) (leBytes (tyBytes (mTy o)) (postElem o (postCode d t o n)).val))

theorem nth_map_range {α : Type} (f : Nat → α) {n i : Nat} (h : i < n) (e : α) : nth ((List.range n).map f) i e = f i := by
  simp [nth, h]

theorem rowOut_mpost (hk : o.kind = .mpost) (hin : AllIn d t) (hc : o.carry = []) : ∃ q, rowOut t o b m d = .ok (some q, d) ∧
    q.off = offOf o.c + o.row * mOutRow o ∧ q.cells = postCells d t o := by
  unfold rowOut postRow
  rw [hk]
  dsimp only
  rw [perf_bind_ok (readCells_in hin _ _), hc, overlay_nil, perf_bind_ok (readCells_in hin _ _), cellGroups_cellsFrom]
  unfold postCells
  by_cases h2 : bits o.f.acc 2 0 = 2
  · rw [if_pos h2, if_pos h2]
    refine ⟨_, rfl, rfl, ?_⟩
    dsimp only
    rw [List.map_map, zipIdx_map_range, List.foldl_map, badIn_cellsFrom]
    simp only [Function.comp_def, bytesOf_cellsFrom]
    rfl
  · rw [if_neg h2, if_neg h2]
    by_cases h3 : bits o.f.acc 2 0 = 3
    · rw [if_pos h3, if_pos h3]
      refine ⟨_, rfl, rfl, ?_⟩
      dsimp only
      rw [List.map_map, badIn_cellsFrom]
      simp only [Function.comp_def, bytesOf_cellsFrom]
      rfl
    · rw [if_neg h3, if_neg h3]
      refine ⟨_, rfl, rfl, ?_⟩
      dsimp only
      rw [List.map_map]
      simp only [Function.comp_def, bytesOf_cellsFrom, badIn_cellsFrom]
      by_cases h4 : tyBits (mTy o) = 4
      · rw [if_pos h4, if_pos h4]
        refine List.map_congr_left (fun j hj => ?_)
        have hj' := List.mem_range.mp hj
        rw [nth_map_range _ (by omega), nth_map_range _ (by omega)]
        rfl
      · rw [if_neg h4, if_neg h4, List.flatMap_map]
        rfl

/-- The nibble that a packed byte gives back. -/
theorem packed_nibble (x y : Nat) (n : Nat) : (BitVec.ofNat 8 (x % 16 + 16 * (y % 16))).toNat / 16 ^ (n % 2) % 16 =
    if n % 2 = 0 then x % 16 else y % 16 := by
  rw [BitVec.toNat_ofNat]
  rcases Nat.mod_two_eq_zero_or_one n with h | h
  · simp only [h, pow_zero, if_true]
    omega
  · simp only [h, pow_one, one_ne_zero, if_false]
    omega

theorem rowsOfPosts : RowsOfPosts := by
  intro m d t o b hk hin hc
  obtain ⟨q, hrow, hoff, hcells⟩ := rowOut_mpost (m := m) (b := b) hk hin hc
  refine ⟨q, hrow, hoff, fun hop => ?_, fun h2 h3 h4 n hn => ?_, fun h2 h3 h4 n hn => ?_⟩
  · rcases hop with h2 | h3
    · rw [postCells, if_pos h2] at hcells
      exact ⟨_, hcells, fun n hn => ⟨fun _ => getLsbD_maskNat _ hn, fun h3 => absurd (h2.symm.trans h3) (by decide)⟩⟩
    · rw [postCells, if_neg (by omega), if_pos h3] at hcells
      refine ⟨_, hcells, fun n hn => ⟨fun h2 => absurd (h2.symm.trans h3) (by decide), fun _ => ?_⟩⟩
      rw [getLsbD_coverMask _ _ hn]
      refine forall₂_congr (fun k hk => ?_)
      rw [nth_map_range _ hk, decide_eq_true_eq]
      simp only [Bool.or_eq_false_iff]
      rfl
  · rw [postCells, if_neg h2, if_neg h3, if_neg h4] at hcells
    rw [cellsOfElem, hcells, piece_flatMap (fun n _ => by simp [marked, leBytes_length]) (by simpa using hn), List.getElem_range]
    rfl
  · rw [postCells, if_neg h2, if_neg h3, if_pos h4] at hcells
    rw [hcells, nth_map_range _ (by omega), packed_nibble]
    rcases Nat.mod_two_eq_zero_or_one n with h | h
    · rw [if_pos h, show 2 * (n / 2) = n by omega]
      rfl
    · rw [if_neg (by omega), show 2 * (n / 2) + 1 = n by omega]
      rfl

end

/-! ### `rshr` and `div255` (R308). -/

/-- The shift with half up, on the doubled value. -/
theorem halfUp_eq (v : Int) (s : Nat) : (if s = 0 then v else (v + 2 ^ (s - 1)) / 2 ^ s) = (2 * v + 2 ^ s) / 2 ^ (s + 1) := by
  cases s with
  | zero =>
    simp only [if_true, pow_zero, Nat.zero_add, pow_one]
    omega
  | succ s =>
    rw [if_neg (by omega), Nat.add_sub_cancel, show (2 * v + 2 ^ (s + 1) : Int) = 2 * (v + 2 ^ s) by ring,
      show (2 ^ (s + 1 + 1) : Int) = 2 * 2 ^ (s + 1) by ring, Int.mul_ediv_mul_of_pos _ _ (by decide)]

theorem postElem_rshr {o : MatOp} (v : W64) (h : bits o.f.acc 2 0 = 4) :
    (postElem o v).val = (intoRange (mTy o) ((2 * v.toInt + 2 ^ bits o.w 5 0) / 2 ^ (bits o.w 5 0 + 1)) (bits o.f.fl 3 3 == 1)).1 ∧
    (postElem o v).flags = (intoRange (mTy o) ((2 * v.toInt + 2 ^ bits o.w 5 0) / 2 ^ (bits o.w 5 0 + 1)) (bits o.f.fl 3 3 == 1)).2 := by
  rw [← halfUp_eq]
  unfold postElem
  rw [h]
  exact ⟨rfl, rfl⟩

/-- The quotient of `div255` before its range is checked. -/
def div255 (v : Int) : Int := (v + 128 + (v + 128) / 256) / 256

theorem postElem_div255 {o : MatOp} (v : W64) (h : bits o.f.acc 2 0 = 5) : postElem o v =
    if v.toInt + 128 < 0 then { val := 0, flags := fSAT, rss := 0 }
    else if 255 < div255 v.toInt then { val := 255, flags := fSAT, rss := 0 }
    else { val := BitVec.ofInt 64 (div255 v.toInt), rss := 0 } := by
  unfold postElem
  rw [h]
  rfl

/-- Up to 255 times 255 the quotient is the nearest to v / 255: twice the value plus half of twice the divisor. -/
theorem div255_eq {v : Int} (h0 : 0 ≤ v) (h1 : v ≤ 65025) : div255 v = (2 * v + 255) / 510 := by
  have hu : div255 v ≤ 255 := by
    unfold div255
    omega
  have hq : 256 * ((v + 128) / 256) ≤ v + 128 ∧ v + 128 < 256 * ((v + 128) / 256) + 256 := by omega
  have hd : 256 * div255 v ≤ v + 128 + (v + 128) / 256 ∧ v + 128 + (v + 128) / 256 < 256 * div255 v + 256 := by
    unfold div255
    omega
  have hlow : 510 * div255 v ≤ 2 * v + 255 := by
    rcases Int.lt_or_le ((v + 128) / 256) (div255 v) with h | h <;> omega
  have hhigh : 2 * v + 255 < 510 * div255 v + 510 := by
    rcases Int.lt_or_le ((v + 128) / 256) (div255 v) with h | h <;> omega
  omega

theorem postArithmetic : PostArithmetic := by
  intro o v
  refine ⟨fun h => postElem_rshr v h, fun h => ?_⟩
  rw [postElem_div255 v h]
  refine ⟨fun hv => ?_, fun hv h0 => ?_, fun h0 hv => ?_, fun hv => ?_⟩
  · rw [if_pos (by omega)]
    exact ⟨rfl, rfl⟩
  · have hz : div255 v.toInt = 0 := by
      unfold div255
      omega
    rw [if_neg (by omega), hz, if_neg (by decide)]
    exact ⟨rfl, rfl⟩
  · have hd := div255_eq h0 hv
    have hn : v.toInt = (v.toNat : Int) := by
      have := v.isLt
      rw [BitVec.toInt_eq_toNat_cond] at h0 ⊢
      split at h0
      · rw [if_pos ‹_›]
      · omega
    rw [if_neg (by omega), if_neg (by omega)]
    refine ⟨?_, rfl⟩
    rw [BitVec.toNat_ofInt, hd, hn]
    omega
  · have hz : 255 < div255 v.toInt := by
      unfold div255
      omega
    rw [if_neg (by omega), if_pos hz]
    exact ⟨rfl, rfl⟩

end Sys2Proof.Machine
end

section
/-!
SUPPORT. An output row of the matrix engine lands where it lies and nowhere else (spec/03_operand_stores.md R45, spec/09_engines_determinism.md R163,
spec/16_isa_matrix.md R300).
-/
namespace Sys2Proof.Machine
open Sys2Proof.Claims

/-! ### Pages by their store and number. -/

theorem findPage_some {x : StageSet} {st : StoreId} {n pi : Nat} (h : findPage x st n = some pi) :
    pi < x.pages.length ∧ (nth x.pages pi noPage).store = st ∧ (nth x.pages pi noPage).idx = n := by
  obtain ⟨hl, hp, -⟩ := List.findIdx?_eq_some_iff_getElem.mp h
  simp only [Bool.and_eq_true, beq_iff_eq] at hp
  simpa [nth, hl] using hp

/-- A page's store and number, which a change of its bytes keeps. -/
def pageName (p : Page) : StoreId × Nat := (p.store, p.idx)

theorem findPage_congr {x y : StageSet} (h : x.pages.map pageName = y.pages.map pageName) (st : StoreId) (n : Nat) :
    findPage x st n = findPage y st n := by
  have hx : ∀ z : StageSet, findPage z st n = (z.pages.map pageName).findIdx? (fun q => q.1 == st && q.2 == n) := by
    intro z
    rw [List.findIdx?_map]
    rfl
  rw [hx, hx, h]

theorem hasPage_of_find {d : Dev} {t pi n : Nat} {st : StoreId} (h : findPage (setOf d t) st n = some pi) : HasPage d t pi := by
  refine ⟨?_, (findPage_some h).1⟩
  by_contra hlt
  have hno : setOf d t = noSet := by simp [setOf, nth, Nat.le_of_not_lt hlt]
  rw [hno] at h
  cases h

/-! ### Bytes of a page. -/

theorem look_foldl_zipIdx (bs : List Byte) (off k : Nat) (t : Sparse Byte) (x : Nat) :
    look 0 ((bs.zipIdx k).foldl (fun t b => put 0 t (off + b.2) b.1) t) x =
      if off + k ≤ x ∧ x < off + k + bs.length then nth bs (x - (off + k)) 0 else look 0 t x := by
  induction bs generalizing k t with
  | nil =>
    rw [if_neg (by simp)]
    rfl
  | cons b bs ih =>
    rw [List.zipIdx_cons, List.foldl_cons, ih, look_put, List.length_cons]
    by_cases hx : x = off + k
    · subst hx
      rw [if_neg (by omega), if_pos rfl, if_pos (by omega), Nat.sub_self]
      rfl
    · rw [if_neg hx]
      by_cases hin : off + (k + 1) ≤ x ∧ x < off + (k + 1) + bs.length
      · rw [if_pos hin, if_pos (by omega), show x - (off + k) = (x - (off + (k + 1))) + 1 by omega]
        rfl
      · rw [if_neg hin, if_neg (by omega)]

theorem look_pagePut (p : Page) (off : Nat) (bs : List Byte) (x : Nat) : look 0 (pagePut p off bs).data x =
    if off ≤ x ∧ x < off + bs.length then nth bs (x - off) 0 else look 0 p.data x :=
  look_foldl_zipIdx bs off 0 p.data x

/-! ### Changes of a set's page. -/

section
variable {d : Dev} {t pi off n : Nat} {f : Page → Page}

@[simp] theorem hostForgets_sets : (hostForgets d t pi off n).sets = d.sets := (hostForgets_keepsStores d t pi off n).sets

@[simp] theorem changePage_waves : (changePage d t pi off n f).waves = d.waves := by
  show (hostForgets d t pi off n).waves = d.waves
  unfold hostForgets
  split
  · rfl
  · exact foldl_keeps (g := Dev.waves) (f := fun d i => forgetHost d (lineNo (_ + off + i))) (fun _ _ => rfl) _ _

theorem pageOf_changePage (h : HasPage d t pi) (u i : Nat) :
    pageOf (changePage d t pi off n f) u i = if u = t ∧ i = pi then f (pageOf d t pi) else pageOf d u i := by
  have hs : (hostForgets d t pi off n).sets = d.sets := hostForgets_sets
  have hp : HasPage (hostForgets d t pi off n) t pi := by simpa [HasPage, setOf, hs] using h
  rw [changePage, modPage, pageOf_setPage, pageOf_of_sets hs, pageOf_of_sets hs]
  exact if_congr (and_iff_left hp) rfl rfl

/-- A change that keeps a page's store and number keeps where pages are found. -/
theorem findPage_changePage (hf : ∀ p, pageName (f p) = pageName p) (u : Nat) (st : StoreId) (j : Nat) :
    findPage (setOf (changePage d t pi off n f) u) st j = findPage (setOf d u) st j := by
  have hs : (hostForgets d t pi off n).sets = d.sets := hostForgets_sets
  have ho : ∀ v, setOf (hostForgets d t pi off n) v = setOf d v := fun v => by simp only [setOf, hs]
  refine findPage_congr ?_ st j
  unfold changePage modPage setPage
  dsimp only
  rw [setOf_setSet, ho]
  split
  · next h =>
    rw [h.1, pageOf, ho]
    exact map_nthSet_same (hf _)
  · rw [ho]

end

/-! ### Cells that land (R45, R163). -/

/-- The cells of a list stand from an offset on in the C-store of a set, and every other byte of every store as before. -/
structure Lands (t : Nat) (d e : Dev) (off : Nat) (cells : List (Byte × Bool)) : Prop where
  bytes : ∀ st a, (cellAt e t st a).1 =
    if st = .c ∧ off ≤ a ∧ a < off + cells.length then (nth cells (a - off) (0, false)).1 else (cellAt d t st a).1
  others : ∀ u st a, u ≠ t → cellAt e u st a = cellAt d u st a
  pages : ∀ st j, findPage (setOf e t) st j = findPage (setOf d t) st j
  waves : e.waves = d.waves

theorem Lands.nil (t : Nat) (d : Dev) (off : Nat) : Lands t d d off [] where
  bytes st a := by rw [if_neg (by simp)]
  others _ _ _ _ := rfl
  pages _ _ := rfl
  waves := rfl

theorem Lands.append {t : Nat} {d e f : Dev} {off next : Nat} {xs ys : List (Byte × Bool)} (h1 : Lands t d e off xs)
    (h2 : Lands t e f next ys) (hnext : off + xs.length = next) : Lands t d f off (xs ++ ys) where
  bytes st a := by
    subst hnext
    rw [h2.bytes, h1.bytes, List.length_append]
    by_cases hst : st = .c
    · by_cases hx : off ≤ a ∧ a < off + xs.length
      · rw [if_neg (by omega), if_pos ⟨hst, hx⟩, if_pos (by simp only [hst, true_and]; omega), nth, nth,
          List.getElem?_append_left (by omega)]
      · by_cases hy : off + xs.length ≤ a ∧ a < off + xs.length + ys.length
        · rw [if_pos ⟨hst, hy⟩, if_pos (by simp only [hst, true_and]; omega), nth, nth, List.getElem?_append_right (by omega), Nat.sub_sub]
        · rw [if_neg (by tauto), if_neg (by tauto), if_neg (by omega)]
    · simp only [hst, false_and, if_false]
  others u st a hu := (h2.others u st a hu).trans (h1.others u st a hu)
  pages st j := (h2.pages st j).trans (h1.pages st j)
  waves := h2.waves.trans h1.waves

/-- A page with the cells of a granule. -/
def granulePut (off : Nat) (cells : List (Byte × Bool)) (z : Page) : Page :=
  let y := pagePut z (off % 4096) (bytesOf cells)
  if badIn cells then { y with poison := y.poison ||| bit256 (off % 4096 / 16) } else y

theorem granulePut_name (off : Nat) (cells : List (Byte × Bool)) (z : Page) : pageName (granulePut off cells z) = pageName z := by
  unfold granulePut
  split <;> rfl

theorem granulePut_data (off : Nat) (cells : List (Byte × Bool)) (z : Page) :
    (granulePut off cells z).data = (pagePut z (off % 4096) (bytesOf cells)).data := by
  unfold granulePut
  split <;> rfl

theorem nth_bytesOf (cells : List (Byte × Bool)) (i : Nat) : nth (bytesOf cells) i 0 = (nth cells i (0, false)).1 := by
  simp only [nth, bytesOf, List.getElem?_map]
  cases cells[i]? <;> rfl

/-- Cells within one granule of a page that a set has land there. -/
theorem lands_granule {d : Dev} {t pi off : Nat} {cells : List (Byte × Bool)} (hp : findPage (setOf d t) .c (off / 4096) = some pi)
    (hlen : off % 16 + cells.length ≤ 16) :
    Lands t d (changePage d t pi (off % 4096) cells.length (granulePut off cells)) off cells where
  bytes st a := by
    have hname := granulePut_name off cells
    obtain ⟨-, hstore, hidx⟩ := findPage_some hp
    unfold cellAt
    rw [findPage_changePage hname]
    cases hq : findPage (setOf d t) st (a / 4096) with
    | none =>
      rw [if_neg]
      rintro ⟨rfl, h1, h2⟩
      rw [show a / 4096 = off / 4096 by omega, hp] at hq
      cases hq
    | some i =>
      obtain ⟨-, hstore', hidx'⟩ := findPage_some hq
      dsimp only
      rw [pageOf_changePage (hasPage_of_find hp)]
      by_cases hi : i = pi
      · subst hi
        have hst : st = .c := hstore'.symm.trans hstore
        have hpage : a / 4096 = off / 4096 := hidx'.symm.trans hidx
        rw [if_pos ⟨rfl, rfl⟩, granulePut_data, look_pagePut, nth_bytesOf, show (bytesOf cells).length = cells.length by simp [bytesOf]]
        by_cases hin : off % 4096 ≤ a % 4096 ∧ a % 4096 < off % 4096 + cells.length
        · rw [if_pos hin, if_pos ⟨hst, by omega, by omega⟩, show a % 4096 - off % 4096 = a - off by omega]
        · rw [if_neg hin, if_neg (by omega)]
      · rw [if_neg (by tauto), if_neg]
        rintro ⟨rfl, h1, h2⟩
        rw [show a / 4096 = off / 4096 by omega, hp] at hq
        exact hi (Option.some_injective _ hq).symm
  others u st a hu := by
    unfold cellAt
    rw [findPage_changePage (granulePut_name off cells)]
    cases findPage (setOf d u) st (a / 4096) with
    | none => rfl
    | some i =>
      dsimp only
      rw [pageOf_changePage (hasPage_of_find hp), if_neg (by tauto)]
  pages st j := findPage_changePage (granulePut_name off cells) t st j
  waves := changePage_waves

/-- One piece of an output row. -/
def rowStep (t : Nat) (q : Dev × MatOp) (p : Nat × List (Byte × Bool)) : Dev × MatOp :=
  match findPage (setOf q.1 t) .c (p.1 / 4096) with
  | none => q
  | some pi =>
    let d1 := changePage q.1 t pi (p.1 % 4096) p.2.length (granulePut p.1 p.2)
    if matHeld d1 q.2 then (d1, { q.2 with fullBits := q.2.fullBits ++ [(t, pi, p.1 % 4096 / 16)] })
    else (setFull d1 t pi (p.1 % 4096 / 16) 0, q.2)

theorem writeRow_eq (d : Dev) (o : MatOp) (off : Nat) (cells : List (Byte × Bool)) :
    writeRow d o off cells = (pieces 300 off cells).foldl (rowStep (waveOf d o.wave).set) (d, o) := rfl

theorem matHeld_of_waves {d e : Dev} (h : e.waves = d.waves) (o : MatOp) : matHeld e o = matHeld d o := by
  simp only [matHeld, waveOf, h]

theorem rowStep_held {t pi off : Nat} {d : Dev} {o : MatOp} {cells : List (Byte × Bool)} (hh : matHeld d o = true)
    (hp : findPage (setOf d t) .c (off / 4096) = some pi) : rowStep t (d, o) (off, cells) =
      (changePage d t pi (off % 4096) cells.length (granulePut off cells),
        { o with fullBits := o.fullBits ++ [(t, pi, off % 4096 / 16)] }) := by
  unfold rowStep
  rw [hp]
  dsimp only
  rw [if_pos ((matHeld_of_waves changePage_waves o).trans hh)]

theorem pieces_nil (n off : Nat) : pieces n off [] = [] := by
  cases n <;> rfl

theorem pieces_cons (n off : Nat) {cells : List (Byte × Bool)} (h : 0 < cells.length) : pieces (n + 1) off cells =
    (off, cells.take (16 - off % 16)) :: pieces n (off + (16 - off % 16)) (cells.drop (16 - off % 16)) := by
  rw [pieces, if_neg (by rw [List.isEmpty_iff_length_eq_zero]; omega)]

/-- The granules that a run of cells touches are noted for their full bits. -/
def Noted (t : Nat) (d : Dev) (o : MatOp) (off n : Nat) : Prop :=
  ∀ j pi, off / 16 ≤ j → 16 * j < off + n → findPage (setOf d t) .c (j / 256) = some pi → (t, pi, j % 256) ∈ o.fullBits

/-- The pieces of a row, one after another: its cells land, and each granule of it is noted. -/
theorem foldl_rowStep {t : Nat} (n off : Nat) (cells : List (Byte × Bool)) {d : Dev} {o : MatOp} (hpos : 0 < cells.length)
    (hh : matHeld d o = true) (hn : cells.length + off % 16 ≤ 16 * n)
    (hp : ∀ a, off ≤ a → a < off + cells.length → ∃ pi, findPage (setOf d t) .c (a / 4096) = some pi) :
    Lands t d ((pieces n off cells).foldl (rowStep t) (d, o)).1 off cells ∧
    (∀ b ∈ o.fullBits, b ∈ ((pieces n off cells).foldl (rowStep t) (d, o)).2.fullBits) ∧
    Noted t d ((pieces n off cells).foldl (rowStep t) (d, o)).2 off cells.length := by
  induction n generalizing off cells d o with
  | zero => omega
  | succ n ih =>
    obtain ⟨pi, hpi⟩ := hp off le_rfl (by omega)
    have hgran := lands_granule (cells := cells.take (16 - off % 16)) hpi (by rw [List.length_take]; omega)
    have hfirst : ∀ j i, j = off / 16 → findPage (setOf d t) .c (j / 256) = some i →
        (t, i, j % 256) = (t, pi, off % 4096 / 16) := by
      rintro j i rfl hi
      rw [show off / 16 / 256 = off / 4096 by omega, hpi] at hi
      rw [Option.some_injective _ hi, show off / 16 % 256 = off % 4096 / 16 by omega]
    rw [pieces_cons n off hpos, List.foldl_cons, rowStep_held hh hpi]
    by_cases hall : cells.length ≤ 16 - off % 16
    · rw [List.drop_of_length_le hall, pieces_nil, List.take_of_length_le hall] at *
      refine ⟨hgran, fun b hb => List.mem_append_left _ hb, fun j i hj hlt hi => ?_⟩
      rw [hfirst j i (by omega) hi]
      exact List.mem_append_right _ (List.mem_singleton_self _)
    · have htake : (cells.take (16 - off % 16)).length = 16 - off % 16 := by rw [List.length_take]; omega
      have hrest := ih (off + (16 - off % 16)) (cells.drop (16 - off % 16)) (o := { o with fullBits := o.fullBits ++ [(t, pi, off % 4096 / 16)] })
        (by rw [List.length_drop]; omega) ((matHeld_of_waves hgran.waves _).trans hh) (by rw [List.length_drop]; omega)
        (fun a h1 h2 => by
          rw [List.length_drop] at h2
          obtain ⟨i, hi⟩ := hp a (by omega) (by omega)
          exact ⟨i, (hgran.pages _ _).trans hi⟩)
      obtain ⟨hlands, hkeep, hnoted⟩ := hrest
      refine ⟨?_, fun b hb => hkeep b (List.mem_append_left _ hb), fun j i hj hlt hi => ?_⟩
      · have happ := hgran.append hlands (by rw [htake])
        rwa [List.take_append_drop] at happ
      · by_cases h0 : j = off / 16
        · rw [hfirst j i h0 hi]
          exact hkeep _ (List.mem_append_right _ (List.mem_singleton_self _))
        · exact hnoted j i (by omega) (by rw [List.length_drop]; omega) ((hgran.pages _ _).trans hi)

theorem rowsLand : RowsLand := by
  intro d o off cells hh hpos hlen hp
  dsimp only
  have hpage : ∀ a, off ≤ a → a < off + cells.length → ∃ pi, findPage (setOf d (waveOf d o.wave).set) .c (a / 4096) = some pi :=
    fun a h1 h2 => hp (a / 4096) (by omega) (by omega)
  obtain ⟨hlands, -, hnoted⟩ := foldl_rowStep 300 off cells hpos hh (by omega) hpage
  rw [writeRow_eq]
  exact ⟨hlands.bytes, hlands.others, fun j h1 h2 pi hpi => hnoted j pi h1 (by omega) hpi⟩

end Sys2Proof.Machine
end

section
/-!
SUPPORT. The matrix instructions (spec/16_isa_matrix.md R288 to R314): how a word issues an operation, and the words that control the
engine.
-/
namespace Sys2Proof.Machine
open Sys2Proof.Claims

/-! ### Issue (R291, R293). -/

/-- A word that issues a matrix operation once its own operands have been taken. -/
theorem matIssues_of {i : Instr} {h : Head} {f : FmtT} {kind : MatKind} {cnt : Option W64} {s : State} {body : Act Verdict} {d : Dev}
    (hx : exec i s = runA i h body s) (ha : Admitted i [] s)
    (hb : runAct body s.mem s.dev = runAct (issueMat i h f kind cnt) s.mem d) : MatIssues i h f kind cnt s d := by
  intro q d0 r d1 o hq
  have hbody : runAct body s.mem s.dev = runAct (do
      need (configOk d0 d0.cur.1 o) (illop i)
      if q.1 = 0 then pure .retire
      else
        let r ← checkMat o cnt
        let e ← dev
        if 16 ≤ quillCount e (pcore e (vcoreOf e (me e))) then pure .stay
        else
          upd (fun d => { d with matops := d.matops ++
            [{ o with lane := q.1, cnt := r.1, lineA := r.2.1.1, epochA := r.2.1.2, lineW := r.2.2.1, epochW := r.2.2.2 }] })
          pure .retire) s.mem d0 := by
    rw [hb]
    unfold issueMat
    rw [runAct_bind_ok hq, runAct_bind_ok (runAct_dev _ _)]
  refine ⟨fun hc => traps_of hx ha ?_, fun hc h0 => retires_of hx ha ?_, fun hc h0 hr hroom => retires_of hx ha ?_⟩
  · rw [hbody, hc]
    exact runAct_bind_error (runAct_need_false _ _ _)
  · rw [hbody, runAct_need_bind hc, if_pos h0]
    rfl
  · rw [hbody, runAct_need_bind hc, if_neg h0, runAct_bind_ok hr, runAct_bind_ok (runAct_dev _ _), if_neg (by omega)]
    exact runAct_bind_ok (runAct_upd _ _ _)

theorem matrixIssue : MatrixIssue := by
  intro h f g s bare
  refine ⟨fun ha => matIssues_of rfl ha rfl, fun ha => matIssues_of rfl ha rfl, fun ha => matIssues_of rfl ha rfl,
    fun ha => matIssues_of rfl ha rfl, fun ha => matIssues_of rfl ha rfl, fun ha => matIssues_of rfl ha rfl,
    fun ha => matIssues_of rfl ha rfl, fun m va d0 d1 ha hm hva => matIssues_of rfl ha ?_⟩
  rw [runAct_bind_ok hm, runAct_bind_ok hva]
  rfl

/-! ### Configuration, fence and status (R292, R312, R314). -/

/-- The wave with a configuration register set. -/
def configured (f : FmtS) (v : W64) (x : Wave) : Wave :=
  if f.code = 0 then { x with mgeo := v } else if f.code = 1 then { x with mdesc := v }
  else if f.code = 2 then { x with mringa := v } else if f.code = 3 then { x with mringw := v }
  else { x with msparse := v }

/-- The split of an `mfence` with the number of operations that it waits for, taken at its first issue (R312). -/
def fenceSplit (d : Dev) : Split :=
  let q := mySplit d
  if q.served = 0 then { q with servedVals := put 0 [] 0 (w64 d.matops.length) } else q

theorem fenceOver_iff {d : Dev} {w : Nat} {q : Split} : fenceOver d w q = true ↔
    ∀ o ∈ d.matops.take (lane q.servedVals 0).toNat, o.wave = w → o.done = true := by
  simp only [fenceOver, List.all_eq_true, Bool.or_eq_true, decide_eq_true_eq, ← imp_iff_not_or]

section
variable {h : Head} {f : FmtS} {s : State} {m : W32} {d0 d1 : Dev} (hm : Runs (acting h false) s.mem s.dev m d0)
include hm

theorem mcfg_retires {v : W64} (ha : Admitted (.mcfg h f) [] s) (hv : Runs (sReg m f.a) s.mem d0 v d1) :
    (m = 0 → Retires (.mcfg h f) h true false s d1) ∧
    (m ≠ 0 → Retires (.mcfg h f) h true false s (setMe d1 (configured f v (me d1)))) := by
  refine ⟨fun h0 => retires_of rfl ha ?_, fun h0 => retires_of rfl ha ?_⟩
  · rw [runAct_bind_ok hm, runAct_bind_ok hv, if_pos h0]
    rfl
  · rw [runAct_bind_ok hm, runAct_bind_ok hv, if_neg h0, runAct_bind_ok (runAct_upd _ _ _)]
    refine congrArg (fun x => Except.ok (Verdict.retire, setMe d1 x)) ?_
    have hcode : ∀ k : Nat, f.code.toNat = k → f.code = BitVec.ofNat 28 k := by
      rintro k rfl
      simp
    unfold configured
    dsimp only
    split
    · next h => rw [hcode 0 h]; rfl
    · next h => rw [hcode 1 h]; rfl
    · next h => rw [hcode 2 h]; rfl
    · next h => rw [hcode 3 h]; rfl
    · next hn0 hn1 hn2 hn3 =>
      rw [if_neg (fun h => hn0 (by rw [h]; rfl)), if_neg (fun h => hn1 (by rw [h]; rfl)), if_neg (fun h => hn2 (by rw [h]; rfl)),
        if_neg (fun h => hn3 (by rw [h]; rfl))]

theorem mfence_retires (ha : Admitted (.mfence h f) [] s) (hi : m = 0 ∨ fenceOver d0 d0.cur.1 (fenceSplit d0) = true) :
    Retires (.mfence h f) h true false s d0 := by
  refine retires_of rfl ha ?_
  rw [runAct_bind_ok hm, runAct_bind_ok (runAct_dev _ _)]
  exact congrArg (fun x : Act Verdict => runAct x s.mem d0)
    (if_pos (show (decide (m = 0) || fenceOver d0 d0.cur.1 (fenceSplit d0)) = true by simpa using hi))

theorem mfence_parks (ha : Admitted (.mfence h f) [] s) (h0 : m ≠ 0) (hi : fenceOver d0 d0.cur.1 (fenceSplit d0) ≠ true) :
    Stays (.mfence h f) s (setMySplit (setMySplit d0 { fenceSplit d0 with served := m })
      { mySplit (setMySplit d0 { fenceSplit d0 with served := m }) with park := .mfence }) := by
  refine stays_of rfl ha ?_
  rw [runAct_bind_ok hm, runAct_bind_ok (runAct_dev _ _)]
  exact congrArg (fun x : Act Verdict => runAct x s.mem d0)
    (if_neg (show ¬ (decide (m = 0) || fenceOver d0 d0.cur.1 (fenceSplit d0)) = true by
      rwa [decide_eq_false h0, Bool.false_or]))

theorem mstat_retires (ha : Admitted (.mstat h f) [] s) (hp : Runs (putA 0 m f.d (fun _ => mstatWord d0 d0.cur.1)) s.mem d0 () d1) :
    Retires (.mstat h f) h true false s d1 := by
  refine retires_of rfl ha ?_
  rw [runAct_bind_ok hm, runAct_bind_ok (runAct_dev _ _), runAct_bind_ok hp]
  rfl

end

theorem matrixControl : MatrixControl := by
  intro h f s m d0 d1 hm
  refine ⟨fun v ha hv => mcfg_retires hm ha hv, fun ha => ⟨fun hi => mfence_retires hm ha ?_, fun h0 hi => mfence_parks hm ha h0 ?_⟩,
    fun ha hp => mstat_retires hm ha hp⟩
  · exact hi.imp_right fenceOver_iff.mpr
  · exact fun ho => hi (fenceOver_iff.mp ho)

/-- Settles O58: the words as their bodies run, and the rows from where the cells of their operands lie. -/
theorem matrixWords : Obligations.MatrixWords :=
  ⟨matrixIssue, matrixControl, groupPlaces, rowsOfA, columnsOfW, productLoops, rowsOfProducts, rowsOfPreloads, rowsOfPosts,
    postArithmetic, rowsLand⟩

end Sys2Proof.Machine
end
